-- ==== Sys2Proof/Word.lean ====
section
/-! DEFINITION. The machine's words (R4, R5, R17): bytes, 64-bit lane values, 128-byte lines and their masks,
256-bit release signatures, and the sparse tables that hold state by number. -/

namespace Sys2Proof

/-- One byte. -/
abbrev Byte := BitVec 8

/-- A lane value: every value in a lane is 64 bits wide (R17). -/
abbrev Word := BitVec 64

/-- The data of one 128-byte line (R209), byte 0 in bits 7:0. -/
abbrev Line := BitVec 1024

/-- One bit for each byte of a line (R212). -/
abbrev Mask := BitVec 128

/-- A release signature, a 256-bit Bloom filter (R215). -/
abbrev Sig := BitVec 256

/-- A table with a Nat key, held as a list of pairs with rising keys. -/
abbrev NMap (α : Type) := List (Nat × α)

end Sys2Proof
end

