-- ==== Sys2Proof/Syntax.lean ====
section
/-! DEFINITION. The ONE inductive of the part's operations: a constructor for every row of the opcode table.
The first 124 are the instructions of Isaef (R38 to R45), with their fields as block validation leaves them;
the other 105 are the steps of the part's agents (95_what_each_step_holds.md). -/

namespace Sys2Proof

/-- The operand slot a target names (R18). -/
inductive Slot | a | b | c
deriving DecidableEq, Repr, Inhabited

/-- A target: the consuming instruction's index and its slot (R18). -/
structure Target where
  idx : BitVec 7
  slot : Slot
deriving DecidableEq, Repr, Inhabited

/-- An operand selector (R19). A slot that is not read holds `link`, which encodes as 0x000 (R20). -/
inductive Sel
  | link
  | port (p : BitVec 4)
  | const (k : BitVec 8)
  | imm (v : BitVec 8)
deriving DecidableEq, Repr, Inhabited

/-- The predication of R16 and R21. -/
inductive Pred | always | whenTrue | whenFalse
deriving DecidableEq, Repr, Inhabited

/-- The fields every F0, F2 and F3 word has beside its opcode and M (R16). -/
structure Flds where
  u : Bool
  p : Pred
  t0 : Option Target
  t1 : Option Target
  a : Sel
  b : Sel
  c : Sel
deriving DecidableEq, Repr, Inhabited

/-- The fields of an F1 word (R23). -/
structure ImmFlds where
  u : Bool
  t0 : Option Target
  imm : BitVec 32
deriving DecidableEq, Repr, Inhabited

/-- M code IT (R25, R95). -/
inductive IntTy | i32 | n32 | i64 | n64
deriving DecidableEq, Repr, Inhabited

/-- The format bit of M codes FT and FN (R25, R113). -/
inductive FTy | f64 | f32
deriving DecidableEq, Repr, Inhabited

/-- A rounding mode (R25, R85). -/
inductive Rnd | rne | rz | ru | rd
deriving DecidableEq, Repr, Inhabited

/-- M code SZ (R25). -/
inductive Size | n8 | n16 | n32 | w64 | w128 | i8 | i16 | i32
deriving DecidableEq, Repr, Inhabited

/-- M code SZS (R25). -/
inductive StSize | n8 | n16 | n32 | w64 | w128
deriving DecidableEq, Repr, Inhabited

/-- M code SZA (R25). -/
inductive AtSize | n32 | w64 | i32
deriving DecidableEq, Repr, Inhabited

/-- The scope suffix (R42, R224). -/
inductive Scope | core | die | pkg | sys
deriving DecidableEq, Repr, Inhabited

/-- The conditions of CMP (R107). -/
inductive Cond | eq | ne | lt | le | gt | ge
deriving DecidableEq, Repr, Inhabited

/-- The conditions of FCMP (R122). -/
inductive FCond | eq | ne | lt | le | gt | ge | un | or
deriving DecidableEq, Repr, Inhabited

/-- The floating-point formats FCVT names (R26). -/
inductive CvtFmt | f64 | f32 | f16 | bf16 | e4m3 | e5m2 | tf8
deriving DecidableEq, Repr, Inhabited

/-- M code SH (R25). -/
inductive Shuf | idx | up | down | xor
deriving DecidableEq, Repr, Inhabited

/-- M code VT (R25). -/
inductive VoteOp | any | all | ballot
deriving DecidableEq, Repr, Inhabited

/-- The integer operations of PRFX and REDU (R146). -/
inductive ScanInt | add | min | max | and | or | xor
deriving DecidableEq, Repr, Inhabited

/-- The operation of a PRFX or REDU opcode with its type (R146). -/
inductive ScanOp
  | int (op : ScanInt) (ty : IntTy)
  | fadd (f : FTy) (r : Rnd)
deriving DecidableEq, Repr, Inhabited

/-- M code PL (R25). -/
inductive PrefLevel | l1 | l2
deriving DecidableEq, Repr, Inhabited

/-- M code CC (R25). -/
inductive CctlOp | wb | inv | wbinv
deriving DecidableEq, Repr, Inhabited

/-- ROUTE of a token destination word (R27). -/
inductive Route | same | core | spread | pkg
deriving DecidableEq, Repr, Inhabited

/-- The token destination word (R27). -/
structure TokenDest where
  dblock : BitVec 32
  dport : BitVec 4
  route : Route
  rel : Bool
  ownTag : Bool
deriving DecidableEq, Repr, Inhabited

/-- The launch word (R140). `ccount` is the completion count minus one. -/
structure LaunchWord where
  cblock : BitVec 24
  cport : BitVec 4
  cen : Bool
  ccount : BitVec 8
  pcount : BitVec 8
  pfirst : BitVec 8
  entry : BitVec 8
deriving DecidableEq, Repr, Inhabited

/-- The register a register word names: the per-lane special values and CORE_BANKROLE (R28). -/
inductive Reg | lane | tag | act | core | pkg | step | hid | bankrole
deriving DecidableEq, Repr, Inhabited

/-- ORD of the atomic word (R164). -/
inductive AtOrd | none | acq | rel | ar
deriving DecidableEq, Repr, Inhabited

/-- OP of the atomic word (R165). -/
inductive AtomOp | add | adds | smin | smax | umin | umax | and | or | xor | swap | cas | fadd | rdovf
deriving DecidableEq, Repr, Inhabited

/-- The atomic word (R164). -/
structure AtomWord where
  ord : AtOrd
  scope : Scope
  op : AtomOp
deriving DecidableEq, Repr, Inhabited

/-- OP of the update word (R168). -/
inductive UpdOp | add | adds | smin | smax | umin | umax | and | or | xor
deriving DecidableEq, Repr, Inhabited

/-- The update word (R168). -/
structure UpdWord where
  ord : Bool
  op : UpdOp
deriving DecidableEq, Repr, Inhabited

/-- The compaction word (R177): `offw` true means 32-bit offsets. -/
structure CmpkWord where
  offw : Bool
  offen : Bool
deriving DecidableEq, Repr, Inhabited

/-- The stream word (R275). -/
structure StreamWord where
  cblock : BitVec 32
  cport : BitVec 4
  cen : Bool
  pat : BitVec 8
  handle : BitVec 4
deriving DecidableEq, Repr, Inhabited

/-- The copy word (R279). -/
structure CopyWord where
  cblock : BitVec 32
  cport : BitVec 4
  cen : Bool
  desc : BitVec 8
deriving DecidableEq, Repr, Inhabited

/-- The control word of MXBIND and MXFIRE (R288). Only its reserved bits are checked at validation. -/
structure CtlWord where
  cblock : BitVec 24
  cport : BitVec 4
  cen : Bool
  opk : BitVec 8
  mring : BitVec 5
  nm1 : BitVec 5
  spm : BitVec 3
  tb : Bool
  ta : Bool
  rnd : Rnd
  afmt : BitVec 2
  cls : BitVec 2
deriving DecidableEq, Repr, Inhabited

/-- The epilogue word (R300). -/
structure EpiWord where
  ek : BitVec 8
  clr : Bool
  act : BitVec 2
  scale : Bool
  bias : Bool
  sat : Bool
  round : Rnd
  dfmt : BitVec 4
  dring : BitVec 5
  dkind : Bool
deriving DecidableEq, Repr, Inhabited

/-- The compare word of SYMC (R347). -/
structure CompareWord where
  hblock : BitVec 20
  hport : BitVec 4
  mblock : BitVec 20
  mport : BitVec 4
  src : Bool
  sel : BitVec 8
deriving DecidableEq, Repr, Inhabited

/-- The store word of SYMP (R349). -/
structure StoreWord where
  cblock : BitVec 24
  cport : BitVec 4
  cen : Bool
  isrc : Bool
  isel : BitVec 8
  osrc : Bool
  osel : BitVec 8
deriving DecidableEq, Repr, Inhabited

/-- The replay word of SYMR (R350). -/
structure ReplayWord where
  cblock : BitVec 24
  cport : BitVec 4
  cen : Bool
  fen : Bool
  dsrc : Bool
  flopk : BitVec 8
  dsel : BitVec 8
deriving DecidableEq, Repr, Inhabited

/-- The counters SYMQ reads (R352). -/
inductive Counter | hits | misses | absences | bytes | flops | pathlanes
deriving DecidableEq, Repr, Inhabited

/-- The counter word (R352). -/
structure CounterWord where
  counter : Counter
  cls : BitVec 4
deriving DecidableEq, Repr, Inhabited

/-- The selection word of PSEL (R357). -/
structure SelWord where
  cblock : BitVec 24
  cport : BitVec 4
  cen : Bool
  npages : BitVec 20
  ring : BitVec 5
deriving DecidableEq, Repr, Inhabited

/-- The three masters that may reach the registers (R417). -/
inductive Master | host | bmc | peer (pkg : BitVec 12)
deriving DecidableEq, Repr, Inhabited

/-- What a completion from the host carries (row HOST_COMPLETION, R414). -/
inductive HostAnswer
  | data (v : BitVec 128)
  | ack
  | poisoned
deriving DecidableEq, Repr, Inhabited

/-- What a packet of the copy transport says of its piece: the far end and the number that name it, and its address (R242, assumption
log 24). -/
structure PieceHead where
  peer : Nat
  num : Nat
  addr : BitVec 64
deriving DecidableEq, Repr, Inhabited

/-- The structures of R343 and R382 that hold uncorrectable data: what a load is to deliver; eight bytes of a core's SRAM, where a frame
or a ring slot is read; what a block's fill reads; a line, or a version of one; `matching` stands for the last row of R343. -/
inductive EccWhere
  | load (core : BitVec 8) (slot : BitVec 4) (lane : BitVec 5)
  | sram (core : BitVec 8) (addr : BitVec 22)
  | fill (core : BitVec 8) (n : Nat)
  | line (line : Nat)
  | version (ctx : BitVec 12) (hid : BitVec 8) (line : Nat)
  | matching (ctx : BitVec 12)
deriving DecidableEq, Repr, Inhabited

/-- One constructor per row of the opcode table. -/
inductive Instr
  -- integer, logic and address (R38)
  | add (ty : IntTy) (f : Flds) | sub (ty : IntTy) (f : Flds) | adds (ty : IntTy) (f : Flds)
  | subs (ty : IntTy) (f : Flds) | mul (ty : IntTy) (f : Flds) | mulh (ty : IntTy) (f : Flds)
  | mad (ty : IntTy) (f : Flds) | div (ty : IntTy) (f : Flds) | rem (ty : IntTy) (f : Flds)
  | min (ty : IntTy) (f : Flds) | max (ty : IntTy) (f : Flds) | abs (ty : IntTy) (f : Flds)
  | neg (ty : IntTy) (f : Flds) | and (ty : IntTy) (f : Flds) | andn (ty : IntTy) (f : Flds)
  | or (ty : IntTy) (f : Flds) | xor (ty : IntTy) (f : Flds) | not (ty : IntTy) (f : Flds)
  | shl (ty : IntTy) (f : Flds) | shr (ty : IntTy) (f : Flds) | sar (ty : IntTy) (f : Flds)
  | rot (ty : IntTy) (f : Flds) | popc (ty : IntTy) (f : Flds) | clz (ty : IntTy) (f : Flds)
  | ctz (ty : IntTy) (f : Flds) | brev (ty : IntTy) (f : Flds) | bfx (ty : IntTy) (f : Flds)
  | bfi (ty : IntTy) (f : Flds) | sel (ty : IntTy) (f : Flds) | mov (ty : IntTy) (f : Flds)
  | idx (sh : BitVec 3) (f : Flds) | cmp (cond : Cond) (ty : IntTy) (f : Flds)
  | imm (zx : Bool) (f : ImmFlds) | immh (f : ImmFlds)
  -- floating point and conversion (R39)
  | fadd (ft : FTy) (r : Rnd) (f : Flds) | fsub (ft : FTy) (r : Rnd) (f : Flds)
  | fmul (ft : FTy) (r : Rnd) (f : Flds) | ffma (ft : FTy) (r : Rnd) (f : Flds)
  | fmin (ft : FTy) (f : Flds) | fmax (ft : FTy) (f : Flds) | fabs (ft : FTy) (f : Flds)
  | fneg (ft : FTy) (f : Flds) | fdiv (ft : FTy) (r : Rnd) (f : Flds) | fsqrt (ft : FTy) (r : Rnd) (f : Flds)
  | frcp (ft : FTy) (f : Flds) | frsq (ft : FTy) (f : Flds) | fex2 (ft : FTy) (f : Flds)
  | flg2 (ft : FTy) (f : Flds) | fsin (ft : FTy) (f : Flds) | fcos (ft : FTy) (f : Flds)
  | ftanh (ft : FTy) (f : Flds) | frnd (ft : FTy) (r : Rnd) (f : Flds) | fscl (ft : FTy) (r : Rnd) (f : Flds)
  | fcls (ft : FTy) (f : Flds) | fcmp (cond : FCond) (ft : FTy) (f : Flds)
  | icvt (toInt : Bool) (ft : FTy) (ty : IntTy) (r : Rnd) (f : Flds)
  | fcvt (src dst : CvtFmt) (sat : Bool) (r : Rnd) (f : Flds)
  -- token, chord and system (R40)
  | send (d : TokenDest) (f : Flds) | spawn (d : TokenDest) (f : Flds) | launch (w : LaunchWord) (f : Flds)
  | doneCredit (f : Flds) | shfl (op : Shuf) (f : Flds) | bcst (f : Flds) | vote (op : VoteOp) (f : Flds)
  | mtch (f : Flds) | prfx (op : ScanOp) (f : Flds) | redu (op : ScanOp) (f : Flds)
  | srd (r : Reg) (f : Flds) | swr (r : Reg) (f : Flds) | nop (f : Flds) | trap (f : Flds) | brk (f : Flds)
  | tret (f : Flds) | kill (f : Flds)
  -- memory (R42)
  | ld (sz : Size) (f : Flds) | ldAcq (sc : Scope) (sz : Size) (f : Flds) | st (sz : StSize) (f : Flds)
  | stRel (sc : Scope) (sz : StSize) (f : Flds) | ldt (sz : Size) (d : TokenDest) (f : Flds)
  | atom (sz : AtSize) (w : AtomWord) (f : Flds) | upd (sz : AtSize) (w : UpdWord) (f : Flds)
  | fence (sc : Scope) (f : Flds) | pref (l : PrefLevel) (f : Flds) | cctl (op : CctlOp) (f : Flds)
  | bcinv (f : Flds) | frma (f : Flds) | frmf (f : Flds) | cmpk (sz : AtSize) (w : CmpkWord) (f : Flds)
  -- ring, stream and copy (R43)
  | rbind (f : Flds) | runb (f : Flds) | rget (f : Flds) | rput (f : Flds) | radv (tail : Bool) (f : Flds)
  | rwait (free : Bool) (d : TokenDest) (f : Flds) | rstat (f : Flds) | strm (w : StreamWord) (f : Flds)
  | strmw (w : StreamWord) (f : Flds) | strmq (f : Flds) | strmc (f : Flds) | cpy (w : CopyWord) (f : Flds)
  | cpyq (f : Flds) | cpyc (f : Flds)
  -- matrix (R44)
  | mxbind (slot : BitVec 2) (w : CtlWord) (f : Flds) | mxunb (slot : BitVec 2) (f : Flds)
  | mxfire (w : CtlWord) (f : Flds) | mxz (f : Flds) | mxld (f : Flds) | mxst (w : EpiWord) (f : Flds)
  | mxmute (slot : BitVec 2) (f : Flds) | mxstat (slot : BitVec 2) (f : Flds)
  | mxsave (slot : BitVec 2) (f : Flds) | mxrest (slot : BitVec 2) (f : Flds)
  -- sympathy, hypothesis and selection (R45)
  | symk (f : Flds) | symc (w : CompareWord) (f : Flds) | symr (w : ReplayWord) (f : Flds)
  | symp (w : StoreWord) (f : Flds) | syms (f : Flds) | symq (w : CounterWord) (f : Flds)
  | hfork (f : Flds) | hres (refute : Bool) (d : TokenDest) (f : Flds) | hqry (f : Flds) | hnote (f : Flds)
  | psel (w : SelWord) (f : Flds) | topk (f : Flds)
  -- steps of a core: matching, blocks, bins, chords (R189 to R204, R342)
  | tokenArrival (n : Nat) | blockFill (core : BitVec 8) (n : Nat) | fifoDivert (core : BitVec 8) (n : Nat)
  | spillReload (ctx : BitVec 12) (core : BitVec 8) | spillAppend (n : Nat)
  | binSustainExpiry (core : BitVec 8) (bin : BitVec 6) | arbitrationRound (core : BitVec 8)
  | chordCommit (core : BitVec 8) (slot : BitVec 4) | watchdog (core : BitVec 8) (slot : BitVec 4)
  -- steps of the memory system (R210 to R222, R257 to R259)
  | epochAdvance | releaseRecordFree (slice : BitVec 7) | l1Fill (core : BitVec 8) (n : Nat)
  | writeBackAccept (core : BitVec 8) | flagRelease (core : BitVec 8) | flagAcquire (slice : BitVec 7)
  | drainOrder (slice : BitVec 7) (n : Nat) | drainAnswer (slice : BitVec 7) (n : Nat)
  | acquireAnswer (slice : BitVec 7) (n : Nat) | updateAccept (slice : BitVec 7)
  | updateOperation (slice : BitVec 7) (line : Nat) | updateOperationEnd (slice : BitVec 7) (line : Nat)
  -- steps of the links (R232 to R242)
  | remoteAccess | flitReceive (port : BitVec 6) (bytes : List Byte) | negativeAcknowledge (port : BitVec 6) (seq : BitVec 12)
  | portRetrain (port : BitVec 6) | retrainEnd (port : BitVec 6) (ok : Bool) | routeLost (pkg : BitVec 12)
  | routeReturn (pkg : BitVec 12) | timeFlitSend | timeFlit (time : BitVec 64) | domainTimeLost
  | ethernetPacket (port : BitVec 2) (ok : Bool) (head : PieceHead) (bytes : List Byte)
  -- steps of streams, copies and the matrix engine (R276 to R280, R313 to R321)
  | streamTile (core : BitVec 8) (n : Nat) | streamEnd (core : BitVec 8) (n : Nat)
  | streamError (core : BitVec 8) (n : Nat) | copyStart (e : BitVec 5) | copyEnd (e : BitVec 5)
  | stageComplete (core : BitVec 8) (cand : BitVec 3) (ring : BitVec 5) | firingStart (core : BitVec 8)
  | firingRetire (core : BitVec 8) | drainStart (core : BitVec 8) | drainEnd (core : BitVec 8)
  | mutePassed (core : BitVec 8) (slot : BitVec 2)
  -- steps of the scheduler and the graph loader (R329 to R335)
  | residencyDecision | preemptBegin (ctx : BitVec 12) | preemptChordAbandon (core : BitVec 8) (slot : BitVec 4)
  | preemptSave (ctx : BitVec 12) | preemptSaveComplete (ctx : BitVec 12) | contextRestore (ctx : BitVec 12)
  | launchRequest (n : Nat) | endOrder (ctx : BitVec 12) (act : BitVec 16)
  -- steps of the hypothesis agent, the comparators and PSEL (R347 to R358, R379 to R385)
  | hypothesisRequest (ctx : BitVec 12) | sweepPhaseB (ctx : BitVec 12) | sweepEnd (ctx : BitVec 12)
  | speculativeReservation (core : BitVec 8) (slot : BitVec 4) | hypothesisCapacity (core : BitVec 8) (slot : BitVec 4)
  | symcCompare (n : Nat) | sympStore (n : Nat) | symrReplay (n : Nat) | pselSelect (n : Nat)
  -- translation (R388 to R399)
  | translationWalk (core : BitVec 8) (ctx : BitVec 12) (va : BitVec 57) | faultResume (m : Master) (id : BitVec 32)
  | faultRefuse (m : Master) (id : BitVec 32) | invalidateRange (m : Master) (ctx : BitVec 12) (gran : BitVec 2) (count : BitVec 16)
  | invalidateContext (m : Master) (ctx : BitVec 12) | invalidateAll (m : Master) | invalidationEnd
  -- context commands (R326)
  | ctxPreempt (m : Master) (ctx : BitVec 12) | ctxStop (m : Master) (ctx : BitVec 12) | ctxResume (m : Master) (ctx : BitVec 12)
  | ctxEnd (m : Master) (ctx : BitVec 12) | ctxReload (m : Master) (ctx : BitVec 12)
  -- the host link and ownership (R405 to R420)
  | ingressWrite (port : BitVec 8) (off : BitVec 12) (bytes : List Byte) | bar2Write (addr : Nat) (bytes : List Byte)
  | bar2Read (addr : Nat) (len : Nat) | completionRecord | eventWrite | hostEvctlWrite (m : Master) (v : Word)
  | hostEvtailWrite (m : Master) (v : Word) | hostCasResponse (id : Nat) (seen : Word) | hostClaim (m : Master)
  | hostPeerset (m : Master) (pkg : BitVec 12) | hostHandover (m : Master) (v : Word) | handoverEffect
  | registerWrite (m : Master) (off : Nat) (v : Word)
  -- security and boot (R421 to R428)
  | bootStart (m : Master) | bootComplete | stagingWrite (m : Master) (off : Nat) (bytes : List Byte) | secLock (m : Master) (v : Word)
  | keyLoad (m : Master) (v : Word) | attestationRequest (m : Master) | attestationDone | reset
  -- power, management and debugging (R429 to R437)
  | powerCap (now : BitVec 12) | temperatureWarning (die : BitVec 4) (temp : BitVec 8)
  | hbmThrottle (stack : BitVec 4) (temp : BitVec 8) | trip (hbm : Bool) (temp : BitVec 8) | mgmtCool (m : Master) (code : Byte)
  | i3cAccess (bytes : List Byte) | memdataRead (m : Master) | memdataWrite (m : Master) (v : Word)
  | eccError (n : BitVec 3) (bad : Option EccWhere) | replayInject | replayTimeout (core : BitVec 8)
  | hostCompletion (id : Nat) (ans : HostAnswer)
deriving DecidableEq, Repr, Inhabited

end Sys2Proof
end

