-- ==== Sys2Proof/Config.lean ====
section
/-! DEFINITION. What the manual fixes for every module (sizes and times), and the free values: constants with no
body, so that nothing can evaluate them and a statement that mentions one holds for every value it could have. -/

namespace Sys2Proof

/-- The body of a link packet other than a token, as its sender meant it (R231, R238). Its byte layout is open. -/
structure RemoteReq where
  /-- 0 read, 1 write, 2 atomic, 3 update, 4 copy write, 5 response, 6 acknowledgement, 7 flag read that acquires,
  8 flag write that releases, 9 drain order, 10 drain answer, 11 poisoned response, 12 release refused for want of a
  record, 13 a claim's beginning and 14 its COUNT, with the number of the beginning in `cmp` (R178). A release sent again has
  `ord` set and its signature in the data (R221); a COUNT with `ord` set leaves it as it is. 15 writes those bits of one byte that
  are set in `cmp` (R276), for a copy with `ord` set. 23 says that an update has been performed (R216), and 24 that an access was
  refused under R423 (assumption log 40). The loaders of two packages tell each other (R182, R335, R336; assumption log 22): 16 a DONE credit with its
release signature, 17 an end order and 18 that it is carried out, 19 an activation to place and 20 the cores it took (or a FREASON),
21 its cores on every package and 22 that they are known; the activation is named by `ctx` and `id`. -/
  what : Nat
  srcPkg : BitVec 12
  srcCore : BitVec 8
  ctx : BitVec 12
  /-- The requester's number of the request, which the response repeats. -/
  id : Nat
  pa : Nat
  len : Nat
  /-- The key slot of the requester's leaf (R424), and its SEC (R423). -/
  key : BitVec 8
  sec : Bool := false
  /-- Data; a response to an acquisition and a drain answer hold the signature from bit 128 on. -/
  data : BitVec 1024
  cmp : BitVec 64
  size : AtSize
  op : AtomOp
  ord : Bool
  sync : AtOrd
  /-- What a loader's message lists. -/
  words : List (BitVec 64) := []
deriving DecidableEq, Repr, Inhabited

namespace Config

/-! ### Sizes and times the manual fixes -/

/-- Bytes of HBM in one package: 16 stacks of 48 GiB (R1). -/
def memBytes : Nat := 768 * 2 ^ 30

/-- Ac cycles of one epoch (R213). -/
def epochCycles : Nat := 16384

/-- The longest wait in the ingress FIFO (R194). -/
def divertCycles : Nat := 4096

/-- The bound on running chords at a pre-emption, and on reservations (R331, R383). -/
def abandonCycles : Nat := 16384

/-- The unit of QUANTUM and WDOG, of periodic scheduling, and of time flits (R325, R330, R239). -/
def slice64k : Nat := 65536

/-- Entries of the matching store and ways of a set (R188). -/
def matchEntries : Nat := 8192
def matchWays : Nat := 16

/-- Frames of one FRAME bank (R247). -/
def framesPerBank : Nat := 1024

/-- Tokens of the ingress FIFO in the core and in each FIFO bank (R194). -/
def fifoCore : Nat := 64
def fifoPerBank : Nat := 2048

/-- References of one bin (R197). -/
def binRefs : Nat := 64

/-- Lane entries of the commit buffer and tokens of the send buffer (R203). -/
def commitRoom : Nat := 2048
def sendRoom : Nat := 1024

/-- Entries of an update window (R257), release records of a slice (R220), pending releasers of a record. -/
def windowEntries : Nat := 64
def releaseRecords : Nat := 256
def pendingReleasers : Nat := 4

/-- Ways of an L2 set, and those of them that may hold speculative lines (R255). -/
def l2Ways : Nat := 16
def specWays : Nat := 4

/-- Outstanding page faults (R398). -/
def maxFaults : Nat := 1024

/-- Refused records of a block cache (R260) and its segments of 64 bytes. -/
def refusedRecords : Nat := 64
def cacheSegments : Nat := 2048

/-- Leaf translations of a micro-TLB and of a slice, and non-leaf entries of a slice (R395). -/
def utlbEntries : Nat := 64
def sliceLeaves : Nat := 2048
def sliceNonLeaves : Nat := 512

/-- Contexts resident on one package (R184). -/
def residentContexts : Nat := 16

/-- Copies queued on one engine (R280), and ended copies it remembers (R281). -/
def copyQueue : Nat := 64
def copyHistory : Nat := 256

/-- Steps of the MXFIRE queue (R316). -/
def fireQueue : Nat := 8

/-- Events waiting on X-die 0 (R412). -/
def eventQueue : Nat := 256

/-- Tokens an X-die holds for want of a route (R236). -/
def heldTokens : Nat := 4096

/-- Tokens the memory-side agent holds for a full spill table (R341). -/
def heldSpill : Nat := 1024

/-- Flits of a replay buffer (R232). -/
def replayFlits : Nat := 2048

/-- Loaded images a package keeps (R329). -/
def loadedImages : Nat := 256

/-! ### Free values -/

/-- A value the manual leaves open, by the number of the occasion. -/
opaque freeWord : Nat → BitVec 64

/-- A byte the manual leaves open (R424: bytes read under another key; reads of memory that is not installed). -/
opaque freeByte : Nat → Byte

/-- A choice the manual leaves open (R174, R254, R260, R395), by the number of the occasion. -/
opaque pick : Nat → Nat

/-- The candidate value of an approximation (R126: a fixed function of its input bits), by function number 0 FRCP,
1 FRSQ, 2 FEX2, 3 FLG2, 4 FSIN, 5 FCOS, 6 FTANH, by format and by input bits. R125 bounds it; `Machine.approx` keeps the bound. -/
opaque approxBits : Nat → FTy → Word → Word

/-- SHA-384 (R427), a function of another standard. -/
opaque sha384 : List Byte → BitVec 384

/-- Ed25519 verification (RFC 8032): key, message, signature (R427). -/
opaque ed25519Ok : List Byte → List Byte → List Byte → Bool

/-- ML-DSA-65 verification (FIPS 204): key, message, signature (R427). -/
opaque mldsaOk : List Byte → List Byte → List Byte → Bool

/-- The fused hashes of the two public keys, and the fused security version (R427). -/
opaque fusedEdHash : BitVec 384
opaque fusedMldsaHash : BitVec 384
opaque fusedSvn : BitVec 32

/-- The key the security processor draws for a slot at a boot (R425), by boot number and slot. -/
opaque bootKey : Nat → Nat → BitVec 512

/-- What firmware raises the fused counter to in a boot (R427), by boot number: it may, and how far is its choice. -/
opaque svnRaise : Nat → BitVec 32

/-- The bytes of the attestation report before its signatures (R428), as a function of nonce, measurement, SVN, LOCK, package ID and
the SHA-384 of the world registers and region table: their layout is not given. -/
opaque reportBody : BitVec 256 → BitVec 384 → BitVec 32 → Bool → BitVec 12 → BitVec 384 → List Byte

/-- The firmware alias pair that the ROM derives from the unique secret and a measurement, by its two public keys; its certificate by
the device identity; and the two signatures that it makes of a message (R428). -/
opaque aliasPair : BitVec 384 → List Byte
opaque aliasCertificate : List Byte → List Byte
opaque aliasSignatures : List Byte → List Byte → List Byte

/-- The certificates of the device identity pair (R428), whose bytes are not given. -/
opaque certificates : List Byte

/-- What a link header says: packet kind, length in bytes and hop count (R231). Its bit layout is open. -/
opaque linkHeader : BitVec 32 → Nat × Nat × Nat

/-- What the body of a link packet other than a token says (R231). Its byte layout is open. -/
opaque linkBody : Nat → List Byte → RemoteReq

/-- The destination package of a link packet other than a token. -/
opaque linkDst : Nat → List Byte → BitVec 12

/-- The link header and the body that a packet is sent with, by kind, length and hop count, and by what the body says. -/
opaque linkHeaderOf : Nat → Nat → Nat → BitVec 32
opaque linkBodyOf : Nat → BitVec 12 → RemoteReq → List Byte

/-- The bytes of the body of an acknowledge or negative-acknowledge flit, and of a time flit with its time (R231): open. -/
opaque ackBody : BitVec 12 → Nat → Byte
opaque timeBody : BitVec 64 → Nat → Byte

/-- What a package measures of the way from its neighbour on a port (R239), by port and occasion, in ac cycles. -/
opaque hopDelay : Nat → Nat → Nat

/-- Where among the management registers the discard counter of a port is read (R233): the spec gives the counter no offset. -/
opaque discardAt : Nat → Nat

/-- How many of the flits that a failed port has not had acknowledged the far side had taken (R232), by port and occasion. -/
opaque farTook : Nat → Nat → Nat

/-- Words 2 and 3 of a log entry other than a chord's (R436), by its KIND and what it records. Their layout is open. -/
opaque logWords : Nat → List Nat → BitVec 64 × BitVec 64

/-- The words of the token that a logged ingress entry stands for (R437), by its words 2 and 3. -/
opaque logToken : BitVec 64 → BitVec 64 → List (BitVec 64)

/-- What a logged batch entry stands for (R437), by its words 2 and 3. -/
opaque logBatch : BitVec 64 → BitVec 64 → List Nat

end Config
end Sys2Proof
end

