-- ==== Sys2Proof/WellFormed.lean ====
section
/-! DEFINITION. Which instructions block validation accepts, as far as one instruction word with its extension
word decides it (R18 to R28, and the encoding limits of the instruction chapters). The rules that need the whole
block (targets, producers, header) are in Decode.lean. -/

namespace Sys2Proof

/-- The U column of the opcode map (R22). -/
inductive URule | y | n | r
deriving DecidableEq, Repr, Inhabited

/-- What the opcode map says of one instruction: its U rule, the slots it reads as data, whether P must be 00,
whether it yields a value, and the range of each static-resource slot (R20 to R22). -/
structure Shape where
  u : URule
  rdA : Bool := false
  rdB : Bool := false
  rdC : Bool := false
  noP : Bool := false
  yields : Bool := false
  stA : Option Nat := none
  stB : Option Nat := none
  stC : Option Nat := none
deriving DecidableEq, Repr, Inhabited

namespace Shape
def un (u : URule := .y) : Shape := { u, rdA := true, yields := true }
def bin (u : URule := .y) : Shape := { u, rdA := true, rdB := true, yields := true }
def tri (u : URule := .y) : Shape := { u, rdA := true, rdB := true, rdC := true, noP := true, yields := true }
def none (u : URule) : Shape := { u }
def act1 (u : URule) : Shape := { u, rdA := true }
def act2 (u : URule) : Shape := { u, rdA := true, rdB := true }
/-- An instruction that names a ring, or a ring with one operand (R43). -/
def ring (u : URule) (b c y : Bool) : Shape := { u, rdA := true, rdB := b, rdC := c, noP := c, yields := y, stA := some 32 }
end Shape

/-- The fields of an F0, F2 or F3 instruction; none for IMM, IMMH and the agents' steps. -/
def Instr.flds : Instr → Option Flds
  | .add _ f | .sub _ f | .adds _ f | .subs _ f | .mul _ f | .mulh _ f | .mad _ f | .div _ f | .rem _ f
  | .min _ f | .max _ f | .abs _ f | .neg _ f | .and _ f | .andn _ f | .or _ f | .xor _ f | .not _ f
  | .shl _ f | .shr _ f | .sar _ f | .rot _ f | .popc _ f | .clz _ f | .ctz _ f | .brev _ f | .bfx _ f
  | .bfi _ f | .sel _ f | .mov _ f | .idx _ f | .cmp _ _ f => some f
  | .fadd _ _ f | .fsub _ _ f | .fmul _ _ f | .ffma _ _ f | .fmin _ f | .fmax _ f | .fabs _ f | .fneg _ f
  | .fdiv _ _ f | .fsqrt _ _ f | .frcp _ f | .frsq _ f | .fex2 _ f | .flg2 _ f | .fsin _ f | .fcos _ f
  | .ftanh _ f | .frnd _ _ f | .fscl _ _ f | .fcls _ f | .fcmp _ _ f | .icvt _ _ _ _ f | .fcvt _ _ _ _ f => some f
  | .send _ f | .spawn _ f | .launch _ f | .doneCredit f | .shfl _ f | .bcst f | .vote _ f | .mtch f
  | .prfx _ f | .redu _ f | .srd _ f | .swr _ f | .nop f | .trap f | .brk f | .tret f | .kill f => some f
  | .ld _ f | .ldAcq _ _ f | .st _ f | .stRel _ _ f | .ldt _ _ f | .atom _ _ f | .upd _ _ f | .fence _ f
  | .pref _ f | .cctl _ f | .bcinv f | .frma f | .frmf f | .cmpk _ _ f => some f
  | .rbind f | .runb f | .rget f | .rput f | .radv _ f | .rwait _ _ f | .rstat f | .strm _ f | .strmw _ f
  | .strmq f | .strmc f | .cpy _ f | .cpyq f | .cpyc f => some f
  | .mxbind _ _ f | .mxunb _ f | .mxfire _ f | .mxz f | .mxld f | .mxst _ f | .mxmute _ f | .mxstat _ f
  | .mxsave _ f | .mxrest _ f => some f
  | .symk f | .symc _ f | .symr _ f | .symp _ f | .syms f | .symq _ f | .hfork f | .hres _ _ f | .hqry f
  | .hnote f | .psel _ f | .topk f => some f
  | _ => none

/-- The opcode map's row of an instruction, with the slots its extension word makes unread (R20). DESIGN CHOICE (assumption log 46): MXST may
carry no predicate, as R286 says, though it is not one of the four opcodes that R21 names. -/
def Instr.shape : Instr → Option Shape
  | .add .. | .sub .. | .adds .. | .subs .. | .mul .. | .mulh .. | .div .. | .rem .. | .min .. | .max ..
  | .and .. | .andn .. | .or .. | .xor .. | .shl .. | .shr .. | .sar .. | .rot .. | .bfx .. | .cmp .. => some .bin
  | .abs .. | .neg .. | .not .. | .popc .. | .clz .. | .ctz .. | .brev .. | .mov .. => some .un
  | .mad .. | .bfi .. | .sel .. | .idx .. => some .tri
  | .fadd .. | .fsub .. | .fmul .. | .fmin .. | .fmax .. | .fdiv .. | .fscl .. | .fcmp .. => some .bin
  | .ffma .. => some .tri
  | .fabs .. | .fneg .. | .fsqrt .. | .frcp .. | .frsq .. | .fex2 .. | .flg2 .. | .fsin .. | .fcos .. | .ftanh ..
  | .frnd .. | .fcls .. | .icvt .. | .fcvt .. => some .un
  | .send d _ => some { u := .n, rdA := true, rdB := !d.ownTag, rdC := d.route == .core || d.route == .pkg,
                        noP := d.route == .core || d.route == .pkg }
  | .spawn d _ => some { u := .n, rdA := true, rdC := d.route == .core || d.route == .pkg,
                         noP := d.route == .core || d.route == .pkg, yields := true }
  | .launch .. => some (.act2 .n)
  | .doneCredit _ => some (.act1 .y)
  | .shfl .. | .bcst _ => some (.bin .n)
  | .vote .. | .mtch _ | .prfx .. | .redu .. => some (.un .n)
  | .srd .. => some { u := .y, yields := true }
  | .swr .. => some (.act1 .r)
  | .nop _ | .brk _ => some (.none .n)
  | .trap _ | .tret _ | .kill _ => some (.act1 .n)
  | .ld .. | .ldAcq .. => some .bin
  | .st sz _ => some { u := .n, rdA := true, rdB := true, rdC := sz == .w128, noP := sz == .w128 }
  | .stRel .. => some (.act2 .n)
  | .ldt .. => some (.act2 .n)
  | .atom _ w _ => some { u := .n, rdA := true, rdB := w.op != .rdovf, rdC := w.op == .cas, noP := w.op == .cas, yields := true }
  | .upd .. => some (.act2 .n)
  | .fence .. => some { u := .n, noP := true }
  | .pref .. | .cctl .. => some (.act1 .y)
  | .bcinv _ => some { u := .y, rdA := true, rdB := true, noP := true }
  | .frma _ => some { u := .n, rdA := true, noP := true, yields := true }
  | .frmf _ => some { u := .n, rdA := true, noP := true }
  | .cmpk .. => some (.bin .n)
  | .rbind _ => some (.ring .r true false true)
  | .runb _ => some (.ring .r false false false)
  | .rget _ => some (.ring .n true false true)
  | .rput _ => some (.ring .n true true false)
  | .radv .. | .rwait .. | .strm .. | .strmw .. => some (.ring .r true false false)
  | .rstat _ => some (.ring .y false false true)
  | .strmq _ => some { u := .y, rdA := true, yields := true, stA := some 16 }
  | .strmc _ => some { u := .r, rdA := true, stA := some 16 }
  | .cpy .. => some .bin
  | .cpyq _ => some .un
  | .cpyc _ => some (.act1 .y)
  | .mxbind .. | .mxfire .. => some { u := .r, rdA := true, rdB := true, rdC := true, noP := true,
                                      stA := some 32, stB := some 32, stC := some 8 }
  | .mxunb .. | .mxmute .. => some (.none .r)
  | .mxz _ => some { u := .r, rdA := true, stA := some 8 }
  | .mxld _ => some { u := .r, rdA := true, rdB := true, stA := some 8 }
  | .mxst w _ => some { u := .r, rdA := true, rdB := !w.dkind, noP := true, stA := some 8 }
  | .mxstat .. => some { u := .y, yields := true }
  | .mxsave .. | .mxrest .. => some (.act1 .r)
  | .symk _ => some .bin
  | .symc .. | .symr .. => some (.act2 .y)
  | .symp .. => some { u := .y, rdA := true, rdB := true, rdC := true, noP := true }
  | .syms _ => some (.none .r)
  | .symq .. => some { u := .y, yields := true }
  | .hfork _ => some { u := .y, yields := true }
  | .hres .. => some (.act1 .y)
  | .hqry _ => some .un
  | .hnote _ => some (.act2 .y)
  | .psel .. => some { u := .y, rdA := true, rdB := true, rdC := true, noP := true }
  | .topk _ => some (.tri .n)
  | _ => none

/-- A slot that is not read holds the selector 0x000; a static-resource slot holds an immediate in range (R20). -/
def selUnread (rd : Bool) (s : Sel) : Bool := rd || s == .link

def selStatic (st : Option Nat) (s : Sel) : Bool :=
  match st, s with
  | none, _ => true
  | some n, .imm v => v.toNat < n
  | some _, _ => false

/-- The U bit follows the U column (R22). -/
def Shape.uOk (sh : Shape) (u : Bool) : Bool :=
  match sh.u with
  | .y => true
  | .n => !u
  | .r => u

/-- C is read as data, or as the predicate when P is 01 or 10 (R21). -/
def Shape.readsC (sh : Shape) (f : Flds) : Bool := sh.rdC || f.p != .always

/-- P is 00 where C is data or the description requires it (R21). -/
def Shape.pOk (sh : Shape) (f : Flds) : Bool := f.p == .always || !sh.noP

/-- The unread slots of a word (R20). -/
def Shape.slotsOk (sh : Shape) (f : Flds) : Bool :=
  selUnread sh.rdA f.a && selUnread sh.rdB f.b && selUnread (sh.readsC f) f.c

/-- The static-resource slots of a word (R20). -/
def Shape.staticOk (sh : Shape) (f : Flds) : Bool :=
  selStatic sh.stA f.a && selStatic sh.stB f.b && selStatic sh.stC f.c

/-- An instruction that yields no value has no target (R18). -/
def Shape.targetsOk (sh : Shape) (f : Flds) : Bool := sh.yields || (f.t0.isNone && f.t1.isNone)

/-- An FCVT pair is assigned: the formats differ and one of them is .f64 or .f32 (R26). -/
def cvtAssigned (src dst : CvtFmt) : Bool :=
  src != dst && (src == .f64 || src == .f32 || dst == .f64 || dst == .f32)

/-- An FCVT pair is exact: every pair from a narrow format, and .f64 from .f32 (R127). -/
def cvtExact (src dst : CvtFmt) : Bool := !(src == .f64 || (src == .f32 && dst != .f64))

/-- The destination word RWAIT, LDT and HRES may carry (R163, R272, R354). -/
def TokenDest.ownOk (d : TokenDest) : Bool :=
  d.ownTag && !d.rel && (d.route == .same || d.route == .spread)

/-- M values that an instruction's own description refuses (R127, R162, R163). -/
def Instr.mOk : Instr → Bool
  | .fcvt s d sat r _ => cvtAssigned s d && (!cvtExact s d || (!sat && r == .rne))
  | .ldAcq _ sz _ => sz != .w128
  | .stRel _ sz _ => sz == .w64
  | .ldt sz _ _ => sz != .w128
  | _ => true

/-- Extension-word values that an instruction's own description refuses with reason 0x25. -/
def Instr.extOk : Instr → Bool
  | .spawn d _ => !d.ownTag && d.route != .pkg && !d.rel
  | .launch w _ => w.pfirst.toNat + w.pcount.toNat ≤ 256
  | .swr r _ => r == .bankrole
  | .ldt _ d _ | .rwait _ d _ | .hres _ d _ => d.ownOk
  | .atom sz w f => !(w.ord == .none && w.scope != .core) && !(w.op == .fadd && sz == .i32)
      && !((w.ord == .acq || w.ord == .ar) && f.t0.isNone && f.t1.isNone)
  | .cpy w _ => w.desc.toNat ≤ 247
  | .symr w _ => w.fen || w.flopk == 0
  | _ => true

/-- Whether a row of the opcode table is an instruction of Isaef. -/
def Instr.isIsa (i : Instr) : Bool :=
  match i with
  | .imm .. | .immh .. => true
  | i => i.flds.isSome

/-- One instruction's own part of block validation. An agent's step has no encoding and no rule to break. -/
def Instr.WellFormed (i : Instr) : Bool :=
  i.mOk && i.extOk &&
  match i.flds, i.shape with
  | some f, some sh => sh.pOk f && sh.uOk f.u && sh.slotsOk f && sh.staticOk f && sh.targetsOk f
  | _, _ => true

end Sys2Proof
end

