-- ==== Sys2Proof/Decode.lean ====
section
/-! DEFINITION. Decoding and encoding of Isaef (R12 to R45): one instruction with its extension word, in words and in
bytes; the block header; and block validation with the syndrome of R31. Decoding is total and refuses by the reason
code of R31. The agents' steps of the opcode table have no encoding. -/

namespace Sys2Proof

/-! ### Fields of the words -/

/-- Bits hi:lo of a word. -/
def bits (w : Word) (lo len : Nat) : BitVec len := w.extractLsb' lo len

def encTarget : Option Target → BitVec 9
  | none => 0x1FF
  | some ⟨i, .a⟩ => i ++ (0 : BitVec 2)
  | some ⟨i, .b⟩ => i ++ (1 : BitVec 2)
  | some ⟨i, .c⟩ => i ++ (2 : BitVec 2)

/-- A target field; a slot value of 11 other than 0x1FF reads as no target here and is refused below (R18). -/
def decTarget (x : BitVec 9) : Option Target :=
  match x.extractLsb' 0 2 with
  | 0 => some ⟨x.extractLsb' 2 7, .a⟩
  | 1 => some ⟨x.extractLsb' 2 7, .b⟩
  | 2 => some ⟨x.extractLsb' 2 7, .c⟩
  | _ => none

def encSel : Sel → BitVec 10
  | .link => 0
  | .port p => (1 : BitVec 2) ++ (0 : BitVec 4) ++ p
  | .const k => (2 : BitVec 2) ++ k
  | .imm v => (3 : BitVec 2) ++ v

/-- An operand selector (R19); its must-be-zero bits are checked by encoding it again. -/
def decSel (x : BitVec 10) : Sel :=
  match x.extractLsb' 8 2 with
  | 0 => .link
  | 1 => .port (x.extractLsb' 0 4)
  | 2 => .const (x.extractLsb' 0 8)
  | _ => .imm (x.extractLsb' 0 8)

def encPred : Pred → BitVec 2
  | .always => 0
  | .whenTrue => 1
  | .whenFalse => 2

def decPred (x : BitVec 2) : Pred :=
  match x with
  | 1 => .whenTrue
  | 2 => .whenFalse
  | _ => .always

def encBool (b : Bool) : BitVec 1 := if b then 1 else 0
def decBool (x : BitVec 1) : Bool := x == 1

def encRnd : Rnd → BitVec 2
  | .rne => 0 | .rz => 1 | .ru => 2 | .rd => 3
def decRnd (x : BitVec 2) : Rnd :=
  match x with
  | 0 => .rne | 1 => .rz | 2 => .ru | _ => .rd

/-- The F0 layout (R16). -/
def packWord (opc : BitVec 10) (m : BitVec 3) (f : Flds) : Word :=
  opc ++ encBool f.u ++ encPred f.p ++ m ++ encTarget f.t0 ++ encTarget f.t1 ++ encSel f.a ++ encSel f.b ++ encSel f.c

/-- The F1 layout (R23). -/
def packImm (opc : BitVec 10) (m : BitVec 3) (f : ImmFlds) : Word :=
  opc ++ encBool f.u ++ (0 : BitVec 2) ++ m ++ encTarget f.t0 ++ (0 : BitVec 7) ++ f.imm

/-- The fields of a word read as F0 (R16). -/
def unpackWord (w : Word) : Flds :=
  { u := decBool (bits w 53 1), p := decPred (bits w 51 2), t0 := decTarget (bits w 39 9), t1 := decTarget (bits w 30 9),
    a := decSel (bits w 20 10), b := decSel (bits w 10 10), c := decSel (bits w 0 10) }

/-- The fields of a word read as F1 (R23). -/
def unpackImm (w : Word) : ImmFlds :=
  { u := decBool (bits w 53 1), t0 := decTarget (bits w 39 9), imm := bits w 0 32 }

/-! ### M codes (R25) -/

def encTy : IntTy → BitVec 3
  | .i32 => 0 | .n32 => 1 | .i64 => 2 | .n64 => 3
def decTy (m : BitVec 3) : Option IntTy :=
  match m with
  | 0 => some .i32 | 1 => some .n32 | 2 => some .i64 | 3 => some .n64 | _ => none

def encFTy : FTy → BitVec 1
  | .f64 => 0 | .f32 => 1
def decFTy (x : BitVec 1) : FTy := if x == 1 then .f32 else .f64

def encFT (ft : FTy) (r : Rnd) : BitVec 3 := encFTy ft ++ encRnd r
def encFN (ft : FTy) : BitVec 3 := encFTy ft ++ (0 : BitVec 2)
def decFN (m : BitVec 3) : Option FTy :=
  if m.extractLsb' 0 2 == 0 then some (decFTy (m.extractLsb' 2 1)) else none

def encSize : Size → BitVec 3
  | .n8 => 0 | .n16 => 1 | .n32 => 2 | .w64 => 3 | .w128 => 4 | .i8 => 5 | .i16 => 6 | .i32 => 7
def decSize (m : BitVec 3) : Size :=
  match m with
  | 0 => .n8 | 1 => .n16 | 2 => .n32 | 3 => .w64 | 4 => .w128 | 5 => .i8 | 6 => .i16 | _ => .i32

def encStSize : StSize → BitVec 3
  | .n8 => 0 | .n16 => 1 | .n32 => 2 | .w64 => 3 | .w128 => 4
def decStSize (m : BitVec 3) : Option StSize :=
  match m with
  | 0 => some .n8 | 1 => some .n16 | 2 => some .n32 | 3 => some .w64 | 4 => some .w128 | _ => none

def encAtSize : AtSize → BitVec 3
  | .n32 => 2 | .w64 => 3 | .i32 => 7
def decAtSize (m : BitVec 3) : Option AtSize :=
  match m with
  | 2 => some .n32 | 3 => some .w64 | 7 => some .i32 | _ => none

def encShuf : Shuf → BitVec 3
  | .idx => 0 | .up => 1 | .down => 2 | .xor => 3
def decShuf (m : BitVec 3) : Option Shuf :=
  match m with
  | 0 => some .idx | 1 => some .up | 2 => some .down | 3 => some .xor | _ => none

def encVote : VoteOp → BitVec 3
  | .any => 0 | .all => 1 | .ballot => 2
def decVote (m : BitVec 3) : Option VoteOp :=
  match m with
  | 0 => some .any | 1 => some .all | 2 => some .ballot | _ => none

def encCctl : CctlOp → BitVec 3
  | .wb => 0 | .inv => 1 | .wbinv => 2
def decCctl (m : BitVec 3) : Option CctlOp :=
  match m with
  | 0 => some .wb | 1 => some .inv | 2 => some .wbinv | _ => none

def encPref : PrefLevel → BitVec 3
  | .l1 => 0 | .l2 => 1

/-- A one-bit M code: 000 or 001 (XE, PL, RW, HR). -/
def decFlagM (m : BitVec 3) : Option Bool :=
  match m with
  | 0 => some false | 1 => some true | _ => none
def encFlagM (b : Bool) : BitVec 3 := if b then 1 else 0

/-- M code SL: a binding slot. -/
def decSlotM (m : BitVec 3) : Option (BitVec 2) := if m.extractLsb' 2 1 == 0 then some (m.extractLsb' 0 2) else none
def encSlotM (s : BitVec 2) : BitVec 3 := (0 : BitVec 1) ++ s

/-! ### Codes inside opcodes -/

def encScope : Scope → BitVec 2
  | .core => 0 | .die => 1 | .pkg => 2 | .sys => 3
def decScope (x : BitVec 2) : Scope :=
  match x with
  | 0 => .core | 1 => .die | 2 => .pkg | _ => .sys

def encCond : Cond → Nat
  | .eq => 0 | .ne => 1 | .lt => 2 | .le => 3 | .gt => 4 | .ge => 5
def encFCond : FCond → Nat
  | .eq => 0 | .ne => 1 | .lt => 2 | .le => 3 | .gt => 4 | .ge => 5 | .un => 6 | .or => 7
def encCvt : CvtFmt → Nat
  | .f64 => 0 | .f32 => 1 | .f16 => 2 | .bf16 => 3 | .e4m3 => 4 | .e5m2 => 5 | .tf8 => 6
def decCvt (n : Nat) : Option CvtFmt :=
  match n with
  | 0 => some .f64 | 1 => some .f32 | 2 => some .f16 | 3 => some .bf16 | 4 => some .e4m3 | 5 => some .e5m2
  | 6 => some .tf8 | _ => none
def tyCode : IntTy → Nat
  | .i32 => 0 | .n32 => 1 | .i64 => 2 | .n64 => 3
def encScan : ScanInt → Nat
  | .add => 0 | .min => 1 | .max => 2 | .and => 3 | .or => 4 | .xor => 5

/-! ### Extension words -/

def encRoute : Route → BitVec 2
  | .same => 0 | .core => 1 | .spread => 2 | .pkg => 3
def decRoute (x : BitVec 2) : Route :=
  match x with
  | 0 => .same | 1 => .core | 2 => .spread | _ => .pkg

def encDest (d : TokenDest) : Word :=
  d.dblock ++ d.dport ++ encRoute d.route ++ encBool d.rel ++ encBool d.ownTag ++ (0 : BitVec 24)
def decDest (x : Word) : TokenDest :=
  { dblock := bits x 32 32, dport := bits x 28 4, route := decRoute (bits x 26 2), rel := decBool (bits x 25 1),
    ownTag := decBool (bits x 24 1) }

def encLaunch (w : LaunchWord) : Word :=
  w.cblock ++ w.cport ++ encBool w.cen ++ (0 : BitVec 3) ++ w.ccount ++ w.pcount ++ w.pfirst ++ w.entry
def decLaunch (x : Word) : LaunchWord :=
  { cblock := bits x 40 24, cport := bits x 36 4, cen := decBool (bits x 35 1), ccount := bits x 24 8,
    pcount := bits x 16 8, pfirst := bits x 8 8, entry := bits x 0 8 }

/-- Register numbers (R28, R244). -/
def regNum : Reg → BitVec 16
  | .lane => 0 | .tag => 1 | .act => 2 | .core => 3 | .pkg => 4 | .step => 5 | .hid => 6 | .bankrole => 0x1100
def encReg (r : Reg) : Word := (0 : BitVec 48) ++ regNum r
def decReg (x : Word) : Reg :=
  match bits x 0 16 with
  | 1 => .tag | 2 => .act | 3 => .core | 4 => .pkg | 5 => .step | 6 => .hid | 0x1100 => .bankrole | _ => .lane

def encOrd : AtOrd → BitVec 2
  | .none => 0 | .acq => 1 | .rel => 2 | .ar => 3
def decOrd (x : BitVec 2) : AtOrd :=
  match x with
  | 0 => .none | 1 => .acq | 2 => .rel | _ => .ar
def encAtomOp : AtomOp → BitVec 4
  | .add => 0 | .adds => 1 | .smin => 2 | .smax => 3 | .umin => 4 | .umax => 5 | .and => 6 | .or => 7 | .xor => 8
  | .swap => 9 | .cas => 10 | .fadd => 11 | .rdovf => 12
/-- A reserved OP reads as .add here and is refused by encoding it again. -/
def decAtomOp (x : BitVec 4) : AtomOp :=
  match x with
  | 1 => .adds | 2 => .smin | 3 => .smax | 4 => .umin | 5 => .umax | 6 => .and | 7 => .or | 8 => .xor
  | 9 => .swap | 10 => .cas | 11 => .fadd | 12 => .rdovf | _ => .add
def encAtom (w : AtomWord) : Word :=
  (0 : BitVec 48) ++ encOrd w.ord ++ encScope w.scope ++ (0 : BitVec 8) ++ encAtomOp w.op
def decAtom (x : Word) : AtomWord :=
  { ord := decOrd (bits x 14 2), scope := decScope (bits x 12 2), op := decAtomOp (bits x 0 4) }

def encUpdOp : UpdOp → BitVec 4
  | .add => 0 | .adds => 1 | .smin => 2 | .smax => 3 | .umin => 4 | .umax => 5 | .and => 6 | .or => 7 | .xor => 8
def decUpdOp (x : BitVec 4) : UpdOp :=
  match x with
  | 1 => .adds | 2 => .smin | 3 => .smax | 4 => .umin | 5 => .umax | 6 => .and | 7 => .or | 8 => .xor | _ => .add
def encUpd (w : UpdWord) : Word := (0 : BitVec 59) ++ encBool w.ord ++ encUpdOp w.op
def decUpd (x : Word) : UpdWord := { ord := decBool (bits x 4 1), op := decUpdOp (bits x 0 4) }

def encCmpk (w : CmpkWord) : Word := (0 : BitVec 62) ++ encBool w.offw ++ encBool w.offen
def decCmpk (x : Word) : CmpkWord := { offw := decBool (bits x 1 1), offen := decBool (bits x 0 1) }

def encStream (w : StreamWord) : Word :=
  w.cblock ++ w.cport ++ encBool w.cen ++ (0 : BitVec 15) ++ w.pat ++ w.handle
def decStream (x : Word) : StreamWord :=
  { cblock := bits x 32 32, cport := bits x 28 4, cen := decBool (bits x 27 1), pat := bits x 4 8, handle := bits x 0 4 }

def encCopy (w : CopyWord) : Word := w.cblock ++ w.cport ++ encBool w.cen ++ (0 : BitVec 19) ++ w.desc
def decCopy (x : Word) : CopyWord :=
  { cblock := bits x 32 32, cport := bits x 28 4, cen := decBool (bits x 27 1), desc := bits x 0 8 }

def encCtl (w : CtlWord) : Word :=
  w.cblock ++ w.cport ++ encBool w.cen ++ (0 : BitVec 6) ++ w.opk ++ w.mring ++ w.nm1 ++ w.spm ++ encBool w.tb
    ++ encBool w.ta ++ encRnd w.rnd ++ w.afmt ++ w.cls
def decCtl (x : Word) : CtlWord :=
  { cblock := bits x 40 24, cport := bits x 36 4, cen := decBool (bits x 35 1), opk := bits x 21 8, mring := bits x 16 5,
    nm1 := bits x 11 5, spm := bits x 8 3, tb := decBool (bits x 7 1), ta := decBool (bits x 6 1),
    rnd := decRnd (bits x 4 2), afmt := bits x 2 2, cls := bits x 0 2 }

def encEpi (w : EpiWord) : Word :=
  (0 : BitVec 38) ++ w.ek ++ encBool w.clr ++ w.act ++ encBool w.scale ++ encBool w.bias ++ encBool w.sat
    ++ encRnd w.round ++ w.dfmt ++ w.dring ++ encBool w.dkind
def decEpi (x : Word) : EpiWord :=
  { ek := bits x 18 8, clr := decBool (bits x 17 1), act := bits x 15 2, scale := decBool (bits x 14 1),
    bias := decBool (bits x 13 1), sat := decBool (bits x 12 1), round := decRnd (bits x 10 2), dfmt := bits x 6 4,
    dring := bits x 1 5, dkind := decBool (bits x 0 1) }

def encCompare (w : CompareWord) : Word :=
  w.hblock ++ w.hport ++ w.mblock ++ w.mport ++ (0 : BitVec 7) ++ encBool w.src ++ w.sel
def decCompare (x : Word) : CompareWord :=
  { hblock := bits x 44 20, hport := bits x 40 4, mblock := bits x 20 20, mport := bits x 16 4,
    src := decBool (bits x 8 1), sel := bits x 0 8 }

def encStore (w : StoreWord) : Word :=
  w.cblock ++ w.cport ++ encBool w.cen ++ (0 : BitVec 17) ++ encBool w.isrc ++ encBool w.osrc ++ w.isel ++ w.osel
def decStore (x : Word) : StoreWord :=
  { cblock := bits x 40 24, cport := bits x 36 4, cen := decBool (bits x 35 1), isrc := decBool (bits x 17 1),
    osrc := decBool (bits x 16 1), isel := bits x 8 8, osel := bits x 0 8 }

def encReplay (w : ReplayWord) : Word :=
  w.cblock ++ w.cport ++ encBool w.cen ++ (0 : BitVec 17) ++ encBool w.fen ++ encBool w.dsrc ++ w.flopk ++ w.dsel
def decReplay (x : Word) : ReplayWord :=
  { cblock := bits x 40 24, cport := bits x 36 4, cen := decBool (bits x 35 1), fen := decBool (bits x 17 1),
    dsrc := decBool (bits x 16 1), flopk := bits x 8 8, dsel := bits x 0 8 }

def encCounter : Counter → BitVec 3
  | .hits => 0 | .misses => 1 | .absences => 2 | .bytes => 3 | .flops => 4 | .pathlanes => 5
def decCounter (x : BitVec 3) : Counter :=
  match x with
  | 1 => .misses | 2 => .absences | 3 => .bytes | 4 => .flops | 5 => .pathlanes | _ => .hits
def encCounterWord (w : CounterWord) : Word := (0 : BitVec 56) ++ w.cls ++ (0 : BitVec 1) ++ encCounter w.counter
def decCounterWord (x : Word) : CounterWord := { counter := decCounter (bits x 0 3), cls := bits x 4 4 }

def encSelWord (w : SelWord) : Word :=
  w.cblock ++ w.cport ++ encBool w.cen ++ (0 : BitVec 7) ++ w.npages ++ (0 : BitVec 3) ++ w.ring
def decSelWord (x : Word) : SelWord :=
  { cblock := bits x 40 24, cport := bits x 36 4, cen := decBool (bits x 35 1), npages := bits x 8 20, ring := bits x 0 5 }

/-! ### The opcode map (R36 to R45) -/

/-- The opcode of an instruction; 0x3FF, which is unassigned, for an agent's step. -/
def Instr.opcode : Instr → Nat
  | .add .. => 0x000 | .sub .. => 0x001 | .adds .. => 0x002 | .subs .. => 0x003 | .mul .. => 0x004 | .mulh .. => 0x005
  | .mad .. => 0x006 | .div .. => 0x007 | .rem .. => 0x008 | .min .. => 0x009 | .max .. => 0x00A | .abs .. => 0x00B
  | .neg .. => 0x00C | .and .. => 0x010 | .andn .. => 0x011 | .or .. => 0x012 | .xor .. => 0x013 | .not .. => 0x014
  | .shl .. => 0x018 | .shr .. => 0x019 | .sar .. => 0x01A | .rot .. => 0x01B | .popc .. => 0x020 | .clz .. => 0x021
  | .ctz .. => 0x022 | .brev .. => 0x023 | .bfx .. => 0x024 | .bfi .. => 0x025 | .sel .. => 0x028 | .mov .. => 0x029
  | .idx .. => 0x02A | .cmp c _ _ => 0x030 + encCond c | .imm .. => 0x03C | .immh .. => 0x03D
  | .fadd .. => 0x080 | .fsub .. => 0x081 | .fmul .. => 0x082 | .ffma .. => 0x083 | .fmin .. => 0x084 | .fmax .. => 0x085
  | .fabs .. => 0x086 | .fneg .. => 0x087 | .fdiv .. => 0x088 | .fsqrt .. => 0x089 | .frcp .. => 0x08A | .frsq .. => 0x08B
  | .fex2 .. => 0x08C | .flg2 .. => 0x08D | .fsin .. => 0x08E | .fcos .. => 0x08F | .ftanh .. => 0x090 | .frnd .. => 0x091
  | .fscl .. => 0x092 | .fcls .. => 0x093 | .fcmp c _ _ => 0x098 + encFCond c
  | .icvt ti ft ty _ _ => 0x0A0 + 8 * ti.toNat + 4 * (encFTy ft).toNat + tyCode ty
  | .fcvt s d _ _ _ => 0x0C0 + 8 * encCvt s + encCvt d
  | .send .. => 0x100 | .spawn .. => 0x101 | .launch .. => 0x102 | .doneCredit .. => 0x103 | .shfl .. => 0x108
  | .bcst .. => 0x109 | .vote .. => 0x10A | .mtch .. => 0x10C
  | .prfx (.int op _) _ => 0x110 + encScan op | .prfx (.fadd _ _) _ => 0x116
  | .redu (.int op _) _ => 0x118 + encScan op | .redu (.fadd _ _) _ => 0x11E
  | .srd .. => 0x120 | .swr .. => 0x121 | .nop .. => 0x128 | .trap .. => 0x130 | .brk .. => 0x131 | .tret .. => 0x132
  | .kill .. => 0x133
  | .ld .. => 0x200 | .ldAcq sc _ _ => 0x204 + (encScope sc).toNat | .st .. => 0x208
  | .stRel sc _ _ => 0x20C + (encScope sc).toNat | .ldt .. => 0x210 | .atom .. => 0x218 | .upd .. => 0x219
  | .fence sc _ => 0x220 + (encScope sc).toNat | .pref .. => 0x224 | .cctl .. => 0x225 | .bcinv .. => 0x226
  | .frma .. => 0x228 | .frmf .. => 0x229 | .cmpk .. => 0x22C
  | .rbind .. => 0x280 | .runb .. => 0x281 | .rget .. => 0x282 | .rput .. => 0x283 | .radv .. => 0x284 | .rwait .. => 0x285
  | .rstat .. => 0x286 | .strm .. => 0x290 | .strmw .. => 0x291 | .strmq .. => 0x292 | .strmc .. => 0x293
  | .cpy .. => 0x2A0 | .cpyq .. => 0x2A1 | .cpyc .. => 0x2A2
  | .mxbind .. => 0x300 | .mxunb .. => 0x301 | .mxfire .. => 0x302 | .mxz .. => 0x303 | .mxld .. => 0x304 | .mxst .. => 0x305
  | .mxmute .. => 0x306 | .mxstat .. => 0x307 | .mxsave .. => 0x308 | .mxrest .. => 0x309
  | .symk .. => 0x380 | .symc .. => 0x381 | .symr .. => 0x382 | .symp .. => 0x383 | .syms .. => 0x384 | .symq .. => 0x385
  | .hfork .. => 0x386 | .hres .. => 0x387 | .hqry .. => 0x388 | .hnote .. => 0x389 | .psel .. => 0x38A | .topk .. => 0x38B
  | _ => 0x3FF

/-- The M field of an instruction (R25). -/
def Instr.mField : Instr → BitVec 3
  | .add t _ | .sub t _ | .adds t _ | .subs t _ | .mul t _ | .mulh t _ | .mad t _ | .div t _ | .rem t _ | .min t _
  | .max t _ | .abs t _ | .neg t _ | .and t _ | .andn t _ | .or t _ | .xor t _ | .not t _ | .shl t _ | .shr t _
  | .sar t _ | .rot t _ | .popc t _ | .clz t _ | .ctz t _ | .brev t _ | .bfx t _ | .bfi t _ | .sel t _ | .mov t _
  | .cmp _ t _ => encTy t
  | .idx sh _ => sh
  | .imm zx _ => encFlagM zx
  | .fadd ft r _ | .fsub ft r _ | .fmul ft r _ | .ffma ft r _ | .fdiv ft r _ | .fsqrt ft r _ | .frnd ft r _
  | .fscl ft r _ => encFT ft r
  | .fmin ft _ | .fmax ft _ | .fabs ft _ | .fneg ft _ | .frcp ft _ | .frsq ft _ | .fex2 ft _ | .flg2 ft _ | .fsin ft _
  | .fcos ft _ | .ftanh ft _ | .fcls ft _ | .fcmp _ ft _ => encFN ft
  | .icvt _ _ _ r _ => (0 : BitVec 1) ++ encRnd r
  | .fcvt _ _ sat r _ => encBool sat ++ encRnd r
  | .shfl op _ => encShuf op | .vote op _ => encVote op
  | .prfx (.int _ t) _ | .redu (.int _ t) _ => encTy t
  | .prfx (.fadd ft r) _ | .redu (.fadd ft r) _ => encFT ft r
  | .ld sz _ | .ldAcq _ sz _ | .ldt sz _ _ => encSize sz
  | .st sz _ | .stRel _ sz _ => encStSize sz
  | .atom sz _ _ | .upd sz _ _ | .cmpk sz _ _ => encAtSize sz
  | .pref l _ => encPref l | .cctl op _ => encCctl op
  | .radv b _ | .rwait b _ _ | .hres b _ _ => encFlagM b
  | .mxbind s _ _ | .mxunb s _ | .mxmute s _ | .mxstat s _ | .mxsave s _ | .mxrest s _ => encSlotM s
  | _ => 0

/-- The extension word of an F3 instruction (R23). -/
def Instr.extWord : Instr → Option Word
  | .send d _ | .spawn d _ | .ldt _ d _ | .rwait _ d _ | .hres _ d _ => some (encDest d)
  | .launch w _ => some (encLaunch w)
  | .srd r _ | .swr r _ => some (encReg r)
  | .atom _ w _ => some (encAtom w)
  | .upd _ w _ => some (encUpd w)
  | .cmpk _ w _ => some (encCmpk w)
  | .strm w _ | .strmw w _ => some (encStream w)
  | .cpy w _ => some (encCopy w)
  | .mxbind _ w _ | .mxfire w _ => some (encCtl w)
  | .mxst w _ => some (encEpi w)
  | .symc w _ => some (encCompare w)
  | .symr w _ => some (encReplay w)
  | .symp w _ => some (encStore w)
  | .symq w _ => some (encCounterWord w)
  | .psel w _ => some (encSelWord w)
  | _ => none

/-- The first word of an instruction (R16, R23). -/
def Instr.word0 (i : Instr) : Word :=
  match i with
  | .imm _ f | .immh f => packImm (BitVec.ofNat 10 i.opcode) i.mField f
  | i => match i.flds with
    | some f => packWord (BitVec.ofNat 10 i.opcode) i.mField f
    | none => 0

/-- The words of an instruction; an agent's step has none. -/
def encode (i : Instr) : List Word :=
  if i.isIsa then i.word0 :: i.extWord.toList else []

/-- The words an instruction occupies (R12, R24): two for F3. -/
def Instr.len (i : Instr) : Nat := if i.extWord.isSome then 2 else 1

/-- What an opcode with its M field builds: nothing assigned, a refused M value, or an instruction of the word's
fields and its extension word. -/
inductive Built
  | unassigned
  | badM
  | f0 (mk : Flds → Instr)
  | f1 (mk : ImmFlds → Instr)
  | f3 (mk : Word → Flds → Instr)

namespace Built
def ofTy (m : BitVec 3) (mk : IntTy → Flds → Instr) : Built := match decTy m with | some t => .f0 (mk t) | none => .badM
def ofFT (m : BitVec 3) (mk : FTy → Rnd → Flds → Instr) : Built :=
  .f0 (mk (decFTy (m.extractLsb' 2 1)) (decRnd (m.extractLsb' 0 2)))
def ofFN (m : BitVec 3) (mk : FTy → Flds → Instr) : Built := match decFN m with | some t => .f0 (mk t) | none => .badM
def m0 (m : BitVec 3) (b : Built) : Built := if m == 0 then b else .badM
def ofFlag (m : BitVec 3) (mk : Bool → Built) : Built := match decFlagM m with | some b => mk b | none => .badM
def ofSlot (m : BitVec 3) (mk : BitVec 2 → Built) : Built := match decSlotM m with | some s => mk s | none => .badM
def ofAt (m : BitVec 3) (mk : AtSize → Built) : Built := match decAtSize m with | some s => mk s | none => .badM
def ofSt (m : BitVec 3) (mk : StSize → Built) : Built := match decStSize m with | some s => mk s | none => .badM
end Built

/-- FCVT's opcodes (R26, R127). -/
def buildCvt (n : Nat) (m : BitVec 3) : Built :=
  match decCvt (n / 8), decCvt (n % 8) with
  | some s, some d => if cvtAssigned s d then .f0 (.fcvt s d (decBool (m.extractLsb' 2 1)) (decRnd (m.extractLsb' 0 2))) else .unassigned
  | _, _ => .unassigned

/-- ICVT's opcodes (R26). -/
def buildIcvt (n : Nat) (m : BitVec 3) : Built :=
  if m.extractLsb' 2 1 == 0 then
    .f0 (.icvt (n / 8 == 1) (if n / 4 % 2 == 1 then .f32 else .f64)
      (match n % 4 with | 0 => .i32 | 1 => .n32 | 2 => .i64 | _ => .n64) (decRnd (m.extractLsb' 0 2)))
  else .badM

/-- The opcode map read from the encoding side: integer, floating-point and token groups (R38 to R40). -/
def buildLow (opc : Nat) (m : BitVec 3) : Built :=
  match opc with
  | 0x000 => .ofTy m .add | 0x001 => .ofTy m .sub | 0x002 => .ofTy m .adds | 0x003 => .ofTy m .subs | 0x004 => .ofTy m .mul
  | 0x005 => .ofTy m .mulh | 0x006 => .ofTy m .mad | 0x007 => .ofTy m .div | 0x008 => .ofTy m .rem | 0x009 => .ofTy m .min
  | 0x00A => .ofTy m .max | 0x00B => .ofTy m .abs | 0x00C => .ofTy m .neg | 0x010 => .ofTy m .and | 0x011 => .ofTy m .andn
  | 0x012 => .ofTy m .or | 0x013 => .ofTy m .xor | 0x014 => .ofTy m .not | 0x018 => .ofTy m .shl | 0x019 => .ofTy m .shr
  | 0x01A => .ofTy m .sar | 0x01B => .ofTy m .rot | 0x020 => .ofTy m .popc | 0x021 => .ofTy m .clz | 0x022 => .ofTy m .ctz
  | 0x023 => .ofTy m .brev | 0x024 => .ofTy m .bfx | 0x025 => .ofTy m .bfi | 0x028 => .ofTy m .sel | 0x029 => .ofTy m .mov
  | 0x02A => .f0 (.idx m)
  | 0x030 => .ofTy m (.cmp .eq) | 0x031 => .ofTy m (.cmp .ne) | 0x032 => .ofTy m (.cmp .lt) | 0x033 => .ofTy m (.cmp .le)
  | 0x034 => .ofTy m (.cmp .gt) | 0x035 => .ofTy m (.cmp .ge)
  | 0x03C => .ofFlag m fun zx => .f1 (.imm zx)
  | 0x03D => .m0 m (.f1 .immh)
  | 0x080 => .ofFT m .fadd | 0x081 => .ofFT m .fsub | 0x082 => .ofFT m .fmul | 0x083 => .ofFT m .ffma
  | 0x084 => .ofFN m .fmin | 0x085 => .ofFN m .fmax | 0x086 => .ofFN m .fabs | 0x087 => .ofFN m .fneg
  | 0x088 => .ofFT m .fdiv | 0x089 => .ofFT m .fsqrt | 0x08A => .ofFN m .frcp | 0x08B => .ofFN m .frsq
  | 0x08C => .ofFN m .fex2 | 0x08D => .ofFN m .flg2 | 0x08E => .ofFN m .fsin | 0x08F => .ofFN m .fcos
  | 0x090 => .ofFN m .ftanh | 0x091 => .ofFT m .frnd | 0x092 => .ofFT m .fscl | 0x093 => .ofFN m .fcls
  | 0x098 => .ofFN m (.fcmp .eq) | 0x099 => .ofFN m (.fcmp .ne) | 0x09A => .ofFN m (.fcmp .lt) | 0x09B => .ofFN m (.fcmp .le)
  | 0x09C => .ofFN m (.fcmp .gt) | 0x09D => .ofFN m (.fcmp .ge) | 0x09E => .ofFN m (.fcmp .un) | 0x09F => .ofFN m (.fcmp .or)
  | 0x100 => .m0 m (.f3 fun x => .send (decDest x)) | 0x101 => .m0 m (.f3 fun x => .spawn (decDest x))
  | 0x102 => .m0 m (.f3 fun x => .launch (decLaunch x)) | 0x103 => .m0 m (.f0 .doneCredit)
  | 0x108 => match decShuf m with | some op => .f0 (.shfl op) | none => .badM
  | 0x109 => .m0 m (.f0 .bcst)
  | 0x10A => match decVote m with | some op => .f0 (.vote op) | none => .badM
  | 0x10C => .m0 m (.f0 .mtch)
  | 0x110 => .ofTy m fun t => .prfx (.int .add t) | 0x111 => .ofTy m fun t => .prfx (.int .min t)
  | 0x112 => .ofTy m fun t => .prfx (.int .max t) | 0x113 => .ofTy m fun t => .prfx (.int .and t)
  | 0x114 => .ofTy m fun t => .prfx (.int .or t) | 0x115 => .ofTy m fun t => .prfx (.int .xor t)
  | 0x116 => .ofFT m fun ft r => .prfx (.fadd ft r)
  | 0x118 => .ofTy m fun t => .redu (.int .add t) | 0x119 => .ofTy m fun t => .redu (.int .min t)
  | 0x11A => .ofTy m fun t => .redu (.int .max t) | 0x11B => .ofTy m fun t => .redu (.int .and t)
  | 0x11C => .ofTy m fun t => .redu (.int .or t) | 0x11D => .ofTy m fun t => .redu (.int .xor t)
  | 0x11E => .ofFT m fun ft r => .redu (.fadd ft r)
  | 0x120 => .m0 m (.f3 fun x => .srd (decReg x)) | 0x121 => .m0 m (.f3 fun x => .swr (decReg x))
  | 0x128 => .m0 m (.f0 .nop) | 0x130 => .m0 m (.f0 .trap) | 0x131 => .m0 m (.f0 .brk) | 0x132 => .m0 m (.f0 .tret)
  | 0x133 => .m0 m (.f0 .kill)
  | _ => .unassigned

/-- The opcode map read from the encoding side: memory, ring, matrix and sympathy groups (R42 to R45). -/
def buildHigh (opc : Nat) (m : BitVec 3) : Built :=
  match opc with
  | 0x200 => .f0 (.ld (decSize m))
  | 0x204 => .f0 (.ldAcq .core (decSize m)) | 0x205 => .f0 (.ldAcq .die (decSize m))
  | 0x206 => .f0 (.ldAcq .pkg (decSize m)) | 0x207 => .f0 (.ldAcq .sys (decSize m))
  | 0x208 => .ofSt m fun s => .f0 (.st s)
  | 0x20C => .ofSt m fun s => .f0 (.stRel .core s) | 0x20D => .ofSt m fun s => .f0 (.stRel .die s)
  | 0x20E => .ofSt m fun s => .f0 (.stRel .pkg s) | 0x20F => .ofSt m fun s => .f0 (.stRel .sys s)
  | 0x210 => .f3 fun x => .ldt (decSize m) (decDest x)
  | 0x218 => .ofAt m fun s => .f3 fun x => .atom s (decAtom x)
  | 0x219 => .ofAt m fun s => .f3 fun x => .upd s (decUpd x)
  | 0x220 => .m0 m (.f0 (.fence .core)) | 0x221 => .m0 m (.f0 (.fence .die))
  | 0x222 => .m0 m (.f0 (.fence .pkg)) | 0x223 => .m0 m (.f0 (.fence .sys))
  | 0x224 => .ofFlag m fun l2 => .f0 (.pref (if l2 then .l2 else .l1))
  | 0x225 => match decCctl m with | some op => .f0 (.cctl op) | none => .badM
  | 0x226 => .m0 m (.f0 .bcinv) | 0x228 => .m0 m (.f0 .frma) | 0x229 => .m0 m (.f0 .frmf)
  | 0x22C => .ofAt m fun s => .f3 fun x => .cmpk s (decCmpk x)
  | 0x280 => .m0 m (.f0 .rbind) | 0x281 => .m0 m (.f0 .runb) | 0x282 => .m0 m (.f0 .rget) | 0x283 => .m0 m (.f0 .rput)
  | 0x284 => .ofFlag m fun t => .f0 (.radv t)
  | 0x285 => .ofFlag m fun t => .f3 fun x => .rwait t (decDest x)
  | 0x286 => .m0 m (.f0 .rstat)
  | 0x290 => .m0 m (.f3 fun x => .strm (decStream x)) | 0x291 => .m0 m (.f3 fun x => .strmw (decStream x))
  | 0x292 => .m0 m (.f0 .strmq) | 0x293 => .m0 m (.f0 .strmc)
  | 0x2A0 => .m0 m (.f3 fun x => .cpy (decCopy x)) | 0x2A1 => .m0 m (.f0 .cpyq) | 0x2A2 => .m0 m (.f0 .cpyc)
  | 0x300 => .ofSlot m fun s => .f3 fun x => .mxbind s (decCtl x)
  | 0x301 => .ofSlot m fun s => .f0 (.mxunb s)
  | 0x302 => .m0 m (.f3 fun x => .mxfire (decCtl x))
  | 0x303 => .m0 m (.f0 .mxz) | 0x304 => .m0 m (.f0 .mxld)
  | 0x305 => .m0 m (.f3 fun x => .mxst (decEpi x))
  | 0x306 => .ofSlot m fun s => .f0 (.mxmute s) | 0x307 => .ofSlot m fun s => .f0 (.mxstat s)
  | 0x308 => .ofSlot m fun s => .f0 (.mxsave s) | 0x309 => .ofSlot m fun s => .f0 (.mxrest s)
  | 0x380 => .m0 m (.f0 .symk)
  | 0x381 => .m0 m (.f3 fun x => .symc (decCompare x)) | 0x382 => .m0 m (.f3 fun x => .symr (decReplay x))
  | 0x383 => .m0 m (.f3 fun x => .symp (decStore x)) | 0x384 => .m0 m (.f0 .syms)
  | 0x385 => .m0 m (.f3 fun x => .symq (decCounterWord x)) | 0x386 => .m0 m (.f0 .hfork)
  | 0x387 => .ofFlag m fun r => .f3 fun x => .hres r (decDest x)
  | 0x388 => .m0 m (.f0 .hqry) | 0x389 => .m0 m (.f0 .hnote)
  | 0x38A => .m0 m (.f3 fun x => .psel (decSelWord x)) | 0x38B => .m0 m (.f0 .topk)
  | _ => .unassigned

/-- The opcode map read from the encoding side. -/
def build (opc : Nat) (m : BitVec 3) : Built :=
  if opc < 0x0A0 then buildLow opc m
  else if opc < 0x0B0 then buildIcvt (opc - 0x0A0) m
  else if opc < 0x0C0 then .unassigned
  else if opc < 0x100 then buildCvt (opc - 0x0C0) m
  else if opc < 0x200 then buildLow opc m
  else buildHigh opc m

/-! ### Decoding one instruction -/

/-- A target field whose slot value is 11 and that is not 0x1FF (R18). -/
def badTarget (x : BitVec 9) : Bool := x.extractLsb' 0 2 == 3 && x != 0x1FF

/-- The instruction a word and the word after it build, before its own rules are checked; the error is the reason
of R31. `x` is none where no word follows. DESIGN CHOICE (assumption log 46): an F3 instruction at index ICOUNT reads, besides its
reason 0x28, the slots it would read if its missing extension word were zero. -/
def candidate (w : Word) (x : Option Word) : Except Nat Instr :=
  match build (bits w 54 10).toNat (bits w 48 3) with
  | .unassigned => .error 0x10
  | .badM => .error 0x11
  | .f0 mk => .ok (mk (unpackWord w))
  | .f1 mk => .ok (mk (unpackImm w))
  | .f3 mk => .ok (mk (x.getD 0) (unpackWord w))

/-- The rules of R31 that one instruction can break by itself, with their reason codes, in ascending order. -/
def ownBreaches (w : Word) (x : Option Word) (i : Instr) : List (Bool × Nat) :=
  let f := unpackWord w
  let isF1 := i.flds.isNone
  let sh := i.shape.getD (.none .y)
  [ (!i.mOk, 0x11),
    (bits w 51 2 == 3 || (isF1 && bits w 51 2 != 0) || (!isF1 && !sh.pOk f), 0x12),
    (!isF1 && !sh.uOk f.u, 0x13),
    (badTarget (bits w 39 9) || (!isF1 && badTarget (bits w 30 9)), 0x22),
    ((!isF1 && !sh.slotsOk f) || i.word0 != w && !(bits w 51 2 == 3) && !(badTarget (bits w 39 9)) && (isF1 || !(badTarget (bits w 30 9)))
      || (x.isSome && (!i.extOk || i.extWord.getD 0 != x.getD 0) && i.extWord.isSome), 0x25),
    (!isF1 && !sh.staticOk f, 0x27),
    (i.extWord.isSome && x.isNone, 0x28),
    (!isF1 && !sh.targetsOk f, 0x29) ]

/-- The lowest reason that applies to one instruction by itself (R31). -/
def ownReason (w : Word) (x : Option Word) (i : Instr) : Option Nat :=
  ((ownBreaches w x i).find? (·.1)).map (·.2)

/-- Decodes one instruction from a word and the word after it: the instruction, or the reason of R31. -/
def decodeWord (w : Word) (x : Option Word) : Except Nat Instr :=
  match candidate w x with
  | .error e => .error e
  | .ok i => match ownReason w x i with
    | some e => .error e
    | none => .ok i

/-- Decodes one instruction from the words of a block: the instruction and the words that follow it. -/
def decodeWords : List Word → Except Nat (Instr × List Word)
  | [] => .error 0x28
  | w :: ws => match decodeWord w ws.head? with
    | .error e => .error e
    | .ok i => .ok (i, ws.drop (i.len - 1))

/-- Eight bytes read little-endian (R12). -/
def wordOfBytes (b : List Byte) : Word := b.foldr (fun x acc => (acc <<< 8) ||| x.setWidth 64) 0

/-- A word's eight bytes, lowest first (R12). -/
def bytesOfWord (w : Word) : List Byte := (List.range 8).map fun i => w.extractLsb' (8 * i) 8

/-- Decodes one instruction from bytes as a block image stores them: the instruction and the bytes that follow. -/
def decode (b : List Byte) : Except Nat (Instr × List Byte) :=
  if b.length < 8 then .error 0x28
  else
    let x := if 16 ≤ b.length then some (wordOfBytes ((b.drop 8).take 8)) else none
    match decodeWord (wordOfBytes (b.take 8)) x with
    | .error e => .error e
    | .ok i => .ok (i, b.drop (8 * i.len))

/-- The opcode table numbers bit 0 as the least significant bit of the first word; words are 64 bits, little-endian.
The table gives no row any bits, so a row of more than one word is as long as its form says. -/
def tableBytes (nbits w : Nat) : List Byte :=
  (List.range (Nat.max 16 ((nbits + 7) / 8))).map fun i => BitVec.ofNat 8 (w / 2 ^ (8 * i))

/-- The instruction the decoder reads from an instruction whose bits are `w`, every bit above `nbits` zero. -/
def decodeTableWord (nbits w : Nat) : Option Instr :=
  match decode (tableBytes nbits (w % 2 ^ nbits)) with
  | .ok (i, _) => some i
  | .error _ => none

/-! ### The block header (R13 to R15, R187) -/

/-- The fields of a block header. `icount` is the instruction count minus one and `fill` the threshold minus one. -/
structure Header where
  version : BitVec 4
  icount : BitVec 7
  expect : BitVec 16
  acquire : BitVec 16
  accum : BitVec 4
  scount : BitVec 16
  dcount : Bool
  fill : BitVec 5
  sustain : BitVec 8
  memops : BitVec 6
  ucheck : Bool
  trapblk : Bool
  sympath : Bool
deriving DecidableEq, Repr, Inhabited

def decHeader (lo hi : Word) : Header :=
  { version := bits lo 0 4, icount := bits lo 4 7, expect := bits lo 11 16, acquire := bits lo 27 16, accum := bits lo 43 4,
    scount := bits lo 47 16, dcount := decBool (bits lo 63 1), fill := bits hi 0 5, sustain := bits hi 5 8, memops := bits hi 13 6,
    ucheck := decBool (bits hi 19 1), trapblk := decBool (bits hi 20 1), sympath := decBool (bits hi 21 1) }

def encHeader (h : Header) : Word × Word :=
  (encBool h.dcount ++ h.scount ++ h.accum ++ h.acquire ++ h.expect ++ h.icount ++ h.version,
   (0 : BitVec 42) ++ encBool h.sympath ++ encBool h.trapblk ++ encBool h.ucheck ++ h.memops ++ h.sustain ++ h.fill)

/-- The instruction words a header announces (R13). -/
def Header.n (h : Header) : Nat := h.icount.toNat + 1

/-- The header's fields agree (R13 to R15, R187). -/
def Header.consistent (h : Header) : Bool :=
  h.expect != 0 && (h.acquire &&& ~~~h.expect) == 0 && h.accum.toNat ≤ 8
  && !(h.accum != 0 && !h.expect.getLsbD 0)
  && !(h.accum == 0 && (h.scount != 0 || h.dcount))
  && !(h.accum != 0 && !h.dcount && h.scount == 0)
  && !(h.dcount && h.scount != 0)
  && !(h.accum == 8 && (h.expect &&& 0xF800) != 0)
  && !(h.dcount && h.accum != 7)
  && h.memops.toNat ≤ 32

/-! ### Block validation (R29, R31) -/

/-- A decoded block: its header and its instructions with their indices, in ascending index (R12). -/
structure Block where
  hdr : Header
  code : List (Nat × Instr)
deriving DecidableEq, Repr, Inhabited

/-- A memory-class instruction (R37). -/
def Instr.isMem : Instr → Bool
  | .ld .. | .ldAcq .. | .st .. | .stRel .. | .ldt .. | .atom .. | .upd .. | .cmpk .. => true
  | _ => false

/-- An instruction that may send a token for each lane (R203). -/
def Instr.sendsToken : Instr → Bool
  | .send .. | .spawn .. | .launch .. | .ldt .. | .rwait .. | .hres .. => true
  | _ => false

def Instr.isRput : Instr → Bool
  | .rput _ => true
  | _ => false

/-- TRET and KILL stand only in trap-handler blocks (R151). -/
def Instr.trapOnly : Instr → Bool
  | .tret _ | .kill _ => true
  | _ => false

/-- A word with its M field replaced. -/
def withM (w : Word) (m : BitVec 3) : Word := bits w 51 13 ++ m ++ bits w 0 48

/-- A word whose opcode is assigned and whose M value is reserved, with the lowest M value the opcode admits: what slots it reads,
whether it takes an extension word and what it counts as follow from its other fields (R20, R37). -/
def withLowM (w : Word) (x : Option Word) : Option (Word × Instr) :=
  (List.range 8).findSome? fun k =>
    let w' := withM w (BitVec.ofNat 3 k)
    match candidate w' x with
    | .ok i => some (w', i)
    | .error _ => none

/-- What each index of a block holds as validation walks it: an instruction built from the word (with its M value refused or
not), a word with an unassigned opcode, or an extension word. -/
inductive Cell
  | instr (w : Word) (x : Option Word) (i : Instr) (badM : Bool)
  | bad (w : Word) (reason : Nat)
  | ext
deriving Inhabited

/-- Walks the words; `skip` marks the next word as the extension word of an F3 instruction. -/
def cellsOf : Bool → List Word → List Cell
  | _, [] => []
  | true, _ :: ws => .ext :: cellsOf false ws
  | false, w :: ws => match candidate w ws.head? with
    | .ok i => .instr w ws.head? i false :: cellsOf i.extWord.isSome ws
    | .error e => match withLowM w ws.head? with
      | some (w', i) => .instr w' ws.head? i true :: cellsOf i.extWord.isSome ws
      | none => .bad w e :: cellsOf false ws

/-- The targets a word names. -/
def Instr.targets : Instr → List Target
  | .imm _ f | .immh f => f.t0.toList
  | i => match i.flds with
    | some f => f.t0.toList ++ f.t1.toList
    | none => []

/-- Whether an instruction reads a slot by link (R18, R20). -/
def Instr.linkSlot (i : Instr) (s : Slot) : Bool :=
  match i.flds, i.shape with
  | some f, some sh => match s with
    | .a => sh.rdA && f.a == .link
    | .b => sh.rdB && f.b == .link
    | .c => sh.readsC f && f.c == .link
  | _, _ => false

def Instr.sels (i : Instr) : List Sel :=
  match i.flds with
  | some f => [f.a, f.b, f.c]
  | none => []

/-- The reasons a target field of index `i` breaks (R18, R31). DESIGN CHOICE (assumption log 46): a target that names an index whose
opcode is unassigned breaks 0x22, since nothing there reads the slot, and such a word is neither a producer nor the owner of an
extension word. -/
def targetReasons (cells : List Cell) (n i : Nat) (x : BitVec 9) : List Nat :=
  let j := (x.extractLsb' 2 7).toNat
  if x == 0x1FF then []
  else (if x.extractLsb' 0 2 == 3 then [0x22] else []) ++
    if j ≤ i || n ≤ j then [0x20]
    else match cells[j]? with
      | some .ext => [0x21]
      | some (.instr _ _ c _) => match decTarget x with
        | some t => if c.linkSlot t.slot then [] else [0x22]
        | none => []
      | some (.bad _ _) => [0x22]
      | none => [0x20]

/-- How many producers target a slot. -/
def producers (cells : List Cell) (j : Nat) (s : Slot) : Nat :=
  (cells.map fun c => match c with
    | .instr _ _ i _ => (i.targets.filter fun t => t.idx.toNat == j && t.slot == s).length
    | _ => 0).sum

/-- The lowest reason that applies to index `i` (R31), or none. -/
def indexReason (h : Header) (cells : List Cell) (n i : Nat) (c : Cell) : Option Nat :=
  match c with
  | .ext => none
  | .bad _ e => some e
  | .instr w x ins badM =>
    let own := (if badM then [0x11] else []) ++ (ownBreaches w x ins).filterMap fun p => if p.1 then some p.2 else none
    let trp := if ins.trapOnly && !h.trapblk then [0x10] else []
    let ts := targetReasons cells n i (bits w 39 9) ++ if ins.flds.isSome then targetReasons cells n i (bits w 30 9) else []
    let prod := [Slot.a, .b, .c].filterMap fun s =>
      if ins.linkSlot s then
        (match producers cells i s with | 0 => some 0x24 | 1 => none | _ => some 0x23)
      else none
    let ports := ins.sels.filterMap fun s => match s with
      | .port p => if h.expect.getLsbD p.toNat then none else some 0x26
      | _ => none
    (own ++ trp ++ ts ++ prod ++ ports).min?

/-- The lowest header code that applies (R31): 0x01 to 0x04. -/
def headerReason (lo hi : Word) (words : List Word) : Option Nat :=
  let h := decHeader lo hi
  let cells := cellsOf false words
  let count (p : Instr → Bool) : Nat := (cells.filter fun c => match c with | .instr _ _ i _ => p i | _ => false).length
  if h.version != 1 then some 0x01
  else if bits hi 22 42 != 0 then some 0x02
  else if !h.consistent || 32 < count Instr.sendsToken || 64 < h.memops.toNat + count Instr.isRput then some 0x03
  else if h.memops.toNat != count Instr.isMem then some 0x04
  else none

/-- Validates a whole block: its decoded form, or the 16-bit syndrome of R31 (reason in bits 15:8, index in bits 7:0). -/
def validate (lo hi : Word) (words : List Word) : Except (BitVec 16) Block :=
  match headerReason lo hi words with
  | some r => .error (BitVec.ofNat 16 (r * 256 + 0xFF))
  | none =>
    let h := decHeader lo hi
    let cells := cellsOf false words
    match (cells.zipIdx.findSome? fun p => (indexReason h cells words.length p.2 p.1).map fun r => (p.2, r)) with
    | some (i, r) => .error (BitVec.ofNat 16 (r * 256 + i))
    | none => .ok { hdr := h, code := cells.zipIdx.filterMap fun p => match p.1 with | .instr _ _ i _ => some (p.2, i) | _ => none }

/-- The words of a block image after its header, from its bytes (R12). -/
def wordsOfBytes : Nat → List Byte → List Word
  | 0, _ => []
  | n + 1, b => wordOfBytes (b.take 8) :: wordsOfBytes n (b.drop 8)

end Sys2Proof
end

