-- ==== Sys2Proof/Machine/Types.lean ====
section
/-! DEFINITION. The parts the machine's state is made of: tokens and trap records, the units of a core, the homes,
contexts and activations, engines, links and the host port. Plain data throughout. -/

namespace Sys2Proof.Machine

/-! ### Tokens and traps -/

/-- A token packet (R34). `tail` is words 4 to 7: the signature or the trap record. -/
structure Token where
  payload : Word := 0
  tag : BitVec 32 := 0
  dblock : BitVec 32 := 0
  dpkg : BitVec 12 := 0
  dcore : BitVec 8 := 0
  ctx : BitVec 12 := 0
  act : BitVec 16 := 0
  hid : BitVec 8 := 0
  port : BitVec 4 := 0
  relf : Bool := false
  trapf : Bool := false
  cntf : Bool := false
  engf : Bool := false
  spkg : BitVec 12 := 0
  score : BitVec 8 := 0
  skind : BitVec 4 := 0
  tail : BitVec 256 := 0
deriving DecidableEq, Repr, Inhabited

/-- A trap as an instruction or agent raises it (R338, R339): `fault` is the page fault a PAGE_FAULT joined. -/
structure Trap where
  cause : BitVec 8
  reason : BitVec 8 := 0
  code : BitVec 16 := 0
  addr : Word := 0
  aux : BitVec 63 := 0
  fault : Option (BitVec 32) := none
deriving DecidableEq, Repr, Inhabited

/-- A trap record (R338). `tag` and `block` are word 5: the engine word of an engine trap. -/
structure TrapRec where
  cause : BitVec 8 := 0
  reason : BitVec 8 := 0
  code : BitVec 16 := 0
  act : BitVec 16 := 0
  index : BitVec 8 := 0xFF
  hid : BitVec 8 := 0
  tag : BitVec 32 := 0
  block : BitVec 32 := 0
  addr : Word := 0
  atomf : Bool := false
  aux : BitVec 63 := 0
deriving DecidableEq, Repr, Inhabited

/-! ### Matching, bins and chords (R188 to R204) -/

/-- An outstanding page fault that something waits for (R388): its ID, and the faulting address. -/
structure Stop where
  id : BitVec 32
  addr : Word := 0
deriving DecidableEq, Repr, Inhabited

/-- The state of an instance (R196). A parked instance names the page fault that parked it, whether its trap token
has been sent, and whether it is marked refuted (R386). -/
inductive InstState
  | waiting | ready | firing
  | parked (fault : Option Stop) (told refuted : Bool)
deriving DecidableEq, Repr, Inhabited

/-- A matching-store entry (R188). -/
structure Entry where
  ctx : BitVec 12
  act : BitVec 16
  dblock : BitVec 32
  tag : BitVec 32
  hid : BitVec 8
  filled : BitVec 16 := 0
  frame : Nat
  arrivals : Nat := 0
  target : Option Nat := none
  sum : BitVec 80 := 0
  readyAt : Nat := 0
  state : InstState := .waiting
  /-- Of a parked instance: the instruction its record names, and whether it had performed an atomic (R338). -/
  trapIdx : BitVec 8 := 0xFF
  atomf : Bool := false
  /-- What its block asks for: the header, and the room one lane takes in the commit and send buffers (R203). -/
  hdr : Header := default
  room : Nat × Nat := (0, 0)
deriving DecidableEq, Repr, Inhabited

/-- A token in the ingress FIFO with the cycle it was placed there (R194), and what the core read of its block: the header and
the room of a lane (R189, R203). -/
structure Waiting where
  tok : Token
  since : Nat
  hdr : Header := default
  room : Nat × Nat := (0, 0)
deriving DecidableEq, Repr, Inhabited

/-- A reference to a ready instance: its frame names it, and its ready time orders it (R197 to R199). -/
structure Ref where
  frame : Nat
  readyAt : Nat
deriving DecidableEq, Repr, Inhabited

/-- A bin that holds references (R197, R200). `due` is the round number at which it reached four losses; `fires` is set
while it is firable. -/
structure Bin where
  ctx : BitVec 12
  act : BitVec 16
  dblock : BitVec 32
  refs : List Ref
  hdr : Header := default
  losses : Nat := 0
  credit : Nat := 0
  due : Option Nat := none
  fires : Bool := false
deriving DecidableEq, Repr, Inhabited

/-- A reference that waits in the bin queue (R198), with its block. -/
structure QRef where
  ctx : BitVec 12
  act : BitVec 16
  dblock : BitVec 32
  ref : Ref
  hdr : Header := default
deriving DecidableEq, Repr, Inhabited

/-- Where one byte of an access lies (R153, R211): a home of the own package, another package (with the leaf's SEC, for its home to
judge, R423), host memory, or a core's SRAM (frames and banks). -/
inductive Place
  | home (pa : Nat) (cache : Bool) (slot : BitVec 8)
  | remote (pkg : BitVec 12) (pa : Nat) (slot : BitVec 8) (sec : Bool)
  | host (addr : Nat)
  | sram (core : Nat) (addr : Nat)
  /-- A byte of another package's or the host's memory, given in answer to an agent's read of it. -/
  | given (b : Byte)
deriving DecidableEq, Repr, Inhabited

/-- How a loaded value is extended (R160). -/
structure Fin where
  bytes : Nat
  signed : Bool := false
deriving DecidableEq, Repr, Inhabited

/-- The acquisition or release an atomic or flag access carries (R167). -/
structure Sync where
  ord : AtOrd := .none
  scope : Scope := .core
deriving DecidableEq, Repr, Inhabited

/-- What the memory or a unit answers to a lane that waits: chord slot of a core and the wait's number. -/
structure ReplyTo where
  core : Nat
  slot : Nat
  wait : Nat
deriving DecidableEq, Repr, Inhabited

/-- One lane's part of a CMPK claim (R178). -/
structure ClaimLane where
  lane : Nat
  tag : BitVec 32
  data : Word := 0
deriving DecidableEq, Repr, Inhabited

/-- What a core asks a home for on behalf of a waiting lane. -/
inductive Source
  | remote (pkg : BitVec 12)
  | host
deriving DecidableEq, Repr, Inhabited

/-- An entry of an update window: a UPD, an ATOM or a CMPK claim (R257, R165, R169, R178). -/
structure UEnt where
  pa : Nat
  slot : BitVec 8 := 0
  size : AtSize
  op : AtomOp := .add
  isUpd : Bool := false
  ord : Bool := false
  x : Word := 0
  c : Word := 0
  pkg : BitVec 12 := 0
  core : Nat := 0
  ctx : BitVec 12 := 0
  sync : Sync := {}
  claim : Option (CmpkWord × List ClaimLane × Word) := none
  reply : Option ReplyTo := none
  remote : Option Nat := none
  /-- Refused once for want of a release record: the core has been told to write back, and sends it again (R221). -/
  eager : Bool := false
  /-- The signature a releaser sends with the write it repeats. -/
  rs : Sig := 0
  /-- A claim of another package: its operation stays open until the requester says what COUNT becomes (assumption log 15). -/
  far : Bool := false
  /-- Of an atomic to host memory: an AtomicOp as it is, rather than the CAS loop, decided at execution (R414). -/
  direct : Bool := false
  /-- Of an update of another package in the window: its package has been told that it is accepted (R238). -/
  told : Bool := false
  at_ : Nat := 0
deriving DecidableEq, Repr, Inhabited

/-- A launch request at the graph loader (R141, R328, R329). -/
structure LReq where
  ctx : BitVec 12
  image : Word
  entry : Nat
  payload : Word
  params : List Word
  count : Nat
  /-- The launcher's activation, block, port and tag (R142); none for a launch by the host. -/
  launcher : Option (BitVec 16)
  notify : Option (BitVec 24 × BitVec 4 × BitVec 32)
  /-- The host launch's descriptor address and its port's vector (R328, R409). -/
  host : Option (Word × BitVec 11)
  record : Word := 0
  /-- Cores of each package (none: the loader chooses), from the placement table or from the launcher's placement. -/
  placement : List (BitVec 12 × List Nat) := []
  nparam : Nat := 0
  paramVa : Word := 0
  nplace : Nat := 0
  placeVa : Word := 0
  sig : Sig := 0
  pkg : BitVec 12 := 0
  /-- The activation number, once step 3 has assigned it; the request then waits at step 4. -/
  num : Option (BitVec 16) := none
  /-- The page fault it waits for. -/
  stop : Option Stop := none
  /-- The package whose loader asks for the placement, where it is another's launch (R182). -/
  from_ : Option (BitVec 12) := none
  /-- The other packages' part: 0 not asked, 1 asked for their cores, 2 told every package's; and what they have answered. -/
  phase : Nat := 0
  answers : List (BitVec 12 × List Nat) := []
  /-- What it reads at present: 0 its descriptor, 1 the parameter block and the placement table, 2 the image. -/
  stage : Nat := 2
deriving DecidableEq, Repr, Inhabited

/-- A dimension of a pattern (R273): its count and its signed byte stride. -/
structure Dim where
  count : Nat := 0
  stride : Int := 0
deriving DecidableEq, Repr, Inhabited

/-- A ring descriptor (R261). -/
structure RingDesc where
  base : Nat := 0
  depth : Nat := 2
  fmt : Nat := 0
  shape : Bool := false
  round : Rnd := .rne
  sat : Bool := false
  scaled : Bool := false
  sring : Nat := 0
deriving DecidableEq, Repr, Inhabited

/-- Where a tile operand stands (R346): a slot of a ring, with its descriptor, the SRAM addresses of the slot and of its scale slot, and
its bounds; or a window of memory. -/
inductive TileLoc
  | ring (desc : RingDesc) (addr saddr vrows vcols : Nat)
  | window (base : Word) (d0 d1 : Dim) (fmt : Nat) (shape : Bool)
deriving DecidableEq, Repr, Inhabited

/-- A request to a sympathy comparator (R347, R349, R350). -/
inductive SymKind
  | symc (w : CompareWord) (tile : TileLoc)
  | symp (w : StoreWord) (inp out : TileLoc)
  | symr (w : ReplayWord) (dest : TileLoc)
deriving DecidableEq, Repr, Inhabited

/-- A request to a comparator with what it carries. `lanes` are the tags and HIDs its tokens take; `stop` is the page
fault at which it waits (R373). -/
structure SymReq where
  /-- Names its registered ranges. -/
  id : Nat := 0
  core : Nat
  ctx : BitVec 12
  act : BitVec 16
  lanes : List (BitVec 32 × BitVec 8)
  handle : Word
  step : BitVec 32
  flops : Word := 0
  kind : SymKind
  stop : Option Stop := none
  /-- The payload of a completion that waits for acknowledgements. -/
  fin : Option Word := none
  /-- Its comparator has taken it, and it waits at a page fault or for acknowledgements (R369). -/
  taken : Bool := false
  /-- The record a SYMP is to write once its slot is written (R369): its address and bytes, and the way and generation. -/
  due : Option (Nat × List Byte × Nat × BitVec 32) := none
deriving DecidableEq, Repr, Inhabited

/-- A page selection under way (R357). -/
structure PselJob where
  core : Nat
  ctx : BitVec 12
  act : BitVec 16
  tag : BitVec 32
  list : Word
  query : Word
  k : Nat
  w : SelWord
  stop : Option Stop := none
  /-- The page at which it stopped, and the pages before it, ranked, with their scores. -/
  page : Nat := 0
  acc : List (Nat × Nat) := []
deriving DecidableEq, Repr, Inhabited

/-- A copy (R279, R280). -/
structure Copy where
  seq : BitVec 32
  core : Nat
  ctx : BitVec 12
  act : BitVec 16
  tag : BitVec 32
  src : Word
  dst : Word
  sfmt : Nat
  dfmt : Nat
  round : Rnd
  sat : Bool
  remote : Option Nat
  dims : List Dim
  dstStr : List Int
  w : CopyWord
  written : Nat := 0
  cancel : Bool := false
  stop : Option Stop := none
  /-- The state it ends in once every write of it is accepted (R227, R281). -/
  fin : Option Nat := none
deriving DecidableEq, Repr, Inhabited

/-- A request of HRES at the hypothesis table (R354). -/
structure HypReq where
  ctx : BitVec 12
  refute : Bool
  target : BitVec 8
  hid : BitVec 8
  tag : BitVec 32
  act : BitVec 16
  core : Nat
  d : TokenDest
deriving DecidableEq, Repr, Inhabited

/-- A buffered effect of a lane, or of the chord (R132, R156, R266, R344). A store holds the HID it was made under (R353). -/
inductive Eff
  | store (hid : BitVec 8) (bytes : List (Place × Byte))
  | storeRel (bytes : List (Place × Byte)) (sc : Scope)
  | atomPost (pl : Place) (u : UEnt)
  | upd (pl : Place) (u : UEnt)
  | send (t : Token) (rel : Bool)
  | launch (q : LReq)
  | credit (n : Nat)
  | tret (core frame : Nat)
  | kill (core frame : Nat)
  | cctl (op : CctlOp) (pa : Nat)
  | bcinv (start len : Nat)
  | frmf (core id : Nat)
  | fence (sc : Scope)
  | rput (ring : Nat) (slot el : Nat) (code : Word)
  | cpy (c : Copy) (engine : Nat)
  | cpyc (h : Word)
  | rbind (ring : Nat) (d : RingDesc)
  | runb (ring : Nat)
  | radv (tail : Bool) (ring : Nat) (n : Nat)
  | rwait (free : Bool) (ring : Nat) (n : Nat) (d : TokenDest)
  | strm (out : Bool) (ring : Nat) (base : Word) (w : StreamWord)
  | strmc (h : Nat)
  | mxbind (slot : Nat) (a b acc : Nat) (w : CtlWord) (k0 k1 : Word)
  | mxunb (slot : Nat)
  | mxfire (a b acc : Nat) (w : CtlWord)
  | mxz (acc : Nat)
  /-- With the places of the elements, as the execution translated them (R399). -/
  | mxld (acc : Nat) (addr : Word) (pl : List Place := [])
  /-- With the places of the bias values, and those of the tile by address. -/
  | mxst (acc : Nat) (addr : Word) (w : EpiWord) (bias : List Place := []) (els : List (Nat × Place) := [])
  | mxmute (slot : Nat)
  | mxsave (slot : Nat) (addr : Word) (pl : List Place := [])
  | mxrest (slot : Nat) (addr : Word) (bytes : List Byte)
  | sym (k : SymKind) (handle : Word) (flops : Word)
  | syms
  | hres (q : HypReq)
  | hnote (hid : BitVec 8) (note : BitVec 32)
  | psel (list query : Word) (k : Nat) (w : SelWord)
deriving DecidableEq, Repr, Inhabited

/-- A position a lane claimed, with what a commit or a hole writes (R178, R179). `hdr` is the place of the header's HOLES. -/
structure Claim where
  idx : Nat
  hdr : Place
  elem : List Place
  offs : List Place
  data : List Byte
  off : List Byte
deriving DecidableEq, Repr, Inhabited

/-- What a lane, or all lanes under U, wait for: bytes of a load, an atomic's old value, a claim, or a fence. `got`
holds the bytes as they come; `mine` the lane's own buffered bytes laid over them (R156). -/
structure Wait where
  id : Nat
  idx : Nat
  lanes : List Nat
  fin : Fin
  got : List (Option Byte)
  t0 : Option Target
  t1 : Option Target
  acquire : Bool := false
  /-- It orders the lane's later accesses behind it without a signature (R162, R167, R224, R416). -/
  order : Bool := false
  /-- It ends in an acquisition that no later chord of the core fires before (R222). -/
  gate : Bool := false
  /-- The index of the LDT effect whose payload the value is (R163). -/
  ldt : Bool := false
  addr : Word := 0
  atomf : Bool := false
  /-- Acknowledgements a fence waits for (R170). -/
  acks : List Nat := []
  /-- The read it waits for, with whose answers the instruction is executed again (R238). -/
  redo : Option Nat := none
deriving DecidableEq, Repr, Inhabited

/-- A speculative store that waits for a reservation (R383). -/
structure SpecWait where
  line : Nat
  lane : Nat
  hid : BitVec 8
  addr : Word
  since : Nat
  idx : Nat
deriving DecidableEq, Repr, Inhabited

/-- One lane of a chord (R202 to R206). -/
structure Lane where
  tag : BitVec 32
  hid : BitVec 8
  hid0 : BitVec 8
  frame : Nat
  ports : List Word
  doom : Option (Trap × Nat) := none
  effs : List (Nat × Eff) := []
  claims : List Claim := []
  /-- The allocations it made, by number. -/
  frma : List Nat := []
  forks : List (BitVec 8) := []
  atomf : Bool := false
deriving DecidableEq, Repr, Inhabited

/-- The value a producer delivered to one slot of one lane (R18). -/
structure Link where
  idx : Nat
  slot : Slot
  lane : Nat
  val : Word
deriving DecidableEq, Repr, Inhabited

/-- What is left of a commit (R204), in order: an effect of a lane, or of the chord (lane 32 and up: performed by that lane less
32), the element of a claim, a hole, the end of a lane that commits, is voided or is an orphan, acknowledgements to wait
for, or a copy whose ranges are registered and that waits for room in its engine's queue (R280). -/
inductive CommitAct
  | eff (lane idx : Nat) (e : Eff) (waited : Bool)
  | elem (lane : Nat) (k : Claim)
  | hole (lane : Nat) (k : Claim)
  | finish (lane : Nat)
  | park (lane : Nat)
  | orphan (lane : Nat)
  | path (lanes : Nat)
  | await (ids : List Nat)
  | queueCopy (engine : Nat) (c : Copy)
deriving DecidableEq, Repr, Inhabited

/-- A chord in its slot (R202). `hdr` and `words` are none while the block is being filled (R32). -/
structure Chord where
  ctx : BitVec 12
  act : BitVec 16
  dblock : BitVec 32
  va : Nat
  img : Option (Header × List Word) := none
  pc : Nat := 0
  lanes : NMap Lane := []
  links : List Link := []
  effs : List (Nat × Eff) := []
  forks : List (BitVec 8) := []
  waits : List Wait := []
  specs : List SpecWait := []
  /-- The claims a CMPK at `pc` has still to make, each a header address, its places and its lanes (R178). -/
  claimQ : Option (List (Word × List Place × List ClaimLane)) := none
  granted : Nat := 0
  /-- When its block was there, and when what each index last issued delivers is there (R112, R202, R208). -/
  imgAt : Nat := 0
  issued : NMap Nat := []
  room : Nat × Nat := (0, 0)
  /-- The lanes whose commit has begun, fixed as it begins (R377). -/
  commits : List Nat := []
  /-- What is left of its commit, once that has begun. -/
  todo : Option (List CommitAct) := none
deriving DecidableEq, Repr, Inhabited

/-! ### The core's memories (R212 to R222, R244 to R260) -/

/-- An L1 line (R212, R254, R381): `ctx` is that of `hid` when it is not 0. -/
structure L1Line where
  line : Nat
  ctx : BitVec 12 := 0
  hid : BitVec 8 := 0
  slot : BitVec 8 := 0
  valid : Mask := 0
  dirty : Mask := 0
  data : Line := 0
  epoch : Nat := 0
deriving DecidableEq, Repr, Inhabited

/-- A fill in flight (R218): `keep` is cleared when an acquisition matches it. -/
structure Fill where
  line : Nat
  slot : BitVec 8
  ctx : BitVec 12
  hid : BitVec 8
  keep : Bool := true
deriving DecidableEq, Repr, Inhabited

/-- A write on its way from a core to a home, in issue order (R210): committed bytes or bytes of a version, with whether they are
written back from the L1, the flag write of an
ST.rel with whether its page is one the core may cache (R216) and whether its release is recorded at the home (R221, R224), or an
update or posted atomic (R225). -/
inductive HomeOp
  | write (pa : Nat) (slot : BitVec 8) (mask : Mask) (data : Line) (ctx : BitVec 12) (hid : BitVec 8) (back : Bool)
  | flag (pa : Nat) (slot : BitVec 8) (data : BitVec 64) (cached rel : Bool)
  | upd (u : UEnt)
deriving DecidableEq, Repr, Inhabited

/-- The line a write goes to. -/
def HomeOp.line : HomeOp → Nat
  | .write pa .. => pa / 128
  | .flag pa .. => pa / 128
  | .upd u => u.pa / 128

/-- A live FRMA allocation (R174). -/
structure Alloc where
  /-- Names the allocation, so that what was freed is not freed again under another (R175). -/
  id : Nat
  ctx : BitVec 12
  act : BitVec 16
  first : Nat
  count : Nat
deriving DecidableEq, Repr, Inhabited

/-- A block in the block cache (R229, R260). -/
structure CBlock where
  ctx : BitVec 12
  act : BitVec 16
  va : Nat
  hdr : Header
  words : List Word
deriving DecidableEq, Repr, Inhabited

/-- A refused block (R30). -/
structure Refused where
  ctx : BitVec 12
  act : BitVec 16
  va : Nat
  syndrome : BitVec 16
  trapblk : Bool := false
  /-- The bytes of its image. -/
  len : Nat := 16
deriving DecidableEq, Repr, Inhabited

/-- A fill of the block cache asked for, with the tokens that wait for it and the page fault it waits under (R189). -/
structure BFill where
  ctx : BitVec 12
  act : BitVec 16
  va : Nat
  toks : List Token := []
  stop : Option Stop := none
deriving DecidableEq, Repr, Inhabited

/-- The agent at one side of a ring (R264). -/
inductive Side | program | stream | matrix
deriving DecidableEq, Repr, Inhabited

/-- A pending watch (R272): its count and its token. -/
structure Watch where
  n : Nat
  tok : Token
deriving DecidableEq, Repr, Inhabited

/-- The sequence number and bounds of a slot (R264). -/
structure SlotMeta where
  seq : BitVec 32 := 0
  vrows : Nat := 32
  vcols : Nat := 32
deriving DecidableEq, Repr, Inhabited

/-- A bound ring of an activation (R264). `first` and `banks` are the banks its plan entry reserves (R263). -/
structure Ring where
  actKey : Nat
  num : Nat
  desc : RingDesc
  first : Nat
  banks : Nat
  head : BitVec 32 := 0
  tail : BitVec 32 := 0
  slots : NMap SlotMeta := []
  prod : Side := .program
  cons : Side := .program
  wFilled : Option Watch := none
  wFree : Option Watch := none
deriving DecidableEq, Repr, Inhabited

/-- A ring-plan entry of an activation on a core: the ring, its first bank and its banks (R263). -/
structure Plan where
  actKey : Nat
  num : Nat
  first : Nat
  banks : Nat
deriving DecidableEq, Repr, Inhabited

/-- The state of a stream (R278). -/
inductive StrState | running | paused (fault : Stop) | error
deriving DecidableEq, Repr, Inhabited

/-- A stream (R275 to R278). -/
structure Stream where
  actKey : Nat
  handle : Nat
  ctx : BitVec 12
  act : BitVec 16
  out : Bool
  ring : Nat
  base : Word
  dims : List Dim
  sbase : Word := 0
  sstr : List Int := []
  w : StreamWord
  tag : BitVec 32
  tiles : Nat := 0
  /-- A STRMW's tile `tiles` is written, and a write of it has not been accepted at its home (R312). -/
  wrote : Bool := false
  /-- The stream engines that have served it, by number of their signature registers (R227). -/
  used : List Nat := []
  state : StrState := .running
deriving DecidableEq, Repr, Inhabited

/-- FMT of an accumulator (R283). -/
inductive AccFmt | fp64 | fp32 | int32
deriving DecidableEq, Repr, Inhabited

/-- An accumulator (R283). `elems` lists its 1,024 elements row by row; it is empty while LIVE is 0. -/
structure Acc where
  elems : List Nat := []
  fmt : AccFmt := .fp32
  owner : Option Nat := none
  bind : Option Nat := none
  pend : Bool := false
  kt : Nat := 0
  vr : Nat := 32
  vc : Nat := 32
  live : Bool := false
  full : Bool := false
deriving DecidableEq, Repr, Inhabited

/-- STATE of a binding slot (R284). -/
inductive MxState | running | muted | error
deriving DecidableEq, Repr, Inhabited

/-- A binding slot in use (R284). `sched` is a mute of the scheduler's, with the STATE it recorded (R311). -/
structure Binding where
  actKey : Nat
  state : MxState := .running
  muting : Bool := false
  sched : Option MxState := none
  w : CtlWord
  k0 : Word
  k1 : Word
  a : Nat
  b : Nat
  acc : Nat
  sat : Bool := false
  otiles : BitVec 32 := 0
  tag : BitVec 32
deriving DecidableEq, Repr, Inhabited

/-- A queued MXFIRE step (R297, R316). -/
structure FireStep where
  actKey : Nat
  w : CtlWord
  a : Nat
  b : Nat
  acc : Nat
  tag : BitVec 32
deriving DecidableEq, Repr, Inhabited

/-- A stage buffer (R314): the candidate and the ring it belongs to, and the slot as the staging read it. -/
structure Staged where
  cand : Nat
  ring : Nat
  info : SlotMeta := {}
  bytes : List Byte := []
  bad : Bool := false
deriving DecidableEq, Repr, Inhabited

/-- A firing under way (R316, R317): its candidate, and what was staged for it. -/
structure Firing where
  cand : Nat
  bufs : List Staged := []
deriving DecidableEq, Repr, Inhabited

/-- The matrix engine (R313 to R318). Candidate 4 is the head of the MXFIRE queue. -/
structure Mxe where
  accs : NMap Acc := []
  slots : NMap Binding := []
  queue : List FireStep := []
  staged : List Staged := []
  /-- Firings under way, in start order. -/
  firing : List Firing := []
  /-- The binding slot whose drain is under way, with the bias bytes read when it began (R318). -/
  drain : Option (Nat × List Byte) := none
  /-- Drains that wait on a page fault, by binding slot (R318). -/
  drainStops : List (Nat × Stop) := []
  /-- Binding slots of drains whose page fault has been serviced, and which have not begun again. -/
  drainNext : List Nat := []
  last : Nat := 4
  lastDrain : Nat := 3
deriving DecidableEq, Repr, Inhabited

/-- A cached leaf translation (R392, R395): the page's virtual base and size, and the leaf's two words. -/
structure Leaf where
  ctx : BitVec 12
  base : Nat
  size : Nat
  w0 : Word
  w1 : Word
deriving DecidableEq, Repr, Inhabited

/-- A cached non-leaf entry: the table it points to for a prefix of the address (R395). -/
structure NonLeaf where
  ctx : BitVec 12
  level : Nat
  pre : Nat
  table : Nat
deriving DecidableEq, Repr, Inhabited

/-- One core. -/
structure Core where
  /-- CORE_BANKROLE (R244). -/
  roles : BitVec 64 := 0
  /-- SRAM by bank × 128 KiB + byte: frames in FRAME banks, slots and scratchpad in RING banks. -/
  sram : List Host.Cell := []
  /-- Bytes of it whose data is uncorrectable, until each is written again (R343). -/
  bad : List Nat := []
  allocs : List Alloc := []
  entries : List Entry := []
  fifo : List Waiting := []
  bins : NMap Bin := []
  binQ : List QRef := []
  /-- Rounds held, which orders the due bins (R200). -/
  rounds : Nat := 0
  /-- The last ready time given: a core makes at most one instance ready in a cycle (R199). -/
  lastReady : Nat := 0
  chords : NMap Chord := []
  l1 : List L1Line := []
  fills : List Fill := []
  homeQ : List HomeOp := []
  /-- The four epoch signature registers (R216), by epoch modulo 4. -/
  sig0 : Sig := 0
  sig1 : Sig := 0
  sig2 : Sig := 0
  sig3 : Sig := 0
  cache : List CBlock := []
  refused : List Refused := []
  bfills : List BFill := []
  /-- Spawn counters by activation (R138). -/
  spawn : NMap (BitVec 23) := []
  plans : List Plan := []
  rings : List Ring := []
  streams : List Stream := []
  mxe : Mxe := {}
  utlb : List Leaf := []
  /-- Numbers of writes and atomics sent to other packages or the host and not yet acknowledged (R238). -/
  acks : List Nat := []
  /-- Numbers of its returning atomics and claims at other packages or the host that have not been answered (R217). -/
  atoms : List Nat := []
  /-- Tokens and HRES requests held under a hypothesis being resolved (R384). -/
  heldHyp : List Token := []
  heldRes : List HypReq := []
  /-- Frames of instances saved with contexts that are away (assumption log 20). -/
  kept : List Nat := []
deriving DecidableEq, Repr, Inhabited

/-! ### Homes (R209 to R226, R255 to R259, R381 to R383) -/

/-- What a home line carries beside its data (R229, R243, R255, R256, R343, R424). `slot`, `gen` and `key` are the key the line was
written to HBM under, once `written` is set, and `ver` counts those writes. While the line is in the L2 (`res`), `tag` and
`tkey` are the key of its fill or first write, `dirty` says that HBM does not have its bytes yet, and `garb` that it was
filled under another key than it was written under. -/
structure LineMeta where
  stamp : BitVec 16 := 0
  written : Bool := false
  sticky : Bool := false
  poison : Bool := false
  slot : BitVec 8 := 0
  gen : Nat := 0
  key : BitVec 512 := 0
  ver : Nat := 0
  res : Bool := false
  tag : BitVec 8 := 0
  tkey : BitVec 512 := 0
  dirty : Bool := false
  garb : Bool := false
deriving DecidableEq, Repr, Inhabited

/-- A release record of a slice (R220). -/
structure RelRec where
  pending : List (BitVec 12 × BitVec 8) := []
  held : Sig := 0
  isHeld : Bool := false
  epoch : Nat := 0
deriving DecidableEq, Repr, Inhabited

/-- Who writes at a home: a core, an engine by the number of its signature registers (R227), a core of another package, the host through
BAR2 (R408), or another agent that signs nothing. -/
inductive Writer
  | core (c : Nat)
  | engine (e : Nat)
  | far (pkg : BitVec 12) (core : BitVec 8)
  | host
  | other
deriving DecidableEq, Repr, Inhabited

/-- A write-back or store that waits for an operation on its line, or behind a write of its core that does (R210, R259). -/
structure HeldWrite where
  line : Nat
  op : HomeOp
  by_ : Writer
  /-- Another package's write, as its packet says it, which is acknowledged once it is performed (R238). -/
  far : Option RemoteReq := none
deriving DecidableEq, Repr, Inhabited

/-- An operation of the update unit in flight on a line (R258). -/
structure Operation where
  batch : List UEnt
  /-- The header has gone to the package whose claim ends the batch, and COUNT is awaited. -/
  sent : Bool := false
deriving DecidableEq, Repr, Inhabited

/-- A flag acquisition at its home (R222). `orders` are drain orders not yet served, `answers` those served and not yet
taken by the home, `sent` orders on their way to other packages. -/
structure Acq where
  line : Nat
  value : List Byte
  /-- Whether a byte of the value is uncorrectable. -/
  bad : Bool := false
  reply : Option ReplyTo
  /-- The package, core and request number of an acquirer elsewhere. -/
  remote : Option (BitVec 12 × BitVec 8 × Nat) := none
  orders : List (BitVec 12 × BitVec 8) := []
  sent : List (BitVec 12 × BitVec 8) := []
  answers : List ((BitVec 12 × BitVec 8) × Sig) := []
  got : Sig := 0
  ctx : BitVec 12 := 0
deriving DecidableEq, Repr, Inhabited

/-- A flag read that has reached its home and has not been performed (R222). -/
structure AcqReq where
  pa : Nat
  slot : BitVec 8
  len : Nat
  ctx : BitVec 12
  hid : BitVec 8
  reply : Option ReplyTo
  remote : Option (BitVec 12 × BitVec 8 × Nat) := none
deriving DecidableEq, Repr, Inhabited

/-- One L2 slice (R220, R257 to R259). -/
structure Slice where
  recs : NMap RelRec := []
  ovf : Sig := 0
  ovfSet : Bool := false
  ovfEpoch : Nat := 0
  window : List UEnt := []
  inq : List UEnt := []
  ops : NMap Operation := []
  heldWr : List HeldWrite := []
  acqQ : List AcqReq := []
  acqs : List Acq := []
deriving DecidableEq, Repr, Inhabited

/-- A version of a line, or its reservation (R382, R383). -/
structure Version where
  line : Nat
  ctx : BitVec 12
  hid : BitVec 8
  mask : Mask := 0
  data : Line := 0
  poison : Bool := false
  /-- The key slot of the page it was last written through, under which a confirmation merges it (R384, R424). -/
  slot : BitVec 8 := 0
deriving DecidableEq, Repr, Inhabited

/-- A registered range (R159, R226): the engine's number, and whether the range is a destination. -/
structure Lock where
  ctx : BitVec 12
  lo : Nat
  hi : Nat
  dest : Bool
  /-- 0 copy (engine × 2^32 + sequence number), 1 stream (core, activation and handle), 2 comparator request. -/
  kind : Nat
  owner : Nat
deriving DecidableEq, Repr, Inhabited

/-- Open bytes of memory, from `lo` up to but not including `hi`: those of a save block that only the hardware's restore reads, as
a pre-emption has left them (R333), or those an earlier boot left (R425). The byte at `lo` is number `off` of its occasion. -/
structure OpenRange where
  lo : Nat
  hi : Nat
  occasion : Nat
  off : Nat
  /-- Left by an earlier boot: what they read as depends on the key they are read under. -/
  raw : Bool := false
deriving DecidableEq, Repr, Inhabited

/-- Package memory and its homes. -/
structure Homes where
  mem : List Host.Cell := []
  opens : List OpenRange := []
  lines : NMap LineMeta := []
  slices : NMap Slice := []
  versions : List Version := []
  locks : List Lock := []
deriving DecidableEq, Repr, Inhabited

/-! ### Contexts, activations, the loader (R325 to R336) -/

/-- A context descriptor as read (R325). -/
structure Desc where
  valid : Bool := false
  prio : Nat := 0
  share : Nat := 0
  frameB : Nat := 0
  fifoB : Nat := 0
  secure : Bool := false
  quantum : Nat := 0
  wdog : Nat := 0
  xroot : Word := 0
  domain : Word := 0
  spill : Word := 0
  spillN : Nat := 0
  save : Word := 0
  timage : Word := 0
  tentry : Nat := 0
  tparam : Word := 0
  evec : BitVec 11 := 0
  symtab : Word := 0
deriving DecidableEq, Repr, Inhabited

/-- The states of R327. -/
inductive CtxState | absent | resident | leaving | saved | stopped
deriving DecidableEq, Repr, Inhabited

/-- A hypothesis record (R355, R378): state 1 live, 2 being resolved, 3 refuted. -/
structure HypRec where
  state : BitVec 2 := 0
  parent : BitVec 8 := 0
  depth : BitVec 4 := 0
  note : BitVec 32 := 0
deriving DecidableEq, Repr, Inhabited

/-- A sweep under way (R384, R385). `b` is set once phase B has run. -/
structure Sweep where
  req : HypReq
  ids : List (BitVec 8)
  b : Bool := false
  lines : List Nat := []
deriving DecidableEq, Repr, Inhabited

/-- A sympathy class descriptor as read (R364, R365). -/
structure SymClass where
  cls : Nat
  maxAge : Nat
  ways : Nat
  keep : Nat
  setl : Nat
  first : Nat
  dir : Word
deriving DecidableEq, Repr, Inhabited

/-- What step 5 of a pre-emption saves of a core (R333): entries, bin references with the time each has waited, allocations, ring plans
with their rings, streams, bindings, accumulators, spawn counters and refused records, and of the SRAM the bytes of the frames and of
the RING banks, with those that are uncorrectable. Frames, banks, slots and accumulators keep their place on the core meanwhile
(assumption log 20). `fixed` holds the bytes of its save block that R333 lays out, by offset; `occasion` names the others, which are
free (assumption log 13). -/
structure SavedCore where
  core : Nat
  entries : List Entry
  refs : List (QRef × Nat)
  fixed : List (Nat × List Byte)
  occasion : Nat
  allocs : List Alloc := []
  plans : List Plan := []
  rings : List Ring := []
  streams : List Stream := []
  slots : NMap Binding := []
  accs : NMap Acc := []
  spawn : NMap (BitVec 23) := []
  refused : List Refused := []
  cells : List Host.Cell := []
  bad : List Nat := []
deriving DecidableEq, Repr, Inhabited

/-- A context on this package. `phase` is the step of R331 under way, from 1 to 5 (0: decided and not begun), and
`phaseAt` when step 1 began. -/
structure Ctx where
  st : CtxState := .absent
  desc : Desc := {}
  since : Nat := 0
  phase : Nat := 0
  phaseAt : Nat := 0
  /-- The pre-emption ends in stopped instead of saved (STOP or escalation during it, R326, R327). -/
  toStop : Bool := false
  /-- Saved by CTX_CMD PREEMPT: not resident again before the next periodic decision (R330). -/
  parked : Bool := false
  /-- The pre-emption under way is CTX_CMD PREEMPT's. -/
  byCmd : Bool := false
  /-- Granted a slot, and not yet restored (R334). -/
  restoring : Bool := false
  spillHead : Nat := 0
  spillTail : Nat := 0
  /-- Tokens the agent holds for a full spill table (R341). -/
  overflow : List Token := []
  saved : List SavedCore := []
  /-- Resumes accepted while the context is away (R390). -/
  resumes : List (BitVec 32) := []
  hyps : NMap HypRec := []
  orphans : BitVec 32 := 0
  hypQ : List HypReq := []
  sweep : Option Sweep := none
  syms : List SymClass := []
  region : Word := 0
  slotL : Nat := 0
  step : BitVec 32 := 0
  trapCtr : BitVec 32 := 0
  discards : Nat := 0
  lastAct : BitVec 16 := 0
  idleSince : Nat := 0
  waitSince : Nat := 0
  /-- The page fault the trap activation's set-up waits for, and whether it was refused (R336). -/
  trapStop : Option Stop := none
  trapRefused : Bool := false
  /-- TIMAGE, TENTRY and TPARAM of the trap activation that stands. -/
  trapFrom : Option (Word × Nat × Word) := none
  /-- The cores of the trap activation on other packages, as they have told, and those of this package that each has been told (R134). -/
  trapAway : List (BitVec 12 × List Nat) := []
  trapTold : List (BitVec 12 × List Nat) := []
deriving DecidableEq, Repr, Inhabited

/-- An activation (R66, R141 to R143, R182). `pkgs` is its placement, own package included. -/
structure Act where
  ctx : BitVec 12
  act : BitVec 16
  image : Nat
  size : Nat
  consts : List Word
  pkgs : List (BitVec 12 × List Nat)
  plan : List (Nat × Nat)
  total : Nat := 0
  count : Nat := 0
  launcher : Option (BitVec 16) := none
  notify : Option (BitVec 24 × BitVec 4 × BitVec 32) := none
  host : Option (Word × BitVec 11) := none
  sig : Sig := 0
  /-- The entry block and port (R66), for the trap activation's tokens (R337). -/
  entry : BitVec 32 × BitVec 4 := (0, 0)
  trap : Bool := false
  /-- Complete or ended: the end order has been sent and not yet carried out here (R335). -/
  ending : Bool := false
  /-- The package where it was launched and its total is held, where that is another one (R182). -/
  home : Option (BitVec 12) := none
  /-- The other packages whose acknowledgement of the end order is awaited (R335). -/
  awaits : List (BitVec 12) := []
deriving DecidableEq, Repr, Inhabited

/-- An activation number that may not be reassigned yet (R335). -/
structure Quarantine where
  ctx : BitVec 12
  act : BitVec 16
  until_ : Nat
  /-- Packages whose acknowledgement of the end order is still awaited; the epochs begin with the last. -/
  awaits : List (BitVec 12) := []
  /-- The package to which the own acknowledgement is owed, while the X-dies hold tokens of the activation (R236). -/
  owed : Option (BitVec 12) := none
deriving DecidableEq, Repr, Inhabited

/-- A loaded image (R329): its address, size, constant template, ring plan and entries (R67 to R69). -/
structure Image where
  ctx : BitVec 12
  va : Nat
  size : Nat := 0
  tmpl : List (Nat × Nat × Word) := []
  plan : List (Nat × Nat) := []
  entries : List (BitVec 32 × BitVec 4) := []
deriving DecidableEq, Repr, Inhabited

/-- The graph loader (R329). -/
structure Loader where
  queue : List LReq := []
  images : List Image := []
  quar : List Quarantine := []
deriving DecidableEq, Repr, Inhabited

/-! ### Engines (R280, R369, R357) -/

/-- A copy engine (R280, R281): ended copies with context, elements written and STATE. -/
structure CopyEngine where
  queue : List Copy := []
  running : Option Copy := none
  seq : BitVec 32 := 0
  hist : List (BitVec 32 × BitVec 12 × Nat × Nat) := []
deriving DecidableEq, Repr, Inhabited

/-- What an agent is answered where it reads another package's or the host's memory: the bytes, or the trap of a read that failed. -/
inductive ReadAns
  | bytes (bs : List Byte)
  | trap (t : Trap)
deriving DecidableEq, Repr, Inhabited

/-- Bytes of another package's or the host's memory that an agent reads (R211, R238): the request's number, and its answer once it has
come. `kind` is the agent's of R388, and `job` the number of the work that it reads for. -/
structure AgentRead where
  kind : BitVec 8
  ctx : BitVec 12
  job : Nat
  id : Nat
  at_ : Place
  len : Nat
  ans : Option ReadAns := none
deriving DecidableEq, Repr, Inhabited

/-- The engines that are not a core's. `sig` of an engine is kept by engine number (R227). -/
structure Engines where
  copies : NMap CopyEngine := []
  syms : List SymReq := []
  psels : List PselJob := []
  /-- The four epoch signature registers of each engine: 0 to 31 copy engines, 32 to 159 stream engines, 160 on sweeps
  of a context. -/
  sigs : NMap (List Sig) := []
  /-- Valid entries of the owner's transport peer table (R279). -/
  peers : List Nat := []
  /-- Reads that agents have under way, or have not used yet (R238). -/
  reads : List AgentRead := []
deriving DecidableEq, Repr, Inhabited

/-! ### Translation (R388 to R399) -/

/-- An outstanding page fault (R388). -/
structure PFault where
  id : BitVec 32
  ctx : BitVec 12
  page : Nat
deriving DecidableEq, Repr, Inhabited

/-- An invalidation under way (R399): `cores` is set when step 3 is still to come. -/
structure Inval where
  op : Nat
  ctx : BitVec 12
  began : Nat
  /-- Requests in flight with lower numbers were made before it began, or before `marked`. -/
  upTo : Nat
  /-- Chords that hold translations made before it began, as core × 16 + slot with their grant cycles. -/
  chords : List (Nat × Nat)
  /-- Those chords are gone, with every write on its way to a home: `began` and `upTo` are of that instant. -/
  marked : Bool := false
deriving DecidableEq, Repr, Inhabited

/-- Translation registers, caches and faults. -/
structure Xlt where
  invAddr : Word := 0
  busy : Bool := false
  err : BitVec 7 := 0
  inval : Option Inval := none
  leaves : NMap (List Leaf) := []
  nonLeaves : NMap (List NonLeaf) := []
  faults : List PFault := []
  nextFault : BitVec 32 := 1
deriving DecidableEq, Repr, Inhabited

/-! ### Links and time (R231 to R242) -/

/-- A routing-table entry (R234). -/
structure Route where
  ports : BitVec 64 := 0
  valid : Bool := false
  hops : BitVec 3 := 0
deriving DecidableEq, Repr, Inhabited

/-- A packet on its way out: a token, a remote access or its answer, or a packet passed on (R231, R234, R238). -/
inductive Packet
  | token (t : Token)
  | access (dst : BitVec 12) (r : RemoteReq)
  | pass (dst : BitVec 12) (kind : Nat) (hops : Nat) (bytes : List Byte)
deriving DecidableEq, Repr, Inhabited

/-- A packet at a port: what PathPort chose the port by, and the bytes it travels as (R231, R235). -/
structure OutPkt where
  pkt : Packet
  secure : Bool
  src : Nat
  t : Nat
  bytes : List Byte
deriving DecidableEq, Repr, Inhabited

/-- A piece of a remote copy on an Ethernet port (R242): the copy engine that waits for it, the peer, and its bytes; one without
bytes acknowledges. -/
structure Piece where
  engine : Option Nat
  peer : Nat
  /-- The sender's number of it, which its acknowledgement repeats. -/
  num : Nat
  /-- The Ethernet port it leaves by. -/
  port : Nat
  addr : BitVec 64
  bytes : List Byte
deriving DecidableEq, Repr, Inhabited

/-- The state of a port (R232). -/
inductive PortState | up | retraining | down
deriving DecidableEq, Repr, Inhabited

/-- A Decny port (R231 to R233). `out` holds the packets with a byte not yet acknowledged, oldest first, and `skip` counts the
bytes of the first that are. What they leave is cut into flits: `sendSeq` numbers the first, and `sent` of them, at most 2,048,
have gone on the wire. -/
structure Port where
  state : PortState := .up
  sendSeq : BitVec 12 := 0
  recvSeq : BitVec 12 := 0
  /-- The receiver has sent a negative acknowledge and drops flits until the sequence number it expects. -/
  nak : Bool := false
  out : List OutPkt := []
  skip : Nat := 0
  sent : Nat := 0
  resends : NMap Nat := []
  retrains : Nat := 0
  discards : BitVec 32 := 0
  discardAt : Option Nat := none
  body : List Byte := []
deriving DecidableEq, Repr, Inhabited

/-- Links, routes and domain time. -/
structure Links where
  /-- Entry of X-die x and package p at x × 4,096 + p. -/
  routes : NMap Route := []
  ports : NMap Port := []
  held : List Token := []
  /-- Loaders' messages for which no route stands, with the package each is for (R182, R236). -/
  late : List (BitVec 12 × RemoteReq) := []
  inReqs : List RemoteReq := []
  /-- Packages to which no route remains (R236). -/
  lost : List (BitVec 12) := []
  pkgId : BitVec 12 := 0
  pkgValid : Bool := false
  src : Bool := false
  dtime : BitVec 64 := 0
  epoch : Nat := 0
  /-- Cycles by which the count is to be held (R239, R240). -/
  hold : Nat := 0
  lastFlit : Nat := 0
  lastSent : Nat := 0
  /-- When the last time flit was taken: one that comes soon after it has come by a longer way (R239). -/
  timeTaken : Option Nat := none
  /-- Time flits sent: port and time (R239). -/
  timeOut : List (Nat × BitVec 64) := []
  timeLost : Bool := false
  /-- Flits put on the wire, by port, oldest first (R231). -/
  wire : List (Nat × List Byte) := []
  /-- Ethernet: pieces of remote copies not yet acknowledged by the far end, and what the ports have sent (R242). -/
  eth : List Piece := []
  ethOut : List Piece := []
deriving DecidableEq, Repr, Inhabited

/-! ### The host port, ownership and events (R403 to R420) -/

/-- An ingress port (R406). `fifo` holds the tokens written to it that have not left it, oldest first. -/
structure Ingress where
  en : Bool := false
  ctx : BitVec 12 := 0
  vec : BitVec 11 := 0
  drops : BitVec 16 := 0
  fifo : List Token := []
deriving DecidableEq, Repr, Inhabited

/-- An event waiting to be written (R411): words 1 to 7, and the context whose vector it takes, if any (R412). -/
structure Event where
  typ : BitVec 8
  sub : BitVec 8 := 0
  ctx : BitVec 12 := 0
  act : BitVec 16 := 0
  words : List Word := []
  byCtx : Bool := false
  /-- The context's EVEC as the event was made, where the event takes that (R412). -/
  vec : BitVec 11 := 0
deriving DecidableEq, Repr, Inhabited

/-- What leaves through the host port, oldest first (R402 to R416). -/
inductive HostOut
  | write (addr : Nat) (bytes : List Byte) (id : Option Nat)
  | read (addr : Nat) (len : Nat) (id : Nat)
  | atomic (op : AtomOp) (addr : Nat) (len : Nat) (x c : Word) (id : Nat)
  | msix (vec : BitVec 11)
  | data (bytes : List Byte)
deriving DecidableEq, Repr, Inhabited

/-- A completion record the loader is to write (R409). -/
structure RecordOut where
  addr : Word
  words : List Word
  vec : BitVec 11
deriving DecidableEq, Repr, Inhabited

/-- A CAS loop of the host-link agent (R415). -/
structure CasLoop where
  id : Nat
  word : Nat
  off : Nat
  size : AtSize
  op : AtomOp
  x : Word
  c : Word
  old : Word
  started : Bool
deriving DecidableEq, Repr, Inhabited

/-- The host port, the owner registers and the event ring. -/
structure HostIf where
  owner : BitVec 2 := 0
  /-- When the owner claimed, until the next owner is named: claims of that cycle are ranked (R418). -/
  claimedAt : Option Nat := none
  peerPkg : BitVec 12 := 0xFFF
  nownWr : BitVec 32 := 0
  handover : Option (BitVec 2 × BitVec 12) := none
  ingress : NMap Ingress := []
  /-- The size of BAR2, from 1 GiB to 1 TiB, as the Resizable BAR capability sets it (R403). -/
  bar2 : Nat := 2 ^ 40
  evBase : Word := 0
  evLocal : Bool := false
  evLog2n : BitVec 5 := 6
  evEn : Bool := false
  evVec : BitVec 11 := 0
  evHead : BitVec 32 := 0
  evTail : BitVec 32 := 0
  evLost : BitVec 32 := 0
  evQueue : List Event := []
  /-- Events of TYPE 1 and 3 that wait at their sources for room in the queue (R412). -/
  evWait : List Event := []
  atomCap : BitVec 6 := 0
  sig0 : Sig := 0
  sig1 : Sig := 0
  sig2 : Sig := 0
  sig3 : Sig := 0
  /-- MSI-X table words (address and data) and vector control, by byte offset / 8 in BAR0 region 0, and pending bits. -/
  msixTable : NMap Word := []
  msixPend : BitVec 2048 := 0
  out : List HostOut := []
  records : List RecordOut := []
  cas : List CasLoop := []
deriving DecidableEq, Repr, Inhabited

/-- What an answer from another package or the host is for, by request number (R238, R414). -/
inductive Pending
  | load (who : ReplyTo) (off len : Nat)
  | claim (u : UEnt) (hdr : List Place)
  | ack (core : Nat) (line : Option Nat)
  /-- An update: it is outstanding until it is accepted, and goes into the signature once it is performed (R216, R225). -/
  | upd (core line : Nat) (accepted : Bool)
  | remoteAtom (pkg : BitVec 12) (id : Nat)
  | engine (e : Nat) (job : Nat)
  /-- A read of an agent: its answer goes to `Engines.reads`. -/
  | read
deriving DecidableEq, Repr, Inhabited

/-- A request in flight, with the package it waits on (none for the host). -/
structure Request where
  id : Nat
  pkg : Option (BitVec 12)
  ctx : BitVec 12
  what : Pending
  /-- A release that may have to be sent again (R221). -/
  again : Option RemoteReq := none
  /-- The line of an atomic, whose key its answer inserts (R216). -/
  line : Option Nat := none
  /-- Of what a lane's effect has sent: the record of the trap that a refusal by the home raises, and whether its block has TRAPBLK (R423). -/
  refusal : Option (TrapRec × Bool) := none
deriving DecidableEq, Repr, Inhabited

/-! ### Security, management and debugging (R421 to R437) -/

/-- A region of the region table (R421). -/
structure Region where
  en : Bool := false
  world : Bool := false
  base : BitVec 40 := 0
  key : BitVec 8 := 0
  limit : BitVec 40 := 0
deriving DecidableEq, Repr, Inhabited

/-- A key slot (R424, R425): its world, its key, and how often it has been loaded. -/
structure KeySlot where
  world : Bool := false
  key : BitVec 512 := 0
  gen : Nat := 0
deriving DecidableEq, Repr, Inhabited

structure Sec where
  bootState : BitVec 2 := 0
  bootFail : BitVec 8 := 0
  boots : Nat := 0
  lock : Bool := false
  denied : BitVec 32 := 0
  coreWorld : BitVec 256 := 0
  engWorld : BitVec 32 := 0
  strmWorld : BitVec 128 := 0
  portWorld : BitVec 64 := 0
  ethWorld : BitVec 4 := 0
  hostWorld : Bool := false
  regions : NMap Region := []
  keyData : BitVec 512 := 0
  keys : NMap KeySlot := []
  nonce : BitVec 256 := 0
  attBusy : Bool := false
  attSnap : List Nat := []
  report : List Byte := []
  staging : List Host.Cell := []
  measure : BitVec 384 := 0
  /-- What firmware has raised the fused counter to, if above its fuses (R427). -/
  svnUp : BitVec 32 := 0
  /-- The alias pair of the boot, by which its reports are signed (R428). -/
  alias_ : List Byte := []
deriving DecidableEq, Repr, Inhabited

/-- An error counter (R435): `told` once event 20 has been written. -/
structure EccCounter where
  count : BitVec 32 := 0
  thresh : BitVec 32 := 0
  told : Bool := false
deriving DecidableEq, Repr, Inhabited

structure Mgmt where
  pwrLimit : BitVec 12 := 2800
  pwrNow : BitVec 12 := 0
  capped : Bool := false
  dieMax : BitVec 8 := 0
  hbmMax : BitVec 8 := 0
  /-- The last temperature read of each HBM stack. -/
  hbmTemp : NMap (BitVec 8) := []
  warn : BitVec 8 := 95
  hbmThr : BitVec 16 := 0
  /-- Stacks whose bandwidth is quartered (R432). -/
  hbmQuarter : BitVec 16 := 0
  memAddr : Word := 0
  ecc : NMap EccCounter := []
  /-- The answer the next private I3C read takes, or none (R434). -/
  i3cRead : Option Word := none
  i3cOut : List Word := []
deriving DecidableEq, Repr, Inhabited

structure Dbg where
  mode : BitVec 2 := 0
  ctx : BitVec 12 := 0
  recBase : Word := 0
  recSize : BitVec 32 := 0
  recHead : Word := 0
  /-- MODE or CTX has changed, and has not taken effect since. -/
  fresh : Bool := false
  /-- The contexts recorded (1) or replayed (2) at present. -/
  active : List (BitVec 12 × BitVec 2) := []
  /-- The tokens whose entries this package has logged, by words 2 and 3 of the entry (R437). -/
  tokens : List ((Word × Word) × Token) := []
  /-- The batches whose entries this package has logged, likewise. -/
  batches : List ((Word × Word) × List Nat) := []
  /-- When each core's next logged chord became its next entry (R437). -/
  nextAt : NMap Nat := []
  /-- Replay: the entries before this offset are all consumed, and of those after it the ones at `taken`. -/
  pos : Nat := 0
  taken : List Nat := []
deriving DecidableEq, Repr, Inhabited

/-- CTX_ registers (R326). -/
structure CtxRegs where
  tabBase : Word := 0
  busy : Bool := false
  err : BitVec 7 := 0
  /-- The context whose PREEMPT or STOP is running. -/
  cmd : Option (BitVec 12) := none
deriving DecidableEq, Repr, Inhabited

/-! ### The model's own fields -/

/-- What the machine does next: let time pass, issue a chord's next instruction, or let an agent take one step. -/
inductive Move
  | tick (n : Nat)
  | issue (core : Nat) (slot : Nat)
  | event (i : Instr)
deriving DecidableEq, Repr, Inhabited

structure Flow where
  agenda : List Move := []
  cycle : Nat := 0
  focusCore : Nat := 0
  focusSlot : Nat := 0
  freeCtr : Nat := 0
  nextId : Nat := 0
deriving DecidableEq, Repr, Inhabited

end Sys2Proof.Machine
end

