-- ==== Sys2Proof/Machine/State.lean ====
section
/-! DEFINITION. The machine's state, one package of the module, as plain data, the ways a step can stop, and reset. -/

namespace Sys2Proof.Machine

/-- Why the machine stops. -/
inductive Fault
  /-- Raised by step alone, when the words at a running chord's next index decode to no instruction. A chord runs only
  words that block validation accepted (R29), so no grant leads here. Safe. -/
  | undecodable (reason : Nat)
deriving DecidableEq, Repr, Inhabited

/-- Why an instruction has no meaning here. -/
inductive Refusal
  /-- Raised by exec for an instruction the model does not give a meaning to. Safe. -/
  | notModelled (mnemonic : String)
deriving DecidableEq, Repr, Inhabited

/-- One package of the module. -/
structure State where
  /-- The model's own fields (assumption log 1 to 3). -/
  flow : Flow := {}
  /-- Security, boot and attestation (R421 to R428). -/
  sec : Sec := {}
  /-- The host port, ownership and the event ring (R403 to R420). -/
  host : HostIf := {}
  /-- CTX_ registers (R326). -/
  ctxRegs : CtxRegs := {}
  /-- Contexts by number (R184, R325 to R341, R378). -/
  ctxs : NMap Ctx := []
  /-- Activations by context × 65,536 + number (R184). -/
  acts : NMap Act := []
  /-- The graph loader (R329). -/
  loader : Loader := {}
  /-- Translation (R388 to R399). -/
  xlt : Xlt := {}
  /-- Cores 0 to 255. -/
  cores : NMap Core := []
  /-- Package memory and its homes. -/
  homes : Homes := {}
  /-- Copy engines, comparators and selections. -/
  eng : Engines := {}
  /-- Links, routes and domain time. -/
  links : Links := {}
  /-- Requests in flight to other packages and to the host. -/
  reqs : List Request := []
  /-- Tokens on the package's network, addressed to its cores (R136, R189). -/
  net : List Token := []
  /-- Power, temperatures, error counters and I3C (R429 to R435). -/
  mgmt : Mgmt := {}
  /-- Record and replay (R436, R437). -/
  dbg : Dbg := {}
deriving DecidableEq, Repr, Inhabited

/-- The machine right after reset (R426): awaiting its image, every register at its reset value, and every register
without one at the value the assumption log names. The defaults of the structures in Types.lean are those values. -/
def State.reset : State := {}

end Sys2Proof.Machine
end

