-- ==== Sys2Proof/Machine/Maps.lean ====
section
/-! DEFINITION. Tables by number and byte memories: the lists the state is held in, their reads and their writes. -/

namespace Sys2Proof.Machine

/-- The entry of a table at a key. -/
def nget {α : Type} : NMap α → Nat → Option α
  | [], _ => none
  | (k', v) :: r, k => if k' = k then some v else nget r k

/-- Puts an entry at its key, before the first higher key. -/
def nput {α : Type} : NMap α → Nat → α → NMap α
  | [], k, v => [(k, v)]
  | (k', v') :: r, k, v =>
    if k < k' then (k, v) :: (k', v') :: r
    else if k' = k then (k, v) :: r
    else (k', v') :: nput r k v

/-- Removes every entry at a key. -/
def ndel {α : Type} (m : NMap α) (k : Nat) : NMap α := m.filter fun p => p.1 != k

/-- The keys of a table. -/
def nkeys {α : Type} (m : NMap α) : List Nat := m.map (·.1)

/-- What a byte of a memory reads as; an unlisted byte reads 0x00 (assumption log 9). -/
def mget : List Host.Cell → Nat → Byte
  | [], _ => 0
  | (a', v) :: r, a => if a' = a then v else mget r a

/-- Writes one byte, keeping addresses rising and listing no zero byte. -/
def mput : List Host.Cell → Nat → Byte → List Host.Cell
  | [], a, v => if v = 0 then [] else [(a, v)]
  | (a', v') :: r, a, v =>
    if a < a' then (if v = 0 then (a', v') :: r else (a, v) :: (a', v') :: r)
    else if a' = a then (if v = 0 then r else (a, v) :: r)
    else (a', v') :: mput r a v

/-- Bytes at rising addresses. -/
def mgets (m : List Host.Cell) (a n : Nat) : List Byte := (List.range n).map fun i => mget m (a + i)

/-- Writes bytes at rising addresses. -/
def mputs : List Host.Cell → Nat → List Byte → List Host.Cell
  | m, _, [] => m
  | m, a, b :: bs => mputs (mput m a b) (a + 1) bs

/-- Drops the bytes from `lo` up to but not including `hi`, so that they read 0x00. -/
def mclear (m : List Host.Cell) (lo hi : Nat) : List Host.Cell := m.filter fun c => c.1 < lo || hi ≤ c.1

/-- The canonical form of a byte memory: rising addresses above a bound, no zero byte listed. -/
def memOk : Option Nat → List Host.Cell → Bool
  | _, [] => true
  | lo, (a, v) :: r => (match lo with | none => true | some l => l < a) && v != 0 && memOk (some a) r

/-- A number from its bytes, lowest first. -/
def natOfBytes : List Byte → Nat
  | [] => 0
  | b :: bs => b.toNat + 256 * natOfBytes bs

/-- The `n` low bytes of a number, lowest first. -/
def bytesOfNat : Nat → Nat → List Byte
  | 0, _ => []
  | n + 1, x => BitVec.ofNat 8 x :: bytesOfNat n (x / 256)

/-- Replaces the element of a list at an index. -/
def lset {α : Type} : List α → Nat → α → List α
  | [], _, _ => []
  | _ :: r, 0, v => v :: r
  | x :: r, n + 1, v => x :: lset r n v

/-- Removes the element of a list at an index. -/
def ldrop {α : Type} (l : List α) (n : Nat) : List α := l.take n ++ l.drop (n + 1)

/-- Inserts by a key, after equal keys. -/
def insertBy {α : Type} (key : α → Nat) (x : α) : List α → List α
  | [] => [x]
  | y :: r => if key x < key y then x :: y :: r else y :: insertBy key x r

/-- Sorts by a key, keeping the order of equal keys. -/
def sortBy {α : Type} (key : α → Nat) (l : List α) : List α := l.foldl (fun acc x => insertBy key x acc) []

end Sys2Proof.Machine
end

