-- ==== Sys2Proof/Machine/Numeric.lean ====
section
/-! DEFINITION. Number formats and exact arithmetic (R72 to R94): values as sign, magnitude and power of two, decoding,
RoundXF, RoundInt, block scales, and the defined sums. Nothing here rounds but where the manual says RoundXF. -/

namespace Sys2Proof.Machine

/-- An exact value: (−1)^neg · m · 2^e, an infinity, or NaN. A zero keeps its sign. -/
inductive FVal
  | nan
  | inf (neg : Bool)
  | fin (neg : Bool) (m : Nat) (e : Int)
deriving DecidableEq, Repr, Inhabited

/-- The floating-point storage formats of R72. -/
inductive SFmt | fp64 | fp32 | fp16 | bf16 | e4m3 | e5m2 | tf8 | e2m1
deriving DecidableEq, Repr, Inhabited

namespace SFmt

/-- Width in bits (R72). -/
def width : SFmt → Nat
  | fp64 => 64 | fp32 => 32 | fp16 => 16 | bf16 => 16 | e4m3 => 8 | e5m2 => 8 | tf8 => 8 | e2m1 => 4

/-- Significand bits with the hidden bit. -/
def prec : SFmt → Nat
  | fp64 => 53 | fp32 => 24 | fp16 => 11 | bf16 => 8 | e4m3 => 4 | e5m2 => 3 | tf8 => 5 | e2m1 => 2

/-- The exponent of the smallest nonzero value. -/
def qmin : SFmt → Int
  | fp64 => -1074 | fp32 => -149 | fp16 => -24 | bf16 => -133 | e4m3 => -9 | e5m2 => -16 | tf8 => -12 | e2m1 => -1

/-- M_f as a pair of magnitude and exponent (R72). -/
def maxM : SFmt → Nat
  | tf8 => 1 | e4m3 => 14 | f => 2 ^ f.prec - 1
def maxE : SFmt → Int
  | fp64 => 971 | fp32 => 104 | fp16 => 5 | bf16 => 120 | e4m3 => 5 | e5m2 => 13 | tf8 => 12 | e2m1 => 1

/-- T_f (R85, R86). -/
def thrM : SFmt → Nat
  | tf8 => 11 | f => 2 * f.maxM + 1
def thrE : SFmt → Int
  | tf8 => 9 | f => f.maxE - 1

def hasInf : SFmt → Bool
  | e4m3 => false | tf8 => false | e2m1 => false | _ => true

/-- The canonical NaN (R74). E2M1 has none. -/
def canonNaN : SFmt → Nat
  | fp64 => 0x7FF8000000000000 | fp32 => 0x7FC00000 | fp16 => 0x7E00 | bf16 => 0x7FC0 | e4m3 => 0x7F | e5m2 => 0x7E
  | tf8 => 0x80 | e2m1 => 0

/-- The code of M_f without its sign. -/
def maxCode : SFmt → Nat
  | tf8 => 0x7F | e4m3 => 0x7E | e2m1 => 7
  | f => 2 ^ (f.width - 1) - 2 ^ (f.prec - 1) - 1

/-- The code of an infinity without its sign. -/
def infCode (f : SFmt) : Nat := 2 ^ (f.width - 1) - 2 ^ (f.prec - 1)

end SFmt

/-- The length of the run of bits equal to bit `i` that starts at bit `i` of a TF8 magnitude (R75). -/
def tf8Run (m : Nat) (bit : Bool) : Nat → Nat
  | 0 => 0
  | i + 1 => if m.testBit i == bit then 1 + tf8Run m bit i else 0

/-- A TF8 magnitude's value in units of 2^−12 (R75). -/
def tf8Units (m : Nat) : Nat :=
  if m = 0 then 0
  else
    let one := m.testBit 6
    let n := tf8Run m one 7
    let k : Int := if one then (n : Int) - 1 else - (n : Int)
    let left := 6 - n            -- bits after the marker
    let e := if left = 0 ∨ n ≥ 6 then 0 else if m.testBit (left - 1) then 1 else 0
    let w := if n ≥ 6 then 0 else left - 1
    let f := m % 2 ^ w
    ((2 ^ w + f) * 2 ^ (2 * k + e + 12).toNat) / 2 ^ w

/-- DecodeFmt (R83) of the low bits of a code. -/
def decodeFmt (f : SFmt) (code : Nat) : FVal :=
  let neg := code.testBit (f.width - 1)
  let mag := code % 2 ^ (f.width - 1)
  match f with
  | .tf8 => if mag = 0 then (if neg then .nan else .fin false 0 0) else .fin neg (tf8Units mag) (-12)
  | f =>
    let fld := mag / 2 ^ (f.prec - 1)
    let frac := mag % 2 ^ (f.prec - 1)
    if f.hasInf && mag == f.infCode then .inf neg
    else if (f.hasInf && f.infCode < mag) || (f == .e4m3 && mag == 0x7F) then .nan
    else if fld = 0 then .fin neg frac f.qmin
    else .fin neg (2 ^ (f.prec - 1) + frac) (f.qmin + fld - 1)

/-- Compares m1·2^e1 with m2·2^e2. -/
def cmpMag (m1 : Nat) (e1 : Int) (m2 : Nat) (e2 : Int) : Ordering :=
  let e := min e1 e2
  compare (m1 * 2 ^ (e1 - e).toNat) (m2 * 2 ^ (e2 - e).toNat)

/-- Whether rounding moves away from zero, given the remainder against one half, whether anything lies below it, and
whether the lower neighbour is odd (R85). -/
def roundsUp (mode : Rnd) (neg odd : Bool) (half : Ordering) (inexact : Bool) : Bool :=
  match mode with
  | .rz => false
  | .ru => inexact && !neg
  | .rd => inexact && neg
  | .rne => half == .gt || (half == .eq && odd)

/-- Overflow (R85). -/
def overflowCode (f : SFmt) (neg sat : Bool) : Nat :=
  let sgn := if neg then 2 ^ (f.width - 1) else 0
  if sat || f == .e2m1 then sgn + f.maxCode
  else if f.hasInf then sgn + f.infCode
  else f.canonNaN

/-- The code of a finite magnitude no greater than M_f in a format with an exponent field; `sticky` says that the
magnitude lies strictly above m·2^e and below (m+1)·2^e. -/
def roundMag (f : SFmt) (mode : Rnd) (neg : Bool) (m : Nat) (e : Int) (sticky : Bool) : Nat :=
  if m = 0 then 0
  else
    let q := max f.qmin ((Nat.log2 m : Int) + e - (f.prec - 1))
    let k := (q - e).toNat
    let lo := if e ≤ q then m / 2 ^ k else m * 2 ^ (e - q).toNat
    let rem := if e ≤ q then m % 2 ^ k else 0
    let half := match compare (2 * rem) (2 ^ k) with
      | .eq => if sticky then .gt else (if k = 0 then .lt else .eq)
      | o => o
    let n := lo + (if roundsUp mode neg (lo % 2 == 1) half (rem != 0 || sticky) then 1 else 0)
    n + (q - f.qmin).toNat * 2 ^ (f.prec - 1)

/-- The code of a TF8 magnitude (R76, R85): `lo` counts the codes at or below it. -/
def roundTf8 (mode : Rnd) (neg : Bool) (m : Nat) (e : Int) (sticky : Bool) : Nat :=
  if m = 0 then 0
  else
    let lo := ((List.range 128).filter fun c => c != 0 && cmpMag (tf8Units c) (-12) m e != .gt).length
    let exact := !sticky && cmpMag (tf8Units lo) (-12) m e == .eq
    let half := match cmpMag m (e + 1) (tf8Units lo + tf8Units (lo + 1)) (-12) with
      | .eq => if sticky then .gt else .eq
      | o => o
    if exact then lo else lo + (if roundsUp mode neg (lo % 2 == 1) half true then 1 else 0)

/-- RoundXF (R85) with a sticky part. -/
def roundXFs (v : FVal) (f : SFmt) (mode : Rnd) (sat sticky : Bool) : Nat :=
  match v with
  | .nan => f.canonNaN
  | .inf neg => overflowCode f neg sat
  | .fin neg m e =>
    let sgn := if neg then 2 ^ (f.width - 1) else 0
    let above := match cmpMag m e f.maxM f.maxE with
      | .gt => true
      | .eq => sticky
      | .lt => false
    if above then
      if mode == .rz || (mode == .rd && !neg) || (mode == .ru && neg)
          || (mode == .rne && cmpMag m e f.thrM f.thrE == .lt) then sgn + f.maxCode
      else overflowCode f neg sat
    else match f with
      | .tf8 => let c := roundTf8 mode neg m e sticky
                if c = 0 then 0 else sgn + c
      | f => sgn + roundMag f mode neg m e sticky

/-- RoundXF (R85): the code of an exact value in a format. -/
def roundXF (v : FVal) (f : SFmt) (mode : Rnd := .rne) (sat : Bool := false) : Nat := roundXFs v f mode sat false

/-- RoundInt (R87) of m·2^e with its sign. -/
def roundInt (neg : Bool) (m : Nat) (e : Int) (mode : Rnd) : Int :=
  let mag : Nat :=
    if 0 ≤ e then m * 2 ^ e.toNat
    else
      let k := (-e).toNat
      if Nat.log2 m + 2 < k then (if roundsUp mode neg false .lt (m != 0) then 1 else 0)
      else
        let lo := m / 2 ^ k
        let rem := m % 2 ^ k
        lo + (if roundsUp mode neg (lo % 2 == 1) (compare (2 * rem) (2 ^ k)) (rem != 0) then 1 else 0)
  if neg then - (mag : Int) else mag

/-- Wrap, SatS and SatU (R88). -/
def wrapN (x : Int) (n : Nat) : Nat := (x % (2 ^ n : Int)).toNat
def satS (x : Int) (n : Nat) : Int := max (-(2 ^ (n - 1) : Int)) (min x (2 ^ (n - 1) - 1))
def satU (x : Int) (n : Nat) : Int := max 0 (min x (2 ^ n - 1))

namespace FVal

def isNaN : FVal → Bool
  | nan => true
  | _ => false

def isZero : FVal → Bool
  | fin _ 0 _ => true
  | _ => false

def isInf : FVal → Bool
  | inf _ => true
  | _ => false

def neg? : FVal → Bool
  | nan => false
  | inf n => n
  | fin n _ _ => n

/-- The value of an integer; zero is +0. -/
def ofInt (x : Int) : FVal := fin (x < 0) x.natAbs 0

/-- The sign flipped (R117: that of a zero too). -/
def negate : FVal → FVal
  | nan => nan
  | inf n => inf !n
  | fin n m e => fin (!n) m e

def abs : FVal → FVal
  | nan => nan
  | inf _ => inf false
  | fin _ m e => fin false m e

/-- A finite value as an integer multiple of 2^e0, for e0 no greater than its exponent. -/
def units (e0 : Int) : FVal → Int
  | fin n m e => let x : Int := m * 2 ^ (e - e0).toNat
                 if n then -x else x
  | _ => 0

def exp : FVal → Int
  | fin _ _ e => e
  | _ => 0

/-- The exact sum (R117): `mode` decides the sign of a zero that the terms cancel to. -/
def add (mode : Rnd) : FVal → FVal → FVal
  | nan, _ => nan
  | _, nan => nan
  | inf a, inf b => if a = b then inf a else nan
  | inf a, _ => inf a
  | _, inf b => inf b
  | fin n1 m1 e1, fin n2 m2 e2 =>
    let e0 := min e1 e2
    let s := units e0 (fin n1 m1 e1) + units e0 (fin n2 m2 e2)
    if s = 0 then (if m1 = 0 ∧ m2 = 0 ∧ n1 = n2 then fin n1 0 0 else fin (mode == .rd) 0 0)
    else fin (s < 0) s.natAbs e0

/-- The exact product (R117). -/
def mul : FVal → FVal → FVal
  | nan, _ => nan
  | _, nan => nan
  | inf a, inf b => inf (a != b)
  | inf a, fin n m _ => if m = 0 then nan else inf (a != n)
  | fin n m _, inf b => if m = 0 then nan else inf (n != b)
  | fin n1 m1 e1, fin n2 m2 e2 => fin (n1 != n2) (m1 * m2) (e1 + e2)

/-- Compares two values that are not NaN; −0 equals +0. -/
def cmp : FVal → FVal → Ordering
  | inf true, inf true => .eq
  | inf false, inf false => .eq
  | inf n, _ => if n then .lt else .gt
  | _, inf n => if n then .gt else .lt
  | a, b => let e0 := min a.exp b.exp
            compare (a.units e0) (b.units e0)

/-- Times 2^s. -/
def scale (s : Int) : FVal → FVal
  | fin n m e => fin n m (e + s)
  | v => v

end FVal

/-- The quotient of two finite values, the divisor not zero, with its sticky part (R118). -/
def divFin (n1 : Bool) (m1 : Nat) (e1 : Int) (n2 : Bool) (m2 : Nat) (e2 : Int) : FVal × Bool :=
  let k := 200 + Nat.log2 m2
  let x := m1 * 2 ^ k
  (.fin (n1 != n2) (x / m2) (e1 - e2 - k), x % m2 != 0)

/-- FDIV's exact value with its sticky part (R118). -/
def divVal : FVal → FVal → FVal × Bool
  | .nan, _ => (.nan, false)
  | _, .nan => (.nan, false)
  | .inf _, .inf _ => (.nan, false)
  | .inf a, .fin n _ _ => (.inf (a != n), false)
  | .fin n _ _, .inf b => (.fin (n != b) 0 0, false)
  | .fin n1 m1 e1, .fin n2 m2 e2 =>
    if m2 = 0 then (if m1 = 0 then (.nan, false) else (.inf (n1 != n2), false))
    else divFin n1 m1 e1 n2 m2 e2

/-- The integer square root, one bit of the root at a time from bit `i − 1` down. -/
def isqrtAux (x : Nat) : Nat → Nat → Nat
  | 0, r => r
  | i + 1, r => let r' := r + 2 ^ i
                isqrtAux x i (if r' * r' ≤ x then r' else r)

def isqrt (x : Nat) : Nat := isqrtAux x (Nat.log2 x / 2 + 1) 0

/-- FSQRT's exact value with its sticky part (R118). -/
def sqrtVal : FVal → FVal × Bool
  | .nan => (.nan, false)
  | .inf n => if n then (.nan, false) else (.inf false, false)
  | .fin n m e =>
    if m = 0 then (.fin n 0 0, false)
    else if n then (.nan, false)
    else
      let m' := if e % 2 = 0 then m else 2 * m
      let e' := if e % 2 = 0 then e else e - 1
      let x := m' * 2 ^ 400
      let r := isqrt x
      (.fin false r (e' / 2 - 200), r * r != x)

/-! ### Storage formats by FMT code (R262) and block scales (R79 to R83) -/

/-- The floating-point format of an FMT code; none for integer and scale codes. -/
def fmtOf : Nat → Option SFmt
  | 0 => some .fp64 | 1 => some .fp32 | 2 => some .fp16 | 3 => some .bf16 | 4 => some .e4m3 | 5 => some .e5m2
  | 6 => some .tf8 | 7 => some .e2m1 | _ => none

/-- Bits of an element of an FMT code; a scale code takes 8. -/
def fmtWidth : Nat → Nat
  | 0 => 64 | 1 => 32 | 2 => 16 | 3 => 16 | 4 => 8 | 5 => 8 | 6 => 8 | 7 => 4 | 8 => 8 | 9 => 4 | 10 => 32 | _ => 8

/-- An n-bit pattern read as a signed integer. -/
def signed (n x : Nat) : Int := if x.testBit (n - 1) then (x % 2 ^ n : Nat) - (2 ^ n : Int) else (x % 2 ^ n : Nat)

/-- The exact value of an element code of any FMT. -/
def decodeElem (fmt code : Nat) : FVal :=
  match fmtOf fmt with
  | some f => decodeFmt f code
  | none => .ofInt (signed (fmtWidth fmt) code)

/-- WidenScaled (R83): `e` is the scale code, or none. -/
def widenScaled (fmt code : Nat) (e : Option Nat) : FVal :=
  match e with
  | none => decodeElem fmt code
  | some e => if e = 0xFF then .nan else (decodeElem fmt code).scale ((e : Int) - 127)

/-- An exact value written as an element of an FMT: RoundXF, or for an integer format SatS of RoundInt with NaN as 0 and
an infinity as R130 gives (R280, R301). An integer format wraps without `sat` only through SatS all the same. -/
def encodeElem (fmt : Nat) (v : FVal) (mode : Rnd) (sat : Bool) : Nat :=
  match fmtOf fmt with
  | some f => roundXF v f mode sat
  | none =>
    let n := fmtWidth fmt
    let r : Int := match v with
      | .nan => 0
      | .inf neg => if neg then -(2 ^ (n - 1)) else 2 ^ (n - 1) - 1
      | .fin neg m e => roundInt neg m e mode
    wrapN (satS r n) n

/-- floor(log2 |v|) of a nonzero finite value. -/
def FVal.ilog : FVal → Int
  | .fin _ m e => (Nat.log2 m : Int) + e
  | _ => 0

/-- The anchor A_f (R81). -/
def anchor : SFmt → Int
  | .e4m3 => 8 | .e5m2 => 15 | .e2m1 => 2 | _ => 0

/-- ChooseScale (R81): the scale code and the 16 element codes. `none` marks an element that is not written. -/
def chooseScale (f : SFmt) (mode : Rnd) (x : List (Option FVal)) : Nat × List Nat :=
  let xs := x.filterMap id
  if xs.any fun v => v.isNaN || v.isInf then (0xFF, x.map fun _ => 0)
  else
    let amax := xs.foldl (fun acc v => if FVal.cmp acc.abs v.abs == .lt then v.abs else acc) (.fin false 0 0)
    let e : Nat := if amax.isZero then 127 else (min 254 (max 0 (amax.ilog - anchor f + 127))).toNat
    (e, x.map fun o => match o with
      | none => 0
      | some v => roundXF (v.scale (127 - (e : Int))) f mode true)

/-! ### Defined sums (R89 to R94) -/

/-- The exact sum of finite values, as an integer multiple of 2^e0. -/
def sumUnits (e0 : Int) (l : List FVal) : Int := l.foldl (fun acc v => acc + v.units e0) 0

/-- The least exponent of a list of values. -/
def minExp (l : List FVal) : Int := l.foldl (fun acc v => min acc v.exp) 0

/-- MatrixGroupAdd (R90): the accumulator's code after one group of products. -/
def matrixGroupAdd (f : SFmt) (mode : Rnd) (acc : Nat) (p : List FVal) : Nat :=
  let a := decodeFmt f acc
  let all := a :: p
  if all.any (·.isNaN) then f.canonNaN
  else if all.any (· == .inf false) && all.any (· == .inf true) then f.canonNaN
  else if all.any (· == .inf false) then f.infCode
  else if all.any (· == .inf true) then 2 ^ (f.width - 1) + f.infCode
  else
    let e0 := minExp all
    let s := sumUnits e0 all
    if s ≠ 0 then roundXF (.fin (s < 0) s.natAbs e0) f mode
    else if a.isZero && p.all (·.isZero) then acc
    else if mode == .rd then 2 ^ (f.width - 1) else 0

/-- FADD of two codes (R117). -/
def faddCode (f : SFmt) (mode : Rnd) (x y : Nat) : Nat := roundXF (FVal.add mode (decodeFmt f x) (decodeFmt f y)) f mode

/-- SumSeq (R94): a rounding after every addition. -/
def sumSeq (f : SFmt) (mode : Rnd) : List FVal → Nat
  | [] => 0
  | v :: vs => vs.foldl (fun acc x => roundXF (FVal.add mode (decodeFmt f acc) x) f mode) (roundXF v f mode)

/-! ### The exact sum of an FP32 port (R93, R187)

Frame bytes 88 to 127 hold a 317-bit two's-complement sum with unit 2^−149, then one flag each for NaN, +∞ and −∞. -/

/-- The sum's bits: 316:0 the sum, 317 NaN, 318 +∞, 319 −∞. -/
def fsumAdd (acc : BitVec 320) (x : Nat) : BitVec 320 :=
  match decodeFmt .fp32 x with
  | .nan => acc ||| (1#320 <<< 317)
  | .inf neg => acc ||| (1#320 <<< (if neg then 319 else 318))
  | .fin neg m e =>
    let u : Nat := wrapN ((FVal.fin neg m e).units (-149)) 317
    let sum : BitVec 317 := acc.extractLsb' 0 317 + BitVec.ofNat 317 u
    acc.extractLsb' 317 3 ++ sum

/-- FSumExact (R93): `negZero` says that every payload was −0. -/
def fsumExact (acc : BitVec 320) (negZero : Bool) : Nat :=
  if acc.getLsbD 317 || (acc.getLsbD 318 && acc.getLsbD 319) then 0x7FC00000
  else if acc.getLsbD 318 then 0x7F800000
  else if acc.getLsbD 319 then 0xFF800000
  else
    let s := (acc.extractLsb' 0 317).toInt
    if s = 0 then (if negZero then 0x80000000 else 0)
    else roundXF (.fin (s < 0) s.natAbs (-149)) .fp32 .rne

end Sys2Proof.Machine
end

