-- ==== Sys2Proof/Machine/Approx.lean ====
section
/-! DEFINITION. The approximations FRCP to FTANH (R125, R126). Their exact results are the manual's; every other result
is the free candidate of Config where that lies within the manual's bound, and the correctly rounded value where it
does not. The bound is tested against the exact value (FRCP, FRSQ) or against a fixed-point value whose own error is
below 2^-100 of the bound. -/

namespace Sys2Proof.Machine

/-- π · 2^1400, rounded down. -/
def piFix : Nat :=
  0x3243F6A8885A308D313198A2E03707344A4093822299F31D0082EFA98EC4E6C89452821E638D01377BE5466CF34E90C6CC0AC29B7C97C50DD3F84D5B5B54709179216D5D98979FB1BD1310BA698DFB5AC2FFD72DBD01ADFB7B8E1AFED6A267E96BA7C9045F12C7F9924A19947B3916CF70801F2E2858EFC16636920D871574E69A458FEA3F4933D7E0D95748F728EB658718BCD5882154AEE7B54A41DC25A59B59C30D5392AF26013C5D1B023286085

/-- ln 2 · 2^256, rounded down. -/
def ln2Fix : Nat := 0xB17217F7D1CF79ABC9E3B39803F2F6AF40F343267298B62D8A0D175B8BAAFA2B

/-- Fraction bits of the fixed-point functions. -/
def fx : Nat := 256

/-- exp of a fixed-point number of [0, 7), by its Taylor series: `n` terms are still to come, `t` is the last term. -/
def expFix (r : Nat) : Nat → Nat → Nat → Nat
  | 0, _, _ => 0
  | n + 1, k, t => t + expFix r n (k + 1) (t * r / 2 ^ fx / (k + 1))

/-- sin (k = 1, t = r) or cos (k = 0, t = 1) of a fixed-point number of [0, 7). -/
def trigFix (r : Nat) : Nat → Nat → Int → Int
  | 0, _, _ => 0
  | n + 1, k, t => t + trigFix r n (k + 2) (-(t * r / 2 ^ fx * r / 2 ^ fx / (((k + 1) * (k + 2) : Nat) : Int)))

/-- The first `n` bits after the point of log2 y, for y a fixed-point number of [1, 2). -/
def log2Frac : Nat → Nat → Nat → Nat
  | 0, _, acc => acc
  | n + 1, y, acc =>
    let y2 := y * y / 2 ^ fx
    if 2 ^ (fx + 1) ≤ y2 then log2Frac n (y2 / 2) (2 * acc + 1) else log2Frac n y2 (2 * acc)

/-- m·2^e as a fixed-point number, rounded down. -/
def toFix (m : Nat) (e : Int) : Nat :=
  if 0 ≤ e + fx then m * 2 ^ (e + fx).toNat else m / 2 ^ (-(e + fx)).toNat

/-- 2^x for x = (−1)^neg m 2^e with |x| < 2^11, m not zero, as a value near the exact one and on the same side of 1. -/
def exp2Ref (neg : Bool) (m : Nat) (e : Int) : FVal :=
  let x : Int := if neg then -(max 1 (toFix m e) : Nat) else toFix m e
  let n := x / 2 ^ fx
  let r := (x % 2 ^ fx).toNat
  .fin false (expFix (r * ln2Fix / 2 ^ fx) 80 0 (2 ^ fx)) (n - fx)

/-- log2 of m·2^e, m not zero. -/
def log2Ref (m : Nat) (e : Int) : FVal :=
  let k := Nat.log2 m
  let y := toFix m (-(k : Int))
  let x : Int := ((k : Int) + e) * 2 ^ 160 + log2Frac 160 y 0
  .fin (x < 0) x.natAbs (-160)

/-- sin or cos of m·2^e with its sign. -/
def trigRef (cos neg : Bool) (m : Nat) (e : Int) : FVal :=
  let x := m * 2 ^ (e + 1400).toNat
  let r := (x % (2 * piFix)) / 2 ^ (1400 - fx)
  let v := if cos then trigFix r 60 0 (2 ^ fx) else trigFix r 60 1 r
  let v := if neg && !cos then -v else v
  .fin (v < 0) v.natAbs (-(fx : Int))

/-- tanh of m·2^e with its sign, for 0 < |x| < 64: a value near the exact one and, as that is, nearer to zero than x. -/
def tanhRef (neg : Bool) (m : Nat) (e : Int) : FVal :=
  if (Nat.log2 m : Int) + e < -80 then .fin neg (m * 2 ^ 200 - 1) (e - 200)
  else
    let y := 2 * toFix m e
    let n := y / ln2Fix
    let r := y % ln2Fix
    let ex := expFix r 80 0 (2 ^ fx) * 2 ^ n
    .fin neg ((ex - 2 ^ fx) * 2 ^ fx / (ex + 2 ^ fx)) (-(fx : Int))

/-- The exponent of one ulp of format f at a value (R125). -/
def ulpExp (f : SFmt) (v : FVal) : Int := max f.qmin (v.ilog - (f.prec - 1))

/-- Whether |c − ref| + 2^(b − 100) lies within 2^b. -/
def within (c ref : FVal) (b : Int) : Bool :=
  match c, ref with
  | .fin .., .fin .. =>
    let d := (FVal.add .rne c ref.negate).abs
    let d := FVal.add .rne d (.fin false 1 (b - 100))
    FVal.cmp d (.fin false 1 b) != .gt
  | _, _ => false

/-- Chooses the candidate where it keeps the bound 2^b about `ref`, and the rounded `ref` where it does not. -/
def bounded (f : SFmt) (cand : Nat) (ref : FVal) (sticky : Bool) (b : Int) : Nat :=
  if cand < 2 ^ f.width && within (decodeFmt f cand) ref b then cand
  else roundXFs ref f .rne false sticky

/-- Whether a value's magnitude lies above M_f, or is nonzero and below the smallest nonzero value (R125). -/
def outOfRange (f : SFmt) (ref : FVal) : Option Nat :=
  let sgn := if ref.neg? then 2 ^ (f.width - 1) else 0
  match ref with
  | .fin _ m e =>
    if cmpMag m e f.maxM f.maxE == .gt then some (sgn + f.infCode)
    else if m ≠ 0 ∧ cmpMag m e 1 f.qmin == .lt then some sgn
    else none
  | _ => none

/-- The exponent of a power of two. -/
def pow2? (m : Nat) (e : Int) : Option Int := if m = 2 ^ Nat.log2 m then some ((Nat.log2 m : Int) + e) else none

/-- FRCP (R125). -/
def frcpVal (f : SFmt) (cand : Nat) : FVal → Nat
  | .nan => f.canonNaN
  | .inf n => if n then 2 ^ (f.width - 1) else 0
  | .fin n m e =>
    let sgn := if n then 2 ^ (f.width - 1) else 0
    if m = 0 then sgn + f.infCode
    else
      let (ref, st) := divVal (.ofInt 1) (.fin n m e)
      match outOfRange f ref with
      | some r => r
      | none => if (pow2? m e).isSome then roundXFs ref f .rne false st else bounded f cand ref st (ulpExp f ref)

/-- FRSQ (R125). -/
def frsqVal (f : SFmt) (cand : Nat) : FVal → Nat
  | .nan => f.canonNaN
  | .inf n => if n then f.canonNaN else 0
  | .fin n m e =>
    if m = 0 then (if n then 2 ^ (f.width - 1) else 0) + f.infCode
    else if n then f.canonNaN
    else
      let (ref, st) := sqrtVal (divVal (.ofInt 1) (.fin false m e)).1
      match pow2? m e with
      | some k => if k % 2 = 0 then roundXF (.fin false 1 (-(k / 2))) f else bounded f cand ref st (ulpExp f ref)
      | none => bounded f cand ref st (ulpExp f ref)

/-- FEX2 (R125). -/
def fex2Val (f : SFmt) (cand : Nat) : FVal → Nat
  | .nan => f.canonNaN
  | .inf n => if n then 0 else f.infCode
  | .fin n m e =>
    if m = 0 then roundXF (.ofInt 1) f
    else if 11 ≤ (Nat.log2 m : Int) + e then (if n then 0 else f.infCode)
    else
      let ref := exp2Ref n m e
      match outOfRange f ref with
      | some r => r
      | none =>
        let i := roundInt n m e .rz
        if FVal.cmp (.ofInt i) (.fin n m e) == .eq then roundXF (.fin false 1 i) f
        else bounded f cand ref true (ulpExp f ref + 1)

/-- FLG2 (R125). -/
def flg2Val (f : SFmt) (cand : Nat) : FVal → Nat
  | .nan => f.canonNaN
  | .inf n => if n then f.canonNaN else f.infCode
  | .fin n m e =>
    if m = 0 then 2 ^ (f.width - 1) + f.infCode
    else if n then f.canonNaN
    else match pow2? m e with
      | some j => roundXF (.ofInt j) f
      | none =>
        let ref := log2Ref m e
        let near := cmpMag m e 1 (-1) != .lt && cmpMag m e 1 1 != .gt
        let b := if near then (if f == .fp32 then (-22 : Int) else -50) else ulpExp f ref + 1
        bounded f cand ref true b

/-- FSIN and FCOS (R125): results lie in [−1, 1]. -/
def trigVal (cos : Bool) (f : SFmt) (cand : Nat) : FVal → Nat
  | .nan => f.canonNaN
  | .inf _ => f.canonNaN
  | .fin n m e =>
    if m = 0 then (if cos then roundXF (.ofInt 1) f else roundXF (.fin n 0 0) f)
    else if !cos && (Nat.log2 m : Int) + e < (if f == .fp32 then -12 else -26) then roundXF (.fin n m e) f
    else
      let ref := trigRef cos n m e
      let b : Int := if f == .fp32 then -22 else -51
      let c := bounded f cand ref true b
      if FVal.cmp (decodeFmt f c).abs (.ofInt 1) == .gt then roundXF (.fin ref.neg? 1 0) f else c

/-- FTANH (R125): results lie in [−1, 1]. -/
def ftanhVal (f : SFmt) (cand : Nat) : FVal → Nat
  | .nan => f.canonNaN
  | .inf n => roundXF (.fin n 1 0) f
  | .fin n m e =>
    if m = 0 then roundXF (.fin n 0 0) f
    else if cmpMag m e (if f == .fp32 then 10 else 20) 0 != .lt then roundXF (.fin n 1 0) f
    else
      let ref := tanhRef n m e
      match outOfRange f ref with
      | some r => r
      | none =>
        let c := bounded f cand ref true (ulpExp f ref + 1)
        if FVal.cmp (decodeFmt f c).abs (.ofInt 1) == .gt then roundXF (.fin n 1 0) f else c

end Sys2Proof.Machine
end

