-- ==== Sys2Proof/Machine/Ops.lean ====
section
/-! DEFINITION. The named operations on state: cores, chords, contexts, activations, slices and free values; token
packets and trap records; events; and taking a trap, as one shared operation, with the return from it. -/

namespace Sys2Proof.Machine

/-- What a meaning answers. -/
abbrev Answer := Host.Outcome State Fault Refusal

/-! ### Access to the parts of state -/

namespace State

def core (s : State) (c : Nat) : Core := (nget s.cores c).getD {}
def setCore (s : State) (c : Nat) (k : Core) : State := { s with cores := nput s.cores c k }
def modCore (s : State) (c : Nat) (f : Core → Core) : State := s.setCore c (f (s.core c))

def chord? (s : State) (c slot : Nat) : Option Chord := nget (s.core c).chords slot
def setChord (s : State) (c slot : Nat) (ch : Chord) : State :=
  s.modCore c fun k => { k with chords := nput k.chords slot ch }
def delChord (s : State) (c slot : Nat) : State := s.modCore c fun k => { k with chords := ndel k.chords slot }
def modChord (s : State) (c slot : Nat) (f : Chord → Chord) : State :=
  match s.chord? c slot with
  | some ch => s.setChord c slot (f ch)
  | none => s

def ctx (s : State) (n : BitVec 12) : Ctx := (nget s.ctxs n.toNat).getD {}
def setCtx (s : State) (n : BitVec 12) (x : Ctx) : State := { s with ctxs := nput s.ctxs n.toNat x }
def modCtx (s : State) (n : BitVec 12) (f : Ctx → Ctx) : State := s.setCtx n (f (s.ctx n))

def act? (s : State) (k : Nat) : Option Act := nget s.acts k
def setAct (s : State) (k : Nat) (a : Act) : State := { s with acts := nput s.acts k a }
def modAct (s : State) (k : Nat) (f : Act → Act) : State :=
  match s.act? k with
  | some a => s.setAct k (f a)
  | none => s

def slice (s : State) (n : Nat) : Slice := (nget s.homes.slices n).getD {}
def setSlice (s : State) (n : Nat) (x : Slice) : State :=
  { s with homes := { s.homes with slices := nput s.homes.slices n x } }
def modSlice (s : State) (n : Nat) (f : Slice → Slice) : State := s.setSlice n (f (s.slice n))

def line (s : State) (l : Nat) : LineMeta := (nget s.homes.lines l).getD {}
def setLine (s : State) (l : Nat) (x : LineMeta) : State :=
  { s with homes := { s.homes with lines := nput s.homes.lines l x } }

/-- Whether the boot has completed: before it, the links, the Ethernet ports and most registers do not respond (R426). -/
def booted (s : State) : Bool := s.sec.bootState == 2

def cycle (s : State) : Nat := s.flow.cycle
def epoch (s : State) : Nat := s.links.epoch

/-- The package ID, zero while MGMT_PKGID.VALID is 0 (R241). -/
def pkg (s : State) : BitVec 12 := if s.links.pkgValid then s.links.pkgId else 0

/-- A fresh number for a request in flight. -/
def newId (s : State) : Nat × State := (s.flow.nextId, { s with flow := { s.flow with nextId := s.flow.nextId + 1 } })

/-- Marks an occasion for free values as used (assumption log 3). -/
def bump (s : State) : State := { s with flow := { s.flow with freeCtr := s.flow.freeCtr + 1 } }

/-- A free choice below `n` (assumption log 3, 11). -/
def pick (s : State) (n : Nat) : Nat × State := (Config.pick s.flow.freeCtr % n, s.bump)

end State

/-- The key of an activation in the table of activations. -/
def actKey (ctx : BitVec 12) (act : BitVec 16) : Nat := ctx.toNat * 65536 + act.toNat

def Chord.key (ch : Chord) : Nat := actKey ch.ctx ch.act

/-- The C-die of a global core (R7). -/
def dieOf (c : Nat) : Nat := c / 32

/-- The bank role b of CORE_BANKROLE (R244): 0 FRAME, 1 RING, 2 CACHE, 3 FIFO. -/
def Core.role (k : Core) (b : Nat) : Nat := (k.roles.extractLsb' (2 * b) 2).toNat

/-- The number of banks of a role. -/
def Core.banks (k : Core) (r : Nat) : Nat := ((List.range 24).filter fun b => k.role b == r).length

/-- The number of frames (R247). -/
def Core.frames (k : Core) : Nat := Config.framesPerBank * k.banks 0

/-- The FRAME banks in ascending order (R153). -/
def Core.frameBanks (k : Core) : List Nat := (List.range 24).filter fun b => k.role b == 0

/-- The place of a frame's first byte in the core's SRAM (R153, R186). -/
def Core.frameAddr (k : Core) (j : Nat) : Nat :=
  (k.frameBanks[j / Config.framesPerBank]?).getD 0 * 131072 + j % Config.framesPerBank * 128

/-- The frame handle of frame j of core c, its window 1 address (R153). -/
def frameHandle (c j : Nat) : Word := BitVec.ofNat 64 (2 ^ 60 + c * 2 ^ 40 + j * 128)

/-- Writes bytes of a core's SRAM. -/
def Core.putSram (k : Core) (a : Nat) (bs : List Byte) : Core :=
  { k with sram := mputs k.sram a bs, bad := k.bad.filter fun b => decide (b < a) || decide (a + bs.length ≤ b) }

/-- Zeroes bytes of a core's SRAM. -/
def Core.zeroSram (k : Core) (lo hi : Nat) : Core :=
  { k with sram := mclear k.sram lo hi, bad := k.bad.filter fun b => decide (b < lo) || decide (hi ≤ b) }

/-- Whether a byte of a range of a core's SRAM is uncorrectable (R343). -/
def Core.badIn (k : Core) (a n : Nat) : Bool := k.bad.any fun b => decide (a ≤ b) && decide (b < a + n)

/-- The core and frame a handle names; none for anything but the address of a frame's first byte (R151, R153). -/
def handleFrame (h : Word) : Option (Nat × Nat) :=
  let n := h.toNat
  if n / 2 ^ 60 = 1 ∧ n / 2 ^ 48 % 2 ^ 12 = 0 ∧ n / 2 ^ 22 % 2 ^ 18 = 0 ∧ n % 128 = 0 then
    some (n / 2 ^ 40 % 256, n / 128 % 2 ^ 15)
  else none

def Core.entry? (k : Core) (frame : Nat) : Option Entry := k.entries.find? fun e => e.frame == frame

def Core.modEntry (k : Core) (frame : Nat) (f : Entry → Entry) : Core :=
  { k with entries := k.entries.map fun e => if e.frame = frame then f e else e }

/-- Frees an instance's entry and so its frame (R183, R196). -/
def Core.freeEntry (k : Core) (frame : Nat) : Core := { k with entries := k.entries.filter fun e => e.frame != frame }

/-- Whether a frame belongs to no instance and no allocation. -/
def Core.frameFree (k : Core) (j : Nat) : Bool :=
  (k.entry? j).isNone && !k.kept.contains j && k.allocs.all fun a => j < a.first || a.first + a.count ≤ j

/-- The lowest free frame. -/
def Core.freeFrame (k : Core) : Option Nat := (List.range k.frames).find? k.frameFree

/-- The set of an instance in the matching store (R188). -/
def matchSet (act : BitVec 16) (dblock tag : BitVec 32) : Nat :=
  ((tag.toNat * 0x9E3779B1 + dblock.toNat * 0x85EBCA6B + act.toNat * 0xC2B2AE35) % 2 ^ 32) / 2 ^ 23

def Entry.set (e : Entry) : Nat := matchSet e.act e.dblock e.tag

/-- Whether a core holds an instance, token, bin reference, binding, stream or watch of a context (R330). -/
def Core.holds (k : Core) (n : BitVec 12) : Bool :=
  let mine (key : Nat) : Bool := key / 65536 == n.toNat
  k.entries.any (fun e => e.ctx == n) || k.fifo.any (fun w => w.tok.ctx == n) || k.bins.any (fun b => b.2.ctx == n)
    || k.binQ.any (fun q => q.ctx == n) || k.bfills.any (fun f => f.ctx == n) || k.heldHyp.any (fun t => t.ctx == n)
    || k.chords.any (fun c => c.2.ctx == n) || k.mxe.slots.any (fun b => mine b.2.actKey) || k.mxe.queue.any (fun q => mine q.actKey)
    || k.streams.any (fun x => x.ctx == n) || k.rings.any fun r => mine r.actKey && (r.wFilled.isSome || r.wFree.isSome)

/-- Whether a core keeps any state of a context that R333 saves. -/
def Core.keeps (k : Core) (n : BitVec 12) : Bool :=
  let mine (key : Nat) : Bool := key / 65536 == n.toNat
  k.holds n || k.allocs.any (fun a => a.ctx == n) || k.refused.any (fun r => r.ctx == n) || k.spawn.any (fun p => mine p.1)
    || k.plans.any (fun p => mine p.actKey) || k.rings.any (fun r => mine r.actKey) || k.mxe.accs.any fun a => a.2.owner.any mine

/-- A context that has state on a core, or whose save area has state for it; a core without one is idle (R245). -/
def State.holder (s : State) (c : Nat) : Option (BitVec 12) :=
  let k := s.core c
  let ofKey (n : Nat) : BitVec 12 := BitVec.ofNat 12 (n / 65536)
  (k.entries.head?.map Entry.ctx).or ((k.fifo.head?.map fun w => w.tok.ctx).or ((k.bins.head?.map fun p => p.2.ctx).or
    ((k.binQ.head?.map QRef.ctx).or ((k.rings.head?.map fun r => ofKey r.actKey).or
      ((k.mxe.slots.head?.map fun p => ofKey p.2.actKey).or ((k.mxe.queue.head?.map fun q => ofKey q.actKey).or
        ((k.allocs.head?.map Alloc.ctx).or
          ((s.ctxs.find? fun p => p.2.saved.any fun x => x.core == c).map fun p => BitVec.ofNat 12 p.1))))))))

/-- An accumulator of a core made idle: its FMT is FP32 (R283). The rest stays, elements too; those of an FP64 tile that an activation
still owns are open as FP32 elements (assumption log 47). -/
def Acc.atIdle (a : Acc) (occasion : Nat) : Acc :=
  { a with fmt := .fp32,
           elems := if a.live && a.fmt == .fp64 then (List.range 1024).map fun i => (Config.freeWord (2 ^ 80 * (occasion + 1) + i)).toNat % 2 ^ 32
                    else a.elems }

/-- The accumulators of a core as its idleness leaves them, before it takes state again (R283). -/
def State.freshAccs (s : State) (c : Nat) : State :=
  if (s.holder c).isSome || (s.core c).mxe.accs.all fun p => p.2.fmt == .fp32 then s
  else (s.modCore c fun k =>
    { k with mxe := { k.mxe with accs := k.mxe.accs.map fun p => (p.1, p.2.atIdle (s.flow.freeCtr + 2 ^ 40 * p.1)) } }).bump

/-! ### Packets (R34, R35, R338) -/

/-- Words 4 to 7 of a trap token (R338). -/
def TrapRec.pack (r : TrapRec) : BitVec 256 :=
  (BitVec.ofBool r.atomf ++ r.aux) ++ r.addr ++ (r.block ++ r.tag)
    ++ (r.hid ++ r.index ++ r.act ++ r.code ++ r.reason ++ r.cause)

/-- Word 2 of a packet (R34). -/
def Token.word2 (t : Token) : Word :=
  t.dpkg ++ t.dcore ++ t.ctx ++ t.act ++ t.hid ++ t.port ++ BitVec.ofBool t.relf ++ BitVec.ofBool t.trapf
    ++ BitVec.ofBool t.cntf ++ BitVec.ofBool t.engf

/-- Word 3 of a packet (R34). -/
def Token.word3 (t : Token) : Word := t.spkg ++ t.score ++ t.skind ++ (0 : BitVec 40)

/-- The words of a packet (R34, R35): four, or eight with a signature or a trap record. -/
def Token.words (t : Token) : List Word :=
  [t.payload, t.tag ++ t.dblock, t.word2, t.word3] ++
    (if t.relf || t.trapf then (List.range 4).map fun i => t.tail.extractLsb' (64 * i) 64 else [])

def wordAt (l : List Word) (i : Nat) : Word := (l[i]?).getD 0

/-- A packet from its words (R34). -/
def Token.ofWords (l : List Word) : Token :=
  let w1 := wordAt l 1
  let w2 := wordAt l 2
  let w3 := wordAt l 3
  { payload := wordAt l 0, tag := w1.extractLsb' 32 32, dblock := w1.extractLsb' 0 32, dpkg := w2.extractLsb' 52 12,
    dcore := w2.extractLsb' 44 8, ctx := w2.extractLsb' 32 12, act := w2.extractLsb' 16 16, hid := w2.extractLsb' 8 8,
    port := w2.extractLsb' 4 4, relf := w2.getLsbD 3, trapf := w2.getLsbD 2, cntf := w2.getLsbD 1, engf := w2.getLsbD 0,
    spkg := w3.extractLsb' 52 12, score := w3.extractLsb' 44 8, skind := w3.extractLsb' 40 4,
    tail := wordAt l 7 ++ wordAt l 6 ++ wordAt l 5 ++ wordAt l 4 }

/-- A packet that R35 does not discard, by its words. -/
def packetOk (l : List Word) : Bool :=
  let t := Token.ofWords l
  !(t.relf && t.trapf) && t.skind.toNat ≤ 8 && (wordAt l 3).extractLsb' 0 40 == 0
    && l.length == (if t.relf || t.trapf then 8 else 4)

/-! ### Events (R411, R412) -/

/-- Whether the queue on X-die 0 holds 256 events (R412). -/
def State.evFull (s : State) : Bool := decide (Config.eventQueue ≤ s.host.evQueue.length)

/-- Puts an event in the queue on X-die 0. While that is full, one of TYPE 1 to 3 waits at its source, and any other is dropped. -/
def State.event (s : State) (e : Event) : State :=
  let e := if e.byCtx then { e with vec := (s.ctx e.ctx).desc.evec } else e
  if !s.evFull then { s with host := { s.host with evQueue := s.host.evQueue ++ [e] } }
  else if e.typ.toNat ≤ 3 then { s with host := { s.host with evWait := s.host.evWait ++ [e] } }
  else { s with host := { s.host with evLost := if s.host.evLost = 0xFFFFFFFF then s.host.evLost else s.host.evLost + 1 } }

/-- A link event (TYPE 4), with a port or a package ID. -/
def State.linkEvent (s : State) (sub : BitVec 8) (n : Nat) : State :=
  s.event { typ := 4, sub, words := [BitVec.ofNat 64 n] }

/-! ### Ready instances and bins (R196 to R198) -/

/-- The next ready time of a core: no two are equal (R199). -/
def State.readyTime (s : State) (c : Nat) : Nat := max s.cycle ((s.core c).lastReady + 1)

/-- Places one reference: in its block's bin if that has room, else in a free bin, else in the bin queue (R198). -/
def Core.placeRef (k : Core) (q : QRef) : Core :=
  let mine := k.bins.find? fun p => p.2.ctx == q.ctx && p.2.act == q.act && p.2.dblock == q.dblock
    && p.2.refs.length < Config.binRefs
  match mine with
  | some (n, b) => { k with bins := nput k.bins n { b with refs := insertBy Ref.readyAt q.ref b.refs } }
  | none => match (List.range 64).find? fun n => (nget k.bins n).isNone with
    | some n => { k with bins := nput k.bins n { ctx := q.ctx, act := q.act, dblock := q.dblock, refs := [q.ref], hdr := q.hdr } }
    | none => { k with binQ := insertBy (fun r => r.ref.readyAt) q k.binQ }

/-- Places what it can of the bin queue, oldest first (R198). -/
def Core.placeQueue (k : Core) : Core :=
  k.binQ.foldl (fun k q => k.placeRef q) { k with binQ := [] }

/-- Whether a context's bins may be granted: it is not being pre-empted (R197, R331). -/
def Ctx.fires (x : Ctx) : Bool :=
  match x.st with
  | .resident => !x.restoring
  | .leaving => x.phase == 0 && !x.restoring
  | _ => false

/-- Whether a bin becomes firable (R197, R198). A reference counts from its ready time on (R199). -/
def State.firable (s : State) (c : Nat) (b : Bin) : Bool :=
  decide (b.hdr.fill.toNat + 1 ≤ (b.refs.filter fun r => decide (r.readyAt ≤ s.cycle)).length) || !(s.core c).binQ.isEmpty
    || b.refs.any fun r => decide (r.readyAt + 16 * b.hdr.sustain.toNat ≤ s.cycle)

/-- A bin stays firable until it is granted or its context is pre-empted; one that becomes firable starts with no losses and no
credit (R197, R200). -/
def State.refreshBin (s : State) (c : Nat) (b : Bin) : Bin :=
  if !(s.ctx b.ctx).fires then { b with fires := false }
  else if !b.fires && s.firable c b then { b with fires := true, losses := 0, credit := 0, due := none }
  else b

/-- Every bin of a core, as it stands. -/
def State.refreshBins (s : State) (c : Nat) : State :=
  s.modCore c fun k => { k with bins := k.bins.map fun p => (p.1, s.refreshBin c p.2) }

/-- Makes an instance ready: its ready time is recorded and its reference placed (R196). -/
def State.makeReady (s : State) (c frame : Nat) : State :=
  let t := s.readyTime c
  let s := s.modCore c fun k => match k.entry? frame with
    | none => k
    | some e =>
      let k := k.modEntry frame fun e => { e with state := .ready, readyAt := t }
      Core.placeRef { k with lastReady := t } { ctx := e.ctx, act := e.act, dblock := e.dblock, ref := { frame, readyAt := t }, hdr := e.hdr }
  s.refreshBins c

/-! ### Taking a trap (R132, R336 to R341) and the return from it (R151) -/

/-- Begins the end of a context's residency after which it is stopped; a context that is away is stopped at once
(R327, R341). -/
def State.stopCtx (s : State) (n : BitVec 12) : State :=
  s.modCtx n fun x => match x.st with
    | .resident => { x with st := .leaving, phase := 0, toStop := true }
    | .leaving => { x with toStop := true }
    | .saved => { x with st := .stopped }
    | .absent => x
    | .stopped => x

/-- An escalation: the owner's event of TYPE 1 with the record, and the context stopped (R341); both wait for room in the queue (R412). -/
def State.escalate (s : State) (n : BitVec 12) (reason : BitVec 8) (r : TrapRec) : State :=
  let t := r.pack
  (if s.evFull then s else s.stopCtx n).event
    { typ := 1, sub := reason, ctx := n, act := r.act, byCtx := true,
      words := [0, 0, 0] ++ (List.range 4).map fun i => t.extractLsb' (64 * i) 64 }

/-- An event that waits at its source enters the queue, and what it tells of takes place. -/
def State.admitEvent (s : State) : State :=
  match s.host.evWait with
  | [] => s
  | e :: r =>
    if s.evFull then s
    else
      let s := { s with host := { s.host with evWait := r, evQueue := s.host.evQueue ++ [e] } }
      if e.typ = 1 then s.stopCtx e.ctx else s

/-- Whether a trap's record goes out as a trap token: not from a trap-handler block or the trap activation, nor where there is
no trap graph (R337, R341). -/
def State.trapSent (s : State) (n : BitVec 12) (act : BitVec 16) (trapBlk : Bool) : Bool :=
  !trapBlk && act != 0xFFFF && (s.ctx n).desc.timage != 0 && (s.act? (actKey n 0xFFFF)).isSome

/-- Sends a trap record where R337 and R341 send it: one trap token to the context's trap graph at core c, with the
parked instance's handle as payload; or an escalation, from a trap-handler block or the trap activation, or where there
is no trap graph. The trap counter is the token's tag and is then incremented. -/
def State.sendTrap (s : State) (c : Nat) (n : BitVec 12) (handle : Word) (trapBlk : Bool) (r : TrapRec) (skind : BitVec 4 := 0) : State :=
  let x := s.ctx n
  if trapBlk || r.act == 0xFFFF then s.escalate n 1 r
  else if x.desc.timage = 0 then s.escalate n 3 r
  else match s.act? (actKey n 0xFFFF) with
    | none => s.escalate n 1 r
    | some a =>
      let t : Token := { payload := handle, tag := x.trapCtr, dblock := a.entry.1, dpkg := s.pkg,
                         dcore := BitVec.ofNat 8 c, ctx := n, act := 0xFFFF, port := a.entry.2, trapf := true,
                         spkg := s.pkg, score := if skind = 0 then BitVec.ofNat 8 c else 0xFF, skind, tail := r.pack }
      { s.modCtx n (fun x => { x with trapCtr := x.trapCtr + 1 }) with net := s.net ++ [t] }

/-- The record of a lane's trap (R338): `index` is the instruction's, 0xFF for none. -/
def Trap.record (t : Trap) (act : BitVec 16) (tag dblock : BitVec 32) (hid : BitVec 8) (index : Nat) (atomf : Bool) : TrapRec :=
  { cause := t.cause, reason := t.reason, code := t.code, act, index := BitVec.ofNat 8 index, hid, tag, block := dblock,
    addr := t.addr, atomf, aux := t.aux }

/-- TAKES A TRAP for the instance in a frame of core c: the instance is parked with its frame and entry as they are (entries
stand in the order in which they were parked), and its record goes to the trap graph or the owner. A PAGE_FAULT sends no trap
token (R339): the instance waits for its fault; one in a trap-handler block or in the trap activation escalates besides, as every fault
there does (R336, R341). -/
def State.takeTrap (s : State) (c frame : Nat) (trapBlk : Bool) (t : Trap) (index : Nat) (atomf : Bool) : State :=
  match (s.core c).entry? frame with
  | none => s
  | some e =>
    let told := t.fault.isNone && s.trapSent e.ctx e.act trapBlk
    let parked : Entry := { e with state := .parked (t.fault.map fun id => { id, addr := t.addr }) told false, trapIdx := BitVec.ofNat 8 index, atomf }
    let s := s.modCore c fun k => { k.freeEntry frame with entries := (k.freeEntry frame).entries ++ [parked] }
    let r := t.record e.act e.tag e.dblock e.hid index atomf
    if t.fault.isNone then s.sendTrap c e.ctx (frameHandle c frame) trapBlk r
    else if trapBlk || e.act == 0xFFFF then s.escalate e.ctx 1 r
    else s

/-- A page fault that an engine's access meets: in the trap activation it escalates besides, as every fault there does (R336, R341). -/
def State.engFault (s : State) (n : BitVec 12) (act : BitVec 16) (stop : Stop) : State :=
  if act = 0xFFFF then s.escalate n 1 { cause := 0x07, act, addr := stop.addr } else s

/-- KILL of a parked instance: its entry and frame are freed (R151, R183). -/
def State.killParked (s : State) (c frame : Nat) : State :=
  match (s.core c).entry? frame with
  | some e => match e.state with
    | .parked .. => s.modCore c fun k => k.freeEntry frame
    | _ => s
  | none => s

/-- THE RETURN FROM A TRAP: a parked instance goes back to its bin with a new ready time and its frame unchanged, and
fires again from the start of its block (R151, R196). One marked refuted is discarded as KILL does (R386). -/
def State.returnParked (s : State) (c frame : Nat) : State :=
  match (s.core c).entry? frame with
  | some e => match e.state with
    | .parked _ _ true => s.modCore c fun k => k.freeEntry frame
    | .parked _ _ false => s.makeReady c frame
    | _ => s
  | none => s

/-- TRET of a parked instance. One that waits under a page fault does not fire before its resume, so that nothing changes for it
(R389, assumption log 46). -/
def State.tretParked (s : State) (c frame : Nat) : State :=
  match (s.core c).entry? frame with
  | some e => match e.state with
    | .parked (some _) _ _ => s
    | _ => s.returnParked c frame
  | none => s

/-- Whether a handle names an instance parked in the context's fault queue (R151). -/
def State.parkedHandle (s : State) (n : BitVec 12) (h : Word) : Option (Nat × Nat) :=
  match handleFrame h with
  | some (c, j) => match (s.core c).entry? j with
    | some e => match e.state with
      | .parked .. => if e.ctx = n then some (c, j) else none
      | _ => none
    | none => none
  | none => none

/-! ### Hypotheses (R378) -/

/-- A HID's chain to the root, nearest first, without the root. -/
def hypChain (m : NMap HypRec) : Nat → BitVec 8 → List (BitVec 8)
  | 0, _ => []
  | n + 1, h => if h = 0 then [] else match nget m h.toNat with
    | some r => h :: hypChain m n r.parent
    | none => [h]

/-- The ancestors of a HID with itself and the root. -/
def State.chain (s : State) (n : BitVec 12) (h : BitVec 8) : List (BitVec 8) := hypChain (s.ctx n).hyps 16 h ++ [0]

/-- Whether `a` is `h` or an ancestor of `h`. -/
def State.isAncestor (s : State) (n : BitVec 12) (a h : BitVec 8) : Bool := (s.chain n h).contains a

/-- The state of a HID (R355): the root is always live. -/
def State.hypState (s : State) (n : BitVec 12) (h : BitVec 8) : Nat :=
  if h = 0 then 1 else match nget (s.ctx n).hyps h.toNat with
    | some r => r.state.toNat
    | none => 0

/-- The depth of a HID. -/
def State.hypDepth (s : State) (n : BitVec 12) (h : BitVec 8) : Nat :=
  if h = 0 then 0 else match nget (s.ctx n).hyps h.toNat with
    | some r => r.depth.toNat
    | none => 0

end Sys2Proof.Machine
end

