-- ==== Sys2Proof/Machine/Home.lean ====
section
/-! DEFINITION. Homes and the L1 (R209 to R219, R229, R381, R382, R424): line keys and release signatures, reading and
accepting at a home, versions of speculative bytes, the L1's loads, stores, write-backs and acquisition. A function that
answers none cannot go on at this instant, because a write must wait for an operation of the update unit (R259). -/

namespace Sys2Proof.Machine

/-! ### Lines, homes and signatures (R209, R215, R216) -/

/-- The line number N of a physical address. -/
def lineOf (pa : Nat) : Nat := pa / 128

/-- The home slice of a line on its package: C-die × 16 + slice (R209). -/
def homeSlice (line : Nat) : Nat :=
  let n : BitVec 45 := BitVec.ofNat 45 line
  let b (i : Nat) : BitVec 8 := n.extractLsb' (8 * i) 8
  ((b 0 ^^^ b 1 ^^^ b 2 ^^^ b 3 ^^^ b 4 ^^^ (n.extractLsb' 40 5).setWidth 8).extractLsb' 0 7).toNat

/-- L2Set (R255). -/
def l2Set (line : Nat) : Nat :=
  let n : BitVec 45 := BitVec.ofNat 45 line
  let b (i : Nat) : BitVec 10 := n.extractLsb' (10 * i) 10
  (b 0 ^^^ b 1 ^^^ b 2 ^^^ b 3 ^^^ (n.extractLsb' 40 5).setWidth 10).toNat

/-- LineKey (R215). -/
def lineKey (pkg : BitVec 12) (line : Nat) : BitVec 57 := pkg ++ BitVec.ofNat 45 line

/-- SigBits (R215): the three bits a line key sets. -/
def sigBits (l : BitVec 57) : List Nat :=
  let b (i : Nat) : BitVec 8 := l.extractLsb' (8 * i) 8
  let b7 : BitVec 8 := (l.extractLsb' 56 1).setWidth 8
  let h0 := b 0 ^^^ b 1 ^^^ b 2 ^^^ b 3 ^^^ b 4 ^^^ b 5 ^^^ b 6 ^^^ b7
  let h1 := b 0 ^^^ (b 1).rotateLeft 1 ^^^ (b 2).rotateLeft 2 ^^^ (b 3).rotateLeft 3 ^^^ (b 4).rotateLeft 4
    ^^^ (b 5).rotateLeft 5 ^^^ (b 6).rotateLeft 6 ^^^ b7
  let h2 := b 0 + 3 * b 1 + 5 * b 2 + 7 * b 3 + 9 * b 4 + 11 * b 5 + 13 * b 6 + 15 * b7
  [h0.toNat, h1.toNat, h2.toNat]

/-- SigInsert (R215). -/
def sigInsert (s : Sig) (l : BitVec 57) : Sig := (sigBits l).foldl (fun s i => s ||| (1#256 <<< i)) s

/-- SigMatch (R215). -/
def sigMatch (s : Sig) (l : BitVec 57) : Bool := (sigBits l).all fun i => s.getLsbD i

/-- A core's release signature, the OR of its four registers (R216). -/
def Core.rs (k : Core) : Sig := k.sig0 ||| k.sig1 ||| k.sig2 ||| k.sig3

/-- ORs a signature into the register of an epoch (R216). -/
def Core.orSig (k : Core) (epoch : Nat) (x : Sig) : Core :=
  match epoch % 4 with
  | 0 => { k with sig0 := k.sig0 ||| x }
  | 1 => { k with sig1 := k.sig1 ||| x }
  | 2 => { k with sig2 := k.sig2 ||| x }
  | _ => { k with sig3 := k.sig3 ||| x }

/-- Clears the register of a new epoch (R216). -/
def Core.clearSig (k : Core) (epoch : Nat) : Core :=
  match epoch % 4 with
  | 0 => { k with sig0 := 0 }
  | 1 => { k with sig1 := 0 }
  | 2 => { k with sig2 := 0 }
  | _ => { k with sig3 := 0 }

namespace State

/-- Inserts a line of a package into a core's current signature register. -/
def sigLine (s : State) (c : Nat) (pkg : BitVec 12) (line : Nat) : State :=
  s.modCore c fun k => k.orSig s.epoch (sigInsert 0 (lineKey pkg line))

/-- An engine's four registers and its release signature (R227). -/
def engSigs (s : State) (e : Nat) : List Sig := (nget s.eng.sigs e).getD [0, 0, 0, 0]
def engRs (s : State) (e : Nat) : Sig := (s.engSigs e).foldl (· ||| ·) 0
def engSigLine (s : State) (e : Nat) (pkg : BitVec 12) (line : Nat) : State :=
  let l := s.engSigs e
  let i := s.epoch % 4
  { s with eng := { s.eng with sigs := nput s.eng.sigs e (lset l i (sigInsert ((l[i]?).getD 0) (lineKey pkg line))) } }

/-! ### Keys and worlds of memory (R421 to R424) -/

/-- The lowest enabled region that holds a physical address (R423). -/
def region? (s : State) (pa : Nat) : Option Region :=
  (((List.range 16).filterMap fun n => nget s.sec.regions n).find? fun r =>
    r.en && r.base.toNat ≤ pa / 4096 && pa / 4096 ≤ r.limit.toNat)

/-- The key slot of accesses without translation: 0 outside every region (R423, R424). -/
def regionKey (s : State) (pa : Nat) : BitVec 8 := match s.region? pa with
  | some r => r.key
  | none => 0

/-- The world of a physical address (R423). -/
def regionWorld (s : State) (pa : Nat) : Bool := match s.region? pa with
  | some r => r.world
  | none => false

def keySlot (s : State) (n : BitVec 8) : KeySlot := (nget s.sec.keys n.toNat).getD {}

/-! ### Reading at a home (R210, R424) -/

/-- Whether bytes read from HBM under a key slot are unrelated to those written: the line was written under another slot, or under a key
that the slot no longer holds (R424, R425). A slot loaded again with the same key holds it still. -/
def wrongKey (s : State) (m : LineMeta) (slot : BitVec 8) : Bool :=
  let k := s.keySlot slot
  m.written && (m.slot != slot || (m.gen != k.gen && m.key != k.key))

/-- Whether a read of a line under a key slot returns unrelated bytes: those it was filled with, if it is in the L2 (R424). -/
def garbled (s : State) (slot : BitVec 8) (line : Nat) : Bool :=
  let m := s.line line
  if m.res then m.garb else s.wrongKey m slot

/-- The bytes that a line holds when it is read under a wrong key: open, by address, key and version of the line in HBM. -/
def strangeByte (pa : Nat) (key : BitVec 512) (ver : Nat) : Byte := Config.freeByte (pa + 2 ^ 52 * (key.toNat + 2 ^ 512 * ver))

/-- A byte of a save block that the manual leaves open (assumption log 13). -/
def openByte (occasion off : Nat) : Byte := Config.freeByte (2 ^ 80 * (occasion + 1) + off)

/-- A byte that an earlier boot left, read under a key (R425, assumption log 9). -/
def rawByte (occasion off : Nat) (key : BitVec 512) : Byte := Config.freeByte (2 ^ 80 * (occasion + 1) + off + 2 ^ 200 * (key.toNat + 1))

/-- The committed byte at a physical address, read at its home under a key slot. -/
def homeByte (s : State) (slot : BitVec 8) (pa : Nat) : Byte :=
  let m := s.line (lineOf pa)
  let key := if m.res then m.tkey else (s.keySlot slot).key
  if Config.memBytes ≤ pa then Config.freeByte pa
  else if s.garbled slot (lineOf pa) then strangeByte pa key m.ver
  else match s.homes.opens.find? fun r => decide (r.lo ≤ pa) && decide (pa < r.hi) with
    | some r => if r.raw then rawByte r.occasion (r.off + (pa - r.lo)) key else openByte r.occasion (r.off + (pa - r.lo))
    | none => mget s.homes.mem pa

def homeBytes (s : State) (slot : BitVec 8) (pa n : Nat) : List Byte := (List.range n).map fun i => s.homeByte slot (pa + i)

/-- A little-endian word read at its home under its region's key. -/
def homeWord (s : State) (pa : Nat) : Word := wordOfBytes (s.homeBytes (s.regionKey pa) pa 8)

/-- The version of a line under exactly one HID. -/
def version? (s : State) (n : BitVec 12) (h : BitVec 8) (line : Nat) : Option Version :=
  s.homes.versions.find? fun v => v.line == line && v.ctx == n && v.hid == h

/-- The byte a load under a HID takes at the home (R230, R382), and whether it comes from a poisoned version. -/
def viewByte (s : State) (n : BitVec 12) (h : BitVec 8) (slot : BitVec 8) (pa : Nat) : Byte × Bool :=
  let own := if h = 0 then none else
    (hypChain (s.ctx n).hyps 16 h).findSome? fun a => match s.version? n a (lineOf pa) with
      | some v => if v.mask.getLsbD (pa % 128) then some v else none
      | none => none
  match own with
  | some v => (v.data.extractLsb' (8 * (pa % 128)) 8, v.poison)
  | none => (s.homeByte slot pa, (s.line (lineOf pa)).poison)

/-! ### Lines in the L2 (R255, R256, R424) -/

/-- The lines of a line's set that the L2 holds, without versions. -/
def l2Lines (s : State) (line : Nat) : List Nat :=
  (nkeys s.homes.lines).filter fun l => (s.line l).res && homeSlice l == homeSlice line && l2Set l == l2Set line

/-- The versions in a line's set (R255, R382). -/
def l2Versions (s : State) (line : Nat) : Nat :=
  (s.homes.versions.filter fun v => homeSlice v.line == homeSlice line && l2Set v.line == l2Set line).length

/-- A line leaves the L2: a dirty one is written to HBM under the key slot it is tagged with, and its stamp ends. Its sticky bit
and any release record stay with it. -/
def l2Leave (s : State) (line : Nat) : State :=
  let m := s.line line
  let k := s.keySlot m.tag
  let m := if m.dirty then { m with written := true, slot := m.tag, gen := k.gen, key := k.key, ver := m.ver + 1 } else m
  s.setLine line { m with stamp := 0, res := false, dirty := false, garb := false }

/-- Makes a way free in a line's set by replacing a freely chosen line that is not pinned (R255; versions are pinned, R382). -/
def l2Room (s : State) (pins : List Nat) (line : Nat) : State :=
  let lines := s.l2Lines line
  if lines.length + s.l2Versions line < Config.l2Ways then s
  else
    let may := lines.filter fun l => !pins.contains l
    let (i, s) := s.pick may.length
    match may[i]? with
    | some l => s.l2Leave l
    | none => s

/-- Brings a line into the L2 under a key slot, unless the L2 holds it: its stamp begins at 0. `pins` are lines that a block
fill is reading (R256). -/
def l2Enter (s : State) (pins : List Nat) (slot : BitVec 8) (line : Nat) : State :=
  if (s.line line).res || decide (Config.memBytes ≤ line * 128) then s
  else
    let s := s.l2Room pins line
    let m := s.line line
    s.setLine line { m with stamp := 0, res := true, tag := slot, tkey := (s.keySlot slot).key, dirty := false, garb := s.wrongKey m slot }

/-! ### Accepting at a home (R210, R229, R255, R424) -/

/-- Takes the bytes of [lo, hi) out of the ranges of open bytes. -/
def cutOpens (l : List OpenRange) (lo hi : Nat) : List OpenRange :=
  (l.map fun r =>
    if r.hi ≤ lo ∨ hi ≤ r.lo then [r]
    else
      [{ r with hi := lo }, { r with lo := hi, off := r.off + (hi - r.lo) }].filter fun x => decide (x.lo < x.hi)).flatten

/-- Whether some byte of a line is one that an earlier boot left. -/
def rawLine (s : State) (line : Nat) : Bool :=
  s.homes.opens.any fun r => r.raw && decide (r.lo < line * 128 + 128) && decide (line * 128 < r.hi)

/-- Accepts committed bytes at their home: the masked bytes change at one instant and the line's stamp advances. The line's other bytes
are from then on those that the L2 holds, whatever key the slot is loaded with later (R424, R425). Bytes beyond the installed memory are
dropped. -/
def acceptLine (s : State) (slot : BitVec 8) (line : Nat) (mask : Mask) (data : Line) : State :=
  if Config.memBytes ≤ line * 128 then s
  else
    let s := s.l2Enter [] slot line
    let m := s.line line
    let keep := m.garb || s.rawLine line
    let mem := (List.range 128).foldl (fun x i =>
      if mask.getLsbD i then mput x (line * 128 + i) (data.extractLsb' (8 * i) 8)
      else if keep then mput x (line * 128 + i) (s.homeByte slot (line * 128 + i)) else x) s.homes.mem
    let opens := (List.range 128).foldl (fun l i =>
      if mask.getLsbD i || keep then cutOpens l (line * 128 + i) (line * 128 + i + 1) else l) s.homes.opens
    let s := s.setLine line { m with stamp := m.stamp + 1, dirty := true, garb := false }
    { s with homes := { s.homes with mem, opens } }

/-- Writes bytes into the version of a line under a HID, which is made where it is not held (R382). `slot` is the key slot of the
page they were written through. DESIGN CHOICE (assumption log 48): a version is not the line, so an operation in flight on the line does
not hold such a write back, and the write does not advance the line's stamp (R259). -/
def acceptVersion (s : State) (n : BitVec 12) (h : BitVec 8) (slot : BitVec 8) (line : Nat) (mask : Mask) (data : Line) : State :=
  let wide : Line := (List.range 128).foldl (fun w i => if mask.getLsbD i then w ||| (0xFF#1024 <<< (8 * i)) else w) 0
  let merge (v : Version) : Version := { v with slot, mask := v.mask ||| mask, data := (v.data &&& ~~~wide) ||| (data &&& wide) }
  let vs := match s.version? n h line with
    | some v => s.homes.versions.map fun x => if x = v then merge v else x
    | none => s.homes.versions ++ [merge { line, ctx := n, hid := h }]
  { s with homes := { s.homes with versions := vs } }

/-! ### Writes that wait for the update unit (R210, R225, R259) -/

/-- Whether an operation of the update unit is in flight on a line (R259). -/
def opInFlight (s : State) (line : Nat) : Bool := (nget (s.slice (homeSlice line)).ops line).isSome

/-- A line that a writer wrote goes into its signature (R216, R227). -/
def signBy (s : State) (w : Writer) (line : Nat) : State :=
  match w with
  | .core c => s.sigLine c s.pkg line
  | .engine e => s.engSigLine e s.pkg line
  | .far .. => s
  | .host => s
  | .other => s

/-- Whether a slice holds a write of a writer back. -/
def heldAt (s : State) (w : Writer) (slice : Nat) : Bool := w != .other && (s.slice slice).heldWr.any fun h => h.by_ == w

/-- Whether it holds a write of committed bytes to a line back: what comes later to the line comes after it (R259). -/
def heldOn (s : State) (line : Nat) : Bool := (s.slice (homeSlice line)).heldWr.any fun h => h.line == line

/-- Whether any slice holds a write of a writer back. -/
def heldFrom (s : State) (w : Writer) : Bool := w != .other && s.homes.slices.any fun p => p.2.heldWr.any fun h => h.by_ == w

/-- Whether an update or atomic that a core sent to a slice has not been accepted there: the core's later writes to that home
come after it (R210, R225). -/
def queuedUpdate (s : State) (c slice : Nat) : Bool :=
  (s.slice slice).inq.any fun u => u.core == c && u.remote.isNone

/-- The same of a core of another package. -/
def queuedFar (s : State) (p : BitVec 12) (c slice : Nat) : Bool :=
  (s.slice slice).inq.any fun u => u.core == c && u.remote.isSome && u.pkg == p

end State

/-- The entries of an update window that are free: those of an operation in flight are taken until it ends (R257). -/
def Slice.room (sl : Slice) : Nat := Config.windowEntries - sl.window.length - (sl.ops.map fun p => p.2.batch.length).sum

/-- Accepts what fits from a slice's input queue into its window, in arrival order (R225, R257). -/
def Slice.takeIn (sl : Slice) (cycle : Nat) : Slice :=
  { sl with window := sl.window ++ (sl.inq.take sl.room).map fun u => { u with at_ := cycle }, inq := sl.inq.drop sl.room }

namespace State

def acceptUpdates (s : State) (i : Nat) : State := s.modSlice i fun sl => sl.takeIn s.cycle

/-- Performs a write at its home: its bytes are accepted, or go into a version. -/
def performWrite (s : State) (w : Writer) (op : HomeOp) : State :=
  match op with
  | .write pa slot mask data n h _ =>
    let l := lineOf pa
    (if h = 0 then s.acceptLine slot l mask data else s.acceptVersion n h slot l mask data).signBy w l
  | .flag .. => s
  | .upd _ => s

/-- A write of committed bytes reaches its home: it is performed, or held until the operation in flight on its line, what was held for
the line before it, and what its writer has waiting at the slice, have been performed. -/
def homeWrite (s : State) (w : Writer) (op : HomeOp) : State :=
  match op with
  | .write pa _ _ _ _ h _ =>
    let l := lineOf pa
    if (h = 0 && (s.opInFlight l || s.heldOn l)) || s.heldAt w (homeSlice l) then
      s.modSlice (homeSlice l) fun sl => { sl with heldWr := sl.heldWr ++ [{ line := l, op, by_ := w }] }
    else s.performWrite w op
  | .flag .. => s
  | .upd _ => s

/-- Writes bytes at rising addresses, one line at a time (R155, R229). -/
def acceptBytes (s : State) (slot : BitVec 8) (pa : Nat) (bytes : List Byte) (w : Writer := .other) : State :=
  let lines := ((List.range bytes.length).map fun i => lineOf (pa + i)).eraseDups
  lines.foldl (fun s l =>
    let sel := bytes.zipIdx.filter fun p => lineOf (pa + p.2) == l
    let mask : Mask := sel.foldl (fun m p => m ||| (1#128 <<< ((pa + p.2) % 128))) 0
    let data : Line := sel.foldl (fun d p => d ||| ((p.1.setWidth 1024 : Line) <<< (8 * ((pa + p.2) % 128)))) 0
    s.homeWrite w (.write (l * 128) slot mask data 0 0 false)) s

/-- The home adds a releasing core to the line's record, unless it is already pending there; false when the record
holds four others, or no record is free (R221). -/
def addReleaser (s : State) (line : Nat) (pkg : BitVec 12) (c : BitVec 8) : Bool × State :=
  let i := homeSlice line
  let sl := s.slice i
  match nget sl.recs line with
  | some r =>
    if r.pending.contains (pkg, c) then (true, s)
    else if r.pending.length < Config.pendingReleasers then
      (true, s.setSlice i { sl with recs := nput sl.recs line { r with pending := r.pending ++ [(pkg, c)] } })
    else (false, s)
  | none =>
    if sl.recs.length < Config.releaseRecords then
      (true, s.setSlice i { sl with recs := nput sl.recs line { pending := [(pkg, c)] } })
    else (false, s)

/-- The home ORs a signature into the line's held signature, or into the overflow signature when the line has no record
and none is free (R221, R222). -/
def holdSig (s : State) (line : Nat) (x : Sig) : State :=
  let i := homeSlice line
  let sl := s.slice i
  let put (r : RelRec) : State :=
    s.setSlice i { sl with recs := nput sl.recs line { r with held := r.held ||| x, isHeld := true, epoch := s.epoch } }
  match nget sl.recs line with
  | some r => put r
  | none => if sl.recs.length < Config.releaseRecords then put {}
            else s.setSlice i { sl with ovf := sl.ovf ||| x, ovfSet := true, ovfEpoch := s.epoch }

/-! ### Write-backs and the queue to the homes (R210, R212) -/

/-- Whether an entry of a core's queue cannot be performed at its home at this instant (R210, R259). A release sent again waits until
the writes before it are accepted (R221). -/
def writeWaits (s : State) (c : Nat) (op : HomeOp) : Bool :=
  s.heldAt (.core c) (homeSlice op.line) || match op with
    | .write _ _ _ _ _ h _ => (h = 0 && (s.opInFlight op.line || s.heldOn op.line)) || s.queuedUpdate c (homeSlice op.line)
    | .flag .. => s.opInFlight op.line || s.heldOn op.line || s.queuedUpdate c (homeSlice op.line)
    | .upd u => u.eager && s.heldFrom (.core c)

/-- A flag write's bytes at its home: the line goes into the core's signature where its page is not one the core caches (R216). -/
def acceptFlag (s : State) (c pa : Nat) (slot : BitVec 8) (data : BitVec 64) (cached : Bool) : State :=
  let s := s.acceptBytes slot pa (bytesOfWord data)
  if cached then s else s.sigLine c s.pkg (lineOf pa)

/-- Performs one entry of a core's queue at its home; none where it must stay in the queue. A write whose line has an operation in
flight is held at the slice until that operation ends. An update goes to the slice's input queue, and into its window if it has
room; a release sent again takes the core's signature with it. A flag release that finds no room answers none, for the eager form of
R221 to follow. -/
def performHomeOp (s : State) (c : Nat) (op : HomeOp) : Option State :=
  match op with
  | .write pa .. => if s.queuedUpdate c (homeSlice (lineOf pa)) then none else some (s.homeWrite (.core c) op)
  | .flag pa slot data cached rel =>
    if s.writeWaits c op then none
    else if !rel then some (s.acceptFlag c pa slot data cached)
    else
      let (ok, s) := s.addReleaser (lineOf pa) s.pkg (BitVec.ofNat 8 c)
      if ok then some (s.acceptFlag c pa slot data cached) else none
  | .upd u =>
    if s.writeWaits c op then none
    else
      let u := if u.eager then { u with rs := (s.core c).rs } else u
      some (s.modSlice (homeSlice (lineOf u.pa)) fun sl => Slice.takeIn { sl with inq := sl.inq ++ [u] } s.cycle)

/-- Whether a slice holds a write of the core back (R259). -/
def heldBack (s : State) (c : Nat) : Bool := s.heldFrom (.core c)

/-- Sends a line's dirty bytes to its home (R212): the line stays, clean. -/
def writeBackLine (s : State) (c : Nat) (l : L1Line) : State :=
  if l.dirty = 0 then s
  else s.modCore c fun k =>
    { k with homeQ := k.homeQ ++ [.write (l.line * 128) l.slot l.dirty l.data l.ctx l.hid true],
             l1 := k.l1.map fun x => if x = l then { x with dirty := 0 } else x }

/-- Drops a line from the L1 without writing it back. -/
def dropLine (s : State) (c line : Nat) : State := s.modCore c fun k => { k with l1 := k.l1.filter fun x => x.line != line }

/-- Writes back a line's dirty bytes and invalidates it (R212). -/
def flushLine (s : State) (c line : Nat) : State :=
  match (s.core c).l1.find? fun x => x.line == line with
  | some l => (s.writeBackLine c l).dropLine c line
  | none => s

end State

/-- Performs a list of queued writes in order. A flag write that finds no room makes the drain fail here; the eager form
is FLAG_RELEASE's. -/
def drainAux (c : Nat) : List HomeOp → State → Option State
  | [], s => some s
  | op :: r, s =>
    if s.writeWaits c op then none
    else match s.performHomeOp c op with
      | none => none
      | some s => drainAux c r (s.modCore c fun k => { k with homeQ := k.homeQ.drop 1 })

namespace State

/-- Every write on its way from a core is accepted at its home; none where one must wait for an operation in flight. -/
def drainHome (s : State) (c : Nat) : Option State := if s.heldBack c then none else drainAux c (s.core c).homeQ s

/-- Writes back every dirty L1 line of a core and waits for acceptance (R217 step 1, R222 step 2). -/
def flushDirty (s : State) (c : Nat) : Option State :=
  ((s.core c).l1.foldl (fun s l => s.writeBackLine c l) s).drainHome c

/-- Writes back every dirty byte and invalidates the whole L1 (R246, R399). -/
def flushAll (s : State) (c : Nat) : Option State :=
  (s.flushDirty c).map fun s => s.modCore c fun k => { k with l1 := [] }

/-- Acquire(S) on a core (R218): matching lines are written back and dropped, matching fills are not kept, and S passes
into the current signature register. -/
def acquire (s : State) (c : Nat) (sig : Sig) : State :=
  let hit (l : Nat) : Bool := sigMatch sig (lineKey s.pkg l)
  let s := (s.core c).l1.foldl (fun s l => if hit l.line && l.valid != 0 then (s.writeBackLine c l).dropLine c l.line else s) s
  s.modCore c fun k => Core.orSig { k with fills := k.fills.map fun f => if hit f.line then { f with keep := false } else f }
    s.epoch sig

end State

/-! ### The L1's loads and stores (R212, R213, R254, R381) -/

/-- The set of a line in the L1 (R254). -/
def l1Set (line : Nat) : Nat :=
  let n : BitVec 16 := BitVec.ofNat 16 line
  (n.extractLsb' 0 8 ^^^ n.extractLsb' 8 8).toNat

namespace State

/-- Makes room for a line in a full set by replacing a freely chosen line, written back first (R254). -/
def l1Room (s : State) (c line : Nat) : State :=
  let k := s.core c
  let set := k.l1.filter fun x => l1Set x.line == l1Set line
  if set.length < 4 * k.banks 2 then s
  else
    let (i, s) := s.pick set.length
    match set[i]? with
    | some l => s.flushLine c l.line
    | none => s

/-- Fills a line from its home under the view of a HID (R212, R381): clean bytes are replaced and dirty bytes stay. An uncorrectable
byte stays invalid, so that each later load of it goes to the home again (R343). -/
def fillLine (s : State) (c : Nat) (slot : BitVec 8) (n : BitVec 12) (h : BitVec 8) (line : Nat) : State :=
  let k := s.core c
  let old := (k.l1.find? fun x => x.line == line).getD { line, ctx := n, hid := h, slot }
  let s := s.l2Enter [] slot line
  let data : Line := (List.range 128).foldl (fun d i =>
    let b := if old.dirty.getLsbD i then old.data.extractLsb' (8 * i) 8 else (s.viewByte n h slot (line * 128 + i)).1
    d ||| ((b.setWidth 1024 : Line) <<< (8 * i))) 0
  let valid : Mask := (List.range 128).foldl (fun m i =>
    if old.dirty.getLsbD i || !(s.viewByte n h slot (line * 128 + i)).2 then m ||| (1#128 <<< i) else m) 0
  let new : L1Line := { old with valid, data, epoch := s.epoch }
  s.modCore c fun k => { k with l1 := k.l1.filter (fun x => x.line != line) ++ [new] }

/-- A line held under another HID is written back and invalidated before this HID's access (R381). -/
def retag (s : State) (c : Nat) (n : BitVec 12) (h : BitVec 8) (line : Nat) : State :=
  match (s.core c).l1.find? fun x => x.line == line with
  | some l => if l.hid = h ∧ (h = 0 ∨ l.ctx = n) then s else s.flushLine c line
  | none => s

/-- A load's byte from the L1 (R212), with whether it is uncorrectable; none where a write-back must first be accepted. -/
def l1Byte (s : State) (c : Nat) (slot : BitVec 8) (n : BitVec 12) (h : BitVec 8) (pa : Nat) : Option ((Byte × Bool) × State) :=
  let line := lineOf pa
  let s := s.retag c n h line
  let fetch (s : State) : Option ((Byte × Bool) × State) :=
    match s.drainHome c with
    | none => none
    | some s =>
      let s := if (s.core c).l1.any (fun x => x.line == line) then s else s.l1Room c line
      match s.drainHome c with
      | none => none
      | some s =>
        let v := s.viewByte n h slot pa
        some (v, s.fillLine c slot (if h = 0 then 0 else n) h line)
  match (s.core c).l1.find? fun x => x.line == line with
  | some l => if l.valid.getLsbD (pa % 128) then some ((l.data.extractLsb' (8 * (pa % 128)) 8, false), s) else fetch s
  | none => fetch s

/-- A store's byte into the L1 (R212): the line is allocated without a fill, and the byte becomes valid and dirty. -/
def l1Store (s : State) (c : Nat) (slot : BitVec 8) (n : BitVec 12) (h : BitVec 8) (pa : Nat) (b : Byte) : State :=
  let line := lineOf pa
  let n := if h = 0 then 0 else n
  let s := s.retag c n h line
  let s := if (s.core c).l1.any (fun x => x.line == line) then s else
    (s.l1Room c line).modCore c fun k => { k with l1 := k.l1 ++ [{ line, ctx := n, hid := h, slot, epoch := s.epoch }] }
  let i := pa % 128
  s.modCore c fun k => { k with l1 := k.l1.map fun x =>
    if x.line = line then
      { x with valid := x.valid ||| (1#128 <<< i), dirty := x.dirty ||| (1#128 <<< i),
               data := (x.data &&& ~~~(0xFF#1024 <<< (8 * i))) ||| ((b.setWidth 1024 : Line) <<< (8 * i)) }
    else x }

end State

end Sys2Proof.Machine
end

