-- ==== Sys2Proof/Machine/Translate.lean ====
section
/-! DEFINITION. Windows, translation and the checks of an access (R153 to R159, R388, R391 to R399): walks, translation
caches, page faults, and the list of places an access reaches. -/

namespace Sys2Proof.Machine

/-! ### Entries and walks (R391 to R393) -/

def Leaf.readable (l : Leaf) : Bool := l.w0.getLsbD 2
def Leaf.writable (l : Leaf) : Bool := l.w0.getLsbD 3
def Leaf.executable (l : Leaf) : Bool := l.w0.getLsbD 4
def Leaf.sec (l : Leaf) : Bool := l.w0.getLsbD 5
def Leaf.cacheable (l : Leaf) : Bool := l.w0.getLsbD 6
def Leaf.host (l : Leaf) : Bool := l.w0.extractLsb' 8 2 == 1
def Leaf.key (l : Leaf) : BitVec 8 := l.w1.extractLsb' 0 8
def Leaf.pkg (l : Leaf) : BitVec 12 := l.w1.extractLsb' 8 12

/-- The address a leaf gives a virtual address: PA + (virtual address mod page size). -/
def Leaf.addr (l : Leaf) (va : Nat) : Nat := l.w0.toNat / 4096 * 4096 / l.size * l.size + va % l.size

/-- What a walk ends in (R393). -/
inductive Walked
  | leaf (l : Leaf)
  | absent
  | malformed
deriving DecidableEq, Repr, Inhabited

/-- The levels of a walk with the lowest index bit of each (R391). -/
def levels : List (Nat × Nat) := [(4, 48), (3, 39), (2, 30), (1, 21), (0, 12)]

/-- A valid non-leaf entry that breaks R392. -/
def badNonLeaf (level : Nat) (w0 w1 : Word) : Bool :=
  level == 0 || w0.extractLsb' 2 3 != 0 || w0.getLsbD 7 || w0.extractLsb' 8 4 != 0 || w0.getLsbD 12 || w1 != 0

/-- The size of the page a leaf of a level maps. -/
def leafSize (level : Nat) (w0 : Word) : Nat :=
  match level with
  | 0 => if w0.getLsbD 7 then 65536 else 4096
  | 1 => 2 ^ 21
  | _ => 2 ^ 30

/-- A valid leaf entry that breaks R392. -/
def badLeaf (level : Nat) (w0 w1 : Word) : Bool :=
  let tgt := (w0.extractLsb' 8 2).toNat
  2 < level || (w0.getLsbD 7 && level != 0) || 2 ≤ tgt || w0.extractLsb' 10 2 != 0
    || (tgt == 0 && w0.extractLsb' 52 12 != 0) || (w0.toNat / 4096 * 4096) % leafSize level w0 != 0
    || (tgt == 1 && w1.extractLsb' 0 8 != 0) || (tgt != 0 && w1.extractLsb' 8 12 != 0) || w1.extractLsb' 20 44 != 0

/-- SliceOf (R395) of a virtual address. -/
def sliceOf (va : Nat) : Nat :=
  let n := va / 4096
  (List.range 12).foldl (fun acc i => acc ^^^ (n / 2 ^ (4 * i) % 16)) 0

/-- Walks the tables from one of them down. A cached non-leaf entry of the slice stands in for its read (R395). The
list returned with the outcome holds the non-leaf entries passed. -/
def walkFrom (s : State) (cached : List NonLeaf) (n : BitVec 12) (va : Nat) : List (Nat × Nat) → Nat → List NonLeaf → Walked × List NonLeaf
  | [], _, acc => (.absent, acc)
  | (level, shift) :: r, table, acc =>
    let hit := cached.find? fun e => e.ctx == n && e.level == level && e.pre == va / 2 ^ shift
    match hit with
    | some e => walkFrom s cached n va r e.table acc
    | none =>
      let at_ := table + 16 * (va / 2 ^ shift % 512)
      let w0 := s.homeWord at_
      let w1 := s.homeWord (at_ + 8)
      if !w0.getLsbD 0 then (.absent, acc)
      else if w0.getLsbD 1 then
        if badLeaf level w0 w1 then (.malformed, acc)
        else
          let size := leafSize level w0
          (.leaf { ctx := n, base := va / size * size, size, w0, w1 }, acc)
      else if badNonLeaf level w0 w1 then (.malformed, acc)
      else
        let next := (w0.toNat / 4096) * 4096 % 2 ^ 52
        walkFrom s cached n va r next ({ ctx := n, level, pre := va / 2 ^ shift, table := next } :: acc)

namespace State

/-- A walk of a context's tables (R391, R393), through the non-leaf entries of one translation slice. -/
def walk (s : State) (slice : Nat) (n : BitVec 12) (va : Nat) : Walked × List NonLeaf :=
  walkFrom s ((nget s.xlt.nonLeaves slice).getD []) n va levels ((s.ctx n).desc.xroot.toNat) []

end State

/-! ### Translation caches (R395) -/

def Leaf.covers (l : Leaf) (n : BitVec 12) (va : Nat) : Bool := l.ctx == n && l.base ≤ va && va < l.base + l.size

/-- Who makes an access: the core and C-die it translates through, its context and activation, and what a page fault's
event says of it (R388). -/
structure Who where
  core : Option Nat := none
  die : Nat := 0
  ctx : BitVec 12
  act : BitVec 16 := 0
  hid : BitVec 8 := 0
  tag : BitVec 32 := 0
  block : BitVec 32 := 0
  index : Nat := 0
  kind : BitVec 8 := 0
  /-- The work a read of it is for (R238). -/
  job : Nat := 0
deriving DecidableEq, Repr, Inhabited

namespace State

/-- A cached translation: the core's micro-TLB first, then the die's slice. -/
def cachedLeaf (s : State) (w : Who) (va : Nat) : Option Leaf :=
  let mine := match w.core with
    | some c => (s.core c).utlb.find? fun l => l.covers w.ctx va
    | none => none
  match mine with
  | some l => some l
  | none => ((nget s.xlt.leaves (w.die * 16 + sliceOf va)).getD []).find? fun l => l.covers w.ctx va

/-- The translation of a virtual address: cached, or by a walk. -/
def translate (s : State) (w : Who) (va : Nat) : Walked :=
  match s.cachedLeaf w va with
  | some l => .leaf l
  | none => (s.walk (w.die * 16 + sliceOf va) w.ctx va).1

/-- Puts an entry into a cache of so many, replacing a freely chosen one (R395). -/
def cachePut {α : Type} [DecidableEq α] (s : State) (cap : Nat) (l : List α) (x : α) : List α × State :=
  if l.contains x then (l, s)
  else if l.length < cap then (l ++ [x], s)
  else let (i, s) := s.pick cap
       (ldrop l i ++ [x], s)

/-- Records what an access's translation found in the micro-TLB and the slice. No cache holds an absent entry. -/
def fillXlt (s : State) (w : Who) (va : Nat) : State :=
  match s.cachedLeaf w va with
  | some l => match w.core with
    | some c =>
      let (u, s) := cachePut s Config.utlbEntries (s.core c).utlb l
      s.modCore c fun k => { k with utlb := u }
    | none => s
  | none =>
    let i := w.die * 16 + sliceOf va
    match s.walk i w.ctx va with
    | (.leaf l, path) =>
      let (ls, s) := cachePut s Config.sliceLeaves ((nget s.xlt.leaves i).getD []) l
      let (ns, s) := path.reverse.foldl (fun (p : List NonLeaf × State) e => cachePut p.2 Config.sliceNonLeaves p.1 e)
        ((nget s.xlt.nonLeaves i).getD [], s)
      let s := { s with xlt := { s.xlt with leaves := nput s.xlt.leaves i ls, nonLeaves := nput s.xlt.nonLeaves i ns } }
      match w.core with
      | some c =>
        let (u, s) := cachePut s Config.utlbEntries (s.core c).utlb l
        s.modCore c fun k => { k with utlb := u }
      | none => s
    | _ => s

/-! ### Page faults (R388, R398) -/

/-- Opens or joins the page fault of an address: its ID and the state, or none while a new fault must wait (R398, R412). -/
def openFault (s : State) (w : Who) (va : Nat) : Option (BitVec 32 × State) :=
  let page := va / 4096 * 4096
  match s.xlt.faults.find? fun f => f.ctx == w.ctx && f.page == page with
  | some f => some (f.id, s)
  | none =>
    if Config.maxFaults ≤ s.xlt.faults.length || Config.eventQueue ≤ s.host.evQueue.length then none
    else
      let id := s.xlt.nextFault
      let new : PFault := { id, ctx := w.ctx, page }
      let s := { s with xlt := { s.xlt with faults := s.xlt.faults ++ [new], nextFault := (id + 1 : BitVec 32) } }
      let words : List Word := [w.tag ++ id, BitVec.ofNat 64 va, BitVec.ofNat 64 page,
        (0x07 : BitVec 24) ++ BitVec.ofNat 8 w.index ++ w.block, 0, 0, 0]
      some (id, s.event { typ := 2, sub := w.kind, ctx := w.ctx, act := w.act, byCtx := true, words })

end State

/-! ### The checks of an access (R154 to R159, R394) -/

/-- The kinds of access R394 tells apart. -/
inductive AccKind | read | write | rw | exec
deriving DecidableEq, Repr, Inhabited

def AccKind.writes : AccKind → Bool
  | .write | .rw => true
  | _ => false

def trapWindow (a : Word) : Trap := { cause := 0x05, addr := a }
def trapAlign (a : Word) : Trap := { cause := 0x06, addr := a }
def trapProt (reason : BitVec 8) (a : Word) (aux : Nat := 0) : Trap :=
  { cause := 0x08, reason, addr := a, aux := BitVec.ofNat 63 aux }
def trapSpec (a : Word) : Trap := { cause := 0x0F, addr := a }
def trapEcc (a : Word) (structure_ : Nat) : Trap := { cause := 0x11, addr := a, aux := BitVec.ofNat 63 structure_ }

/-- Whether a byte's address keeps its window's layout (R153). -/
def inWindow (a : Nat) : Bool :=
  match a / 2 ^ 60 with
  | 0 => a < 2 ^ 57
  | 1 => a / 2 ^ 48 % 2 ^ 12 == 0 && a / 2 ^ 22 % 2 ^ 18 == 0
  | 2 => a % 2 ^ 60 < 2 ^ 22
  | 3 => a % 2 ^ 60 < 2 ^ 27
  | _ => false

/-- The addresses of an access's bytes, with the wrap at 2^64. -/
def byteAddrs (a : Word) (n : Nat) : List Nat := (List.range n).map fun i => (a + BitVec.ofNat 64 i).toNat

/-- R154 for an access of the executing core: whether it stays in one window, within its bank and on its C-die. -/
def windowOk (core : Nat) (only0 : Bool) (a : Word) (n : Nat) : Bool :=
  let bs := byteAddrs a n
  let w := a.toNat / 2 ^ 60
  bs.all (fun b => b / 2 ^ 60 == w && inWindow b) && (!only0 || w == 0) &&
    match w with
    | 1 => bs.all fun b => dieOf (b / 2 ^ 40 % 256) == dieOf core
    | 2 => bs.all fun b => b / 2 ^ 17 == a.toNat / 2 ^ 17 && b / 2 ^ 17 % 32 < 24
    | 3 => bs.all fun b => b / 2 ^ 17 == a.toNat / 2 ^ 17 && b / 2 ^ 17 % 32 < 24
    | _ => true

namespace State

/-- Whether a frame lies in a live allocation of the context or is the frame of one of its parked instances (R340). -/
def frameOpen (s : State) (n : BitVec 12) (c j : Nat) : Bool :=
  let k := s.core c
  j < k.frames && (k.allocs.any (fun a => a.ctx == n && a.first ≤ j && j < a.first + a.count)
    || k.entries.any fun e => e.frame == j && e.ctx == n && match e.state with | .parked .. => true | _ => false)

/-- The place of a byte of windows 1 to 3, or none where R157 forbids it. -/
def sramPlace (s : State) (n : BitVec 12) (core b : Nat) : Option Place :=
  match b / 2 ^ 60 with
  | 1 =>
    let c := b / 2 ^ 40 % 256
    let j := b / 128 % 2 ^ 15
    if s.frameOpen n c j then some (.sram c ((s.core c).frameAddr j + b % 128)) else none
  | 2 => if (s.core core).role (b / 2 ^ 17 % 32) == 1 then some (.sram core (b % 2 ^ 22)) else none
  | _ =>
    let c := dieOf core * 32 + b / 2 ^ 22 % 32
    if (s.core c).role (b / 2 ^ 17 % 32) == 1 then some (.sram c (b % 2 ^ 22)) else none

/-- Whether some of the bytes lie in a graph image of the context that the loader holds (R70): one of a live activation, or
one in the loader's table of loaded images (R329). -/
def inImage (s : State) (n : BitVec 12) (va len : Nat) : Bool :=
  let hit (c : BitVec 12) (a size : Nat) : Bool := c == n && decide (va < a + size ∧ a < va + len)
  s.acts.any (fun p => hit p.2.ctx p.2.image p.2.size) || s.loader.images.any fun i => hit i.ctx i.va i.size

/-- Whether all of the bytes do: the loader has mapped those with R and X set (R70, R394), whatever the owner's leaf says. -/
def wholeImage (s : State) (n : BitVec 12) (va len : Nat) : Bool :=
  let holds (c : BitVec 12) (a size : Nat) : Bool := c == n && decide (a ≤ va ∧ va + len ≤ a + size)
  s.acts.any (fun p => holds p.2.ctx p.2.image p.2.size) || s.loader.images.any fun i => holds i.ctx i.va i.size

/-- Whether a page's SEC breaks R423: against the world of the memory at an address of this package, or of the key slot it names. -/
def secBreach (s : State) (sec : Bool) (pa : Nat) (key : BitVec 8) : Bool :=
  sec != s.regionWorld pa || (!sec && (s.keySlot key).world)

/-- A leaf that breaks R423. One of another package's memory is judged at its home, which alone holds the regions and key slots that
the leaf's PA and KEY mean (assumption log 40). -/
def worldBreach (s : State) (l : Leaf) (va : Nat) : Bool :=
  if l.host then l.sec else l.pkg == s.pkg && s.secBreach l.sec (l.addr va) l.key

/-- Whether R423 forbids a context a page, or R394 for its world. -/
def leafBarred (s : State) (n : BitVec 12) (l : Leaf) (va : Nat) : Bool := (l.sec && !(s.ctx n).desc.secure) || s.worldBreach l va

/-- Counts an access refused under R423, or an access of the host port refused under R422. -/
def deny (s : State) : State :=
  { s with sec := { s.sec with denied := if s.sec.denied = 0xFFFFFFFF then s.sec.denied else s.sec.denied + 1 } }

/-- The reason a valid translation forbids an access of `len` bytes of one page (R70, R394, R423), or none. -/
def leafDenies (s : State) (n : BitVec 12) (l : Leaf) (va len : Nat) (k : AccKind) : Option (BitVec 8) :=
  if s.leafBarred n l va then some 0x72
  else
    let image := s.inImage n va len
    let ok := match k with
      | .read => l.readable || s.wholeImage n va len
      | .write => l.writable
      | .rw => l.readable && l.writable
      | .exec => l.executable || s.wholeImage n va len
    if !ok || (k.writes && image) then some 0x71 else none

/-- The engine of a range that locks the bytes against a load or a store of the context (R159). -/
def lockHit (s : State) (n : BitVec 12) (a len : Nat) (store : Bool) : Option Lock :=
  s.homes.locks.find? fun l => l.ctx == n && l.lo < a + len && a < l.hi && (l.dest || store)

/-- The place of a byte of window 0 under its translation. -/
def leafPlace (s : State) (core : Option Nat) (l : Leaf) (va : Nat) : Place :=
  if l.host then .host (l.addr va)
  else if l.pkg != s.pkg then .remote l.pkg (l.addr va) l.key l.sec
  else
    let banks := match core with
      | some c => (s.core c).banks 2
      | none => 0
    .home (l.addr va) (l.cacheable && banks != 0) l.key

end State

def Place.host? : Place → Bool
  | .host _ => true
  | _ => false

def Place.away : Place → Bool
  | .remote .. | .host _ => true
  | _ => false

/-- What the checks of an access answer: the places of its bytes, a trap, or that it must wait. -/
inductive Checked
  | ok (places : List Place) (s : State)
  | trap (t : Trap) (s : State)
  | wait
deriving DecidableEq, Repr, Inhabited

namespace State

/-- The first address of each 4 KiB page an access touches, with the access's own start first. -/
def pageStarts (a n : Nat) : List Nat :=
  if n = 0 then [] else (List.range ((a + n - 1) / 4096 - a / 4096 + 1)).map fun i => max a ((a / 4096 + i) * 4096)

/-- R157 orders 3 and 4 for bytes of window 0: page faults, then SPECULATIVE_ATOMIC for a store that leaves the package,
then PROTECTION by R394's order. `specStore` marks a store under a HID. -/
def checkPages (s : State) (w : Who) (a n : Nat) (k : AccKind) : Checked :=
  let starts := pageStarts a n
  let got := starts.map fun p => (p, s.translate w p)
  let leaves := got.filterMap fun p => match p.2 with
    | .leaf l => some (p.1, l)
    | _ => none
  let addr : Word := BitVec.ofNat 64 a
  let away := leaves.any fun p => p.2.host || p.2.pkg != s.pkg
  if w.hid != 0 && k.writes && away then .trap (trapSpec addr) s
  else match got.find? fun p => p.2 == .absent with
    | some (p, _) => match s.openFault w p with
      | some (id, s) => .trap { cause := 0x07, addr := BitVec.ofNat 64 p, fault := some id } s
      | none => .wait
    | none =>
      if got.any fun p => p.2 == .malformed then .trap (trapProt 0x70 addr) s
      else
        let den := leaves.filterMap fun p => s.leafDenies w.ctx p.2 p.1 (min (a + n) ((p.1 / 4096 + 1) * 4096) - p.1) k
        if den.contains 0x72 then .trap (trapProt 0x72 addr) (if leaves.any (fun p => s.worldBreach p.2 p.1) then s.deny else s)
        else if den.contains 0x71 then .trap (trapProt 0x71 addr) s
        else
          let s' := starts.foldl (fun s p => s.fillXlt w p) s
          .ok ((List.range n).map fun i =>
            match leaves.find? fun p => p.1 / 4096 == (a + i) / 4096 with
            | some p => s.leafPlace w.core p.2 (a + i)
            | none => .host 0) s'

/-- The checks of a lane's access, R157 orders 1 to 5: `align` is the alignment R155 asks for, `only0` marks an
instruction confined to window 0, `atomic` one that R157 forbids under a HID. -/
def check (s : State) (core : Nat) (w : Who) (a : Word) (n align : Nat) (k : AccKind) (only0 atomic : Bool) : Checked :=
  if !windowOk core only0 a n then .trap (trapWindow a) s
  else if a.toNat % align != 0 then .trap (trapAlign a) s
  else if w.hid != 0 && (atomic || (k.writes && a.toNat / 2 ^ 60 != 0)) then .trap (trapSpec a) s
  else if a.toNat / 2 ^ 60 = 0 then
    match s.checkPages w a.toNat n k with
    | .ok pl s => match s.lockHit w.ctx a.toNat n k.writes with
      | some l => .trap { cause := 0x09, addr := a, aux := BitVec.ofNat 63 (l.owner % 256) } s
      | none => .ok pl s
    | r => r
  else
    let pl := (byteAddrs a n).map fun b => s.sramPlace w.ctx core b
    if pl.all (·.isSome) then .ok (pl.filterMap id) s else .trap (trapProt 0 a) s

end State

/-! ### Reading places -/

/-- The lines of places that are read at their homes come into the L2 (R255). -/
def State.enterPlaces (s : State) (pl : List Place) : State :=
  pl.foldl (fun s p => match p with
    | .home pa _ slot => s.l2Enter [] slot (lineOf pa)
    | _ => s) s

/-- The fills a load asks for come first, so that what it then reads of a line is of one instant (R155, R212). None where one must wait. -/
def fillPlaces (c : Nat) (n : BitVec 12) (h : BitVec 8) : List Place → State → Option State
  | [], s => some s
  | .home pa true slot :: r, s => (s.l1Byte c slot n h pa).bind fun x => fillPlaces c n h r x.2
  | _ :: r, s => fillPlaces c n h r s

/-- Reads bytes one after the other. -/
def readEach (c : Nat) (n : BitVec 12) (h : BitVec 8) : List Place → State → Option ((List (Option Byte) × Bool) × State)
  | [], s => some (([], false), s)
  | p :: r, s =>
    let one : Option ((Option Byte × Bool) × State) := match p with
      | .home pa true slot => (s.l1Byte c slot n h pa).map fun x => ((some x.1.1, x.1.2), x.2)
      | .home pa false slot => (s.drainHome c).map fun s => let v := s.viewByte n h slot pa
                                                            ((some v.1, v.2), s.enterPlaces [p])
      | .sram cc a => some ((some (mget (s.core cc).sram a), (s.core cc).badIn a 1), s)
      | .remote .. => some ((none, false), s)
      | .host _ => some ((none, false), s)
      | .given b => some ((some b, false), s)
    match one with
    | none => none
    | some ((b, e), s) => match readEach c n h r s with
      | none => none
      | some ((bs, e'), s) => some ((b :: bs, e || e'), s)

/-- Reads bytes as far as the package holds them; bytes of other packages and of the host stay open. The flag says that
some byte is uncorrectable. None where the read must wait. -/
def readPlaces (c : Nat) (n : BitVec 12) (h : BitVec 8) (pl : List Place) (s : State) : Option ((List (Option Byte) × Bool) × State) :=
  (fillPlaces c n h pl s).bind (readEach c n h pl)

/-- A byte an engine reads at its coherence point: committed data only (R382). A byte of another package or of the host that no read was
answered for comes from outside, so it is free (assumption log 15). -/
def engByte (s : State) (p : Place) : Byte :=
  match p with
  | .home pa _ slot => s.homeByte slot pa
  | .sram c a => mget (s.core c).sram a
  | .remote pkg pa _ _ => Config.freeByte (s.flow.freeCtr * 2 ^ 70 + pkg.toNat * 2 ^ 52 + pa)
  | .host a => Config.freeByte (s.flow.freeCtr * 2 ^ 70 + 2 ^ 69 + a)
  | .given b => b

/-- Whether a place's byte is uncorrectable (R343). -/
def engPoison (s : State) (p : Place) : Bool :=
  match p with
  | .home pa _ _ => (s.line (lineOf pa)).poison
  | .sram c a => (s.core c).badIn a 1
  | _ => false

end Sys2Proof.Machine
end

