-- ==== Sys2Proof/Machine/Network.lean ====
section
/-! DEFINITION. The networks (R134 to R137, R189, R195, R234 to R238): routes and egress ports, requests to other
packages and the host, reads and writes of agents by virtual address, spill tables, and sending a token. -/

namespace Sys2Proof.Machine

/-! ### Egress (R234, R235, R422) -/

/-- The egress ports of a routing entry that may carry a packet now, in ascending order: those that are not down (a port that
retrains keeps its flows, so that they stay in order); a secure context's packets take
secure ports only. -/
def portsFor (s : State) (r : Route) (secure : Bool) : List Nat :=
  (List.range 64).filter fun q => r.ports.getLsbD q && ((nget s.links.ports q).getD {}).state != .down
    && (!secure || s.sec.portWorld.getLsbD q)

/-- PathPort (R235). -/
def pathPort (s : State) (r : Route) (secure : Bool) (src t : Nat) : Option Nat :=
  let q := portsFor s r secure
  q[(((src * 0x9E3779B1 + t * 0x85EBCA6B) % 2 ^ 32) * q.length) / 2 ^ 32]?

/-! ### Flits on their way out (R231, R232) -/

/-- One bit of CRC-64/ECMA-182. -/
def crcBit (c : Word) : Word := if c.getLsbD 63 then (c <<< 1) ^^^ 0x42F0E1EBA9EA3693 else c <<< 1

/-- CRC-64/ECMA-182 of bytes. -/
def crc64 (bs : List Byte) : Word :=
  bs.foldl (fun c b => (List.range 8).foldl (fun c _ => crcBit c) (c ^^^ ((b.setWidth 64 : Word) <<< 56))) 0

/-- The 246 bytes of a body that is open (R231). -/
def openBody (f : Nat → Byte) : List Byte := (List.range 246).map f

/-- A flit from its number, its type and its body: HDR, BODY and CRC. -/
def flitBytes (seq : BitVec 12) (typ : Nat) (body : List Byte) : List Byte :=
  let bs := bytesOfNat 2 (seq.toNat * 16 + typ * 4) ++ body
  bs ++ bytesOfWord (crc64 bs)

/-- The kind of an access or an answer (R231: the kinds are numbered in the order the rule names them). -/
def reqKind (r : RemoteReq) : Nat :=
  match r.what with
  | 0 | 7 => 1
  | 1 | 8 | 14 => 2
  | 15 => if r.ord then 5 else 2
  | 2 | 13 => 3
  | 3 => 4
  | 4 => 5
  | _ => 6

/-- What PathPort chooses a packet's port by (R235): its core and its destination home slice where it comes from a core; else 0xFF, and
for t, which R235 does not give a packet that goes to no home slice, the number of the core it concerns (DESIGN CHOICE, assumption log
12). A package that passes it on chooses alike. -/
def reqPath (r : RemoteReq) : Nat × Nat :=
  match r.what with
  | 0 | 1 | 2 | 3 | 4 | 7 | 8 | 10 | 13 | 14 | 15 => (r.srcCore.toNat, homeSlice (lineOf r.pa))
  | _ => (0xFF, r.srcCore.toNat)

/-- The bytes of a packet: its link header, and the body of its kind (R231, R34). -/
def Packet.bytes (p : Packet) : List Byte :=
  let whole (kind hops : Nat) (body : List Byte) : List Byte :=
    bytesOfNat 4 (Config.linkHeaderOf kind (4 + body.length) hops).toNat ++ body
  match p with
  | .token t => whole 0 0 (t.words.map bytesOfWord).flatten
  | .access dst r => whole (reqKind r) 0 (Config.linkBodyOf (reqKind r) dst r)
  | .pass _ kind hops body => whole kind hops body

/-- The bytes of a port's packets that are not acknowledged. -/
def Port.stream (x : Port) : List Byte := ((x.out.map (·.bytes)).flatten).drop x.skip

/-- The flits that are whole and within the replay buffer. -/
def Port.flits (x : Port) : Nat := min Config.replayFlits (x.stream.length / 246)

/-- The body of one of them. -/
def Port.flitBody (x : Port) (k : Nat) : List Byte := (x.stream.drop (246 * k)).take 246

namespace State

/-- The port towards a package from an X-die's table, or none where no valid route has a port up. -/
def egress (s : State) (xdie : Nat) (dst : BitVec 12) (secure : Bool) (src t : Nat) : Option Nat :=
  match nget s.links.routes (xdie * 4096 + dst.toNat) with
  | some r => if r.valid then pathPort s r secure src t else none
  | none => none

/-- Puts a flit on a port's wire. -/
def emit (s : State) (q : Nat) (flit : List Byte) : State := { s with links := { s.links with wire := s.links.wire ++ [(q, flit)] } }

/-- Puts a run of a port's data flits on the wire, from one number on. -/
def emitRun (s : State) (q k n : Nat) : State :=
  let x := (nget s.links.ports q).getD {}
  (List.range n).foldl (fun s i => s.emit q (flitBytes (x.sendSeq + BitVec.ofNat 12 (k + i)) 0 (x.flitBody (k + i)))) s

/-- A port that is up sends the flits it has whole, as far as its replay buffer goes (R231, R232). -/
def pump (s : State) (q : Nat) : State :=
  let x := (nget s.links.ports q).getD {}
  if x.state != .up || x.flits ≤ x.sent then s
  else
    let s := s.emitRun q x.sent (x.flits - x.sent)
    { s with links := { s.links with ports := nput s.links.ports q { x with sent := x.flits } } }

/-- Hands a packet to a port. -/
def putPort (s : State) (q : Nat) (p : OutPkt) : State :=
  let x := (nget s.links.ports q).getD {}
  State.pump { s with links := { s.links with ports := nput s.links.ports q { x with out := x.out ++ [p] } } } q

/-- Sends a packet of this package (its own traffic leaves by X-die 0's table, assumption log 17). False: no route. -/
def sendPacket (s : State) (dst : BitVec 12) (secure : Bool) (src t : Nat) (p : Packet) : Bool × State :=
  match s.egress 0 dst secure src t with
  | some q => (true, s.putPort q { pkt := p, secure, src, t, bytes := p.bytes })
  | none => (false, s)

/-- Whether a packet is a loader's message (assumption log 22). -/
def loaders (q : RemoteReq) : Bool := (16 ≤ q.what && q.what ≤ 22) || q.what == 25

/-- Sends what an agent of this package answers or orders on behalf of a context: no core is its source (R235). A loader's message
that no route takes is kept, in its turn, for the route's return: each counts (R182; assumption log 22). -/
def sendBack (s : State) (dst : BitVec 12) (n : BitVec 12) (q : RemoteReq) : State :=
  let q := { q with ctx := n }
  let r := s.sendPacket dst (s.ctx n).desc.secure (reqPath q).1 (reqPath q).2 (.access dst q)
  if loaders q && (!r.1 || s.links.late.any fun m => m.1 == dst) then
    { s with links := { s.links with late := s.links.late ++ [(dst, q)] } }
  else r.2

/-- The loaders' messages kept for a package are sent. -/
def sendLate (s : State) (p : BitVec 12) : State :=
  (s.links.late.filter fun m => m.1 == p).foldl (fun s m => s.sendBack p m.2.ctx m.2)
    { s with links := { s.links with late := s.links.late.filter fun m => m.1 != p } }

/-- Sends a request of a core or agent to a home of another package; it is remembered until it is answered. Without a
route it stays outstanding, for ROUTE_LOST to end (R236). -/
def sendAccess (s : State) (dst : BitVec 12) (src : Nat) (q : RemoteReq) (what : Pending) : State :=
  let rel : Bool := q.what == 8 || (q.what == 2 && (q.sync == .rel || q.sync == .ar))
  let signs : Bool := match what with
    | .engine .. => true
    | _ => q.what == 2
  let r : Request := { id := q.id, pkg := some dst, ctx := q.ctx, what, again := if rel then some q else none,
                       line := if signs then some (lineOf q.pa) else none }
  let s : State := { s with reqs := s.reqs ++ [r] }
  (s.sendPacket dst (s.ctx q.ctx).desc.secure src (homeSlice (lineOf q.pa)) (.access dst q)).2

/-- A request to the host through the host-link agent. -/
def sendHost (s : State) (n : BitVec 12) (id : Nat) (o : HostOut) (what : Pending) : State :=
  { s with reqs := s.reqs ++ [{ id, pkg := none, ctx := n, what }], host := { s.host with out := s.host.out ++ [o] } }

end State

/-! ### Reads of agents beyond the package (R211, R238) -/

/-- Whether a place directly follows another in the same memory and on the same 128-byte line (R155). -/
def follows : Place → Place → Bool
  | .home a _ k, .home b _ k' => b == a + 1 && lineOf a == lineOf b && k == k'
  | .remote p a _ _, .remote q b _ _ => p == q && b == a + 1 && lineOf a == lineOf b
  | .host a, .host b => b == a + 1 && lineOf a == lineOf b
  | _, _ => false

/-- The place so many bytes on in the same memory. -/
def Place.plus (p : Place) (k : Nat) : Place :=
  match p with
  | .home a c slot => .home (a + k) c slot
  | .remote g a slot sec => .remote g (a + k) slot sec
  | .host a => .host (a + k)
  | p => p

/-- The runs an agent asks for to read some places beyond the package: of one line, and of the host's memory 16 bytes at most. -/
def readRuns : List Place → List (Place × Nat) → List (Place × Nat)
  | [], acc => acc.reverse
  | p :: r, (q, n) :: acc =>
    if p.away && follows (q.plus (n - 1)) p && !(q.host? && n == 16) then readRuns r ((q, n + 1) :: acc)
    else readRuns r (if p.away then (p, 1) :: (q, n) :: acc else (q, n) :: acc)
  | p :: r, [] => readRuns r (if p.away then [(p, 1)] else [])

/-- The byte of a place that an answered read has, or the place itself. -/
def Place.fromReads (l : List AgentRead) (p : Place) : Place :=
  match p with
  | .sram .. => p
  | p => match l.findSome? fun r => match r.ans with
      | some (.bytes bs) => ((List.range r.len).find? fun k => r.at_.plus k == p).bind fun k => bs[k]?
      | _ => none with
    | some b => .given b
    | none => p

/-- What an agent that reads places finds: its bytes, a trap, or that it is to ask again once an answer has come. -/
inductive Sought
  | got (pl : List Place)
  | fails (t : Trap)
  | later (s : State)
deriving DecidableEq, Repr, Inhabited

namespace State

/-- Asks for a run of bytes for an agent's work. -/
def askRead (s : State) (w : Who) (r : Place × Nat) : State :=
  let (id, s) := s.newId
  let e : AgentRead := { kind := w.kind, ctx := w.ctx, job := w.job, id, at_ := r.1, len := r.2 }
  let s := { s with eng := { s.eng with reads := s.eng.reads ++ [e] } }
  match r.1 with
  | .remote pkg pa key sec =>
    let q : RemoteReq := { (default : RemoteReq) with
      what := 0, srcPkg := s.pkg, srcCore := BitVec.ofNat 8 (w.core.getD 0xFF), ctx := w.ctx, id, pa, len := r.2, key, sec }
    s.sendAccess pkg (w.core.getD 0xFF) q .read
  | .host a => s.sendHost w.ctx id (.read a r.2 id) .read
  | _ => s

/-- An agent's read of places: what lies beyond the package is asked for at its home, once for the work, and the read is made again with
each answer (R211, R229, R238). -/
def seek (s : State) (w : Who) (pl : List Place) : Sought :=
  if pl.all fun p => !p.away then .got pl
  else
    let mine := s.eng.reads.filter fun r => r.kind == w.kind && r.ctx == w.ctx && r.job == w.job
    let runs := readRuns pl []
    let asked (r : Place × Nat) : Option AgentRead := mine.find? fun e => e.at_ == r.1 && e.len == r.2
    let open_ := runs.filter fun r => (asked r).isNone
    if !open_.isEmpty then .later (open_.eraseDups.foldl (fun s r => s.askRead w r) s)
    else match runs.findSome? fun r => match (asked r).bind (·.ans) with
        | some (.trap t) => some t
        | _ => none with
      | some t => .fails t
      | none =>
        if runs.any fun r => ((asked r).bind (·.ans)).isNone then .later s else .got (pl.map (Place.fromReads mine))

/-- A piece of work is done with what it has read. -/
def forget (s : State) (p : AgentRead → Bool) : State := { s with eng := { s.eng with reads := s.eng.reads.filter fun r => !p r } }

/-- A piece of work is done, and what it has read is used. -/
def forgetJob (s : State) (w : Who) : State := s.forget fun r => r.kind == w.kind && r.ctx == w.ctx && r.job == w.job

/-- An answer to an agent's read. A chord's instruction that waits for it is executed again. -/
def readAnswered (s : State) (id : Nat) (a : ReadAns) : State :=
  match s.eng.reads.find? fun r => r.id == id with
  | none => s
  | some r =>
    let again (ch : Chord) : Chord := match ch.waits.find? fun w => w.redo == some r.job with
      | some w => { ch with pc := w.idx, waits := ch.waits.filter fun x => x.id != w.id }
      | none => ch
    { s with
      eng := { s.eng with reads := s.eng.reads.map fun x => if x.id = id then { x with ans := some a } else x }
      cores := if r.kind = 0 then s.cores.map fun c => (c.1, { c.2 with chords := c.2.chords.map fun x => (x.1, again x.2) }) else s.cores }

/-! ### Memory of a context, read and written by agents (R229, R325) -/

/-- The place of a byte of a context's window 0, as an agent translates it; none where no page is resident, or none that the context may
reach (R394, R423). -/
def placeBy (s : State) (w : Who) (va : Nat) : Option Place :=
  match s.translate w va with
  | .leaf l => if s.leafBarred w.ctx l va then none else some (s.leafPlace w.core l va)
  | .absent => none
  | .malformed => none

/-- One that translates through the caches of a C-die. -/
def placeFrom (s : State) (die : Nat) (n : BitVec 12) (va : Nat) : Option Place := s.placeBy { die, ctx := n } va

def vplace (s : State) (n : BitVec 12) (va : Nat) : Option Place := s.placeFrom 0 n va

/-- Whether R423 refuses a page of an access. -/
def breachAt (s : State) (w : Who) (a n : Nat) : Bool :=
  (pageStarts a n).any fun p => match s.translate w p with
    | .leaf l => s.worldBreach l p
    | _ => false

/-- Counts an access that R423 refused, if it was one (R421). -/
def denyIf (s : State) (denied : Bool) : State := if denied then s.deny else s

/-- Counts what R423 refuses of an agent's access to a context's memory (R421). -/
def denyPages (s : State) (n : BitVec 12) (va len : Nat) : State := s.denyIf (s.breachAt { ctx := n } va len)

def vbyte (s : State) (n : BitVec 12) (va : Nat) : Option Byte := (s.vplace n va).map (engByte s)

/-- Bytes at their coherence points; a byte on no page reads 0x00 here, its callers having checked the pages. -/
def vbytes (s : State) (n : BitVec 12) (va len : Nat) : List Byte := (List.range len).map fun i => (s.vbyte n (va + i)).getD 0

def vword (s : State) (n : BitVec 12) (va : Nat) : Word := wordOfBytes (s.vbytes n va 8)

def vnat (s : State) (n : BitVec 12) (va len : Nat) : Nat := natOfBytes (s.vbytes n va len)

/-- The place of a byte of a spill table or a save area: its key is that of the region that holds the line (R424). -/
def aplace (s : State) (n : BitVec 12) (va : Nat) : Option Place := (s.vplace n va).map fun p => match p with
  | .home pa c _ => .home pa c (s.regionKey pa)
  | p => p

/-- Bytes of a spill table or a save area. -/
def abytes (s : State) (n : BitVec 12) (va len : Nat) : List Byte :=
  (List.range len).map fun i => ((s.aplace n (va + i)).map (engByte s)).getD 0

end State

/-- Joins bytes at consecutive places of one line into runs. -/
def placeRuns : List (Place × Byte) → List (Place × List Byte) → List (Place × List Byte)
  | [], acc => (acc.map fun (p : Place × List Byte) => (p.1, p.2.reverse)).reverse
  | (p, b) :: r, (q, bs) :: acc =>
    if follows (q.plus (bs.length - 1)) p then placeRuns r ((q, b :: bs) :: acc) else placeRuns r ((p, [b]) :: (q, bs) :: acc)
  | (p, b) :: r, [] => placeRuns r [(p, [b])]

/-- Whether an engine is a copy engine, whose packets are of kind copy (R231). -/
def copies : Option Nat → Bool
  | some e => decide (e < 32)
  | none => false

/-- An agent's write of a run at its home; a run for another package or the host leaves as a request, for the agent's job it is a
part of. `e` is the engine whose signature takes the lines, if any, once they are accepted (R227). -/
def putRun (n : BitVec 12) (e : Option Nat) (job : Nat) (s : State) (r : Place × List Byte) : State :=
  match r.1 with
  | .home pa _ slot => s.acceptBytes slot pa r.2 (match e with
    | some e => .engine e
    | none => .other)
  | .sram c a => s.modCore c fun k => k.putSram a r.2
  | .remote pkg pa slot sec =>
    let (id, s) := s.newId
    let q : RemoteReq := { (default : RemoteReq) with
      what := if copies e then 4 else 1, srcPkg := s.pkg, srcCore := 0xFF, ctx := n, id, pa, len := r.2.length, key := slot, sec,
      data := BitVec.ofNat 1024 (natOfBytes r.2) }
    s.sendAccess pkg 0xFF q (.engine (e.getD 1000) job)
  | .host a =>
    let (id, s) := s.newId
    s.sendHost n id (.write a r.2 (some id)) (.engine (e.getD 1000) job)
  | .given _ => s

/-- An agent's write of bytes, in order. -/
def putPlaces (n : BitVec 12) (e : Option Nat) (bs : List (Place × Byte)) (s : State) (job : Nat := 0) : State :=
  (placeRuns bs []).foldl (putRun n e job) s

/-- Whether writes of an engine's job are not yet accepted at their homes (R227, R277, R280). -/
def State.writesOut (s : State) (e job : Nat) : Bool := s.heldFrom (.engine e) || s.reqs.any fun q => q.what == .engine e job

/-- An agent's write of some bits of a byte; on the host the other bits are written too, and are open (assumption log 15). -/
def putBits (n : BitVec 12) (e : Option Nat) (job : Nat) (p : Place) (mask val : Byte) (s : State) : State :=
  match p with
  | .remote pkg pa slot sec =>
    let (id, s) := s.newId
    let q : RemoteReq := { (default : RemoteReq) with
      what := if mask != 0xFF then 15 else if copies e then 4 else 1, srcPkg := s.pkg, srcCore := 0xFF, ctx := n, id, pa, len := 1,
      key := slot, sec, data := val.setWidth 1024, cmp := mask.setWidth 64, ord := copies e }
    s.sendAccess pkg 0xFF q (.engine (e.getD 1000) job)
  | _ => putPlaces n e [(p, (engByte s p &&& ~~~mask) ||| (val &&& mask))] s job

namespace State

/-- An agent's write of bytes at a virtual address, which it translates on a C-die; bytes on no page are dropped, and what R423 refuses is
counted. -/
def vput (s : State) (n : BitVec 12) (e : Option Nat) (va : Nat) (bytes : List Byte) (die : Nat := 0) : State :=
  putPlaces n e (bytes.zipIdx.filterMap fun p => (s.placeFrom die n (va + p.2)).map fun pl => (pl, p.1))
    (s.denyIf (s.breachAt { die, ctx := n } va bytes.length))

/-- A write to a spill table or a save area (R424). -/
def aput (s : State) (n : BitVec 12) (va : Nat) (bytes : List Byte) : State :=
  putPlaces n none (bytes.zipIdx.filterMap fun p => (s.aplace n (va + p.2)).map fun pl => (pl, p.1))
    (s.denyIf (s.breachAt { ctx := n } va bytes.length))

def vputWord (s : State) (n : BitVec 12) (va : Nat) (w : Word) : State := s.vput n none va (bytesOfWord w)

/-! ### Placements and domains (R134, R237) -/

/-- The cores of an activation on a package. -/
def placement (s : State) (key : Nat) (pkg : BitVec 12) : List Nat :=
  match s.act? key with
  | some a => ((a.pkgs.find? fun p => p.1 == pkg).map (·.2)).getD []
  | none => []

/-- SpreadCore (R134). -/
def spreadCore (s : State) (key : Nat) (pkg : BitVec 12) (dblock tag : BitVec 32) : Option Nat :=
  let l := s.placement key pkg
  l[(((tag.toNat * 0x9E3779B1 + dblock.toNat * 0x85EBCA6B) % 2 ^ 32) * l.length) / 2 ^ 32]?

/-- Whether a context's domain table admits a package; a table that is not resident admits none (assumption log 16). -/
def admits (s : State) (n : BitVec 12) (p : BitVec 12) : Bool :=
  match s.vbyte n ((s.ctx n).desc.domain.toNat + p.toNat / 8) with
  | some b => b.getLsbD (p.toNat % 8)
  | none => false

/-- A domain table that R423 keeps from the context is an access refused. -/
def denyDomain (s : State) (n : BitVec 12) (p : BitVec 12) : State := s.denyPages n ((s.ctx n).desc.domain.toNat + p.toNat / 8) 1

/-! ### Spill tables (R195, R341) -/

/-- The address of a spill-table slot. -/
def spillSlot (s : State) (n : BitVec 12) (i : Nat) : Nat :=
  let d := (s.ctx n).desc
  d.spill.toNat + 64 * (if d.spillN = 0 then 0 else i % d.spillN)

/-- Whether the agent holds all the tokens it may for a context's full spill table: further ones stay at their sources (R341). -/
def spillStuck (s : State) (n : BitVec 12) : Bool := decide (Config.heldSpill ≤ (s.ctx n).overflow.length)

/-- Whether a context's spill table has a free slot. -/
def spillRoom (s : State) (n : BitVec 12) : Bool := let x := s.ctx n
                                                    decide (x.spillTail - x.spillHead < x.desc.spillN)

/-- Writes a token to the tail of its context's spill table. -/
def spillStore (s : State) (t : Token) : State :=
  let x := s.ctx t.ctx
  let bytes := (t.words.map bytesOfWord).flatten
  let s := s.aput t.ctx (s.spillSlot t.ctx x.spillTail) (bytes ++ List.replicate (64 - bytes.length) 0)
  s.modCtx t.ctx fun x => { x with
    spillTail := x.spillTail + 1
    waitSince := if x.waitSince = 0 ∧ (x.st = .absent ∨ x.st = .saved) then s.cycle else x.waitSince }

end State

/-- Moves tokens the agent holds into the table while there is room (R341). -/
def refillSpill (n : BitVec 12) : Nat → State → State
  | 0, s => s
  | f + 1, s => match (s.ctx n).overflow with
    | [] => s
    | t :: r => if s.spillRoom n then refillSpill n f ((s.modCtx n fun x => { x with overflow := r }).spillStore { t with ctx := n }) else s

namespace State

/-- Appends a token to its context's spill table on this package, behind those the agent holds; a full table stops the context, and the
agent keeps the token until there is room, or the network does once the agent keeps all it may. -/
def spillPut (s0 : State) (t : Token) : State :=
  let s := refillSpill t.ctx (s0.ctx t.ctx).overflow.length s0
  let x := s.ctx t.ctx
  if s.spillRoom t.ctx && x.overflow.isEmpty then s.spillStore t
  else if s.spillStuck t.ctx then { s with net := s.net ++ [t] }
  else
    let s := s.modCtx t.ctx fun x => { x with overflow := x.overflow ++ [t] }
    let told := s.host.evWait.any fun e => e.typ == 1 && e.sub == 4 && e.ctx == t.ctx
    if told || x.st == .stopped || x.toStop || (x.st == .absent && !x.overflow.isEmpty) then s else s.escalate t.ctx 4 {}

/-- The words of a spill-table slot, and its packet. -/
def spillWords (s : State) (n : BitVec 12) (i : Nat) : List Word := wordsOfBytes 8 (s.abytes n (s.spillSlot n i) 64)
def spillAt (s : State) (n : BitVec 12) (i : Nat) : Token := Token.ofWords (s.spillWords n i)

/-- Whether a slot's packet passes R35: its flags alone give its length. -/
def slotOk (s : State) (n : BitVec 12) (i : Nat) : Bool :=
  let ws := s.spillWords n i
  let t := Token.ofWords ws
  packetOk (if t.relf || t.trapf then ws else ws.take 4)

/-- Whether a byte of a slot is uncorrectable (R343). -/
def slotBad (s : State) (n : BitVec 12) (i : Nat) : Bool :=
  (List.range 64).any fun k => match s.aplace n (s.spillSlot n i + k) with
    | some p => engPoison s p
    | none => false

/-- The core that a token is for: a token of another package is given its core here, by SpreadCore, and none where its activation has no
placement here (R134). -/
def coreFor (s : State) (t : Token) : Option Nat :=
  if t.spkg = s.pkg then some t.dcore.toNat else s.spreadCore (actKey t.ctx t.act) s.pkg t.dblock t.tag

/-- A slot's packet that breaks R35 is discarded and recorded. No port brought it, so no port counts it, and the event names port
0xFF (assumption log 12). -/
def slotError (s : State) : State := s.linkEvent 1 0xFF

/-- Counts a discarded token (R335). -/
def countDiscard (s : State) (n : BitVec 12) : State := s.modCtx n fun x => { x with discards := x.discards + 1 }

/-- A protection event to the owner (R237, R335, R411): SUB 0 a package the domain does not admit, SUB 1 a context with
no valid descriptor; the source package. -/
def protectionEvent (s : State) (sub : BitVec 8) (n : BitVec 12) (src : BitVec 12) : State :=
  s.event { typ := 5, sub, ctx := n, words := [src.setWidth 64], byCtx := sub == 0 }

/-! ### Sending (R135, R234, R236) -/

/-- Holds a token for want of a route, or spills it into the sending context's table (R236). While the agent keeps all the tokens it may
for that table, it waits at its source, in the network (R341). -/
def holdToken (s : State) (t : Token) : State :=
  if (s.links.held.filter fun h => h.dpkg == t.dpkg).length < Config.heldTokens then { s with links := { s.links with held := s.links.held ++ [t] } }
  else if s.spillStuck t.ctx then { s with net := s.net ++ [t] }
  else (s.spillPut t).linkEvent 2 t.dpkg.toNat

/-- Releases a token to the network: the package's own, or a port. Behind tokens held for the same package it is held
too, so that they leave first. -/
def sendToken (s : State) (t : Token) : State :=
  if t.dpkg = s.pkg then { s with net := s.net ++ [t] }
  else if s.links.lost.contains t.dpkg || s.links.held.any fun h => h.dpkg == t.dpkg then s.holdToken t
  else
    let src := if t.skind = 0 then t.score.toNat else 0xFF
    match s.sendPacket t.dpkg (s.ctx t.ctx).desc.secure src t.dcore.toNat (.token t) with
    | (true, s) => s
    | (false, s) => s.holdToken t

end State

/-! ### Work (R330) -/

/-- Whether a saved core's state is anything at all (R330). -/
def SavedCore.holds (x : SavedCore) : Bool :=
  !(x.entries.isEmpty && x.refs.isEmpty && x.allocs.isEmpty && x.rings.isEmpty && x.streams.isEmpty && x.slots.isEmpty && x.accs.isEmpty
    && x.spawn.isEmpty && x.refused.isEmpty)

namespace State

/-- Whether the package holds a context's state: what a pre-emption saved, a resume that acts at the restore (R390), or what stands on its
cores. -/
def hasState (s : State) (n : BitVec 12) : Bool :=
  (s.ctx n).saved.any SavedCore.holds || !(s.ctx n).resumes.isEmpty || s.cores.any fun p => p.2.holds n

/-- Whether a context has work on the package (R330): a launch at step 4, a token in its spill table, or a saved state. -/
def hasWork (s : State) (n : BitVec 12) : Bool :=
  let x := s.ctx n
  s.loader.queue.any (fun q => q.ctx == n && q.num.isSome && q.placement.any fun p => p.1 == s.pkg)
    || (List.range (x.spillTail - x.spillHead)).any (fun i => (s.spillAt n (x.spillHead + i)).act != 0)
    || !x.overflow.isEmpty || s.hasState n

/-- A context that is away notes since when it has had work; once it has none it waits no longer. -/
def settleWait (s : State) (n : BitVec 12) : State :=
  let work := s.hasWork n
  s.modCtx n fun x => { x with waitSince :=
    if !work then 0 else if x.waitSince = 0 ∧ (x.st = .absent ∨ x.st = .saved) then s.cycle else x.waitSince }

end State

/-! ### End orders and tokens that are held (R335, R336) -/

/-- A message about an activation to another package's loader. -/
def State.tell (s : State) (p : BitVec 12) (what : Nat) (n : BitVec 12) (act : BitVec 16) (words : List Word) : State :=
  s.sendBack p n { (default : RemoteReq) with what, srcPkg := s.pkg, srcCore := 0xFF, id := act.toNat, words }

/-- Whether an X-die of the package holds tokens of an activation for want of a route, or their source does while the agent keeps all it may
(R236, R335, R341). -/
def State.tokensHeld (s : State) (n : BitVec 12) (act : BitVec 16) : Bool :=
  s.links.held.any (fun t => t.ctx == n && t.act == act) || s.net.any fun t => t.dpkg != s.pkg && t.ctx == n && t.act == act

/-- The acknowledgements of end orders that are owed go out, each once no X-die of the package holds a token of its activation (R335;
assumption log 22). -/
def State.payAcks (s : State) : State :=
  s.loader.quar.foldl (fun s x => match x.owed with
    | none => s
    | some p =>
      if s.tokensHeld x.ctx x.act then s
      else
        let quar := s.loader.quar.map fun y => if y = x then { y with owed := none } else y
        ({ s with loader := { s.loader with quar } } : State).tell p 18 x.ctx x.act []) s

end Sys2Proof.Machine
end

