-- ==== Sys2Proof/Machine/Record.lean ====
section
/-! DEFINITION. Record and replay (R436, R437): the log's entries, what record mode appends, and what replay allows. -/

namespace Sys2Proof.Machine

namespace State

/-! ### Recording (R436) -/

def recording (s : State) (n : BitVec 12) : Bool := s.dbg.active.contains (n, 1)
def replaying (s : State) (n : BitVec 12) : Bool := s.dbg.active.contains (n, 2)

/-- Whether what happens is held against the log: a context that replay has stopped is no longer checked while it leaves. -/
def checked (s : State) (n : BitVec 12) : Bool := s.replaying n && !(s.ctx n).toStop

/-- Word 0 of an entry. -/
def logHead (kind core : Nat) (n : BitVec 12) (act : BitVec 16) : Word :=
  BitVec.ofNat 64 (kind + core % 256 * 2 ^ 8 + n.toNat * 2 ^ 16 + act.toNat * 2 ^ 32)

/-- Appends an entry to the log; a full log ends every recording. -/
def putLog (s : State) (words : List Word) : State :=
  let d := s.dbg
  let len := 8 * words.length
  if d.recSize.toNat * 64 < d.recHead.toNat + len then
    { s with dbg := { d with active := d.active.filter fun p => p.2 != 1 } }.event { typ := 22, words := [d.recHead] }
  else
    let a := d.recBase.toNat + d.recHead.toNat
    let s := s.acceptBytes (s.regionKey a) a (words.map bytesOfWord).flatten
    { s with dbg := { d with recHead := d.recHead + BitVec.ofNat 64 len } }

/-- An entry that is no chord's. What its words 2 and 3 hold is open (assumption log 23). -/
def recordEntry (s : State) (n : BitVec 12) (kind core : Nat) (act : BitVec 16) (data : List Nat) : State :=
  if s.recording n then
    let w := Config.logWords kind data
    s.putLog [logHead kind core n act, s.links.dtime, w.1, w.2]
  else s

/-- The entry of an ingress token, whose words stand for it from then on. -/
def recordToken (s : State) (t : Token) : State :=
  if s.recording t.ctx then
    let data := t.words.map BitVec.toNat
    let s := { s with dbg := { s.dbg with tokens := (Config.logWords 1 data, t) :: s.dbg.tokens } }
    s.recordEntry t.ctx 1 0xFF t.act data
  else s

/-- The token that an entry's words 2 and 3 stand for: the one logged here under them, or an open one where none was. -/
def loggedToken (s : State) (w2 w3 : Word) : Token :=
  match s.dbg.tokens.find? fun p => p.1 == (w2, w3) with
  | some p => p.2
  | none => Token.ofWords (Config.logToken w2 w3)

/-- What an entry of a batch's words 2 and 3 stands for: what was logged here under them, or an open batch where nothing was. -/
def loggedBatch (s : State) (w2 w3 : Word) : List Nat :=
  match s.dbg.batches.find? fun p => p.1 == (w2, w3) with
  | some p => p.2
  | none => Config.logBatch w2 w3

/-- The entry of a batch, whose words stand for it from then on. -/
def recordBatch (s : State) (n : BitVec 12) (core : Nat) (data : List Nat) : State :=
  State.recordEntry { s with dbg := { s.dbg with batches := (Config.logWords 3 data, data) :: s.dbg.batches } } n 3 core 0 data

/-- The entry of a chord grant, with its lanes' tags in lane order. -/
def recordChord (s : State) (n : BitVec 12) (core slot : Nat) (act : BitVec 16) (dblock : BitVec 32) (tags : List (BitVec 32)) : State :=
  if s.recording n then
    let k := (tags.length + 7) / 8 * 8
    let padded := tags ++ List.replicate (k - tags.length) 0
    let pairs := (List.range (k / 2)).map fun i =>
      ((padded[2 * i + 1]?).getD 0 ++ (padded[2 * i]?).getD 0 : Word)
    s.putLog ([logHead 2 core n act, s.links.dtime,
      BitVec.ofNat 64 (dblock.toNat + tags.length * 2 ^ 32 + slot * 2 ^ 38), 0] ++ pairs)
  else s

end State

/-! ### Reading the log (R437) -/

/-- An entry of the log. -/
structure LogEntry where
  off : Nat
  kind : Nat
  core : Nat
  act : BitVec 16
  w2 : Word
  w3 : Word
  tags : List (BitVec 32) := []
deriving DecidableEq, Repr, Inhabited

/-- The bytes of an entry. -/
def LogEntry.len (e : LogEntry) : Nat := 32 + (e.tags.length + 7) / 8 * 32

/-- The entry at an offset, or none where the log has run out: beyond its size, or at a word that names no kind. -/
def State.logAt (s : State) (off : Nat) : Option LogEntry :=
  if s.dbg.recSize.toNat * 64 < off + 32 then none
  else
    let a := s.dbg.recBase.toNat + off
    let w (i : Nat) : Word := s.homeWord (a + 8 * i)
    let kind := (bits (w 0) 0 8).toNat
    if kind = 0 ∨ 5 < kind then none
    else
      let n := if kind = 2 then (bits (w 2) 32 6).toNat else 0
      some { off, kind, core := (bits (w 0) 8 8).toNat, act := bits (w 0) 32 16, w2 := w 2, w3 := w 3,
             tags := (List.range n).map fun i => BitVec.ofNat 32 ((w (4 + i / 2)).toNat / 2 ^ (32 * (i % 2))) }

/-- The first entry from an offset on that is not consumed and satisfies a test. -/
def findLog (s : State) (p : LogEntry → Bool) : Nat → Nat → Option LogEntry
  | 0, _ => none
  | f + 1, off => match s.logAt off with
    | none => none
    | some e => if p e && !s.dbg.taken.contains off then some e else findLog s p f (off + e.len)

namespace State

/-- The next entry of the log that satisfies a test. -/
def nextLog (s : State) (p : LogEntry → Bool) : Option LogEntry := findLog s p (s.dbg.recSize.toNat * 2) s.dbg.pos

/-- The next chord entry of a core. -/
def nextChord (s : State) (c : Nat) : Option LogEntry := s.nextLog fun e => e.kind == 2 && e.core == c

end State

/-- The replay passes the consumed entries that follow those it has passed. -/
def advanceLog : Nat → State → State
  | 0, s => s
  | f + 1, s =>
    let h := s.dbg.pos
    match s.logAt h with
    | some e =>
      if s.dbg.taken.contains h then
        advanceLog f { s with dbg := { s.dbg with pos := h + e.len, taken := s.dbg.taken.filter fun o => o != h } }
      else s
    | none => s

namespace State

/-- Consumes an entry: HEAD counts its bytes, in whatever order entries are consumed (R436); a core's next chord entry is timed from now. -/
def consumeLog (s : State) (e : LogEntry) : State :=
  let s := { s with dbg := { s.dbg with taken := s.dbg.taken ++ [e.off], recHead := s.dbg.recHead + BitVec.ofNat 64 e.len } }
  let s := if e.kind = 2 then { s with dbg := { s.dbg with nextAt := nput s.dbg.nextAt e.core s.cycle } } else s
  advanceLog s.dbg.taken.length s

/-- Replay has diverged: the context is stopped and the owner told. -/
def replayStop (s : State) (n : BitVec 12) (sub : BitVec 8) (core off : Nat) : State :=
  (s.stopCtx n).event { typ := 21, sub, words := [BitVec.ofNat 64 core, BitVec.ofNat 64 off] }

/-- A choice recorded, or under replay checked against the next entry of its kind for its core (R436, R437). -/
def logChoice (s : State) (n : BitVec 12) (kind core : Nat) (act : BitVec 16) (sub : BitVec 8) (data : List Nat) : State :=
  if s.checked n then
    match s.nextLog fun e => e.kind == kind && e.core == core with
    | none => s.replayStop n sub core s.dbg.recHead.toNat
    | some e => if (e.w2, e.w3) = Config.logWords kind data then s.consumeLog e else s.replayStop n sub core e.off
  else s.recordEntry n kind core act data

/-- A PATHLANES addition recorded, or under replay its core's next entry of that kind consumed (R436). -/
def logPath (s : State) (n : BitVec 12) (core : Nat) (act : BitVec 16) (k : Nat) : State :=
  if s.replaying n then
    match s.nextLog fun e => e.kind == 5 && e.core == core with
    | none => s
    | some e => s.consumeLog e
  else s.recordEntry n 5 core act [k]

/-- The references of a bin's instances with an entry's tags, in logged order; none unless every tag is ready there. -/
def logLanes (s : State) (c : Nat) (refs : List Ref) (e : LogEntry) : Option (List Ref) :=
  let l := e.tags.map fun t => refs.find? fun r => match (s.core c).entry? r.frame with
    | some x => x.tag == t
    | none => false
  if l.all (·.isSome) then some (l.filterMap id) else none

end State

end Sys2Proof.Machine
end

