-- ==== Sys2Proof/Machine/Operands.lean ====
section
/-! DEFINITION. Operands, predication, uniform execution and delivery (R17 to R22, R99, R132, R205, R206): the one way
in which an instruction of the chord at the focus reads its operands in every lane and hands its results on. -/

namespace Sys2Proof.Machine

/-! ### One lane's operands (R19, R21) -/

/-- The operand values of one lane; a slot that is not read holds zero. -/
structure Vals where
  a : Word := 0
  b : Word := 0
  c : Word := 0
deriving DecidableEq, Repr, Inhabited

/-- The value a producer delivered to a slot of a lane. -/
def Chord.linkVal (ch : Chord) (i : Nat) (sl : Slot) (l : Nat) : Option Word :=
  (ch.links.find? fun k => k.idx == i && k.slot == sl && k.lane == l).map (·.val)

/-- What a selector delivers (R19); none where a link's producer has not delivered yet. -/
def selVal (ch : Chord) (consts : List Word) (i : Nat) (sl : Slot) (l : Nat) (lane : Lane) : Sel → Option Word
  | .link => ch.linkVal i sl l
  | .port p => some (wordAt lane.ports p.toNat)
  | .const k => some (wordAt consts k.toNat)
  | .imm v => some (v.signExtend 64)

/-- A lane's operands at index `i`, as far as the shape and the predicate read them. -/
def laneVals (sh : Shape) (f : Flds) (ch : Chord) (consts : List Word) (i l : Nat) (lane : Lane) : Option Vals :=
  let rd (b : Bool) (sl : Slot) (x : Sel) : Option Word := if b then selVal ch consts i sl l lane x else some 0
  match rd sh.rdA .a f.a, rd sh.rdB .b f.b, rd (sh.readsC f) .c f.c with
  | some a, some b, some c => some { a, b, c }
  | _, _, _ => none

/-- The operands of every lane that holds an instance, lowest first; none until all are there (R202). -/
def gather (sh : Shape) (f : Flds) (ch : Chord) (consts : List Word) (i : Nat) : NMap Lane → Option (List (Nat × Lane × Vals))
  | [] => some []
  | (l, lane) :: r => match laneVals sh f ch consts i l lane, gather sh f ch consts i r with
    | some v, some vs => some ((l, lane, v) :: vs)
    | _, _ => none

/-- Whether the predicate selects a lane (R21). -/
def selects (f : Flds) (v : Vals) : Bool :=
  match f.p with
  | .always => true
  | .whenTrue => v.c != 0
  | .whenFalse => v.c == 0

/-- What a lane that is not selected delivers (R21). DESIGN CHOICE (assumption log 48): where operand A of a floating-point instruction is
an immediate, that is its sign-extended integer word, and not the encoding R19 gives the value for the operation. -/
def passed (sh : Shape) (v : Vals) : Word := if sh.rdA then v.a else 0

/-! ### Delivery and doom (R17, R132) -/

/-- Delivers a value to a target's slot in one lane. -/
def Chord.deliver (ch : Chord) (t : Option Target) (l : Nat) (v : Word) : Chord :=
  match t with
  | none => ch
  | some t => { ch with links := { idx := t.idx.toNat, slot := t.slot, lane := l, val := v } :: ch.links }

def Chord.modLane (ch : Chord) (l : Nat) (g : Lane → Lane) : Chord :=
  match nget ch.lanes l with
  | some x => { ch with lanes := nput ch.lanes l (g x) }
  | none => ch

/-- The lane's first trap dooms it, and it raises no further one. -/
def Lane.doomBy (x : Lane) (t : Trap) (i : Nat) : Lane :=
  match x.doom with
  | some _ => x
  | none => { x with doom := some (t, i) }

/-- The trap of an effect that answers late (a claim, an atomic, a reservation): it goes before a trap that an
instruction of higher index raised in the meantime, which then raised nothing more (R132, R180). DEDUCED. -/
def Lane.doomLate (x : Lane) (t : Trap) (i : Nat) : Lane :=
  match x.doom with
  | some d => if i < d.2 && d.2 != 0xFF then { x with doom := some (t, i) } else x
  | none => { x with doom := some (t, i) }

/-- Whether the block asks for the uniformity check (R205). -/
def Chord.ucheck (ch : Chord) : Bool :=
  match ch.img with
  | some (h, _) => h.ucheck
  | none => false

/-- Whether the chord's block is a trap-handler block. -/
def Chord.trapblk (ch : Chord) : Bool :=
  match ch.img with
  | some (h, _) => h.trapblk
  | none => false

/-- The first slot whose operand differs between two lanes (R205). -/
def differs (u v : Vals) : Option Nat :=
  if u.a != v.a then some 0 else if u.b != v.b then some 1 else if u.c != v.c then some 2 else none

/-- R205: dooms with UNIFORMITY each lane with an operand that differs from the lowest lane's. -/
def Chord.checkUniform (ch : Chord) (i : Nat) (lead : Vals) (ls : List (Nat × Lane × Vals)) : Chord :=
  ls.foldl (fun ch p => match differs lead p.2.2 with
    | some k => ch.modLane p.1 fun x => x.doomBy { cause := 0x02, aux := BitVec.ofNat 63 k } i
    | none => ch) ch

/-- Whether the lanes run under different HIDs (R206). -/
def Chord.mixedHids (ch : Chord) : Bool :=
  match ch.lanes with
  | [] => false
  | (_, x) :: r => r.any fun p => p.2.hid != x.hid

/-! ### What an instruction does in one lane -/

/-- The outcome of an instruction in a lane: the values for T0 and T1 (none while the lane waits for them), the trap it
raises, the effects it buffers, and what it claims. -/
structure LaneRes where
  v0 : Option Word := some 0
  v1 : Option Word := some 0
  trap : Option Trap := none
  effs : List Eff := []
  wait : Option Wait := none
  claims : List Claim := []
  frma : List Nat := []
  specs : List SpecWait := []
  atomf : Bool := false
deriving DecidableEq, Repr, Inhabited

/-- A result that is one value for both targets. -/
def LaneRes.val (w : Word) : LaneRes := { v0 := some w, v1 := some w }

/-- A trap, delivering zero. -/
def LaneRes.trapped (t : Trap) : LaneRes := { trap := some t }

/-- An effect and no value. -/
def LaneRes.eff (e : Eff) : LaneRes := { effs := [e] }

/-- An instruction's behaviour in a lane, given the state, the chord, the index, the lane's number, the lane and its operands. None
where it cannot be carried out at this instant and must be issued again. -/
abbrev Body := State → Chord → Nat → Nat → Lane → Vals → Option (LaneRes × State)

/-- Lays a lane's outcome into the chord: delivery, doom and buffering. -/
def Chord.put (ch : Chord) (f : Flds) (i l : Nat) (r : LaneRes) : Chord :=
  let ch := ch.modLane l fun x =>
    let x := { x with effs := x.effs ++ r.effs.map fun e => (i, e), claims := x.claims ++ r.claims,
                      frma := x.frma ++ r.frma, atomf := x.atomf || r.atomf }
    match r.trap with
    | some t => x.doomBy t i
    | none => x
  let ch := match r.v0 with
    | some v => ch.deliver f.t0 l v
    | none => ch
  let ch := match r.v1 with
    | some v => ch.deliver f.t1 l v
    | none => ch
  { ch with specs := ch.specs ++ r.specs,
            waits := ch.waits ++ (r.wait.map fun w => { w with idx := i, lanes := [l], t0 := f.t0, t1 := f.t1 }).toList }

/-- Lays a uniform outcome into the chord: its values and its trap reach every lane, its effects belong to the chord. -/
def Chord.putAll (ch : Chord) (f : Flds) (i : Nat) (r : LaneRes) : Chord :=
  let ls := nkeys ch.lanes
  let ch := ls.foldl (fun ch l => ch.put f i l { v0 := r.v0, v1 := r.v1, trap := r.trap }) ch
  { ch with effs := ch.effs ++ r.effs.map (fun e => (i, e)), specs := ch.specs ++ r.specs,
            waits := ch.waits ++ (r.wait.map fun w => { w with idx := i, lanes := ls, t0 := f.t0, t1 := f.t1 }).toList }

/-- Moves past an instruction of so many words. -/
def Chord.next (ch : Chord) (len : Nat) : Chord := { ch with pc := ch.pc + len }

/-- Whether the chord may issue: it waits for no acquisition, ordered access, fence or reservation (R162, R167, R170, R222, R383), for no
claim that others of its CMPK follow (R178), and its commit has not begun. -/
def Chord.mayIssue (ch : Chord) : Bool :=
  ch.waits.all (fun w => !w.acquire && !w.order && !(ch.claimQ.isSome && w.idx == ch.pc)) && ch.specs.isEmpty && ch.todo.isNone

/-! ### Instructions whose result is a function of the lanes' operands -/

namespace State

/-- The chord at the focus. -/
def focus (s : State) : Option Chord := s.chord? s.flow.focusCore s.flow.focusSlot

/-- Puts the chord at the focus back. -/
def setFocus (s : State) (ch : Chord) : State := s.setChord s.flow.focusCore s.flow.focusSlot ch

/-- The constant bank of a chord's activation. -/
def consts (s : State) (ch : Chord) : List Word :=
  match s.act? ch.key with
  | some a => a.consts
  | none => []

end State

/-- What an instruction of the ALU kind delivers in every lane: `op` of its operands where selected. -/
def Chord.alu (ch : Chord) (sh : Shape) (f : Flds) (op : Vals → Word) (ls : List (Nat × Lane × Vals)) : Chord :=
  if f.u then
    match ls with
    | [] => ch
    | (_, _, v) :: _ =>
      let ch := if ch.ucheck then ch.checkUniform ch.pc v ls else ch
      ch.putAll f ch.pc (.val (if selects f v then op v else passed sh v))
  else ls.foldl (fun ch p => ch.put f ch.pc p.1 (.val (if selects f p.2.2 then op p.2.2 else passed sh p.2.2))) ch

/-- An instruction without effects beyond its values: every operand read, the values delivered, on to the next. -/
def State.alu (s : State) (sh : Shape) (f : Flds) (op : Vals → Word) : State :=
  match s.focus with
  | none => s
  | some ch =>
    if ch.mayIssue then
      match gather sh f ch (s.consts ch) ch.pc ch.lanes with
      | none => s
      | some ls => s.setFocus ((ch.alu sh f op ls).next 1)
    else s

/-- An F1 instruction: one value for every lane, to T0 (R23, R109). -/
def State.aluImm (s : State) (f : ImmFlds) (v : Word) : State :=
  match s.focus with
  | none => s
  | some ch =>
    if ch.mayIssue then s.setFocus (((nkeys ch.lanes).foldl (fun ch l => ch.deliver f.t0 l v) ch).next 1) else s

/-! ### Exchanges between lanes (R144) -/

/-- The visible set of a lane: the selected lanes whose HID is the lane's or an ancestor of it, lowest first. -/
def State.visible (s : State) (n : BitVec 12) (f : Flds) (ls : List (Nat × Lane × Vals)) (h : BitVec 8) : List (Nat × Vals) :=
  (ls.filter fun p => selects f p.2.2 && s.isAncestor n p.2.1.hid h).map fun p => (p.1, p.2.2)

/-- A cross-lane instruction: `op` of the visible set, the lane's number and its operands. -/
def State.cross (s : State) (sh : Shape) (f : Flds) (op : List (Nat × Vals) → Nat → Vals → Word) : State :=
  match s.focus with
  | none => s
  | some ch =>
    if ch.mayIssue then
      match gather sh f ch (s.consts ch) ch.pc ch.lanes with
      | none => s
      | some ls =>
        let out := ls.foldl (fun c p => c.put f ch.pc p.1
          (.val (if selects f p.2.2 then op (s.visible ch.ctx f ls p.2.1.hid) p.1 p.2.2 else passed sh p.2.2))) ch
        s.setFocus (out.next 1)
    else s

/-! ### Instructions with effects -/

/-- Runs a body in the selected lanes, lowest first; none if one of them must wait. A lane already doomed raises no
trap, so a check that fails in it changes nothing. -/
def runLanes (sh : Shape) (f : Flds) (ch : Chord) (i : Nat) (body : Body) : List (Nat × Lane × Vals) → State → Option (List (Nat × LaneRes) × State)
  | [], s => some ([], s)
  | (l, x, v) :: r, s =>
    let one := if selects f v then body s ch i l x v else some (.val (passed sh v), s)
    match one with
    | none => none
    | some (res, s1) =>
      let s2 := if res.trap.isSome && x.doom.isSome then s else s1
      match runLanes sh f ch i body r s2 with
      | none => none
      | some (rs, s3) => some ((l, res) :: rs, s3)

/-- An instruction with effects: `body` in each selected lane, or once from the lowest lane's operands under U, with its
effects the chord's (R205, R266). Under `mem`, U falls away where the lanes' HIDs differ (R206). DESIGN CHOICE (assumption log 48): under
UCHECK the operands are compared before the predicate is looked at, so that lanes that differ are doomed where it selects none too. -/
def State.perform (s : State) (sh : Shape) (f : Flds) (len : Nat) (mem : Bool) (body : Body) : State :=
  match s.focus with
  | none => s
  | some ch =>
    if ch.mayIssue then
      match gather sh f ch (s.consts ch) ch.pc ch.lanes with
      | none => s
      | some [] => s.setFocus (ch.next len)
      | some ((l, x, v) :: r) =>
        let ls := (l, x, v) :: r
        let ch := if f.u && ch.ucheck then ch.checkUniform ch.pc v ls else ch
        if f.u && !(mem && ch.mixedHids) then
          if selects f v then
            match body s ch ch.pc l x v with
            | none => s
            | some (res, s1) =>
              let s2 := if res.trap.isSome && ls.all (fun p => p.2.1.doom.isSome) then s else s1
              s2.setFocus ((ch.putAll f ch.pc res).next len)
          else s.setFocus ((ch.putAll f ch.pc (.val (passed sh v))).next len)
        else match runLanes sh f ch ch.pc body ls s with
          | none => s
          | some (rs, s1) => s1.setFocus ((rs.foldl (fun c p => c.put f ch.pc p.1 p.2) ch).next len)
    else s

end Sys2Proof.Machine
end

