-- ==== Sys2Proof/Machine/Flags.lean ====
section
/-! DEFINITION. Conditions and classes (R107, R121, R122): what this machine computes where others set flags. It has no
flag register; every condition is a value delivered to a target. -/

namespace Sys2Proof.Machine

/-- The width of an integer type (R95). -/
def intBits : IntTy → Nat
  | .i32 => 32 | .n32 => 32 | .i64 => 64 | .n64 => 64

def intSigned : IntTy → Bool
  | .i32 => true | .i64 => true | .n32 => false | .n64 => false

/-- An operand's low n bits read under a type (R95, R97). -/
def intRead (ty : IntTy) (w : Word) : Int :=
  match ty with
  | .i32 => (w.setWidth 32).toInt
  | .n32 => ((w.setWidth 32).toNat : Int)
  | .i64 => w.toInt
  | .n64 => (w.toNat : Int)

/-- The low n bits of a word, extended as R95 says. -/
def intOut (ty : IntTy) (w : Word) : Word :=
  match ty with
  | .i32 => (w.setWidth 32).signExtend 64
  | .n32 => (w.setWidth 32).setWidth 64
  | .i64 => w
  | .n64 => w

/-- Wrap of an exact result to n bits, extended (R88, R95). -/
def intWrap (ty : IntTy) (r : Int) : Word := intOut ty (BitVec.ofInt 64 r)

/-- SatS or SatU by the type (R88). -/
def intSat (ty : IntTy) (r : Int) : Word :=
  intWrap ty (if intSigned ty then satS r (intBits ty) else satU r (intBits ty))

/-- A condition as a value (R107). -/
def boolWord (b : Bool) : Word := if b then 1 else 0

/-- The conditions of CMP over the exact integers (R107). -/
def condHolds (c : Cond) (x y : Int) : Bool :=
  match c with
  | .eq => x == y
  | .ne => x != y
  | .lt => x < y
  | .le => x ≤ y
  | .gt => y < x
  | .ge => y ≤ x

/-- The conditions of FCMP over values (R122): every ordered relation fails on a NaN. -/
def fcondHolds (c : FCond) (x y : FVal) : Bool :=
  let nan := x.isNaN || y.isNaN
  let o := FVal.cmp x y
  match c with
  | .eq => !nan && o == .eq
  | .ne => nan || o != .eq
  | .lt => !nan && o == .lt
  | .le => !nan && o != .gt
  | .gt => !nan && o == .gt
  | .ge => !nan && o != .lt
  | .un => nan
  | .or => !nan

/-- The class bit of FCLS (R121). -/
def classBit (f : SFmt) (x : FVal) : Nat :=
  match x with
  | .nan => 0
  | .inf neg => if neg then 1 else 8
  | .fin neg m e =>
    if m = 0 then (if neg then 4 else 5)
    else if cmpMag m e (2 ^ (f.prec - 1)) f.qmin == .lt then (if neg then 3 else 6)
    else (if neg then 2 else 7)

end Sys2Proof.Machine
end

