-- ==== Sys2Proof/Machine/Integer.lean ====
section
/-! DEFINITION. Integer, logic and address instructions (R95 to R111). Each delivers a value and has no other effect. -/

namespace Sys2Proof.Machine

/-! ### Results -/

/-- ADD, SUB, MUL, MULH (R101). -/
def addVal (ty : IntTy) (a b : Word) : Word := intWrap ty (intRead ty a + intRead ty b)
def subVal (ty : IntTy) (a b : Word) : Word := intWrap ty (intRead ty a - intRead ty b)
def addsVal (ty : IntTy) (a b : Word) : Word := intSat ty (intRead ty a + intRead ty b)
def subsVal (ty : IntTy) (a b : Word) : Word := intSat ty (intRead ty a - intRead ty b)
def mulVal (ty : IntTy) (a b : Word) : Word := intWrap ty (intRead ty a * intRead ty b)
def mulhVal (ty : IntTy) (a b : Word) : Word := intWrap ty (intRead ty a * intRead ty b / 2 ^ intBits ty)
def madVal (ty : IntTy) (a b c : Word) : Word := intWrap ty (intRead ty a * intRead ty b + intRead ty c)

/-- DIV and REM (R102): a zero divisor gives all ones, and the dividend. -/
def divVal' (ty : IntTy) (a b : Word) : Word :=
  if intRead ty b = 0 then intOut ty (BitVec.allOnes 64) else intWrap ty ((intRead ty a).tdiv (intRead ty b))
def remVal (ty : IntTy) (a b : Word) : Word :=
  if intRead ty b = 0 then intOut ty a else intWrap ty ((intRead ty a).tmod (intRead ty b))

def minVal (ty : IntTy) (a b : Word) : Word := intWrap ty (min (intRead ty a) (intRead ty b))
def maxVal (ty : IntTy) (a b : Word) : Word := intWrap ty (max (intRead ty a) (intRead ty b))
def absVal (ty : IntTy) (a : Word) : Word := intWrap ty (intRead ty a).natAbs
def negVal (ty : IntTy) (a : Word) : Word := intWrap ty (-(intRead ty a))

/-- Shifts (R104): the count is the whole of B, unsigned. -/
def shlVal (ty : IntTy) (a b : Word) : Word := if intBits ty ≤ b.toNat then 0 else intOut ty (a <<< b.toNat)
def shrVal (ty : IntTy) (a b : Word) : Word :=
  if intBits ty ≤ b.toNat then 0 else intOut ty ((a.setWidth (intBits ty)).setWidth 64 >>> b.toNat)
def sarVal (ty : IntTy) (a b : Word) : Word :=
  intOut ty (((a.setWidth (intBits ty)).signExtend 64).sshiftRight (min b.toNat 64))
def rotVal (ty : IntTy) (a b : Word) : Word :=
  intOut ty (((a.setWidth (intBits ty)).rotateLeft (b.toNat % intBits ty)).setWidth 64)

/-- The n low bits of a word, bit 0 first. -/
def lowBits (n : Nat) (w : Word) : List Bool := (List.range n).map fun i => w.getLsbD i

/-- A word from its bits, bit 0 first. -/
def wordOfBits (l : List Bool) : Word := l.foldr (fun b acc => (acc <<< 1) ||| (if b then 1 else 0)) 0

/-- Counting and reversal (R105). -/
def popcVal (ty : IntTy) (a : Word) : Word := BitVec.ofNat 64 ((lowBits (intBits ty) a).countP id)
def clzVal (ty : IntTy) (a : Word) : Word := BitVec.ofNat 64 ((lowBits (intBits ty) a).reverse.takeWhile (!·)).length
def ctzVal (ty : IntTy) (a : Word) : Word := BitVec.ofNat 64 ((lowBits (intBits ty) a).takeWhile (!·)).length
def brevVal (ty : IntTy) (a : Word) : Word := intOut ty (wordOfBits (lowBits (intBits ty) a).reverse)

/-- The field a field word names (R106): its position and its length, cut at bit n − 1; none for an empty one. -/
def fieldOf (ty : IntTy) (b : Word) : Option (Nat × Nat) :=
  let p := b.toNat % 256
  let w := b.toNat / 256 % 256
  if intBits ty ≤ p ∨ w = 0 then none else some (p, min w (intBits ty - p))

/-- BFX (R106): the field zero-extended, or sign-extended from its top bit. -/
def bfxVal (ty : IntTy) (a b : Word) : Word :=
  match fieldOf ty b with
  | none => 0
  | some (p, w) =>
    let x := a >>> p
    intOut ty (if intSigned ty then (x.setWidth w).signExtend 64 else (x.setWidth w).setWidth 64)

/-- BFI (R106): the field replaced by the low bits of C. -/
def bfiVal (ty : IntTy) (a b c : Word) : Word :=
  match fieldOf ty b with
  | none => intOut ty a
  | some (p, w) =>
    let mask : Word := ((BitVec.allOnes w).setWidth 64) <<< p
    intOut ty ((a &&& ~~~mask) ||| ((c <<< p) &&& mask))

/-- IDX (R111): modulo 2^64. -/
def idxVal (sh : BitVec 3) (a b c : Word) : Word := a + (b <<< sh.toNat) + c

/-- IMM and IMMH (R109). -/
def immVal (zx : Bool) (v : BitVec 32) : Word := if zx then v.setWidth 64 else v.signExtend 64
def immhVal (v : BitVec 32) : Word := v.setWidth 64 <<< 32

/-! ### Meanings -/

def execAdd (ty : IntTy) (f : Flds) (s : State) : Answer := .next (s.alu .bin f fun v => addVal ty v.a v.b)
def execSub (ty : IntTy) (f : Flds) (s : State) : Answer := .next (s.alu .bin f fun v => subVal ty v.a v.b)
def execAdds (ty : IntTy) (f : Flds) (s : State) : Answer := .next (s.alu .bin f fun v => addsVal ty v.a v.b)
def execSubs (ty : IntTy) (f : Flds) (s : State) : Answer := .next (s.alu .bin f fun v => subsVal ty v.a v.b)
def execMul (ty : IntTy) (f : Flds) (s : State) : Answer := .next (s.alu .bin f fun v => mulVal ty v.a v.b)
def execMulh (ty : IntTy) (f : Flds) (s : State) : Answer := .next (s.alu .bin f fun v => mulhVal ty v.a v.b)
def execMad (ty : IntTy) (f : Flds) (s : State) : Answer := .next (s.alu .tri f fun v => madVal ty v.a v.b v.c)
def execDiv (ty : IntTy) (f : Flds) (s : State) : Answer := .next (s.alu .bin f fun v => divVal' ty v.a v.b)
def execRem (ty : IntTy) (f : Flds) (s : State) : Answer := .next (s.alu .bin f fun v => remVal ty v.a v.b)
def execMin (ty : IntTy) (f : Flds) (s : State) : Answer := .next (s.alu .bin f fun v => minVal ty v.a v.b)
def execMax (ty : IntTy) (f : Flds) (s : State) : Answer := .next (s.alu .bin f fun v => maxVal ty v.a v.b)
def execAbs (ty : IntTy) (f : Flds) (s : State) : Answer := .next (s.alu .un f fun v => absVal ty v.a)
def execNeg (ty : IntTy) (f : Flds) (s : State) : Answer := .next (s.alu .un f fun v => negVal ty v.a)
def execAnd (ty : IntTy) (f : Flds) (s : State) : Answer := .next (s.alu .bin f fun v => intOut ty (v.a &&& v.b))
def execAndn (ty : IntTy) (f : Flds) (s : State) : Answer := .next (s.alu .bin f fun v => intOut ty (v.a &&& ~~~v.b))
def execOr (ty : IntTy) (f : Flds) (s : State) : Answer := .next (s.alu .bin f fun v => intOut ty (v.a ||| v.b))
def execXor (ty : IntTy) (f : Flds) (s : State) : Answer := .next (s.alu .bin f fun v => intOut ty (v.a ^^^ v.b))
def execNot (ty : IntTy) (f : Flds) (s : State) : Answer := .next (s.alu .un f fun v => intOut ty (~~~v.a))
def execShl (ty : IntTy) (f : Flds) (s : State) : Answer := .next (s.alu .bin f fun v => shlVal ty v.a v.b)
def execShr (ty : IntTy) (f : Flds) (s : State) : Answer := .next (s.alu .bin f fun v => shrVal ty v.a v.b)
def execSar (ty : IntTy) (f : Flds) (s : State) : Answer := .next (s.alu .bin f fun v => sarVal ty v.a v.b)
def execRot (ty : IntTy) (f : Flds) (s : State) : Answer := .next (s.alu .bin f fun v => rotVal ty v.a v.b)
def execPopc (ty : IntTy) (f : Flds) (s : State) : Answer := .next (s.alu .un f fun v => popcVal ty v.a)
def execClz (ty : IntTy) (f : Flds) (s : State) : Answer := .next (s.alu .un f fun v => clzVal ty v.a)
def execCtz (ty : IntTy) (f : Flds) (s : State) : Answer := .next (s.alu .un f fun v => ctzVal ty v.a)
def execBrev (ty : IntTy) (f : Flds) (s : State) : Answer := .next (s.alu .un f fun v => brevVal ty v.a)
def execBfx (ty : IntTy) (f : Flds) (s : State) : Answer := .next (s.alu .bin f fun v => bfxVal ty v.a v.b)
def execBfi (ty : IntTy) (f : Flds) (s : State) : Answer := .next (s.alu .tri f fun v => bfiVal ty v.a v.b v.c)
/-- SEL (R108): C is data, true when any bit is 1. -/
def execSel (ty : IntTy) (f : Flds) (s : State) : Answer :=
  .next (s.alu .tri f fun v => intOut ty (if v.c != 0 then v.a else v.b))
def execMov (ty : IntTy) (f : Flds) (s : State) : Answer := .next (s.alu .un f fun v => intOut ty v.a)
def execIdx (sh : BitVec 3) (f : Flds) (s : State) : Answer := .next (s.alu .tri f fun v => idxVal sh v.a v.b v.c)
def execCmp (c : Cond) (ty : IntTy) (f : Flds) (s : State) : Answer :=
  .next (s.alu .bin f fun v => boolWord (condHolds c (intRead ty v.a) (intRead ty v.b)))
def execImm (zx : Bool) (f : ImmFlds) (s : State) : Answer := .next (s.aluImm f (immVal zx f.imm))
def execImmh (f : ImmFlds) (s : State) : Answer := .next (s.aluImm f (immhVal f.imm))

end Sys2Proof.Machine
end

