-- ==== Sys2Proof/Machine/Float.lean ====
section
/-! DEFINITION. Floating-point and conversion instructions (R113 to R130). Each delivers a value and has no other effect. -/

namespace Sys2Proof.Machine

/-- The storage format of a format suffix (R113). -/
def fmtOfTy : FTy → SFmt
  | .f64 => .fp64
  | .f32 => .fp32

/-- The value of a floating-point operand (R114): an immediate is its exact integer. -/
def fval (f : SFmt) (sel : Sel) (w : Word) : FVal :=
  match sel with
  | .imm v => .ofInt v.toInt
  | .link => decodeFmt f (w.toNat % 2 ^ f.width)
  | .port _ => decodeFmt f (w.toNat % 2 ^ f.width)
  | .const _ => decodeFmt f (w.toNat % 2 ^ f.width)

/-- An operand's bits in format f. -/
def fbits (f : SFmt) (sel : Sel) (w : Word) : Nat :=
  match sel with
  | .imm v => roundXF (.ofInt v.toInt) f
  | .link => w.toNat % 2 ^ f.width
  | .port _ => w.toNat % 2 ^ f.width
  | .const _ => w.toNat % 2 ^ f.width

/-- A floating-point result, with the bits above it zero (R113). -/
def fword (code : Nat) : Word := BitVec.ofNat 64 code

/-- −0 is less than +0 for FMIN and FMAX (R119). -/
def zeroRank : FVal → Int
  | .fin neg 0 _ => if neg then -1 else 0
  | _ => 0

def flt (x y : FVal) : Bool :=
  match FVal.cmp x y with
  | .lt => true
  | .eq => x.isZero && y.isZero && decide (zeroRank x < zeroRank y)
  | .gt => false

/-- FMIN and FMAX (R119): the chosen operand's bits. -/
def fminmax (isMax : Bool) (f : SFmt) (x y : FVal) (a b : Nat) : Nat :=
  if x.isNaN && y.isNaN then f.canonNaN
  else if x.isNaN then b
  else if y.isNaN then a
  else if isMax then (if flt x y then b else a)
  else (if flt y x then b else a)

/-- FABS and FNEG (R120). -/
def fsign (flip : Bool) (f : SFmt) (x : FVal) (a : Nat) : Nat :=
  let top := 2 ^ (f.width - 1)
  if x.isNaN then f.canonNaN
  else if flip then (if top ≤ a then a - top else a + top)
  else a % top

/-- FRND (R123): a zero takes the sign of its operand. -/
def frndVal (f : SFmt) (mode : Rnd) (x : FVal) : Nat :=
  match x with
  | .fin neg m e => roundXF (.fin neg (roundInt neg m e mode).natAbs 0) f
  | v => roundXF v f

/-- FSCL (R124). An exponent beyond 8,192 either way gives what 8,192 gives. -/
def fsclVal (f : SFmt) (mode : Rnd) (x : FVal) (a : Nat) (sc : Int) : Nat :=
  match x with
  | .nan => f.canonNaN
  | .inf _ => a
  | .fin n m e => if m = 0 then a else roundXF (.fin n m (e + max (-8192) (min sc 8192))) f mode

/-- An approximation by its number in Config (R125, R126). -/
def approxVal (fn : Nat) (ft : FTy) (sel : Sel) (w : Word) : Word :=
  let f := fmtOfTy ft
  let bits := BitVec.ofNat 64 (fbits f sel w)
  let cand := (Config.approxBits fn ft bits).toNat
  let x := fval f sel w
  fword (match fn with
    | 0 => frcpVal f cand x
    | 1 => frsqVal f cand x
    | 2 => fex2Val f cand x
    | 3 => flg2Val f cand x
    | 4 => trigVal false f cand x
    | 5 => trigVal true f cand x
    | _ => ftanhVal f cand x)

/-- ICVT to an integer type (R130). -/
def toIntVal (ty : IntTy) (mode : Rnd) (x : FVal) : Word :=
  let n := intBits ty
  intSat ty (match x with
    | .nan => 0
    | .inf neg => if neg then (if intSigned ty then -(2 ^ (n - 1)) else 0) else 2 ^ n
    | .fin neg m e => roundInt neg m e mode)

/-- The storage format of an FCVT suffix (R26). -/
def fmtOfCvt : CvtFmt → SFmt
  | .f64 => .fp64 | .f32 => .fp32 | .f16 => .fp16 | .bf16 => .bf16 | .e4m3 => .e4m3 | .e5m2 => .e5m2 | .tf8 => .tf8

/-! ### Meanings -/

/-- An arithmetic instruction of two operands, rounded once. -/
def State.fbin (s : State) (ft : FTy) (f : Flds) (op : FVal → FVal → Nat) : State :=
  s.alu .bin f fun v => fword (op (fval (fmtOfTy ft) f.a v.a) (fval (fmtOfTy ft) f.b v.b))

/-- An instruction of one operand. -/
def State.fun1 (s : State) (ft : FTy) (f : Flds) (op : FVal → Nat) : State :=
  s.alu .un f fun v => fword (op (fval (fmtOfTy ft) f.a v.a))

def execFadd (ft : FTy) (r : Rnd) (f : Flds) (s : State) : Answer :=
  .next (s.fbin ft f fun x y => roundXF (FVal.add r x y) (fmtOfTy ft) r)
def execFsub (ft : FTy) (r : Rnd) (f : Flds) (s : State) : Answer :=
  .next (s.fbin ft f fun x y => roundXF (FVal.add r x y.negate) (fmtOfTy ft) r)
def execFmul (ft : FTy) (r : Rnd) (f : Flds) (s : State) : Answer :=
  .next (s.fbin ft f fun x y => roundXF (FVal.mul x y) (fmtOfTy ft) r)
/-- FFMA (R117): the product is not rounded. -/
def execFfma (ft : FTy) (r : Rnd) (f : Flds) (s : State) : Answer :=
  .next (s.alu .tri f fun v =>
    let t := fmtOfTy ft
    fword (roundXF (FVal.add r (FVal.mul (fval t f.a v.a) (fval t f.b v.b)) (fval t f.c v.c)) t r))
def execFmin (ft : FTy) (f : Flds) (s : State) : Answer :=
  .next (s.alu .bin f fun v =>
    let t := fmtOfTy ft
    fword (fminmax false t (fval t f.a v.a) (fval t f.b v.b) (fbits t f.a v.a) (fbits t f.b v.b)))
def execFmax (ft : FTy) (f : Flds) (s : State) : Answer :=
  .next (s.alu .bin f fun v =>
    let t := fmtOfTy ft
    fword (fminmax true t (fval t f.a v.a) (fval t f.b v.b) (fbits t f.a v.a) (fbits t f.b v.b)))
def execFabs (ft : FTy) (f : Flds) (s : State) : Answer :=
  .next (s.alu .un f fun v => let t := fmtOfTy ft; fword (fsign false t (fval t f.a v.a) (fbits t f.a v.a)))
def execFneg (ft : FTy) (f : Flds) (s : State) : Answer :=
  .next (s.alu .un f fun v => let t := fmtOfTy ft; fword (fsign true t (fval t f.a v.a) (fbits t f.a v.a)))
def execFdiv (ft : FTy) (r : Rnd) (f : Flds) (s : State) : Answer :=
  .next (s.fbin ft f fun x y => let q := divVal x y; roundXFs q.1 (fmtOfTy ft) r false q.2)
def execFsqrt (ft : FTy) (r : Rnd) (f : Flds) (s : State) : Answer :=
  .next (s.fun1 ft f fun x => let q := sqrtVal x; roundXFs q.1 (fmtOfTy ft) r false q.2)
def execFrcp (ft : FTy) (f : Flds) (s : State) : Answer := .next (s.alu .un f fun v => approxVal 0 ft f.a v.a)
def execFrsq (ft : FTy) (f : Flds) (s : State) : Answer := .next (s.alu .un f fun v => approxVal 1 ft f.a v.a)
def execFex2 (ft : FTy) (f : Flds) (s : State) : Answer := .next (s.alu .un f fun v => approxVal 2 ft f.a v.a)
def execFlg2 (ft : FTy) (f : Flds) (s : State) : Answer := .next (s.alu .un f fun v => approxVal 3 ft f.a v.a)
def execFsin (ft : FTy) (f : Flds) (s : State) : Answer := .next (s.alu .un f fun v => approxVal 4 ft f.a v.a)
def execFcos (ft : FTy) (f : Flds) (s : State) : Answer := .next (s.alu .un f fun v => approxVal 5 ft f.a v.a)
def execFtanh (ft : FTy) (f : Flds) (s : State) : Answer := .next (s.alu .un f fun v => approxVal 6 ft f.a v.a)
def execFrnd (ft : FTy) (r : Rnd) (f : Flds) (s : State) : Answer := .next (s.fun1 ft f fun x => frndVal (fmtOfTy ft) r x)
def execFscl (ft : FTy) (r : Rnd) (f : Flds) (s : State) : Answer :=
  .next (s.alu .bin f fun v =>
    let t := fmtOfTy ft
    fword (fsclVal t r (fval t f.a v.a) (fbits t f.a v.a) v.b.toInt))
def execFcls (ft : FTy) (f : Flds) (s : State) : Answer :=
  .next (s.fun1 ft f fun x => 2 ^ classBit (fmtOfTy ft) x)
def execFcmp (c : FCond) (ft : FTy) (f : Flds) (s : State) : Answer :=
  .next (s.alu .bin f fun v => boolWord (fcondHolds c (fval (fmtOfTy ft) f.a v.a) (fval (fmtOfTy ft) f.b v.b)))
/-- ICVT (R129, R130): the source of an integer-to-float conversion is an integer slot. -/
def execIcvt (toInt : Bool) (ft : FTy) (ty : IntTy) (r : Rnd) (f : Flds) (s : State) : Answer :=
  .next (s.alu .un f fun v =>
    if toInt then toIntVal ty r (fval (fmtOfTy ft) f.a v.a)
    else fword (roundXF (.ofInt (intRead ty v.a)) (fmtOfTy ft) r))
/-- FCVT (R127, R128): an exact conversion rounds nothing. -/
def execFcvt (src dst : CvtFmt) (sat : Bool) (r : Rnd) (f : Flds) (s : State) : Answer :=
  .next (s.alu .un f fun v => fword (roundXF (fval (fmtOfCvt src) f.a v.a) (fmtOfCvt dst) r sat))

end Sys2Proof.Machine
end

