-- ==== Sys2Proof/Machine/Chord.lean ====
section
/-! DEFINITION. Token, chord and system instructions (R132 to R151): tokens, launches and credits as buffered effects,
exchanges between lanes, special registers, traps and their service. -/

namespace Sys2Proof.Machine

/-! ### Tokens (R133 to R138) -/

/-- A PROTECTION trap that names no address. -/
def protTrap : Trap := { cause := 0x08 }

/-- Whether a block lies outside the activation's graph image (R135). -/
def State.blockOutside (s : State) (key : Nat) (dblock : BitVec 32) : Bool :=
  match s.act? key with
  | some a => a.size ≤ 16 * dblock.toNat
  | none => true

/-- The token a lane sends under a destination word (R135), or the trap of the first check that fails. `c` is the core the
lane runs on, `dest` the destination number. DESIGN CHOICE (assumption log 46): where SpreadCore names no core, R134 gives no DCORE
for the packet, and it carries 0. -/
def routeToken (s : State) (ch : Chord) (c : Nat) (x : Lane) (d : TokenDest) (tag : BitVec 32) (payload dest : Word) :
    Except Trap Token :=
  let t (pkg : BitVec 12) (core : Nat) : Except Trap Token :=
    if s.blockOutside ch.key d.dblock then .error protTrap
    else .ok { payload, tag, dblock := d.dblock, dpkg := pkg, dcore := BitVec.ofNat 8 core, ctx := ch.ctx, act := ch.act,
               hid := x.hid, port := d.dport, spkg := s.pkg, score := BitVec.ofNat 8 c, skind := 0 }
  match d.route with
  | .same => t s.pkg c
  | .core =>
    if 256 ≤ dest.toNat || !(s.placement ch.key s.pkg).contains dest.toNat then .error protTrap else t s.pkg dest.toNat
  | .spread => t s.pkg ((s.spreadCore ch.key s.pkg d.dblock tag).getD 0)
  | .pkg =>
    let p : BitVec 12 := dest.setWidth 12
    if 4096 ≤ dest.toNat || !s.admits ch.ctx p then .error protTrap
    else if x.hid ≠ 0 ∧ p ≠ s.pkg then .error { cause := 0x0F }
    else t p ((s.spreadCore ch.key p d.dblock tag).getD 0)

/-- A token that its route's check stops: the domain table's page may be one that R423 refuses (R421). -/
def State.denyRoute (s : State) (n : BitVec 12) (d : TokenDest) (dest : Word) : State :=
  if d.route == .pkg && decide (dest.toNat < 4096) then s.denyDomain n (dest.setWidth 12) else s

/-- SEND in a lane (R135). -/
def sendBody (d : TokenDest) : Body := fun s ch _ _ x v =>
  let tag := if d.ownTag then x.tag else v.b.setWidth 32
  match routeToken s ch s.flow.focusCore x d tag v.a v.c with
  | .error t => some (.trapped t, s.denyRoute ch.ctx d v.c)
  | .ok t => some (.eff (.send t d.rel), s)

def sendShape (d : TokenDest) : Shape :=
  let far := d.route == .core || d.route == .pkg
  { u := .n, rdA := true, rdB := !d.ownTag, rdC := far, noP := far }

def execSend (d : TokenDest) (f : Flds) (s : State) : Answer := .next (s.perform (sendShape d) f 2 false (sendBody d))

/-- The spawn counter of an activation on a core (R138). -/
def State.spawnCtr (s : State) (c key : Nat) : BitVec 23 := (nget (s.core c).spawn key).getD 0

/-- SPAWN in a lane: a fresh tag, consumed by a doomed lane as by any other (R138). -/
def spawnBody (d : TokenDest) : Body := fun s ch _ _ x v =>
  let c := s.flow.focusCore
  let n := s.spawnCtr c ch.key
  let tag : BitVec 32 := BitVec.ofNat 32 (0x80000000 + c * 2 ^ 23 + n.toNat)
  let s1 := s.modCore c fun k => { k with spawn := nput k.spawn ch.key (n + 1) }
  let w : Word := tag.setWidth 64
  match routeToken s1 ch c x d tag v.a v.c with
  | .error t => some ({ v0 := some w, v1 := some w, trap := some t }, s1.denyRoute ch.ctx d v.c)
  | .ok t => some ({ v0 := some w, v1 := some w, effs := [.send t d.rel] }, s1)

/-- A lane already doomed consumes its tag too, so the counter's advance is kept whatever the lane's trap. -/
def spawnLanes (sh : Shape) (f : Flds) (d : TokenDest) (ch : Chord) : List (Nat × Lane × Vals) → State → List (Nat × LaneRes) × State
  | [], s => ([], s)
  | (l, x, v) :: r, s =>
    let one := if selects f v then (spawnBody d s ch ch.pc l x v).getD (.val 0, s) else (.val (passed sh v), s)
    let rest := spawnLanes sh f d ch r one.2
    ((l, one.1) :: rest.1, rest.2)

def spawnShape (d : TokenDest) : Shape :=
  let far := d.route == .core || d.route == .pkg
  { u := .n, rdA := true, rdC := far, noP := far, yields := true }

def execSpawn (d : TokenDest) (f : Flds) (s : State) : Answer :=
  match s.focus with
  | none => .next s
  | some ch =>
    if ch.mayIssue then
      match gather (spawnShape d) f ch (s.consts ch) ch.pc ch.lanes with
      | none => .next s
      | some ls =>
        let r := spawnLanes (spawnShape d) f d ch ls s
        .next (r.2.setFocus ((r.1.foldl (fun c p => c.put f ch.pc p.1 p.2) ch).next 2))
    else .next s

/-! ### Launches and credits (R140 to R143) -/

/-- LAUNCH in a lane (R141). -/
def launchBody (w : LaunchWord) : Body := fun s ch _ _ x v =>
  if v.a.extractLsb' 60 4 ≠ 0 then some (.trapped (trapWindow v.a), s)
  else if v.a.extractLsb' 0 4 ≠ 0 then some (.trapped (trapAlign v.a), s)
  else if x.hid ≠ 0 then some (.trapped { cause := 0x0F }, s)
  else
    let ks := s.consts ch
    let params := (List.range w.pcount.toNat).map fun n => wordAt ks (w.pfirst.toNat + n)
    let notify := if w.cen then some (w.cblock, w.cport, x.tag) else none
    some (.eff (.launch { ctx := ch.ctx, image := v.a, entry := w.entry.toNat, payload := v.b, params,
                          count := w.ccount.toNat + 1, launcher := some ch.act, notify, host := none,
                          pkg := s.pkg }), s)

def execLaunch (w : LaunchWord) (f : Flds) (s : State) : Answer := .next (s.perform (.act2 .n) f 2 false (launchBody w))

/-- DONE in a lane, or for the chord under U (R143). -/
def doneBody : Body := fun s _ _ _ _ v => some (.eff (.credit (v.a.toNat % 2 ^ 32)), s)

def execDoneCredit (f : Flds) (s : State) : Answer := .next (s.perform (.act1 .y) f 1 false doneBody)

/-! ### Exchanges between lanes (R144 to R146) -/

/-- The A value of lane j, when it is visible; else the lane's own (R145). -/
def fromLane (vis : List (Nat × Vals)) (j : Nat) (own : Word) : Word :=
  match vis.find? fun p => p.1 == j with
  | some p => p.2.a
  | none => own

/-- SHFL (R145). -/
def shflVal (op : Shuf) (vis : List (Nat × Vals)) (l : Nat) (v : Vals) : Word :=
  let b := v.b.toNat
  match op with
  | .idx => if b < 32 then fromLane vis b v.a else v.a
  | .up => if b ≤ l then fromLane vis (l - b) v.a else v.a
  | .down => if l + b < 32 then fromLane vis (l + b) v.a else v.a
  | .xor => if b < 32 then fromLane vis (l ^^^ b) v.a else v.a

/-- BCST (R145): the lane number is that of the lowest visible lane. -/
def bcstVal (vis : List (Nat × Vals)) (_l : Nat) (v : Vals) : Word :=
  match vis with
  | [] => v.a
  | p :: _ => if p.2.b.toNat < 32 then fromLane vis p.2.b.toNat v.a else v.a

/-- A mask over lane numbers. -/
def laneMask (ls : List Nat) : Word := ls.foldl (fun m j => m ||| (1#64 <<< j)) 0

/-- VOTE (R145). -/
def voteVal (op : VoteOp) (vis : List (Nat × Vals)) (_l : Nat) (_v : Vals) : Word :=
  match op with
  | .any => boolWord (vis.any fun p => p.2.a != 0)
  | .all => boolWord (vis.all fun p => p.2.a != 0)
  | .ballot => laneMask ((vis.filter fun p => p.2.a != 0).map (·.1))

/-- MTCH (R145). -/
def mtchVal (vis : List (Nat × Vals)) (_l : Nat) (v : Vals) : Word :=
  laneMask ((vis.filter fun p => p.2.a == v.a).map (·.1))

/-- A fold of exact integers, or of patterns, with one reduction at the end (R146). -/
def scanIntVal (op : ScanInt) (ty : IntTy) (l : List Word) : Word :=
  match l with
  | [] => 0
  | x :: r =>
    match op with
    | .add => intWrap ty ((x :: r).foldl (fun acc w => acc + intRead ty w) 0)
    | .min => intWrap ty (r.foldl (fun acc w => min acc (intRead ty w)) (intRead ty x))
    | .max => intWrap ty (r.foldl (fun acc w => max acc (intRead ty w)) (intRead ty x))
    | .and => intOut ty (r.foldl (· &&& ·) x)
    | .or => intOut ty (r.foldl (· ||| ·) x)
    | .xor => intOut ty (r.foldl (· ^^^ ·) x)

/-- The operation of PRFX and REDU over the values of W, in lane order (R146). -/
def scanVal (op : ScanOp) (sel : Sel) (l : List Word) : Word :=
  match op with
  | .int o ty => scanIntVal o ty l
  | .fadd ft r => fword (sumSeq (fmtOfTy ft) r (l.map fun w => fval (fmtOfTy ft) sel w))

def prfxVal (op : ScanOp) (sel : Sel) (vis : List (Nat × Vals)) (l : Nat) (_v : Vals) : Word :=
  scanVal op sel ((vis.filter fun p => p.1 ≤ l).map (·.2.a))
def reduVal (op : ScanOp) (sel : Sel) (vis : List (Nat × Vals)) (_l : Nat) (_v : Vals) : Word :=
  scanVal op sel (vis.map (·.2.a))

def execShfl (op : Shuf) (f : Flds) (s : State) : Answer := .next (s.cross (.bin .n) f (shflVal op))
def execBcst (f : Flds) (s : State) : Answer := .next (s.cross (.bin .n) f bcstVal)
def execVote (op : VoteOp) (f : Flds) (s : State) : Answer := .next (s.cross (.un .n) f (voteVal op))
def execMtch (f : Flds) (s : State) : Answer := .next (s.cross (.un .n) f mtchVal)
def execPrfx (op : ScanOp) (f : Flds) (s : State) : Answer := .next (s.cross (.un .n) f (prfxVal op f.a))
def execRedu (op : ScanOp) (f : Flds) (s : State) : Answer := .next (s.cross (.un .n) f (reduVal op f.a))

/-! ### Special and system registers (R147, R148, R244) -/

/-- The value of a register in a lane (R147). -/
def State.regVal (s : State) (ch : Chord) (l : Nat) (x : Lane) (r : Reg) : Word :=
  match r with
  | .lane => BitVec.ofNat 64 l
  | .tag => x.tag.setWidth 64
  | .act => ch.act.setWidth 64
  | .core => BitVec.ofNat 64 s.flow.focusCore
  | .pkg => s.pkg.setWidth 64
  | .step => (s.ctx ch.ctx).step.setWidth 64
  | .hid => x.hid.setWidth 64
  | .bankrole => (s.core s.flow.focusCore).roles

def srdBody (r : Reg) : Body := fun s ch _ l x _ => some (.val (s.regVal ch l x r), s)

def srdShape : Shape := { u := .y, yields := true }

def execSrd (r : Reg) (f : Flds) (s : State) : Answer := .next (s.perform srdShape f 2 false (srdBody r))

/-- SWR (R148): the only system register is CORE_BANKROLE, which programs may not write (R244), so every lane traps. -/
def swrBody : Body := fun s _ _ _ _ _ => some (.trapped protTrap, s)

def execSwr (_r : Reg) (f : Flds) (s : State) : Answer := .next (s.perform (.act1 .r) f 2 false swrBody)

/-- NOP (R149): a predicate has no effect. -/
def nopBody : Body := fun s _ _ _ _ _ => some (.val 0, s)

def execNop (f : Flds) (s : State) : Answer := .next (s.perform (.none .n) f 1 false nopBody)

/-! ### Traps and their service (R150, R151) -/

def trapBody : Body := fun s _ _ _ _ v => some (.trapped { cause := 0x12, code := v.a.setWidth 16 }, s)

def execTrap (f : Flds) (s : State) : Answer := .next (s.perform (.act1 .n) f 1 false trapBody)

def brkBody : Body := fun s _ _ _ _ _ => some (.trapped { cause := 0x13 }, s)

def execBrk (f : Flds) (s : State) : Answer := .next (s.perform (.none .n) f 1 false brkBody)

/-- TRET and KILL in a lane: the handle must name an instance parked in the context's fault queue (R151). -/
def serveBody (kill : Bool) : Body := fun s ch _ _ _ v =>
  match s.parkedHandle ch.ctx v.a with
  | none => some (.trapped { cause := 0x08, addr := 0 }, s)
  | some (c, j) => some (.eff (if kill then .kill c j else .tret c j), s)

def execTret (f : Flds) (s : State) : Answer := .next (s.perform (.act1 .n) f 1 false (serveBody false))
def execKill (f : Flds) (s : State) : Answer := .next (s.perform (.act1 .n) f 1 false (serveBody true))

end Sys2Proof.Machine
end

