-- ==== Sys2Proof/Machine/Match.lean ====
section
/-! DEFINITION. Matching, block fills, bins and arbitration (R29 to R33, R186 to R201, R260): a token from its arrival at a
core to the chord that its instance joins. -/

namespace Sys2Proof.Machine

/-! ### Frames (R186, R187) -/

def Core.port (k : Core) (j p : Nat) : Word := wordOfBytes (mgets k.sram (k.frameAddr j + 8 * p) 8)
def Core.setPort (k : Core) (j p : Nat) (w : Word) : Core :=
  k.putSram (k.frameAddr j + 8 * p) (bytesOfWord w)

/-- The exact accumulator in frame bytes 88 to 127. -/
def Core.exactSum (k : Core) (j : Nat) : BitVec 320 := BitVec.ofNat 320 (natOfBytes (mgets k.sram (k.frameAddr j + 88) 40))
def Core.setExactSum (k : Core) (j : Nat) (x : BitVec 320) : Core :=
  k.putSram (k.frameAddr j + 88) (bytesOfNat 40 x.toNat)

/-! ### Blocks on a core (R29, R30, R203, R260) -/

def Core.cached? (k : Core) (n : BitVec 12) (act : BitVec 16) (va : Nat) : Option CBlock :=
  k.cache.find? fun b => b.ctx == n && b.act == act && b.va == va

def Core.refused? (k : Core) (n : BitVec 12) (act : BitVec 16) (va : Nat) : Option Refused :=
  k.refused.find? fun b => b.ctx == n && b.act == act && b.va == va

/-- The virtual address of a block. -/
def Act.blockVa (a : Act) (dblock : BitVec 32) : Nat := a.image + 16 * dblock.toNat

/-- The room a lane of a block takes in the commit and send buffers (R203). -/
def roomOf (h : Header) (ws : List Word) : Nat × Nat :=
  let count (p : Instr → Bool) : Nat := ((cellsOf false ws).filter fun c => match c with | .instr _ _ i _ => p i | _ => false).length
  (h.memops.toNat + count Instr.isRput, count Instr.sendsToken)

/-- Asks for a block's fill on behalf of a token or a chord, or joins the one under way; one that has stopped at a page fault is
joined by none, since a new access looks for the page again (R32, R189, R388, R389). -/
def Core.askFill (k : Core) (n : BitVec 12) (act : BitVec 16) (va : Nat) (t : List Token) : Core :=
  let same (f : BFill) : Bool := f.ctx == n && f.act == act && f.va == va && f.stop.isNone
  if k.bfills.any same then { k with bfills := k.bfills.map fun f => if same f then { f with toks := f.toks ++ t } else f }
  else { k with bfills := k.bfills ++ [{ ctx := n, act, va, toks := t }] }

/-- Whether a context's tokens are matched on the package: resident, or leaving and not yet at step 4 of R331. -/
def Ctx.matches_ (x : Ctx) : Bool :=
  match x.st with
  | .resident => !x.restoring
  | .leaving => x.phase < 4 && !x.restoring
  | _ => false

/-! ### Rejection (R191, R337) -/

/-- A record from the words of a trap token (R338). -/
def TrapRec.unpack (t : BitVec 256) : TrapRec :=
  { cause := t.extractLsb' 0 8, reason := t.extractLsb' 8 8, code := t.extractLsb' 16 16, act := t.extractLsb' 32 16,
    index := t.extractLsb' 48 8, hid := t.extractLsb' 56 8, tag := t.extractLsb' 64 32, block := t.extractLsb' 96 32,
    addr := t.extractLsb' 128 64, aux := t.extractLsb' 192 63, atomf := t.getLsbD 255 }

/-- Rejects a token: a trap token with the record of R191; a trap token that cannot be matched escalates (R337). -/
def State.reject (s : State) (c : Nat) (t : Token) (e : Option Entry) (x : Trap) (trapBlk : Bool := false) : State :=
  if t.trapf then s.escalate t.ctx 2 (TrapRec.unpack t.tail)
  else
    let handle : Word := match e with
      | some e => frameHandle c e.frame
      | none => 0
    s.sendTrap c t.ctx handle trapBlk (x.record t.act t.tag t.dblock t.hid 0xFF false)

def trapCollision (t : Token) (reason : BitVec 8) : Trap :=
  { cause := 0x03, reason, addr := t.payload, aux := t.port.setWidth 63 }

def trapCount (t : Token) (reason : BitVec 8) (target : Nat) : Trap :=
  { cause := 0x04, reason, addr := t.payload, aux := BitVec.ofNat 63 (t.payload.toNat % 65536 + target * 65536) }

def trapMismatch (t : Token) (h : BitVec 8) : Trap :=
  { cause := 0x0D, addr := t.payload, aux := BitVec.ofNat 63 (t.port.toNat + h.toNat * 256) }

/-! ### Filling a port (R190, R192, R193, R218) -/

/-- Whether port i0 of a block takes one arrival only, as any other port does: it does not accumulate, or its count target is 1
(R192). With that target mode 0x7 delivers the number of arrivals, 1, as R192's table has it (assumption log 46). -/
def ordinary (h : Header) (e : Option Entry) : Bool :=
  h.accum == 0 || (if h.dcount then (e.bind Entry.target) == some 1 else h.scount.toNat == 1)

/-- A valid count of a DCOUNT port (R193). -/
def countOk (w : Word) : Bool := w.toNat / 65536 == 0 && w.toNat != 0

/-- The running value of an accumulating i0 after one more arrival (R192): the entry and the frame. -/
def Core.accumulate (k : Core) (e : Entry) (mode : Nat) (w : Word) : Core × Entry :=
  let j := e.frame
  let first := e.arrivals = 0
  let old := k.port j 0
  let least (a b : Int) : Word := if a ≤ b then old else w
  match mode with
  | 1 => (k.setPort j 0 (if first then w else old + w), e)
  | 2 => (k, { e with sum := e.sum + w.signExtend 80 })
  | 3 => (k.setPort j 0 (if first then w else least old.toInt w.toInt), e)
  | 4 => (k.setPort j 0 (if first then w else least w.toInt old.toInt), e)
  | 5 => (k.setPort j 0 (if first then w else least old.toNat w.toNat), e)
  | 6 => (k.setPort j 0 (if first then w else least w.toNat old.toNat), e)
  | 8 =>
    let x := w.toNat % 2 ^ 32
    (k.setExactSum j (fsumAdd (if first then 0 else k.exactSum j) x), if x = 0x80000000 then e else { e with sum := 1 })
  | _ => (k, e)

/-- The value i0 holds once its count is reached (R192). -/
def Core.settleCount (k : Core) (e : Entry) (mode : Nat) : Core :=
  match mode with
  | 2 => k.setPort e.frame 0 (BitVec.ofInt 64 (satS e.sum.toInt 64))
  | 7 => k.setPort e.frame 0 (BitVec.ofNat 64 e.arrivals)
  | 8 =>
    let k' := k.setPort e.frame 0 (BitVec.ofNat 64 (fsumExact (k.exactSum e.frame) (e.sum == 0)))
    if k.badIn (k.frameAddr e.frame + 88) 40 then { k' with bad := k'.bad ++ (List.range 8).map (k.frameAddr e.frame + ·) } else k'
  | _ => k

/-- One accepted token at its port: the core, with the entry in place of the one it had. -/
def Core.fillPort (k : Core) (e : Entry) (h : Header) (t : Token) : Core × Entry :=
  let p := t.port.toNat
  if p = 0 ∧ h.accum ≠ 0 then
    let bad := k.bad
    let (k, e) := k.accumulate e h.accum.toNat t.payload
    let k := if e.arrivals = 0 then k else { k with bad }
    let target := e.target.getD (if h.dcount then t.payload.toNat % 65536 else h.scount.toNat)
    let e := { e with arrivals := e.arrivals + 1, target := some target }
    if target ≤ e.arrivals then (k.settleCount e h.accum.toNat, { e with filled := e.filled ||| 1 }) else (k, e)
  else (k.setPort e.frame p t.payload, { e with filled := e.filled ||| (1#16 <<< p) })

/-- The deeper of two HIDs of one chain (R190). -/
def State.deeper (s : State) (n : BitVec 12) (a b : BitVec 8) : BitVec 8 :=
  if s.hypDepth n a < s.hypDepth n b then b else a

namespace State

/-- Accepts a token into the entry of a frame: it acquires first where its port does (R218), and the instance becomes ready
when its last port is filled (R196). -/
def acceptToken (s : State) (c frame : Nat) (h : Header) (t : Token) : State :=
  let s := if h.acquire.getLsbD t.port.toNat && t.relf then s.acquire c t.tail else s
  match (s.core c).entry? frame with
  | none => s
  | some e =>
    let (k, e) := (s.core c).fillPort { e with hid := s.deeper t.ctx e.hid t.hid } h t
    let s := s.setCore c (k.modEntry frame fun _ => e)
    if e.filled = h.expect then s.makeReady c frame else s

/-- Whether the set of an identity has a free way. -/
def wayFree (s : State) (c : Nat) (t : Token) : Bool :=
  let set := matchSet t.act t.dblock t.tag
  ((s.core c).entries.filter fun e => e.set == set).length < Config.matchWays

/-- Makes an entry for a token's identity, in a freely chosen free frame (assumption log 11); none where there is no way or
no frame. -/
def newEntry (s : State) (c : Nat) (t : Token) (h : Header) (room : Nat × Nat) : Option (Nat × State) :=
  let n := (s.core c).frames
  if n = 0 ∨ !s.wayFree c t then none
  else
    let (j0, s) := s.pick n
    match (List.range n).find? fun i => (s.core c).frameFree ((j0 + i) % n) with
    | none => none
    | some i =>
      let frame := (j0 + i) % n
      let e : Entry := { ctx := t.ctx, act := t.act, dblock := t.dblock, tag := t.tag, hid := t.hid, frame, hdr := h, room }
      some (frame, (s.freshAccs c).modCore c fun k => { k with entries := k.entries ++ [e] })

/-- A token for the spill table as a core writes it (R193, R194). -/
def divert (s : State) (t : Token) (h : Header) : State := s.spillPut { t with cntf := h.dcount && t.port == 0 }

/-- Places a token at the tail of the ingress FIFO; a full FIFO diverts it (R194). -/
def toFifo (s : State) (c : Nat) (t : Token) (h : Header) (room : Nat × Nat) : State :=
  let k := s.core c
  if k.fifo.length < Config.fifoCore + Config.fifoPerBank * k.banks 3 then
    (s.freshAccs c).modCore c fun k => { k with fifo := k.fifo ++ [{ tok := t, since := s.cycle, hdr := h, room }] }
  else s.divert t h

/-- A trap token's arrival: the handle and the record fill five ports at once; an i0 that counts to more than one is no port that
one arrival fills (R192, R337). -/
def matchTrap (s : State) (c : Nat) (t : Token) (e : Option Entry) (h : Header) (room : Nat × Nat) : State :=
  let p := t.port.toNat
  if e.isSome ∨ 11 < p ∨ h.expect ≠ (0x1F#16 <<< p) ∨ (p = 0 ∧ !ordinary h none) then s.reject c t e (trapCollision t 1)
  else match s.newEntry c t h room with
    | none => s.toFifo c t h room
    | some (frame, s) =>
      let words := t.payload :: (List.range 4).map fun i => t.tail.extractLsb' (64 * i) 64
      let s := s.modCore c fun k =>
        let k := words.zipIdx.foldl (fun (k : Core) (w : Word × Nat) => k.setPort frame (p + w.2) w.1) k
        match k.entry? frame with
        | none => k
        | some e =>
          let (k, e) := k.fillPort e h t
          k.modEntry frame fun _ => { e with filled := h.expect }
      s.makeReady c frame

/-- R189 once the header is known. -/
def matchHeader (s : State) (c : Nat) (t : Token) (e : Option Entry) (h : Header) (room : Nat × Nat) : State :=
  let p := t.port.toNat
  let counted := h.dcount && p == 0
  if t.trapf then s.matchTrap c t e h room
  else match e with
    | none =>
      if !h.expect.getLsbD p then s.reject c t none (trapCollision t 1)
      else if counted && !countOk t.payload then s.reject c t none (trapCount t 0 0)
      else match s.newEntry c t h room with
        | none => s.toFifo c t h room
        | some (frame, s) => s.acceptToken c frame h t
    | some e =>
      if !h.expect.getLsbD p then s.reject c t (some e) (trapCollision t 1)
      else if e.filled.getLsbD p then s.reject c t (some e) (trapCollision t (if p = 0 ∧ !ordinary h (some e) then 2 else 0))
      else if !(s.isAncestor t.ctx t.hid e.hid || s.isAncestor t.ctx e.hid t.hid) then s.reject c t (some e) (trapMismatch t e.hid)
      else if counted && (!countOk t.payload || (match e.target with | some n => n != t.payload.toNat | none => false)) then
        s.reject c t (some e) (trapCount t (if e.target.isSome then 1 else 0) (e.target.getD 0))
      else s.acceptToken c e.frame h t

/-- Matches a token at a core (R189 to R193): discarded where R191 and R385 discard it; for an instance that is there matched or
rejected at once (R207); else rejected where its block is refused, waiting for the block's fill where the block is not there, or
matched. `seen` is what the core has read of its block before, if the token comes from the ingress FIFO. -/
def matchToken (s : State) (c : Nat) (t : Token) (seen : Option (Header × (Nat × Nat)) := none) : State :=
  match s.act? (actKey t.ctx t.act) with
  | none => s.countDiscard t.ctx
  | some a =>
    if (s.placement (actKey t.ctx t.act) s.pkg).isEmpty then s.countDiscard t.ctx
    else if s.hypState t.ctx t.hid = 3 then s
    else
      let k := s.core c
      let va := a.blockVa t.dblock
      match k.entries.find? fun e => e.ctx == t.ctx && e.act == t.act && e.dblock == t.dblock && e.tag == t.tag with
      | some e => s.matchHeader c t (some e) e.hdr e.room
      | none => match k.cached? t.ctx t.act va, k.refused? t.ctx t.act va, seen with
        | some b, _, _ => s.matchHeader c t none b.hdr (roomOf b.hdr b.words)
        | none, some r, _ => s.reject c t none { cause := 0x01, code := r.syndrome, addr := BitVec.ofNat 64 va } r.trapblk
        | none, none, some (h, room) => s.matchHeader c t none h room
        | none, none, none => s.modCore c fun k => k.askFill t.ctx t.act va [t]

/-! ### The ingress FIFO (R194) -/

/-- The waiting token to deliver next: one whose identity has an entry, else the oldest whose set has a free way. -/
def fifoPick (s : State) (c : Nat) : Option Nat :=
  let k := s.core c
  match k.fifo.findIdx? fun w => k.entries.any fun e =>
      e.ctx == w.tok.ctx && e.act == w.tok.act && e.dblock == w.tok.dblock && e.tag == w.tok.tag with
  | some i => some i
  | none => if (k.freeFrame).isNone then none else k.fifo.findIdx? fun w => s.wayFree c w.tok

end State

def examineAux (c : Nat) : Nat → State → State
  | 0, s => s
  | n + 1, s => match s.fifoPick c with
    | none => s
    | some i => match (s.core c).fifo[i]? with
      | none => s
      | some w => examineAux c n ((s.modCore c fun k => { k with fifo := ldrop k.fifo i }).matchToken c w.tok (some (w.hdr, w.room)))

namespace State

/-- A core examines its waiting tokens, as it does each time an entry or a frame is freed or made. -/
def examineFifo (s : State) (c : Nat) : State := examineAux c (s.core c).fifo.length s

/-! ### Descriptors and tokens for contexts that are away (R325, R335) -/

/-- The descriptor of a context as it stands in the context table. -/
def tableDesc (s : State) (n : BitVec 12) : Desc :=
  let at_ := s.ctxRegs.tabBase.toNat + 128 * n.toNat
  let w (i : Nat) : Word := s.homeWord (at_ + 8 * i)
  let w0 := w 0
  { valid := w0.getLsbD 0, prio := (bits w0 1 3).toNat, share := (bits w0 4 4).toNat, frameB := (bits w0 8 5).toNat,
    fifoB := (bits w0 13 5).toNat, secure := w0.getLsbD 18, quantum := (bits w0 32 16).toNat, wdog := (bits w0 48 16).toNat,
    xroot := w 1, domain := w 2, spill := w 3, spillN := (bits (w 4) 0 32).toNat, save := w 5, timage := w 6,
    tentry := (bits (w 7) 0 8).toNat, tparam := w 8, evec := bits (w 9) 0 11, symtab := w 10 }

/-- Whether the context's table entry breaks the field rules of R325, or its translation root those of R391. DESIGN CHOICE (assumption log
48): a set bit among bits 63:32 of the word at 0x20, of which R325 says nothing, breaks it. -/
def tableBroken (s : State) (n : BitVec 12) : Bool :=
  let at_ := s.ctxRegs.tabBase.toNat + 128 * n.toNat
  let w (i : Nat) : Word := s.homeWord (at_ + 8 * i)
  let d := s.tableDesc n
  d.share == 0 || d.frameB == 0 || decide (24 < d.frameB) || decide (23 < d.fifoB) || bits (w 0) 19 13 != 0
    || bits (w 1) 0 13 != 0 || bits (w 1) 52 12 != 0
    || d.spill.toNat % 64 != 0 || bits (w 4) 32 32 != 0 || decide (d.spillN < 4096) || decide (2 ^ 31 < d.spillN)
    || d.spillN != 2 ^ Nat.log2 d.spillN || d.save.toNat % 2 ^ 22 != 0 || bits (w 7) 8 56 != 0 || bits (w 9) 11 53 != 0
    || (List.range 5).any fun i => w (11 + i) != 0

/-- The context with its descriptor: an absent context's is read afresh. -/
def loadDesc (s : State) (n : BitVec 12) : State :=
  if (s.ctx n).st = .absent then s.modCtx n fun x => { x with desc := s.tableDesc n } else s

/-! ### The steps of matching -/

/-- A token on the network arrives at its core (R189, R335). One for a context that is away is left to SPILL_APPEND. -/
def arrivalStep (s : State) (n : Nat) : State :=
  match s.net[n]? with
  | none => s
  | some t =>
    let s0 := { s with net := ldrop s.net n }.loadDesc t.ctx
    let x := s0.ctx t.ctx
    if t.dpkg ≠ s.pkg then (s0.sendToken t).payAcks
    else if !x.desc.valid then s0.protectionEvent 1 t.ctx t.spkg
    else if x.matches_ then (s0.matchToken t.dcore.toNat t).examineFifo t.dcore.toNat
    else s

/-- A token for a context that is not resident, or that has left, is appended to its spill table (R195, R335). -/
def appendStep (s : State) (n : Nat) : State :=
  match s.net[n]? with
  | none => s
  | some t =>
    let s0 := { s with net := ldrop s.net n }.loadDesc t.ctx
    let x := s0.ctx t.ctx
    let gone := match s0.act? (actKey t.ctx t.act) with
      | some _ => (s0.placement (actKey t.ctx t.act) s0.pkg).isEmpty
      | none => false
    if t.dpkg ≠ s.pkg then s
    else if !x.desc.valid then s0.protectionEvent 1 t.ctx t.spkg
    else if x.matches_ then s
    else if gone then s0.countDiscard t.ctx
    else if s0.spillStuck t.ctx then s
    else s0.spillPut t

/-- A token that has waited its time in the FIFO is diverted (R194). -/
def divertStep (s : State) (c n : Nat) : State :=
  match (s.core c).fifo[n]? with
  | none => s
  | some w =>
    if w.since + Config.divertCycles ≤ s.cycle ∧ !s.spillStuck w.tok.ctx then
      (s.modCore c fun k => { k with fifo := ldrop k.fifo n }).divert w.tok w.hdr
    else s

end State

/-- Frees the slots at the head of a spill table that hold no token. -/
def advanceHead (n : BitVec 12) : Nat → State → State
  | 0, s => s
  | f + 1, s =>
    let x := s.ctx n
    if x.spillHead < x.spillTail ∧ (s.spillAt n x.spillHead).act = 0 then
      advanceHead n f (s.modCtx n fun x => { x with spillHead := x.spillHead + 1 })
    else s

namespace State

/-- Frees a slot of a spill table: its ACT field becomes 0, and the head passes it. -/
def freeSlot (s : State) (n : BitVec 12) (i : Nat) : State :=
  let s := s.aput n (s.spillSlot n i + 16) (bytesOfWord { s.spillAt n i with act := 0 }.word2)
  let x := s.ctx n
  refillSpill n x.overflow.length (advanceHead n (x.spillTail - x.spillHead) s)

/-- The oldest slot that a core's request finds: one that holds a token for the core or for none, or whose data is uncorrectable. -/
def spillFor (s : State) (n : BitVec 12) (c : Nat) : Option Nat :=
  let x := s.ctx n
  ((List.range (x.spillTail - x.spillHead)).map (x.spillHead + ·)).find? fun i =>
    let t := s.spillAt n i
    t.act != 0 && (s.slotBad n i || (t.dpkg == s.pkg && (s.coreFor t).all fun k => k == c))

/-- A core with an empty FIFO and a free frame receives the oldest token spilled towards it (R195). A slot whose data is uncorrectable
escalates, and its token is lost (R343, assumption log 20). -/
def reloadStep (s : State) (n : BitVec 12) (c : Nat) : State :=
  let k := s.core c
  if !(s.ctx n).matches_ || !k.fifo.isEmpty || k.freeFrame.isNone then s
  else match s.spillFor n c with
    | none => if (s.ctx n).spillHead < (s.ctx n).spillTail then s.denyPages n (s.spillSlot n (s.ctx n).spillHead) 64 else s
    | some i =>
      let t := { s.spillAt n i with skind := 7, score := 0xFF, cntf := false, dcore := BitVec.ofNat 8 c }
      if s.slotBad n i then (s.freeSlot n i).escalate n 6 {}
      else if s.slotOk n i then ((s.freeSlot n i).matchToken c t).examineFifo c else (s.freeSlot n i).slotError

/-! ### Parking the lanes of a chord (R30, R132, R377, R389) -/

/-- Voids a lane: an orphan is discarded and counted; else the instance takes its trap. A page fault closed meanwhile
returns it to its bin at once. -/
def parkLane (s : State) (c : Nat) (ch : Chord) (x : Lane) (t : Trap) (idx : Nat) (trapBlk : Bool) : State :=
  if s.hypState ch.ctx x.hid = 3 then
    (s.modCore c fun k => k.freeEntry x.frame).modCtx ch.ctx fun y => { y with orphans := y.orphans + 1 }
  else
    let s := s.takeTrap c x.frame trapBlk t idx x.atomf
    match t.fault with
    | some id => if s.xlt.faults.any fun f => f.id == id then s else s.returnParked c x.frame
    | none => s

/-- Voids a chord none of whose instructions has run. The chord may have no block yet: whether it is a trap-handler block, an instance
that has its header knows (R341). -/
def voidChord (s : State) (c slot : Nat) (t : Trap) (trapBlk : Bool) : State :=
  match s.chord? c slot with
  | none => s
  | some ch =>
    let s := ch.lanes.foldl (fun s l => s.parkLane c ch l.2 t 0xFF (trapBlk || ((s.core c).entry? l.2.frame).any fun e => e.hdr.trapblk)) s
    (s.delChord c slot).examineFifo c

/-! ### Block fills (R29 to R33, R189, R229, R260) -/

end State

/-- The segments of cached blocks. -/
def Core.segments (k : Core) : Nat := (k.cache.map fun b => (16 + 8 * b.words.length + 63) / 64).sum

/-- A block some granted chord uses. -/
def Core.pinned (k : Core) (b : CBlock) : Bool := k.chords.any fun c => c.2.ctx == b.ctx && c.2.act == b.act && c.2.va == b.va

/-- Replaces freely chosen blocks that are not pinned until so many segments are free (R260, assumption log 11). -/
def evict (c : Nat) (need : Nat) : Nat → State → State
  | 0, s => s
  | f + 1, s =>
    let k := s.core c
    let l := k.cache.filter fun b => !k.pinned b
    if k.segments + need ≤ Config.cacheSegments ∨ l.isEmpty then s
    else
      let (i, s) := s.pick l.length
      match l[i]? with
      | some b => evict c need f (s.modCore c fun k => { k with cache := k.cache.filter fun x => x != b })
      | none => s

/-- The chords of a core that wait for a block. -/
def Core.waitingChords (k : Core) (f : BFill) : List Nat :=
  (k.chords.filter fun c => c.2.ctx == f.ctx && c.2.act == f.act && c.2.va == f.va && c.2.img.isNone).map (·.1)

namespace State

/-- Takes a fill off the core's list. -/
def dropFill (s : State) (c n : Nat) : State := s.modCore c fun k => { k with bfills := ldrop k.bfills n }

/-- The tokens of a fill that cannot complete: one for an instance that is there by now is matched, and any other is rejected. Their
records hold what R339 gives for the cause, and so neither payload nor port (assumption log 46). -/
def rejectFill (s : State) (c : Nat) (f : BFill) (t : Trap) : State :=
  f.toks.foldl (fun s k =>
    if (s.core c).entries.any fun e => e.ctx == k.ctx && e.act == k.act && e.dblock == k.dblock && e.tag == k.tag then s.matchToken c k
    else s.reject c k none t) s

/-- A fill that met a trap: its chords' lanes are parked with it, and its tokens are rejected. -/
def failFill (s : State) (c : Nat) (f : BFill) (t : Trap) : State :=
  (((s.core c).waitingChords f).foldl (fun s i => s.voidChord c i t false) s).rejectFill c f { t with addr := BitVec.ofNat 64 f.va }

/-- A fill that validated: the block is cached, its chords may run and its tokens are matched. -/
def endFill (s : State) (c : Nat) (f : BFill) (h : Header) (ws : List Word) : State :=
  let s := evict c ((16 + 8 * ws.length + 63) / 64) (s.core c).cache.length s
  let new : CBlock := { ctx := f.ctx, act := f.act, va := f.va, hdr := h, words := ws }
  let s := s.modCore c fun k =>
    let w := k.waitingChords f
    { k with cache := k.cache ++ [new], chords := k.chords.map fun p => if w.contains p.1 then (p.1, { p.2 with img := some (h, ws), imgAt := s.cycle }) else p }
  (f.toks.foldl (fun s t => s.matchToken c t) s).examineFifo c

/-- A fill that was refused: recorded, its chords' lanes parked with BLOCK_FORMAT, its tokens rejected. -/
def refuseFill (s : State) (c : Nat) (f : BFill) (syn : BitVec 16) (trapBlk : Bool) (len : Nat) : State :=
  let rec_ : Refused := { ctx := f.ctx, act := f.act, va := f.va, syndrome := syn, trapblk := trapBlk, len }
  let w := (s.core c).waitingChords f
  let s := s.modCore c fun k => { k with refused := (k.refused ++ [rec_]).drop (k.refused.length + 1 - Config.refusedRecords) }
  let t : Trap := { cause := 0x01, code := syn, addr := BitVec.ofNat 64 f.va }
  let s := w.foldl (fun s i => s.voidChord c i t trapBlk) s
  (f.toks.foldl (fun s k => s.matchToken c k) s).examineFifo c

/-- The lines a fill reads enter the L2, where they are pinned while it runs (R256). -/
def enterPinned (s : State) (pl : List Place) : State :=
  let lines := (pl.filterMap fun p => match p with
    | .home pa _ slot => some (slot, lineOf pa)
    | _ => none).eraseDups
  lines.foldl (fun s p => s.l2Enter (lines.map (·.2)) p.1 p.2) s

/-- A fill ends. The header and then the whole image are read under the checks of an execute access. -/
def blockFillStep (s : State) (c n : Nat) : State :=
  match (s.core c).bfills[n]? with
  | none => s
  | some f =>
    if f.stop.isSome then s
    else
      let who : Who := { core := some c, die := dieOf c, ctx := f.ctx, act := f.act, kind := 2, job := c + 256 * f.va }
      let stopped (t : Trap) (s' : State) : State := match t.fault with
        | some id =>
          let w := (s'.core c).waitingChords f
          let s' := w.foldl (fun s i => s.voidChord c i t false) (if w.isEmpty then s'.engFault f.ctx f.act { id, addr := t.addr } else s')
          if f.toks.isEmpty then s'.dropFill c n
          else s'.modCore c fun k => { k with bfills := lset k.bfills n { f with stop := some { id, addr := t.addr } } }
        | none => ((s'.forgetJob who).dropFill c n).failFill c f t
      match s.checkPages who f.va 16 .exec with
      | .wait => s
      | .trap t s' => stopped t s'
      | .ok pl s1 => match s1.seek who pl with
        | .later s => s
        | .fails t => stopped t s
        | .got hp =>
          let hb := hp.map (engByte s1)
          let lo := wordOfBytes hb
          let hi := wordOfBytes (hb.drop 8)
          let len := 8 * (decHeader lo hi).n
          match s1.checkPages who (f.va + 16) len .exec with
          | .wait => s
          | .trap t s' => stopped t s'
          | .ok pw s2 => match s2.seek who pw with
            | .later s => s
            | .fails t => stopped t s
            | .got wp =>
              let s3 := (s2.bump.enterPinned (pl ++ pw)).forgetJob who
              if (pl ++ pw).any (engPoison s3) then (s3.dropFill c n).failFill c f (trapEcc (BitVec.ofNat 64 f.va) 4)
              else
                let ws := wordsOfBytes (len / 8) (wp.map (engByte s1))
                match validate lo hi ws with
                | .ok b => (s3.dropFill c n).endFill c f b.hdr ws
                | .error syn => (s3.dropFill c n).refuseFill c f syn (decHeader lo hi).trapblk (16 + len)

/-! ### Bins, grants and rounds (R197 to R201, R203, R384) -/

/-- The references of a bin that may be placed in a chord: those whose ready time has come (R199), and none under a hypothesis that is being
resolved. -/
def eligible (s : State) (c : Nat) (b : Bin) : List Ref :=
  b.refs.filter fun r => match (s.core c).entry? r.frame with
    | some e => decide (r.readyAt ≤ s.cycle) && s.hypState b.ctx e.hid ≤ 1
    | none => false

/-- The lanes of the chord a grant of a bin would make. Under replay they are those of the core's next chord entry, in logged
order, and there are none while that entry names another block or a tag is not ready (R437). -/
def lanesOf (s : State) (c : Nat) (b : Bin) : List Ref :=
  if s.replaying b.ctx then match s.nextChord c with
    | some e => if e.act = b.act ∧ bits e.w2 0 32 = b.dblock then (s.logLanes c (s.eligible c b) e).getD [] else []
    | none => []
  else (s.eligible c b).take 32

/-- The room a bin's lanes take for each lane. -/
def binRoom (s : State) (c : Nat) (b : Bin) : Nat × Nat :=
  match s.lanesOf c b with
  | r :: _ => (((s.core c).entry? r.frame).map Entry.room).getD (0, 0)
  | [] => (0, 0)

/-- Whether a bin's chord fits the buffers as they stand (R200, R203). -/
def binFits (s : State) (c : Nat) (b : Bin) : Bool :=
  let chords := (s.core c).chords
  let n := (s.lanesOf c b).length
  let room := s.binRoom c b
  (chords.map fun p => p.2.room.1 * p.2.lanes.length).sum + room.1 * n ≤ Config.commitRoom
    && (chords.map fun p => p.2.room.2 * p.2.lanes.length).sum + room.2 * n ≤ Config.sendRoom

/-- A chord from the oldest references of a bin (R199, R251). A lane one of whose ports is uncorrectable is void from the start
(R343). -/
def grant (s : State) (c i slot : Nat) (b : Bin) : State :=
  let k := s.core c
  let refs := s.lanesOf c b
  let lane (r : Ref) : Lane := match k.entry? r.frame with
    | some e => { tag := e.tag, hid := e.hid, hid0 := e.hid, frame := r.frame, ports := (List.range 16).map (k.port r.frame) }
    | none => { tag := 0, hid := 0, hid0 := 0, frame := r.frame, ports := [] }
  let gathered (r : Ref) : Lane :=
    if (List.range 16).any fun p => b.hdr.expect.getLsbD p && k.badIn (k.frameAddr r.frame + 8 * p) 8 then
      { lane r with doom := some (trapEcc 0 1, 0xFF) }
    else lane r
  let va := match s.act? (actKey b.ctx b.act) with
    | some a => a.blockVa b.dblock
    | none => 0
  let blk := k.cached? b.ctx b.act va
  let ch : Chord := { ctx := b.ctx, act := b.act, dblock := b.dblock, va, img := blk.map fun x => (x.hdr, x.words),
                      lanes := refs.zipIdx.map fun p => (p.2, gathered p.1), granted := s.cycle, imgAt := s.cycle,
                      room := s.binRoom c b }
  let rest := b.refs.filter fun r => !refs.contains r
  let s := if s.replaying b.ctx then match s.nextChord c with
      | some e => s.consumeLog e
      | none => s
    else s.recordChord b.ctx c slot b.act b.dblock (ch.lanes.map fun l => l.2.tag)
  let s := s.modCore c fun k =>
    let k := refs.foldl (fun k r => k.modEntry r.frame fun e => { e with state := .firing }) k
    let k := { k with bins := if rest.isEmpty then ndel k.bins i else nput k.bins i { b with refs := rest, losses := 0, credit := 0, due := none, fires := false } }
    Core.placeQueue { k with chords := nput k.chords slot ch }
  match blk, k.refused? b.ctx b.act va with
  | none, some r => s.voidChord c slot { cause := 0x01, code := r.syndrome, addr := BitVec.ofNat 64 va } r.trapblk
  | none, none => s.modCore c fun k => k.askFill b.ctx b.act va []
  | some _, _ => s

end State

/-- The entry of the greatest value, the lower bin number among equals. -/
def bestBin (f : Bin → Nat) (l : NMap Bin) : Option (Nat × Bin) :=
  l.foldl (fun best p => match best with
    | none => some p
    | some q => if f q.2 < f p.2 then some p else some q) none

namespace State

/-- The bin of a round (R200), or none where no round is held. -/
def roundBin (s : State) (c : Nat) (fs ps : NMap Bin) : Option (Nat × Bin) :=
  let due := fs.filter fun p => decide (4 ≤ p.2.losses)
  match due.foldl (fun best p => match best with
      | none => some p
      | some q => if p.2.due.getD 0 < q.2.due.getD 0 then some p else some q) (none : Option (Nat × Bin)) with
  | some g => if s.binFits c g.2 then some g else none
  | none => bestBin Bin.credit ps

/-- The bins of a core after a round that granted another: a loss for each firable bin, credit for those of P. -/
def loseRound (s : State) (c g : Nat) (fs ps : NMap Bin) : State :=
  s.modCore c fun k =>
    let bins := k.bins.map fun p =>
      if p.1 = g ∨ !(fs.any fun q => q.1 == p.1) then p
      else
        let b := p.2
        let share := (s.ctx b.ctx).desc.share * (if 48 < b.refs.length then 2 else 1)
        (p.1, { b with losses := b.losses + 1, due := if b.losses = 3 then some k.rounds else b.due,
                       credit := if ps.any (fun q => q.1 == p.1) then b.credit + share else b.credit })
    { k with rounds := k.rounds + 1, bins }

/-- Whether an acquisition of a core's chord is under way: no later chord of the core fires before it ends (R222). -/
def gated (s : State) (c : Nat) : Bool := (s.core c).chords.any fun p => p.2.waits.any Wait.gate

/-- One arbitration round of a core (R200). A firable bin none of whose references may be placed now (R384, R437) takes no part. -/
def roundStep (s : State) (c : Nat) : State :=
  if s.gated c then s
  else
  let s := s.refreshBins c
  let k := s.core c
  let fs := k.bins.filter fun p => p.2.fires && !(s.lanesOf c p.2).isEmpty
  let fit := fs.filter fun p => s.binFits c p.2
  let top := fit.foldl (fun m p => max m (s.ctx p.2.ctx).desc.prio) 0
  let ps := fit.filter fun p => (s.ctx p.2.ctx).desc.prio == top
  match (List.range 16).find? fun i => (nget k.chords i).isNone, s.roundBin c fs ps with
  | some slot, some (g, b) => (s.loseRound c g fs ps).grant c g slot b
  | _, _ => s

/-- A bin's sustain timer expires (R197): it is firable from then on. -/
def expiryStep (s : State) (c i : Nat) : State :=
  s.modCore c fun k => match nget k.bins i with
    | some b => { k with bins := nput k.bins i (s.refreshBin c b) }
    | none => k

end State

def execTokenArrival (n : Nat) (s : State) : Answer := .next (s.arrivalStep n)
def execBlockFill (core : BitVec 8) (n : Nat) (s : State) : Answer := .next (s.blockFillStep core.toNat n)
def execFifoDivert (core : BitVec 8) (n : Nat) (s : State) : Answer := .next (s.divertStep core.toNat n)
def execSpillReload (ctx : BitVec 12) (core : BitVec 8) (s : State) : Answer := .next (s.reloadStep ctx core.toNat)
def execSpillAppend (n : Nat) (s : State) : Answer := .next (s.appendStep n)
def execBinSustainExpiry (core : BitVec 8) (bin : BitVec 6) (s : State) : Answer := .next (s.expiryStep core.toNat bin.toNat)
def execArbitrationRound (core : BitVec 8) (s : State) : Answer := .next (s.roundStep core.toNat)

end Sys2Proof.Machine
end

