-- ==== Sys2Proof/Machine/Memory.lean ====
section
/-! DEFINITION. Memory, atomic and compaction instructions (R153 to R180, R211 to R214, R221, R222, R383, R414, R416): the
part that takes place at execution. What is buffered takes place in Commit.lean, what the update unit does in Update.lean. -/

namespace Sys2Proof.Machine

/-! ### Who accesses, and the lane's own stores (R156, R388) -/

/-- A lane's access as translation and page faults see it. -/
def laneWho (s : State) (ch : Chord) (i : Nat) (x : Lane) (kind : BitVec 8) : Who :=
  { core := some s.flow.focusCore, die := dieOf s.flow.focusCore, ctx := ch.ctx, act := ch.act, hid := x.hid, tag := x.tag,
    block := ch.dblock, index := i, kind, job := s.flow.focusCore * 16 + s.flow.focusSlot + 2 ^ 12 * i + 2 ^ 20 * ch.granted }

/-- The outcome of an instruction that has asked for bytes beyond the package: nothing yet, and it is executed again with each answer
(R238). -/
def awaitRead (s : State) (w : Who) : LaneRes × State :=
  let (id, s) := s.newId
  ({ v0 := none, v1 := none,
     wait := some { id, idx := 0, lanes := [], fin := { bytes := 0 }, got := [none], t0 := none, t1 := none, order := true, redo := some w.job } }, s)

/-- Whether two places are one byte. -/
def sameByte : Place → Place → Bool
  | .home a _ _, .home b _ _ => a == b
  | .remote p a _ _, .remote q b _ _ => p == q && a == b
  | .host a, .host b => a == b
  | .sram c a, .sram d b => c == d && a == b
  | _, _ => false

/-- The newest byte among those a store effect writes, or the one found before. -/
def newest (p : Place) (bs : List (Place × Byte)) (acc : Option Byte) : Option Byte :=
  bs.foldl (fun acc q => if sameByte p q.1 then some q.2 else acc) acc

/-- The byte the lane's own buffered stores give a place (R156). -/
def Lane.own (x : Lane) (p : Place) : Option Byte :=
  x.effs.foldl (fun acc e => match e.2 with
    | .store _ bs => newest p bs acc
    | .storeRel bs _ => newest p bs acc
    | _ => acc) none

/-- Lays the lane's own bytes over those read. -/
def overlay (x : Lane) (pl : List Place) (got : List (Option Byte)) : List (Option Byte) :=
  (pl.zip got).map fun p => match x.own p.1 with
    | some b => some b
    | none => p.2

/-! ### Values (R25, R160) -/

def sizeFin : Size → Fin
  | .n8 => { bytes := 1 } | .n16 => { bytes := 2 } | .n32 => { bytes := 4 } | .w64 => { bytes := 8 } | .w128 => { bytes := 16 }
  | .i8 => { bytes := 1, signed := true } | .i16 => { bytes := 2, signed := true } | .i32 => { bytes := 4, signed := true }

def stBytes : StSize → Nat
  | .n8 => 1 | .n16 => 2 | .n32 => 4 | .w64 => 8 | .w128 => 16

def atBytes : AtSize → Nat
  | .n32 => 4 | .w64 => 8 | .i32 => 4

def atFin (sz : AtSize) : Fin := { bytes := atBytes sz, signed := sz == .i32 }

/-- The two target values of a load's bytes. -/
def Fin.value (f : Fin) (bs : List Byte) : Word × Word :=
  let x := natOfBytes bs
  let lo : Word := BitVec.ofNat 64 x
  if f.bytes = 16 then (lo, BitVec.ofNat 64 (x / 2 ^ 64))
  else
    let v : Word := match f.signed, f.bytes with
      | true, 1 => (lo.setWidth 8).signExtend 64
      | true, 2 => (lo.setWidth 16).signExtend 64
      | true, 4 => (lo.setWidth 32).signExtend 64
      | _, _ => lo
    (v, v)

/-! ### Requests for bytes that lie elsewhere (R158, R211) -/

/-- The runs of places whose byte is missing: offset, length and first place. -/
def missingRuns : Nat → List (Place × Option Byte) → List (Nat × Nat × Place) → List (Nat × Nat × Place)
  | _, [], acc => acc.reverse
  | i, (_, some _) :: r, acc => missingRuns (i + 1) r acc
  | i, (p, none) :: r, (o, n, p0) :: acc =>
    if o + n = i && follows (p0.plus (n - 1)) p then missingRuns (i + 1) r ((o, n + 1, p0) :: acc)
    else missingRuns (i + 1) r ((i, 1, p) :: (o, n, p0) :: acc)
  | i, (p, none) :: r, [] => missingRuns (i + 1) r [(i, 1, p)]

/-- Asks for a run of bytes on behalf of a waiting lane. `what` is 0 for a plain read, 7 for one that acquires. -/
def State.askRun (s : State) (ch : Chord) (who : ReplyTo) (what : Nat) (r : Nat × Nat × Place) : State :=
  match r.2.2 with
  | .remote pkg pa key sec =>
    let (id, s) := s.newId
    let q : RemoteReq := { (default : RemoteReq) with
      what, srcPkg := s.pkg, srcCore := BitVec.ofNat 8 who.core, ctx := ch.ctx, id, pa, len := r.2.1, key, sec }
    s.sendAccess pkg who.core q (.load who r.1 r.2.1)
  | .host a =>
    let (id, s) := s.newId
    s.sendHost ch.ctx id (.read a r.2.1 id) (.load who r.1 r.2.1)
  | _ => s

/-! ### Loads (R160, R163) -/

/-- A load's outcome from its bytes: the values, or a wait for bytes that lie elsewhere. Those are asked for whole, with bytes the lane
stored itself among them, so that an aligned load is one access there (R155); one that acquires is performed there whatever the lane
has stored (R162, R222). -/
def State.finishLoad (s : State) (ch : Chord) (x : Lane) (fin : Fin) (pl : List Place) (raw : List (Option Byte)) (ea : Word)
    (acquire : Bool) : LaneRes × State :=
  let got := overlay x pl raw
  if got.all (·.isSome) && !acquire then
    let v := fin.value (got.filterMap id)
    ({ v0 := some v.1, v1 := some v.2 }, s)
  else
    let (w, s) := s.newId
    let who : ReplyTo := { core := s.flow.focusCore, slot := s.flow.focusSlot, wait := w }
    let s := (missingRuns 0 (pl.zip raw) []).foldl (fun s r => s.askRun ch who (if acquire then 7 else 0) r) s
    ({ v0 := none, v1 := none,
       wait := some { id := w, idx := 0, lanes := [], fin, got, t0 := none, t1 := none, acquire, gate := acquire && pl.all (!·.host?),
                      addr := ea } }, s)

/-- A load in a lane (R160): the checks of R157, then the bytes as R156 and R158 give them. -/
def loadBytes (fin : Fin) (s : State) (ch : Chord) (i : Nat) (x : Lane) (ea : Word) : Option (LaneRes × State) :=
  let w := laneWho s ch i x 0
  match s.check s.flow.focusCore w ea fin.bytes (if fin.bytes = 16 then 16 else 1) .read false false with
  | .wait => none
  | .trap t s => some (.trapped t, s)
  | .ok pl s => match readPlaces s.flow.focusCore ch.ctx x.hid pl s with
    | none => none
    | some ((got, bad), s) =>
      if bad then some (.trapped (trapEcc ea 0), s) else some (s.finishLoad ch x fin pl got ea false)

def ldBody (sz : Size) : Body := fun s ch i _ x v => loadBytes (sizeFin sz) s ch i x (v.a + v.b)

def execLd (sz : Size) (f : Flds) (s : State) : Answer := .next (s.perform .bin f 1 true (ldBody sz))

/-- LDT in a lane (R163): the load, then the token that carries its value. -/
def ldtBody (sz : Size) (d : TokenDest) : Body := fun s ch i _ x v =>
  match loadBytes (sizeFin sz) s ch i x (v.a + v.b) with
  | none => none
  | some (r, s) =>
    if r.trap.isSome then some (r, s)
    else match routeToken s ch s.flow.focusCore x d x.tag (r.v0.getD 0) 0 with
      | .error t => some (.trapped t, s)
      | .ok t => some ({ v0 := some 0, v1 := some 0, effs := [.send t false],
                         wait := r.wait.map fun w => { w with ldt := true } }, s)

def execLdt (sz : Size) (d : TokenDest) (f : Flds) (s : State) : Answer := .next (s.perform (.act2 .n) f 2 true (ldtBody sz d))

/-! ### Flag loads (R162, R214, R222) -/

/-- The line of a place in the own package's memory. -/
def placeLine : Place → Option Nat
  | .home pa _ _ => some (lineOf pa)
  | _ => none

/-- R214: the core's own copies of the lines are written back and dropped, and every write of the core on its way has been
accepted; none where one must wait. -/
def State.clearOwn (s : State) (c : Nat) (pl : List Place) : Option State :=
  (pl.foldl (fun s p => match placeLine p with
    | some l => s.flushLine c l
    | none => s) s).drainHome c

/-- The bytes of own-package places as their home shows them under a HID, each with whether it is uncorrectable. -/
def State.homeView (s : State) (n : BitVec 12) (h : BitVec 8) (pl : List Place) : List (Byte × Bool) :=
  pl.map fun p => match p with
    | .home a _ k => s.viewByte n h k a
    | _ => (0, false)

/-- A lane's wait that orders what the lane accesses next (R162, R224). -/
def LaneRes.ordered (r : LaneRes) (b : Bool) : LaneRes := { r with wait := r.wait.map fun w => { w with order := b } }

/-- LD.acq in a lane: read at the home, and no later instruction of the chord issues before its value is there. At scope .core it is
only that read, wherever the home is (R224); at the wider scopes the home answers with a signature, which is acquired first. -/
def ldAcqBody (sc : Scope) (sz : Size) : Body := fun s ch i _ x v =>
  let fin := sizeFin sz
  let ea := v.a + v.b
  let w := laneWho s ch i x 0
  let c := s.flow.focusCore
  match s.check c w ea fin.bytes fin.bytes .read true false with
  | .wait => none
  | .trap t s => some (.trapped t, s)
  | .ok pl s => match s.clearOwn c pl with
    | none => none
    | some s => match pl with
      | .home pa _ slot :: _ =>
        if sc == .core then
          let vs := s.homeView ch.ctx x.hid pl
          let s := s.enterPlaces pl
          if vs.any (·.2) then some (.trapped (trapEcc ea 0), s)
          else some (s.finishLoad ch x fin pl (vs.map fun b => some b.1) ea false)
        else
          let (wid, s) := s.newId
          let who : ReplyTo := { core := c, slot := s.flow.focusSlot, wait := wid }
          let r : AcqReq := { pa, slot, len := fin.bytes, ctx := ch.ctx, hid := x.hid, reply := some who }
          let s := s.modSlice (homeSlice (lineOf pa)) fun sl => { sl with acqQ := sl.acqQ ++ [r] }
          let got := overlay x pl (pl.map fun _ => none)
          some ({ v0 := none, v1 := none,
                  wait := some { id := wid, idx := 0, lanes := [], fin, got, t0 := none, t1 := none, acquire := true, gate := true, addr := ea } }, s)
      | _ =>
        let r := s.finishLoad ch x fin pl (pl.map fun _ => none) ea (sc != .core)
        some (r.1.ordered true, r.2)

def execLdAcq (sc : Scope) (sz : Size) (f : Flds) (s : State) : Answer := .next (s.perform .bin f 1 true (ldAcqBody sc sz))

/-! ### Stores (R161, R162, R383) -/

/-- Obtains the reservation of a version (line, HID): found, or made in a free speculative way; none while there is no
free way (R383). -/
def State.reserve (s : State) (n : BitVec 12) (h : BitVec 8) (line : Nat) : Option State :=
  match s.version? n h line with
  | some _ => some s
  | none =>
    if s.l2Versions line < Config.specWays then
      let s := s.l2Room [] line
      some { s with homes := { s.homes with versions := s.homes.versions ++ [{ line, ctx := n, hid := h }] } }
    else none

/-- The reservations a speculative store asks for: those it cannot have yet are left waiting. -/
def State.reserveAll (s : State) (ch : Chord) (i l : Nat) (x : Lane) (ea : Word) (pl : List Place) : List SpecWait × State :=
  if x.hid = 0 then ([], s)
  else (pl.filterMap placeLine).eraseDups.foldl (fun (p : List SpecWait × State) line =>
    match p.2.reserve ch.ctx x.hid line with
    | some s => (p.1, s)
    | none => (p.1 ++ [{ line, lane := l, hid := x.hid, addr := ea, since := s.cycle, idx := i }], p.2)) ([], s)

/-- ST in a lane (R161): checked now, written at commit. -/
def stBody (sz : StSize) : Body := fun s ch i l x v =>
  let n := stBytes sz
  match s.check s.flow.focusCore (laneWho s ch i x 1) v.a n (if n = 16 then 16 else 1) .write false false with
  | .wait => none
  | .trap t s => some (.trapped t, s)
  | .ok pl s =>
    let data := bytesOfWord v.b ++ bytesOfWord v.c
    let (specs, s) := s.reserveAll ch i l x v.a pl
    some ({ effs := [.store x.hid (pl.zip data)], specs }, s)

def stShape (sz : StSize) : Shape := { u := .n, rdA := true, rdB := true, rdC := sz == .w128, noP := sz == .w128 }

def execSt (sz : StSize) (f : Flds) (s : State) : Answer := .next (s.perform (stShape sz) f 1 true (stBody sz))

/-- ST.rel in a lane (R162): a flag write, released at commit. -/
def stRelBody (sc : Scope) (sz : StSize) : Body := fun s ch i _ x v =>
  let n := stBytes sz
  match s.check s.flow.focusCore (laneWho s ch i x 1) v.a n n .write true true with
  | .wait => none
  | .trap t s => some (.trapped t, s)
  | .ok pl s => some (.eff (.storeRel (pl.zip (bytesOfWord v.b)) sc), s)

def execStRel (sc : Scope) (sz : StSize) (f : Flds) (s : State) : Answer := .next (s.perform (.act2 .n) f 1 true (stRelBody sc sz))

/-! ### Atomics and updates (R164 to R169, R414 to R416) -/

def updOp : UpdOp → AtomOp
  | .add => .add | .adds => .adds | .smin => .smin | .smax => .smax | .umin => .umin | .umax => .umax | .and => .and
  | .or => .or | .xor => .xor

/-- Whether HOST_ATOMCAP says that the host completes an AtomicOp (R413): base bit 0 FA, 2 SW, 4 CAS. -/
def hostCap (s : State) (base : Nat) (sz : AtSize) : Bool := s.host.atomCap.getLsbD (base + if sz == .w64 then 1 else 0)

/-- The path of a host atomic (R414): an AtomicOp as it is (some true), the CAS loop (some false), or none. -/
def hostPath (s : State) (op : AtomOp) (sz : AtSize) : Option Bool :=
  let direct := match op with
    | .add => hostCap s 0 sz
    | .swap => hostCap s 2 sz
    | .cas => hostCap s 4 sz
    | _ => false
  if direct then some true else if hostCap s 4 .w64 then some false else none

/-- The reason for which a host atomic raises HOST_ATOMIC (R414), or none. -/
def hostAtomicFault (s : State) (op : AtomOp) (sz : AtSize) : Option (BitVec 8) :=
  if op == .rdovf then some 1
  else match hostPath s op sz with
    | some _ => none
    | none => some 2

def trapHostAtomic (reason : BitVec 8) (a : Word) : Trap := { cause := 0x10, reason, addr := a }

/-- Whether a slice's input queue holds no update or posted atomic of a core: all are accepted (R225). -/
def State.updatesAccepted (s : State) (c : Nat) : Bool :=
  s.homes.slices.all fun p => p.2.inq.all fun u => u.core != c || u.remote.isSome

/-- Every write of a core at homes, and every update of it, is accepted (R217 step 2, R221 step 1); none where one must
wait. Dirty bytes of its L1 stay where they are. -/
def State.settle (s : State) (c : Nat) : Option State :=
  let s := (nkeys s.homes.slices).foldl (fun s i => s.acceptUpdates i) s
  (s.drainHome c).bind fun s => if s.updatesAccepted c then some s else none

/-- A returning atomic leaves for its home, another package or the host (R165 to R167). None where it must wait. -/
def State.sendAtomic (s : State) (ch : Chord) (sz : AtSize) (w : AtomWord) (ea x c : Word) (pl : List Place) :
    Option (LaneRes × State) :=
  let k := s.flow.focusCore
  let rel := w.ord == .rel || w.ord == .ar
  let order := w.ord == .acq || w.ord == .ar
  let acq := order && w.scope != .core
  let ready : Option State :=
    if rel then match pl with
      | .host _ :: _ => if (s.core k).acks.isEmpty then (s.flushDirty k).bind fun s => s.settle k else none
      | _ =>
        if w.scope == .core then some s
        else if w.scope == .sys && !(s.core k).acks.isEmpty then none
        else s.settle k
    else some s
  match ready.bind fun s => s.clearOwn k pl with
  | none => none
  | some s =>
    let (wid, s) := s.newId
    let who : ReplyTo := { core := k, slot := s.flow.focusSlot, wait := wid }
    let wait : Wait := { id := wid, idx := 0, lanes := [], fin := atFin sz, got := List.replicate (atBytes sz) none,
                         t0 := none, t1 := none, acquire := acq, order, gate := acq && pl.all (!·.host?), addr := ea,
                         atomf := true }
    let res : LaneRes := { v0 := none, v1 := none, wait := some wait, atomf := true }
    match pl with
    | .home pa _ slot :: _ =>
      let u : UEnt := { pa, slot, size := sz, op := w.op, x, c, pkg := s.pkg, core := k, ctx := ch.ctx,
                        sync := { ord := w.ord, scope := w.scope }, reply := some who }
      some (res, s.modSlice (homeSlice (lineOf pa)) fun sl => { sl with inq := sl.inq ++ [u] })
    | .remote pkg pa key sec :: _ =>
      let (id, s) := s.newId
      let q : RemoteReq := { (default : RemoteReq) with
        what := 2, srcPkg := s.pkg, srcCore := BitVec.ofNat 8 k, ctx := ch.ctx, id, pa, len := atBytes sz, key, sec,
        data := x.setWidth 1024, cmp := c, size := sz, op := w.op, sync := if w.scope == .core then .none else w.ord }
      some (res, (s.modCore k fun y => { y with atoms := y.atoms ++ [id] }).sendAccess pkg k q (.load who 0 (atBytes sz)))
    | .host a :: _ =>
      let (id, s) := s.newId
      let s := s.modCore k fun y => { y with atoms := y.atoms ++ [id] }
      if hostPath s w.op sz = some true then
        some (res, s.sendHost ch.ctx id (.atomic w.op a (atBytes sz) x c id) (.load who 0 (atBytes sz)))
      else
        let lp : CasLoop := { id, word := a / 8 * 8, off := a % 8, size := sz, op := w.op, x, c, old := 0, started := false }
        let s := s.sendHost ch.ctx id (.read (a / 8 * 8) 8 id) (.load who 0 (atBytes sz))
        some (res, { s with host := { s.host with cas := s.host.cas ++ [lp] } })
    | _ => some (res, s)

/-- ATOM in a lane: performed now when it returns a value, buffered when it is posted (R164 to R167). -/
def atomBody (sz : AtSize) (w : AtomWord) (posted : Bool) : Body := fun s ch i _ x v =>
  let n := atBytes sz
  match s.check s.flow.focusCore (laneWho s ch i x 1) v.a n n .rw true true with
  | .wait => none
  | .trap t s => some (.trapped t, s)
  | .ok pl s =>
    let bad := match pl with
      | .host _ :: _ => hostAtomicFault s w.op sz
      | _ => none
    match bad with
    | some r => some (.trapped (trapHostAtomic r v.a), s)
    | none =>
      if posted then match pl with
        | p :: _ =>
          let u : UEnt := { pa := 0, size := sz, op := w.op, x := v.b, c := v.c, pkg := s.pkg, core := s.flow.focusCore,
                            ctx := ch.ctx, sync := { ord := w.ord, scope := w.scope }, direct := hostPath s w.op sz == some true }
          some (.eff (.atomPost p u), s)
        | [] => some (.val 0, s)
      else s.sendAtomic ch sz w v.a v.b v.c pl

def atomShape (w : AtomWord) : Shape :=
  { u := .n, rdA := true, rdB := w.op != .rdovf, rdC := w.op == .cas, noP := w.op == .cas, yields := true }

def execAtom (sz : AtSize) (w : AtomWord) (f : Flds) (s : State) : Answer :=
  .next (s.perform (atomShape w) f 2 true (atomBody sz w (f.t0.isNone && f.t1.isNone)))

/-- UPD in a lane (R168, R169): buffered. -/
def updBody (sz : AtSize) (w : UpdWord) : Body := fun s ch i _ x v =>
  let n := atBytes sz
  match s.check s.flow.focusCore (laneWho s ch i x 1) v.a n n .rw true true with
  | .wait => none
  | .trap t s => some (.trapped t, s)
  | .ok pl s => match pl with
    | .host _ :: _ => some (.trapped (trapHostAtomic 0 v.a), s)
    | p :: _ =>
      let u : UEnt := { pa := 0, size := sz, op := updOp w.op, isUpd := true, ord := w.ord, x := v.b, pkg := s.pkg,
                        core := s.flow.focusCore, ctx := ch.ctx }
      some (.eff (.upd p u), s)
    | [] => some (.val 0, s)

def execUpd (sz : AtSize) (w : UpdWord) (f : Flds) (s : State) : Answer := .next (s.perform (.act2 .n) f 2 true (updBody sz w))

/-! ### Fences, hints and cache control (R170 to R173) -/

/-- Everything the core committed is complete at a scope, but for acknowledgements; none where it must wait (R170). -/
def State.complete (s : State) (c : Nat) (sc : Scope) : Option State :=
  if sc == .core then some s else (s.flushDirty c).bind fun s => s.settle c

/-- FENCE at execution: under .sys the lane also waits for the acknowledgements outstanding now. -/
def fenceBody (sc : Scope) : Body := fun s _ _ _ _ _ =>
  match s.complete s.flow.focusCore sc with
  | none => none
  | some s =>
    let acks := (s.core s.flow.focusCore).acks
    if sc == .sys && !acks.isEmpty then
      let (w, s) := s.newId
      some ({ effs := [.fence sc], wait := some { id := w, idx := 0, lanes := [], fin := { bytes := 0 }, got := [],
                                                  t0 := none, t1 := none, acquire := true, acks } }, s)
    else some (.eff (.fence sc), s)

def fenceShape : Shape := { u := .n, noP := true }

def execFence (sc : Scope) (f : Flds) (s : State) : Answer := .next (s.perform fenceShape f 1 true (fenceBody sc))

/-- The place a hint acts on: a window 0 byte of the own package that a load could read; none otherwise. -/
def hintPlace (s : State) (ch : Chord) (a : Word) : Option (Nat × Bool × BitVec 8) :=
  if a.toNat < 2 ^ 57 then
    match s.translate { core := some s.flow.focusCore, die := dieOf s.flow.focusCore, ctx := ch.ctx } a.toNat with
    | .leaf l =>
      if (s.leafDenies ch.ctx l a.toNat 1 .read).isSome then none
      else match s.leafPlace (some s.flow.focusCore) l a.toNat with
        | .home pa cache slot => some (pa, cache, slot)
        | _ => none
    | _ => none
  else none

/-- PREF in a lane (R171): .l1 asks for a fill; .l2 changes nothing a program can see. -/
def prefBody (lv : PrefLevel) : Body := fun s ch _ _ x v =>
  match lv, hintPlace s ch v.a with
  | .l1, some (pa, true, slot) =>
    some (.val 0, s.modCore s.flow.focusCore fun k =>
      { k with fills := k.fills ++ [{ line := lineOf pa, slot, ctx := if x.hid = 0 then 0 else ch.ctx, hid := x.hid }] })
  | _, _ => some (.val 0, s)

def execPref (lv : PrefLevel) (f : Flds) (s : State) : Answer := .next (s.perform (.act1 .y) f 1 false (prefBody lv))

/-- CCTL in a lane (R172): an address that would fault does nothing. -/
def cctlBody (op : CctlOp) : Body := fun s ch _ _ _ v =>
  match hintPlace s ch v.a with
  | some (pa, _, _) => some (.eff (.cctl op pa), s)
  | none => some (.val 0, s)

def execCctl (op : CctlOp) (f : Flds) (s : State) : Answer := .next (s.perform (.act1 .y) f 1 false (cctlBody op))

/-- BCINV (R173): a range that leaves window 0 clears the whole block cache. -/
def bcinvBody : Body := fun s _ _ _ _ v =>
  if v.a.toNat + v.b.toNat ≤ 2 ^ 57 then some (.eff (.bcinv v.a.toNat v.b.toNat), s)
  else if v.b = 0 then some (.val 0, s)
  else some (.eff (.bcinv 0 (2 ^ 64)), s)

def bcinvShape : Shape := { u := .y, rdA := true, rdB := true, noP := true }

def execBcinv (f : Flds) (s : State) : Answer := .next (s.perform bcinvShape f 1 false bcinvBody)

/-! ### The frame heap (R174, R175) -/

/-- The first frames of every run of `n` free frames. -/
def Core.freeRuns (k : Core) (n : Nat) : List Nat :=
  (List.range (k.frames + 1 - n)).filter fun j => (List.range n).all fun i => k.frameFree (j + i)

/-- Zeroes frames (R174). -/
def Core.zeroFrames (k : Core) (j n : Nat) : Core :=
  (List.range n).foldl (fun (m : Core) i => m.zeroSram (k.frameAddr (j + i)) (k.frameAddr (j + i) + 128)) k

/-- FRMA in a lane: a freely chosen run (assumption log 11), or 0. -/
def frmaBody : Body := fun s ch _ _ _ v =>
  let c := s.flow.focusCore
  let n := v.a.toNat
  if n < 1 ∨ 64 < n then some (.val 0, s)
  else
    let runs := (s.core c).freeRuns n
    if runs.isEmpty then some (.val 0, s)
    else
      let (i, s) := s.pick runs.length
      let j := (runs[i]?).getD 0
      let (id, s) := s.newId
      let s := s.modCore c fun k => { k.zeroFrames j n with allocs := k.allocs ++ [{ id, ctx := ch.ctx, act := ch.act, first := j, count := n }] }
      some ({ LaneRes.val (frameHandle c j) with frma := [id] }, s)

def frmaShape : Shape := { u := .n, rdA := true, noP := true, yields := true }

def execFrma (f : Flds) (s : State) : Answer := .next (s.perform frmaShape f 1 false frmaBody)

/-- FRMF in a lane: the handle must name the first byte of a live allocation of the context. -/
def frmfBody : Body := fun s ch _ _ _ v =>
  match handleFrame v.a with
  | some (c, j) => match (s.core c).allocs.find? fun a => a.ctx == ch.ctx && a.first == j with
    | some a => some (.eff (.frmf c a.id), s)
    | none => some (.trapped (trapProt 0 v.a), s)
  | none => some (.trapped (trapProt 0 v.a), s)

def frmfShape : Shape := { u := .n, rdA := true, noP := true }

def execFrmf (f : Flds) (s : State) : Answer := .next (s.perform frmfShape f 1 false frmfBody)

/-! ### Compaction (R176 to R178) -/

/-- The outcome of a claim for one lane. -/
inductive Claimed
  | at_ (q : Nat) (k : Claim)
  | trap (t : Trap)
deriving DecidableEq, Repr, Inhabited

/-- A claim's header as read. -/
structure CmpkHdr where
  count : Nat
  bound : Nat
  rowbase : Nat
  data : Word
  offs : Word
deriving DecidableEq, Repr, Inhabited

def CmpkHdr.ofBytes (b : List Byte) : CmpkHdr :=
  let n (o len : Nat) : Nat := natOfBytes ((b.drop o).take len)
  { count := n 0 4, bound := n 4 4, rowbase := n 12 4, data := BitVec.ofNat 64 (n 16 8), offs := BitVec.ofNat 64 (n 24 8) }

/-- The steps of a claim from lane to lane (R178): `q` is the position the next lane is offered. None where a check must
wait. The positions, the traps, and the count reached. -/
def claimLanes (core : Nat) (ch : Chord) (i : Nat) (w : CmpkWord) (sz : AtSize) (h : CmpkHdr) (addr : Word) (holes : Place) :
    List ClaimLane → Nat → State → Option (List (Nat × Claimed) × Nat × State)
  | [], q, s => some ([], q, s)
  | l :: r, q, s =>
    let wb := if w.offw then 4 else 2
    let n := atBytes sz
    let o : Int := (l.tag.toNat : Int) - h.rowbase
    let ovf (reason : BitVec 8) : Trap := { cause := 0x0C, reason, addr, aux := BitVec.ofNat 63 (q % 2 ^ 32) }
    let go (one : Claimed) (q' : Nat) (s : State) : Option (List (Nat × Claimed) × Nat × State) :=
      match claimLanes core ch i w sz h addr holes r q' s with
      | none => none
      | some (rest, q'', s) => some ((l.lane, one) :: rest, q'', s)
    if w.offen && (o < 0 || (2 ^ (8 * wb) - 1 : Int) ≤ o) then go (.trap (ovf 1)) q s
    else if h.bound ≤ q then go (.trap (ovf 0)) q s
    else
      let x := (nget ch.lanes l.lane).getD { tag := l.tag, hid := 0, hid0 := 0, frame := 0, ports := [] }
      let who : Who := { laneWho s ch i x 1 with core := some core, die := dieOf core }
      match s.check core who (h.data + BitVec.ofNat 64 (q * n)) n 1 .write true true with
      | .wait => none
      | .trap t s => go (.trap t) q s
      | .ok pl s =>
        let data := (bytesOfWord l.data).take n
        if w.offen then
          match s.check core who (h.offs + BitVec.ofNat 64 (q * wb)) wb 1 .write true true with
          | .wait => none
          | .trap t s => go (.trap t) q s
          | .ok po s =>
            go (.at_ q { idx := i, hdr := holes, elem := pl, offs := po, data, off := bytesOfNat wb o.toNat }) (q + 1) s
        else go (.at_ q { idx := i, hdr := holes, elem := pl, offs := [], data, off := [] }) (q + 1) s

/-- Delivers a claim's outcomes into the chord: positions, all ones and traps (R178). -/
def Chord.putClaims (ch : Chord) (i : Nat) (t0 t1 : Option Target) (rs : List (Nat × Claimed)) : Chord :=
  rs.foldl (fun ch p => match p.2 with
    | .at_ q k =>
      let ch := ch.modLane p.1 fun x => { x with claims := x.claims ++ [k], atomf := true }
      (ch.deliver t0 p.1 (BitVec.ofNat 64 q)).deliver t1 p.1 (BitVec.ofNat 64 q)
    | .trap t =>
      let ch := ch.modLane p.1 fun x => { x.doomLate t i with atomf := true }
      (ch.deliver t0 p.1 (BitVec.allOnes 64)).deliver t1 p.1 (BitVec.allOnes 64)) ch

/-- What CMPK finds of a lane at execution. -/
inductive CmpkLane
  | out (v : Word) (t : Option Trap)
  | takes (addr : Word) (pl : List Place) (l : ClaimLane)
deriving DecidableEq, Repr, Inhabited

/-- The lanes of a CMPK with what their header checks answer; none where one must wait. -/
def cmpkLanes (ch : Chord) (f : Flds) : List (Nat × Lane × Vals) → State → Option (List (Nat × CmpkLane) × State)
  | [], s => some ([], s)
  | (l, x, v) :: r, s =>
    let one : Option (CmpkLane × State) :=
      if !selects f v then some (.out v.a none, s)
      else if x.doom.isSome then some (.out (BitVec.allOnes 64) none, s)
      else match s.check s.flow.focusCore (laneWho s ch ch.pc x 1) v.b 32 32 .write true true with
        | .wait => none
        | .trap t s => some (.out (BitVec.allOnes 64) (some t), s)
        | .ok pl s => some (.takes v.b pl { lane := l, tag := x.tag, data := v.a }, s)
    match one with
    | none => none
    | some (c, s) => match cmpkLanes ch f r s with
      | none => none
      | some (cs, s) => some ((l, c) :: cs, s)

/-- Delivers what a CMPK's header checks answered at once. -/
def Chord.putChecked (ch : Chord) (f : Flds) (cs : List (Nat × CmpkLane)) : Chord :=
  cs.foldl (fun ch p => match p.2 with
    | .out v t => ch.put f ch.pc p.1 { v0 := some v, v1 := some v, trap := t }
    | .takes .. => ch) ch

/-- The claims to make: each distinct header address with its lanes, in order of its lowest lane (R178). -/
def cmpkGroups : List (Nat × CmpkLane) → List (Word × List Place × List ClaimLane)
  | [] => []
  | (_, .out _ _) :: r => cmpkGroups r
  | (_, .takes a pl l) :: r =>
    let g := cmpkGroups r
    match g.find? fun p => p.1 == a with
    | some (_, _, ls) => (a, pl, l :: ls) :: g.filter fun p => p.1 != a
    | none => (a, pl, [l]) :: g

/-- Makes one claim: it enters the update unit of the header's home, on this package or on another, and is answered later; a
header on the host is claimed on bytes that come from outside (assumption log 15). None where it must wait. -/
def State.sendClaim (s : State) (ch : Chord) (w : CmpkWord) (sz : AtSize) (f : Flds) (a : Word) (pl : List Place) (ls : List ClaimLane) :
    Option (Chord × State) :=
  let c := s.flow.focusCore
  let (wid, s) := s.newId
  let who : ReplyTo := { core := c, slot := s.flow.focusSlot, wait := wid }
  let wait : Wait := { id := wid, idx := ch.pc, lanes := ls.map (·.lane), fin := { bytes := 8 }, got := [none],
                       t0 := f.t0, t1 := f.t1, addr := a, atomf := true }
  let u : UEnt := { pa := 0, size := sz, pkg := s.pkg, core := c, ctx := ch.ctx, claim := some (w, ls, a), reply := some who }
  let waits : Chord := { ch with waits := ch.waits ++ [wait] }
  match pl with
  | .home pa _ slot :: _ => (s.clearOwn c pl).map fun s =>
    (waits, s.modSlice (homeSlice (lineOf pa)) fun sl => { sl with inq := sl.inq ++ [{ u with pa, slot }] })
  | .remote pkg pa key sec :: _ =>
    let (id, s) := s.newId
    let q : RemoteReq := { (default : RemoteReq) with
      what := 13, srcPkg := s.pkg, srcCore := BitVec.ofNat 8 c, ctx := ch.ctx, id, pa, len := 32, key, sec }
    some (waits, (s.modCore c fun k => { k with atoms := k.atoms ++ [id] }).sendAccess pkg c q (.claim { u with pa, slot := key } pl))
  | .host b :: _ =>
    let h := CmpkHdr.ofBytes (pl.map (engByte s))
    (claimLanes c ch ch.pc w sz h a ((pl[8]?).getD (.host 0)) ls h.count s.bump).map fun r =>
      let (id, s) := r.2.2.newId
      let s := s.modCore c fun k => { k with acks := k.acks ++ [id] }
      (ch.putClaims ch.pc f.t0 f.t1 r.1, s.sendHost ch.ctx id (.write b (bytesOfNat 4 r.2.1) (some id)) (.ack c none))
  | _ => some (ch, s)

/-- The next claim of a CMPK; the chord goes on once the last has been sent. A lane doomed meanwhile takes part no more. -/
def State.claimNext (s : State) (ch : Chord) (w : CmpkWord) (sz : AtSize) (f : Flds) (q : List (Word × List Place × List ClaimLane)) :
    Option (Chord × State) :=
  match q with
  | [] => some ({ ch.next 2 with claimQ := none }, s)
  | (a, pl, ls) :: r =>
    let doomed (l : ClaimLane) : Bool := match nget ch.lanes l.lane with
      | some x => x.doom.isSome
      | none => true
    let ch := (ls.filter doomed).foldl (fun ch l => ch.put f ch.pc l.lane { v0 := some (BitVec.allOnes 64), v1 := some (BitVec.allOnes 64) }) ch
    let sent := match ls.filter fun l => !doomed l with
      | [] => some (ch, s)
      | live => s.sendClaim ch w sz f a pl live
    sent.map fun p => (if r.isEmpty then { p.1.next 2 with claimQ := none } else { p.1 with claimQ := some r }, p.2)

/-- CMPK (R177, R178): its claims are made one after the other, each once the one before it has been answered. -/
def execCmpk (sz : AtSize) (w : CmpkWord) (f : Flds) (s : State) : Answer :=
  match s.focus with
  | none => .next s
  | some ch =>
    if ch.mayIssue then
      match ch.claimQ with
      | some q => match s.claimNext ch w sz f q with
        | none => .next s
        | some (ch, s) => .next (s.setFocus ch)
      | none => match gather (.bin .n) f ch (s.consts ch) ch.pc ch.lanes with
        | none => .next s
        | some ls => match cmpkLanes ch f ls s with
          | none => .next s
          | some (cs, s1) =>
            match s1.claimNext (ch.putChecked f cs) w sz f (cmpkGroups cs) with
            | none => .next s
            | some (ch2, s2) => .next (s2.setFocus ch2)
    else .next s

/-! ### Writes of a core at homes (R211, R217, R238, R302) -/

/-- The whole of a store's bytes on one line of a page that no L1 holds. -/
def lineWrite (n : BitVec 12) (h : BitVec 8) (line : Nat) (bs : List (Nat × BitVec 8 × Byte)) : HomeOp :=
  let mine := bs.filter fun p => lineOf p.1 == line
  let slot : BitVec 8 := match mine with
    | p :: _ => p.2.1
    | [] => 0
  .write (line * 128) slot (mine.foldl (fun m p => m ||| (1#128 <<< (p.1 % 128))) 0)
    (mine.foldl (fun d p => d ||| ((p.2.2.setWidth 1024 : Line) <<< (8 * (p.1 % 128)))) 0) (if h = 0 then 0 else n) h false

/-- Bytes that a core writes at their homes of this package, by address and key slot, go on their way there behind what it wrote
before (R210). -/
def State.queueBytes (s : State) (c : Nat) (n : BitVec 12) (h : BitVec 8) (bs : List (Nat × BitVec 8 × Byte)) : State :=
  s.modCore c fun k => { k with homeQ := k.homeQ ++ ((bs.map fun p => lineOf p.1).eraseDups).map fun l => lineWrite n h l bs }

/-- A core's write of a run at its home, on another package or in host memory. A write that leaves the package is
remembered until it is acknowledged. -/
def State.coreRun (s : State) (c : Nat) (n : BitVec 12) (r : Place × List Byte) : State :=
  match r.1 with
  | .home pa _ slot => s.queueBytes c n 0 (r.2.zipIdx.map fun p => (pa + p.2, slot, p.1))
  | .sram cc a => s.modCore cc fun k => k.putSram a r.2
  | .remote pkg pa key sec =>
    let (id, s) := s.newId
    let q : RemoteReq := { (default : RemoteReq) with
      what := 1, srcPkg := s.pkg, srcCore := BitVec.ofNat 8 c, ctx := n, id, pa, len := r.2.length, key, sec,
      data := BitVec.ofNat 1024 (natOfBytes r.2) }
    (s.modCore c fun k => { k with acks := k.acks ++ [id] }).sendAccess pkg c q (.ack c (some (lineOf pa)))
  | .host a =>
    let (id, s) := s.newId
    let s := s.modCore c fun k => { k with acks := k.acks ++ [id] }
    s.sendHost n id (.write a r.2 (some id)) (.ack c none)
  | .given _ => s

/-- A core's write of bytes, in order (R156, R229). -/
def State.corePut (s : State) (c : Nat) (n : BitVec 12) (bs : List (Place × Byte)) : State :=
  (placeRuns bs []).foldl (fun s r => s.coreRun c n r) s

/-- What a core has sent to other packages and the host, and has not had answered: writes, updates, atomics and claims (R217). -/
def Core.owed (k : Core) : List Nat := k.acks ++ k.atoms

/-! ### Stores at commit (R156, R161, R211) -/

namespace State

/-- A core's committed store: into its L1, on its way to a home, into a bank, or away to another package or the host. -/
def commitStore (s : State) (c : Nat) (n : BitVec 12) (h : BitVec 8) (bs : List (Place × Byte)) : State :=
  let s := bs.foldl (fun s p => match p.1 with
    | .home pa true slot => s.l1Store c slot n h pa p.2
    | .sram cc a => s.modCore cc fun k => k.putSram a [p.2]
    | _ => s) s
  let un := bs.filterMap fun p => match p.1 with
    | .home pa false slot => some (pa, slot, p.2)
    | _ => none
  (s.queueBytes c n h un).corePut c n (bs.filter fun p => p.1.away)

/-! ### Atomics and updates that leave at commit (R166, R169, R414) -/

/-- A posted atomic or an update leaves for its home, behind the core's earlier writes (R210), for another package or for the host. -/
def leaveUpdate (s : State) (c : Nat) (p : Place) (u : UEnt) : State :=
  match p with
  | .home pa _ slot => s.modCore c fun k => { k with homeQ := k.homeQ ++ [.upd { u with pa, slot }] }
  | .remote pkg pa key sec =>
    let (id, s) := s.newId
    let q : RemoteReq := { (default : RemoteReq) with
      what := if u.isUpd then 3 else 2, srcPkg := s.pkg, srcCore := BitVec.ofNat 8 c, ctx := u.ctx, id, pa, len := atBytes u.size,
      key, sec, data := u.x.setWidth 1024, cmp := u.c, size := u.size, op := u.op, ord := u.ord,
      sync := if u.sync.scope == .core then .none else u.sync.ord }
    (s.modCore c fun k => { k with acks := k.acks ++ [id] }).sendAccess pkg c q
      (if u.isUpd then .upd c (lineOf pa) false else .ack c (some (lineOf pa)))
  | .host a =>
    let (id, s) := s.newId
    let s := s.modCore c fun k => { k with acks := k.acks ++ [id] }
    if u.direct then
      s.sendHost u.ctx id (.atomic u.op a (atBytes u.size) u.x u.c id) (.ack c none)
    else
      let lp : CasLoop := { id, word := a / 8 * 8, off := a % 8, size := u.size, op := u.op, x := u.x, c := u.c, old := 0, started := false }
      let s := s.sendHost u.ctx id (.read (a / 8 * 8) 8 id) (.ack c none)
      { s with host := { s.host with cas := s.host.cas ++ [lp] } }
  | .sram .. => s
  | .given _ => s

/-- A hole for a voided claim: a zero element, an offset of all ones, and one more in HOLES. -/
def hole (s : State) (c : Nat) (n : BitVec 12) (k : Claim) : State :=
  let s := s.commitStore c n 0 (k.elem.map (fun p => (p, 0)) ++ k.offs.map fun p => (p, 0xFF))
  s.leaveUpdate c k.hdr { pa := 0, size := .n32, op := .add, isUpd := true, x := 1, pkg := s.pkg, core := c, ctx := n }

end State

end Sys2Proof.Machine
end

