-- ==== Sys2Proof/Machine/Update.lean ====
section
/-! DEFINITION. The steps of the memory system (R210 to R222, R257 to R259): epochs, fills, write-backs, flags, drains,
and the update unit; and the answer to a waiting lane. -/

namespace Sys2Proof.Machine

/-! ### Answers to waiting lanes (R160, R163, R222) -/

/-- Replaces the payload of the token an LDT buffered at an index. -/
def Lane.setPayload (x : Lane) (i : Nat) (v : Word) : Lane :=
  { x with effs := x.effs.map fun e => match e.2 with
      | .send t rel => if e.1 = i then (e.1, .send { t with payload := v } rel) else e
      | _ => e }

/-- Delivers the values of a wait in every lane it is for. -/
def Chord.finishWait (ch : Chord) (w : Wait) (bad : Bool) : Chord :=
  let ch := { ch with waits := ch.waits.filter fun x => x.id != w.id }
  let bs := w.got.map fun b => b.getD 0
  let v : Word × Word := if bad then (0, 0) else w.fin.value bs
  w.lanes.foldl (fun ch l =>
    let ch := if bad then ch.modLane l fun x => x.doomLate (trapEcc w.addr 0) w.idx else ch
    if w.ldt then ch.modLane l fun x => x.setPayload w.idx v.1
    else (ch.deliver w.t0 l v.1).deliver w.t1 l v.2) ch

/-- Fills the missing bytes of a wait from an offset on. -/
def fillGot (got : List (Option Byte)) (off : Nat) (bs : List Byte) : List (Option Byte) :=
  got.zipIdx.map fun p => match p.1 with
    | some b => some b
    | none => if off ≤ p.2 then bs[p.2 - off]? else none

namespace State

/-- An answer reaches a waiting lane: its bytes, whether they are uncorrectable, and the signature an acquisition takes.
A wait that is gone discards it (R332). -/
def answer (s : State) (who : ReplyTo) (off : Nat) (bs : List Byte) (bad : Bool) (sig : Sig) : State :=
  match s.chord? who.core who.slot with
  | none => s
  | some ch => match ch.waits.find? fun w => w.id == who.wait with
    | none => s
    | some w =>
      let w := { w with got := fillGot w.got off bs }
      let s := if w.acquire then s.acquire who.core sig else s
      if bad || w.got.all (·.isSome) then s.setChord who.core who.slot (ch.finishWait w bad)
      else s.setChord who.core who.slot { ch with waits := ch.waits.map fun x => if x.id = w.id then w else x }

/-! ### Epochs (R213, R216, R220, R227, R239) -/

/-- The epoch counter advances by one: registers of the new epoch are cleared, lines two epochs old are written back and
invalidated, and while domain time is lost every clean byte is invalidated. -/
def epochStep (s : State) : State :=
  let e := s.epoch + 1
  let s := { s with links := { s.links with epoch := e } }
  let s := (nkeys s.cores).foldl (fun s c =>
    let s := s.modCore c fun k => k.clearSig e
    let s := (s.core c).l1.foldl (fun s l => if l.epoch + 2 ≤ e then (s.writeBackLine c l).dropLine c l.line else s) s
    if s.links.timeLost then s.modCore c fun k => { k with l1 := k.l1.map fun l => { l with valid := l.valid &&& l.dirty } } else s) s
  let i := e % 4
  let h := s.host
  { s with eng := { s.eng with sigs := s.eng.sigs.map fun p => (p.1, lset p.2 i 0) },
           host := { h with sig0 := if i = 0 then 0 else h.sig0, sig1 := if i = 1 then 0 else h.sig1,
                            sig2 := if i = 2 then 0 else h.sig2, sig3 := if i = 3 then 0 else h.sig3 } }

end State

def execEpochAdvance (s : State) : Answer :=
  .next (if s.epoch < s.links.dtime.toNat / Config.epochCycles then s.epochStep else s)

/-- Frees held and overflow signatures four epochs old, and records with nothing left (R220). -/
def Slice.age (sl : Slice) (e : Nat) : Slice :=
  let recs := sl.recs.map fun p => if p.2.isHeld && p.2.epoch + 4 ≤ e then (p.1, { p.2 with held := 0, isHeld := false }) else p
  let old := sl.ovfSet && decide (sl.ovfEpoch + 4 ≤ e)
  { sl with recs := recs.filter fun p => p.2.isHeld || !p.2.pending.isEmpty,
            ovf := if old then 0 else sl.ovf, ovfSet := sl.ovfSet && !old }

def execReleaseRecordFree (slice : BitVec 7) (s : State) : Answer :=
  .next (s.modSlice slice.toNat fun sl => sl.age s.epoch)

/-! ### Fills and write-backs (R210, R212, R218) -/

/-- A fill asked for by PREF ends: its line is kept unless an acquisition matched it on the way. -/
def State.fillStep (s : State) (c n : Nat) : State :=
  match (s.core c).fills[n]? with
  | none => s
  | some f =>
    let done (s : State) : State := s.modCore c fun k => { k with fills := ldrop k.fills n }
    if !f.keep || (s.core c).banks 2 == 0 then done s
    else match s.drainHome c with
      | none => s
      | some s1 =>
        let s2 := s1.retag c f.ctx f.hid f.line
        let s2 := if (s2.core c).l1.any (fun x => x.line == f.line) then s2 else s2.l1Room c f.line
        match s2.drainHome c with
        | none => s
        | some s3 => done (s3.fillLine c f.slot f.ctx f.hid f.line)

def execL1Fill (core : BitVec 8) (n : Nat) (s : State) : Answer := .next (s.fillStep core.toNat n)

/-- The oldest write on its way from a core reaches its home (R210, R259). -/
def execWriteBackAccept (core : BitVec 8) (s : State) : Answer :=
  .next (match (s.core core.toNat).homeQ with
    | [] => s
    | .flag .. :: _ => s
    | op :: r =>
      match s.performHomeOp core.toNat op with
      | some s => s.modCore core.toNat fun k => { k with homeQ := r }
      | none => s)

/-- What a refused release of a core lets go before it is sent again, and what stays behind it (R210, R221): the write-backs, and whatever
comes before one of its own line. `lines` are those that are written back last. -/
def splitBack (lines : List Nat) : List HomeOp → List HomeOp × List HomeOp
  | [] => ([], [])
  | op :: r =>
    let back : HomeOp → Bool
      | .write _ _ _ _ _ _ b => b
      | _ => false
    let rest := splitBack lines r
    if back op || lines.contains op.line || r.any (fun x => back x && x.line == op.line) then (op :: rest.1, rest.2) else (rest.1, op :: rest.2)

/-- A flag write reaches its home (R221): recorded with it where there is room; otherwise the core writes back its dirty
lines, and the write is performed with the core's signature held, ahead of what the core has issued after it. -/
def State.flagStep (s : State) (c : Nat) : State :=
  match (s.core c).homeQ with
  | .flag pa slot data cached rel :: r =>
    let op : HomeOp := .flag pa slot data cached rel
    let s0 := s.modCore c fun k => { k with homeQ := r }
    match s0.performHomeOp c op with
    | some s1 => s1
    | none =>
      if s0.writeWaits c op then s
      else
        let q := splitBack (((s.core c).l1.filter fun l => l.dirty != 0).map L1Line.line) r
        match (s.modCore c fun k => { k with homeQ := q.1 }).flushDirty c with
        | none => s
        | some s1 => ((s1.acceptFlag c pa slot data cached).holdSig (lineOf pa) (s1.core c).rs).modCore c fun k => { k with homeQ := q.2 }
  | _ => s

def execFlagRelease (core : BitVec 8) (s : State) : Answer := .next (s.flagStep core.toNat)

/-! ### Acquisition by flag (R222) -/

/-- The releasers pending in a line's record. -/
def State.pendingOf (s : State) (line : Nat) : List (BitVec 12 × BitVec 8) :=
  match nget (s.slice (homeSlice line)).recs line with
  | some r => r.pending
  | none => []

/-- An acquisition at its place in the flag's order: the releasers pending there are ordered to drain, but for those that another
acquisition of the line waits on already, whose answers it shares. -/
def State.newAcq (s : State) (line : Nat) (value : List Byte) (bad : Bool) (reply : Option ReplyTo)
    (remote : Option (BitVec 12 × BitVec 8 × Nat)) (n : BitVec 12) (pending : List (BitVec 12 × BitVec 8)) : Acq :=
  let others := (s.slice (homeSlice line)).acqs.filter fun a => a.line == line
  let away (r : BitVec 12 × BitVec 8) : Bool := others.any fun a => a.sent.contains r
  { line, value, bad, reply, remote, ctx := n, orders := pending.filter fun r => !away r, sent := pending.filter away,
    answers := (others.map (·.answers)).flatten.eraseDups }

/-- The oldest flag read at a slice is performed at its place in the order, once the reading core's own copy of the line has been
written back and dropped (R214). -/
def State.flagReadStep (s : State) (i : Nat) : State :=
  match (s.slice i).acqQ with
  | [] => s
  | q :: r =>
    let line := lineOf q.pa
    let ready := match q.reply with
      | some who => (s.flushLine who.core line).drainHome who.core
      | none => some s
    match ready with
    | none => s
    | some s =>
      let vs := (List.range q.len).map fun k => s.viewByte q.ctx q.hid q.slot (q.pa + k)
      let a := s.newAcq line (vs.map (·.1)) (vs.any (·.2)) q.reply q.remote q.ctx (s.pendingOf line)
      (s.l2Enter [] q.slot line).modSlice i fun sl => { sl with acqQ := r, acqs := sl.acqs ++ [a] }

def execFlagAcquire (slice : BitVec 7) (s : State) : Answer := .next (s.flagReadStep slice.toNat)

/-- The drain orders of a slice not yet served, with their lines. -/
def Slice.drainOrders (sl : Slice) : List (Nat × (BitVec 12 × BitVec 8)) :=
  (sl.acqs.map fun a => a.orders.map fun o => (a.line, o)).flatten

/-- A releaser's answer goes to every acquisition of the line that waits on it. -/
def Slice.takeAnswer (sl : Slice) (line : Nat) (o : BitVec 12 × BitVec 8) (sig : Sig) : Slice :=
  { sl with acqs := sl.acqs.map fun a =>
      if a.line = line ∧ (a.orders.contains o || a.sent.contains o) then
        { a with orders := a.orders.filter fun x => x != o, sent := a.sent.filter fun x => x != o, answers := a.answers ++ [(o, sig)] }
      else a }

/-- Takes a releaser out of a line's record. -/
def Slice.unpend (sl : Slice) (line : Nat) (o : BitVec 12 × BitVec 8) : Slice :=
  { sl with recs := match nget sl.recs line with
      | some r => nput sl.recs line { r with pending := r.pending.filter fun x => x != o }
      | none => sl.recs }

/-- A core serves a drain order: it writes back every dirty line, answers with its signature and is pending no more. An order to
another package leaves on the link. -/
def State.drainStep (s : State) (i n : Nat) : State :=
  match (s.slice i).drainOrders[n]? with
  | none => s
  | some (line, o) =>
    if o.1 = s.pkg then match s.flushDirty o.2.toNat with
      | none => s
      | some s => s.modSlice i fun sl => (sl.takeAnswer line o (s.core o.2.toNat).rs).unpend line o
    else
      let q : RemoteReq := { (default : RemoteReq) with what := 9, srcPkg := s.pkg, srcCore := o.2, id := line, pa := line * 128 }
      let s := s.sendBack o.1 0 q
      s.modSlice i fun sl => { sl with acqs := sl.acqs.map fun a =>
        if a.line = line ∧ a.orders.contains o then
          { a with orders := a.orders.filter fun x => x != o, sent := a.sent ++ [o] } else a }

def execDrainOrder (slice : BitVec 7) (n : Nat) (s : State) : Answer := .next (s.drainStep slice.toNat n)

/-- The acquisitions' answers that have reached the home. -/
def Slice.drainAnswers (sl : Slice) : List (Nat × Nat × ((BitVec 12 × BitVec 8) × Sig)) :=
  (sl.acqs.zipIdx.map fun p => p.1.answers.map fun x => (p.2, p.1.line, x)).flatten

/-- The home takes an answer: it ORs it into the held signature. A releaser elsewhere is pending no more. -/
def State.answerStep (s : State) (i n : Nat) : State :=
  match (s.slice i).drainAnswers[n]? with
  | none => s
  | some (k, line, o, sig) =>
    (s.holdSig line sig).modSlice i fun sl =>
      { sl with acqs := sl.acqs.zipIdx.map fun p =>
          if p.2 = k then { p.1 with answers := p.1.answers.filter (fun x => x.1 != o), got := p.1.got ||| sig } else p.1 }

def execDrainAnswer (slice : BitVec 7) (n : Nat) (s : State) : Answer := .next (s.answerStep slice.toNat n)

/-- The home answers an acquirer whose releasers have all answered, with the value and the signature. -/
def State.acquireStep (s : State) (i n : Nat) : State :=
  let sl := s.slice i
  match sl.acqs[n]? with
  | none => s
  | some a =>
    if !a.orders.isEmpty || !a.sent.isEmpty || !a.answers.isEmpty then s
    else
      let held : Sig := match nget sl.recs a.line with
        | some r => r.held
        | none => 0
      let sig := held ||| sl.ovf ||| a.got
      let s1 := s.setSlice i { sl with acqs := ldrop sl.acqs n }
      match a.reply, a.remote with
      | some who, _ => s1.answer who 0 a.value a.bad sig
      | none, some (pkg, c, id) =>
        let q : RemoteReq := { (default : RemoteReq) with
          what := if a.bad then 11 else 5, srcPkg := s.pkg, srcCore := c, id, len := a.value.length,
          data := BitVec.ofNat 1024 (natOfBytes a.value + sig.toNat * 2 ^ 128) }
        s1.sendBack pkg a.ctx q
      | none, none => s1

def execAcquireAnswer (slice : BitVec 7) (n : Nat) (s : State) : Answer := .next (s.acquireStep slice.toNat n)

/-! ### The update unit (R165, R169, R257 to R259) -/

/-- An update of another package that is in the window and whose acceptance has not been told. -/
def UEnt.untold (u : UEnt) : Bool := u.isUpd && u.remote.isSome && !u.told

/-- Other packages are told that their updates are accepted (R238). -/
def State.tellAccepted (s : State) (i : Nat) : State :=
  let s1 := ((s.slice i).window.filter UEnt.untold).foldl (fun s u => s.sendBack u.pkg u.ctx
    { (default : RemoteReq) with what := 6, srcPkg := s.pkg, srcCore := BitVec.ofNat 8 u.core, id := u.remote.getD 0, pa := u.pa }) s
  s1.modSlice i fun sl => { sl with window := sl.window.map fun u => if u.untold then { u with told := true } else u }

def execUpdateAccept (slice : BitVec 7) (s : State) : Answer := .next ((s.acceptUpdates slice.toNat).tellAccepted slice.toNat)

/-- The entries of a line an operation takes: those accepted in an earlier cycle, up to and with the first ATOM or claim. -/
def batchOf (cyc line : Nat) : List UEnt → List UEnt
  | [] => []
  | u :: r =>
    if lineOf u.pa = line ∧ u.at_ < cyc then (if u.isUpd then u :: batchOf cyc line r else [u]) else batchOf cyc line r

/-- The entries of a line accepted in an earlier cycle. -/
def waitingOn (cyc line : Nat) (w : List UEnt) : List UEnt := w.filter fun u => decide (lineOf u.pa = line) && decide (u.at_ < cyc)

/-- Removes the first of each of a batch's entries from the window. -/
def dropBatch (w batch : List UEnt) : List UEnt := batch.foldl (fun w u => w.erase u) w

/-- What the log holds of an entry of a batch, and of the batch. -/
def UEnt.logged (u : UEnt) : List Nat := [u.pa, u.core, u.x.toNat, u.c.toNat, if u.isUpd then 1 else 0]
def batchData (b : List UEnt) : List Nat := (b.map UEnt.logged).flatten

/-- The entries of a logged batch, as the log holds each. -/
def State.logEntries (s : State) (e : LogEntry) : List (List Nat) :=
  let l := s.loggedBatch e.w2 e.w3
  (List.range (l.length / 5)).map fun i => (l.drop (5 * i)).take 5

/-- The waiting entries that a logged batch is of, in its order; none unless every one of them waits. -/
def pickLogged : List (List Nat) → List UEnt → Option (List UEnt)
  | [], _ => some []
  | d :: r, l => match l.find? fun u => u.logged == d with
    | none => none
    | some u => (pickLogged r (l.erase u)).map (u :: ·)

/-- A batch that holds an operation of a recorded context is logged, and under replay applied only as logged (R436, R437): the operation
takes the entries of the next logged batch in their logged order, whatever order they have arrived in, once all of them wait on the line.
It waits until they do, while every waiting entry is one of a batch of the log; an entry that is of none has diverged (assumption log 23).
`waiting` are the line's entries of earlier cycles, and `b` the batch they make by themselves. -/
def State.logBatch (s : State) (waiting b : List UEnt) : Option (State × List UEnt) :=
  match b.find? fun u => s.recording u.ctx || s.checked u.ctx with
  | none => some (s, b)
  | some u =>
    if s.recording u.ctx then some (s.recordBatch u.ctx u.core (batchData b), b)
    else match s.nextLog fun e => e.kind == 3 with
      | none => some (s.replayStop u.ctx 1 u.core s.dbg.recHead.toNat, b)
      | some e => match pickLogged (s.logEntries e) waiting with
        | some (p :: r) => some (s.consumeLog e, p :: r)
        | _ =>
          let known (v : UEnt) : Bool := (s.nextLog fun x => x.kind == 3 && (s.logEntries x).contains v.logged).isSome
          if waiting.all fun v => !s.checked v.ctx || known v then none
          else some (s.replayStop u.ctx 1 u.core e.off, b)

/-- Whether a core's next write is an update, or must come after one of its own that waits for room in a window. -/
def State.behindUpdate (s : State) (c : Nat) : Bool :=
  match (s.core c).homeQ with
  | [] => false
  | .upd _ :: _ => true
  | op :: _ => s.queuedUpdate c (homeSlice op.line)

/-- Cores write back and drop their own copies of a line before operations of theirs on it are performed (R214): none where a
write-back must wait. One that must come after an update that waits for room is accepted later (R210). -/
def clearCopies (line : Nat) : List Nat → State → Option State
  | [], s => some s
  | c :: r, s =>
    let s := s.flushLine c line
    if (s.core c).homeQ.all fun op => op.line != line then clearCopies line r s
    else match s.drainHome c with
      | some s => clearCopies line r s
      | none => if s.behindUpdate c then clearCopies line r s else none

/-- The cores of this package that a batch's entries are of. -/
def batchCores (p : BitVec 12) (b : List UEnt) : List Nat := ((b.filter fun u => u.pkg == p).map (·.core)).eraseDups

/-- An operation starts on a line that has waiting entries, none in flight (R258), and no write that the one before held back (R259). -/
def State.startOp (s : State) (i line : Nat) : State :=
  let sl := s.slice i
  if (nget sl.ops line).isSome || homeSlice line != i || sl.heldWr.any (fun h => h.line == line) then s
  else match batchOf s.cycle line sl.window with
    | [] => s
    | u :: r => match (s.logBatch (waitingOn s.cycle line sl.window) (u :: r)).bind fun x =>
        (clearCopies line (batchCores s.pkg x.2) x.1).map fun t => (t, x.2) with
      | none => s
      | some (s, b) => (s.l2Enter [] u.slot line).modSlice i fun sl =>
        { sl with window := dropBatch sl.window b, ops := nput sl.ops line { batch := b } }

def execUpdateOperation (slice : BitVec 7) (line : Nat) (s : State) : Answer := .next (s.startOp slice.toNat line)

/-- The type an atomic size is read under. -/
def atTy : AtSize → IntTy
  | .n32 => .n32 | .i32 => .i32 | .w64 => .i64

/-- R165: the new value of a location and whether the clamp changed it, from exact contributions already combined. -/
def atomNew (op : AtomOp) (sz : AtSize) (m x c : Word) : Word × Bool :=
  let ty := atTy sz
  let uty : IntTy := match sz with
    | .w64 => .n64
    | .n32 => .n32
    | .i32 => .n32
  let sty : IntTy := match sz with
    | .w64 => .i64
    | .n32 => .i32
    | .i32 => .i32
  let low (w : Word) : Word := intOut uty w
  match op with
  | .add => (low (m + x), false)
  | .adds =>
    let sum := intRead ty m + intRead ty x
    let r := intSat ty sum
    (low r, intRead ty r != sum)
  | .smin => (low (intWrap sty (min (intRead sty m) (intRead sty x))), false)
  | .smax => (low (intWrap sty (max (intRead sty m) (intRead sty x))), false)
  | .umin => (low (intWrap uty (min (intRead uty m) (intRead uty x))), false)
  | .umax => (low (intWrap uty (max (intRead uty m) (intRead uty x))), false)
  | .and => (low (m &&& x), false)
  | .or => (low (m ||| x), false)
  | .xor => (low (m ^^^ x), false)
  | .swap => (low x, false)
  | .cas => (if low m = low c then low x else low m, false)
  | .fadd =>
    let f : SFmt := if sz == .w64 then .fp64 else .fp32
    (BitVec.ofNat 64 (faddCode f .rne (low m).toNat (low x).toNat), false)
  | .rdovf => (low m, false)

/-- The sum of merged .adds contributions applied as one clamp (R169). -/
def addsMerged (sz : AtSize) (m : Word) (xs : List Word) : Word × Bool :=
  let ty := atTy sz
  let sum := xs.foldl (fun acc x => acc + intRead ty x) (intRead ty m)
  let r := intSat ty sum
  let uty : IntTy := if sz == .w64 then .n64 else .n32
  (intOut uty r, intRead ty r != sum)

/-- The line an operation works on: its 128 bytes, the bytes changed, and its sticky bit. -/
structure OpLine where
  bytes : List Byte
  mask : Mask := 0
  sticky : Bool
deriving DecidableEq, Repr, Inhabited

def OpLine.read (o : OpLine) (off n : Nat) : Word := BitVec.ofNat 64 (natOfBytes ((o.bytes.drop off).take n))

def OpLine.write (o : OpLine) (off n : Nat) (v : Word) : OpLine :=
  let bs := (bytesOfWord v).take n
  { o with bytes := bs.zipIdx.foldl (fun l p => lset l (off + p.2) p.1) o.bytes,
           mask := o.mask ||| (((BitVec.allOnes n).setWidth 128 : Mask) <<< off) }

/-- Applies one contribution. -/
def OpLine.apply (o : OpLine) (u : UEnt) : OpLine :=
  let off := u.pa % 128
  let n := atBytes u.size
  let r := atomNew u.op u.size (o.read off n) u.x u.c
  { o.write off n r.1 with sticky := o.sticky || r.2 }

/-- Applies a group of UPD entries of one OP and one size at one location, merged (R169). -/
def OpLine.applyGroup (o : OpLine) (us : List UEnt) : OpLine :=
  match us with
  | [] => o
  | u :: _ =>
    if u.op == .adds then
      let off := u.pa % 128
      let n := atBytes u.size
      let r := addsMerged u.size (o.read off n) (us.map (·.x))
      { o.write off n r.1 with sticky := o.sticky || r.2 }
    else us.foldl OpLine.apply o

/-- Puts an entry, with its place in arrival order, to the group it merges with. -/
def groupUpds : List (UEnt × Nat) → List (List (UEnt × Nat)) → List (List (UEnt × Nat))
  | [], acc => acc
  | u :: r, acc =>
    let same (g : List (UEnt × Nat)) : Bool := match g with
      | v :: _ => v.1.pa == u.1.pa && v.1.op == u.1.op && v.1.size == u.1.size
      | [] => false
    if acc.any same then groupUpds r (acc.map fun g => if same g then g ++ [u] else g) else groupUpds r (acc ++ [[u]])

/-- The groups of a batch's UPD entries in the order of their first entries (R258): the entries that share a byte with an .ord entry,
of whatever size, stand singly, at their own places in arrival order (R169). -/
def updGroups (us : List UEnt) : List (List UEnt) :=
  let ordered (u : UEnt) : Bool := us.any fun v => v.ord && decide (v.pa < u.pa + atBytes u.size) && decide (u.pa < v.pa + atBytes v.size)
  let singles := (us.zipIdx.filter fun p => ordered p.1).map fun p => [p]
  let first (g : List (UEnt × Nat)) : Nat := match g with
    | p :: _ => p.2
    | [] => 0
  (sortBy first (groupUpds (us.zipIdx.filter fun p => !ordered p.1) [] ++ singles)).map fun g => g.map (·.1)

namespace State

/-- The bytes of a line as the update unit reads them. -/
def opLine (s : State) (line : Nat) (slot : BitVec 8) : OpLine :=
  { bytes := s.homeBytes slot (line * 128) 128, sticky := (s.line line).sticky }

/-- Writes an operation's line back: the stamp advances once for it (R259). -/
def putOpLine (s : State) (line : Nat) (slot : BitVec 8) (o : OpLine) : State :=
  let data : Line := BitVec.ofNat 1024 (natOfBytes o.bytes)
  let s := s.acceptLine slot line o.mask data
  s.setLine line { s.line line with sticky := o.sticky }

/-- Sends a returning atomic's old value: at once, or by way of the acquisition it asks for (R167, R222). -/
def replyAtomic (s : State) (u : UEnt) (old : Word) (orders : List (BitVec 12 × BitVec 8)) : State :=
  let bs := (bytesOfWord old).take (atBytes u.size)
  let line := lineOf u.pa
  let bad := (s.line line).poison
  let acq := (u.sync.ord == .acq || u.sync.ord == .ar) && u.sync.scope != .core
  let remote := u.remote.map fun id => (u.pkg, BitVec.ofNat 8 u.core, id)
  if u.reply.isNone && remote.isNone then s
  else if acq then
    s.modSlice (homeSlice line) fun sl => { sl with acqs := sl.acqs ++ [s.newAcq line bs bad u.reply remote u.ctx orders] }
  else match u.reply, remote with
    | some who, _ => s.answer who 0 bs bad 0
    | none, some (pkg, c, id) =>
      let q : RemoteReq := { (default : RemoteReq) with
        what := if bad then 11 else 5, srcPkg := s.pkg, srcCore := c, id, len := bs.length, data := BitVec.ofNat 1024 (natOfBytes bs) }
      s.sendBack pkg u.ctx q
    | none, none => s

/-- Records the releaser of an atomic that releases (R221). False: refused. -/
def recordRelease (s : State) (u : UEnt) : Bool × State :=
  let rel := (u.sync.ord == .rel || u.sync.ord == .ar) && u.sync.scope != .core
  if !rel then (true, s)
  else if u.eager then (true, s.holdSig (lineOf u.pa) u.rs)
  else s.addReleaser (lineOf u.pa) u.pkg (BitVec.ofNat 8 u.core)

/-- A refused release: the core writes back its dirty lines and sends the atomic again behind them; another package is told. -/
def refuse (s : State) (u : UEnt) : State :=
  if u.pkg = s.pkg then
    let s := (s.core u.core).l1.foldl (fun s l => s.writeBackLine u.core l) s
    s.modCore u.core fun k => { k with homeQ := k.homeQ ++ [.upd { u with eager := true }] }
  else
    let q : RemoteReq := { (default : RemoteReq) with what := 12, srcPkg := s.pkg, srcCore := BitVec.ofNat 8 u.core, id := u.remote.getD 0 }
    s.sendBack u.pkg u.ctx q

/-- Makes a claim for a core of this package on a header as read (R178): the count reached. Where the chord no longer waits, what
it claims becomes holes at once (R179). None where a check must wait. -/
def claimOn (s : State) (u : UEnt) (h : CmpkHdr) (holes : Place) : Option (Nat × State) :=
  let (w, ls, a) := u.claim.getD ({ offen := false, offw := false }, [], 0)
  let who := u.reply.getD { core := u.core, slot := 16, wait := 0 }
  match (s.chord? who.core who.slot).bind fun ch => (ch.waits.find? fun x => x.id == who.wait).map fun x => (ch, x) with
  | some (ch, x) => (claimLanes u.core ch x.idx w u.size h a holes ls h.count s).map fun r =>
    let ch := { ch with waits := ch.waits.filter fun y => y.id != x.id }
    (r.2.1, r.2.2.setChord who.core who.slot (ch.putClaims x.idx x.t0 x.t1 r.1))
  | none =>
    let ch : Chord := { ctx := u.ctx, act := 0, dblock := 0, va := 0 }
    (claimLanes u.core ch 0 w u.size h a holes ls h.count s).map fun r =>
      (r.2.1, r.1.foldl (fun s p => match p.2 with
        | .at_ _ k => s.hole u.core u.ctx k
        | .trap _ => s) r.2.2)

/-- A claim whose header cannot be claimed on: its lanes raise a trap, given for the header's address, and deliver all ones (R178). -/
def claimFail (s : State) (u : UEnt) (t : Word → Trap) : State :=
  let who := u.reply.getD { core := u.core, slot := 16, wait := 0 }
  match s.chord? who.core who.slot with
  | none => s
  | some ch => match ch.waits.find? fun x => x.id == who.wait with
    | none => s
    | some x =>
      let ch := { ch with waits := ch.waits.filter fun y => y.id != x.id }
      s.setChord who.core who.slot (ch.putClaims x.idx x.t0 x.t1 (x.lanes.map fun l => (l, .trap (t x.addr))))

/-- A claim whose header is uncorrectable (R343). -/
def claimBad (s : State) (u : UEnt) (code : Nat) : State := s.claimFail u fun a => trapEcc a code

/-- The ATOM or claim that ends a batch, applied last (R258). None where a claim's checks must wait. -/
def applyLast (s : State) (line : Nat) (o : OpLine) (u : UEnt) : Option State :=
  let off := u.pa % 128
  if u.claim.isNone then
    let orders := s.pendingOf line
    let r := s.recordRelease u
    if r.1 then
      let old := if u.op == .rdovf then boolWord o.sticky else o.read off (atBytes u.size)
      let o' := if u.op == .rdovf then { o with sticky := false } else o.apply u
      let s := r.2.putOpLine line u.slot o'
      let s := if u.pkg = s.pkg then s.sigLine u.core s.pkg line else s
      some (s.replyAtomic u old orders)
    else some ((s.putOpLine line u.slot o).refuse u)
  else if (s.line line).poison then some ((s.putOpLine line u.slot o).claimBad u 0)
  else (s.claimOn u (CmpkHdr.ofBytes (o.bytes.drop off)) (.home (u.pa + 8) false u.slot)).map fun r =>
    r.2.putOpLine line u.slot (o.write off 4 (BitVec.ofNat 64 r.1))

end State

namespace State

/-! ### Other packages' writes (R210, R221, R225, R238, R259) -/

/-- An answer to another package, from the home as any other agent (R235). -/
def sendAnswer (s : State) (r : RemoteReq) (what len : Nat) (data : BitVec 1024) : State :=
  s.sendBack r.srcPkg r.ctx
    { (default : RemoteReq) with what, srcPkg := s.pkg, srcCore := r.srcCore, id := r.id, pa := r.pa, len, data }

def ackTo (s : State) (r : RemoteReq) : State := s.sendAnswer r 6 0 0

/-- The signature in a packet's data, from bit 128 on. -/
def packetSig (r : RemoteReq) : Sig := r.data.extractLsb' 128 256

/-- Another package's write is accepted and acknowledged (R238): bytes, bits of a byte, or a flag write that releases, which may be
refused (R221). -/
def farWrite (s : State) (r : RemoteReq) : State :=
  let l := lineOf r.pa
  let bytes := bytesOfNat r.len r.data.toNat
  match r.what with
  | 8 =>
    if r.ord then ((s.acceptBytes r.key r.pa bytes).holdSig l (packetSig r)).ackTo r
    else match s.addReleaser l r.srcPkg r.srcCore with
      | (true, s) => (s.acceptBytes r.key r.pa bytes).ackTo r
      | (false, s) => s.sendAnswer r 12 0 0
  | 15 =>
    let mask : Byte := r.cmp.setWidth 8
    (s.acceptBytes r.key r.pa [(s.homeByte r.key r.pa &&& ~~~mask) ||| (r.data.setWidth 8 &&& mask)]).ackTo r
  | _ => (s.acceptBytes r.key r.pa bytes).ackTo r

/-- Another package's write reaches its home: none where an update or atomic that its core sent before has not been accepted; held
while an operation is in flight on its line, or behind a held one of the line or of its core. -/
def farReach (s : State) (r : RemoteReq) : Option State :=
  let l := lineOf r.pa
  let i := homeSlice l
  let w : Writer := .far r.srcPkg r.srcCore
  if s.queuedFar r.srcPkg r.srcCore.toNat i then none
  else if s.opInFlight l || s.heldOn l || s.heldAt w i then
    let h : HeldWrite := { line := l, op := .write r.pa 0 0 0 0 0 false, by_ := w, far := some r }
    some (s.modSlice i fun sl => { sl with heldWr := sl.heldWr ++ [h] })
  else some (s.farWrite r)

/-- A write that was held is performed. -/
def performHeld (s : State) (h : HeldWrite) : State :=
  match h.far with
  | some r => s.farWrite r
  | none => s.performWrite h.by_ h.op

end State

/-- Performs the writes a slice has held back, in arrival order; one whose line has an operation in flight, or whose line or writer has
an earlier one still held, stays (R210, R259). -/
def releaseWrites : List HeldWrite → List HeldWrite → State → List HeldWrite × State
  | [], kept, s => (kept.reverse, s)
  | h :: r, kept, s =>
    if s.opInFlight h.line || kept.any (fun k => k.line == h.line || (h.by_ != .other && k.by_ == h.by_)) then releaseWrites r (h :: kept) s
    else releaseWrites r kept (s.performHeld h)

namespace State

def releaseHeld (s : State) (i : Nat) : State :=
  let (kept, s) := releaseWrites (s.slice i).heldWr [] s
  s.modSlice i fun sl => { sl with heldWr := kept }

/-- A core's clean copy of a line goes, and no fill of it under way is kept: its later loads fill from the home (R214). -/
def dropClean (s : State) (line c : Nat) : State :=
  s.modCore c fun k =>
    { k with l1 := k.l1.map fun x => if x.line = line then { x with valid := x.valid &&& x.dirty } else x,
             fills := k.fills.map fun f => if f.line = line then { f with keep := false } else f }

/-- Another package is told that an update of it is performed, so that its core signs the line (R216). -/
def tellPerformed (s : State) (u : UEnt) : State :=
  match u.remote with
  | some id => s.sendBack u.pkg u.ctx { (default : RemoteReq) with what := 23, srcPkg := s.pkg, srcCore := BitVec.ofNat 8 u.core, id, pa := u.pa }
  | none => s

/-- Takes an operation out of flight: the cores whose UPDs it applies sign its line, and those whose entries it holds lose their
copies of it. -/
def closeOp (s : State) (i line : Nat) (b : List UEnt) : State :=
  let s := s.modSlice i fun sl => { sl with ops := ndel sl.ops line }
  let s := (b.filter (·.isUpd)).foldl tellPerformed s
  let s := (batchCores s.pkg (b.filter (·.isUpd))).foldl (fun s c => s.sigLine c s.pkg line) s
  (batchCores s.pkg b).foldl (fun s c => s.dropClean line c) s

/-- The line with a batch's UPD entries applied. -/
def batchLine (s : State) (line : Nat) (b : List UEnt) : OpLine :=
  let slot := match b with
    | u :: _ => u.slot
    | [] => 0
  (updGroups (b.filter (·.isUpd))).foldl OpLine.applyGroup (s.opLine line slot)

/-- The header of another package's claim goes to its requester, and the operation waits for COUNT (assumption log 15). -/
def sendHeader (s : State) (i line : Nat) (op : Operation) (o : OpLine) (u : UEnt) : State :=
  let q : RemoteReq := { (default : RemoteReq) with
    what := if (s.line line).poison then 11 else 5, srcPkg := s.pkg, srcCore := BitVec.ofNat 8 u.core, id := u.remote.getD 0, pa := u.pa,
    len := 32, data := BitVec.ofNat 1024 (natOfBytes ((o.bytes.drop (u.pa % 128)).take 32)) }
  (s.sendBack u.pkg u.ctx q).modSlice i fun sl => { sl with ops := nput sl.ops line { op with sent := true } }

/-- COUNT of another package's claim arrives, or is known never to: its operation ends with it (R178, R238). -/
def endClaim (s : State) (i line : Nat) (p : BitVec 12) (id : Nat) (count : Option Nat) : State :=
  match nget (s.slice i).ops line with
  | none => s
  | some op => match op.batch.find? fun u => u.far && u.pkg == p && u.remote == some id with
    | none => s
    | some u =>
      let o := s.batchLine line op.batch
      let o := match count with
        | some q => o.write (u.pa % 128) 4 (BitVec.ofNat 64 q)
        | none => o
      ((s.closeOp i line op.batch).putOpLine line u.slot o).releaseHeld i

/-- An operation ends: its batch is applied as one read-modify-write, and held writes go on (R258, R259). One that ends in another
package's claim first sends that package the header, and stays in flight. -/
def endOp (s : State) (i line : Nat) : State :=
  match nget (s.slice i).ops line with
  | none => s
  | some op =>
    let o := s.batchLine line op.batch
    let s1 := s.closeOp i line op.batch
    match op.batch.find? fun u => !u.isUpd with
    | none =>
      let slot := match op.batch with
        | u :: _ => u.slot
        | [] => 0
      (s1.putOpLine line slot o).releaseHeld i
    | some u =>
      if u.far then (if op.sent then s else s.sendHeader i line op o u)
      else match s1.applyLast line o u with
        | none => s
        | some s2 => s2.releaseHeld i

end State

def execUpdateOperationEnd (slice : BitVec 7) (line : Nat) (s : State) : Answer := .next (s.endOp slice.toNat line)

end Sys2Proof.Machine
end

