-- ==== Sys2Proof/Machine/Effects.lean ====
section
/-! DEFINITION. Rings, watches and patterns (R261 to R274), and the chord effects on rings, streams and the matrix engine
(R266, R286): each as a check against a state and as a change of state, for execution and for commit alike. -/

namespace Sys2Proof.Machine

/-! ### Rings (R261 to R264) -/

/-- W of a shape (R263). -/
def shapeW (shape : Bool) : Nat := if shape then 8 else 32

/-- Elements of a slot: E of R262, or the codes of a scale ring (R270). -/
def RingDesc.elems (d : RingDesc) : Nat :=
  if d.fmt = 11 then (if d.shape then 16 else 64) else if d.shape then 256 else 1024

/-- Bits of an element. -/
def RingDesc.width (d : RingDesc) : Nat := fmtWidth d.fmt

/-- Bytes of a slot. -/
def RingDesc.slotBytes (d : RingDesc) : Nat := d.elems * d.width / 8

/-- A descriptor from its word; none where it breaks R261 or R262. -/
def RingDesc.ofWord (w : Word) : Option RingDesc :=
  let d : RingDesc := { base := (bits w 0 22).toNat, depth := (bits w 24 7).toNat, fmt := (bits w 32 4).toNat, shape := w.getLsbD 36,
                        round := decRnd (bits w 37 2), sat := w.getLsbD 39, scaled := w.getLsbD 40, sring := (bits w 41 5).toNat }
  if bits w 22 2 ≠ 0 ∨ w.getLsbD 31 ∨ bits w 46 18 ≠ 0 ∨ d.depth < 2 ∨ 64 < d.depth ∨ 11 < d.fmt
      ∨ d.base % d.slotBytes ≠ 0 ∨ (!d.scaled ∧ d.sring ≠ 0)
      ∨ (d.fmt = 7 ∧ !d.scaled) ∨ (d.scaled ∧ ¬(4 ≤ d.fmt ∧ d.fmt ≤ 7)) then none
  else some d

def Core.ring? (k : Core) (key num : Nat) : Option Ring := k.rings.find? fun r => r.actKey == key && r.num == num

def Core.modRing (k : Core) (key num : Nat) (f : Ring → Ring) : Core :=
  { k with rings := k.rings.map fun r => if r.actKey = key ∧ r.num = num then f r else r }

def Ring.filled (r : Ring) : Nat := (r.tail - r.head).toNat
def Ring.free (r : Ring) : Nat := r.desc.depth - r.filled

/-- The slot at an offset from HEAD or TAIL. -/
def Ring.slotAt (r : Ring) (ctr : BitVec 32) (off : Nat) : Nat := (ctr.toNat + off) % r.desc.depth

/-- The SRAM address of a slot's first byte (R263). -/
def Ring.slotAddr (r : Ring) (slot : Nat) : Nat := r.first * 131072 + r.desc.base + slot * r.desc.slotBytes

def Ring.slotMeta (r : Ring) (slot : Nat) : SlotMeta := (nget r.slots slot).getD {}

/-- The code of element e of a slot (R73: elements packed from bit 0 up). -/
def readElem (sram : List Host.Cell) (addr w e : Nat) : Nat :=
  if w = 4 then ((mget sram (addr + e / 2)).toNat / 16 ^ (e % 2)) % 16
  else natOfBytes (mgets sram (addr + e * (w / 8)) (w / 8))

/-- Writes the code of an element of a slot. A byte that is uncorrectable stays so where only half of it is written. -/
def Core.writeElem (k : Core) (addr w e code : Nat) : Core :=
  if w = 4 then
    let b := (mget k.sram (addr + e / 2)).toNat
    let lo := if e % 2 = 0 then code % 16 else b % 16
    let hi := if e % 2 = 1 then code % 16 else b / 16
    { k with sram := mput k.sram (addr + e / 2) (BitVec.ofNat 8 (lo + 16 * hi)) }
  else k.putSram (addr + e * (w / 8)) (bytesOfNat (w / 8) code)

def Core.elem (k : Core) (r : Ring) (slot e : Nat) : Nat := readElem k.sram (r.slotAddr slot) r.desc.width e
def Core.setElem (k : Core) (r : Ring) (slot e code : Nat) : Core := k.writeElem (r.slotAddr slot) r.desc.width e code

/-- Whether an element of a slot is uncorrectable. -/
def Core.badElem (k : Core) (r : Ring) (slot e : Nat) : Bool := k.badIn (r.slotAddr slot + e * r.desc.width / 8) (max 1 (r.desc.width / 8))

/-! ### Tokens of engines (R142, R227, R277) -/

/-- A completion token: to (context, activation, block, tag), by .spread on the own package, under h0. A token for an
activation without placement is discarded and counted (R134). -/
def State.engToken (s : State) (n : BitVec 12) (act : BitVec 16) (dblock : BitVec 32) (port : BitVec 4) (tag : BitVec 32)
    (skind : BitVec 4) (payload : Word) (sig : Option Sig) : State :=
  match s.spreadCore (actKey n act) s.pkg dblock tag with
  | none => s.countDiscard n
  | some c =>
    s.sendToken { payload, tag, dblock, dpkg := s.pkg, dcore := BitVec.ofNat 8 c, ctx := n, act, port, relf := sig.isSome,
                  engf := true, spkg := s.pkg, score := 0xFF, skind, tail := sig.getD 0 }

/-! ### Watches (R272) -/

/-- Fires a ring's watches whose condition holds. -/
def State.fireWatches (s : State) (c key num : Nat) : State :=
  match (s.core c).ring? key num with
  | none => s
  | some r =>
    let s := match r.wFilled with
      | some w =>
        if w.n ≤ r.filled then
          (s.modCore c fun k => k.modRing key num fun r => { r with wFilled := none }).sendToken
            { w.tok with payload := BitVec.ofNat 64 r.filled }
        else s
      | none => s
    match r.wFree with
    | some w =>
      if w.n ≤ r.free then
        (s.modCore c fun k => k.modRing key num fun r => { r with wFree := none }).sendToken
          { w.tok with payload := BitVec.ofNat 64 r.free }
      else s
    | none => s

/-- Pops slots of a ring. -/
def State.popRing (s : State) (c key num n : Nat) : State :=
  (s.modCore c fun k => k.modRing key num fun r => { r with head := r.head + BitVec.ofNat 32 n }).fireWatches c key num

/-- Publishes one slot with its bounds. -/
def Ring.publish (r : Ring) (vr vc : Nat) : Ring :=
  { r with slots := nput r.slots (r.slotAt r.tail 0) { seq := r.tail, vrows := vr, vcols := vc }, tail := r.tail + 1 }

def State.pushRing (s : State) (c key num vr vc : Nat) : State :=
  (s.modCore c fun k => k.modRing key num fun r => r.publish vr vc).fireWatches c key num

/-! ### Patterns (R273, R274) -/

/-- A dimension from its constant. -/
def dimOf (w : Word) : Dim := { count := (bits w 40 24).toNat, stride := (bits w 0 40).toInt }

/-- Whether four dimensions break R273 for a width. -/
def dimsBroken (w : Nat) (d : List Dim) : Bool :=
  d.any (fun x => x.count == 0) ||
    (if w = 4 then match d with
      | x :: _ => x.stride != 1 || x.count % 2 == 1
      | [] => true
     else d.any fun x => x.stride % ((w / 8 : Nat) : Int) != 0)

/-- The stride of dimension 0 in bytes, and how many byte positions it takes. -/
def dim0Span (w : Nat) (d : Dim) : Int × Nat := if w = 4 then (1, d.count / 2) else (d.stride, d.count)

/-- The least and greatest offset of a nest of counts and byte strides. -/
def spanOf (l : List (Nat × Int)) : Int × Int :=
  l.foldl (fun p x => let e := ((x.1 : Int) - 1) * x.2
                      (p.1 + min 0 e, p.2 + max 0 e)) (0, 0)

def dimAt (d : List Dim) (i : Nat) : Dim := (d[i]?).getD { count := 1, stride := 0 }

/-- The byte range of a pattern's elements from a base. -/
def boundsOf (w : Nat) (base : Int) (d : List Dim) : Int × Int :=
  let d0 := dim0Span w (dimAt d 0)
  let p := spanOf ((d0.2, d0.1) :: (d.drop 1).map fun x => (x.count, x.stride))
  (base + p.1, base + p.2 + max 1 (w / 8 : Nat))

/-- The byte range of a pattern's scales. -/
def scaleBounds (shape : Bool) (sbase : Int) (sstr : List Int) (d : List Dim) : Int × Int :=
  let c0 := (dimAt d 0).count
  let c1 := (dimAt d 1).count
  let last0 := if shape then (c0 - 1) / 8 else (c0 - 1) / 16
  let last1 := if shape then (c1 - 1) / 2 else c1 - 1
  let st (i : Nat) : Int := (sstr[i]?).getD 0
  let p := spanOf [(last1 + 1, st 0), ((dimAt d 2).count, st 1), ((dimAt d 3).count, st 2)]
  (sbase + p.1, sbase + p.2 + last0 + 1)

/-! ### Streams: what they hold (R275) -/

/-- A stream's pattern from the constants: dimensions, scale base and scale strides; none where it runs past k255. -/
def patternOf (ks : List Word) (p : Nat) (scaled : Bool) : Option (List Dim × Word × List Int) :=
  if 256 < p + (if scaled then 8 else 4) then none
  else some ((List.range 4).map (fun i => dimOf (wordAt ks (p + i))),
    if scaled then wordAt ks (p + 4) else 0,
    if scaled then (List.range 3).map (fun i => (wordAt ks (p + 5 + i)).toInt) else [])

/-- The range a stream registers. -/
def streamRange (d : RingDesc) (base : Word) (dims : List Dim) (sb : Word) (sstr : List Int) : Int × Int :=
  let a := boundsOf d.width base.toNat dims
  if d.scaled then
    let b := scaleBounds d.shape sb.toNat sstr dims
    (min a.1 b.1, max a.2 b.2)
  else a

/-- The tiles of a pattern: how many, and the place of tile t as (i3, i2, tr, tc) (R274). -/
def tileCounts (shape : Bool) (d : List Dim) : Nat × Nat :=
  (((dimAt d 1).count + 31) / 32, ((dimAt d 0).count + shapeW shape - 1) / shapeW shape)

def tileTotal (shape : Bool) (d : List Dim) : Nat :=
  let n := tileCounts shape d
  (dimAt d 3).count * (dimAt d 2).count * n.1 * n.2

def tilePos (shape : Bool) (d : List Dim) (t : Nat) : Nat × Nat × Nat × Nat :=
  let n := tileCounts shape d
  (t / (n.2 * n.1 * (dimAt d 2).count), t / (n.2 * n.1) % (dimAt d 2).count, t / n.2 % n.1, t % n.2)

/-- The byte address of a grid element, and its nibble for a 4-bit format. -/
def elemVa (w : Nat) (base : Int) (d : List Dim) (i3 i2 r c : Nat) : Int × Nat :=
  let o : Int := base + i3 * (dimAt d 3).stride + i2 * (dimAt d 2).stride + r * (dimAt d 1).stride
  if w = 4 then (o + (c / 2 : Nat), c % 2) else (o + c * (dimAt d 0).stride, 0)

/-- The byte address of a grid element's scale. -/
def scaleVa (shape : Bool) (sb : Int) (sstr : List Int) (i3 i2 r c : Nat) : Int :=
  let st (i : Nat) : Int := (sstr[i]?).getD 0
  let rc : Nat × Nat := if shape then (r / 2, c / 8) else (r, c / 16)
  sb + i3 * st 2 + i2 * st 1 + rc.1 * st 0 + rc.2

/-! ### Chord effects on rings and streams (R266 to R278): check and change -/

def protAt (reason : BitVec 8) (n : Nat) : Trap := trapProt reason 0 n

/-- The check of a bound ring (0x41). -/
def Core.boundRing (k : Core) (key num : Nat) : Except Trap Ring :=
  match k.ring? key num with
  | some r => .ok r
  | none => .error (protAt 0x41 num)

/-- The check of a ring that a tile operand names (0x40, 0x41; R346). -/
def Core.planRing (k : Core) (key num : Nat) : Except Trap Ring :=
  if k.plans.any fun p => p.actKey == key && p.num == num then k.boundRing key num else .error (protAt 0x40 num)

def Core.stream? (k : Core) (key h : Nat) : Option Stream := k.streams.find? fun x => x.actKey == key && x.handle == h

/-- The stream that an instruction of an activation names by a handle. DESIGN CHOICE (assumption log 46): no rule gives the scope of a
handle; here each activation has its own sixteen on each core, and in the trap activation, whose handler is to end a stream that has
stopped with an error (R277), a handle that is free there names such a stream of the context. -/
def Core.namedStream (k : Core) (key h : Nat) : Option Stream :=
  match k.stream? key h with
  | some x => some x
  | none =>
    if key % 65536 = 0xFFFF then k.streams.find? fun x => x.actKey / 65536 == key / 65536 && x.handle == h && x.state == .error else none

/-- The breach of a chord effect on rings and streams, if any, against a core's state. `ks` are the constants. -/
def ringBreach (k : Core) (key : Nat) (ks : List Word) (e : Eff) : Option Trap :=
  match e with
  | .rbind num d =>
    match k.plans.find? fun p => p.actKey == key && p.num == num with
    | none => some (protAt 0x40 num)
    | some p =>
      if (k.ring? key num).isSome then some (protAt 0x41 num)
      else if p.banks * 131072 < d.base + d.depth * d.slotBytes then some (protAt 0x42 num)
      else if d.scaled then match k.ring? key d.sring with
        | none => some (protAt 0x42 num)
        | some q =>
          if q.desc.fmt ≠ 11 ∨ q.desc.shape ≠ d.shape ∨ q.desc.depth ≠ d.depth
              ∨ k.rings.any (fun r => r.actKey == key && r.desc.scaled && r.desc.sring == d.sring) then some (protAt 0x42 num)
          else none
      else none
  | .runb num => match k.boundRing key num with
    | .error t => some t
    | .ok r =>
      if r.prod ≠ .program ∨ r.cons ≠ .program ∨ k.rings.any (fun q => q.actKey == key && q.desc.scaled && q.desc.sring == num)
      then some (protAt 0x43 num) else none
  | .radv tail num n => match k.boundRing key num with
    | .error t => some t
    | .ok r =>
      if (tail && r.prod != .program) || (!tail && r.cons != .program) then some (protAt 0x43 num)
      else if (if tail then r.free else r.filled) < n then some (protAt 0x44 num) else none
  | .rwait free num n _ => match k.boundRing key num with
    | .error t => some t
    | .ok r =>
      if (if free then r.wFree.isSome else r.wFilled.isSome) || n == 0 || decide (r.desc.depth < n) then some (protAt 0x45 num) else none
  | .strm out num base w => match k.boundRing key num with
    | .error t => some t
    | .ok r =>
      let side (q : Ring) : Bool := if out then q.cons == .program else q.prod == .program
      let paired := !r.desc.scaled || match k.ring? key r.desc.sring with
        | some q => side q
        | none => false
      if !side r || !paired then some (protAt 0x43 num)
      else if (k.stream? key w.handle.toNat).isSome then some (protAt 0x46 w.handle.toNat)
      else match patternOf ks w.pat.toNat r.desc.scaled with
        | none => some (protAt 0x47 num)
        | some (d, _, _) =>
          let _ := base
          if dimsBroken r.desc.width d then some (protAt 0x47 num) else none
  | _ => none

/-- A ring and its paired scale ring. -/
def ringPair (r : Ring) : List Nat := r.num :: (if r.desc.scaled then [r.desc.sring] else [])

/-- A stream's handle is free again, and its ring sides are the program's (R277). -/
def Core.dropStream (k : Core) (x : Stream) : Core :=
  let rs := match k.ring? x.actKey x.ring with
    | some r => ringPair r
    | none => []
  let k := rs.foldl (fun k q => k.modRing x.actKey q fun r => if x.out then { r with cons := .program } else { r with prod := .program }) k
  { k with streams := k.streams.filter fun y => !(y.actKey == x.actKey && y.handle == x.handle) }

/-- The number that names a stream's range registration: the handle in the low byte (assumption log 18). -/
def streamOwner (c key h : Nat) : Nat := h + 256 * (c + 256 * key)

namespace State

/-- Performs a chord effect on rings and streams. `tag` and `hid` are those of the lowest committing lane. -/
def ringEffect (s : State) (c : Nat) (n : BitVec 12) (act : BitVec 16) (ks : List Word) (tag : BitVec 32) (hid : BitVec 8)
    (e : Eff) : State :=
  let key := actKey n act
  match e with
  | .rbind num d =>
    let p := ((s.core c).plans.find? fun p => p.actKey == key && p.num == num).getD { actKey := key, num, first := 0, banks := 0 }
    s.modCore c fun k => { k with rings := k.rings ++ [{ actKey := key, num, desc := d, first := p.first, banks := p.banks }] }
  | .runb num => s.modCore c fun k => { k with rings := k.rings.filter fun r => !(r.actKey == key && r.num == num) }
  | .radv tail num cnt =>
    if tail then
      (s.modCore c fun k => k.modRing key num fun r =>
        (List.range cnt).foldl (fun r _ => r.publish 32 (shapeW r.desc.shape)) r).fireWatches c key num
    else s.popRing c key num cnt
  | .rwait free num cnt d =>
    let core := match d.route with
      | .spread => (s.spreadCore key s.pkg d.dblock tag).getD c
      | _ => c
    let tok : Token := { tag, dblock := d.dblock, dpkg := s.pkg, dcore := BitVec.ofNat 8 core, ctx := n, act, hid, port := d.dport,
                         spkg := s.pkg, score := BitVec.ofNat 8 c, skind := 0 }
    (s.modCore c fun k => k.modRing key num fun r =>
      if free then { r with wFree := some { n := cnt, tok } } else { r with wFilled := some { n := cnt, tok } }).fireWatches c key num
  | .strm out num base w => match (s.core c).ring? key num with
    | none => s
    | some r => match patternOf ks w.pat.toNat r.desc.scaled with
      | none => s
      | some (dims, sb, sstr) =>
        let range := streamRange r.desc base dims sb sstr
        let str : Stream := { actKey := key, handle := w.handle.toNat, ctx := n, act, out, ring := num, base, dims, sbase := sb,
                              sstr, w, tag }
        let lock : Lock := { ctx := n, lo := range.1.toNat, hi := range.2.toNat, dest := out, kind := 1,
                             owner := streamOwner c key w.handle.toNat }
        let s := s.modCore c fun k =>
          let k := (ringPair r).foldl (fun k q => k.modRing key q fun r => if out then { r with cons := .stream } else { r with prod := .stream }) k
          { k with streams := k.streams ++ [str] }
        { s with homes := { s.homes with locks := s.homes.locks ++ [lock] } }
  | _ => s

end State

/-! ### The matrix engine's state (R283 to R285) -/

def Mxe.acc (x : Mxe) (i : Nat) : Acc := (nget x.accs i).getD {}
def Mxe.setAcc (x : Mxe) (i : Nat) (a : Acc) : Mxe := { x with accs := nput x.accs i a }

/-- Element e of an accumulator. -/
def Acc.elem (a : Acc) (e : Nat) : Nat := (a.elems[e]?).getD 0

/-- Cleared as MXZ clears it (R298): FMT and OWNER are kept. -/
def Acc.clear (a : Acc) : Acc := { a with elems := [], kt := 0, vr := 32, vc := 32, live := false, full := false }

def AccFmt.bytes : AccFmt → Nat
  | .fp64 => 8 | _ => 4
def AccFmt.code : AccFmt → Nat
  | .fp64 => 0 | .fp32 => 1 | .int32 => 2
def accFmtOf : Nat → AccFmt
  | 0 => .fp64 | 2 => .int32 | _ => .fp32

/-- An accumulator no firing can change (R285). -/
def Mxe.quiet (x : Mxe) (a : Acc) : Bool :=
  !a.pend && (a.full || match a.bind with
    | none => true
    | some i => match nget x.slots i with
      | some b => b.state != .running
      | none => true)

/-- Reason 0x51 (R287): owned by another activation. -/
def Acc.others (a : Acc) (key : Nat) : Bool :=
  match a.owner with
  | some o => o != key
  | none => false

/-! ### Control words, rings of an operation, epilogues (R288 to R290, R300) -/

def ctlSparse (w : CtlWord) : Bool := w.spm != 0
/-- M of the sparsity pattern. -/
def ctlM (w : CtlWord) : Nat := 2 ^ (w.spm.toNat + 1)

/-- The accumulator formats of a class (R82, R288). -/
def classAcc (cls afmt : Nat) : Bool :=
  match cls with
  | 0 => afmt == 0
  | 3 => afmt == 2
  | _ => afmt == 0 || afmt == 1

/-- The storage formats of a class (R82). -/
def classFmt (cls fmt : Nat) : Bool :=
  match cls with
  | 0 => fmt ≤ 3
  | 1 => 1 ≤ fmt && fmt ≤ 3
  | 2 => 2 ≤ fmt && fmt ≤ 7
  | _ => fmt == 8 || fmt == 9

/-- A control word that breaks R288. -/
def ctlBroken (w : CtlWord) (bind : Bool) : Bool :=
  !classAcc w.cls.toNat w.afmt.toNat || (w.cls == 3 && w.rnd != .rne) || decide (4 < w.spm.toNat)
    || (if ctlSparse w then decide (ctlM w < w.nm1.toNat + 1) else w.nm1 != 0 || w.mring != 0)
    || (if bind then w.opk == 255 else w.opk != 0)

/-- Operation constants (R290): KCOUNT, and whether the binding drains. -/
def kCount (k0 : Word) : Nat := (bits k0 0 16).toNat
def kDrains (k0 : Word) : Bool := k0.getLsbD 16

/-- A first operation constant that breaks R290. -/
def kBroken (k0 : Word) : Bool := kCount k0 == 0 || k0.getLsbD 17 || bits k0 18 46 != 0

/-- An epilogue word that breaks the field rules of R300. -/
def epiBroken (w : EpiWord) : Bool :=
  decide (252 < w.ek.toNat) || w.act == 3
    || (if w.dkind then w.dfmt != 0 || w.sat || w.round != .rne else w.dring != 0)

/-- The epilogue word of a drain (R290): the breach of its constant, or the word. -/
def drainWord (k1 : Word) : Except Trap EpiWord :=
  let w := decEpi k1
  if !w.dkind || !w.clr then .error (protAt 0x52 0)
  else if bits k1 26 38 != 0 || epiBroken w then .error (protAt 0x55 0)
  else .ok w

/-- The table of R300. -/
def epiFmtOk (acc : AccFmt) (fmt : Nat) (ring scaled : Bool) : Bool :=
  if acc == .int32 then fmt == 8 || fmt == 10 else fmt ≤ 6 || (ring && scaled && fmt == 7)

/-- The data ring with its scale ring. -/
def Core.withScale (k : Core) (key num : Nat) : List Nat :=
  match k.ring? key num with
  | some r => ringPair r
  | none => [num]

/-- The rings an operation pops (R289). -/
def Core.mxIn (k : Core) (key a b : Nat) (w : CtlWord) : List Nat :=
  k.withScale key a ++ k.withScale key b ++ (if ctlSparse w then [w.mring.toNat] else [])

/-- The rings a drain fills. -/
def Core.mxOut (k : Core) (key : Nat) (dr : Option Nat) : List Nat :=
  match dr with
  | some d => k.withScale key d
  | none => []

/-- The breach of R289, if any. -/
def mxRingBreach (k : Core) (key a b : Nat) (w : CtlWord) (dr : Option Nat) (acc : AccFmt) : Option Trap :=
  let named := [a, b] ++ (if ctlSparse w then [w.mring.toNat] else []) ++ dr.toList
  let unbound := named.findSome? fun n => match k.boundRing key n with
    | .error t => some t
    | .ok _ => none
  match unbound with
  | some t => some t
  | none =>
    let ins := k.mxIn key a b w
    let outs := k.mxOut key dr
    let get (n : Nat) : Ring := (k.ring? key n).getD { actKey := key, num := n, desc := {}, first := 0, banks := 0 }
    match ins.find? fun n => (get n).cons != .program with
    | some n => some (protAt 0x43 n)
    | none => match outs.find? fun n => (get n).prod != .program with
      | some n => some (protAt 0x43 n)
      | none =>
        let ra := get a
        let rb := get b
        let cls := w.cls.toNat
        let operand (r : Ring) : Bool := classFmt cls r.desc.fmt && (!r.desc.scaled || cls == 2)
        let meta_ := !(ctlSparse w) || (let m := get w.mring.toNat
          m.desc.fmt == 8 && !m.desc.shape && !m.desc.scaled && m.desc.depth == ra.desc.depth)
        let drain := match dr with
          | none => true
          | some d => let r := get d
                      r.desc.shape == rb.desc.shape && epiFmtOk acc r.desc.fmt true r.desc.scaled
        if operand ra && operand rb && !ra.desc.shape && (!rb.desc.shape || !w.tb) && meta_ && drain && decide ((ins ++ outs).Nodup)
        then none else some (protAt 0x54 a)

/-- R288 to R290 for a binding: the breach, or the drain ring. DESIGN CHOICE (assumption log 48): in MXREST, whose list has them as one check,
they come in the order in which MXBIND's list has them (R296, R307). -/
def mxOpBreach (k : Core) (key a b : Nat) (w : CtlWord) (k0 k1 : Word) : Option Trap :=
  if ctlBroken w true || kBroken k0 then some (protAt 0x52 0)
  else
    let fmt := accFmtOf w.afmt.toNat
    if kDrains k0 then match drainWord k1 with
      | .error t => some t
      | .ok e => mxRingBreach k key a b w (some e.dring.toNat) fmt
    else mxRingBreach k key a b w none fmt

/-- The drain ring of a binding. -/
def Binding.drainRing (x : Binding) : Option Nat := if kDrains x.k0 then some (decEpi x.k1).dring.toNat else none

/-! ### Save areas (R305) -/

/-- A save area as read: the accumulator's and the binding's saved fields. -/
structure MxSave where
  w : CtlWord
  a : Nat
  b : Nat
  acc : Nat
  val : Acc
  sat : Bool
  otiles : BitVec 32
  k0 : Word
  tag : BitVec 32
deriving DecidableEq, Repr, Inhabited

/-- A number in a list of bytes. -/
def bytesAt (bs : List Byte) (off n : Nat) : Nat := natOfBytes ((bs.drop off).take n)

/-- The header's check (R307, reason 0x57). -/
def saveBad (bs : List Byte) : Bool :=
  bytesAt bs 0 4 != 0x5653584D || bytesAt bs 4 4 != 1 || decide (32 ≤ bytesAt bs 0x10 1) || decide (32 ≤ bytesAt bs 0x11 1)
    || decide (8 ≤ bytesAt bs 0x12 1) || decide (3 ≤ bytesAt bs 0x13 1) || bytesAt bs 0x14 1 == 0 || decide (32 < bytesAt bs 0x14 1)
    || bytesAt bs 0x15 1 == 0 || decide (32 < bytesAt bs 0x15 1) || decide (8 ≤ bytesAt bs 0x16 1) || bytesAt bs 0x17 1 != 0
    || bytesAt bs 0x1E 2 != 0 || bytesAt bs 0x28 24 != 0

/-- The bytes of a save area whose header names a format. -/
def saveLen (fmt : AccFmt) : Nat := 64 + 1024 * fmt.bytes

def saveFmt (bs : List Byte) : AccFmt := accFmtOf (bytesAt bs 0x13 1)

/-- Reads a save area (R305). -/
def MxSave.ofBytes (bs : List Byte) : MxSave :=
  let fmt := saveFmt bs
  let flags := bytesAt bs 0x16 1
  let els := (List.range 1024).map fun i => bytesAt bs (64 + i * fmt.bytes) fmt.bytes
  { w := decCtl (BitVec.ofNat 64 (bytesAt bs 8 8)), a := bytesAt bs 0x10 1, b := bytesAt bs 0x11 1, acc := bytesAt bs 0x12 1,
    val := { elems := if flags.testBit 1 then els else [], fmt, kt := bytesAt bs 0x18 2, vr := bytesAt bs 0x14 1,
             vc := bytesAt bs 0x15 1, live := flags.testBit 1, full := flags.testBit 0 },
    sat := flags.testBit 2, otiles := BitVec.ofNat 32 (bytesAt bs 0x1A 4), k0 := BitVec.ofNat 64 (bytesAt bs 0x20 4),
    tag := BitVec.ofNat 32 (bytesAt bs 0x24 4) }

/-- Writes a save area (R305). -/
def saveBytes (x : Binding) (a : Acc) : List Byte :=
  bytesOfNat 4 0x5653584D ++ bytesOfNat 4 1 ++ bytesOfWord (encCtl x.w)
    ++ [BitVec.ofNat 8 x.a, BitVec.ofNat 8 x.b, BitVec.ofNat 8 x.acc, BitVec.ofNat 8 a.fmt.code, BitVec.ofNat 8 a.vr, BitVec.ofNat 8 a.vc,
        BitVec.ofNat 8 ((if a.full then 1 else 0) + (if a.live then 2 else 0) + (if x.sat then 4 else 0)), 0]
    ++ bytesOfNat 2 a.kt ++ bytesOfNat 4 x.otiles.toNat ++ [0, 0]
    ++ bytesOfNat 4 (x.k0.toNat % 2 ^ 32) ++ bytesOfNat 4 x.tag.toNat ++ List.replicate 24 0
    ++ ((List.range 1024).map fun i => bytesOfNat a.fmt.bytes (a.elem i)).flatten

/-! ### Epilogues (R300, R301) -/

/-- Compares with −0 below +0 (R119). -/
def cmpSigned (a b : FVal) : Ordering :=
  match FVal.cmp a b with
  | .eq => match a.neg?, b.neg? with
    | true, false => if a.isZero && b.isZero then .lt else .eq
    | false, true => if a.isZero && b.isZero then .gt else .eq
    | _, _ => .eq
  | o => o

/-- The constants of an epilogue, decoded for its accumulator's format. -/
structure EpiConsts where
  bias : List FVal
  s : FVal
  lo : FVal
  hi : FVal
deriving DecidableEq, Repr, Inhabited

/-- A bias value, or a clamp bound: FP32, or INT32 under an INT32 accumulator. -/
def epiConst (fmt : AccFmt) (code : Nat) : FVal := if fmt == .int32 then .ofInt (signed 32 code) else decodeFmt .fp32 code

def epiConsts (ks : List Word) (w : EpiWord) (fmt : AccFmt) (bias : List Byte) : EpiConsts :=
  let c := wordAt ks (w.ek.toNat + 2)
  { bias := (List.range 32).map fun j => epiConst fmt (bytesAt bias (4 * j) 4),
    s := decodeFmt .fp32 ((wordAt ks (w.ek.toNat + 1)).toNat % 2 ^ 32),
    lo := epiConst fmt (c.toNat % 2 ^ 32), hi := epiConst fmt (c.toNat / 2 ^ 32) }

/-- The exact value of an accumulator element. -/
def Acc.value (a : Acc) (e : Nat) : FVal :=
  match a.fmt with
  | .fp64 => decodeFmt .fp64 (a.elem e)
  | .fp32 => decodeFmt .fp32 (a.elem e)
  | .int32 => .ofInt (signed 32 (a.elem e))

/-- R301 up to the rounding. -/
def epiValue (w : EpiWord) (k : EpiConsts) (mode : Rnd) (j : Nat) (x : FVal) : FVal :=
  let x := if w.bias then FVal.add mode x ((k.bias[j]?).getD (.fin false 0 0)) else x
  let x := if w.scale then FVal.mul x k.s else x
  if w.act = 1 then (if !x.isNaN && FVal.cmp x (.fin false 0 0) != .gt then .fin false 0 0 else x)
  else if w.act = 2 then
    if x.isNaN || k.lo.isNaN || k.hi.isNaN then .nan
    else
      let m := if cmpSigned x k.lo == .lt then k.lo else x
      if cmpSigned m k.hi == .gt then k.hi else m
  else x

/-- The address of bias value 0. -/
def biasAddr (ks : List Word) (w : EpiWord) : Word := wordAt ks w.ek.toNat

/-- The elements a memory destination receives, as address and bytes (R301). -/
def epiStores (ks : List Word) (w : EpiWord) (a : Acc) (bias : List Byte) (addr : Word) : List (Word × List Byte) :=
  let k := epiConsts ks w a.fmt bias
  let wd := fmtWidth w.dfmt.toNat / 8
  let pitch := wordAt ks (w.ek.toNat + 3)
  ((List.range a.vr).map fun i => (List.range a.vc).map fun j =>
    (addr + BitVec.ofNat 64 i * pitch + BitVec.ofNat 64 (j * wd),
     bytesOfNat wd (encodeElem w.dfmt.toNat (epiValue w k w.round j (a.value (32 * i + j))) w.round w.sat))).flatten

/-- Publishes one slot with its bounds under a given sequence number. -/
def Ring.publishAs (r : Ring) (seq : BitVec 32) (vr vc : Nat) : Ring :=
  { r with slots := nput r.slots (r.slotAt r.tail 0) { seq, vrows := vr, vcols := vc }, tail := r.tail + 1 }

/-- Writes a tile into the slot at TAIL of a ring and of its scale ring, and publishes both (R301). -/
def State.epiPush (s : State) (c key : Nat) (ks : List Word) (w : EpiWord) (a : Acc) (bias : List Byte) : State :=
  match (s.core c).ring? key w.dring.toNat with
  | none => s
  | some r =>
    let d := r.desc
    let k := epiConsts ks w a.fmt bias
    let wW := shapeW d.shape
    let val (e : Nat) : Option FVal :=
      if e / wW < a.vr ∧ e % wW < a.vc then some (epiValue w k d.round (e % wW) (a.value (32 * (e / wW) + e % wW))) else none
    let slot := r.slotAt r.tail 0
    let put (codes : List Nat) (k : Core) : Core :=
      let k := k.zeroSram (r.slotAddr slot) (r.slotAddr slot + d.slotBytes)
      codes.zipIdx.foldl (fun k p => k.setElem r slot p.2 p.1) k
    let seq := r.tail
    if d.scaled then
      let f := (fmtOf d.fmt).getD .e4m3
      let groups := (List.range (d.elems / 16)).map fun g => chooseScale f d.round ((List.range 16).map fun i => val (16 * g + i))
      let s := s.modCore c fun k =>
        let k := put (groups.map (·.2)).flatten k
        match k.ring? key d.sring with
        | none => k
        | some q => groups.zipIdx.foldl (fun k p => k.setElem q (q.slotAt q.tail 0) p.2 p.1.1) k
      let s := s.modCore c fun k => (k.modRing key r.num fun r => r.publishAs seq a.vr a.vc).modRing key d.sring fun q => q.publishAs seq a.vr a.vc
      (s.fireWatches c key r.num).fireWatches c key d.sring
    else
      let codes := (List.range d.elems).map fun e => match val e with
        | some v => encodeElem d.fmt v d.round d.sat
        | none => 0
      let s := s.modCore c fun k => (put codes k).modRing key r.num fun r => r.publishAs seq a.vr a.vc
      s.fireWatches c key r.num

/-! ### Chord effects on the matrix engine (R286 to R307): check and change -/

/-- Reason 0x50 of an instruction that names a slot in use. -/
def Core.mySlot (k : Core) (key slot : Nat) : Except Trap Binding :=
  match nget k.mxe.slots slot with
  | some b => if b.actKey = key then .ok b else .error (protAt 0x50 slot)
  | none => .error (protAt 0x50 slot)

/-- Reasons 0x51 and 0x53 of MXZ, MXLD and MXST. -/
def Core.accBreach (k : Core) (key acc : Nat) : Option Trap :=
  let a := k.mxe.acc acc
  if a.others key then some (protAt 0x51 acc) else if !k.mxe.quiet a then some (protAt 0x53 acc) else none

/-- Reason 0x51 of MXBIND, MXFIRE and MXREST. -/
def Acc.taken (a : Acc) (key : Nat) : Bool := a.others key || a.bind.isSome || a.pend

/-- The breach of a chord effect on the matrix engine, if any, against a core's state. -/
def mxBreach (k : Core) (key : Nat) (ks : List Word) (e : Eff) : Option Trap :=
  match e with
  | .mxbind slot a b acc w k0 k1 =>
    let x := k.mxe.acc acc
    if (nget k.mxe.slots slot).isSome then some (protAt 0x50 slot)
    else if x.taken key then some (protAt 0x51 acc)
    else match mxOpBreach k key a b w k0 k1 with
      | some t => some t
      | none => if x.live && x.fmt != accFmtOf w.afmt.toNat then some (protAt 0x53 acc) else none
  | .mxunb slot => match k.mySlot key slot with
    | .error t => some t
    | .ok _ => none
  | .mxfire a b acc w =>
    let x := k.mxe.acc acc
    if x.taken key then some (protAt 0x51 acc)
    else if ctlBroken w false then some (protAt 0x52 0)
    else match mxRingBreach k key a b w none (accFmtOf w.afmt.toNat) with
      | some t => some t
      | none =>
        match (k.mxIn key a b w).find? fun n => match k.ring? key n with
          | some r => r.filled == 0
          | none => true with
        | some n => some (protAt 0x44 n)
        | none => if x.live && x.fmt != accFmtOf w.afmt.toNat then some (protAt 0x53 acc) else none
  | .mxz acc => k.accBreach key acc
  | .mxld acc _ _ => k.accBreach key acc
  | .mxst acc _ w _ _ => match k.accBreach key acc with
    | some t => some t
    | none =>
      let x := k.mxe.acc acc
      if epiBroken w then some (protAt 0x55 0)
      else if w.dkind then match k.boundRing key w.dring.toNat with
        | .error t => some t
        | .ok r =>
          let q : Option Ring := if r.desc.scaled then k.ring? key r.desc.sring else none
          if !epiFmtOk x.fmt r.desc.fmt true r.desc.scaled then some (protAt 0x55 r.num)
          else if r.prod != Side.program || (q.map fun (x : Ring) => x.prod).getD Side.program != Side.program then some (protAt 0x43 r.num)
          else if r.free == 0 || (q.map Ring.free).getD 1 == 0 then some (protAt 0x44 r.num) else none
      else
        let wd := fmtWidth w.dfmt.toNat / 8
        let pitch := (wordAt ks (w.ek.toNat + 3)).toNat
        if !epiFmtOk x.fmt w.dfmt.toNat false false || pitch % max 1 wd != 0 || decide (pitch < 32 * wd) then some (protAt 0x55 0) else none
  | .mxmute slot => match k.mySlot key slot with
    | .error t => some t
    | .ok _ => none
  | .mxsave slot _ _ => match k.mySlot key slot with
    | .error t => some t
    | .ok b => if b.state == .running && !b.muting then some (protAt 0x56 slot) else none
  | .mxrest slot _ bs =>
    if saveBad bs then some (protAt 0x57 slot)
    else
      let v := MxSave.ofBytes bs
      if bits (BitVec.ofNat 64 (bytesAt bs 8 8)) 29 6 != 0 then some (protAt 0x52 0)
      else match mxOpBreach k key v.a v.b v.w v.k0 (wordAt ks (v.w.opk.toNat + 1)) with
        | some t => some t
        | none =>
          let x := k.mxe.acc v.acc
          if (nget k.mxe.slots slot).isSome then some (protAt 0x50 slot)
          else if x.taken key then some (protAt 0x51 v.acc)
          else if (x.live && x.fmt != accFmtOf v.w.afmt.toNat) || (v.val.live && v.val.fmt != accFmtOf v.w.afmt.toNat) then
            some (protAt 0x53 v.acc)
          else none
  | _ => none

/-- Gives the sides of rings to an agent, or back to the program. -/
def Core.setCons (k : Core) (key : Nat) (l : List Nat) (x : Side) : Core :=
  l.foldl (fun k n => k.modRing key n fun r => { r with cons := x }) k
def Core.setProd (k : Core) (key : Nat) (l : List Nat) (x : Side) : Core :=
  l.foldl (fun k n => k.modRing key n fun r => { r with prod := x }) k

/-- Frees a binding slot: its rings return to the program and its accumulator is held by no slot (R296). -/
def Core.freeSlot (k : Core) (slot : Nat) : Core :=
  match nget k.mxe.slots slot with
  | none => k
  | some b =>
    let k := (k.setCons b.actKey (k.mxIn b.actKey b.a b.b b.w) .program).setProd b.actKey (k.mxOut b.actKey b.drainRing) .program
    let m := k.mxe.setAcc b.acc { k.mxe.acc b.acc with bind := none }
    { k with mxe := { m with
        slots := ndel m.slots slot, staged := m.staged.filter fun p => p.cand != slot, drainStops := m.drainStops.filter fun p => p.1 != slot,
          drainNext := m.drainNext.filter fun j => j != slot } }

/-- Makes a binding (R294, R307). -/
def Core.makeBinding (k : Core) (slot : Nat) (b : Binding) (a : Acc) : Core :=
  let k := (k.setCons b.actKey (k.mxIn b.actKey b.a b.b b.w) .matrix).setProd b.actKey (k.mxOut b.actKey b.drainRing) .matrix
  let m := k.mxe.setAcc b.acc { a with owner := some b.actKey, bind := some slot }
  { k with mxe := { m with slots := nput m.slots slot b } }

/-- Starts a mute (R303, R321): staging ends, and a drain that waits on a page fault is abandoned. -/
def Core.startMute (k : Core) (slot : Nat) (sched : Bool) : Core :=
  match nget k.mxe.slots slot with
  | none => k
  | some b =>
    if b.state == .running && !b.muting then
      let m := k.mxe
      { k with mxe := { m with
          slots := nput m.slots slot { b with muting := true, sched := if sched then some .running else none },
          staged := m.staged.filter fun p => p.cand != slot, drainStops := m.drainStops.filter fun p => p.1 != slot,
          drainNext := m.drainNext.filter fun j => j != slot } }
    else k

/-- The places of an access from an address on: those its execution translated, and for what an accumulator's later change of format or
shape adds to them, the translation of now (R395, R399). -/
def State.mxPlaces (s : State) (c : Nat) (n : BitVec 12) (pl : List Place) (va len : Nat) : List Place :=
  pl.take len ++ (List.range (len - pl.length)).filterMap fun i => s.placeBy { core := some c, die := dieOf c, ctx := n } (va + pl.length + i)

/-- The places of a tile's bytes, likewise, each with its byte. -/
def State.mxElems (s : State) (c : Nat) (n : BitVec 12) (els : List (Nat × Place)) (l : List (Word × List Byte)) : List (Place × Byte) :=
  (l.map fun p => p.2.zipIdx.filterMap fun q =>
    ((nget els (p.1.toNat + q.2)).or (s.placeBy { core := some c, die := dieOf c, ctx := n } (p.1.toNat + q.2))).map fun pl => (pl, q.1)).flatten

/-- The places whose bytes a chord effect reads at its commit (R299, R302). -/
def State.mxReads (s : State) (c : Nat) (n : BitVec 12) (ks : List Word) (e : Eff) : List Place :=
  match e with
  | .mxld acc addr pl => s.mxPlaces c n pl addr.toNat (1024 * ((s.core c).mxe.acc acc).fmt.bytes)
  | .mxst _ _ w bias _ => if w.bias then s.mxPlaces c n bias (biasAddr ks w).toNat 128 else []
  | _ => []

/-- The effect with those places as they are read. -/
def Eff.withReads (e : Eff) (pl : List Place) : Eff :=
  match e with
  | .mxld acc addr _ => .mxld acc addr pl
  | .mxst acc addr w _ els => .mxst acc addr w pl els
  | e => e

/-- Performs a chord effect on the matrix engine. `tag` is that of the lowest committing lane. -/
def State.mxEffect (s : State) (c : Nat) (n : BitVec 12) (act : BitVec 16) (ks : List Word) (tag : BitVec 32) (e : Eff) : State :=
  let key := actKey n act
  match e with
  | .mxbind slot a b acc w k0 k1 => s.modCore c fun k =>
    let x := k.mxe.acc acc
    k.makeBinding slot { actKey := key, w, k0, k1, a, b, acc, tag } (if x.live then x else { x with fmt := accFmtOf w.afmt.toNat })
  | .mxunb slot => s.modCore c fun k => k.freeSlot slot
  | .mxfire a b acc w => s.modCore c fun k =>
    let x := k.mxe.acc acc
    let k := k.setCons key (k.mxIn key a b w) .matrix
    let m := k.mxe.setAcc acc { x with owner := some key, pend := true, fmt := if x.live then x.fmt else accFmtOf w.afmt.toNat }
    { k with mxe := { m with queue := m.queue ++ [{ actKey := key, w, a, b, acc, tag }] } }
  | .mxz acc => s.modCore c fun k =>
    let x := (k.mxe.acc acc).clear
    { k with mxe := k.mxe.setAcc acc { x with owner := some key } }
  | .mxld acc addr pl =>
    let x := (s.core c).mxe.acc acc
    let bs := (s.mxPlaces c n pl addr.toNat (1024 * x.fmt.bytes)).map (engByte s)
    let els := (List.range 1024).map fun i => bytesAt bs (i * x.fmt.bytes) x.fmt.bytes
    let x' : Acc := { x with elems := els, kt := 0, vr := 32, vc := 32, live := true, full := false, owner := some key }
    s.bump.modCore c fun k => { k with mxe := k.mxe.setAcc acc x' }
  | .mxst acc addr w bl els =>
    let x := (s.core c).mxe.acc acc
    let bias := if w.bias then (s.mxPlaces c n bl (biasAddr ks w).toNat 128).map (engByte s) else []
    let s := if w.bias then s.bump else s
    let s := if w.dkind then s.epiPush c key ks w x bias else s.corePut c n (s.mxElems c n els (epiStores ks w x bias addr))
    s.modCore c fun k =>
      let x := if w.clr then (k.mxe.acc acc).clear else k.mxe.acc acc
      { k with mxe := k.mxe.setAcc acc { x with owner := some key } }
  | .mxmute slot => s.modCore c fun k => k.startMute slot false
  | .mxsave slot addr pl => match nget (s.core c).mxe.slots slot with
    | none => s
    | some b =>
      let x := (s.core c).mxe.acc b.acc
      let s := s.corePut c n ((s.mxPlaces c n pl addr.toNat (saveLen x.fmt)).zip (saveBytes b x))
      s.modCore c fun k =>
        let k := k.freeSlot slot
        let x := x.clear
        { k with mxe := k.mxe.setAcc b.acc { x with owner := none, bind := none } }
  | .mxrest slot _ bs =>
    let v := MxSave.ofBytes bs
    s.modCore c fun k => k.makeBinding slot
      { actKey := key, w := v.w, k0 := v.k0, k1 := wordAt ks (v.w.opk.toNat + 1), a := v.a, b := v.b, acc := v.acc, sat := v.sat,
        otiles := v.otiles, tag := v.tag } (if v.val.live then v.val else { v.val with fmt := accFmtOf v.w.afmt.toNat })
  | _ => s

/-! ### Chord effects at execution (R266) -/

/-- The breach of a chord effect. -/
def effBreach (k : Core) (key : Nat) (ks : List Word) (e : Eff) : Option Trap :=
  match ringBreach k key ks e with
  | some t => some t
  | none => mxBreach k key ks e

namespace State

/-- Performs a chord effect. `tag` and `hid` are those of the lowest committing lane. -/
def chordEffect (s : State) (c : Nat) (n : BitVec 12) (act : BitVec 16) (ks : List Word) (tag : BitVec 32) (hid : BitVec 8) (e : Eff) : State :=
  (s.ringEffect c n act ks tag hid e).mxEffect c n act ks tag e

/-- The state as a chord effect will leave it, so far as the checks of a later one look at it. -/
def afterEff (s : State) (c : Nat) (ch : Chord) (ks : List Word) (e : Eff) : State :=
  match e with
  | .strmc h => match (s.core c).stream? ch.key h with
    | some x => s.modCore c fun k => k.dropStream x
    | none => s
  | e => if (effBreach (s.core c) ch.key ks e).isNone then s.chordEffect c ch.ctx ch.act ks 0 0 e else s

/-- The state as the chord's earlier chord effects will leave it (R266). -/
def afterChordEffs (s : State) (c : Nat) (ch : Chord) (ks : List Word) : State :=
  ch.effs.foldl (fun s e => s.afterEff c ch ks e.2) s

end State

/-- A chord effect at execution: refused in every lane under a hypothesis, checked against the state its forerunners leave. -/
def chordEff (s : State) (ch : Chord) (e : Eff) (v : Word) : LaneRes × State :=
  if ch.lanes.any fun p => p.2.hid != 0 then (.trapped { cause := 0x0F }, s)
  else
    let ks := s.consts ch
    let c := s.flow.focusCore
    match effBreach ((s.afterChordEffs c ch ks).core c) ch.key ks e with
    | some t => (.trapped t, s)
    | none => ({ LaneRes.val v with effs := [e] }, s)

end Sys2Proof.Machine
end

