-- ==== Sys2Proof/Machine/Ring.lean ====
section
/-! DEFINITION. Ring, stream and copy instructions (R265 to R281) and the steps of stream and copy engines. -/

namespace Sys2Proof.Machine

/-! ### The instructions (R265, R268 to R272) -/

/-- The number in a static-resource slot (R20). -/
def immNat : Sel → Nat
  | .imm v => v.toNat
  | .link => 0
  | .port p => p.toNat
  | .const k => k.toNat

/-- RBIND with its descriptor read. -/
def rbindWord (ring : Nat) (s : State) (ch : Chord) (w : Word) : LaneRes × State :=
  match RingDesc.ofWord w with
  | none =>
    let k := (s.afterChordEffs s.flow.focusCore ch (s.consts ch)).core s.flow.focusCore
    let t := if !k.plans.any (fun p => p.actKey == ch.key && p.num == ring) then protAt 0x40 ring
      else if (k.ring? ch.key ring).isSome then protAt 0x41 ring else protAt 0x42 ring
    (.trapped t, s)
  | some d =>
    let p := ((s.core s.flow.focusCore).plans.find? fun p => p.actKey == ch.key && p.num == ring).map (·.first)
    chordEff s ch (.rbind ring d) (BitVec.ofNat 64 (2 * 2 ^ 60 + (p.getD 0) * 131072 + d.base))

/-- RBIND: the descriptor is read as LD.64 reads it, at its home where that lies elsewhere (R238). -/
def rbindBody (ring : Nat) : Body := fun s ch i _ x v =>
  let who := laneWho s ch i x 0
  if ch.lanes.any fun p => p.2.hid != 0 then some (.trapped { cause := 0x0F }, s)
  else match s.check s.flow.focusCore who v.b 8 16 .read true false with
    | .wait => none
    | .trap t s => some (.trapped t, s)
    | .ok pl s => match s.seek who pl with
      | .later s => some (awaitRead s who)
      | .fails t => some (.trapped { t with addr := v.b }, s.forgetJob who)
      | .got gl => match readPlaces s.flow.focusCore ch.ctx x.hid gl s with
        | none => none
        | some ((got, bad), s) =>
          if bad then some (.trapped (trapEcc v.b 0), s.forgetJob who)
          else some (rbindWord ring (s.forgetJob who).bump ch (wordOfBytes ((overlay x pl got).map (·.getD 0))))

def ringShape (u : URule) (b c y : Bool) : Shape := .ring u b c y

def execRbind (f : Flds) (s : State) : Answer := .next (s.perform (ringShape .r true false true) f 1 false (rbindBody (immNat f.a)))

def runbBody (ring : Nat) : Body := fun s ch _ _ _ _ => some (chordEff s ch (.runb ring) 0)

def execRunb (f : Flds) (s : State) : Answer := .next (s.perform (ringShape .r false false false) f 1 false (runbBody (immNat f.a)))

/-- The element a position word names, or the breach (R270). -/
def posOf (r : Ring) (w : Word) (room : Nat) : Except Trap (Nat × Nat) :=
  let e := (bits w 0 16).toNat
  let sl := (bits w 16 6).toNat
  if bits w 22 42 ≠ 0 ∨ r.desc.elems ≤ e ∨ room ≤ sl then .error (protAt 0x44 r.num) else .ok (e, sl)

def rgetBody (ring : Nat) : Body := fun s ch _ _ _ v =>
  let k := s.core s.flow.focusCore
  match k.boundRing ch.key ring with
  | .error t => some (.trapped t, s)
  | .ok r =>
    if r.cons ≠ .program then some (.trapped (protAt 0x43 ring), s)
    else match posOf r v.b r.filled with
      | .error t => some (.trapped t, s)
      | .ok (e, sl) =>
        let slot := r.slotAt r.head sl
        if k.badElem r slot e then some (.trapped (trapEcc 0 2), s) else some (.val (BitVec.ofNat 64 (k.elem r slot e)), s)

def execRget (f : Flds) (s : State) : Answer := .next (s.perform (ringShape .n true false true) f 1 false (rgetBody (immNat f.a)))

def rputBody (ring : Nat) : Body := fun s ch _ _ x v =>
  let k := s.core s.flow.focusCore
  match k.boundRing ch.key ring with
  | .error t => some (.trapped t, s)
  | .ok r =>
    if r.prod ≠ .program then some (.trapped (protAt 0x43 ring), s)
    else match posOf r v.b r.free with
      | .error t => some (.trapped t, s)
      | .ok (e, sl) =>
        if x.hid ≠ 0 then some (.trapped { cause := 0x0F }, s)
        else some (.eff (.rput ring (r.slotAt r.tail sl) e v.c), s)

def execRput (f : Flds) (s : State) : Answer := .next (s.perform (ringShape .n true true false) f 1 false (rputBody (immNat f.a)))

def radvBody (tail : Bool) (ring : Nat) : Body := fun s ch _ _ _ v => some (chordEff s ch (.radv tail ring v.b.toNat) 0)

def execRadv (tail : Bool) (f : Flds) (s : State) : Answer :=
  .next (s.perform (ringShape .r true false false) f 1 false (radvBody tail (immNat f.a)))

def rwaitBody (free : Bool) (d : TokenDest) (ring : Nat) : Body := fun s ch _ _ _ v =>
  some (chordEff s ch (.rwait free ring v.b.toNat d) 0)

def execRwait (free : Bool) (d : TokenDest) (f : Flds) (s : State) : Answer :=
  .next (s.perform (ringShape .r true false false) f 2 false (rwaitBody free d (immNat f.a)))

def sideCode : Side → Nat
  | .program => 0
  | .stream => 1
  | .matrix => 2

/-- RSTAT's word (R265). -/
def Ring.status (r : Ring) : Word :=
  BitVec.ofNat 64 (r.head.toNat + r.filled * 2 ^ 32 + r.desc.depth * 2 ^ 39 + sideCode r.prod * 2 ^ 46 + sideCode r.cons * 2 ^ 48
    + (if r.wFilled.isSome then 2 ^ 50 else 0) + (if r.wFree.isSome then 2 ^ 51 else 0) + 2 ^ 52)

def rstatBody (ring : Nat) : Body := fun s ch _ _ _ _ =>
  match (s.core s.flow.focusCore).ring? ch.key ring with
  | some r => some (.val r.status, s)
  | none => some (.val 0, s)

/-- RSTAT: a lane not selected delivers its A value, the ring's number (R21). -/
def execRstat (f : Flds) (s : State) : Answer := .next (s.perform (ringShape .y false false true) f 1 false (rstatBody (immNat f.a)))

/-! ### Streams (R275 to R278) -/

/-- STRM and STRMW at execution: the window and alignment of the base, then the chord effect's checks. A chord with a lane under a
hypothesis is refused first of all: R266 gives that check no place in the list of R275, nor in RBIND's (assumption log 46). -/
def strmBody (out : Bool) (w : StreamWord) (ring : Nat) : Body := fun s ch _ _ _ v =>
  let width := match (s.afterChordEffs s.flow.focusCore ch (s.consts ch)).core s.flow.focusCore |>.ring? ch.key ring with
    | some r => r.desc.width
    | none => 8
  if ch.lanes.any fun p => p.2.hid != 0 then some (.trapped { cause := 0x0F }, s)
  else if 2 ^ 57 ≤ v.b.toNat then some (.trapped (trapWindow v.b), s)
  else if v.b.toNat % max 1 (width / 8) ≠ 0 then some (.trapped (trapAlign v.b), s)
  else some (chordEff s ch (.strm out ring v.b w) 0)

def execStrm (w : StreamWord) (f : Flds) (s : State) : Answer :=
  .next (s.perform (ringShape .r true false false) f 2 false (strmBody false w (immNat f.a)))
def execStrmw (w : StreamWord) (f : Flds) (s : State) : Answer :=
  .next (s.perform (ringShape .r true false false) f 2 false (strmBody true w (immNat f.a)))

def strCode : StrState → Nat
  | .running => 1
  | .paused _ => 2
  | .error => 3

/-- STRMQ's word (R278). -/
def Stream.status (x : Stream) : Word :=
  BitVec.ofNat 64 (x.tiles % 2 ^ 32 + strCode x.state * 2 ^ 32 + (if x.out then 2 ^ 34 else 0) + x.ring * 2 ^ 35)

def strmqBody (h : Nat) : Body := fun s ch _ _ _ _ =>
  match (s.core s.flow.focusCore).namedStream ch.key h with
  | some x => some (.val x.status, s)
  | none => some (.val 0, s)

def strmqShape : Shape := { u := .y, rdA := true, yields := true, stA := some 16 }

def execStrmq (f : Flds) (s : State) : Answer := .next (s.perform strmqShape f 1 false (strmqBody (immNat f.a)))

def strmcBody (h : Nat) : Body := fun s ch _ _ _ _ =>
  if ch.lanes.any fun p => p.2.hid != 0 then some (.trapped { cause := 0x0F }, s) else some (.eff (.strmc h), s)

def strmcShape : Shape := { u := .r, rdA := true, stA := some 16 }

def execStrmc (f : Flds) (s : State) : Answer := .next (s.perform strmcShape f 1 false (strmcBody (immNat f.a)))

/-- The stream engine that serves a byte for a context, by C-die × 16 + slice: the one at the byte's home, or for a secure context the
next secure one of that C-die (R422). For memory elsewhere it is one of the C-die the stream is on. -/
def State.strmEngine (s : State) (n : BitVec 12) (die : Nat) (p : Place) : Nat :=
  let home : Nat := match p with
    | .home pa _ _ => homeSlice (lineOf pa)
    | .remote _ pa _ _ => die * 16 + homeSlice (lineOf pa) % 16
    | .host a => die * 16 + homeSlice (lineOf a) % 16
    | .sram .. => die * 16
    | .given _ => die * 16
  if !(s.ctx n).desc.secure then home
  else (((List.range 16).map fun i => home / 16 * 16 + (home + i) % 16).find? fun e => s.sec.strmWorld.getLsbD e).getD home

/-- The number of its signature registers (R227). -/
def State.strmSig (s : State) (n : BitVec 12) (die : Nat) (p : Place) : Nat := 32 + s.strmEngine n die p

/-- The signature of the engines that served a stream (R227): its writes lie at several, and its token carries them all. -/
def State.streamRs (s : State) (x : Stream) : Sig := x.used.foldl (fun acc e => acc ||| s.engRs e) 0

/-- Whether a write of a stream is not yet accepted at its home. -/
def State.streamOut (s : State) (c : Nat) (x : Stream) : Bool := x.used.any fun e => s.writesOut e (streamOwner c x.actKey x.handle)

/-- Whether the stream has moved its last tile and every write of it is acknowledged. -/
def State.streamDone (s : State) (c : Nat) (x : Stream) : Bool :=
  match (s.core c).ring? x.actKey x.ring with
  | some r => tileTotal r.desc.shape x.dims ≤ x.tiles && !s.streamOut c x
  | none => true

/-- A stream ends (R277): range, handle and ring sides are released, and its token sent. -/
def State.endStream (s : State) (c : Nat) (x : Stream) (cancelled error : Bool) : State :=
  let owner := streamOwner c x.actKey x.handle
  let s := { s with homes := { s.homes with locks := s.homes.locks.filter fun l => !(l.kind == 1 && l.owner == owner) } }
  let s := (s.modCore c fun k => k.dropStream x).forget fun r => r.kind == 3 && r.job % 2 ^ 64 == owner
  if x.w.cen then
    s.engToken x.ctx x.act x.w.cblock x.w.cport x.tag 3
      (BitVec.ofNat 64 (x.tiles % 2 ^ 32 + (if cancelled then 2 ^ 63 else 0) + (if error then 2 ^ 62 else 0))) (some (s.streamRs x))
  else s

/-- STRMC at commit, once every write of the stream is accepted (R227, R278): it finishes no tile. -/
def State.cancelStream (s : State) (c key h : Nat) : State :=
  match (s.core c).namedStream key h with
  | none => s
  | some x => s.endStream c x (x.state != .error) (x.state == .error)

/-- What an engine finds at an address: the places, a page fault it waits for, an error with whether R423 refused the access, that
it must wait, or that it waits for bytes it has asked another package or the host for. -/
inductive EngAccess
  | ok (pl : List Place) (s : State)
  | later (s : State)
  | fault (stop : Stop) (s : State)
  | err (t : Trap) (denied : Bool)
  | wait
deriving DecidableEq, Repr, Inhabited

/-- An engine's access of `n` bytes at a virtual address: window, page and world checks (R157, R388, R394, R422). What it reads beyond the
package it is given by the home there (R238). -/
def engAccess (s : State) (w : Who) (va : Int) (n : Nat) (k : AccKind) : EngAccess :=
  let a := (va % 2 ^ 64).toNat
  if va < 0 ∨ 2 ^ 57 < a + n then .err (trapWindow (BitVec.ofNat 64 a)) false
  else match s.checkPages w a n k with
    | .wait => .wait
    | .trap t s' => match t.fault with
      | some id => .fault { id, addr := t.addr } s'
      | none => .err t (t.reason == 0x72 && s.breachAt w a n)
    | .ok pl s' =>
      let dark := (w.kind == 3 || w.kind == 5 || w.kind == 6) && (s.ctx w.ctx).desc.secure && pl.any fun p => match p with
        | .home pa _ _ => (s.sec.strmWorld.extractLsb' (homeSlice (lineOf pa) / 16 * 16) 16) == (0 : BitVec 16)
        | _ => false
      if dark then .err (trapProt 0x74 (BitVec.ofNat 64 a)) false
      else if !k.writes && pl.any (engPoison s) then .err (trapEcc (BitVec.ofNat 64 a) 0) false
      else if k.writes then .ok pl s'
      else match s'.seek w pl with
        | .got pl => .ok pl (s'.enterPlaces pl)
        | .fails t => .err { t with addr := BitVec.ofNat 64 a } false
        | .later s => .later s

/-- Bytes an engine reads at a list of addresses of `n` bytes each, in order. What lies beyond the package it asks for at once. -/
def engReads (w : Who) (n : Nat) : List Int → State → Except EngAccess (List (List Byte) × State)
  | [], s => .ok ([], s)
  | va :: r, s => match engAccess s w va n .read with
    | .ok pl s => match engReads w n r s with
      | .ok (bs, s') => .ok (pl.map (engByte s) :: bs, s')
      | .error e => .error e
    | .later s1 => match engReads w n r s1 with
      | .ok (_, s2) => .error (.later s2)
      | .error e => .error e
    | e => .error e

/-- The places an engine will write at a list of addresses of `n` bytes each. -/
def engTargets (w : Who) (n : Nat) : List Int → State → Except EngAccess (List (List Place) × State)
  | [], s => .ok ([], s)
  | va :: r, s => match engAccess s w va n .write with
    | .ok pl s => match engTargets w n r s with
      | .ok (ps, s') => .ok (pl :: ps, s')
      | .error e => .error e
    | e => .error e

/-- The grid elements of a tile within the grid, as (row, column of the tile, grid row, grid column). -/
def tileElems (shape : Bool) (d : List Dim) (t : Nat) : List (Nat × Nat × Nat × Nat) :=
  let p := tilePos shape d t
  let w := shapeW shape
  ((List.range 32).map fun i => (List.range w).filterMap fun j =>
    let r := 32 * p.2.2.1 + i
    let c := w * p.2.2.2 + j
    if r < (dimAt d 1).count ∧ c < (dimAt d 0).count then some (i, j, r, c) else none).flatten

/-- Who a stream is to translation (R388, KIND 3), and the tile it reads for. -/
def streamWho (c : Nat) (x : Stream) : Who :=
  { die := dieOf c, ctx := x.ctx, act := x.act, kind := 3, job := streamOwner c x.actKey x.handle + 2 ^ 64 * x.tiles }

/-- Notes the stream engines that serve some bytes for a stream. -/
def State.noteEngines (s : State) (c : Nat) (x : Stream) (pl : List Place) : State :=
  let es := (pl.map (s.strmSig x.ctx (dieOf c))).eraseDups
  s.modCore c fun k => { k with streams := k.streams.map fun y =>
    if y.actKey = x.actKey ∧ y.handle = x.handle then { y with used := (y.used ++ es).eraseDups } else y }

/-- The next tile of a STRM: the state with it pushed, or what stops it. DESIGN CHOICE (assumption log 46): on a ring of FMT 11, whose
slots hold fewer codes than a tile has elements, the tile is moved as R274 lays it out, past the slot's end. -/
def gatherTile (s : State) (c : Nat) (x : Stream) (r : Ring) : Except EngAccess State :=
  let d := r.desc
  let w := d.width
  let p := tilePos d.shape x.dims x.tiles
  let els := tileElems d.shape x.dims x.tiles
  let who := streamWho c x
  let addrs := els.map fun e => elemVa w x.base.toNat x.dims p.1 p.2.1 e.2.2.1 e.2.2.2
  let groups := if d.scaled then (els.map fun e => (e.1 * shapeW d.shape + e.2.1) / 16).eraseDups else []
  let firstOf (g : Nat) : Nat × Nat :=
    match els.find? fun e => (e.1 * shapeW d.shape + e.2.1) / 16 == g with
    | some e => (e.2.2.1, e.2.2.2)
    | none => (0, 0)
  let saddrs := groups.map fun g => scaleVa d.shape x.sbase.toNat x.sstr p.1 p.2.1 (firstOf g).1 (firstOf g).2
  match engReads who (max 1 (w / 8)) (addrs.map (·.1)) s with
  | .error e => .error e
  | .ok (bs, s) => match engReads who 1 saddrs s with
    | .error e => .error e
    | .ok (ss, s) =>
      let codes := (els.zip (addrs.zip bs)).map fun q =>
        (q.1.1 * shapeW d.shape + q.1.2.1,
         if w = 4 then (natOfBytes q.2.2 / 16 ^ q.2.1.2) % 16 else natOfBytes q.2.2)
      let slot := r.slotAt r.tail 0
      let s := s.noteEngines c x ((addrs.map (·.1) ++ saddrs).filterMap fun a => s.placeFrom who.die x.ctx (a % 2 ^ 64).toNat)
      let s := (s.forgetJob who).bump.modCore c fun k =>
        let a := r.slotAddr slot
        let k := k.zeroSram a (a + d.slotBytes)
        codes.foldl (fun k q => k.setElem r slot q.1 q.2) k
      let s := if d.scaled then s.modCore c fun k => match k.ring? x.actKey d.sring with
        | none => k
        | some q =>
          let sl := q.slotAt q.tail 0
          let k := (List.range q.desc.elems).foldl (fun k e => k.setElem q sl e 0x7F) k
          (groups.zip ss).foldl (fun (k : Core) (g : Nat × List Byte) => k.setElem q sl g.1 (natOfBytes g.2)) k else s
      let vr := min 32 ((dimAt x.dims 1).count - 32 * p.2.2.1)
      let vc := min (shapeW d.shape) ((dimAt x.dims 0).count - shapeW d.shape * p.2.2.2)
      let s := s.pushRing c x.actKey r.num vr vc
      .ok (if d.scaled then s.pushRing c x.actKey d.sring vr vc else s)

/-- The elements of a 4-bit tile by byte: each address with the bits its elements take, and their codes. -/
def nibbleBytes (l : List ((Int × Nat) × Nat)) : List (Int × Byte × Byte) :=
  (l.map (·.1.1)).eraseDups.map fun a =>
    (l.filter fun p => p.1.1 == a).foldl (fun (q : Int × Byte × Byte) p =>
      (a, q.2.1 ||| BitVec.ofNat 8 (15 * 16 ^ p.1.2), q.2.2 ||| BitVec.ofNat 8 (p.2 % 16 * 16 ^ p.1.2))) (a, 0, 0)

/-- The next tile of a STRMW: the state with it written, or what stops it. It writes the elements within both the slot's bounds and the
grid, and no other byte; the scale ring's slot lends its SEQ alone (R276). -/
def scatterTile (s : State) (c : Nat) (x : Stream) (r : Ring) : Except EngAccess State :=
  let d := r.desc
  let w := d.width
  let p := tilePos d.shape x.dims x.tiles
  let slot := r.slotAt r.head 0
  let m := r.slotMeta slot
  let els := (tileElems d.shape x.dims x.tiles).filter fun e => e.1 < m.vrows && e.2.1 < m.vcols
  let who := streamWho c x
  let k := s.core c
  let sring := if d.scaled then k.ring? x.actKey d.sring else none
  let bad : Option (BitVec 32 × BitVec 32) := match sring with
    | some q => let ms := q.slotMeta (q.slotAt q.head 0)
                if ms.seq = m.seq then none else some (m.seq, ms.seq)
    | none => none
  match bad with
  | some (a, b) => .error (.err { cause := 0x0A, aux := b.extractLsb' 0 31 ++ a } false)
  | none => if els.any (fun e => k.badElem r slot (e.1 * shapeW d.shape + e.2.1)) then .error (.err (trapEcc 0 2) false) else
    let addrs := els.map fun e => elemVa w x.base.toNat x.dims p.1 p.2.1 e.2.2.1 e.2.2.2
    let codes := (els.zip addrs).map fun q => (q.2, k.elem r slot (q.1.1 * shapeW d.shape + q.1.2.1))
    let nibs := nibbleBytes codes
    match engTargets who (max 1 (w / 8)) (if w = 4 then nibs.map (·.1) else addrs.map (·.1)) s with
    | .error e => .error e
    | .ok (pls, s) =>
      let eng (p : Place) : Option Nat := some (s.strmSig x.ctx (dieOf c) p)
      let job := streamOwner c x.actKey x.handle
      let put (s : State) (bs : List (Place × Byte)) : State := match bs with
        | [] => s
        | q :: _ => putPlaces x.ctx (eng q.1) bs s job
      let s := s.bump.noteEngines c x pls.flatten
      .ok (if w = 4 then (nibs.zip pls).foldl (fun (s : State) (q : (Int × Byte × Byte) × List Place) =>
          q.2.foldl (fun s p => putBits x.ctx (eng p) job p q.1.2.1 q.1.2.2 s) s) s
        else (codes.zip pls).foldl (fun (s : State) (q : ((Int × Nat) × Nat) × List Place) =>
          put s (q.2.zip (bytesOfNat (w / 8) q.1.2))) s)

/-- A STRMW's tile has been written and accepted whole: it is popped, with its scale slot (R276), and counted. -/
def State.popTile (s : State) (c : Nat) (x : Stream) (r : Ring) : State :=
  let s := s.modCore c fun k => { k with streams := k.streams.map fun y =>
    if y.actKey = x.actKey ∧ y.handle = x.handle then { y with tiles := y.tiles + 1, wrote := false } else y }
  let s := s.popRing c x.actKey r.num 1
  if r.desc.scaled then s.popRing c x.actKey r.desc.sring 1 else s

/-- Whether a running stream may move its next tile now (R276): a free or a filled slot, in the scale ring too. For a STRMW on a
scaled ring the wait for the scale ring's slot, and its pop with the data slot, are the model's reading (assumption log 46). -/
def streamReady (k : Core) (x : Stream) (r : Ring) : Bool :=
  let ok (q : Ring) : Bool := if x.out then 0 < q.filled else 0 < q.free
  x.state == .running && x.tiles < tileTotal r.desc.shape x.dims && ok r
    && (!r.desc.scaled || match k.ring? x.actKey r.desc.sring with
        | some q => ok q
        | none => false)

def nextTile (s : State) (c : Nat) (x : Stream) (r : Ring) : Except EngAccess State :=
  if x.out then scatterTile s c x r else gatherTile s c x r

def Core.modStream (k : Core) (key h : Nat) (f : Stream → Stream) : Core :=
  { k with streams := k.streams.map fun x => if x.actKey = key ∧ x.handle = h then f x else x }

/-- Whether a context's streams may move a tile: not once its pre-emption has reached step 3 (R312, R331). -/
def State.streamsRun (s : State) (n : BitVec 12) : Bool :=
  let x := s.ctx n
  !x.restoring && (x.st == .resident || (x.st == .leaving && decide (x.phase < 3)))

/-- A running stream moves one tile, or stops at a page fault (R276, R277). A STRMW's tile is popped once every write of it has been
accepted (R312). -/
def State.streamStep (s : State) (c n : Nat) : State :=
  match (s.core c).streams[n]? with
  | none => s
  | some x => match (s.core c).ring? x.actKey x.ring with
    | none => s
    | some r =>
      if !streamReady (s.core c) x r || !s.streamsRun x.ctx then s
      else if x.wrote then (if s.streamOut c x then s else s.popTile c x r)
      else match nextTile s c x r with
        | .ok s' =>
          if !x.out then s'.modCore c fun k => k.modStream x.actKey x.handle fun x => { x with tiles := x.tiles + 1 }
          else if s'.streamOut c (((s'.core c).streams[n]?).getD x) then s'.modCore c fun k => k.modStream x.actKey x.handle fun x => { x with wrote := true }
          else s'.popTile c x r
        | .error (.fault id s') => (s'.modCore c fun k => k.modStream x.actKey x.handle fun x => { x with state := .paused id }).engFault x.ctx x.act id
        | .error (.later s') => s'
        | .error _ => s

def execStreamTile (core : BitVec 8) (n : Nat) (s : State) : Answer := .next (s.streamStep core.toNat n)

/-- A stream whose last tile is done ends (R277). -/
def State.streamEndStep (s : State) (c n : Nat) : State :=
  match (s.core c).streams[n]? with
  | some x => if x.state == .running && s.streamsRun x.ctx && s.streamDone c x then s.endStream c x false false else s
  | none => s

def execStreamEnd (core : BitVec 8) (n : Nat) (s : State) : Answer := .next (s.streamEndStep core.toNat n)

/-- The trap record of a stream (R339): the engine word holds handle, ring and tile. -/
def streamTrap (x : Stream) (t : Trap) : TrapRec :=
  { cause := t.cause, reason := t.reason, act := x.act, tag := BitVec.ofNat 32 (x.handle + x.ring * 256),
    block := BitVec.ofNat 32 x.tiles, addr := t.addr, aux := t.aux }

/-- A stream stops with an error and its trap goes to the trap graph (R277). -/
def State.failStream (s : State) (c : Nat) (x : Stream) (t : Trap) : State :=
  (s.modCore c fun k => k.modStream x.actKey x.handle fun x => { x with state := .error }).sendTrap c x.ctx 0 false (streamTrap x t) 3

/-- A stream's next tile meets a fault other than a page fault (R277). -/
def State.streamErrorStep (s : State) (c n : Nat) : State :=
  match (s.core c).streams[n]? with
  | none => s
  | some x => match (s.core c).ring? x.actKey x.ring with
    | none => s
    | some r =>
      if streamReady (s.core c) x r && s.streamsRun x.ctx && !x.wrote then match nextTile s c x r with
        | .error (.err t denied) => (s.denyIf denied).failStream c x t
        | _ => s
      else s

def execStreamError (core : BitVec 8) (n : Nat) (s : State) : Answer := .next (s.streamErrorStep core.toNat n)

/-! ### Copies (R279 to R281) -/

/-- Bits of an element of a copy's format code. -/
def copyWidth (f : Nat) : Nat := if f = 15 then 8 else fmtWidth f

/-- Whether a pair of copy formats is permitted: equal, or an assigned FCVT pair (R127, R280). -/
def copyPairOk (a b : Nat) : Bool :=
  let wide (f : Nat) : Bool := f ≤ 1
  let fl (f : Nat) : Bool := f ≤ 6
  a == b || (fl a && fl b && (wide a || wide b))

/-- What a copy instruction asks for, from its constants, or the breach (R279). DESIGN CHOICE (assumption log 46): a reserved format code
is a broken descriptor, reason 0x47, rather than a pair that is not permitted. -/
def copyOf (s : State) (ks : List Word) (n : BitVec 12) (act : BitVec 16) (core : Nat) (tag : BitVec 32) (src dst : Word) (w : CopyWord) :
    Except Trap Copy :=
  let k (i : Nat) : Word := wordAt ks (w.desc.toNat + i)
  let c := k 0
  let sf := (bits c 0 4).toNat
  let df := (bits c 4 4).toNat
  let dims := (List.range 4).map fun i => dimOf (k (1 + i))
  let dstr := (List.range 4).map fun i => (bits (k (5 + i)) 0 40).toInt
  let ddims := (dims.zip dstr).map fun p => { p.1 with stride := p.2 : Dim }
  let res (f : Nat) : Bool := 10 < f && f != 15
  let remote := if c.getLsbD 11 then some (bits c 16 12).toNat else none
  if res sf || res df || bits c 12 4 ≠ 0 || bits c 28 36 ≠ 0 || (List.range 4).any (fun i => bits (k (5 + i)) 40 24 != 0)
      || dimsBroken (copyWidth sf) dims || dimsBroken (copyWidth df) ddims
      || (match remote with | some p => !s.eng.peers.contains p | none => false) then .error (protAt 0x47 0)
  else
    let a := boundsOf (copyWidth sf) src.toNat dims
    let b := boundsOf (copyWidth df) dst.toNat ddims
    if !copyPairOk sf df || (remote.isNone && a.1 < b.2 && b.1 < a.2) then .error (protAt 0x48 0)
    else .ok { seq := 0, core, ctx := n, act, tag, src, dst, sfmt := sf, dfmt := df, round := decRnd (bits c 8 2), sat := c.getLsbD 10,
               remote, dims, dstStr := dstr, w }

def State.copyEngine (s : State) (e : Nat) : CopyEngine := (nget s.eng.copies e).getD {}
def State.setCopyEngine (s : State) (e : Nat) (x : CopyEngine) : State := { s with eng := { s.eng with copies := nput s.eng.copies e x } }

/-- The engine a CPY takes: of the context's world, with the fewest queued copies, the lowest of those (R280, R422). -/
def State.chooseEngine (s : State) (n : BitVec 12) : Option Nat :=
  let es := (List.range 32).filter fun e => s.sec.engWorld.getLsbD e == (s.ctx n).desc.secure
  es.foldl (fun best e => match best with
    | none => some e
    | some b => if (s.copyEngine e).queue.length < (s.copyEngine b).queue.length then some e else some b) none

/-- CPY in a lane (R280). -/
def cpyBody (w : CopyWord) : Body := fun s ch _ _ x v =>
  if 2 ^ 57 ≤ v.a.toNat then some (.trapped (trapWindow v.a), s)
  else if 2 ^ 57 ≤ v.b.toNat then some (.trapped (trapWindow v.b), s)
  else if x.hid ≠ 0 then some (.trapped { cause := 0x0F }, s)
  else match copyOf s (s.consts ch) ch.ctx ch.act s.flow.focusCore x.tag v.a v.b w with
    | .error t => some (.trapped t, s)
    | .ok c => match s.chooseEngine ch.ctx with
      | none => some (.trapped (protAt 0x74 0), s)
      | some e =>
        let g := s.copyEngine e
        let s := s.setCopyEngine e { g with seq := g.seq + 1 }
        some ({ LaneRes.val (BitVec.ofNat 64 (e + 256 * g.seq.toNat)) with effs := [.cpy { c with seq := g.seq } e] }, s)

/-- A uniform CPY in a chord whose lanes run under different HIDs: one copy, from the lowest lane's operands (R205); each lane under a
hypothesis raises SPECULATIVE_ATOMIC after the checks of R157 (R266), and the others have the copy's outcome. -/
def State.copyMixed (s : State) (ch : Chord) (w : CopyWord) (f : Flds) (ls : List (Nat × Lane × Vals)) : State :=
  match ls with
  | [] => s.setFocus (ch.next 2)
  | (l, x, v) :: _ =>
    let ch := if ch.ucheck then ch.checkUniform ch.pc v ls else ch
    if selects f v then
      match cpyBody w s ch ch.pc l { x with hid := 0 } v with
      | none => s
      | some (res, s) =>
        let inside := decide (v.a.toNat < 2 ^ 57) && decide (v.b.toNat < 2 ^ 57)
        let one (h : BitVec 8) : LaneRes :=
          if inside && h != 0 then .trapped { cause := 0x0F } else { v0 := res.v0, v1 := res.v1, trap := res.trap }
        let out := ch.lanes.foldl (fun c p => c.put f ch.pc p.1 (one p.2.hid)) ch
        s.setFocus (Chord.next { out with effs := out.effs ++ res.effs.map fun e => (ch.pc, e) } 2)
    else s.setFocus ((ch.putAll f ch.pc (.val (passed .bin v))).next 2)

def execCpy (w : CopyWord) (f : Flds) (s : State) : Answer :=
  match s.focus with
  | none => .next s
  | some ch =>
    if f.u && ch.mixedHids && ch.mayIssue then
      match gather .bin f ch (s.consts ch) ch.pc ch.lanes with
      | none => .next s
      | some ls => .next (s.copyMixed ch w f ls)
    else .next (s.perform .bin f 2 false (cpyBody w))

/-- The status word of a copy handle (R281). -/
def State.copyStatus (s : State) (n : BitVec 12) (h : Word) : Word :=
  let g := s.copyEngine (bits h 0 8).toNat
  let seq : BitVec 32 := bits h 8 32
  let st (written state : Nat) : Word := BitVec.ofNat 64 (state + 256 * (written % 2 ^ 40))
  if bits h 40 24 ≠ 0 then 0
  else match g.running with
    | some c => if c.seq = seq ∧ c.ctx = n then st c.written 2 else
      match g.queue.find? fun c => c.seq == seq && c.ctx == n with
      | some _ => st 0 1
      | none => match g.hist.find? fun x => x.1 == seq && x.2.1 == n with
        | some x => st x.2.2.1 x.2.2.2
        | none => 0
    | none => match g.queue.find? fun c => c.seq == seq && c.ctx == n with
      | some _ => st 0 1
      | none => match g.hist.find? fun x => x.1 == seq && x.2.1 == n with
        | some x => st x.2.2.1 x.2.2.2
        | none => 0

def cpyqBody : Body := fun s ch _ _ _ v => some (.val (s.copyStatus ch.ctx v.a), s)

def execCpyq (f : Flds) (s : State) : Answer := .next (s.perform .un f 1 false cpyqBody)

def cpycBody : Body := fun s _ _ _ _ v => some (.eff (.cpyc v.a), s)

def execCpyc (f : Flds) (s : State) : Answer := .next (s.perform (.act1 .y) f 1 false cpycBody)

/-- The number that names a copy's range registration. -/
def copyOwner (e : Nat) (seq : BitVec 32) : Nat := e + 256 * seq.toNat

/-- Registers a copy's ranges (R280 step 2). -/
def State.lockCopy (s : State) (e : Nat) (c : Copy) : State :=
  let ddims := (c.dims.zip c.dstStr).map fun p => { p.1 with stride := p.2 : Dim }
  let a := boundsOf (copyWidth c.sfmt) c.src.toNat c.dims
  let b := boundsOf (copyWidth c.dfmt) c.dst.toNat ddims
  let lock (dest : Bool) (r : Int × Int) : Lock :=
    { ctx := c.ctx, lo := r.1.toNat, hi := r.2.toNat, dest, kind := 0, owner := copyOwner e c.seq }
  { s with homes := { s.homes with locks := s.homes.locks ++ [lock false a, lock true b] } }

/-- Releases them. -/
def State.unlockCopy (s : State) (e : Nat) (c : Copy) : State :=
  { s with homes := { s.homes with locks := s.homes.locks.filter fun l => !(l.kind == 0 && l.owner == copyOwner e c.seq) } }

/-- Queues a copy; none while the engine's queue is full (R280 step 3). -/
def State.queueCopy (s : State) (e : Nat) (c : Copy) : Option State :=
  let g := s.copyEngine e
  if Config.copyQueue ≤ g.queue.length then none else some (s.setCopyEngine e { g with queue := g.queue ++ [c] })

/-- Records an ended copy: the engine remembers the last 256 (R281). -/
def CopyEngine.remember (g : CopyEngine) (seq : BitVec 32) (n : BitVec 12) (written state : Nat) : CopyEngine :=
  { g with hist := ((seq, n, written, state) :: g.hist).take Config.copyHistory }

/-- A copy ends in a state of CPYQ: its ranges are released and its token is sent (R280). -/
def State.endCopy (s : State) (e : Nat) (c : Copy) (state : Nat) : State :=
  let g := s.copyEngine e
  let g := { g with queue := g.queue.filter fun x => x.seq != c.seq,
                    running := g.running.filter fun (x : Copy) => x.seq != c.seq }
  let s := s.setCopyEngine e (g.remember c.seq c.ctx c.written state)
  let s := (s.unlockCopy e c).forget fun r => r.kind == 4 && r.job % 2 ^ 64 == copyOwner e c.seq
  if c.w.cen then
    s.engToken c.ctx c.act c.w.cblock c.w.cport c.tag 2
      (BitVec.ofNat 64 (c.written % 2 ^ 40 + (if state = 4 then 2 ^ 63 else 0) + (if state = 5 then 2 ^ 62 else 0))) (some (s.engRs e))
  else s

/-- Whether a write of a copy is not yet accepted at its home, or acknowledged by the far end. -/
def State.copyOut (s : State) (e : Nat) (c : Copy) : Bool :=
  s.writesOut e c.seq.toNat || s.links.eth.any fun p => p.engine == some (copyOwner e c.seq)

/-- A running copy moves no further element and ends in a state, at once or when every write of it is accepted (R227, R280). -/
def State.finishCopy (s : State) (e : Nat) (c : Copy) (state : Nat) : State :=
  if s.copyOut e c then s.setCopyEngine e { s.copyEngine e with running := some { c with fin := some state } } else s.endCopy e c state

/-- CPYC at commit: a queued or running copy of the context ends as cancelled; any other handle is left alone (R281). -/
def State.cancelCopy (s : State) (n : BitVec 12) (h : Word) : State :=
  let e := (bits h 0 8).toNat
  let seq : BitVec 32 := bits h 8 32
  let g := s.copyEngine e
  let mine (c : Copy) : Bool := c.seq == seq && c.ctx == n && bits h 40 24 == 0
  match g.running with
  | some c => if mine c then (if c.fin.isSome then s else s.finishCopy e { c with cancel := true, stop := none } 4) else match g.queue.find? mine with
    | some c => s.endCopy e c 4
    | none => s
  | none => match g.queue.find? mine with
    | some c => s.endCopy e c 4
    | none => s

/-- An engine with no running copy takes the head of its queue. -/
def State.copyStartStep (s : State) (e : Nat) : State :=
  let g := s.copyEngine e
  match g.running, g.queue with
  | none, c :: r => s.setCopyEngine e { g with running := some c, queue := r }
  | _, _ => s

def execCopyStart (e : BitVec 5) (s : State) : Answer := .next (s.copyStartStep e.toNat)

/-- The index of element t of a copy in each dimension, i0 fastest. -/
def copyIndex (d : List Dim) (t : Nat) : Nat × Nat × Nat × Nat :=
  let n (i : Nat) : Nat := (dimAt d i).count
  (t % n 0, t / n 0 % n 1, t / (n 0 * n 1) % n 2, t / (n 0 * n 1 * n 2))

/-- The converted code of an element (R280). -/
def copyCode (c : Copy) (code : Nat) : Nat :=
  if c.sfmt = c.dfmt then code
  else match fmtOf c.sfmt, fmtOf c.dfmt with
    | some a, some b => roundXF (decodeFmt a code) b c.round c.sat
    | _, _ => code

/-- The Ethernet port a context's copies leave by: of a secure context a secure one, none while there is none (R422); else any, here the
lowest. -/
def State.ethPort (s : State) (n : BitVec 12) : Option Nat :=
  if (s.ctx n).desc.secure then (List.range 4).find? fun q => s.sec.ethWorld.getLsbD q else some 0

/-- Elements a copy moves at a time: the two of a byte where they are 4 bits wide, since both ends then start on a byte and have one
format (R273, R280). -/
def copyStride (c : Copy) : Nat := if copyWidth c.dfmt = 4 then 2 else 1

/-- Moves elements from one on; `fuel` bounds how many times. The outcome is the state, the elements written, and what stopped
the copy. Engines 16 to 31 translate on X-die 1, at C-die 4 (R395). -/
def moveElems (e : Nat) (c : Copy) : Nat → Nat → State → State × Nat × Option EngAccess
  | 0, t, s => (s, t, none)
  | fuel + 1, t, s =>
    let ddims := (c.dims.zip c.dstStr).map fun p => { p.1 with stride := p.2 : Dim }
    let i := copyIndex c.dims t
    let ws := copyWidth c.sfmt
    let wd := copyWidth c.dfmt
    let a := elemVa ws c.src.toNat c.dims i.2.2.2 i.2.2.1 i.2.1 i.1
    let b := elemVa wd c.dst.toNat ddims i.2.2.2 i.2.2.1 i.2.1 i.1
    let who : Who := { die := if e < 16 then 0 else 4, ctx := c.ctx, act := c.act, kind := 4, job := copyOwner e c.seq + 2 ^ 64 * t }
    match engAccess s who a.1 (max 1 (ws / 8)) .read with
    | .ok pl s =>
      let s := s.forgetJob who
      let bs := bytesOfNat (max 1 (wd / 8)) (copyCode c (natOfBytes (pl.map (engByte s))))
      match c.remote with
      | some p => match s.ethPort c.ctx with
        | none => (s, t, some .wait)
        | some port =>
          let (num, s) := s.newId
          let piece : Piece := { engine := some (copyOwner e c.seq), peer := p, num, port, addr := BitVec.ofNat 64 (b.1 % 2 ^ 64).toNat, bytes := bs }
          moveElems e c fuel (t + copyStride c)
            { s.bump with links := { s.links with ethOut := s.links.ethOut ++ [piece], eth := s.links.eth ++ [piece] } }
      | none => match engAccess s who b.1 (max 1 (wd / 8)) .write with
        | .ok pd s => moveElems e c fuel (t + copyStride c) (putPlaces c.ctx (some e) (pd.zip bs) s.bump c.seq.toNat)
        | .fault id s => (s, t, some (.fault id s))
        | x => (s, t, some x)
    | .fault id s => (s, t, some (.fault id s))
    | .later s => (s, t, some (.later s))
    | x => (s, t, some x)

/-- What a copy has sent by Ethernet and has not had acknowledged is sent again (R242). -/
def State.resendPieces (s : State) (e : Nat) (c : Copy) : State :=
  { s with links := { s.links with ethOut := s.links.ethOut ++ s.links.eth.filter fun p => p.engine == some (copyOwner e c.seq) } }

/-- The elements of a copy. -/
def copyTotal (c : Copy) : Nat := c.dims.foldl (fun n d => n * d.count) 1

/-- A running copy moves its elements and completes, stops at a page fault, or stops with an error (R280). It ends once
every write is acknowledged; until then what went out by Ethernet is sent again (R242). -/
def State.copyEndStep (s : State) (e : Nat) : State :=
  match (s.copyEngine e).running with
  | none => s
  | some c => match c.fin with
    | some state => (s.resendPieces e c).finishCopy e c state
    | none =>
      if c.stop.isSome then s
      else
        let r := moveElems e c ((copyTotal c - c.written) / copyStride c) c.written s
        let c' := { c with written := r.2.1 }
        match r.2.2 with
        | none => r.1.finishCopy e c' 3
        | some (.fault id _) => (r.1.setCopyEngine e { r.1.copyEngine e with running := some { c' with stop := some id } }).engFault c.ctx c.act id
        | some (.err _ denied) => (r.1.denyIf denied).finishCopy e c' 5
        | some _ => r.1.setCopyEngine e { r.1.copyEngine e with running := some c' }

def execCopyEnd (e : BitVec 5) (s : State) : Answer := .next (s.copyEndStep e.toNat)

end Sys2Proof.Machine
end

