-- ==== Sys2Proof/Machine/Matrix.lean ====
section
/-! DEFINITION. Matrix instructions at execution (R286 to R307) and the steps of the matrix engine (R313 to R321): staging,
firings with their checks and arithmetic (R89 to R91, R291 to R293), retirement, drains and mutes. -/

namespace Sys2Proof.Machine

/-! ### Memory checks of a chord (R286) -/

/-- The place of a trap's cause in the order of R157. -/
def causeRank (t : Trap) : Nat :=
  match t.cause.toNat with
  | 5 => 0 | 6 => 1 | 0x0F => 2 | 7 => 3 | 8 => 4 | _ => 5

/-- Checks several parts of one access: the first in R157's order of those that fail. -/
def checkAll (core : Nat) (w : Who) (k : AccKind) (l : List (Word × Nat)) (s : State) : Checked :=
  l.foldl (fun acc p => match acc with
    | .wait => .wait
    | .ok pl s => match s.check core w p.1 p.2 1 k true false with
      | .ok pl' s => .ok (pl ++ pl') s
      | r => r
    | .trap t s' => match s.check core w p.1 p.2 1 k true false with
      | .trap t' s'' => if causeRank t' < causeRank t then .trap t' s'' else .trap t s'
      | _ => .trap t s') (.ok [] s)

/-- A chord effect after its memory checks, with the places they found (R399). -/
def afterCheck (s : State) (ch : Chord) (w : Who) (k : AccKind) (l : List (Word × Nat)) (e : List Place → Eff) : Option (LaneRes × State) :=
  match checkAll s.flow.focusCore w k l s with
  | .wait => none
  | .trap t s => some (.trapped t, s)
  | .ok pl s => some (chordEff s ch (e pl) 0)

/-- The core as the chord's earlier effects will leave it. -/
def State.shadow (s : State) (ch : Chord) : Core := (s.afterChordEffs s.flow.focusCore ch (s.consts ch)).core s.flow.focusCore

def hasHid (ch : Chord) : Bool := ch.lanes.any fun p => p.2.hid != 0

/-! ### The instructions -/

def mxbindBody (slot : Nat) (w : CtlWord) (a b acc : Nat) : Body := fun s ch _ _ _ _ =>
  let ks := s.consts ch
  some (chordEff s ch (.mxbind slot a b acc w (wordAt ks w.opk.toNat) (wordAt ks (w.opk.toNat + 1))) 0)

def mxopShape : Shape := { u := .r, rdA := true, rdB := true, rdC := true, noP := true, stA := some 32, stB := some 32, stC := some 8 }

def execMxbind (slot : BitVec 2) (w : CtlWord) (f : Flds) (s : State) : Answer :=
  .next (s.perform mxopShape f 2 false (mxbindBody slot.toNat w (immNat f.a) (immNat f.b) (immNat f.c)))

def mxunbBody (slot : Nat) : Body := fun s ch _ _ _ _ => some (chordEff s ch (.mxunb slot) 0)

def execMxunb (slot : BitVec 2) (f : Flds) (s : State) : Answer := .next (s.perform (.none .r) f 1 false (mxunbBody slot.toNat))

def mxfireBody (w : CtlWord) (a b acc : Nat) : Body := fun s ch _ _ _ _ => some (chordEff s ch (.mxfire a b acc w) 0)

def execMxfire (w : CtlWord) (f : Flds) (s : State) : Answer :=
  .next (s.perform mxopShape f 2 false (mxfireBody w (immNat f.a) (immNat f.b) (immNat f.c)))

def mxzBody (acc : Nat) : Body := fun s ch _ _ _ _ => some (chordEff s ch (.mxz acc) 0)

def mxzShape : Shape := { u := .r, rdA := true, stA := some 8 }

def execMxz (f : Flds) (s : State) : Answer := .next (s.perform mxzShape f 1 false (mxzBody (immNat f.a)))

/-- MXLD (R299): alignment, 0x51 and 0x53, then R157 over the elements. DESIGN CHOICE (assumption log 48): SPECULATIVE_ATOMIC comes before
all of them, here and in the other matrix instructions that R266 names. -/
def mxldBody (acc : Nat) : Body := fun s ch i _ x v =>
  if hasHid ch then some (.trapped { cause := 0x0F }, s)
  else if v.b.toNat % 128 ≠ 0 then some (.trapped (trapAlign v.b), s)
  else
    let k := s.shadow ch
    match effBreach k ch.key (s.consts ch) (.mxld acc v.b) with
    | some t => some (.trapped t, s)
    | none => afterCheck s ch (laneWho s ch i x 0) .read [(v.b, 1024 * (k.mxe.acc acc).fmt.bytes)] (fun pl => .mxld acc v.b pl)

def mxldShape : Shape := { u := .r, rdA := true, rdB := true, stA := some 8 }

def execMxld (f : Flds) (s : State) : Answer := .next (s.perform mxldShape f 1 false (mxldBody (immNat f.a)))

/-- The accesses of an MXST: the rows of the tile, or the bias values. -/
def mxstRows (k : Core) (ks : List Word) (acc : Nat) (addr : Word) (w : EpiWord) : List (Word × Nat) :=
  let a := k.mxe.acc acc
  if w.dkind then []
  else (List.range a.vr).map fun i => (addr + BitVec.ofNat 64 i * wordAt ks (w.ek.toNat + 3), a.vc * (fmtWidth w.dfmt.toNat / 8))

/-- MXST (R302): the state's checks, then the tile's and the bias's. -/
def mxstBody (w : EpiWord) (acc : Nat) : Body := fun s ch i _ x v =>
  if hasHid ch then some (.trapped { cause := 0x0F }, s)
  else
    let k := s.shadow ch
    let ks := s.consts ch
    match effBreach k ch.key ks (.mxst acc v.b w) with
    | some t => some (.trapped t, s)
    | none =>
      if !w.dkind && v.b.toNat % max 1 (fmtWidth w.dfmt.toNat / 8) != 0 then some (.trapped (trapAlign v.b), s)
      else match checkAll s.flow.focusCore (laneWho s ch i x 1) .write (mxstRows k ks acc v.b w) s with
        | .wait => none
        | .trap t s => some (.trapped t, s)
        | .ok pl s =>
          let els := ((mxstRows k ks acc v.b w).map fun p => byteAddrs p.1 p.2).flatten.zip pl
          afterCheck s ch (laneWho s ch i x 1) .read (if w.bias then [(biasAddr ks w, 128)] else []) (fun bias => .mxst acc v.b w bias els)

def mxstShape (w : EpiWord) : Shape := { u := .r, rdA := true, rdB := !w.dkind, noP := true, stA := some 8 }

def execMxst (w : EpiWord) (f : Flds) (s : State) : Answer := .next (s.perform (mxstShape w) f 2 false (mxstBody w (immNat f.a)))

def mxmuteBody (slot : Nat) : Body := fun s ch _ _ _ _ => some (chordEff s ch (.mxmute slot) 0)

def execMxmute (slot : BitVec 2) (f : Flds) (s : State) : Answer := .next (s.perform (.none .r) f 1 false (mxmuteBody slot.toNat))

def mxStateCode : MxState → Nat
  | .running => 1 | .muted => 2 | .error => 3

/-- MXSTAT's word (R304). -/
def Binding.status (b : Binding) (a : Acc) : Word :=
  BitVec.ofNat 64 (mxStateCode b.state + (if b.muting then 4 else 0) + (if a.full then 8 else 0) + (if b.sat then 16 else 0)
    + (if a.live then 32 else 0) + b.acc * 64 + b.a * 2 ^ 9 + b.b * 2 ^ 14 + a.kt * 2 ^ 19 + b.otiles.toNat % 2 ^ 29 * 2 ^ 35)

def mxstatBody (slot : Nat) : Body := fun s ch _ _ _ _ =>
  let m := (s.core s.flow.focusCore).mxe
  match nget m.slots slot with
  | some b => some (.val (if b.actKey = ch.key then b.status (m.acc b.acc) else 0), s)
  | none => some (.val 0, s)

def mxstatShape : Shape := { u := .y, yields := true }

def execMxstat (slot : BitVec 2) (f : Flds) (s : State) : Answer := .next (s.perform mxstatShape f 1 false (mxstatBody slot.toNat))

/-- MXSAVE (R306): 0x50 and 0x56, alignment, then R157 over header and elements. -/
def mxsaveBody (slot : Nat) : Body := fun s ch i _ x v =>
  if hasHid ch then some (.trapped { cause := 0x0F }, s)
  else
    let k := s.shadow ch
    match effBreach k ch.key (s.consts ch) (.mxsave slot v.a) with
    | some t => some (.trapped t, s)
    | none =>
      if v.a.toNat % 128 ≠ 0 then some (.trapped (trapAlign v.a), s)
      else
        let fmt := match nget k.mxe.slots slot with
          | some b => (k.mxe.acc b.acc).fmt
          | none => .fp32
        afterCheck s ch (laneWho s ch i x 1) .write [(v.a, saveLen fmt)] (fun pl => .mxsave slot v.a pl)

def execMxsave (slot : BitVec 2) (f : Flds) (s : State) : Answer := .next (s.perform (.act1 .r) f 1 false (mxsaveBody slot.toNat))

/-- Bytes that an instruction reads at their homes, once they are there, for the rest of it (R238, R343). -/
def withBytes (s : State) (w : Who) (a : Word) (pl : List Place) (k : List Byte → State → Option (LaneRes × State)) : Option (LaneRes × State) :=
  match s.seek w pl with
  | .later s => some (awaitRead s w)
  | .fails t => some (.trapped { t with addr := a }, s.forgetJob w)
  | .got pl =>
    if pl.any (engPoison s) then some (.trapped (trapEcc a 0), s.forgetJob w)
    else k (pl.map (engByte s)) (s.enterPlaces pl).bump

/-- MXREST (R307): the save area is read at the homes, its header first, which says how long it is. -/
def mxrestBody (slot : Nat) : Body := fun s ch i _ x v =>
  if hasHid ch then some (.trapped { cause := 0x0F }, s)
  else if v.a.toNat % 128 ≠ 0 then some (.trapped (trapAlign v.a), s)
  else
    let c := s.flow.focusCore
    let who := laneWho s ch i x 0
    match s.check c who v.a 64 1 .read true false with
    | .wait => none
    | .trap t s => some (.trapped t, s)
    | .ok pl s => withBytes s who v.a pl fun hd s =>
      if saveBad hd then some (.trapped (protAt 0x57 slot), s.forgetJob who)
      else match s.check c who (v.a + 64) (saveLen (saveFmt hd) - 64) 1 .read true false with
        | .wait => none
        | .trap t s => some (.trapped t, s)
        | .ok pe s => withBytes s who v.a pe fun el s => some (chordEff (s.forgetJob who) ch (.mxrest slot v.a (hd ++ el)) 0)

def execMxrest (slot : BitVec 2) (f : Flds) (s : State) : Answer := .next (s.perform (.act1 .r) f 1 false (mxrestBody slot.toNat))

/-! ### Candidates (R313, R314, R316) -/

/-- An operation the engine may fire: a binding, or the step at the head of the queue. -/
structure MxOp where
  cand : Nat
  key : Nat
  a : Nat
  b : Nat
  acc : Nat
  w : CtlWord
  tag : BitVec 32
deriving DecidableEq, Repr, Inhabited

/-- Candidates 0 to 3 are the binding slots, 4 the head of the queue. -/
def Mxe.cand (m : Mxe) (i : Nat) : Option MxOp :=
  if i < 4 then (nget m.slots i).map fun b => { cand := i, key := b.actKey, a := b.a, b := b.b, acc := b.acc, w := b.w, tag := b.tag }
  else match m.queue with
    | [] => none
    | q :: _ => some { cand := 4, key := q.actKey, a := q.a, b := q.b, acc := q.acc, w := q.w, tag := q.tag }

def MxOp.rings (o : MxOp) (k : Core) : List Nat := k.mxIn o.key o.a o.b o.w

/-- Whether a candidate is not a binding that has stopped or is muting. -/
def Mxe.mayRun (m : Mxe) (i : Nat) : Bool :=
  match nget m.slots i with
  | some b => b.state == .running && !b.muting
  | none => i == 4

/-- Whether a firing or a drain of an accumulator is under way. -/
def Mxe.busy (m : Mxe) (acc : Nat) : Bool :=
  m.firing.any (fun f => match m.cand f.cand with | some o => o.acc == acc | none => false)
    || (match m.drain with
        | some (d, _) => match nget m.slots d with | some b => b.acc == acc | none => false
        | none => false)
    || m.drainStops.any fun d => match nget m.slots d.1 with | some b => b.acc == acc | none => false

/-- Whether a candidate has a firing under way. -/
def Mxe.fires (m : Mxe) (i : Nat) : Bool := m.firing.any fun f => f.cand == i

/-- The stage buffer of a candidate for a ring. -/
def Mxe.buf? (m : Mxe) (i n : Nat) : Option Staged := m.staged.find? fun b => b.cand == i && b.ring == n

/-- The condition of R313 on a binding's accumulator. -/
def Binding.wantsTile (b : Binding) (a : Acc) : Bool :=
  if kDrains b.k0 then a.kt < kCount b.k0 || !a.live else !a.full

/-- A candidate that is firable as far as its core shows (R313). -/
def Core.firable (k : Core) (i : Nat) : Bool :=
  let m := k.mxe
  match m.cand i with
  | none => false
  | some o =>
    m.mayRun i && !m.busy o.acc && !m.fires i
      && (match nget m.slots i with
          | some b => b.wantsTile (m.acc b.acc)
          | none => true)
      && (o.rings k).all fun n => (m.buf? i n).isSome && match k.ring? o.key n with
          | some r => 0 < r.filled
          | none => false

/-- A staging read that may complete: of the first filled slot neither staged nor being fired (R314). -/
def Core.stageable (k : Core) (i n : Nat) : Bool :=
  let m := k.mxe
  match m.cand i with
  | none => false
  | some o =>
    m.mayRun i && (o.rings k).contains n && (m.buf? i n).isNone && match k.ring? o.key n with
      | some r => (if m.fires i then 1 else 0) < r.filled
      | none => false

/-- The staging read of a ring's first filled slot that is neither staged nor being fired (R314). -/
def Core.stageRead (k : Core) (i n : Nat) : Staged :=
  match (k.mxe.cand i).bind fun o => k.ring? o.key n with
  | none => { cand := i, ring := n }
  | some r =>
    let slot := r.slotAt r.head (if k.mxe.fires i then 1 else 0)
    let a := r.slotAddr slot
    { cand := i, ring := n, info := r.slotMeta slot, bytes := mgets k.sram a r.desc.slotBytes, bad := k.badIn a r.desc.slotBytes }

def execStageComplete (core : BitVec 8) (cand : BitVec 3) (ring : BitVec 5) (s : State) : Answer :=
  .next (if (s.core core.toNat).stageable cand.toNat ring.toNat then
      s.modCore core.toNat fun k => { k with mxe := { k.mxe with staged := k.mxe.staged ++ [k.stageRead cand.toNat ring.toNat] } }
    else s)

/-! ### Tokens and errors (R295, R308) -/

/-- The activation of a key. -/
def keyCtx (key : Nat) : BitVec 12 := BitVec.ofNat 12 (key / 65536)
def keyAct (key : Nat) : BitVec 16 := BitVec.ofNat 16 key

/-- A completion token of the matrix engine (R295). -/
def State.mxToken (s : State) (key : Nat) (w : CtlWord) (tag : BitVec 32) (count : BitVec 32) (sat error muted : Bool) : State :=
  if w.cen then
    s.engToken (keyCtx key) (keyAct key) (w.cblock.setWidth 32) w.cport tag 4
      (BitVec.ofNat 64 (count.toNat + (if sat then 2 ^ 61 else 0) + (if error then 2 ^ 62 else 0) + (if muted then 2 ^ 63 else 0))) none
  else s

/-- Removes the step at the head of the queue: its rings return to the program and its accumulator is free (R297). DESIGN CHOICE (assumption
log 48): a step leaves the queue when its firing retires or fails, so that it takes one of the 8 places while it runs, and the firings of
two steps never overlap (R283, R316). -/
def Core.dropStep (k : Core) : Core :=
  match k.mxe.queue with
  | [] => k
  | q :: r =>
    let k := k.setCons q.actKey (k.mxIn q.actKey q.a q.b q.w) .program
    let x := k.mxe.acc q.acc
    let m := k.mxe.setAcc q.acc { x with pend := false }
    { k with mxe := { m with queue := r, staged := m.staged.filter fun p => p.cand != 4 } }

/-- A fault of the engine (R308): the binding stops with an error, or the step ends; the trap and the completion token
are sent. -/
def State.failFiring (s : State) (c : Nat) (o : MxOp) (t : Trap) (seq : BitVec 32) : State :=
  let word := BitVec.ofNat 32 ((if o.cand < 4 then o.cand else 0xFF) + o.acc * 256 + o.a * 65536)
  let rec_ : TrapRec := { cause := t.cause, reason := t.reason, act := keyAct o.key, tag := word, block := seq, addr := t.addr, aux := t.aux }
  let b := nget (s.core c).mxe.slots o.cand
  let s := s.modCore c fun k =>
    if o.cand < 4 then
      { k with mxe := { k.mxe with
          slots := match nget k.mxe.slots o.cand with
            | some b => nput k.mxe.slots o.cand { b with state := .error }
            | none => k.mxe.slots
          staged := k.mxe.staged.filter fun p => p.cand != o.cand
          drainNext := k.mxe.drainNext.filter fun j => j != o.cand } }
    else k.dropStep
  let s := s.sendTrap c (keyCtx o.key) 0 false rec_ 4
  match b with
  | some b => s.mxToken o.key o.w o.tag b.otiles b.sat true false
  | none => s.mxToken o.key o.w o.tag 0 false true false

/-! ### The checks before retirement (R292, R319) -/

/-- The buffer of a ring among those staged for a firing. -/
def bufOf (l : List Staged) (n : Nat) : Staged := (l.find? fun b => b.ring == n).getD { cand := 0, ring := n }

/-- The code of an element in a stage buffer. -/
def Staged.code (b : Staged) (w e : Nat) : Nat :=
  if w = 4 then bytesAt b.bytes (e / 2) 1 / 16 ^ (e % 2) % 16 else bytesAt b.bytes (e * (w / 8)) (w / 8)

/-- A metadata row as one number (R291). -/
def metaRow (bytes : List Byte) (row : Nat) : Nat := bytesAt bytes (32 * row) 32

/-- Position n of group g of a row. -/
def metaPos (m rec_ g n : Nat) : Nat :=
  let b := Nat.log2 m
  rec_ / 2 ^ (8 + (g * (rec_ % 256) + n) * b) % m

/-- The reason and group for which a row breaks R292, given the N of the reference row, or none. -/
def metaRowBad (m nmax n0 rec_ : Nat) : Option (Nat × Nat) :=
  let n := rec_ % 256
  let groups := List.range (32 / m)
  let dup (g : Nat) : Bool := !decide (((List.range n).map (metaPos m rec_ g)).Nodup)
  let desc (g : Nat) : Bool := (List.range (n - 1)).any fun i => metaPos m rec_ g (i + 1) < metaPos m rec_ g i
  match groups.find? dup with
  | some g => some (0, g)
  | none => match groups.find? desc with
    | some g => some (1, g)
    | none =>
      if nmax < n then some (2, 0)
      else if n = 0 ∨ rec_ / 2 ^ (8 + 32 / m * n * Nat.log2 m) ≠ 0 ∨ n ≠ n0 then some (3, 0)
      else none

/-- The lowest offending row with its reason and group. -/
def metaBad (bytes : List Byte) (m nmax rows : Nat) : Option (Nat × Nat × Nat) :=
  let n0 := metaRow bytes 0 % 256
  (List.range rows).findSome? fun i => (metaRowBad m nmax n0 (metaRow bytes i)).map fun p => (i, p.1, p.2)

/-- The head slot of a ring: its number and its sequence number and bounds. -/
def Ring.headSlot (r : Ring) : Nat × SlotMeta := (r.slotAt r.head 0, r.slotMeta (r.slotAt r.head 0))

/-- Rows of A as read (R293). -/
def rowsOfA (w : CtlWord) (m : SlotMeta) : Nat := if w.ta then m.vcols else m.vrows

/-- The first check of R319 on a candidate's stage buffers that fails, with the sequence number its record names. -/
def firingBad (k : Core) (o : MxOp) : Option (Trap × BitVec 32) :=
  let get (n : Nat) : Ring := (k.ring? o.key n).getD { actKey := o.key, num := n, desc := {}, first := 0, banks := 0 }
  let bufs := k.mxe.staged.filter fun b => b.cand == o.cand
  let ra := get o.a
  let rb := get o.b
  let ma := (bufOf bufs o.a).info
  let mb := (bufOf bufs o.b).info
  let scaleSeq (r : Ring) : BitVec 32 := (bufOf bufs r.desc.sring).info.seq
  let bad (reason : BitVec 8) (seq sseq : BitVec 32) : Option (Trap × BitVec 32) :=
    some ({ cause := 0x0A, reason, aux := sseq.extractLsb' 0 31 ++ seq }, seq)
  if bufs.any Staged.bad then some (trapEcc 0 2, ma.seq)
  else if ra.desc.scaled && scaleSeq ra != ma.seq then bad 0 ma.seq (scaleSeq ra)
  else if rb.desc.scaled && scaleSeq rb != mb.seq then bad 1 mb.seq (scaleSeq rb)
  else if ctlSparse o.w then
    let bm := bufOf bufs o.w.mring.toNat
    if bm.info.seq ≠ ma.seq then some ({ cause := 0x0B, reason := 4 }, ma.seq)
    else match metaBad bm.bytes (ctlM o.w) (o.w.nm1.toNat + 1) (rowsOfA o.w ma) with
      | some (row, reason, g) =>
        some ({ cause := 0x0B, reason := BitVec.ofNat 8 reason, aux := BitVec.ofNat 63 (row + 256 * g) }, ma.seq)
      | none => none
  else none

/-- Whether a context is resident in the sense of R313: a pre-emption leaves it so until its bindings are muted. -/
def State.mxHere (s : State) (n : BitVec 12) : Bool :=
  let x := s.ctx n
  (x.st == .resident || x.st == .leaving) && !x.restoring

/-- A firable candidate of a core (R313). -/
def State.mxFirable (s : State) (c i : Nat) : Bool :=
  (s.core c).firable i && match (s.core c).mxe.cand i with
    | some o => s.mxHere (keyCtx o.key)
    | none => false

/-- The engine chooses the first firable candidate after the one last chosen and starts it, or ends it by a check that
fails (R316, R319). -/
def State.firingStart (s : State) (c : Nat) : State :=
  let k := s.core c
  match ((List.range 5).map fun d => (k.mxe.last + 1 + d) % 5).find? (s.mxFirable c) with
  | none => s
  | some i => match k.mxe.cand i with
    | none => s
    | some o =>
      let s := s.modCore c fun k => { k with mxe := { k.mxe with last := i } }
      match firingBad k o with
      | some (t, seq) => s.failFiring c o t seq
      | none => s.modCore c fun k =>
        { k with mxe := { k.mxe with
            firing := k.mxe.firing ++ [{ cand := i, bufs := k.mxe.staged.filter fun p => p.cand == i }]
            staged := k.mxe.staged.filter fun p => p.cand != i } }

def execFiringStart (core : BitVec 8) (s : State) : Answer := .next (s.firingStart core.toNat)

/-! ### One firing (R89 to R91, R293) -/

/-- The widened elements of a ring's slot as staged, by stored row and column; none outside the bounds. -/
def headTile (l : List Staged) (r : Ring) : Array (Option FVal) :=
  let b := bufOf l r.num
  let w := shapeW r.desc.shape
  let scale (e : Nat) : Option Nat := if r.desc.scaled then some ((bufOf l r.desc.sring).code 8 (e / 16)) else none
  ((List.range (32 * w)).map fun e =>
    if e / w < b.info.vrows ∧ e % w < b.info.vcols then some (widenScaled r.desc.fmt (b.code r.desc.width e) (scale e)) else none).toArray

/-- The positions k that take part for each row under sparsity. -/
def metaTakes (l : List Staged) (o : MxOp) (row : Nat) : List Nat :=
  let m := ctlM o.w
  let rec_ := metaRow (bufOf l o.w.mring.toNat).bytes row
  ((List.range (32 / m)).map fun g => (List.range (rec_ % 256)).map fun n => g * m + metaPos m rec_ g n).flatten

/-- G of a class (R89). -/
def groupLen : Nat → Nat
  | 0 => 8 | 1 => 16 | _ => 32

/-- One group added to an element: R90, or R91 with whether it clamped. -/
def groupAdd (fmt : AccFmt) (mode : Rnd) (acc : Nat) (p : List FVal) : Nat × Bool :=
  match fmt with
  | .fp64 => (matrixGroupAdd .fp64 mode acc p, false)
  | .fp32 => (matrixGroupAdd .fp32 mode acc p, false)
  | .int32 =>
    let x := signed 32 acc + sumUnits 0 p
    (wrapN (satS x 32) 32, satS x 32 != x)

/-- MatrixStep (R293) on what was staged for a firing: the accumulator after it, and whether an element clamped. -/
def matrixStep (k : Core) (o : MxOp) (l : List Staged) : Acc × Bool :=
  let a := k.mxe.acc o.acc
  let get (n : Nat) : Ring := (k.ring? o.key n).getD { actKey := o.key, num := n, desc := {}, first := 0, banks := 0 }
  let ra := get o.a
  let rb := get o.b
  let ta := headTile l ra
  let tb := headTile l rb
  let wb := shapeW rb.desc.shape
  let aAt (i x : Nat) : Option FVal := ((if o.w.ta then ta[32 * x + i]? else ta[32 * i + x]?)).getD none
  let bAt (x j : Nat) : Option FVal :=
    if o.w.tb then (tb[32 * j + x]?).getD none else if j < wb then (tb[wb * x + j]?).getD none else none
  let g := groupLen o.w.cls.toNat
  let takes := ((List.range 32).map fun i => if ctlSparse o.w then metaTakes l o i else List.range 32).toArray
  let one (i j : Nat) (acc : Nat) : Nat × Bool :=
    (List.range (32 / g)).foldl (fun (p : Nat × Bool) n =>
      let ks := (List.range g).map fun x => n * g + x
      let ps := (ks.filter fun x => ((takes[i]?).getD []).contains x).filterMap fun x => match aAt i x, bAt x j with
        | some u, some v => some (FVal.mul u v)
        | _, _ => none
      let r := groupAdd a.fmt o.w.rnd p.1 ps
      (r.1, p.2 || r.2)) (acc, false)
  let out := (List.range 1024).map fun e => one (e / 32) (e % 32) (a.elem e)
  let mb := (bufOf l o.b).info
  ({ a with elems := out.map (·.1), vr := rowsOfA o.w (bufOf l o.a).info, vc := if o.w.tb then mb.vrows else mb.vcols,
            kt := min (a.kt + 1) 65535, live := true }, out.any (·.2))

/-- The firing that started first retires: accumulator and rings change together (R317). -/
def State.firingRetire (s : State) (c : Nat) : State :=
  let k := s.core c
  match k.mxe.firing with
  | [] => s
  | f :: r => match k.mxe.cand f.cand with
    | none => s.modCore c fun k => { k with mxe := { k.mxe with firing := r } }
    | some o =>
      let i := f.cand
      let (a, clamp) := matrixStep k o f.bufs
      let done := match nget k.mxe.slots i with
        | some b => kCount b.k0 ≤ a.kt
        | none => false
      let hold := match nget k.mxe.slots i with
        | some b => !kDrains b.k0
        | none => false
      let s := s.modCore c fun k =>
        let m := k.mxe.setAcc o.acc { a with full := a.full || (done && hold) }
        { k with mxe := { m with
            firing := r
            slots := match nget m.slots i with
              | some b => nput m.slots i { b with sat := b.sat || clamp, otiles := if done then b.otiles + 1 else b.otiles }
              | none => m.slots } }
      let s := if i < 4 then s else s.modCore c fun k => k.dropStep
      let s := (o.rings k).foldl (fun s n => s.popRing c o.key n 1) s
      match nget (s.core c).mxe.slots i with
      | some b => if done then s.mxToken o.key o.w o.tag b.otiles b.sat false false else s
      | none => s.mxToken o.key o.w o.tag 1 clamp false false

def execFiringRetire (core : BitVec 8) (s : State) : Answer := .next (s.firingRetire core.toNat)

/-! ### Drains (R294, R301, R318) -/

/-- A binding with a completed tile to drain, and room for it. -/
def Core.drainable (k : Core) (i : Nat) : Bool :=
  let m := k.mxe
  match nget m.slots i with
  | none => false
  | some b =>
    let a := m.acc b.acc
    m.mayRun i && kDrains b.k0 && a.live && kCount b.k0 ≤ a.kt && !m.busy b.acc
      && (k.mxOut b.actKey b.drainRing).all fun n => match k.ring? b.actKey n with
          | some r => 0 < r.free
          | none => false

/-- A drain begins (R318): its bias values are read, or it waits on their page fault, or it ends in an error. DESIGN CHOICE (assumption
log 14): one that waits on a page fault does not hold the drain path, so that drains of other bindings go on meanwhile. DESIGN CHOICE
(assumption log 48): no A slot is staged for a drain, and the trap record of one that fails gives the SEQ kept for the slot at the A
ring's HEAD, filled or not; and a drain that fails is not the one last chosen in the rotation, while one that waits on a page fault is. -/
def State.drainStart (s : State) (c : Nat) : State :=
  let k := s.core c
  if k.mxe.drain.isSome then s
  else match ((List.range 4).map fun d => (k.mxe.lastDrain + 1 + d) % 4).find? k.drainable with
    | none => s
    | some i => match nget k.mxe.slots i with
      | none => s
      | some b =>
        let begin_ (s : State) (bias : List Byte) : State :=
          s.modCore c fun k => { k with mxe := { k.mxe with drain := some (i, bias), lastDrain := i,
                                                            drainNext := k.mxe.drainNext.filter fun j => j != i } }
        let w := decEpi b.k1
        if w.bias then
          let ks := match s.act? b.actKey with
            | some a => a.consts
            | none => []
          let addr := biasAddr ks w
          let who : Who := { die := dieOf c, ctx := keyCtx b.actKey, act := keyAct b.actKey, kind := 8, job := c + 2 ^ 8 * i + 2 ^ 10 * b.otiles.toNat }
          match engAccess s who addr.toNat 128 .read with
          | .ok pl s => begin_ (s.forgetJob who).bump (pl.map (engByte s))
          | .later s => s
          | .fault id s =>
            (s.modCore c fun k => { k with mxe := { k.mxe with drainStops := k.mxe.drainStops ++ [(i, id)], lastDrain := i,
                                                               drainNext := k.mxe.drainNext.filter fun j => j != i } }).engFault who.ctx who.act id
          | .err t denied => match k.mxe.cand i with
            | some o => ((s.denyIf denied).forgetJob who).failFiring c o { t with addr } (((k.ring? o.key o.a).map fun r => r.headSlot.2.seq).getD 0)
            | none => s
          | .wait => s
        else begin_ s []

def execDrainStart (core : BitVec 8) (s : State) : Answer := .next (s.drainStart core.toNat)

/-- A drain ends: the tile stands in the drain ring and the accumulator is cleared, in one step. -/
def State.drainEnd (s : State) (c : Nat) : State :=
  match (s.core c).mxe.drain with
  | none => s
  | some (i, bias) =>
    let s := s.modCore c fun k => { k with mxe := { k.mxe with drain := none } }
    match nget (s.core c).mxe.slots i with
    | none => s
    | some b =>
      let ks := match s.act? b.actKey with
        | some a => a.consts
        | none => []
      let a := (s.core c).mxe.acc b.acc
      let s := s.modCore c fun k => { k with mxe := k.mxe.setAcc b.acc a.clear }
      s.epiPush c b.actKey ks (decEpi b.k1) a bias

def execDrainEnd (core : BitVec 8) (s : State) : Answer := .next (s.drainEnd core.toNat)

/-! ### Mutes (R303, R311, R321) -/

/-- Whether a mute has passed: no firing and no drain of the binding is under way. -/
def Mxe.mutePassed (m : Mxe) (i : Nat) : Bool :=
  match nget m.slots i with
  | some b => b.muting && !m.fires i && (m.drain.map fun (d : Nat × List Byte) => d.1) != some i
  | none => false

/-- A mute passes: the binding becomes muted, or stays stopped with an error. A mute of the scheduler sends no token. -/
def State.mutePass (s : State) (c i : Nat) : State :=
  let m := (s.core c).mxe
  if m.mutePassed i then match nget m.slots i with
    | none => s
    | some b =>
      let st : MxState := if b.state == .running then .muted else b.state
      let s := s.modCore c fun k => { k with mxe := { k.mxe with slots := nput k.mxe.slots i { b with state := st, muting := false } } }
      if b.sched.isNone && st == .muted then s.mxToken b.actKey b.w b.tag b.otiles b.sat false true else s
  else s

def execMutePassed (core : BitVec 8) (slot : BitVec 2) (s : State) : Answer := .next (s.mutePass core.toNat slot.toNat)

end Sys2Proof.Machine
end

