-- ==== Sys2Proof/Machine/Sympathy.lean ====
section
/-! DEFINITION. Sympathy and selection (R344 to R352, R357 to R375): the instructions at execution, and the steps of the
sympathy comparators and of page selection. -/

namespace Sys2Proof.Machine

/-! ### Keys and handles (R345, R347) -/

/-- A threshold rounded to BF16 (R345), or none where it is NaN or below zero. -/
def threshold (code : Nat) : Option Nat :=
  match decodeFmt .fp32 code with
  | .nan => none
  | .inf n => if n then none else some (roundXF (.inf false) .bf16 .rz)
  | .fin n m e => if n && m != 0 then none else some (roundXF (.fin false m e) .bf16 .rz)

/-- SYMK (R345). -/
def symkBody : Body := fun s _ _ _ _ v =>
  match threshold (v.b.toNat % 2 ^ 32), threshold (v.b.toNat / 2 ^ 32) with
  | some ta, some tr => some (.val (BitVec.ofNat 64 (v.a.toNat % 2 ^ 32 + ta * 2 ^ 32 + tr % 2 ^ 15 * 2 ^ 48)), s)
  | _, _ => some (.trapped (protAt 0x60 0), s)

def execSymk (f : Flds) (s : State) : Answer := .next (s.perform .bin f 1 true symkBody)

/-- The enabled class of a context (R365). -/
def State.symClass (s : State) (n : BitVec 12) (c : Nat) : Option SymClass :=
  if (s.ctx n).desc.symtab = 0 then none else (s.ctx n).syms.find? fun x => x.cls == c

/-- The key class of a handle. -/
def keyClass (h : Word) : Nat := (bits h 28 4).toNat

/-- The handle and class checks of SYMC and SYMP (0x60, 0x64). -/
def keyBad (s : State) (n : BitVec 12) (h : Word) : Option Trap :=
  if h.getLsbD 63 then some (protAt 0x60 0)
  else if (s.symClass n (keyClass h)).isNone then some (protAt 0x64 0) else none

/-! ### Tile operands (R346) -/

/-- The byte address of element (i, j) of a memory window. -/
def windowVa (base : Word) (d0 d1 : Dim) (i j : Nat) : Int := (base.toNat : Int) + i * d1.stride + j * d0.stride

/-- The parts of a tile operand in memory: address and bytes of each element. -/
def TileLoc.parts : TileLoc → List (Int × Nat)
  | .ring .. => []
  | .window base d0 d1 fmt _ =>
    ((List.range d1.count).map fun i => (List.range d0.count).map fun j => (windowVa base d0 d1 i j, fmtWidth fmt / 8)).flatten

/-- A tile operand, or its breach: the ring's checks, or the descriptor's and the window's (R157 order 1). -/
def tileLoc (s : State) (ch : Chord) (src : Bool) (sel : BitVec 8) (v : Word) (dest : Bool) : Except Trap TileLoc :=
  if !src then
    match (s.core s.flow.focusCore).planRing ch.key sel.toNat with
    | .error t => .error t
    | .ok r =>
      if dest && r.prod != .program then .error (protAt 0x43 r.num)
      else if bits v 6 58 ≠ 0 ∨ (if dest then r.free else r.filled) ≤ v.toNat then .error (protAt 0x44 r.num)
      else
        let at_ (q : Ring) : Nat := if dest then q.slotAt q.tail v.toNat else q.slotAt q.head v.toNat
        let saddr := match (s.core s.flow.focusCore).ring? ch.key r.desc.sring with
          | some q => if r.desc.scaled then q.slotAddr (at_ q) else 0
          | none => 0
        let m := r.slotMeta (at_ r)
        .ok (.ring r.desc (r.slotAddr (at_ r)) saddr m.vrows m.vcols)
  else
    let ks := s.consts ch
    let d0 := dimOf (wordAt ks sel.toNat)
    let d1 := dimOf (wordAt ks (sel.toNat + 1))
    let w2 := wordAt ks (sel.toNat + 2)
    let fmt := (bits w2 0 4).toNat
    let shape := w2.getLsbD 4
    let wb : Int := (max 1 (fmtWidth fmt / 8) : Nat)
    if 253 < sel.toNat ∨ fmt = 7 ∨ fmt = 9 ∨ 10 < fmt ∨ bits w2 5 59 ≠ 0 ∨ d0.count = 0 ∨ shapeW shape < d0.count
        ∨ d1.count = 0 ∨ 32 < d1.count ∨ d0.stride % wb ≠ 0 ∨ d1.stride % wb ≠ 0 then .error (protAt 0x61 0)
    else
      let t : TileLoc := .window v d0 d1 fmt shape
      match (if 2 ^ 57 ≤ v.toNat then some (v.toNat : Int) else none).or
          ((t.parts.find? fun (p : Int × Nat) => p.1 < 0 ∨ (2 : Int) ^ 57 < p.1 + p.2).map (·.1)) with
      | some a => .error (trapWindow (BitVec.ofInt 64 a))
      | none => .ok t

/-- R157 orders 4 and 5 for the windows of tile operands; `k` is a read or, for a destination, a write. -/
def tilesOk (s : State) (ch : Chord) (i : Nat) (x : Lane) (k : AccKind) (l : List TileLoc) : Checked :=
  let kind : BitVec 8 := if k.writes then 1 else 0
  checkAll s.flow.focusCore (laneWho s ch i x kind) k
    ((l.map TileLoc.parts).flatten.map fun p => (BitVec.ofInt 64 p.1, p.2)) s

/-- A request to the comparator once its operands are named: the HID, the translation of its windows, the effect. -/
def symEffect (s : State) (ch : Chord) (i : Nat) (x : Lane) (k : AccKind) (l : List TileLoc) (e : Eff) : Option (LaneRes × State) :=
  if x.hid ≠ 0 then some (.trapped { cause := 0x0F }, s)
  else match tilesOk s ch i x k l with
    | .wait => none
    | .trap t s => some (.trapped t, s)
    | .ok _ s => some (.eff e, s)

/-! ### The instructions (R347 to R352) -/

def symcBody (w : CompareWord) : Body := fun s ch i _ x v =>
  match keyBad s ch.ctx v.a with
  | some t => some (.trapped t, s)
  | none => match tileLoc s ch w.src w.sel v.b false with
    | .error t => some (.trapped t, s)
    | .ok l => symEffect s ch i x .read [l] (.sym (.symc w l) v.a 0)

def execSymc (w : CompareWord) (f : Flds) (s : State) : Answer := .next (s.perform (.act2 .y) f 2 true (symcBody w))

def sympBody (w : StoreWord) : Body := fun s ch i _ x v =>
  match keyBad s ch.ctx v.a with
  | some t => some (.trapped t, s)
  | none => match tileLoc s ch w.isrc w.isel v.b false with
    | .error t => some (.trapped t, s)
    | .ok a => match tileLoc s ch w.osrc w.osel v.c false with
      | .error t => some (.trapped t, s)
      | .ok b => symEffect s ch i x .read [a, b] (.sym (.symp w a b) v.a 0)

def sympShape : Shape := { u := .y, rdA := true, rdB := true, rdC := true, noP := true }

def execSymp (w : StoreWord) (f : Flds) (s : State) : Answer := .next (s.perform sympShape f 2 true (sympBody w))

def symrBody (w : ReplayWord) : Body := fun s ch i _ x v =>
  if !v.a.getLsbD 63 then some (.trapped (protAt 0x60 0), s)
  else match tileLoc s ch w.dsrc w.dsel v.b true with
    | .error t => some (.trapped t, s)
    | .ok l => symEffect s ch i x .write [l] (.sym (.symr w l) v.a (if w.fen then wordAt (s.consts ch) w.flopk.toNat else 0))

def execSymr (w : ReplayWord) (f : Flds) (s : State) : Answer := .next (s.perform (.act2 .y) f 2 true (symrBody w))

def symsBody : Body := fun s ch _ _ _ _ =>
  if hasHid ch then some (.trapped { cause := 0x0F }, s) else some (.eff .syms, s)

def execSyms (f : Flds) (s : State) : Answer := .next (s.perform (.none .r) f 1 false symsBody)

/-- The address of a counter (R363). -/
def counterVa (tab : Nat) (c : Counter) (cls : Nat) : Nat :=
  match c with
  | .hits => tab + 0x240 + 40 * cls | .misses => tab + 0x248 + 40 * cls | .absences => tab + 0x250 + 40 * cls
  | .bytes => tab + 0x258 + 40 * cls | .flops => tab + 0x260 + 40 * cls | .pathlanes => tab + 0x4C0

/-- SYMQ (R352): the counter's word at its home. It never traps: without a table, or with one that is not resident or whose word cannot
be read, its value is open (assumption log 31). -/
def symqBody (w : CounterWord) : Body := fun s ch i _ x _ =>
  let tab := (s.ctx ch.ctx).desc.symtab.toNat
  let va := counterVa tab w.counter w.cls.toNat
  let who := laneWho s ch i x 0
  let pl := (List.range 8).filterMap fun k => s.placeBy who (va + k)
  let open_ (s : State) : Option (LaneRes × State) := some (.val (Config.freeWord s.flow.freeCtr), s.bump)
  if tab = 0 then open_ s
  else if pl.length < 8 then open_ (s.denyIf (s.breachAt who va 8))
  else
    let s := s.fillXlt who va
    match s.seek who pl with
    | .later s => some (awaitRead s who)
    | .fails _ => open_ (s.forgetJob who)
    | .got gl =>
      if gl.any (engPoison s) then open_ s
      else some (.val (wordOfBytes (gl.map (engByte s))), ((s.forgetJob who).enterPlaces gl).bump)

def symqShape : Shape := { u := .y, yields := true }

def execSymq (w : CounterWord) (f : Flds) (s : State) : Answer := .next (s.perform symqShape f 2 true (symqBody w))

/-- Whether the update unit may add to some counters at this instant, for an agent that translates their addresses: nothing is in flight,
or held back, on their lines (R259, R374). -/
def State.countsOpen (s : State) (w : Who) (c : Counter) (cls len : Nat) : Bool :=
  let tab := (s.ctx w.ctx).desc.symtab.toNat
  tab == 0 || (List.range len).all fun i => match s.placeBy w (counterVa tab c cls + i) with
    | some (.home pa _ _) => !s.opInFlight (lineOf pa) && (s.slice (homeSlice (lineOf pa))).heldWr.all fun h => h.line != lineOf pa
    | _ => true

/-- An addition to a counter in another package's memory: an update at its home (R374). -/
def State.addAway (s : State) (w : Who) (pkg : BitVec 12) (pa : Nat) (key : BitVec 8) (sec : Bool) (x : Word) : State :=
  let (id, s) := s.newId
  let q : RemoteReq := { (default : RemoteReq) with
    what := 3, srcPkg := s.pkg, srcCore := BitVec.ofNat 8 (w.core.getD 0xFF), ctx := w.ctx, id, pa, len := 8, key, sec, data := x.setWidth 1024,
    size := .w64, op := .add }
  s.sendAccess pkg (w.core.getD 0xFF) q (.engine 1000 0)

/-- Adds to a counter at its home, wrapping at 2^64: one operation of the update unit, which begins and ends at an instant at which it may
(R374). Its address is translated by the agent that adds: the comparator, or a core (R395). -/
def State.symCount (s : State) (w : Who) (c : Counter) (cls : Nat) (x : Word) : State :=
  let tab := (s.ctx w.ctx).desc.symtab.toNat
  if tab = 0 ∨ x = 0 then s
  else
    let va := counterVa tab c cls
    let s := (s.denyIf (s.breachAt w va 8)).fillXlt w va
    let pl := (List.range 8).filterMap fun i => s.placeBy w (va + i)
    match pl with
    | .remote pkg pa key sec :: _ => s.addAway w pkg pa key sec x
    | _ => putPlaces w.ctx none (pl.zip (bytesOfWord (wordOfBytes (pl.map (engByte s)) + x))) s

/-! ### TOPK (R359) -/

/-- Whether a candidate ranks before another: score descending with NaN last, then index, then lane. -/
def topBefore (a b : Nat × Vals) : Bool :=
  let va := decodeFmt .fp32 (a.2.a.toNat % 2 ^ 32)
  let vb := decodeFmt .fp32 (b.2.a.toNat % 2 ^ 32)
  let ia := a.2.b.toNat % 2 ^ 32
  let ib := b.2.b.toNat % 2 ^ 32
  let tie := ia < ib || (ia == ib && a.1 < b.1)
  match va.isNaN, vb.isNaN with
  | true, true => tie
  | true, false => false
  | false, true => true
  | false, false => match FVal.cmp va vb with
    | .gt => true
    | .lt => false
    | .eq => tie

/-- The candidate of a rank. -/
def topRank (vis : List (Nat × Vals)) (r : Nat) : Option (Nat × Vals) :=
  vis.find? fun p => (vis.filter fun q => topBefore q p).length == r

def topkVal (vis : List (Nat × Vals)) (l : Nat) (v : Vals) : Word :=
  if l < min (min v.c.toNat 32) vis.length then
    match topRank vis l with
    | some p => BitVec.ofNat 64 (p.2.b.toNat % 2 ^ 32 * 2 ^ 32 + p.2.a.toNat % 2 ^ 32)
    | none => BitVec.allOnes 64
  else BitVec.allOnes 64

def execTopk (f : Flds) (s : State) : Answer := .next (s.cross (.tri .n) f topkVal)

/-! ### PSEL at execution (R357): the list is aligned to its 8-byte entries, whose slots are 64-byte aligned -/

def pselBody (w : SelWord) : Body := fun s ch _ l _ v =>
  let outside (a : Word) (n : Nat) : Bool := 2 ^ 57 < a.toNat + n
  if outside v.a (8 * w.npages.toNat) then some (.trapped (trapWindow v.a), s)
  else if outside v.b 512 then some (.trapped (trapWindow v.b), s)
  else if v.a.toNat % 8 ≠ 0 then some (.trapped (trapAlign v.a), s)
  else if v.b.toNat % 64 ≠ 0 then some (.trapped (trapAlign v.b), s)
  else if hasHid ch then some (.trapped { cause := 0x0F }, s)
  else if v.c.toNat < 1 ∨ 256 < v.c.toNat ∨ w.npages = 0 then some (.trapped (protAt 0x63 0), s)
  else match (s.core s.flow.focusCore).boundRing ch.key w.ring.toNat with
    | .error t => some (.trapped t, s)
    | .ok r =>
      if r.prod ≠ .program ∨ (nkeys ch.lanes).any (fun j => j < l) then some (.trapped (protAt 0x43 r.num), s)
      else if r.free = 0 then some (.trapped (protAt 0x44 r.num), s)
      else if ¬(r.desc.fmt = 1 ∨ r.desc.fmt = 10) ∨ r.desc.shape ∨ r.desc.scaled then some (.trapped (protAt 0x42 r.num), s)
      else some (.eff (.psel v.a v.b v.c.toNat w), s)

def pselShape : Shape := { u := .y, rdA := true, rdB := true, rdC := true, noP := true }

def execPsel (w : SelWord) (f : Flds) (s : State) : Answer := .next (s.perform pselShape f 2 true (pselBody w))

/-! ### Tiles and entries (R366 to R368) -/

/-- A tile with its format, its bounds, the codes of all its elements and its scale codes. -/
structure Tile where
  fmt : Nat
  shape : Bool
  scaled : Bool
  vr : Nat
  vc : Nat
  codes : List Nat
  scales : List Nat := []
deriving DecidableEq, Repr, Inhabited

/-- Elements, and scale codes, of a tile of a shape. -/
def tileLen (shape : Bool) : Nat := 32 * shapeW shape
def Tile.value (t : Tile) (e : Nat) : FVal :=
  widenScaled t.fmt ((t.codes[e]?).getD 0) (if t.scaled then some ((t.scales[e / 16]?).getD 0) else none)

/-- Packs codes of a width from bit 0 up (R73), and unpacks them. -/
def packCodes (w : Nat) (l : List Nat) : List Byte :=
  bytesOfNat (l.length * w / 8) (l.zipIdx.foldl (fun acc p => acc + p.1 % 2 ^ w * 2 ^ (w * p.2)) 0)
def unpackCodes (w n : Nat) (bs : List Byte) : List Nat :=
  let x := natOfBytes bs
  (List.range n).map fun i => x / 2 ^ (w * i) % 2 ^ w

/-- Reads a tile operand at its coherence points, or what stops the read. None of the bytes outside the bounds
is read, nor the scale of a group without an element in them (R80). -/
def readTile (s : State) (c : Nat) (w : Who) (l : TileLoc) : Except EngAccess (Tile × State) :=
  match l with
  | .ring d addr saddr vr vc =>
    let k := s.core c
    let n := d.elems
    let inside (e : Nat) : Bool := decide (e / shapeW d.shape < vr) && decide (e % shapeW d.shape < vc)
    let scales (g : Nat) : Bool := (List.range 16).any fun i => inside (16 * g + i)
    if (List.range n).any (fun e => inside e && k.badIn (addr + e * d.width / 8) (max 1 (d.width / 8)))
        || (d.scaled && (List.range (n / 16)).any fun g => scales g && k.badIn (saddr + g) 1) then
      .error (.err (trapEcc 0 2) false)
    else
      let codes := (List.range n).map fun e => if inside e then readElem k.sram addr d.width e else 0
      let scales := if d.scaled then (List.range (n / 16)).map fun e => readElem k.sram saddr 8 e else []
      .ok ({ fmt := d.fmt, shape := d.shape, scaled := d.scaled, vr, vc, codes, scales }, s)
  | .window base d0 d1 fmt shape =>
    match engReads w (fmtWidth fmt / 8) (((TileLoc.window base d0 d1 fmt shape).parts).map (·.1)) s with
    | .error e => .error e
    | .ok (bs, s) =>
      let codes := (List.range (tileLen shape)).map fun e =>
        let i := e / shapeW shape
        let j := e % shapeW shape
        if i < d1.count ∧ j < d0.count then natOfBytes ((bs[i * d0.count + j]?).getD []) else 0
      .ok ({ fmt, shape, scaled := false, vr := d1.count, vc := d0.count, codes }, s.bump)

/-- KeySet (R366). -/
def keySet (c : SymClass) (key : Nat) : Nat :=
  if c.setl = 0 then 0 else (key % 2 ^ 28 * 0x9E3779B1) % 2 ^ 32 / 2 ^ (32 - c.setl)

/-- The class, set and way a request is about (R366): by its key, or by its entry index. -/
def State.symPlace (s : State) (q : SymReq) : Option (SymClass × Nat × Nat) :=
  match q.kind with
  | .symr .. =>
    let i := (bits q.handle 32 31).toNat
    ((s.ctx q.ctx).syms.find? fun c => c.first ≤ i && i < c.first + 2 ^ c.setl * (c.ways + 1)).map fun c =>
      (c, (i - c.first) / (c.ways + 1), (i - c.first) % (c.ways + 1))
  | _ => (s.symClass q.ctx (keyClass q.handle)).map fun c => (c, keySet c (q.handle.toNat % 2 ^ 32), 0)

/-- The address of a directory line, and of an entry slot. -/
def dirVa (c : SymClass) (set : Nat) : Nat := c.dir.toNat + 128 * set
def slotVa (x : Ctx) (i : Nat) : Nat := x.region.toNat + i * 2 ^ (9 + x.slotL)

/-- A directory record (R367). -/
structure DirRec where
  key : Nat
  step : BitVec 32
  gen : BitVec 32
  valid : Bool
deriving DecidableEq, Repr, Inhabited

/-- The home slice and line of a request's directory line, as the core that made it translates its address. -/
def State.symHome (s : State) (q : SymReq) : Option (Nat × Nat) :=
  match s.symPlace q with
  | none => none
  | some (c, set, _) => match s.placeFrom (dieOf q.core) q.ctx (dirVa c set) with
    | some (.home pa _ _) => some (homeSlice (lineOf pa), lineOf pa)
    | _ => none

/-- The engine whose signature a comparator's writes enter: the slice's stream engine (assumption log 18). -/
def State.symEngine (s : State) (q : SymReq) : Nat :=
  match s.symHome q with
  | some (i, _) => 32 + i
  | none => 32

/-- Who a request is to translation: its comparator translates on the C-die that holds it (R395). -/
def symWho (s : State) (q : SymReq) : Who :=
  { die := (s.symEngine q - 32) / 16, ctx := q.ctx, act := q.act, kind := 5, job := q.id }

/-- The places of some bytes of the region or the directory, what has been read beyond the package being given. -/
def State.symPlaces (s : State) (q : SymReq) (va len : Nat) : List (Option Place) :=
  let mine := s.eng.reads.filter fun r => r.kind == 5 && r.ctx == q.ctx && r.job == q.id
  (List.range len).map fun i => (s.placeBy (symWho s q) (va + i)).map (Place.fromReads mine)

/-- Bytes the comparator reads for a request, or none where a page is not resident or data is uncorrectable (R367, R373). -/
def State.symBytes (s : State) (q : SymReq) (va len : Nat) : Option (List Byte) :=
  let pl := s.symPlaces q va len
  if pl.all fun p => match p with | some p => !engPoison s p && !p.away | none => false then some (pl.filterMap fun p => p.map (engByte s)) else none

/-- What stops the comparator's access of the region or the directory: a malformed entry on the way, a page of the other world, or a wait
for bytes beyond the package (R238, R394, R423). A page that is not resident, or data that is uncorrectable, is a missing entry (R373). -/
def State.symBar (s : State) (q : SymReq) (va len : Nat) (reads : Bool) : Option EngAccess :=
  let w := symWho s q
  let got := (pageStarts va len).map fun p => (p, s.translate w p)
  let a : Word := BitVec.ofNat 64 va
  if got.any fun p => p.2 == .absent then none
  else if got.any fun p => p.2 == .malformed then some (.err (trapProt 0x70 a) false)
  else if got.any fun p => match p.2 with | .leaf l => s.leafBarred q.ctx l p.1 | _ => false then some (.err (trapProt 0x72 a) (s.breachAt w va len))
  else if !reads then none
  else match s.seek w ((List.range len).filterMap fun i => s.placeBy w (va + i)) with
    | .later s => some (.later s)
    | .fails t => if t.cause = 0x11 then none else some (.err { t with addr := a } false)
    | .got _ => none

/-- What the comparator's read of some bytes leaves: their translations cached, and their lines in the L2 (R256, R395). -/
def State.symSeek (s : State) (q : SymReq) (va len : Nat) : State :=
  let w := symWho s q
  let s1 := (State.pageStarts va len).foldl (fun (s : State) p => s.fillXlt w p) s
  s1.enterPlaces ((s1.symPlaces q va len).filterMap id)

/-- The records of a set. -/
def State.symDir (s : State) (q : SymReq) (c : SymClass) (set : Nat) : Option (List DirRec) :=
  (s.symBytes q (dirVa c set) 128).map fun bs => (List.range (c.ways + 1)).map fun w =>
    { key := bytesAt bs (16 * w) 4, step := BitVec.ofNat 32 (bytesAt bs (16 * w + 4) 4), gen := BitVec.ofNat 32 (bytesAt bs (16 * w + 8) 4),
      valid := (bytesAt bs (16 * w + 12) 1).testBit 0 }

/-- The parts of an entry slot in order with their offsets: input, its scales, output, its scales (R368). -/
def align64 (n : Nat) : Nat := (n + 63) / 64 * 64
def Tile.size (t : Tile) : Nat := tileLen t.shape * fmtWidth t.fmt / 8
def Tile.span (t : Tile) : Nat := align64 t.size + (if t.scaled then 64 else 0)
def entryLen (a b : Tile) : Nat :=
  64 + a.span + (if b.scaled then align64 b.size + tileLen b.shape / 16 else b.size)

def Tile.bytes (t : Tile) : List Byte :=
  let pad (l : List Byte) : List Byte := l ++ List.replicate (align64 l.length - l.length) 0
  pad (packCodes (fmtWidth t.fmt) t.codes) ++ (if t.scaled then pad (packCodes 8 t.scales) else [])

def Tile.kindByte (t : Tile) : Byte := BitVec.ofNat 8 (t.fmt + (if t.shape then 16 else 0) + (if t.scaled then 32 else 0))

/-- The bytes of an entry up to the end of one of its tiles, as its header has it. -/
def State.symReach (s : State) (q : SymReq) (va : Nat) (out : Bool) : Nat :=
  match s.symBytes q va 64 with
  | none => 64
  | some h =>
    let hd (o : Nat) : Tile :=
      let k := bytesAt h o 1
      { fmt := k % 16, shape := k.testBit 4, scaled := k.testBit 5, vr := bytesAt h (o + 1) 1, vc := bytesAt h (o + 2) 1, codes := [] }
    64 + (hd 12).span + if out then (hd 15).span else 0

/-- What stops the read of an entry: at its header, or at what follows that. -/
def State.entryBar (s : State) (q : SymReq) (va : Nat) (out : Bool) : Option EngAccess :=
  (s.symBar q va 64 true).or (s.symBar q va (s.symReach q va out) true)

/-- Reads one tile of an entry (R368): the input, or the output. -/
def State.symEntry (s : State) (q : SymReq) (va : Nat) (out : Bool) : Option Tile :=
  match s.symBytes q va 64 with
  | none => none
  | some h =>
    let hd (o : Nat) : Tile :=
      let k := bytesAt h o 1
      { fmt := k % 16, shape := k.testBit 4, scaled := k.testBit 5, vr := bytesAt h (o + 1) 1, vc := bytesAt h (o + 2) 1, codes := [] }
    let t := if out then hd 15 else hd 12
    let off := 64 + (if out then (hd 12).span else 0)
    match s.symBytes q (va + off) t.size with
    | none => none
    | some bs =>
      let codes := unpackCodes (fmtWidth t.fmt) (tileLen t.shape) bs
      if t.scaled then
        (s.symBytes q (va + off + align64 t.size) (tileLen t.shape / 16)).map fun ss =>
          { t with codes, scales := ss.map (·.toNat) }
      else some { t with codes }

/-! ### Taking requests (R369 to R373) -/

/-- Whether a request is the next of its set at its comparator, and every earlier one of its core there has been taken: requests on
different sets go on in parallel (R362, R369). -/
def State.symFirst (s : State) (n : Nat) : Bool :=
  match s.eng.syms[n]? with
  | none => false
  | some q => q.stop.isNone && (s.eng.syms.take n).all fun p => match s.symHome p, s.symHome q with
      | some a, some b => a.2 != b.2 && (p.taken || a.1 != b.1 || p.core != q.core)
      | _, _ => true

def State.setSyms (s : State) (l : List SymReq) : State := { s with eng := { s.eng with syms := l } }

/-- Ends a request: its ranges are released. -/
def State.endSym (s : State) (n : Nat) (q : SymReq) : State :=
  let s := (s.setSyms (ldrop s.eng.syms n)).forget fun r => r.kind == 5 && r.ctx == q.ctx && r.job == q.id
  { s with homes := { s.homes with locks := s.homes.locks.filter fun l => !(l.kind == 2 && l.owner / 256 == q.id) } }

/-- The owner's event for the region or the directory (R373). -/
def State.symEvent (s : State) (n : BitVec 12) (cls : Nat) : State :=
  s.event { typ := 7, sub := 1, ctx := n, words := [BitVec.ofNat 64 cls], byCtx := true }

/-- What stops a request: a page fault of its program's tile to wait for, or an error with its trap (R373, R394). -/
def State.symStopped (s : State) (n : Nat) (q : SymReq) (e : EngAccess) : State :=
  match e with
  | .fault id s' => (s'.setSyms (lset s'.eng.syms n { q with stop := some id, taken := true })).engFault q.ctx q.act id
  | .later s' => s'
  | .err t denied =>
    let r : TrapRec := { cause := t.cause, reason := t.reason, act := q.act, tag := 0xFD, addr := t.addr, aux := t.aux }
    ((s.denyIf denied).endSym n q).sendTrap q.core q.ctx 0 false r 5
  | _ => s

/-- The completion token of SYMP and SYMR (R349, R350). -/
def State.symToken (s : State) (q : SymReq) (cen : Bool) (cblock : BitVec 24) (cport : BitVec 4) (payload : Word) (e : Nat) : State :=
  if cen then
    s.engToken q.ctx q.act (cblock.setWidth 32) cport ((q.lanes.head?.map (·.1)).getD 0) 5 payload (some (s.engRs e))
  else s

/-- One element of a comparison (R347). -/
def symPass (trel tabs x r : FVal) : Bool :=
  if x.isNaN || r.isNaN then false
  else if FVal.cmp x r == .eq then true
  else
    let f32 (v : FVal) : FVal := decodeFmt .fp32 (roundXF v .fp32)
    let t := f32 (FVal.mul trel r.abs)
    let t := f32 (FVal.add .rne tabs t)
    let d := f32 (FVal.add .rne x r.negate).abs
    !t.isNaN && !d.isNaN && FVal.cmp d t != .gt

/-- The elements of a tile within its bounds, ascending. -/
def Tile.within (t : Tile) : List Nat :=
  (List.range (tileLen t.shape)).filter fun e => e / shapeW t.shape < t.vr && e % shapeW t.shape < t.vc

/-- The outcome of a comparison against an entry's input tile: none for another shape, else the first element that fails. -/
def symCompare (h : Word) (x e : Tile) : Option (Option Nat) :=
  if x.fmt ≠ e.fmt ∨ x.scaled ≠ e.scaled ∨ x.shape ≠ e.shape ∨ x.vr ≠ e.vr ∨ x.vc ≠ e.vc then none
  else
    let trel := decodeFmt .bf16 (bits h 48 15).toNat
    let tabs := decodeFmt .bf16 (bits h 32 16).toNat
    some (x.within.find? fun i => !symPass trel tabs (x.value i) (e.value i))

/-- The newest entry of a key within age (R370), by way. -/
def symNewest (recs : List DirRec) (key : Nat) (step : BitVec 32) (maxAge : Nat) : Option Nat :=
  let age (r : DirRec) : Nat := (step - r.step).toNat
  let ok := recs.zipIdx.filter fun p => p.1.valid && p.1.key == key && 1 ≤ age p.1 && age p.1 ≤ maxAge
  (ok.foldl (fun (b : Option (DirRec × Nat)) p => match b with
    | none => some p
    | some q => if age p.1 < age q.1 then some p else some q) none).map (·.2)

/-- Sends the outcome of a SYMC to every committing lane (R348). -/
def State.symOutcome (s : State) (q : SymReq) (dblock : BitVec 20) (port : BitVec 4) (payload : Word) : State :=
  q.lanes.foldl (fun s l => s.sendToken
    { payload, tag := l.1, dblock := dblock.setWidth 32, dpkg := s.pkg, dcore := BitVec.ofNat 8 q.core, ctx := q.ctx, act := q.act, hid := l.2,
      port, spkg := s.pkg, score := 0xFF, skind := 5 }) s

/-- Logs a request's outcome, way, generation and first failing element, or checks them under replay (R374, R437). -/
def State.symLog (s : State) (q : SymReq) (data : List Nat) : State := s.logChoice q.ctx 4 q.core q.act 2 data

/-- A SYMC request is taken (R347, R348, R370, R373): its tile is read, the entry is found, the outcome is counted, and its tokens are
sent. It waits while the update unit may not add to its class's counters. -/
def State.symcStep (s : State) (n : Nat) : State :=
  match s.eng.syms[n]? with
  | none => s
  | some q => match q.kind with
    | .symc w tile =>
      if !s.symFirst n || !s.countsOpen (symWho s q) .hits (keyClass q.handle) 24 then s
      else
        let absent (s : State) : State :=
          (((s.symLog q [3]).symCount (symWho s q) .absences (keyClass q.handle) 1).symOutcome q w.mblock w.mport 3).endSym n q
        match readTile s q.core (symWho s q) tile with
        | .error .wait => s
        | .error x => s.symStopped n q x
        | .ok (x, s) => match s.symPlace q with
          | none => absent s
          | some (c, set, _) =>
            match s.symBar q (dirVa c set) 128 true with
            | some x => s.symStopped n q x
            | none =>
            let s := s.symSeek q (dirVa c set) 128
            match s.symDir q c set with
            | none => absent (s.symEvent q.ctx c.cls)
            | some recs => match symNewest recs (q.handle.toNat % 2 ^ 32) q.step c.maxAge with
              | none => absent s
              | some way =>
                let gen := ((recs[way]?).map fun r => r.gen.toNat).getD 0
                let i := c.first + set * (c.ways + 1) + way
                match s.entryBar q (slotVa (s.ctx q.ctx) i) false with
                | some x => s.symStopped n q x
                | none =>
                let s := s.symSeek q (slotVa (s.ctx q.ctx) i) (64 + x.span)
                match s.symEntry q (slotVa (s.ctx q.ctx) i) false with
                | none => absent (s.symEvent q.ctx c.cls)
                | some e => match symCompare q.handle x e with
                  | none => (((s.symLog q [2, way, gen]).symCount (symWho s q) .misses c.cls 1).symOutcome q w.mblock w.mport 2).endSym n q
                  | some (some k) =>
                    (((s.symLog q [1, way, gen, k]).symCount (symWho s q) .misses c.cls 1).symOutcome q w.mblock w.mport
                      (BitVec.ofNat 64 (1 + k * 256))).endSym n q
                  | some none =>
                    (((s.symLog q [0, way, gen]).symCount (symWho s q) .hits c.cls 1).symOutcome q w.hblock w.hport
                      (BitVec.ofNat 64 (gen + i * 2 ^ 32 + 2 ^ 63))).endSym n q
    | _ => s

def execSymcCompare (n : Nat) (s : State) : Answer := .next (s.symcStep n)

/-- The way of greatest age among some, the lower of equals (R371). -/
def oldestWay (step : BitVec 32) (l : List (DirRec × Nat)) : Option Nat :=
  (l.foldl (fun (b : Option (DirRec × Nat)) p => match b with
    | none => some p
    | some q => if (step - q.1.step).toNat < (step - p.1.step).toNat then some p else some q) none).map (·.2)

/-- The way a SYMP chooses (R371). -/
def symWay (recs : List DirRec) (c : SymClass) (key : Nat) (step : BitVec 32) : Nat :=
  let l := recs.zipIdx
  let mine := l.filter fun p => p.1.valid && p.1.key == key
  match mine.find? fun p => p.1.step == step with
  | some p => p.2
  | none =>
    let pick := if c.keep + 1 ≤ mine.length then oldestWay step mine
      else match l.find? fun p => !p.1.valid with
        | some p => some p.2
        | none => match l.filter fun p => decide (c.maxAge < (step - p.1.step).toNat) with
          | [] => oldestWay step l
          | o => oldestWay step o
    pick.getD 0

/-- A SYMP request is taken (R349, R368, R369, R371): its slot is written, and, once every write of that is accepted, the record, which is the
instant of R361. No other request of the set is taken in between. -/
def State.sympStep (s : State) (n : Nat) : State :=
  match s.eng.syms[n]? with
  | none => s
  | some q => match q.kind with
    | .symp w inp out =>
      let e := s.symEngine q
      let finish (s : State) (payload : Word) : State :=
        if s.writesOut e 0 then s.setSyms (lset s.eng.syms n { q with fin := some payload, taken := true })
        else (s.symToken q w.cen w.cblock w.cport payload e).endSym n q
      match q.fin, q.due with
      | some p, _ => finish s p
      | none, some (at_, rec, way, gen) =>
        if s.writesOut e 0 then s
        else finish ((s.vput q.ctx (some e) at_ rec (symWho s q).die).symLog q [way, gen.toNat]) (gen.setWidth 64)
      | none, none =>
        if !s.symFirst n then s
        else match readTile s q.core (symWho s q) inp with
          | .error .wait => s
          | .error x => s.symStopped n q x
          | .ok (a, s) => match readTile s q.core (symWho s q) out with
            | .error .wait => s
            | .error x => s.symStopped n q x
            | .ok (b, s) =>
              let open_ : Word := (Config.freeWord s.flow.freeCtr).extractLsb' 0 32 |>.setWidth 64
              let fail (s : State) : State := finish (s.symLog q [62]).bump (open_ ||| (1#64 <<< 62))
              match s.symPlace q with
              | none => fail s
              | some (c, set, _) =>
                let x := s.ctx q.ctx
                if 2 ^ (9 + x.slotL) < entryLen a b then fail s
                else match s.symBar q (dirVa c set) 128 true with
                | some x => s.symStopped n q x
                | none =>
                  let s := s.symSeek q (dirVa c set) 128
                  match s.symDir q c set with
                  | none => fail (s.symEvent q.ctx c.cls)
                  | some recs =>
                    let key := q.handle.toNat % 2 ^ 32
                    let way := symWay recs c key q.step
                    let gen : BitVec 32 := ((recs[way]?).map DirRec.gen).getD 0 + 1
                    let va := slotVa x (c.first + set * (c.ways + 1) + way)
                    let head := bytesOfNat 4 key ++ bytesOfNat 4 q.step.toNat ++ bytesOfNat 4 gen.toNat
                    let slot := head ++ [a.kindByte, BitVec.ofNat 8 a.vr, BitVec.ofNat 8 a.vc, b.kindByte, BitVec.ofNat 8 b.vr, BitVec.ofNat 8 b.vc]
                      ++ List.replicate 46 0 ++ a.bytes ++ b.bytes
                    match s.symBar q va (entryLen a b) false with
                    | some x => s.symStopped n q x
                    | none =>
                    if (s.symPlaces q va (entryLen a b)).any (·.isNone) then fail ((s.symSeek q va (entryLen a b)).symEvent q.ctx c.cls)
                    else
                      let s := s.vput q.ctx (some e) va (slot.take (entryLen a b)) (symWho s q).die
                      s.setSyms (lset s.eng.syms n { q with taken := true, due := some (dirVa c set + 16 * way, head ++ [1, 0, 0, 0], way, gen) })
    | _ => s

def execSympStore (n : Nat) (s : State) : Answer := .next (s.sympStep n)

/-- Writes a stored tile to its destination: the bytes written, or a mismatch, or what stops it. -/
inductive Replayed
  | wrote (n : Nat) (s : State)
  | mismatch
  | stop (e : EngAccess)
deriving DecidableEq, Repr, Inhabited

/-- Bytes of a core's SRAM that are written while its context is away are among those that its restore brings back (R375). -/
def State.resave (q : SymReq) (l : List (Nat × Nat)) (s : State) : State :=
  let inside (a : Nat) : Bool := l.any fun r => decide (r.1 ≤ a) && decide (a < r.1 + r.2)
  let sram := (s.core q.core).sram
  s.modCtx q.ctx fun x => { x with saved := x.saved.map fun y =>
    if y.core = q.core then
      { y with cells := (y.cells.filter fun p => !inside p.1) ++ sram.filter fun p => inside p.1, bad := y.bad.filter fun a => !inside a }
    else y }

def replayTile (s : State) (q : SymReq) (e : Nat) (t : Tile) (dest : TileLoc) : Replayed :=
  match dest with
  | .ring d addr saddr _ _ =>
    if t.fmt ≠ d.fmt ∨ t.scaled ≠ d.scaled ∨ t.shape ≠ d.shape then .mismatch
    else
      let codes := (List.range d.elems).map fun i =>
        if i / shapeW t.shape < t.vr ∧ i % shapeW t.shape < t.vc then (t.codes[i]?).getD 0 else 0
      let s := State.resave q [(addr, d.slotBytes), (saddr, if t.scaled then d.elems / 16 else 0)] <| s.modCore q.core fun k =>
        let k := codes.zipIdx.foldl (fun (k : Core) p => k.writeElem addr d.width p.2 p.1) (k.zeroSram addr (addr + d.slotBytes))
        if t.scaled then t.scales.zipIdx.foldl (fun (k : Core) p => k.writeElem saddr 8 p.2 p.1) k else k
      .wrote (d.slotBytes + (if t.scaled then d.elems / 16 else 0)) s
  | .window base d0 d1 fmt shape =>
    if t.fmt ≠ fmt ∨ t.scaled ∨ t.shape ≠ shape ∨ t.vr ≠ d1.count ∨ t.vc ≠ d0.count then .mismatch
    else match engTargets (symWho s q) (fmtWidth fmt / 8) ((TileLoc.window base d0 d1 fmt shape).parts.map (·.1)) s with
      | .error x => .stop x
      | .ok (pls, s) =>
        let s := (t.within.zip pls).foldl (fun s p =>
          putPlaces q.ctx (some e) (p.2.zip (bytesOfNat (fmtWidth fmt / 8) ((t.codes[p.1]?).getD 0))) s) s
        .wrote (d0.count * d1.count * (fmtWidth fmt / 8)) s

/-- A SYMR request is taken (R350, R372). -/
def State.symrStep (s : State) (n : Nat) : State :=
  match s.eng.syms[n]? with
  | none => s
  | some q => match q.kind with
    | .symr w dest =>
      let e := s.symEngine q
      let finish (s : State) (payload : Word) : State :=
        if s.writesOut e 0 then s.setSyms (lset s.eng.syms n { q with fin := some payload, taken := true })
        else (s.symToken q w.cen w.cblock w.cport payload e).endSym n q
      let stale (s : State) (l : List Nat) : State := finish (s.symLog q (61 :: l)) (1#64 <<< 61)
      match q.fin with
      | some p => finish s p
      | none =>
        if !s.symFirst n then s
        else match s.symPlace q with
          | none => stale s []
          | some (c, set, way) =>
            if !s.countsOpen (symWho s q) .bytes c.cls 16 then s
            else match s.symBar q (dirVa c set) 128 true with
            | some x => s.symStopped n q x
            | none =>
            let s := s.symSeek q (dirVa c set) 128
            match s.symDir q c set with
            | none => stale (s.symEvent q.ctx c.cls) [way]
            | some recs =>
              let gen := ((recs[way]?).map fun r => r.gen.toNat).getD 0
              let good := match recs[way]? with
                | some r => r.valid && r.gen == bits q.handle 0 32
                | none => false
              if !good then stale s [way, gen]
              else
                match s.entryBar q (slotVa (s.ctx q.ctx) (bits q.handle 32 31).toNat) true with
                | some x => s.symStopped n q x
                | none =>
                let s := s.symSeek q (slotVa (s.ctx q.ctx) (bits q.handle 32 31).toNat) 64
                match s.symEntry q (slotVa (s.ctx q.ctx) (bits q.handle 32 31).toNat) true with
                | none => stale (s.symEvent q.ctx c.cls) [way, gen]
                | some t => match replayTile s q e t dest with
                  | .mismatch => finish (s.symLog q [60, way, gen]) (1#64 <<< 60)
                  | .stop .wait => s
                  | .stop x => s.symStopped n q x
                  | .wrote m s =>
                    let s := s.symCount (symWho s q) .bytes c.cls (BitVec.ofNat 64 m)
                    let s := if w.fen then s.symCount (symWho s q) .flops c.cls q.flops else s
                    finish (s.symLog q [59, way, gen]) (BitVec.ofNat 64 m)
    | _ => s

def execSymrReplay (n : Nat) (s : State) : Answer := .next (s.symrStep n)

/-! ### Page selection (R357, R358) -/

/-- The score of a page's summary. -/
def pageScore (q : List FVal) (kmax kmin : List FVal) : Nat :=
  let v := (q.zip (kmax.zip kmin)).map fun p =>
    let up := !p.1.isNaN && FVal.cmp p.1 (.fin false 0 0) != .lt
    FVal.mul p.1 (if up then p.2.1 else p.2.2)
  sumSeq .fp32 .rne v

/-- Whether a score ranks before another. -/
def scoreBefore (a b : Nat) : Bool :=
  let va := decodeFmt .fp32 a
  let vb := decodeFmt .fp32 b
  if va.isNaN then false else if vb.isNaN then true else FVal.cmp va vb == .gt

/-- Ranks a page among those before it; equal scores keep their order. -/
def rankIn (x : Nat × Nat) : List (Nat × Nat) → List (Nat × Nat)
  | [] => [x]
  | y :: r => if scoreBefore x.2 y.2 then x :: y :: r else y :: rankIn x r

/-- The score of list entry p: the read of the entry, its alignment check, the read of the page's summary. -/
def scorePage (w : Who) (q : List FVal) (list p : Nat) (s : State) : Except (Nat × EngAccess) (Nat × State) :=
  match engAccess s w ((list + 8 * p : Nat) : Int) 8 .read with
  | .ok pl s =>
    let a := natOfBytes (pl.map (engByte s))
    if a % 64 ≠ 0 then .error (p, .err (trapAlign (BitVec.ofNat 64 a)) false)
    else match engAccess s.bump w ((a + 0x40 : Nat) : Int) 512 .read with
      | .ok ps s =>
        let bs := ps.map (engByte s)
        let at_ (o i : Nat) : FVal := decodeFmt .bf16 (bytesAt bs (o + 2 * i) 2)
        .ok (pageScore q ((List.range 128).map (at_ 0)) ((List.range 128).map (at_ 256)), s.bump)
      | e => .error (p, e)
  | e => .error (p, e)

/-- Scores pages from p on: the ranked pages, or the page at which it stops with what stops it and the ranking so far. -/
def scorePages (w : Who) (q : List FVal) (list : Nat) : Nat → Nat → List (Nat × Nat) → State →
    Except (Nat × EngAccess × List (Nat × Nat)) (List (Nat × Nat) × State)
  | 0, _, acc, s => .ok (acc, s)
  | fuel + 1, p, acc, s =>
    match scorePage w q list p s with
    | .ok (sc, s) => scorePages w q list fuel (p + 1) (rankIn (p, sc) acc) s
    | .error x => .error (x.1, x.2, acc)

/-- Who a selection is to translation (R395), and what it reads for. -/
def pselWho (j : PselJob) : Who :=
  { die := dieOf j.core, ctx := j.ctx, act := j.act, kind := 6, job := j.core + 2 ^ 8 * j.w.ring.toNat + 2 ^ 13 * actKey j.ctx j.act }

/-- A selection ends: the ring's PROD returns to the program, and the token is sent (R358). -/
def State.endPsel (s : State) (n : Nat) (j : PselJob) (error : Bool) : State :=
  let key := actKey j.ctx j.act
  let s := ({ s with eng := { s.eng with psels := ldrop s.eng.psels n } } : State).forgetJob (pselWho j)
  let s := (s.modCore j.core fun k => k.setProd key [j.w.ring.toNat] .program)
  if j.w.cen then
    let k := min j.k j.w.npages.toNat
    match s.spreadCore key s.pkg (j.w.cblock.setWidth 32) j.tag with
    | none => s.countDiscard j.ctx
    | some c => s.sendToken
        { payload := BitVec.ofNat 64 (k + j.w.npages.toNat * 65536 + (if error then 2 ^ 62 else 0)), tag := j.tag,
          dblock := j.w.cblock.setWidth 32, dpkg := s.pkg, dcore := BitVec.ofNat 8 c, ctx := j.ctx, act := j.act, port := j.w.cport,
          spkg := s.pkg, score := 0xFF, skind := 3 }
  else s

/-- The selection's stop at a page, with the pages ranked so far. -/
def State.stopPsel (s : State) (n : Nat) (j : PselJob) (p : Nat) (e : EngAccess) (acc : List (Nat × Nat) := j.acc) : State :=
  match e with
  | .fault id s' => ({ s' with eng := { s'.eng with psels := lset s'.eng.psels n { j with stop := some id, page := p, acc } } } : State).engFault j.ctx j.act id
  | .later s' => { s' with eng := { s'.eng with psels := lset s'.eng.psels n { j with page := p, acc } } }
  | .err t denied =>
    let r : TrapRec := { cause := t.cause, reason := t.reason, act := j.act, tag := BitVec.ofNat 32 (0xFE + j.w.ring.toNat * 256),
                         block := BitVec.ofNat 32 p, addr := t.addr, aux := t.aux }
    ((s.denyIf denied).endPsel n j true).sendTrap j.core j.ctx 0 false r 3
  | _ => s

/-- The stream engines score the pages and publish the ranked slot (R357, R358); a selection that was stopped goes on at its page. -/
def State.pselStep (s : State) (n : Nat) : State :=
  match s.eng.psels[n]? with
  | none => s
  | some j =>
    if j.stop.isSome || !s.streamsRun j.ctx then s
    else
      let key := actKey j.ctx j.act
      let who := pselWho j
      match engAccess s who (j.query.toNat : Nat) 512 .read with
      | .ok pl s1 =>
        let q := (List.range 128).map fun i => decodeFmt .fp32 (bytesAt (pl.map (engByte s1)) (4 * i) 4)
        match scorePages who q j.list.toNat (j.w.npages.toNat - j.page) j.page j.acc s1.bump with
        | .error (p, e, acc) => s.stopPsel n j p e acc
        | .ok (ranked, s2) => match (s2.core j.core).ring? key j.w.ring.toNat with
          | none => { s2 with eng := { s2.eng with psels := ldrop s2.eng.psels n } }
          | some r =>
            let k := min j.k j.w.npages.toNat
            let slot := r.slotAt r.tail 0
            let s3 := s2.modCore j.core fun c =>
              let c := c.zeroSram (r.slotAddr slot) (r.slotAddr slot + r.desc.slotBytes)
              ((ranked.take k).zipIdx).foldl (fun c p => (c.setElem r slot (2 * p.2) p.1.1).setElem r slot (2 * p.2 + 1) p.1.2) c
            let s4 := s3.pushRing j.core key r.num ((2 * k + 31) / 32) (if 32 ≤ 2 * k then 32 else 2 * k)
            s4.endPsel n j false
      | e => s.stopPsel n j j.page e

def execPselSelect (n : Nat) (s : State) : Answer := .next (s.pselStep n)

end Sys2Proof.Machine
end

