-- ==== Sys2Proof/Machine/Hypothesis.lean ====
section
/-! DEFINITION. Hypotheses (R353 to R356, R376 to R387): the instructions at execution, the hypothesis table, and the steps
of its sweeps and of speculative reservations. -/

namespace Sys2Proof.Machine

/-! ### Forking (R353, R379) -/

/-- The lowest free HID of a context. -/
def State.freeHid (s : State) (n : BitVec 12) : Option (BitVec 8) :=
  ((List.range 255).map fun i => BitVec.ofNat 8 (i + 1)).find? fun h => s.hypState n h == 0

def State.setHyp (s : State) (n : BitVec 12) (h : BitVec 8) (r : HypRec) : State :=
  s.modCtx n fun x => { x with hyps := nput x.hyps h.toNat r }

/-- Frees HIDs. -/
def State.freeHids (s : State) (n : BitVec 12) (l : List (BitVec 8)) : State :=
  s.modCtx n fun x => { x with hyps := x.hyps.filter fun p => !l.contains (BitVec.ofNat 8 p.1) }

/-- Whether an L1 line is tagged with one of a context's HIDs. -/
def taggedBy (n : BitVec 12) (ids : List (BitVec 8)) (l : L1Line) : Bool := l.hid != 0 && l.ctx == n && ids.contains l.hid

/-- Whether a fill under way is. -/
def fillsBy (n : BitVec 12) (ids : List (BitVec 8)) (f : Fill) : Bool := f.ctx == n && f.hid != 0 && ids.contains f.hid

/-- Frees those of the children forked by a voided lane or chord that are live: one that a sweep is resolving or refuting is freed
by that sweep (R353, R379). Their number's next holder has another view, so that no line stays tagged with it (R230, R381). -/
def State.freeForks (s : State) (n : BitVec 12) (l : List (BitVec 8)) : State :=
  let ids := l.filter fun h => s.hypState n h == 1
  if ids.isEmpty then s
  else { s.freeHids n ids with cores := s.cores.map fun p =>
    (p.1, { p.2 with l1 := p.2.l1.filter fun x => !taggedBy n ids x, fills := p.2.fills.filter fun f => !fillsBy n ids f }) }

/-- A child of a HID, or none where there is none to make. -/
def State.fork (s : State) (n : BitVec 12) (h : BitVec 8) : Option (BitVec 8 × State) :=
  if s.hypDepth n h = 15 ∨ s.hypState n h ≠ 1 then none
  else match s.freeHid n with
    | none => none
    | some c => some (c, s.setHyp n c { state := 1, parent := h, depth := BitVec.ofNat 4 (s.hypDepth n h + 1) })

/-- HFORK lane by lane: the state, and each selected lane with its child. -/
def forkLanes (f : Flds) (n : BitVec 12) : List (Nat × Lane × Vals) → State → List (Nat × Option (BitVec 8)) × State
  | [], s => ([], s)
  | (l, x, v) :: r, s =>
    if selects f v then
      match s.fork n x.hid with
      | some (c, s) => let p := forkLanes f n r s
                       ((l, some c) :: p.1, p.2)
      | none => let p := forkLanes f n r s
                ((l, none) :: p.1, p.2)
    else forkLanes f n r s

def hforkShape : Shape := { u := .y, yields := true }

/-- HFORK (R353): the child's number, or all ones; a lane runs under its child from the next index on. Under U one child
serves every lane, unless their HIDs differ. -/
def execHfork (f : Flds) (s : State) : Answer :=
  match s.focus with
  | none => .next s
  | some ch =>
    if ch.mayIssue then
      match gather hforkShape f ch (s.consts ch) ch.pc ch.lanes with
      | none => .next s
      | some ls =>
        let deliver (ch : Chord) (l : Nat) (w : Word) : Chord := (ch.deliver f.t0 l w).deliver f.t1 l w
        if f.u && !ch.mixedHids then
          match ls with
          | [] => .next (s.setFocus (ch.next 1))
          | (_, x, v) :: _ =>
            let ch := if ch.ucheck then ch.checkUniform ch.pc v ls else ch
            let all (ch : Chord) (w : Word) : Chord := (nkeys ch.lanes).foldl (fun ch l => deliver ch l w) ch
            if selects f v then
              match s.fork ch.ctx x.hid with
              | none => .next (s.setFocus ((all ch (BitVec.allOnes 64)).next 1))
              | some (c, s) =>
                let ch := (nkeys ch.lanes).foldl (fun ch l => ch.modLane l fun x => { x with hid := c }) ch
                .next (s.setFocus ({ all ch (c.setWidth 64) with forks := ch.forks ++ [c] }.next 1))
            else .next (s.setFocus ((all ch 0).next 1))
        else
          let r := forkLanes f ch.ctx ls s
          let ch := ls.foldl (fun ch p => if selects f p.2.2 then ch else deliver ch p.1 0) ch
          let ch := r.1.foldl (fun ch p => match p.2 with
            | some c => deliver (ch.modLane p.1 fun x => { x with hid := c, forks := x.forks ++ [c] }) p.1 (c.setWidth 64)
            | none => deliver ch p.1 (BitVec.allOnes 64)) ch
          .next (r.2.setFocus (ch.next 1))
    else .next s

/-! ### Resolving, asking and noting (R354 to R356) -/

/-- The check of a resolution: against a lane's HID, at execution and again at the table (R354). -/
def State.resOk (s : State) (n : BitVec 12) (refute : Bool) (t h : BitVec 8) : Bool :=
  t != 0 && s.hypState n t == 1 &&
    (if refute then t != h && s.isAncestor n h t
     else match nget (s.ctx n).hyps t.toNat with
       | some r => r.parent == h
       | none => false)

def hresBody (refute : Bool) (d : TokenDest) : Body := fun s ch _ _ x v =>
  if bits v.a 8 56 ≠ 0 ∨ ¬ s.resOk ch.ctx refute (bits v.a 0 8) x.hid then some (.trapped (protAt 0x62 0), s)
  else some (.eff (.hres { ctx := ch.ctx, refute, target := bits v.a 0 8, hid := x.hid, tag := x.tag, act := ch.act, core := s.flow.focusCore, d }), s)

def execHres (refute : Bool) (d : TokenDest) (f : Flds) (s : State) : Answer :=
  .next (s.perform (.act1 .y) f 2 true (hresBody refute d))

/-- HQRY's word (R355). -/
def State.hypWord (s : State) (n : BitVec 12) (h : BitVec 8) : Word :=
  let x := s.ctx n
  if h = 0 then BitVec.ofNat 64 ((x.hyps.filter fun p => p.2.state == 1).length + x.orphans.toNat * 65536)
  else match nget x.hyps h.toNat with
    | none => 0
    | some r =>
      if r.state = 0 then 0
      else BitVec.ofNat 64 (r.state.toNat + r.depth.toNat * 256 + r.parent.toNat * 65536 + r.note.toNat * 2 ^ 32)

def hqryBody : Body := fun s ch _ _ _ v => some (.val (s.hypWord ch.ctx (bits v.a 0 8)), s)

def execHqry (f : Flds) (s : State) : Answer := .next (s.perform .un f 1 true hqryBody)

/-- HNOTE (R356). -/
def hnoteBody : Body := fun s ch _ _ x v =>
  let h : BitVec 8 := bits v.a 0 8
  if bits v.a 8 56 ≠ 0 ∨ s.hypState ch.ctx h ≠ 1 ∨ ¬ s.isAncestor ch.ctx x.hid h then some (.trapped (protAt 0x62 0), s)
  else some (.eff (.hnote h (bits v.b 0 32)), s)

def execHnote (f : Flds) (s : State) : Answer := .next (s.perform (.act2 .y) f 1 true hnoteBody)

/-- A note at its commit: only of a HID that is still live. -/
def State.note (s : State) (n : BitVec 12) (h : BitVec 8) (x : BitVec 32) : State :=
  match nget (s.ctx n).hyps h.toNat with
  | some r => if r.state = 1 then s.setHyp n h { r with note := x } else s
  | none => s

/-! ### The table (R354, R376, R377, R380) -/

/-- The engine number of a context's sweeps. -/
def sweepEngine (n : BitVec 12) : Nat := 160 + n.toNat

/-- The completion token of HRES (R354). -/
def State.hresToken (s : State) (n : BitVec 12) (q : HypReq) (failed : Bool) : State :=
  let key := actKey n q.act
  let core := match q.d.route with
    | .spread => s.spreadCore key s.pkg q.d.dblock q.tag
    | _ => some q.core
  match core with
  | none => s.countDiscard n
  | some c => s.sendToken
      { payload := BitVec.ofNat 64 (q.target.toNat + (if q.refute then 256 else 0) + (if failed then 2 ^ 62 else 0)), tag := q.tag,
        dblock := q.d.dblock, dpkg := s.pkg, dcore := BitVec.ofNat 8 c, ctx := n, act := q.act, hid := q.hid, port := q.d.dport, relf := true,
        engf := true, spkg := s.pkg, score := 0xFF, skind := 6, tail := s.engRs (sweepEngine n) }

/-- The HIDs of a refutation: the target and its descendants. -/
def State.descendants (s : State) (n : BitVec 12) (t : BitVec 8) : List (BitVec 8) :=
  ((s.ctx n).hyps.map fun p => BitVec.ofNat 8 p.1).filter fun h => s.isAncestor n t h

/-- The table takes its next request (R354, R380): none while a sweep is under way or the context is not resident. -/
def State.hypRequest (s : State) (n : BitVec 12) : State :=
  let x := s.ctx n
  match x.hypQ with
  | [] => s
  | q :: r =>
    if !x.fires || x.sweep.isSome then s
    else
      let s := s.modCtx n fun x => { x with hypQ := r }
      if !s.resOk n q.refute q.target q.hid then s.hresToken n q true
      else
        let ids := if q.refute then s.descendants n q.target else [q.target]
        s.modCtx n fun x => { x with
          sweep := some { req := q, ids }
          hyps := x.hyps.map fun p => if ids.contains (BitVec.ofNat 8 p.1) then (p.1, { p.2 with state := if q.refute then 3 else 2 }) else p }

def execHypothesisRequest (ctx : BitVec 12) (s : State) : Answer := .next (s.hypRequest ctx)

/-! ### Sweeps (R384 to R386) -/

/-- The HIDs a chord's lanes have run under, or have forked. -/
def Chord.hids (ch : Chord) : List (BitVec 8) :=
  ch.forks ++ (ch.lanes.map fun l => l.2.hid :: l.2.hid0 :: l.2.forks).flatten

/-- Whether phase A has ended: no chord holds a lane that has run under the HIDs, and no token under them is on its way or waits
for its block. A token whose block's fill is stopped by a page fault waits as one in a FIFO does, and phase B retags it. -/
def State.phaseADone (s : State) (n : BitVec 12) (ids : List (BitVec 8)) : Bool :=
  s.cores.all (fun p => p.2.chords.all (fun c => c.2.ctx != n || c.2.hids.all fun h => !ids.contains h)
      && p.2.bfills.all fun f => f.stop.isSome || f.toks.all fun t => t.ctx != n || !ids.contains t.hid)
    && s.net.all fun t => t.ctx != n || !ids.contains t.hid

/-- A confirmation's phase B in the cores: lines are written back and invalidated; none where a write must wait. -/
def State.flushTagged (s : State) (n : BitVec 12) (ids : List (BitVec 8)) : Option State :=
  (nkeys s.cores).foldl (fun (acc : Option State) c => acc.bind fun s =>
    (((s.core c).l1.filter (taggedBy n ids)).foldl (fun s l => s.flushLine c l.line) s).drainHome c) (some s)

/-- The lines a sweep discards or retags something of: those tagged in an L1 or in a fill, and those with a version (R227). -/
def State.taggedLines (s : State) (n : BitVec 12) (ids : List (BitVec 8)) : List Nat :=
  (s.cores.map fun p => (p.2.l1.filter (taggedBy n ids)).map L1Line.line ++ (p.2.fills.filter (fillsBy n ids)).map Fill.line).flatten
    ++ (s.homes.versions.filter fun v => v.ctx == n && ids.contains v.hid).map Version.line

/-- Whether a write on its way is one to a version under the HIDs. -/
def HomeOp.under (o : HomeOp) (n : BitVec 12) (ids : List (BitVec 8)) : Bool :=
  match o with
  | .write _ _ _ _ m h _ => m == n && h != 0 && ids.contains h
  | .flag .. => false
  | .upd _ => false

/-- A slice without the writes it holds back for versions under the HIDs. -/
def Slice.dropUnder (sl : Slice) (n : BitVec 12) (ids : List (BitVec 8)) : Slice :=
  { sl with heldWr := sl.heldWr.filter fun h => !h.op.under n ids }

/-- Maps the tokens a core holds: in its FIFO, for block fills, and under a hypothesis. -/
def Core.mapTokens (k : Core) (f : Token → Option Token) : Core :=
  { k with fifo := k.fifo.filterMap fun w => (f w.tok).map fun t => { w with tok := t },
           bfills := k.bfills.map fun b => { b with toks := b.toks.filterMap f }, heldHyp := k.heldHyp.filterMap f }

/-- Maps the slots of a context's spill table: `f` answers the HID and ACT fields to write. -/
def State.mapSpill (s : State) (n : BitVec 12) (f : Token → Option Token) : State :=
  let x := s.ctx n
  (List.range (x.spillTail - x.spillHead)).foldl (fun s i =>
    let t := s.spillAt n (x.spillHead + i)
    match f t with
    | none => s
    | some t' => s.aput n (s.spillSlot n (x.spillHead + i) + 16) (bytesOfWord t'.word2)) s

/-- A refutation's phase B: everything under the HIDs is discarded (R385, R386). -/
def State.discardHids (s : State) (n : BitVec 12) (ids : List (BitVec 8)) : State :=
  let mine (t : Token) : Bool := t.ctx == n && ids.contains t.hid
  let s := (s.taggedLines n ids).foldl (fun s l => s.engSigLine (sweepEngine n) s.pkg l) s
  let s := (nkeys s.cores).foldl (fun s c => s.modCore c fun k =>
    let hit (e : Entry) : Bool := e.ctx == n && ids.contains e.hid
    let gone (e : Entry) : Bool := hit e && match e.state with
      | .parked fault told _ => !told && fault.isNone
      | _ => true
    let dead := (k.entries.filter gone).map (·.frame)
    let k := k.mapTokens fun t => if mine t then none else some t
    { k with
      entries := (k.entries.filter fun e => !gone e).map fun e =>
        if hit e then match e.state with
          | .parked fault told _ => { e with hid := 0, state := .parked fault told true }
          | _ => e
        else e
      bins := (k.bins.map fun p => (p.1, { p.2 with refs := p.2.refs.filter fun r => !dead.contains r.frame })).filter fun p => !p.2.refs.isEmpty
      binQ := k.binQ.filter fun q => !dead.contains q.ref.frame
      l1 := k.l1.filter fun l => !taggedBy n ids l
      fills := k.fills.filter fun f => !fillsBy n ids f
      heldRes := k.heldRes.filter fun q => !(q.ctx == n && ids.contains q.hid)
      homeQ := k.homeQ.filter fun o => !o.under n ids }) s
  let s := { s with homes := { s.homes with slices := s.homes.slices.map fun (p : Nat × Slice) => (p.1, p.2.dropUnder n ids) } }
  let s := { s with homes := { s.homes with versions := s.homes.versions.filter fun v => !(v.ctx == n && ids.contains v.hid) } }
  let s := s.mapSpill n fun t => if ids.contains t.hid && t.act != 0 then some { t with act := 0 } else none
  let s := s.modCtx n fun x => { x with overflow := x.overflow.filter fun t => !ids.contains t.hid }
  (nkeys s.cores).foldl (fun s c => (s.modCore c Core.placeQueue).examineFifo c) s

/-- Phase B (R384, R385). What a confirmation merges and retags takes place at the end instant, all together (R376). -/
def State.phaseB (s : State) (n : BitVec 12) : State :=
  match (s.ctx n).sweep with
  | none => s
  | some w =>
    if w.b || !s.phaseADone n w.ids then s
    else
      let mark (s : State) : State := s.modCtx n fun x => { x with sweep := some { w with b := true } }
      if w.req.refute then mark ((s.discardHids n w.ids).settleWait n)
      else match s.flushTagged n w.ids with
        | none => s
        | some t => mark ((s.taggedLines n w.ids).foldl (fun s l => s.engSigLine (sweepEngine n) s.pkg l) t)

def execSweepPhaseB (ctx : BitVec 12) (s : State) : Answer := .next (s.phaseB ctx)

/-- Merges or retags the versions of a confirmed HID (R384); a reservation that nothing was written to merges nothing (R383). -/
def State.mergeVersions (s : State) (n : BitVec 12) (t u : BitVec 8) : State :=
  let mine := s.homes.versions.filter fun v => v.ctx == n && v.hid == t
  let s := { s with homes := { s.homes with versions := s.homes.versions.filter fun v => !(v.ctx == n && v.hid == t) } }
  mine.foldl (fun s v =>
    let s := s.engSigLine (sweepEngine n) s.pkg v.line
    if v.mask == (0 : BitVec 128) && (u == 0 || (s.version? n u v.line).isSome) then s
    else if u = 0 then
      let s := s.acceptLine v.slot v.line v.mask v.data
      if v.poison then s.setLine v.line { s.line v.line with poison := true } else s
    else match s.version? n u v.line with
      | none => { s with homes := { s.homes with versions := s.homes.versions ++ [{ v with hid := u }] } }
      | some _ =>
        let s := s.acceptVersion n u v.slot v.line v.mask v.data
        if v.poison then
          { s with homes := { s.homes with versions := s.homes.versions.map fun y =>
              if y.ctx = n ∧ y.hid = u ∧ y.line = v.line then { y with poison := true } else y } }
        else s) s

/-- An effect whose HID is renamed. -/
def Eff.reHid (e : Eff) (re : BitVec 8 → BitVec 8) : Eff :=
  match e with
  | .store h bs => .store (re h) bs
  | .send t rel => .send { t with hid := re t.hid } rel
  | .hres q => .hres { q with hid := re q.hid }
  | e => e

/-- A lane whose HIDs are renamed, in the effects it has buffered too. -/
def Lane.reHid (x : Lane) (re : BitVec 8 → BitVec 8) : Lane :=
  { x with hid := re x.hid, hid0 := re x.hid0, effs := x.effs.map fun e => (e.1, e.2.reHid re) }

/-- What is left of a commit, renamed. -/
def CommitAct.reHid (a : CommitAct) (re : BitVec 8 → BitVec 8) : CommitAct :=
  match a with
  | .eff l i e w => .eff l i (e.reHid re) w
  | a => a

/-- A chord whose HIDs are renamed. -/
def Chord.reHid (ch : Chord) (re : BitVec 8 → BitVec 8) : Chord :=
  { ch with lanes := ch.lanes.map fun l => (l.1, l.2.reHid re), effs := ch.effs.map fun e => (e.1, e.2.reHid re),
            specs := ch.specs.map fun w => { w with hid := re w.hid }, todo := ch.todo.map fun l => l.map fun a => a.reHid re }

/-- An L1 line, a fill or a write on its way home of a context, renamed. -/
def L1Line.reHid (l : L1Line) (n : BitVec 12) (re : BitVec 8 → BitVec 8) : L1Line :=
  if l.ctx = n ∧ l.hid ≠ 0 then { l with hid := re l.hid, ctx := if re l.hid = 0 then 0 else n } else l
def Fill.reHid (f : Fill) (n : BitVec 12) (re : BitVec 8 → BitVec 8) : Fill := if f.ctx = n then { f with hid := re f.hid } else f
def HomeOp.reHid (o : HomeOp) (n : BitVec 12) (re : BitVec 8 → BitVec 8) : HomeOp :=
  match o with
  | .write pa slot m d c h b => .write pa slot m d c (if c = n then re h else h) b
  | o => o

/-- The end instant of a confirmation (R376, R384). -/
def State.confirmEnd (s : State) (n : BitVec 12) (t : BitVec 8) : State :=
  let x := s.ctx n
  let u := match nget x.hyps t.toNat with
    | some r => r.parent
    | none => 0
  let desc := s.descendants n t
  -- lines that came to be tagged with t since phase B are retagged, and so signed, too
  let s := (s.taggedLines n [t]).foldl (fun (s : State) l => s.engSigLine (sweepEngine n) s.pkg l) s
  let s := s.mergeVersions n t u
  let re (h : BitVec 8) : BitVec 8 := if h = t then u else h
  let tok (k : Token) : Token := if k.ctx = n then { k with hid := re k.hid } else k
  let s := s.mapSpill n fun k => if k.hid = t then some (tok k) else none
  let s := s.modCtx n fun x => { x with
    hyps := (x.hyps.filter fun p => p.1 != t.toNat).map fun p =>
      if desc.contains (BitVec.ofNat 8 p.1) then
        (p.1, { p.2 with depth := p.2.depth - 1, parent := if p.2.parent = t then u else p.2.parent })
      else p
    overflow := x.overflow.map tok
    hypQ := x.hypQ.map fun q => { q with hid := re q.hid } }
  let s := { s with net := s.net.map tok }
  let s := (nkeys s.cores).foldl (fun s c => s.modCore c fun k =>
    let k := k.mapTokens fun x => some (tok x)
    { k with entries := k.entries.map fun e => if e.ctx = n then { e with hid := re e.hid } else e,
             chords := k.chords.map fun p => if p.2.ctx = n then (p.1, p.2.reHid re) else p,
             l1 := k.l1.map fun l => l.reHid n re, fills := k.fills.map fun f => f.reHid n re, homeQ := k.homeQ.map fun o => o.reHid n re,
             heldRes := k.heldRes.map fun q => if q.ctx = n then { q with hid := re q.hid } else q }) s
  -- what the cores held under t leaves now, carrying u
  (nkeys s.cores).foldl (fun s c =>
    let k := s.core c
    let out := k.heldHyp.filter fun x => x.ctx == n && x.hid == u
    let s := s.modCore c fun k => { k with heldHyp := k.heldHyp.filter fun x => !(x.ctx == n && x.hid == u),
                                           heldRes := k.heldRes.filter fun q => q.ctx != n }
    let s := s.modCtx n fun x => { x with hypQ := x.hypQ ++ k.heldRes.filter fun q => q.ctx == n }
    out.foldl (fun s t => s.sendToken t) s) s

/-- Whether a confirmation's merge into committed lines can be accepted at this instant: no operation is in flight on them (R259). -/
def State.mergeable (s : State) (n : BitVec 12) (t : BitVec 8) : Bool :=
  (nget (s.ctx n).hyps t.toNat).any (fun r => r.parent != 0)
    || s.homes.versions.all fun v => !(v.ctx == n && v.hid == t) || !s.opInFlight v.line

/-- A sweep ends: the HIDs are freed and the completion token is sent (R376, R377). -/
def State.sweepEnd (s : State) (n : BitVec 12) : State :=
  match (s.ctx n).sweep with
  | none => s
  | some w =>
    if !w.b || !(w.req.refute || s.mergeable n w.req.target) then s
    else
      let s := if w.req.refute then s.freeHids n w.ids else s.confirmEnd n w.req.target
      let s := s.modCtx n fun x => { x with sweep := none }
      s.hresToken n w.req false

def execSweepEnd (ctx : BitVec 12) (s : State) : Answer := .next (s.sweepEnd ctx)

/-! ### Reservations (R383) -/

/-- A waiting chord's reservations are obtained as far as ways are free; one whose time has passed is not obtained any more. -/
def State.reserveStep (s : State) (c slot : Nat) : State :=
  match s.chord? c slot with
  | none => s
  | some ch =>
    let r := ch.specs.foldl (fun (p : List SpecWait × State) w =>
      match (if w.since + Config.abandonCycles ≤ s.cycle then none else p.2.reserve ch.ctx w.hid w.line) with
      | some s => (p.1, s)
      | none => (p.1 ++ [w], p.2)) ([], s)
    r.2.setChord c slot { ch with specs := r.1 }

def execSpeculativeReservation (core : BitVec 8) (slot : BitVec 4) (s : State) : Answer := .next (s.reserveStep core.toNat slot.toNat)

/-- Lanes whose reservation was not obtained in time raise HYPOTHESIS_CAPACITY; the others proceed. -/
def State.capacityStep (s : State) (c slot : Nat) : State :=
  match s.chord? c slot with
  | none => s
  | some ch =>
    let late := ch.specs.filter fun w => decide (w.since + Config.abandonCycles ≤ s.cycle)
    let ch' := late.foldl (fun ch w => ch.modLane w.lane fun x => x.doomLate { cause := 0x0E, addr := w.addr } w.idx) ch
    s.setChord c slot { ch' with specs := ch.specs.filter fun w => decide (s.cycle < w.since + Config.abandonCycles) }

def execHypothesisCapacity (core : BitVec 8) (slot : BitVec 4) (s : State) : Answer := .next (s.capacityStep core.toNat slot.toNat)

end Sys2Proof.Machine
end

