-- ==== Sys2Proof/Machine/Loader.lean ====
section
/-! DEFINITION. The graph loader (R63 to R71, R141 to R143, R244 to R246, R328, R329, R335, R409): reading an image, placing
an activation, completion, and the end of an activation on the package. -/

namespace Sys2Proof.Machine

/-! ### Images (R67 to R71) -/

/-- Bytes the loader reads through a context's translation (R329, KIND 7). -/
def loaderBytes (s : State) (n : BitVec 12) (act : BitVec 16) (va len : Nat) : Except EngAccess (List Byte × State) :=
  match engAccess s { ctx := n, act, kind := 7, job := act.toNat + 2 ^ 16 * va } (va : Int) len .read with
  | .ok pl s => .ok (pl.map (engByte s), s)
  | e => .error e

/-- What the loader or the scheduler has read for a context beyond the package is used. -/
def State.readDone (s : State) (n : BitVec 12) : State := s.forget fun r => r.kind == 7 && r.ctx == n

/-- A section of an image (R68). -/
structure Section where
  typ : Nat
  count : Nat
  off : Nat
  size : Nat
deriving DecidableEq, Repr, Inhabited

def sectionAt (bs : List Byte) (i : Nat) : Section :=
  { typ := bytesAt bs (16 * i) 4, count := bytesAt bs (16 * i + 4) 4, off := bytesAt bs (16 * i + 8) 4, size := bytesAt bs (16 * i + 12) 4 }

/-- Whether two sections share a byte. -/
def Section.meets (x y : Section) : Bool := decide (x.off < y.off + y.size ∧ y.off < x.off + x.size)

/-- Whether sections break R67 or R68 in an image of a size: the block section stands first, at 0x10, the others after it,
each in bytes of its own. -/
def sectionsBroken (l : List Section) (size : Nat) : Bool :=
  let n (t : Nat) : Nat := (l.filter fun x => x.typ == t).length
  let first := 16 + ((l.filter fun x => x.typ == 1).map (·.size)).sum
  let others := l.filter fun x => x.typ != 1
  l.any (fun x => x.typ == 0 || decide (5 < x.typ) || decide (size < x.off + x.size) || x.off % 16 != 0
      || (match x.typ with
          | 1 => x.count != 0 || x.off != 16
          | 4 => x.count != 0
          | 5 => x.size != 8 * x.count
          | _ => x.size != 16 * x.count))
    || others.any (fun x => decide (x.off < first)) || !decide (others.Pairwise fun x y => x.meets y = false)
    || n 1 != 1 || n 2 != 1 || n 5 != 1 || decide (1 < n 3) || decide (1 < n 4)

/-- The constant template, or none where it breaks R69 or points outside. DESIGN CHOICE (assumption log 46): a parameter index above
255 is refused too, which R71 does not say. -/
def templateOf (bs : List Byte) (count size : Nat) : Option (List (Nat × Nat × Word)) :=
  let l := (List.range count).map fun i =>
    (bytesAt bs (16 * i) 1, bytesAt bs (16 * i + 1) 1, bytesAt bs (16 * i + 2) 6, bytesAt bs (16 * i + 8) 8)
  if l.any fun e => decide (2 < e.1) || e.2.2.1 != 0 || (e.1 == 1 && decide (size ≤ e.2.2.2)) || (e.1 == 2 && decide (255 < e.2.2.2)) then none
  else some (l.map fun e => (e.1, e.2.1, BitVec.ofNat 64 e.2.2.2))

/-- The ring plan (R65, R69). DESIGN CHOICE (assumption log 46): a ring number above 31 or a bank count of 0 is refused too, which R71
does not say. -/
def planOf (bs : List Byte) (count size : Nat) : Option (List (Nat × Nat)) :=
  let l := (List.range count).map fun i =>
    (bytesAt bs (16 * i) 1, bytesAt bs (16 * i + 1) 1, bytesAt bs (16 * i + 2) 6, bytesAt bs (16 * i + 8) 8)
  if l.any (fun e => decide (31 < e.1) || e.2.1 == 0 || decide (24 < e.2.1) || e.2.2.1 != 0 || decide (size ≤ e.2.2.2))
      || decide (20 < (l.map fun e => e.2.1).sum) || !decide ((l.map (·.1)).Nodup) then none
  else some (l.map fun e => (e.1, e.2.1))

/-- The entry table (R69): one slot for each number from 0 to the highest declared, which is at most 255 (R66). DESIGN CHOICE (assumption
log 48): an image whose entry gives a port byte above 15 is refused. -/
def entriesOf (bs : List Byte) (count size : Nat) : Option (List (BitVec 32 × BitVec 4)) :=
  let l := (List.range count).map fun i => (bytesAt bs (8 * i) 4, bytesAt bs (8 * i + 4) 1, bytesAt bs (8 * i + 5) 3)
  if decide (256 < count) || (l.getLast?.any fun e => e.1 == 0)
      || l.any (fun e => e.2.2 != 0 || decide (15 < e.2.1) || (e.1 == 0 && e.2.1 != 0) || decide (size ≤ 16 * e.1)) then none
  else some (l.map fun e => (BitVec.ofNat 32 e.1, BitVec.ofNat 4 e.2.1))

/-- An image read at its coherence points: the image, a refusal (R71), or what stops the reading. -/
inductive ImageRead
  | ok (i : Image) (s : State)
  | refused (s : State)
  | stop (e : EngAccess)
deriving DecidableEq, Repr, Inhabited

def readImage (s : State) (n : BitVec 12) (act : BitVec 16) (va : Nat) : ImageRead :=
  match loaderBytes s n act va 16 with
  | .error e => .stop e
  | .ok (h, s) =>
    let size := bytesAt h 12 4
    let cnt := bytesAt h 6 2
    let off := bytesAt h 8 4
    if bytesAt h 0 4 != 0x58475A4F || bytesAt h 4 2 != 1 || decide (size < off + 16 * cnt) || decide (off < 16) || decide (size < 16) then .refused s
    else match loaderBytes s n act va size with
      | .error e => .stop e
      | .ok (bs, s) =>
        let secs := (List.range cnt).map fun i => sectionAt (bs.drop off) i
        if sectionsBroken secs size then .refused s
        else
          let get (t : Nat) : Section := (secs.find? fun x => x.typ == t).getD { typ := t, count := 0, off := 0, size := 0 }
          let part (t : Nat) : List Byte := bs.drop (get t).off
          match templateOf (part 2) (get 2).count size, planOf (part 3) (get 3).count size, entriesOf (part 5) (get 5).count size with
          | some tmpl, some plan, some entries => .ok { ctx := n, va, size, tmpl, plan, entries } s.bump
          | _, _, _ => .refused s

/-- The constant bank of an activation (R63). DESIGN CHOICE (assumption log 46): in an image whose template sets one constant
twice, which R63 makes an assembler's error and R69 and R71 do not refuse, the last entry holds; and a parameter index at or
above the launch's number of parameter words gives 0 for a host launch too, as R141 says for LAUNCH. -/
def constBank (i : Image) (params : List Word) : List Word :=
  i.tmpl.foldl (fun l e =>
    let v : Word := match e.1 with
      | 0 => e.2.2
      | 1 => BitVec.ofNat 64 i.va + e.2.2
      | _ => wordAt params e.2.2.toNat
    lset l e.2.1 v) (List.replicate 256 0)

/-! ### Roles and placement (R244 to R246, R263, R329) -/

/-- The world a core serves (R422): a change of its bit takes effect when it is next idle. -/
def State.coreSecure (s : State) (c : Nat) : Bool := match s.holder c with
  | some n => (s.ctx n).desc.secure
  | none => s.sec.coreWorld.getLsbD c

/-- Whether `b` banks from F on are RING banks that no plan reserves. -/
def Core.banksFree (k : Core) (f b : Nat) : Bool :=
  decide (f + b ≤ 24) && (List.range b).all fun i => k.role (f + i) == 1 && k.plans.all fun p => f + i < p.first || p.first + p.banks ≤ f + i

/-- Reserves a ring plan's banks in ascending order, each entry's banks consecutive; none where they do not fit. -/
def Core.reserve (key : Nat) : List (Nat × Nat) → Core → Option Core
  | [], k => some k
  | (num, b) :: r, k => match (List.range 24).find? fun f => k.banksFree f b with
    | some f => Core.reserve key r { k with plans := k.plans ++ [{ actKey := key, num, first := f, banks := b }] }
    | none => none

/-- The roles the loader gives an idle core (R245): `ring` is the total of the image's ring plan. -/
def rolesFor (d : Desc) (ring : Nat) : BitVec 64 :=
  BitVec.ofNat 64 ((List.range 24).foldl (fun acc b =>
    let r := if b < d.frameB then 0 else if b < d.frameB + ring then 1 else if b < d.frameB + ring + d.fifoB then 3 else 2
    acc + r * 4 ^ b) 0)

/-- Whether a core meets R245 for an image of a context. -/
def State.coreMeets (s : State) (c : Nat) (d : Desc) (i : Image) : Bool :=
  let ring := (i.plan.map (·.2)).sum
  match s.holder c with
  | none => decide (d.frameB + ring + d.fifoB ≤ 24) && decide (1 ≤ d.frameB)
  | some _ => (Core.reserve 0 i.plan (s.core c)).isSome

/-- Sets an idle core's roles with the steps of R246, its accumulators being FP32 then (R283); none where a write-back must wait.
DESIGN CHOICE (assumption log 21): a plan that an activation placed there before has, with no ring bound, is no longer one of the
core's, for every bank of the new RING role is the new plan's. -/
def State.setRoles (s : State) (c : Nat) (roles : BitVec 64) : Option State :=
  let s := (s.freshAccs c).modCore c fun k => { k with plans := [] }
  if (s.core c).roles = roles then some s
  else (s.flushAll c).map fun s => s.modCore c fun k =>
    let changed := (List.range 24).filter fun b => k.role b != (roles.extractLsb' (2 * b) 2).toNat
    ({ changed.foldl (fun (k : Core) b => k.zeroSram (b * 131072) ((b + 1) * 131072)) k with roles, refused := [], fills := [] } : Core)

/-- Places an activation on the cores of its list; none where one must wait. -/
def placeCores (key : Nat) (d : Desc) (i : Image) : List Nat → State → Option State
  | [], s => some s
  | c :: r, s =>
    let ready := if (s.holder c).isNone then s.setRoles c (rolesFor d (i.plan.map (·.2)).sum) else some s
    match ready with
    | none => none
    | some s => match Core.reserve key i.plan (s.core c) with
      | none => none
      | some k => placeCores key d i r (s.setCore c k)

/-- The cores of a context's activations on the package, where its trap activation stands too (R336). -/
def State.coresOf (s : State) (n : BitVec 12) : List Nat :=
  (List.range 256).filter fun c => s.acts.any fun p => p.2.ctx == n && !p.2.trap && (s.placement p.1 s.pkg).contains c

/-! ### Messages between the loaders of an activation's packages (R182, R335; assumption log 22) -/

/-- Cores as a 256-bit mask of four words, and back. -/
def maskWords (l : List Nat) : List Word :=
  let m := l.foldl (fun m c => m ||| 2 ^ c) 0
  (List.range 4).map fun i => BitVec.ofNat 64 (m / 2 ^ (64 * i))
def maskCores (ws : List Word) : List Nat := (List.range 256).filter fun c => (wordAt ws (c / 64)).getLsbD (c % 64)

/-- Placements as words, five for each package, and back. -/
def placeWords (l : List (BitVec 12 × List Nat)) : List Word := (l.map fun p => p.1.setWidth 64 :: maskWords p.2).flatten
def placeLists (ws : List Word) : List (BitVec 12 × List Nat) :=
  (List.range (ws.length / 5)).map fun i => ((wordAt ws (5 * i)).setWidth 12, maskCores (ws.drop (5 * i + 1)))

/-! ### The trap activation's placement (R134, R336) -/

/-- The packages that the routing table names are told, where the domain admits them, which cores of this package the trap activation
stands on, each time they change (R134; assumption log 22). -/
def State.tellTrap (s : State) (n : BitVec 12) : State :=
  let cores := if (s.act? (actKey n 0xFFFF)).isSome then s.coresOf n else []
  let told (p : BitVec 12) : List Nat := (((s.ctx n).trapTold.find? fun x => x.1 == p).map (·.2)).getD []
  let known := (s.links.routes.filter fun r => decide (r.1 < 4096) && r.2.valid).map fun r => BitVec.ofNat 12 r.1
  (known.filter fun p => p != s.pkg && told p != cores).foldl (fun s p =>
    if s.admits n p then
      (s.tell p 25 n 0xFFFF (maskWords cores)).modCtx n fun x => { x with trapTold := (p, cores) :: x.trapTold.filter fun y => y.1 != p }
    else s.denyDomain n p) s

/-- Brings the trap activation's placement up to date: on each package, the cores that hold another activation of the context (R134, R336),
as the package has told, or before that those of the activations known here. DESIGN CHOICE (assumption log 48): the trap activation's
spawn counter of a core stands where it was when its placement takes the core in again, or when another trap image is set up (R138). -/
def State.placeTrap (s : State) (n : BitVec 12) : State :=
  let live := (s.acts.filter fun p => p.2.ctx == n && !p.2.trap).map (·.2)
  let told := (s.ctx n).trapAway
  let away := ((told.map (·.1) ++ (live.map (·.pkgs)).flatten.map (·.1)).filter fun p => p != s.pkg).eraseDups
  let on (p : BitVec 12) : List Nat := match told.find? fun x => x.1 == p with
    | some x => x.2
    | none => (List.range 256).filter fun c => live.any fun a => a.pkgs.any fun x => x.1 == p && x.2.contains c
  (s.modAct (actKey n 0xFFFF) fun a => { a with pkgs := (s.pkg, s.coresOf n) :: away.map fun p => (p, on p) }).tellTrap n

/-! ### Completion and failure (R142, R143, R409, R411) -/

/-- Word 0 of a completion record. -/
def recordWord (failed : Bool) (reason : Nat) (act : BitVec 16) (n : BitVec 12) : Word :=
  BitVec.ofNat 64 (1 + (if failed then 2 else 0) + reason * 256 + act.toNat * 65536 + n.toNat * 2 ^ 32)

def State.record (s : State) (addr : Word) (vec : BitVec 11) (w0 total : Word) : State :=
  { s with host := { s.host with records := s.host.records ++ [{ addr, words := [w0, total, s.links.dtime, 0], vec }] } }

/-- An activation is over: its end orders go out, and its own package will carry the order out (R335). -/
def State.beginEnd (s : State) (key : Nat) (a : Act) : State :=
  let others := if a.home.isNone && !a.trap then (a.pkgs.map (·.1)).filter fun p => p != s.pkg else []
  let s := s.setAct key { a with ending := true, awaits := others }
  others.foldl (fun s p => s.tell p 17 a.ctx a.act []) s

/-- The activation completes: its record or its token is sent (R142, R143, R409). -/
def State.completeAct (s : State) (key : Nat) (a : Act) : State :=
  let s := match a.host, a.notify, a.launcher with
    | some (addr, vec), _, _ => s.record addr vec (recordWord false 0 a.act a.ctx) (BitVec.ofNat 64 (min a.total (2 ^ 64 - 1)))
    | none, some (blk, port, tag), some l => s.engToken a.ctx l (blk.setWidth 32) port tag 8 (a.act.setWidth 64) (some a.sig)
    | none, _, _ => s
  s.beginEnd key a

/-- A credit of DONE with its release signature (R143); it goes to the package where the total is held (R182). A count of zero adds
nothing to the total, and its release is one of the activation's (R142). -/
def State.credit (s : State) (key n : Nat) (sig : Sig) : State :=
  match s.act? key with
  | none => s
  | some a =>
    if a.trap || a.ending then s
    else match a.home with
    | some p => s.sendBack p a.ctx { (default : RemoteReq) with
        what := 16, srcPkg := s.pkg, srcCore := 0xFF, id := a.act.toNat,
        data := BitVec.ofNat 1024 n ||| ((sig.setWidth 1024 : Line) <<< 128) }
    | none =>
      let a := { a with total := a.total + n, sig := a.sig ||| sig }
      if a.count ≤ a.total then s.completeAct key a else s.setAct key a

/-- A launch fails (R142, R409, R411). A host launch whose descriptor was not read has no record address. -/
def State.failLaunch (s : State) (q : LReq) (reason : BitVec 8) : State :=
  if let some p := q.from_ then s.tell p 20 q.ctx (q.num.getD 0) [reason.setWidth 64] else
  match q.host, q.notify, q.launcher with
  | some (desc, vec), _, _ =>
    if q.stage = 0 then s.event { typ := 3, sub := 3, ctx := q.ctx, words := [0, desc], byCtx := true }
    else s.record q.record vec (recordWord true reason.toNat 0 q.ctx) 0
  | none, some (blk, port, tag), some l => s.engToken q.ctx l (blk.setWidth 32) port tag 8 (1#64 <<< 63) none
  | none, _, _ => s.event { typ := 3, sub := reason, ctx := q.ctx, act := q.launcher.getD 0, words := [0, q.image], byCtx := true }

/-! ### Launches (R328, R329) -/

/-- The other packages of a launch's placement. -/
def State.elsewhere (s : State) (q : LReq) : List (BitVec 12 × List Nat) := q.placement.filter fun p => p.1 != s.pkg

/-- What other packages were asked to place of a launch that fails is ended there, and its number is kept until they say so (R335). -/
def State.callOff (s : State) (q : LReq) : State :=
  match q.num with
  | some num =>
    if q.phase = 0 then s
    else
      let others := (s.elsewhere q).map (·.1)
      let s := others.foldl (fun s p => s.tell p 17 q.ctx num []) s
      let x : Quarantine := { ctx := q.ctx, act := num, until_ := 0, awaits := others }
      { s with loader := { s.loader with quar := s.loader.quar ++ [x] } }
  | none => s

/-- A package has carried an end order out; after the last, eight epochs begin (R335). -/
def State.endAcked (s : State) (n : BitVec 12) (act : BitVec 16) (p : BitVec 12) : State :=
  let s := s.modAct (actKey n act) fun a => { a with awaits := a.awaits.filter fun x => x != p }
  { s with loader := { s.loader with quar := s.loader.quar.map fun x =>
      if x.ctx == n && x.act == act && x.awaits.contains p then
        let l := x.awaits.filter fun y => y != p
        { x with awaits := l, until_ := if l.isEmpty then s.epoch + 8 else x.until_ }
      else x } }

def State.setQueue (s : State) (l : List LReq) : State := { s with loader := { s.loader with queue := l } }
def State.setReq (s : State) (i : Nat) (q : LReq) : State := s.setQueue (lset s.loader.queue i q)
def State.dropReq (s : State) (i : Nat) : State := s.setQueue (ldrop s.loader.queue i)

/-- What a launch fails with whose reading at its stage fails (R329, R409). -/
def LReq.unread (q : LReq) : BitVec 8 := if q.stage = 2 then 1 else 3

/-- The launches that wait on a page fault which is refused fail (R329, R398, R409). -/
def State.failStopped (s : State) (hit : Option Stop → Bool) : State :=
  let gone := s.loader.queue.filter fun q => hit q.stop
  gone.foldl (fun s q => s.failLaunch q q.unread) (s.setQueue (s.loader.queue.filter fun q => !hit q.stop))

/-- What stops a launch's reading: a page fault to wait for, or a failure. -/
def State.stopLaunch (s : State) (i : Nat) (q : LReq) (e : EngAccess) : State :=
  let reason := q.unread
  match e with
  | .fault id s' => s'.setReq i { q with stop := some id }
  | .err _ denied => ((((s.denyIf denied).readDone q.ctx).dropReq i).failLaunch q reason)
  | .later s' => s'
  | _ => s

/-- The launch descriptor's fields (R328), or none where it is malformed. -/
def LReq.ofDesc (q : LReq) (bs : List Byte) : Option LReq :=
  let q' := { q with image := BitVec.ofNat 64 (bytesAt bs 0 8), entry := bytesAt bs 8 1, nparam := bytesAt bs 9 1,
                     nplace := bytesAt bs 10 2, count := bytesAt bs 12 4, paramVa := BitVec.ofNat 64 (bytesAt bs 16 8),
                     placeVa := BitVec.ofNat 64 (bytesAt bs 24 8), record := BitVec.ofNat 64 (bytesAt bs 32 8),
                     payload := BitVec.ofNat 64 (bytesAt bs 40 8), stage := 1 }
  if q'.nplace = 0 ∨ 64 < q'.nplace ∨ q'.count = 0 ∨ bytesAt bs 48 16 ≠ 0 then none else some q'

/-- A placement table (R328): packages with the cores of their masks, or none where it is malformed. DESIGN CHOICE (assumption log
22): of several entries that name one package the first counts. -/
def placementOf (bs : List Byte) (n : Nat) : Option (List (BitVec 12 × List Nat)) :=
  let l := (List.range n).map fun i => (bytesAt bs (48 * i) 2, bytesAt bs (48 * i + 2) 14, bytesAt bs (48 * i + 16) 32)
  if l.any fun e => decide (4095 < e.1) || e.2.1 != 0 then none
  else some (l.foldl (fun (acc : List (BitVec 12 × List Nat)) e =>
    if acc.any fun x => x.1.toNat == e.1 then acc
    else acc ++ [(BitVec.ofNat 12 e.1, (List.range 256).filter fun c => e.2.2.testBit c)]) [])

/-- A host launch reads its descriptor (R328). -/
def State.readDesc (s : State) (i : Nat) (q : LReq) (desc : Word) : State :=
  match loaderBytes s q.ctx 0 desc.toNat 64 with
  | .error e => s.stopLaunch i q e
  | .ok (bs, s) =>
    let r := q.ofDesc bs
    let s := s.bump.readDone q.ctx
    match (if desc.toNat % 64 = 0 then r else none) with
    | some q => s.setReq i q
    | none => (s.dropReq i).failLaunch { q with stage := 1, record := BitVec.ofNat 64 (bytesAt bs 32 8) } 3

/-- Then its parameter block and its placement table. -/
def State.readTables (s : State) (i : Nat) (q : LReq) : State :=
  match loaderBytes s q.ctx 0 q.paramVa.toNat (8 * q.nparam) with
  | .error e => s.stopLaunch i q e
  | .ok (ps, s1) => match loaderBytes s1 q.ctx 0 q.placeVa.toNat (48 * q.nplace) with
    | .error e => s.stopLaunch i q e
    | .ok (pl, s2) => match placementOf pl q.nplace with
      | none => ((s2.bump.readDone q.ctx).dropReq i).failLaunch q 3
      | some place => (s2.bump.readDone q.ctx).setReq i { q with
          stage := 2, placement := place,
          params := (List.range q.nparam).map fun k => BitVec.ofNat 64 (bytesAt ps (8 * k) 8) }

/-- Whether an image in the table is used by a live activation, or by a launch that has its number. -/
def State.imageUsed (s : State) (i : Image) : Bool :=
  s.acts.any (fun p => p.2.ctx == i.ctx && p.2.image == i.va) || s.loader.queue.any fun q => q.num.isSome && q.ctx == i.ctx && q.image.toNat == i.va

def State.loaded? (s : State) (n : BitVec 12) (va : Nat) : Option Image := s.loader.images.find? fun i => i.ctx == n && i.va == va

/-- Puts an image into the table of loaded images, in the place of a freely chosen unused one when it is full (assumption
log 11); none while every entry is in use. -/
def State.keepImage (s : State) (i : Image) : Option State :=
  if s.loader.images.length < Config.loadedImages then
    some { s with loader := { s.loader with images := s.loader.images ++ [i] } }
  else
    let l := s.loader.images.filter fun x => !s.imageUsed x
    if l.isEmpty then none
    else
      let (k, s) := s.pick l.length
      let out := (l[k]?).getD i
      some { s with loader := { s.loader with images := (s.loader.images.filter fun x => x != out) ++ [i] } }

/-- Whether an activation number may be given now (R329, R335). -/
def State.numberFree (s : State) (n : BitVec 12) (a : BitVec 16) : Bool :=
  (s.act? (actKey n a)).isNone && !(s.loader.queue.any fun q => q.ctx == n && q.num == some a)
    && !(s.loader.quar.any fun x => x.ctx == n && x.act == a && (!x.awaits.isEmpty || decide (s.epoch < x.until_)))
    && !s.tokensHeld n a

/-- The next activation number in ascending cyclic order. -/
def State.nextNumber (s : State) (n : BitVec 12) : Option (BitVec 16) :=
  let last := (s.ctx n).lastAct.toNat
  ((List.range 65534).map fun i => BitVec.ofNat 16 ((last + i) % 65534 + 1)).find? fun a => s.numberFree n a

/-- Steps 2 and 3 of R329. -/
def State.assign (s : State) (i : Nat) (q : LReq) (img : Image) : State :=
  if q.from_.isSome then s else
  match img.entries[q.entry]? with
  | none => (s.dropReq i).failLaunch q 2
  | some e =>
    if e.1 = 0 then (s.dropReq i).failLaunch q 2
    else match s.nextNumber q.ctx with
      | none => s
      | some a =>
        (s.setReq i { q with num := some a }).modCtx q.ctx fun x => { x with lastAct := a }

/-- Step 1 of R329: a loaded image, or one read now. -/
def State.readStep (s : State) (i : Nat) (q : LReq) : State :=
  match s.loaded? q.ctx q.image.toNat with
  | some img => s.assign i q img
  | none => match readImage s q.ctx 0 q.image.toNat with
    | .stop e => s.stopLaunch i q e
    | .refused s => ((s.readDone q.ctx).dropReq i).failLaunch q 1
    | .ok img s1 => match (s1.readDone q.ctx).keepImage img with
      | none => s
      | some s2 => s2.assign i q img

/-- The cores an activation takes on the own package: those of its mask, all of them, or every core that meets R245; none
while it must wait. -/
def State.ownCores (s : State) (d : Desc) (i : Image) (mask : List Nat) : Option (List Nat) :=
  let ok (c : Nat) : Bool := s.coreSecure c == d.secure && s.coreMeets c d i
  if mask.isEmpty then
    let l := (List.range 256).filter ok
    if l.isEmpty then none else some l
  else if mask.all ok then some mask else none

/-- The other packages of a placement are asked to place the activation: its image and entry, its parameters, and the mask (R182). -/
def State.askOthers (s : State) (i : Nat) (q : LReq) (num : BitVec 16) : State :=
  let ask (s : State) (p : BitVec 12 × List Nat) : State :=
    s.tell p.1 19 q.ctx num (maskWords p.2 ++ [q.image, BitVec.ofNat 64 q.entry] ++ q.params)
  (s.elsewhere q).foldl ask (s.setReq i { q with phase := 1 })

/-- Step 5 of R329: the first payload is sent (R66), and the launch request is done with. -/
def State.goStep (s : State) (i : Nat) (q : LReq) (num : BitVec 16) (e : BitVec 32 × BitVec 4) : State :=
  let key := actKey q.ctx num
  let dst := if (s.placement key s.pkg).isEmpty then ((q.placement.head?).map (·.1)).getD s.pkg else s.pkg
  (s.dropReq i).sendToken { payload := q.payload, dblock := e.1, dpkg := dst, dcore := BitVec.ofNat 8 ((s.spreadCore key dst e.1 0).getD 0),
                            ctx := q.ctx, act := num, port := e.2, spkg := s.pkg, score := 0xFF, skind := 8 }

/-- Steps 4 and 5 of R329: the activation is placed on every package of the table, and its first payload is sent. The loader of each
other package answers with the cores it takes, and knows every package's before the payload leaves (R134, R182). -/
def State.placeStep (s : State) (i : Nat) (q : LReq) (num : BitVec 16) (img : Image) : State :=
  let d := (s.ctx q.ctx).desc
  let key := actKey q.ctx num
  let own := q.placement.find? fun p => p.1 == s.pkg
  let wrong := match own with
    | some p => p.2.any fun c => s.coreSecure c != d.secure
    | none => false
  let e := (img.entries[q.entry]?).getD (0, 0)
  let others := s.elsewhere q
  if q.phase = 2 then (if q.answers.length < others.length then s else s.goStep i q num e)
  else if wrong then ((s.dropReq i).failLaunch q 3).callOff q
  else if q.from_.isSome ∧ (s.act? key).isSome then s
  else if q.phase = 0 ∧ !others.isEmpty then s.askOthers i q num
  else if q.answers.length < others.length then s
  else
    let mine : Option (List Nat) := match own with
      | some p => if (s.ctx q.ctx).st = .resident ∧ ¬(s.ctx q.ctx).restoring then s.ownCores d img p.2 else none
      | none => some []
    match mine with
    | none => s
    | some cores => match placeCores key d img cores s with
      | none => s
      | some s =>
        let pkgs := q.placement.map fun p =>
          (p.1, if p.1 = s.pkg then cores else ((q.answers.find? fun x => x.1 == p.1).map (·.2)).getD [])
        let a : Act := { ctx := q.ctx, act := num, image := img.va, size := img.size, consts := constBank img q.params, pkgs,
                         plan := img.plan, count := q.count, launcher := q.launcher, notify := q.notify,
                         host := q.host.map fun h => (q.record, h.2), entry := e, home := q.from_ }
        let s := (s.bump.setAct key a).placeTrap q.ctx
        match q.from_ with
        | some p => (s.dropReq i).tell p 20 q.ctx num (0 :: maskWords cores)
        | none =>
          if others.isEmpty then s.goStep i q num e
          else others.foldl (fun s p => s.tell p.1 21 q.ctx num (placeWords pkgs)) (s.setReq i { q with phase := 2, answers := [] })

/-- The next step of a launch request that waits on no page fault. -/
def State.launchWork (s0 : State) (i : Nat) (q : LReq) : State :=
  let s := s0.loadDesc q.ctx
  if !(s.ctx q.ctx).desc.valid then (s.dropReq i).protectionEvent 1 q.ctx s.pkg
  else match q.num, q.host with
    | some num, _ => match s.loaded? q.ctx q.image.toNat with
      | some img => s.placeStep i q num img
      | none => if q.from_.isSome then s.readStep i q else s
    | none, some (desc, _) =>
      if q.stage = 0 then s.readDesc i q desc else if q.stage = 1 then s.readTables i q else s.readStep i q
    | none, none => s.readStep i q

/-- A launch request takes its next step. -/
def State.launchStep (s : State) (i : Nat) : State :=
  match s.loader.queue[i]? with
  | none => s
  | some q => if q.stop.isSome then s else (s.launchWork i q).settleWait q.ctx

def execLaunchRequest (n : Nat) (s : State) : Answer := .next (s.launchStep n)

/-! ### The end of an activation (R269, R284, R335) -/

/-- Copies whose CPY never takes effect read as cancelled (R280). -/
def State.cancelEffs (s : State) (n : BitVec 12) (l : List (Nat × Eff)) : State :=
  l.foldl (fun s e => match e.2 with
    | .cpy cp e => s.setCopyEngine e ((s.copyEngine e).remember cp.seq n 0 4)
    | _ => s) s

/-- A voided lane gives back what it allocated and forked at execution, and its copies read as cancelled. -/
def State.giveBack (s : State) (c : Nat) (ch : Chord) (x : Lane) : State :=
  let s := s.modCore c fun k => { k with allocs := k.allocs.filter fun a => !x.frma.contains a.id }
  (s.cancelEffs ch.ctx x.effs).freeForks ch.ctx x.forks

/-- The same of a chord none of whose lanes commits. -/
def State.dropChordEffs (s : State) (ch : Chord) : State := (s.cancelEffs ch.ctx ch.effs).freeForks ch.ctx ch.forks

/-- A chord whose commit has not begun is discarded with its activation. DESIGN CHOICE (assumption log 22): the spec does not say what
becomes of a running chord at an end order, and positions that its lanes have claimed get no hole (R179). -/
def State.discardChord (s : State) (c : Nat) (ch : Chord) : State :=
  (ch.lanes.foldl (fun s x => s.giveBack c ch x.2) s).dropChordEffs ch

/-- A core without an activation's state. -/
def Core.dropAct (k : Core) (n : BitVec 12) (act : BitVec 16) : Core :=
  let key := actKey n act
  let mine (a : BitVec 12) (b : BitVec 16) : Bool := a == n && b == act
  let dead := (k.entries.filter fun e => mine e.ctx e.act).map (·.frame)
  let gone := (k.mxe.slots.filter fun p => p.2.actKey == key).map (·.1)
  let pend := (k.mxe.queue.filter fun q => q.actKey == key).map (·.acc)
  let accs := k.mxe.accs.map fun p =>
    let a := p.2
    let a := if a.owner = some key then { a.clear with owner := none } else a
    let a := match a.bind with
      | some b => if gone.contains b then { a with bind := none } else a
      | none => a
    (p.1, if pend.contains p.1 then { a with pend := false } else a)
  let head := match k.mxe.queue with
    | q :: _ => q.actKey == key
    | [] => false
  let out (c : Nat) : Bool := gone.contains c || (c == 4 && head)
  let mxe := { k.mxe with
    accs, slots := k.mxe.slots.filter fun p => p.2.actKey != key, queue := k.mxe.queue.filter fun q => q.actKey != key,
    staged := k.mxe.staged.filter fun p => !out p.cand, firing := k.mxe.firing.filter fun f => !out f.cand,
    drain := k.mxe.drain.filter fun (d : Nat × List Byte) => !gone.contains d.1,
    drainStops := k.mxe.drainStops.filter fun (d : Nat × Stop) => !gone.contains d.1,
    drainNext := k.mxe.drainNext.filter fun b => !gone.contains b }
  { k with
    entries := k.entries.filter fun e => !dead.contains e.frame
    fifo := k.fifo.filter fun w => !mine w.tok.ctx w.tok.act
    bins := k.bins.filter fun p => !mine p.2.ctx p.2.act
    binQ := k.binQ.filter fun q => !mine q.ctx q.act
    chords := k.chords.filter fun p => !mine p.2.ctx p.2.act
    allocs := k.allocs.filter fun a => !mine a.ctx a.act
    cache := k.cache.filter fun b => !mine b.ctx b.act
    refused := k.refused.filter fun b => !mine b.ctx b.act
    bfills := k.bfills.filter fun b => !mine b.ctx b.act
    spawn := ndel k.spawn key
    plans := k.plans.filter fun p => p.actKey != key
    rings := k.rings.filter fun r => r.actKey != key
    streams := k.streams.filter fun x => x.actKey != key
    mxe }

/-- A saved core without an activation's state. -/
def SavedCore.dropAct (x : SavedCore) (act : BitVec 16) : SavedCore :=
  let mine (key : Nat) : Bool := key % 65536 == act.toNat
  { x with
    entries := x.entries.filter fun e => e.act != act
    refs := x.refs.filter fun r => r.1.act != act
    allocs := x.allocs.filter fun a => a.act != act
    plans := x.plans.filter fun p => !mine p.actKey
    rings := x.rings.filter fun r => !mine r.actKey
    streams := x.streams.filter fun y => !mine y.actKey
    slots := x.slots.filter fun b => !mine b.2.actKey
    accs := x.accs.filter fun a => !a.2.owner.any mine
    spawn := x.spawn.filter fun p => !mine p.1
    refused := x.refused.filter fun b => b.act != act }

/-- The frames a saved core's state keeps. -/
def SavedCore.frames (x : SavedCore) : List Nat := x.entries.map (·.frame)

/-- The SRAM that a saved core's state takes up: the frames of its instances and allocations, and the banks its plans reserve. -/
def SavedCore.regions (x : SavedCore) (k : Core) : List (Nat × Nat) :=
  let frames := x.frames ++ (x.allocs.map fun a => (List.range a.count).map fun i => a.first + i).flatten
  (frames.map fun j => (k.frameAddr j, k.frameAddr j + 128)) ++ x.plans.map fun p => (p.first * 131072, (p.first + p.banks) * 131072)

/-- Whether a core holds a chord of an activation whose commit has begun. -/
def Core.committing (k : Core) (n : BitVec 12) (act : BitVec 16) : Bool :=
  k.chords.any fun p => p.2.ctx == n && p.2.act == act && p.2.todo.isSome

/-- What a chord that is discarded has asked for beyond the package is not used. -/
def State.dropReads (s : State) (c slot : Nat) (ch : Chord) : State :=
  s.forget fun r => r.kind == 0 && r.ctx == ch.ctx && decide (r.job < 2 ^ 80) && r.job % 2 ^ 12 == c * 16 + slot && r.job / 2 ^ 20 == ch.granted

/-- Nor is what an activation's streams, drains, fills and selections have asked for. -/
def State.dropReadsOf (s : State) (n : BitVec 12) (key : Nat) : State :=
  let owners := (s.cores.map fun p => (p.2.streams.filter fun x => x.actKey == key).map fun x => streamOwner p.1 x.actKey x.handle).flatten
  s.forget fun r => r.ctx == n && (r.kind == 2 || r.kind == 8 || (r.kind == 3 && owners.contains (r.job % 2 ^ 64))
    || (r.kind == 6 && r.job / 2 ^ 13 == key))

/-- The package discards an ended activation's state, and its spill slots are marked (R335). -/
def State.discardAct (s : State) (n : BitVec 12) (act : BitVec 16) : State :=
  let key := actKey n act
  let owners := (s.cores.map fun p => (p.2.streams.filter fun x => x.actKey == key).map fun x => streamOwner p.1 x.actKey x.handle).flatten
  let s := { s with homes := { s.homes with locks := s.homes.locks.filter fun l => !(l.kind == 1 && owners.contains l.owner) } }
  let s := s.cores.foldl (fun s p => (p.2.chords.filter fun x => x.2.ctx == n && x.2.act == act).foldl (fun s x => (s.discardChord p.1 x.2).dropReads p.1 x.1 x.2) s) s
  let lost := ((s.ctx n).saved.map fun x => (x.core, (x.frames).filter fun f => !(x.dropAct act).frames.contains f))
  let s := (nkeys s.cores).foldl (fun s c => s.modCore c fun k =>
    let gone := (lost.filter fun p => p.1 == c).map (·.2) |>.flatten
    let k' : Core := Core.dropAct k n act
    { k' with kept := k.kept.filter fun f => !gone.contains f }) s
  let s := s.mapSpill n fun t => if t.act = act then some { t with act := 0 } else none
  let s := s.modCtx n fun x => { x with
    overflow := x.overflow.filter fun t => t.act != act
    saved := x.saved.map fun y => y.dropAct act }
  let a := s.act? key
  let q : Quarantine := { ctx := n, act, until_ := s.epoch + 8, awaits := (a.map (·.awaits)).getD [], owed := a.bind (·.home) }
  let s := s.dropReadsOf n key
  let s := { s with acts := ndel s.acts key, loader := { s.loader with quar := s.loader.quar ++ [q] } }
  let s := ((s.placeTrap n).settleWait n).payAcks
  (nkeys s.cores).foldl (fun s c => (s.modCore c Core.placeQueue).examineFifo c) s

/-- An end order is carried out, once no chord of the activation is in the middle of its commit. -/
def State.endStep (s : State) (n : BitVec 12) (act : BitVec 16) : State :=
  match s.act? (actKey n act) with
  | none => s
  | some a => if a.ending && !(s.cores.any fun p => p.2.committing n act) then s.discardAct n act else s

/-- A launch whose number another package has in use takes another: what was asked under it is called off, and step 3 of R329 is taken
again (R182: one number on every package; assumption log 22). -/
def State.renumber (s : State) (i : Nat) (q : LReq) : State :=
  (s.setReq i { q with num := none, phase := 0, answers := [] }).callOff q

/-- The word by which a loader says that an activation's number is in use on its package. -/
def numberTaken : Word := 0x100

/-- A launch of another package asks for a placement (R182). Its number is taken where another activation of the context has it, or had
it and R335 keeps it, or its tokens are held here, or where an own launch has it and this package's ID is the lower; otherwise the own launch gives it up. -/
def State.placeAsked (s : State) (r : RemoteReq) (act : BitVec 16) : State :=
  let own := s.loader.queue.findIdx fun q => q.ctx == r.ctx && q.num == some act
  let rival := s.loader.queue[own]?
  let yields := match rival with
    | some q => q.from_.isNone && q.phase < 2 && decide (r.srcPkg.toNat < s.pkg.toNat)
    | none => false
  if (s.act? (actKey r.ctx act)).isSome || (s.loader.quar.any fun x => x.ctx == r.ctx && x.act == act && (!x.awaits.isEmpty || decide (s.epoch < x.until_)))
      || s.tokensHeld r.ctx act || (rival.isSome && !yields) then s.tell r.srcPkg 20 r.ctx act [numberTaken]
  else
    let s := if yields then (match rival with
      | some q => s.renumber own q
      | none => s) else s
    let q : LReq := { ctx := r.ctx, image := wordAt r.words 4, entry := (wordAt r.words 5).toNat, payload := 0, params := r.words.drop 6,
                      count := 0, launcher := none, notify := none, host := none, from_ := some r.srcPkg, num := some act,
                      placement := [(s.pkg, maskCores r.words)] }
    s.setQueue (s.loader.queue ++ [q])

/-- An end order for an activation that does not stand here is acknowledged (R335). -/
def State.ackEnd (s : State) (r : RemoteReq) (act : BitVec 16) : State :=
  let x : Quarantine := { ctx := r.ctx, act, until_ := 0, owed := some r.srcPkg }
  State.payAcks { s with loader := { s.loader with quar := s.loader.quar ++ [x] } }

/-- What a message of another package's loader does (R134, R182, R335; assumption log 22). -/
def State.loaderWork (s : State) (r : RemoteReq) (sig : Sig) : State :=
  let act := BitVec.ofNat 16 r.id
  let key := actKey r.ctx act
  let mine (q : LReq) : Bool := q.ctx == r.ctx && q.num == some act
  let i := s.loader.queue.findIdx fun q => mine q && (s.elsewhere q).any (fun p => p.1 == r.srcPkg) && q.answers.all fun p => p.1 != r.srcPkg
  match r.what with
  | 16 => s.credit key (r.data.toNat % 2 ^ 64) sig
  | 17 =>
    let s := s.setQueue (s.loader.queue.filter fun q => !(mine q && q.from_ == some r.srcPkg))
    match s.act? key with
    | some a => if a.home = some r.srcPkg then s.beginEnd key a else s.ackEnd r act
    | none => s.ackEnd r act
  | 18 => s.endAcked r.ctx act r.srcPkg
  | 19 => s.placeAsked r act
  | 20 => match s.loader.queue[i]? with
    | none => s
    | some q =>
      if q.phase ≠ 1 then s
      else if wordAt r.words 0 = 0 then s.setReq i { q with answers := q.answers ++ [(r.srcPkg, maskCores (r.words.drop 1))] }
      else if wordAt r.words 0 = numberTaken then s.renumber i q
      else ((s.dropReq i).failLaunch q ((wordAt r.words 0).setWidth 8)).callOff q
  | 21 => ((s.modAct key fun a => { a with pkgs := placeLists r.words }).placeTrap r.ctx).tell r.srcPkg 22 r.ctx act []
  | 22 => match s.loader.queue[i]? with
    | none => s
    | some q => if q.phase = 2 then s.setReq i { q with answers := q.answers ++ [(r.srcPkg, [])] } else s
  | _ => (s.modCtx r.ctx fun x => { x with trapAway := (r.srcPkg, maskCores r.words) :: x.trapAway.filter fun p => p.1 != r.srcPkg }).placeTrap r.ctx

/-- A message of another package's loader. -/
def State.loaderIn (s : State) (r : RemoteReq) (sig : Sig) : State := (s.loaderWork r sig).settleWait r.ctx

end Sys2Proof.Machine
end

