-- ==== Sys2Proof/Machine/Commit.lean ====
section
/-! DEFINITION. The commit of a chord (R132, R156, R178, R179, R204, R217, R221, R266, R342, R377, R384): what each buffered
effect does, lane by lane, the holes and the ends of lanes; and the watchdog. -/

namespace Sys2Proof.Machine

/-- The ring, slot or handle a chord effect names; the accumulator of one that names none (R339). -/
def effSubject (e : Eff) : Nat :=
  match e with
  | .rbind r _ | .runb r | .radv _ r _ | .rwait _ r _ _ | .strm _ r _ _ | .mxfire r .. => r
  | .strmc h => h
  | .mxbind x .. | .mxunb x | .mxmute x | .mxsave x .. | .mxrest x .. | .mxz x | .mxld x .. | .mxst x .. => x
  | .psel _ _ _ w => w.ring.toNat
  | _ => 0

namespace State

/-- The core's own copy of bytes written through to their home: changed, and clean (R162). -/
def writeThrough (s : State) (c pa : Nat) (bs : List Byte) : State :=
  let s := s.retag c 0 0 (lineOf pa)
  let put (x : L1Line) (p : Byte × Nat) : L1Line :=
    let i := (pa + p.2) % 128
    { x with valid := x.valid ||| (1#128 <<< i), dirty := x.dirty &&& ~~~(1#128 <<< i),
             data := (x.data &&& ~~~(0xFF#1024 <<< (8 * i))) ||| ((p.1.setWidth 1024 : Line) <<< (8 * i)) }
  s.modCore c fun k => { k with l1 := k.l1.map fun x => if x.line = lineOf pa then bs.zipIdx.foldl put x else x }

/-! ### Releases at commit (R137, R143, R167, R217, R221, R416) -/

/-- Steps 1 and 2 of R217, but for acknowledgements; none where one must wait. -/
def flushSettle (s : State) (c : Nat) : Option State := (s.flushDirty c).bind fun s => s.settle c

/-- A lazy release waits for what its scope covers, or completely where its flag is in host memory. -/
def prepLazy (s : State) (c : Nat) (sc : Scope) (p : Option Place) : Option (State × Bool) :=
  match p with
  | some (.host _) => (s.flushSettle c).map fun s => (s, true)
  | _ => if sc == .core then some (s, false) else (s.settle c).map fun s => (s, sc == .sys)

/-- Whether an atomic or update of a core on the line of a place has not been performed: of this package one that satisfies a test, or a
request to another package that does. -/
def updateOpen (s : State) (c : Nat) (here : UEnt → Bool) (away : Request → Bool) (p : Place) : Bool :=
  match p with
  | .home pa _ _ =>
    let l := lineOf pa
    let sl := s.slice (homeSlice l)
    let hit (u : UEnt) : Bool := lineOf u.pa == l && u.core == c && u.remote.isNone && u.reply.isNone && here u
    sl.inq.any hit || sl.window.any hit || sl.ops.any (fun o => o.2.batch.any hit) || (s.core c).homeQ.any fun op => match op with
      | .upd u => hit u
      | _ => false
  | .remote pkg .. => s.reqs.any fun q => q.pkg == some pkg && away q
  | _ => false

/-- Whether a posted atomic of a core that releases, on the line of a place, has not been performed: it may yet be refused and sent again
(R221), and an update with .ord comes after it (R169). -/
def releaseOpen (s : State) (c : Nat) (p : Place) : Bool :=
  s.updateOpen c (fun u => u.sync.ord == .rel || u.sync.ord == .ar) (fun q => q.line == placeLine p && match q.again with
    | some r => r.srcCore == BitVec.ofNat 8 c && r.what == 2
    | none => false) p

/-- Whether something that a core has sent to the line of a place is still on its way: a read that is ordered after it waits (R299). -/
def sentOpen (s : State) (c : Nat) (p : Place) : Bool :=
  s.updateOpen c (fun _ => true) (fun q => match q.what with
    | .ack k line => k == c && line == placeLine p
    | .upd k line _ => k == c && some line == placeLine p
    | _ => false) p

/-- The state in which an effect may be performed, and whether the acknowledgements outstanding are waited for too. -/
def prepare (s : State) (c : Nat) (n : BitVec 12) (act : BitVec 16) (ks : List Word) (e : Eff) : Option (State × Bool) :=
  let full : Option (State × Bool) := (s.flushSettle c).map fun s => (s, true)
  let mx (busy : Bool) (pl : List Place) (s : State) : Option (State × Bool) :=
    if busy then none else (s.clearOwn c pl).map fun s => (s, false)
  let m := (s.core c).mxe
  let reads := s.mxReads c n ks e
  let inUse (slot : Nat) : Bool := m.firing.any (fun f => f.cand == slot) || m.drainStops.any (fun d => d.1 == slot) || m.drainNext.contains slot
    || match m.drain with
    | some d => d.1 == slot
    | none => false
  match e with
  | .send _ true => full
  | .launch _ => full
  | .credit _ => full
  | .sym (.symc ..) _ _ => full
  | .sym (.symp ..) _ _ => full
  | .psel .. => full
  | .strm .. => full
  | .strmc h => match (s.core c).namedStream (actKey n act) h with
    | some x => if s.streamOut c x then none else some (s, false)
    | none => some (s, false)
  | .storeRel bs sc => s.prepLazy c sc (bs.head?.map (·.1))
  | .atomPost p u =>
    let r := if u.sync.ord == .rel || u.sync.ord == .ar then s.prepLazy c u.sync.scope (some p) else some (s, false)
    r.bind fun x => (x.1.clearOwn c [p]).map fun s => (s, x.2)
  | .upd p u => if u.ord && s.releaseOpen c p then none else (s.clearOwn c [p]).map fun s => (s, false)
  | .fence sc => (s.complete c sc).map fun s => (s, sc == .sys)
  | .mxld .. => mx (reads.any (s.sentOpen c)) reads s
  | .mxst acc addr w _ els =>
    let tile := if w.dkind then [] else (s.mxElems c n els (epiStores ks w (m.acc acc) [] addr)).map (·.1)
    mx (reads.any (s.sentOpen c)) (reads ++ tile) s
  | .mxsave slot addr pl =>
    let muting := match nget m.slots slot with
      | some b => b.muting
      | none => false
    let fmt := match nget m.slots slot with
      | some b => (m.acc b.acc).fmt
      | none => .fp32
    mx (inUse slot || muting) (s.mxPlaces c n pl addr.toNat (saveLen fmt)) s
  | .mxunb slot => if inUse slot then none else some (s, false)
  | .mxfire .. => if Config.fireQueue ≤ m.queue.length then none else some (s, false)
  | .cpy .. => full
  | _ => some (s, false)

/-! ### Flag writes that leave at commit (R162, R221) -/

/-- A flag write leaves (R162, R221). -/
def leaveFlag (s : State) (c : Nat) (n : BitVec 12) (bs : List (Place × Byte)) (sc : Scope) : State :=
  match bs with
  | (.home pa cached slot, _) :: _ =>
    let data := bs.map (·.2)
    let s := s.writeThrough c pa data
    s.modCore c fun k => { k with homeQ := k.homeQ ++ [.flag pa slot (wordOfBytes data) cached (sc != .core)] }
  | (.remote pkg pa key sec, _) :: _ =>
    let (id, s) := s.newId
    let q : RemoteReq := { (default : RemoteReq) with
      what := if sc == .core then 1 else 8, srcPkg := s.pkg, srcCore := BitVec.ofNat 8 c, ctx := n, id, pa, len := bs.length, key, sec,
      data := BitVec.ofNat 1024 (natOfBytes (bs.map (·.2))) }
    (s.modCore c fun k => { k with acks := k.acks ++ [id] }).sendAccess pkg c q (.ack c (some (lineOf pa)))
  | _ => s.corePut c n bs

/-! ### Chord effects at commit (R266, R357) -/

/-- Whether a selection's ring still takes it. -/
def pselBreach (s : State) (c key : Nat) (w : SelWord) : Bool :=
  match (s.core c).boundRing key w.ring.toNat with
  | .error _ => true
  | .ok r => r.prod != .program || r.free == 0 || !(r.desc.fmt == 1 || r.desc.fmt == 10) || r.desc.shape || r.desc.scaled

/-- A chord effect that fails at its commit is dropped, and the trap graph is told. -/
def dropWith (s : State) (c : Nat) (ch : Chord) (x : Lane) (idx : Nat) (t : Trap) : State :=
  s.sendTrap c ch.ctx 0 ch.trapblk (t.record ch.act x.tag ch.dblock 0 idx false)

/-- One that no longer passes its check. -/
def dropEffect (s : State) (c : Nat) (ch : Chord) (x : Lane) (idx : Nat) (e : Eff) : State := s.dropWith c ch x idx (trapProt 0x49 0 (effSubject e))

/-- What the matrix engine reads for a chord effect at its commit: the effect with what was read, a wait for what lies beyond the package,
or the trap of a read that fails (R238, R299, R302, R343). DESIGN CHOICE (assumption log 46): such a trap drops the effect, and its record
goes to the trap graph as that of an effect which no longer passes its check does (R266). -/
def mxSeek (s : State) (c : Nat) (ch : Chord) (idx : Nat) (e : Eff) : Sought × Who :=
  let pl := s.mxReads c ch.ctx (s.consts ch) e
  let who : Who := { core := some c, die := dieOf c, ctx := ch.ctx, act := ch.act, job := 2 ^ 80 + c + 2 ^ 12 * idx + 2 ^ 20 * ch.granted }
  let addr : Word := match e with
    | .mxld _ a _ => a
    | .mxst _ _ w _ _ => biasAddr (s.consts ch) w
    | _ => 0
  if pl.isEmpty || (effBreach (s.core c) ch.key (s.consts ch) e).isSome then (.got [], who)
  else match s.seek who pl with
    | .got gl => (if gl.any (engPoison s) then .fails (trapEcc addr 0) else .got gl, who)
    | .fails t => (.fails { t with addr }, who)
    | .later s => (.later s, who)

/-- The bounding range of a comparator's window, registered under a request's number (R349, R350). -/
def lockWindow (s : State) (n : BitVec 12) (id : Nat) (dest : Bool) (t : TileLoc) : State :=
  match t.parts with
  | [] => s
  | p :: r =>
    let lo : Int := r.foldl (fun m q => min m q.1) p.1
    let hi : Int := r.foldl (fun m q => max m (q.1 + (q.2 : Nat))) (p.1 + (p.2 : Nat))
    let l : Lock := { ctx := n, lo := lo.toNat, hi := hi.toNat, dest, kind := 2, owner := 0xFD + 256 * id }
    { s with homes := { s.homes with locks := s.homes.locks ++ [l] } }

/-- A request goes to the sympathy comparator (R347, R349, R350). Its instruction ran under h0 in every lane it is made for (R344), so
its tokens are under h0, whatever the lane has forked since (R353). -/
def askSym (s : State) (c : Nat) (ch : Chord) (lanes : List (BitVec 32 × BitVec 8)) (k : SymKind) (handle flops : Word) : State :=
  let (id, s) := s.newId
  let q : SymReq := { id, core := c, ctx := ch.ctx, act := ch.act, lanes := lanes.map fun l => (l.1, 0), handle, step := (s.ctx ch.ctx).step, flops, kind := k }
  let s := match k with
    | .symc .. => s
    | .symp _ a b => (s.lockWindow ch.ctx id false a).lockWindow ch.ctx id false b
    | .symr _ d => s.lockWindow ch.ctx id true d
  { s with eng := { s.eng with syms := s.eng.syms ++ [q] } }

/-! ### Performing an effect -/

/-- A token leaves, or stays at the core while its HID is being resolved (R384). -/
def leaveToken (s : State) (c : Nat) (t : Token) : State :=
  if s.hypState t.ctx t.hid = 2 then s.modCore c fun k => { k with heldHyp := k.heldHyp ++ [t] } else s.sendToken t

/-- An effect on a ring or a unit, checked once more against what it names. -/
def performRing (s : State) (c : Nat) (ch : Chord) (x : Lane) (idx : Nat) (e : Eff) : State :=
  match effBreach (s.core c) ch.key (s.consts ch) e with
  | some _ => s.dropEffect c ch x idx e
  | none => s.chordEffect c ch.ctx ch.act (s.consts ch) x.tag x.hid e

/-- What becomes of the line of this core that holds an address (R172). -/
def performCctl (s : State) (c : Nat) (op : CctlOp) (pa : Nat) : State :=
  match (s.core c).l1.find? fun l => l.line == lineOf pa && l.hid == 0 with
  | none => s
  | some l => match op with
    | .wb => s.writeBackLine c l
    | .inv => s.dropLine c l.line
    | .wbinv => s.flushLine c l.line

/-- A selection begins: its ring's PROD is the stream engines' from then on (R357). -/
def performPsel (s : State) (c : Nat) (ch : Chord) (x : Lane) (idx : Nat) (list query : Word) (k : Nat) (w : SelWord) : State :=
  if s.pselBreach c ch.key w then s.dropEffect c ch x idx (.psel list query k w)
  else
    let s := s.modCore c fun y => y.modRing ch.key w.ring.toNat fun r => { r with prod := .stream }
    let j : PselJob := { core := c, ctx := ch.ctx, act := ch.act, tag := x.tag, list, query, k, w }
    { s with eng := { s.eng with psels := s.eng.psels ++ [j] } }

/-- Performs one effect of a lane, or of the chord on behalf of its lowest committing lane. `lanes` are those a comparator's
outcome goes to. -/
def performEff (s : State) (c : Nat) (ch : Chord) (x : Lane) (lanes : List (BitVec 32 × BitVec 8)) (idx : Nat) (e : Eff) : State :=
  let n := ch.ctx
  match e with
  | .store h bs => s.commitStore c n h bs
  | .storeRel bs sc => s.leaveFlag c n bs sc
  | .atomPost p u => s.leaveUpdate c p u
  | .upd p u => s.leaveUpdate c p u
  | .send t rel => s.leaveToken c (if rel then { t with relf := true, tail := (s.core c).rs } else t)
  | .launch q =>
    let q := { q with sig := (s.core c).rs, placement := [(s.pkg, s.placement ch.key s.pkg)] }
    { s with loader := { s.loader with queue := s.loader.queue ++ [q] } }
  | .credit k => s.credit ch.key k (s.core c).rs
  | .tret cc j => (s.tretParked cc j).examineFifo cc
  | .kill cc j => (s.killParked cc j).examineFifo cc
  | .cctl op pa => s.performCctl c op pa
  | .bcinv start len =>
    let out (m : BitVec 12) (va size : Nat) : Bool :=
      decide (2 ^ 64 ≤ len) || (m == n && decide (0 < len) && decide (va < start + len) && decide (start < va + size))
    s.modCore c fun k => { k with cache := k.cache.filter fun b => !out b.ctx b.va (16 + 8 * b.words.length),
                                  refused := k.refused.filter fun b => !out b.ctx b.va b.len }
  | .frmf cc id => (s.modCore cc fun k => { k with allocs := k.allocs.filter fun a => a.id != id }).examineFifo cc
  | .fence _ => s
  | .rput ring slot el code => match (s.core c).ring? ch.key ring with
    | none => s
    | some r => s.modCore c fun k => k.setElem r slot el (code.toNat % 2 ^ r.desc.width)
  | .cpy cp e => s.lockCopy e cp
  | .cpyc h => s.cancelCopy n h
  | .strmc h => s.cancelStream c ch.key h
  | .sym k handle flops => s.askSym c ch lanes k handle flops
  | .syms => s.modCtx n fun y => { y with step := y.step + 1 }
  | .hres q =>
    let q := { q with tag := x.tag }
    if s.hypState n q.hid = 2 then s.modCore c fun k => { k with heldRes := k.heldRes ++ [q] }
    else s.modCtx n fun y => { y with hypQ := y.hypQ ++ [q] }
  | .hnote h v => s.note n h v
  | .psel list query k w => s.performPsel c ch x idx list query k w
  | .rbind .. => s.performRing c ch x idx e
  | .runb .. => s.performRing c ch x idx e
  | .radv .. => s.performRing c ch x idx e
  | .rwait .. => s.performRing c ch x idx e
  | .strm .. => s.performRing c ch x idx e
  | .mxbind .. => s.performRing c ch x idx e
  | .mxunb .. => s.performRing c ch x idx e
  | .mxfire .. => s.performRing c ch x idx e
  | .mxz .. => s.performRing c ch x idx e
  | .mxld .. => s.performRing c ch x idx e
  | .mxst .. => s.performRing c ch x idx e
  | .mxmute .. => s.performRing c ch x idx e
  | .mxsave .. => s.performRing c ch x idx e
  | .mxrest .. => s.performRing c ch x idx e

/-! ### The ends of lanes (R174, R178, R179, R196, R204, R353, R374, R377) -/

/-- A lane that committed: its instance's entry and frame are freed. -/
def finishLane (s : State) (c : Nat) (x : Lane) : State :=
  let s := s.modCore c fun k => k.freeEntry x.frame
  s.examineFifo c

/-- A refuted lane commits nothing and is counted (R377, R385). -/
def orphanLane (s : State) (c : Nat) (ch : Chord) (x : Lane) : State :=
  let s := (s.giveBack c ch x).modCore c fun k => k.freeEntry x.frame
  (s.modCtx ch.ctx fun y => { y with orphans := y.orphans + 1 }).examineFifo c

end State

/-! ### A commit (R204) -/

/-- What becomes of a lane: it commits, is voided, or is an orphan. -/
inductive Fate | commits | voided | orphan
deriving DecidableEq, Repr, Inhabited

def fateOf (s : State) (ch : Chord) (x : Lane) : Fate :=
  if s.hypState ch.ctx x.hid = 3 then .orphan else if x.doom.isSome then .voided else .commits

/-- The lowest lane that commits. -/
def leadLane (s : State) (ch : Chord) : Option Nat :=
  (ch.lanes.find? fun p => fateOf s ch p.2 == .commits).map (·.1)

/-- What one lane's commit consists of, in order of index (R132, R156); the lowest one performs the chord's effects too. -/
def laneActs (s : State) (ch : Chord) (l : Nat) (x : Lane) : List CommitAct :=
  match fateOf s ch x with
  | .orphan => x.claims.map (.hole l) ++ [.orphan l]
  | .voided => x.claims.map (.hole l) ++ [.park l]
  | .commits =>
    let mine : List (Nat × CommitAct) := x.effs.map fun e => (e.1, .eff l e.1 e.2 false)
    let els : List (Nat × CommitAct) := x.claims.map fun k => (k.idx, .elem l k)
    let all : List (Nat × CommitAct) := if leadLane s ch = some l then ch.effs.map fun e => (e.1, .eff (32 + l) e.1 e.2 false) else []
    (sortBy (·.1) (mine ++ els ++ all)).map (·.2) ++ [.finish l]

/-- The whole of a chord's commit. A SYMPATH block's chord adds the lanes it commits to PATHLANES, once (R374). -/
def commitPlan (s : State) (ch : Chord) : List CommitAct :=
  let n := (ch.lanes.filter fun p => fateOf s ch p.2 == .commits).length
  let path := match ch.img with
    | some (h, _) => h.sympath && n != 0
    | none => false
  (ch.lanes.map fun p => laneActs s ch p.1 p.2).flatten ++ if path then [.path n] else []

namespace State

/-- What an effect of a lane has sent elsewhere keeps the record of the trap that the home's refusal raises (R423). -/
def noteRefusal (s : State) (from_ : Nat) (ch : Chord) (x : Lane) (idx : Nat) : State :=
  let r : TrapRec × Bool := ((trapProt 0x72 0).record ch.act x.tag ch.dblock x.hid idx x.atomf, ch.trapblk)
  { s with reqs := s.reqs.map fun q => if from_ ≤ q.id then { q with refusal := some r } else q }

/-- Takes one act of a commit: none where it must wait; otherwise the state, and what is to be done before the rest. -/
def commitAct (s : State) (c : Nat) (ch : Chord) (a : CommitAct) : Option (State × List CommitAct) :=
  let lane (l : Nat) : Lane := (nget ch.lanes l).getD { tag := 0, hid := 0, hid0 := 0, frame := 0, ports := [] }
  match a with
  | .await ids => if ids.any fun i => (s.core c).owed.contains i then none else some (s, [])
  | .queueCopy e cp => (s.queueCopy e cp).map fun s => (s, [])
  | .eff l idx e waited =>
    let x := lane (l % 32)
    let lanes := if l < 32 then [(x.tag, x.hid)]
      else (ch.lanes.filter fun p => ch.commits.contains p.1).map fun p => (p.2.tag, p.2.hid)
    match s.prepare c ch.ctx ch.act (s.consts ch) e with
    | none => none
    | some (s1, acks) =>
      if acks && !waited && !(s1.core c).owed.isEmpty then some (s1, [.await (s1.core c).owed, .eff l idx e true])
      else match s1.mxSeek c ch idx e with
        | (.later s2, _) => some (s2, [.eff l idx e waited])
        | (.fails t, who) => some ((s1.forgetJob who).dropWith c ch x idx t, [])
        | (.got pl, who) =>
          let s2 := (if pl.isEmpty then s1 else (s1.forgetJob who).enterPlaces pl).performEff c ch x lanes idx (if pl.isEmpty then e else e.withReads pl)
          some (s2.noteRefusal s1.flow.nextId ch x idx, match e with
            | .cpy cp eng => [.queueCopy eng { cp with tag := x.tag }]
            | _ => [])
  | .elem l k => some ((s.commitStore c ch.ctx 0 (k.elem.zip k.data ++ k.offs.zip k.off)).noteRefusal s.flow.nextId ch (lane l) k.idx, [])
  | .hole _ k => some (s.hole c ch.ctx k, [])
  | .finish l => some (s.finishLane c (lane l), [])
  | .orphan l => some (s.orphanLane c ch (lane l), [])
  | .path k =>
    let w : Who := { core := some c, die := dieOf c, ctx := ch.ctx, act := ch.act }
    if !s.countsOpen w .pathlanes 0 8 then none else some ((s.symCount w .pathlanes 0 (BitVec.ofNat 64 k)).logPath ch.ctx c ch.act k, [])
  | .park l =>
    let x := lane l
    let (t, idx) := x.doom.getD ({ cause := 0 }, 0xFF)
    some (((s.giveBack c ch x).parkLane c ch x t idx ch.trapblk).examineFifo c, [])

end State

/-- Whether every instruction of a chord has completed in every lane. -/
def Chord.done (ch : Chord) : Bool :=
  match ch.img with
  | some (_, ws) => decide (ws.length ≤ ch.pc) && ch.waits.isEmpty && ch.specs.isEmpty
  | none => false

/-- The chord with every lane doomed by a trap, its waits abandoned. -/
def Chord.abandon (ch : Chord) (t : Trap) : Chord :=
  let ch := { ch with waits := [], specs := [], claimQ := none }
  (nkeys ch.lanes).foldl (fun ch l => ch.modLane l fun x => x.doomBy t ch.pc) ch

/-- Takes the acts of a commit as far as they go. -/
def commitRun (c : Nat) (ch : Chord) : List CommitAct → State → List CommitAct × State
  | [], s => ([], s)
  | a :: r, s => match s.commitAct c ch a with
    | none => (a :: r, s)
    | some (s, []) => commitRun c ch r s
    | some (s, b :: bs) => (b :: bs ++ r, s)

namespace State

/-- Carries a commit on; the slot is freed once nothing is left of it. -/
def commitOn (s : State) (c slot : Nat) (ch : Chord) (todo : List CommitAct) : State :=
  match commitRun c ch todo s with
  | ([], s) => s.delChord c slot
  | (rest, s) => s.modChord c slot fun x => { x with todo := some rest }

/-- A commit begins: fates are decided, once for the whole commit (R377), and the chord's effects and children are dropped where none of its lanes commits (R266, R353). -/
def commitBegin (s : State) (c slot : Nat) (ch : Chord) : State :=
  let plan := commitPlan s ch
  let ch := { ch with commits := (ch.lanes.filter fun p => fateOf s ch p.2 == .commits).map (·.1) }
  let s := if (leadLane s ch).isNone then s.dropChordEffs ch else s
  (s.modChord c slot fun x => { x with todo := some plan, commits := ch.commits }).commitOn c slot ch plan

/-- A chord that has run to its end commits (R204), or a commit that had to wait goes on. -/
def commitStep (s : State) (c slot : Nat) : State :=
  match s.chord? c slot with
  | none => s
  | some ch => match ch.todo with
    | some todo => s.commitOn c slot ch todo
    | none => if ch.done then s.commitBegin c slot ch else s

/-- The watchdog (R342): not while the context's bins are stopped for a pre-emption. -/
def watchdogStep (s : State) (c slot : Nat) : State :=
  match s.chord? c slot with
  | none => s
  | some ch =>
    let x := s.ctx ch.ctx
    let held := s.cycle - ch.granted
    if x.fires && ch.todo.isNone && x.desc.wdog != 0 && decide (x.desc.wdog * Config.slice64k ≤ held) then
      let t : Trap := { cause := 0x14, aux := BitVec.ofNat 63 (held % 2 ^ 32) }
      if ch.img.isNone then s.voidChord c slot t false
      else
        let ch := ch.abandon t
        (s.setChord c slot ch).commitBegin c slot ch
    else s

end State

def execChordCommit (core : BitVec 8) (slot : BitVec 4) (s : State) : Answer := .next (s.commitStep core.toNat slot.toNat)
def execWatchdog (core : BitVec 8) (slot : BitVec 4) (s : State) : Answer := .next (s.watchdogStep core.toNat slot.toNat)

end Sys2Proof.Machine
end

