-- ==== Sys2Proof/Machine/Owner.lean ====
section
/-! DEFINITION. Ownership of the registers (R417 to R419, R426): which master may write, and what becomes of a write that it
may not make. -/

namespace Sys2Proof.Machine

/-- The value of OWNER that stands for a master; 0 for a peer that is not the designated one. -/
def Master.code (s : State) : Master → BitVec 2
  | .host => 1
  | .bmc => 2
  | .peer p => if p = s.host.peerPkg ∧ p ≠ 0xFFF then 3 else 0

namespace State

/-- Whether a master is the owner. -/
def owned (s : State) (m : Master) : Bool := s.host.owner != 0 && s.host.owner == Master.code s m

/-- A write refused because its master is not the owner is counted (R419). -/
def refuseWrite (s : State) : State :=
  { s with host := { s.host with nownWr := if s.host.nownWr = 0xFFFFFFFF then s.host.nownWr else s.host.nownWr + 1 } }

/-- Whether the registers respond: not before the boot has completed (R426). -/
def registersLive (s : State) : Bool := s.booted

/-- A register write by a master: none before the boot has completed, refused unless the master is the owner. -/
def ownerWrite (s : State) (m : Master) (f : State → State) : State :=
  if !s.registersLive then s else if s.owned m then f s else s.refuseWrite

end State
end Sys2Proof.Machine
end

