-- ==== Sys2Proof/Machine/Sched.lean ====
section
/-! DEFINITION. The scheduler (R311, R312, R325 to R336, R363 to R365): residency, pre-emption step by step, restore, the trap
activation, and the context commands. -/

namespace Sys2Proof.Machine

/-! ### Sympathy classes (R363 to R365) -/

/-- Whether bytes from an address on translate to resident memory of the package. -/
def State.onOwnPages (s : State) (n : BitVec 12) (va len : Nat) : Bool :=
  (State.pageStarts va len).all fun a => match s.vplace n a with
    | some (.home ..) => true
    | _ => false

/-- The header of the sympathy table: REGION, SLOTL and NSLOTS, or none where it breaks R363. -/
def State.symHeader (s : State) (n : BitVec 12) (tab : Nat) : Option (Word × Nat × Nat) :=
  if tab % 64 ≠ 0 ∨ !s.onOwnPages n tab 2048 then none
  else
    let region := s.vword n tab
    let w := s.vword n (tab + 8)
    if region.toNat % 4096 ≠ 0 ∨ bits w 3 5 ≠ 0 ∨ bits w 40 24 ≠ 0 ∨ 6 < (bits w 0 3).toNat ∨ (List.range 6).any (fun i => s.vword n (tab + 16 + 8 * i) != 0)
    then none else some (region, (bits w 0 3).toNat, (bits w 8 32).toNat)

/-- The bytes of a class's directory and of its slots. -/
def SymClass.areas (x : SymClass) (slotL : Nat) (region : Word) : List (Nat × Nat) :=
  [(x.dir.toNat, 128 * 2 ^ x.setl), (region.toNat + x.first * 2 ^ (9 + slotL), 2 ^ x.setl * (x.ways + 1) * 2 ^ (9 + slotL))]

/-- A class descriptor (R364): whether EN is 1, and the class unless it breaks the rules that concern it alone, but for the pages. -/
def State.symDescriptor (s : State) (n : BitVec 12) (tab c slots : Nat) : Bool × Option SymClass :=
  let at_ := tab + 0x40 + 32 * c
  let w0 := s.vword n at_
  let w1 := s.vword n (at_ + 8)
  let w2 := s.vword n (at_ + 16)
  let w3 := s.vword n (at_ + 24)
  let x : SymClass := { cls := c, maxAge := (bits w0 8 8).toNat, ways := (bits w0 16 3).toNat, keep := (bits w0 20 3).toNat,
                        setl := (bits w0 24 5).toNat, first := (bits w1 0 31).toNat, dir := w2 }
  let len := 2 ^ x.setl * (x.ways + 1)
  let clean := bits w0 1 7 == 0 && !w0.getLsbD 19 && !w0.getLsbD 23 && bits w0 29 35 == 0 && bits w1 31 33 == 0 && w3 == 0
    && decide (x.setl ≤ 24) && w2.toNat % 128 == 0
  let fits := x.maxAge != 0 && decide (x.keep ≤ x.ways) && decide (x.first + len ≤ slots) && decide (x.first + len ≤ 2 ^ 31)
  (w0.getLsbD 0, if clean && fits then some x else none)

/-- Whether two classes' ranges of entries overlap. -/
def SymClass.overlaps (a b : SymClass) : Bool :=
  decide (a.first < b.first + 2 ^ b.setl * (b.ways + 1)) && decide (b.first < a.first + 2 ^ a.setl * (a.ways + 1))

/-- The scheduler reads the sympathy table; each class disabled while EN is 1 brings one event (R365). SYMTAB 0 names no table (R344), and
of a table whose header is broken EN is read where its byte is there. -/
def State.readSyms (s : State) (n : BitVec 12) (tab : Nat) : State :=
  let off (s : State) (c : Nat) : State := s.event { typ := 7, sub := 0, ctx := n, words := [BitVec.ofNat 64 c], byCtx := true }
  if tab = 0 then s.modCtx n fun x => { x with syms := [] }
  else match s.symHeader n tab with
  | none =>
    let s := (if tab % 64 = 0 then s.denyPages n tab 2048 else s).modCtx n fun x => { x with syms := [] }
    (List.range 16).foldl (fun (s : State) c =>
      if s.onOwnPages n (tab + 0x40 + 32 * c) 1 && (s.vword n (tab + 0x40 + 32 * c)).getLsbD 0 then off s c else s) s
  | some (region, slotL, slots) =>
    let r := (List.range 16).foldl (fun (p : State × List SymClass) c =>
      match s.symDescriptor n tab c slots with
      | (false, _) => p
      | (true, none) => (off p.1 c, p.2)
      | (true, some x) =>
        let areas := x.areas slotL region
        if !areas.all (fun r => s.onOwnPages n r.1 r.2) then (off (areas.foldl (fun t r => t.denyPages n r.1 r.2) p.1) c, p.2)
        else if p.2.any x.overlaps then (off p.1 c, p.2) else (p.1, p.2 ++ [x])) (s, [])
    r.1.modCtx n fun x => { x with syms := r.2, region, slotL }

/-! ### Runnable contexts (R330) -/

namespace State

/-- The contexts the package knows. -/
def knownCtxs (s : State) : List (BitVec 12) := (nkeys s.ctxs).map (BitVec.ofNat 12 ·)

/-- The descriptor the scheduler decides by: an absent context's as the table holds it. -/
def schedDesc (s : State) (n : BitVec 12) : Desc :=
  let x := s.ctx n
  if x.st = .absent then s.tableDesc n else x.desc

/-- A context that waits to be made resident. One saved by CTX_CMD PREEMPT waits for the periodic decision that follows its
save; periodic decisions fall on multiples of 65,536 cycles (assumption log 2). -/
def runnable (s : State) (n : BitVec 12) : Bool :=
  let x := s.ctx n
  (x.st == .absent || x.st == .saved) && s.ctxRegs.cmd != some n && (s.schedDesc n).valid && s.hasWork n
    && (!x.parked || decide (x.since / Config.slice64k < s.cycle / Config.slice64k))

def resident (s : State) : List (BitVec 12) := s.knownCtxs.filter fun n => (s.ctx n).st == .resident

/-- Contexts that hold a slot: resident or leaving. -/
def slotsTaken (s : State) : Nat := (s.knownCtxs.filter fun n => (s.ctx n).st == .resident || (s.ctx n).st == .leaving).length

/-- Whether a pre-emption is decided or under way. -/
def leaving (s : State) : Bool := s.knownCtxs.any fun n => (s.ctx n).st == .leaving

end State

/-- The first element that is best by a test of precedence. -/
def bestBy {α : Type} (before : α → α → Bool) (l : List α) : Option α :=
  l.foldl (fun b x => match b with
    | none => some x
    | some y => if before x y then some x else some y) none

namespace State

/-- The runnable context of the highest PRIO; of those, the one runnable longest. -/
def nextCtx (s : State) : Option (BitVec 12) :=
  let since (n : BitVec 12) : Nat := let w := (s.ctx n).waitSince
                                     if w = 0 then s.cycle else w
  bestBy (fun a b => decide ((s.schedDesc b).prio < (s.schedDesc a).prio)
    || ((s.schedDesc b).prio == (s.schedDesc a).prio && decide (since a < since b))) (s.knownCtxs.filter s.runnable)

/-- Begins a pre-emption: its steps follow. -/
def beginLeave (s : State) (n : BitVec 12) : State := s.modCtx n fun x => { x with st := .leaving, phase := 0 }

/-! ### Grants (R325, R330, R336, R365, R436) -/

/-- Whether a descriptor breaks R325, with the pages it needs on this package. -/
def descBroken (s : State) (n : BitVec 12) : Bool :=
  let d := s.tableDesc n
  let s := s.modCtx n fun x => { x with desc := d }
  s.tableBroken n || !s.onOwnPages n d.spill.toNat 1 || !s.onOwnPages n d.save.toNat 1 || !s.onOwnPages n (d.save.toNat + 2 ^ 30 - 1) 1

/-- Whether a grant finds a spill table that the owner has enlarged in place. -/
def enlarged (s : State) (n : BitVec 12) (d : Desc) : Bool :=
  let x := s.ctx n
  d.spill == x.desc.spill && decide (x.desc.spillN < d.spillN)

/-- The slots of a spill table whose data is uncorrectable, by number. -/
def badSlots (s : State) (n : BitVec 12) : List Nat :=
  let x := s.ctx n
  ((List.range (x.spillTail - x.spillHead)).map (x.spillHead + ·)).filter (s.slotBad n)

/-- What R423 refuses of the pages that a descriptor must name is counted (R421). -/
def denyDesc (s : State) (n : BitVec 12) : State :=
  let d := s.tableDesc n
  let t := s.modCtx n fun x => { x with desc := d }
  s.denyIf ([(d.spill.toNat, 1), (d.save.toNat, 1), (d.save.toNat + 2 ^ 30 - 1, 1)].any fun r => t.breachAt { ctx := n } r.1 r.2)

/-- A spill table that the owner has enlarged in place is laid out by its new number of slots: token i stands in slot i modulo that
number, and takes the tokens that the agent holds (R195, R341; assumption log 20). The token of a slot whose data is uncorrectable is lost,
and its slot empty (R343). -/
def relaySpill (s : State) (n : BitVec 12) (d : Desc) : State :=
  let x := s.ctx n
  let bad := s.badSlots n
  let ws := (List.range (x.spillTail - x.spillHead)).map fun i =>
    (x.spillHead + i, if bad.contains (x.spillHead + i) then List.replicate 8 0 else s.spillWords n (x.spillHead + i))
  let grown := s.enlarged n d
  let s := s.modCtx n fun y => { y with desc := d }
  if grown
  then refillSpill n x.overflow.length (ws.foldl (fun s p => s.aput n (s.spillSlot n p.1) (p.2.map bytesOfWord).flatten) s)
  else s

/-- What DBG_CTL asks for begins for a context that becomes resident, once for each change of it (R436). -/
def beginDebug (s : State) (n : BitVec 12) : State :=
  let d := s.dbg
  if !d.fresh || d.ctx != n then s
  else if d.mode = 1 ∨ d.mode = 2 then
    let d := if d.active.isEmpty then { d with recHead := 0, nextAt := [], pos := 0, taken := [] } else d
    { s with dbg := { d with fresh := false, active := d.active ++ [(n, d.mode)] } }
  else { s with dbg := { d with fresh := false } }

/-- A context is granted a slot: its descriptor and sympathy table are read, and recording or replay begins for it. A
descriptor that breaks R325 stops the context. -/
def grantSlot (s : State) (n : BitVec 12) : State :=
  let d := s.tableDesc n
  if s.descBroken n then (s.denyDesc n).modCtx n fun x => { x with st := .stopped, desc := d }
  else
    let lost := if s.enlarged n d then s.badSlots n else []
    let s := (s.relaySpill n d).modCtx n fun x => { x with
      st := .resident, desc := d, restoring := true, since := s.cycle, idleSince := s.cycle, waitSince := 0, parked := false }
    (lost.foldl (fun s _ => s.escalate n 6 {}) (s.readSyms n d.symtab.toNat)).beginDebug n

/-- Notes since when each runnable context has waited; one whose work is gone, or whose descriptor is not valid, waits no longer. -/
def noteWaiting (s : State) : State :=
  let gone := s.knownCtxs.filter fun n => (!s.hasWork n || !(s.schedDesc n).valid) && decide ((s.ctx n).waitSince ≠ 0)
  let s := (s.knownCtxs.filter s.runnable).foldl (fun s n => s.modCtx n fun x =>
    if x.waitSince = 0 then { x with waitSince := s.cycle } else x) s
  gone.foldl (fun s n => s.modCtx n fun x => { x with waitSince := 0 }) s

/-- A resident context that has been idle for 65,536 cycles. -/
def idleCtx (s : State) : Option (BitVec 12) :=
  s.resident.find? fun n => !(s.ctx n).restoring && !(s.cores.any fun p => p.2.holds n)
    && decide ((s.ctx n).idleSince + Config.slice64k ≤ s.cycle)

/-- The resident context that a waiting one displaces: the lowest PRIO, of those the one resident longest; or one whose slice
has passed. -/
def displaced (s : State) (x : BitVec 12) : Option (BitVec 12) :=
  let prio (n : BitVec 12) : Nat := (s.ctx n).desc.prio
  let since (n : BitVec 12) : Nat := (s.ctx n).since
  let px := (s.schedDesc x).prio
  match bestBy (fun a b => decide (prio a < prio b) || (prio a == prio b && decide (since a < since b))) (s.resident.filter fun n => decide (prio n < px)) with
  | some n => some n
  | none => bestBy (fun a b => decide (since a < since b)) (s.resident.filter fun n =>
      let q := (s.ctx n).desc.quantum
      q != 0 && decide (since n + q * Config.slice64k ≤ s.cycle) && decide (prio n ≤ px))

/-- The scheduler's decision (R330). No context becomes resident while the package has no ID (R241). -/
def decideStep (s : State) : State :=
  let s := s.noteWaiting
  match s.nextCtx with
  | none => s
  | some x =>
    let s := match (if s.leaving then none else s.idleCtx) with
      | some n => s.beginLeave n
      | none => s
    if s.slotsTaken < Config.residentContexts then (if s.links.pkgValid then s.grantSlot x else s)
    else if s.leaving then s
    else match s.displaced x with
      | some n => s.beginLeave n
      | none => s

/-! ### Pre-emption (R311, R312, R331 to R333) -/

/-- Step 1: the context's bins stop being firable. One context is pre-empted at a time. -/
def preemptStep (s : State) (n : BitVec 12) : State :=
  let x := s.ctx n
  if x.st = .leaving ∧ x.phase = 0 ∧ !(s.knownCtxs.any fun m => (s.ctx m).st == .leaving && (s.ctx m).phase != 0) then
    s.modCtx n fun x => { x with phase := 1, phaseAt := s.cycle }
  else s

/-- An abandoned lane: voided without a trap, its instance back in its bin with its ready time (R332). -/
def abandonLane (s : State) (c : Nat) (ch : Chord) (x : Lane) : State :=
  let s := x.claims.foldl (fun s k => s.hole c ch.ctx k) s
  if s.hypState ch.ctx x.hid = 3 then s.orphanLane c ch x
  else (s.giveBack c ch x).modCore c fun k => match k.entry? x.frame with
    | none => k
    | some e => (k.modEntry x.frame fun e => { e with state := .ready }).placeRef
        { ctx := e.ctx, act := e.act, dblock := e.dblock, ref := { frame := x.frame, readyAt := e.readyAt }, hdr := e.hdr }

/-- A chord that has not begun to commit 16,384 cycles after step 1 began is abandoned (R331, R332). -/
def abandonStep (s : State) (c slot : Nat) : State :=
  match s.chord? c slot with
  | none => s
  | some ch =>
    let x := s.ctx ch.ctx
    if x.st == .leaving && x.phase == 1 && ch.todo.isNone && decide (x.phaseAt + Config.abandonCycles ≤ s.cycle) then
      let s := ch.lanes.foldl (fun s l => s.abandonLane c ch l.2) s
      (((s.dropChordEffs ch).dropReads c slot ch).delChord c slot).examineFifo c
    else s

/-- Whether a core has finished step 2: no chord of the context is left. -/
def chordsGone (s : State) (n : BitVec 12) : Bool := s.cores.all fun p => p.2.chords.all fun c => c.2.ctx != n

/-- A stream stops at a tile boundary (R312): a tile that is being written counts if its writes are all accepted, and is otherwise written
again, in full. -/
def stopStream (s : State) (c : Nat) (x : Stream) : State :=
  if !x.wrote then s
  else if s.streamOut c x then s.modCore c fun k => k.modStream x.actKey x.handle fun y => { y with wrote := false }
  else match (s.core c).ring? x.actKey x.ring with
    | some r => s.popTile c x r
    | none => s

/-- Step 3 begins: streams stop, and bindings are muted. -/
def muteCtx (s : State) (n : BitVec 12) : State :=
  let s := (nkeys s.cores).foldl (fun s c => ((s.core c).streams.filter fun x => x.ctx == n).foldl (fun s x => s.stopStream c x) s) s
  (nkeys s.cores).foldl (fun s c => s.modCore c fun k =>
    (List.range 4).foldl (fun k i => match nget k.mxe.slots i with
      | some b => if b.actKey / 65536 = n.toNat then k.startMute i true else k
      | none => k) k) s

/-- Step 3 has ended: every mute has passed, no MXFIRE step is left, and no sweep is under way. -/
def quiet (s : State) (n : BitVec 12) : Bool :=
  let mine (key : Nat) : Bool := key / 65536 == n.toNat
  (s.ctx n).sweep.isNone && s.cores.all fun p =>
    let m := p.2.mxe
    m.slots.all (fun b => !(mine b.2.actKey && b.2.muting)) && m.queue.all (fun q => !mine q.actKey)

/-- Step 4: a core's waiting tokens of the context go to the spill table, in FIFO order. -/
def spillCore (s : State) (n : BitVec 12) (c : Nat) : State :=
  let k := s.core c
  let out := k.fifo.filter fun w => w.tok.ctx == n
  let fills := (k.bfills.filter fun f => f.ctx == n).map (·.toks) |>.flatten
  let s := s.modCore c fun k => { k with fifo := k.fifo.filter fun w => w.tok.ctx != n, bfills := k.bfills.filter fun f => f.ctx != n }
  let s := out.foldl (fun s w => s.divert w.tok w.hdr) s
  fills.foldl (fun s t => s.divert t default) s

/-- The cores of a context: those of its activations, and any that hold state of it. -/
def ctxCores (s : State) (n : BitVec 12) : List Nat :=
  (List.range 256).filter fun c => (s.coresOf n).contains c || (s.core c).holds n || (s.core c).allocs.any fun a => a.ctx == n

/-- A core's block is written whole, under the key of the region that holds each line (R424); every byte of it that only the restore reads is
open from now on (assumption log 13). -/
def openBlock (s : State) (n : BitVec 12) (c occasion : Nat) : State :=
  (List.range 1024).foldl (fun s i =>
    let va := (s.ctx n).desc.save.toNat + 2 ^ 22 * c + 4096 * i
    let s := s.aput n va (List.replicate 4096 0)
    match s.vplace n va with
    | some (.home pa _ _) =>
      { s with homes := { s.homes with
          opens := cutOpens s.homes.opens pa (pa + 4096) ++ [{ lo := pa, hi := pa + 4096, occasion, off := 4096 * i }] } }
    | _ => s) s

/-- The bytes of a core's block that R333 lays out, by offset: the binding save areas, and on the lowest core that holds state of it the
step number and the trap counter. -/
def fixedBytes (s : State) (n : BitVec 12) (c : Nat) (lowest : Bool) : List (Nat × List Byte) :=
  let m := (s.core c).mxe
  let areas := (m.slots.filter fun b => b.2.actKey / 65536 == n.toNat).map fun b => (0x3F0000 + 0x2040 * b.1, saveBytes b.2 (m.acc b.2.acc))
  areas ++ if lowest then [(0x3FF000, bytesOfNat 8 (s.ctx n).step.toNat ++ bytesOfNat 8 (s.ctx n).trapCtr.toNat)] else []

/-- Bytes of a save block after which its CRC stands. -/
def crcAt : Nat := 0x3FFFFC

/-- CRC-32 of IEEE 802.3 (R333). -/
def crc32 (bs : List Byte) : BitVec 32 :=
  ~~~ bs.foldl (fun (c : BitVec 32) b => (List.range 8).foldl (fun (c : BitVec 32) _ =>
    if c.getLsbD 0 then (c >>> 1) ^^^ 0xEDB88320#32 else c >>> 1) (c ^^^ b.setWidth 32)) 0xFFFFFFFF#32

/-- A core's save block as memory holds it, without its CRC. -/
def blockBytes (s : State) (n : BitVec 12) (c : Nat) : List Byte := s.abytes n ((s.ctx n).desc.save.toNat + 2 ^ 22 * c) crcAt

/-- Step 5 on one core: its state is saved, instances and references are taken off it, and its block is written with its CRC. -/
def saveCore (s : State) (n : BitVec 12) (c : Nat) (lowest : Bool) : State :=
  let k := s.core c
  let mine (q : BitVec 12) : Bool := q == n
  let inBins : List QRef := ((k.bins.filter fun b => mine b.2.ctx).map fun b => b.2.refs.map fun r =>
    { ctx := b.2.ctx, act := b.2.act, dblock := b.2.dblock, ref := r, hdr := b.2.hdr : QRef }).flatten
  let refs := inBins ++ k.binQ.filter fun q => mine q.ctx
  let entries := k.entries.filter fun e => mine e.ctx
  let occasion := s.flow.freeCtr
  let fixed := s.fixedBytes n c lowest
  let key (a : Nat) : Bool := a / 65536 == n.toNat
  let x : SavedCore := {
    core := c, entries, refs := refs.map fun q => (q, s.cycle - q.ref.readyAt), fixed, occasion
    allocs := k.allocs.filter fun a => mine a.ctx
    plans := k.plans.filter fun p => key p.actKey
    rings := k.rings.filter fun r => key r.actKey
    streams := k.streams.filter fun y => mine y.ctx
    slots := k.mxe.slots.filter fun b => key b.2.actKey
    accs := k.mxe.accs.filter fun a => a.2.owner.any key
    spawn := k.spawn.filter fun p => key p.1
    refused := k.refused.filter fun b => mine b.ctx }
  let inside (a : Nat) : Bool := (x.regions k).any fun r => decide (r.1 ≤ a ∧ a < r.2)
  let x := { x with cells := k.sram.filter fun p => inside p.1, bad := k.bad.filter inside }
  let s := s.modCore c fun k => Core.placeQueue
    { k with entries := k.entries.filter fun e => !mine e.ctx, bins := k.bins.filter fun b => !mine b.2.ctx,
             binQ := k.binQ.filter fun q => !mine q.ctx, kept := k.kept ++ entries.map (·.frame) }
  let s := s.openBlock n c occasion
  let base := (s.ctx n).desc.save.toNat + 2 ^ 22 * c
  let s := fixed.foldl (fun s f => s.aput n (base + f.1) f.2) s
  let s := s.aput n (base + crcAt) (bytesOfNat 4 (crc32 (s.blockBytes n c)).toNat)
  (s.modCtx n fun y => { y with saved := y.saved ++ [x] }).bump

/-- Whether every page of the blocks to be written is resident. -/
def saveReady (s : State) (n : BitVec 12) (l : List Nat) : Bool :=
  l.all fun c => s.onOwnPages n ((s.ctx n).desc.save.toNat + 2 ^ 22 * c) (2 ^ 22)

/-- The lowest core on which a context holds state, of some (R333); of cores that hold none the lowest. -/
def lowestCore (s : State) (n : BitVec 12) (l : List Nat) : Option Nat := (l.find? fun c => (s.core c).keeps n).or l.head?

/-- Step 5: dirty lines are written back, and each core writes its state; none where a write-back must wait. A save area that is
not resident escalates (R341, reason 5). -/
def saveCtx (s : State) (n : BitVec 12) : Option State :=
  let l := s.ctxCores n
  match l.foldl (fun (acc : Option State) c => acc.bind fun s => s.flushDirty c) (some s) with
  | none => none
  | some s =>
    let s := if s.saveReady n l then s else s.escalate n 5 {}
    let s := s.modCtx n fun x => { x with saved := [] }
    let low := s.lowestCore n l
    let s := s.forget fun r => r.ctx == n && (r.kind == 2 || r.kind == 3 || r.kind == 8)
    let s := l.foldl (fun s c => s.saveCore n c (low == some c)) s
    some (l.foldl (fun s c => s.examineFifo c) s)

/-- Steps 2 to 5 of R331, each as soon as the one before it has ended. -/
def saveStep (s : State) (n : BitVec 12) : State :=
  let x := s.ctx n
  let phase (s : State) (p : Nat) : State := s.modCtx n fun x => { x with phase := p }
  if x.st ≠ .leaving then s
  else if x.restoring then (if x.phase = 1 then phase s 5 else s)
  else match x.phase with
    | 1 => if s.chordsGone n then phase (s.muteCtx n) 3 else s
    | 3 => if s.quiet n then phase ((nkeys s.cores).foldl (fun s c => s.spillCore n c) s) 4 else s
    | 4 => match s.saveCtx n with
      | some s => phase s 5
      | none => s
    | _ => s

/-- The command that a context's PREEMPT, STOP or END was has run. -/
def commandDone (s : State) (n : BitVec 12) : State :=
  if s.ctxRegs.cmd = some n then { s with ctxRegs := { s.ctxRegs with busy := false, cmd := none } } else s

/-- Recording or replay of a context ends when it leaves the package (R436). -/
def endDebug (s : State) (n : BitVec 12) : State :=
  { s with dbg := { s.dbg with active := s.dbg.active.filter fun p => p.1 != n } }

/-- Step 6: the slot is freed, and the context is saved, or stopped (R327). -/
def savedStep (s : State) (n : BitVec 12) : State :=
  let x := s.ctx n
  if x.st = .leaving ∧ x.phase = 5 then
    let s := s.modCtx n fun x => { x with
      st := if x.toStop then .stopped else .saved, phase := 0, since := s.cycle, parked := x.byCmd, byCmd := false, toStop := false,
      restoring := false, waitSince := 0 }
    let s := s.modCtx n fun x => { x with waitSince := if s.hasWork n then s.cycle else 0 }
    (s.commandDone n).endDebug n
  else s

end State

/-! ### The trap activation (R336) -/

/-- What becomes of a trap activation's set-up. -/
inductive TrapSetup
  | ready (s : State)
  | waits (s : State)
  | fails (s : State)
deriving DecidableEq, Repr, Inhabited

namespace State

/-- What stops the set-up's reading: a page fault to wait for, unless that was refused; else it fails. -/
def trapBlocked (s : State) (n : BitVec 12) (e : EngAccess) : TrapSetup :=
  match e with
  | .fault stop s' => if (s.ctx n).trapRefused then .fails s else .waits (s'.modCtx n fun x => { x with trapStop := some stop })
  | .wait => .waits s
  | .later s' => .waits s'
  | .err _ denied => .fails (s.denyIf denied)
  | .ok .. => .fails s

/-- Sets the trap activation of a context up. One that was saved with the context stands as it was, unless the descriptor names another
image, entry or parameter block since (R326). -/
def setUpTrap (s : State) (n : BitVec 12) : TrapSetup :=
  let d := (s.ctx n).desc
  let key := actKey n 0xFFFF
  let from_ := some (d.timage, d.tentry, d.tparam)
  if d.timage = 0 then .ready ({ s with acts := ndel s.acts key }.modCtx n fun x => { x with trapFrom := none })
  else if (s.act? key).isSome ∧ (s.ctx n).trapFrom = from_ then .ready (s.placeTrap n)
  else match readImage s n 0xFFFF d.timage.toNat with
    | .stop e => s.trapBlocked n e
    | .refused s1 => .fails s1
    | .ok img s1 =>
      let params := img.tmpl.foldl (fun m e => if e.1 = 2 then max m (e.2.2.toNat + 1) else m) 0
      match img.entries[d.tentry]?, loaderBytes s1 n 0xFFFF d.tparam.toNat (8 * params) with
      | none, _ => .fails s1
      | some _, .error e => s1.trapBlocked n e
      | some e, .ok (bs, s2) =>
        if e.1 = 0 ∨ !img.plan.isEmpty then .fails s2
        else
          let ps := (List.range params).map fun i => BitVec.ofNat 64 (bytesAt bs (8 * i) 8)
          let a : Act := { ctx := n, act := 0xFFFF, image := img.va, size := img.size, consts := constBank img ps, pkgs := [],
                           plan := [], entry := e, trap := true }
          .ready ((((s2.bump.readDone n).setAct key a).modCtx n fun x => { x with trapFrom := from_ }).placeTrap n)

/-! ### Restore (R311, R312, R334, R389, R390) -/

/-- The byte a restore expects at an offset of a block. -/
def savedByte (x : SavedCore) (off : Nat) : Byte :=
  match x.fixed.find? fun f => decide (f.1 ≤ off) && decide (off < f.1 + f.2.length) with
  | some f => (f.2[off - f.1]?).getD 0
  | none => openByte x.occasion off

/-- Whether a line of a block is uncorrectable (R343). -/
def blockBad (s : State) (n : BitVec 12) (base : Nat) : Bool :=
  (List.range (2 ^ 22 / 128)).any fun i => match s.vplace n (base + 128 * i) with
    | some p => engPoison s p
    | none => false

/-- Whether a block can be read and its CRC matches (R334, R343). -/
def blockGood (s : State) (n : BitVec 12) (x : SavedCore) : Bool :=
  let base := (s.ctx n).desc.save.toNat + 2 ^ 22 * x.core
  s.onOwnPages n base (2 ^ 22) && !s.blockBad n base && natOfBytes (s.abytes n (base + crcAt) 4) == (crc32 (s.blockBytes n x.core)).toNat

/-- Whether the bytes of a block that R333 does not lay out are as the pre-emption wrote them. -/
def imageSame (s : State) (n : BitVec 12) (x : SavedCore) : Bool :=
  let given (off : Nat) : Bool := x.fixed.any fun f => decide (f.1 ≤ off ∧ off < f.1 + f.2.length)
  (s.blockBytes n x.core).zipIdx.all fun b => given b.2 || b.1 == savedByte x b.2

/-- A core's SRAM takes its saved bytes back. Where a block was changed under a CRC that matches, what its image of them then says is
open, and they are free values (assumption log 20). -/
def restoreSram (same : Bool) (occasion : Nat) (x : SavedCore) (k : Core) : Core :=
  (x.regions k).foldl (fun k r =>
    let k := k.zeroSram r.1 r.2
    if same then
      let k := (x.cells.filter fun p => decide (r.1 ≤ p.1 ∧ p.1 < r.2)).foldl (fun (k : Core) p => { k with sram := mput k.sram p.1 p.2 }) k
      { k with bad := k.bad ++ x.bad.filter fun a => decide (r.1 ≤ a ∧ a < r.2) }
    else k.putSram r.1 ((List.range (r.2 - r.1)).map fun i => Config.freeByte (occasion * 2 ^ 32 + r.1 + i))) k

/-- Rings, bindings with their accumulators as the save areas hold them, and streams go back (R311). -/
def restoreEngines (areas : Nat → List Byte) (x : SavedCore) (k : Core) : Core :=
  let slots := x.slots.map fun p =>
    let v := MxSave.ofBytes (areas p.1)
    (p.1, { p.2 with w := v.w, a := v.a, b := v.b, acc := v.acc, sat := v.sat, otiles := v.otiles, k0 := v.k0, tag := v.tag })
  let accs := x.accs.map fun p => match x.slots.find? fun b => b.2.acc == p.1 with
    | some b =>
      let v := (MxSave.ofBytes (areas b.1)).val
      (p.1, { p.2 with elems := v.elems, fmt := v.fmt, kt := v.kt, vr := v.vr, vc := v.vc, live := v.live, full := v.full })
    | none => p
  let rings := x.rings.map fun r => (r.actKey, r.num)
  let streams := x.streams.map fun y => (y.actKey, y.handle)
  { k with
    rings := (k.rings.filter fun r => !rings.contains (r.actKey, r.num)) ++ x.rings
    streams := (k.streams.filter fun y => !streams.contains (y.actKey, y.handle)) ++ x.streams
    spawn := x.spawn.foldl (fun m p => nput m p.1 p.2) k.spawn
    refused := (k.refused.filter fun b => !x.refused.contains b) ++ x.refused
    allocs := (k.allocs.filter fun a => !x.allocs.contains a) ++ x.allocs
    mxe := { k.mxe with slots := slots.foldl (fun m p => nput m p.1 p.2) k.mxe.slots, accs := accs.foldl (fun m p => nput m p.1 p.2) k.mxe.accs } }

/-- A core takes its saved state back; bin references take up the time they had waited. -/
def restoreCore (s : State) (n : BitVec 12) (x : SavedCore) : State :=
  let at_ (w : Nat) : Nat := s.cycle - w
  let times := x.refs.map fun r => (r.1.ref.frame, at_ r.2)
  let base := (s.ctx n).desc.save.toNat + 2 ^ 22 * x.core
  let areas (i : Nat) : List Byte := s.abytes n (base + 0x3F0000 + 0x2040 * i) 0x2040
  let same := s.imageSame n x
  let s := s.modCore x.core fun k =>
    let entries := x.entries.map fun e => match times.find? fun t => t.1 == e.frame with
      | some t => { e with readyAt := t.2 }
      | none => e
    let frames := x.entries.map (·.frame)
    let k := restoreEngines areas x (restoreSram same s.flow.freeCtr x k)
    let k := { k with entries := k.entries ++ entries, kept := k.kept.filter fun f => !frames.contains f }
    x.refs.foldl (fun (k : Core) (r : QRef × Nat) =>
      k.placeRef { r.1 with ref := { r.1.ref with readyAt := at_ r.2 } }) k
  s.bump

/-- The step number and the trap counter go back, from the block that they were saved in (R333). -/
def restoreCounters (s : State) (n : BitVec 12) : State :=
  match (s.ctx n).saved.find? fun x => x.fixed.any fun f => f.1 == 0x3FF000 with
  | none => s
  | some x =>
    let at_ := (s.ctx n).desc.save.toNat + 2 ^ 22 * x.core + 0x3FF000
    let step := BitVec.ofNat 32 (natOfBytes (s.abytes n at_ 8))
    let trapCtr := BitVec.ofNat 32 (natOfBytes (s.abytes n (at_ + 8) 8))
    s.modCtx n fun y => { y with step, trapCtr }

/-- Bindings go back to the state recorded before the scheduler's mute. -/
def unmuteCtx (s : State) (n : BitVec 12) : State :=
  (nkeys s.cores).foldl (fun s c => s.modCore c fun k =>
    { k with mxe := { k.mxe with slots := k.mxe.slots.map fun b =>
        if b.2.actKey / 65536 = n.toNat then match b.2.sched with
          | some st => (b.1, { b.2 with state := st, sched := none })
          | none => b
        else b } }) s

/-! ### A fault's resume and refusal (R386, R389, R398) -/

/-- Whether something waits under a fault. -/
def hitStop (id : BitVec 32) (x : Option Stop) : Bool := (x.map Stop.id) == some id

/-- The package's engines and agents that stopped under a fault go on. -/
def resumeEngines (s : State) (n : BitVec 12) (id : BitVec 32) : State :=
  let go (x : Option Stop) : Option Stop := if hitStop id x then none else x
  let eng := { s.eng with
    copies := s.eng.copies.map fun p => (p.1, { p.2 with running := p.2.running.map fun (c : Copy) => { c with stop := go c.stop } })
    syms := s.eng.syms.map fun q => { q with stop := go q.stop }
    psels := s.eng.psels.map fun j => { j with stop := go j.stop } }
  let loader := { s.loader with queue := s.loader.queue.map fun q => { q with stop := go q.stop } }
  { s with eng, loader }.modCtx n fun x => { x with trapStop := go x.trapStop }

/-- Closes a fault. -/
def closeFault (s : State) (id : BitVec 32) : State :=
  { s with xlt := { s.xlt with faults := s.xlt.faults.filter fun f => f.id != id } }

/-- Frees what waits under a fault on one core: parked instances return to their bins in the order in which they were parked,
streams run on and block fills are made again. `only` names the context. -/
def resumeCore (s : State) (n : BitVec 12) (id : BitVec 32) (c : Nat) : State :=
  let hit (x : Option Stop) : Bool := (x.map Stop.id) == some id
  let frames := ((s.core c).entries.filter fun e => e.ctx == n && match e.state with
    | .parked f _ _ => hit f
    | _ => false).map (·.frame)
  let s := frames.foldl (fun s j => s.returnParked c j) s
  let s := s.modCore c fun k => { k with
    streams := k.streams.map fun x => match x.state with
      | .paused f => if x.ctx = n ∧ f.id = id then { x with state := .running } else x
      | _ => x
    bfills := k.bfills.map fun f => if f.ctx = n ∧ hit f.stop then { f with stop := none } else f
    mxe := { k.mxe with drainStops := k.mxe.drainStops.filter fun (d : Nat × Stop) => d.2.id != id,
                        drainNext := k.mxe.drainNext ++ (k.mxe.drainStops.filter fun (d : Nat × Stop) => d.2.id == id).map (·.1) } }
  s.examineFifo c

/-- The instances, streams and fills of a context that wait under a fault go on (R389). -/
def resumeCores (s : State) (n : BitVec 12) (id : BitVec 32) : State :=
  (nkeys s.cores).foldl (fun s c => s.resumeCore n id c) s

/-- Whether the instances of a context are on its cores, so that a resume acts at once (R390). -/
def here (s : State) (n : BitVec 12) : Bool :=
  let x := s.ctx n
  !x.restoring && (x.st == .resident || (x.st == .leaving && decide (x.phase < 5)))

/-- A restore that fails stops the context, once its event has room (R412); nothing of it has been brought back. -/
def refuseRestore (s : State) (n : BitVec 12) (reason : BitVec 8) (r : TrapRec) : State :=
  if s.evFull then s
  else ((s.escalate n reason r).modCtx n fun x => { x with st := .stopped, restoring := false, toStop := false, phase := 0, since := s.cycle }).endDebug n

/-- The faults whose resume was accepted while the context was away are closed, and engines go on (R390). -/
def resumeAway (s : State) (n : BitVec 12) : State := (s.ctx n).resumes.foldl (fun s id => (s.closeFault id).resumeEngines n id) s

/-- A context that has been granted a slot is restored: its blocks are checked, its trap activation is set up, its cores take
their state back, and resumes accepted while it was away take effect (R334, R336, R390). -/
def restoreStep (s : State) (n : BitVec 12) : State :=
  let x := s.ctx n
  let s1 := s.resumeAway n
  if x.st ≠ .resident ∨ !x.restoring then s
  else if !(x.saved.all fun y => s.blockGood n y) then
    (x.saved.foldl (fun s y => s.denyPages n (x.desc.save.toNat + 2 ^ 22 * y.core) (2 ^ 22)) s).refuseRestore n 5 { cause := 0x11 }
  else if (s1.ctx n).trapStop.isSome then s1
  else match s1.setUpTrap n with
    | .waits s => s
    | .fails s => (s.readDone n).refuseRestore n 1 {}
    | .ready s =>
      let s := x.saved.foldl (fun s y => s.restoreCore n y) s
      let s := (s.restoreCounters n).unmuteCtx n
      let s := s.modCtx n fun x => { x with restoring := false, saved := [], resumes := [], idleSince := s.cycle, trapRefused := false }
      x.resumes.foldl (fun s id => s.resumeCores n id) s

/-! ### Commands (R326, R327, R378) -/

/-- A write of CTX_CMD: ignored while BUSY. -/
def ctxCommand (s : State) (m : Master) (f : State → State) : State :=
  s.ownerWrite m fun s => if s.ctxRegs.busy then s else f { s with ctxRegs := { s.ctxRegs with err := 0 } }

/-- A command that the context's state does not allow. -/
def wrongState (s : State) : State := { s with ctxRegs := { s.ctxRegs with err := 2 } }

/-- A command that runs on. -/
def runCommand (s : State) (n : BitVec 12) : State := { s with ctxRegs := { s.ctxRegs with busy := true, cmd := some n } }

def cmdPreempt (s : State) (n : BitVec 12) : State :=
  if (s.ctx n).st = .resident then ((s.beginLeave n).modCtx n fun x => { x with byCmd := true }).runCommand n else s.wrongState

def cmdStop (s : State) (n : BitVec 12) : State :=
  match (s.ctx n).st with
  | .resident => (s.stopCtx n).runCommand n
  | .leaving => (s.stopCtx n).runCommand n
  | .saved => s.stopCtx n
  | .absent => s.wrongState
  | .stopped => s.wrongState

def cmdResume (s : State) (n : BitVec 12) : State :=
  if (s.ctx n).st = .stopped then s.modCtx n fun x => { x with st := .saved, parked := false, waitSince := if s.hasWork n then s.cycle else 0 } else s.wrongState

/-- RELOAD: the descriptor is read again, and with it the sympathy table; a broken one stops the context. -/
def cmdReload (s : State) (n : BitVec 12) : State :=
  let st := (s.ctx n).st
  if st = .saved ∨ st = .stopped then
    if s.descBroken n then { (s.denyDesc n).stopCtx n with ctxRegs := { s.ctxRegs with err := 1 } }
    else s.readSyms n (s.tableDesc n).symtab.toNat
  else s.wrongState

/-- The launches of a context that is ended fail, those of the host with FREASON 4. -/
def endLaunches (s : State) (n : BitVec 12) : State :=
  let l := s.loader.queue.filter fun q => q.ctx == n
  let s := s.setQueue (s.loader.queue.filter fun q => q.ctx != n)
  (l.filter fun q => q.phase != 2 && (q.host.isSome || q.from_.isSome)).foldl (fun s q => (s.failLaunch q 4).callOff q) s

/-- An activation is ended before its completion; one that the host launched is reported with FREASON 4. -/
def endAct (s : State) (key : Nat) (a : Act) : State :=
  if a.ending then s
  else
    let s := match a.host with
      | some (addr, vec) => s.record addr vec (recordWord true 4 0 a.ctx) (BitVec.ofNat 64 (min a.total (2 ^ 64 - 1)))
      | none => s
    s.beginEnd key a

/-- The last of an ended context's activations is gone: faults whose resume was accepted are closed, and the context is absent, with nothing left of it but what the next one
to use its number finds (R327). -/
def endCtx (s : State) (n : BitVec 12) : State :=
  if s.acts.any fun p => p.2.ctx == n then s
  else (((((s.resumeAway n).readDone n).discardHids n ((s.ctx n).hyps.map fun p => BitVec.ofNat 8 p.1)).modCtx n fun x => { lastAct := x.lastAct, discards := x.discards, trapAway := x.trapAway, trapTold := x.trapTold : Ctx }).commandDone n).endDebug n

/-- END: every hypothesis is refuted, so that no lane under one commits, and every activation is ended. What stands under the
hypotheses is discarded, and their records become free, with the last activation (R378). -/
def cmdEnd (s : State) (n : BitVec 12) : State :=
  let s := s.modCtx n fun x => { x with
    hyps := x.hyps.map fun p => (p.1, { p.2 with state := 3 }), hypQ := [], sweep := none,
    st := .absent, restoring := false, phase := 0, toStop := false, byCmd := false }
  let s := s.endLaunches n
  let s := (s.acts.filter fun p => p.2.ctx == n).foldl (fun s p => s.endAct p.1 p.2) s
  (s.runCommand n).endCtx n

/-- An end order is carried out; with the last of an ended context's activations the END command has run (R326, R335). -/
def endOrderStep (s : State) (n : BitVec 12) (act : BitVec 16) : State :=
  let s := s.endStep n act
  if s.ctxRegs.cmd = some n ∧ (s.ctx n).st = .absent then s.endCtx n else s

end State

def execResidencyDecision (s : State) : Answer := .next s.decideStep
def execPreemptBegin (ctx : BitVec 12) (s : State) : Answer := .next (s.preemptStep ctx)
def execPreemptChordAbandon (core : BitVec 8) (slot : BitVec 4) (s : State) : Answer := .next (s.abandonStep core.toNat slot.toNat)
def execPreemptSave (ctx : BitVec 12) (s : State) : Answer := .next (s.saveStep ctx)
def execPreemptSaveComplete (ctx : BitVec 12) (s : State) : Answer := .next (s.savedStep ctx)
def execContextRestore (ctx : BitVec 12) (s : State) : Answer := .next (s.restoreStep ctx)
def execEndOrder (ctx : BitVec 12) (act : BitVec 16) (s : State) : Answer := .next (s.endOrderStep ctx act)
def execCtxPreempt (m : Master) (ctx : BitVec 12) (s : State) : Answer := .next (s.ctxCommand m fun s => s.cmdPreempt ctx)
def execCtxStop (m : Master) (ctx : BitVec 12) (s : State) : Answer := .next (s.ctxCommand m fun s => s.cmdStop ctx)
def execCtxResume (m : Master) (ctx : BitVec 12) (s : State) : Answer := .next (s.ctxCommand m fun s => s.cmdResume ctx)
def execCtxEnd (m : Master) (ctx : BitVec 12) (s : State) : Answer := .next (s.ctxCommand m fun s => s.cmdEnd ctx)
def execCtxReload (m : Master) (ctx : BitVec 12) (s : State) : Answer := .next (s.ctxCommand m fun s => s.cmdReload ctx)

end Sys2Proof.Machine
end

