-- ==== Sys2Proof/Machine/Fault.lean ====
section
/-! DEFINITION. The owner's side of translation (R386, R389 to R399): walks, the resume and the refusal of a page fault, and
invalidations. -/

namespace Sys2Proof.Machine

namespace State

/-- A walk for a core ends (R393, R395): its translation is cached. One that ends in no valid leaf caches nothing; the access
that asked for it opens its page fault, or raises PROTECTION, in its own step. -/
def walkStep (s : State) (c : Nat) (n : BitVec 12) (va : Nat) : State := s.fillXlt { core := some c, die := dieOf c, ctx := n } va

/-! ### Resume (R389, R390) -/

/-- The resume of a fault (R389). One accepted while the context is away takes effect at the restore, and the fault stays outstanding
until then (R390), but for an ended context's, which closes its fault and nothing else; while the restore itself is under way, what waits off the cores goes on at once, and the rest at its end. -/
def resumeFault (s : State) (id : BitVec 32) : State :=
  match s.xlt.faults.find? fun f => f.id == id with
  | none => s
  | some f =>
    if (s.ctx f.ctx).resumes.contains id then s
    else if s.here f.ctx then ((s.closeFault id).resumeEngines f.ctx id).resumeCores f.ctx id
    else
      let keep (s : State) : State := s.modCtx f.ctx fun x => { x with resumes := x.resumes ++ [id] }
      match (s.ctx f.ctx).st with
      | .absent => (s.closeFault id).resumeEngines f.ctx id
      | .resident => ((keep s).closeFault id).resumeEngines f.ctx id
      | _ => (keep s).settleWait f.ctx

/-! ### Refusal (R386, R398) -/

/-- The trap of a refused fault. -/
def refusal (a : Word) : Trap := trapProt 0x73 a

/-- An instance whose fault is refused stays parked, and its trap token is sent; one marked refuted is discarded. -/
def refuseEntry (s : State) (c : Nat) (n : BitVec 12) (e : Entry) (stop : Stop) : State :=
  s.sendTrap c n (frameHandle c e.frame) e.hdr.trapblk ((refusal stop.addr).record e.act e.tag e.dblock e.hid e.trapIdx.toNat e.atomf)

/-- The instances among some entries that wait under a fault: those to be told, and the entries afterwards. -/
def refuseEntries (s : State) (id : BitVec 32) (n : BitVec 12) (l : List Entry) : List (Entry × Stop) × List Entry :=
  let what (e : Entry) : Option (Stop × Bool) := match e.state with
    | .parked (some f) _ refuted => if e.ctx = n ∧ f.id = id then some (f, refuted) else none
    | _ => none
  (l.filterMap (fun e => match what e with
      | some (f, false) => some (e, f)
      | _ => none),
   l.filterMap fun e => match what e with
      | some (_, true) => none
      | some (_, false) => some { e with state := .parked none (s.trapSent n e.act e.hdr.trapblk) false }
      | none => some e)

/-- A drain whose fault is refused does not take place: its binding stops with an error, and the trap's ADDR is the bias address
(R318). -/
def refuseDrain (s : State) (c i : Nat) : State :=
  let k := s.core c
  match k.mxe.cand i, nget k.mxe.slots i with
  | some o, some b =>
    let ks := match s.act? b.actKey with
      | some a => a.consts
      | none => []
    s.failFiring c o (refusal (biasAddr ks (decEpi b.k1))) (((k.ring? o.key o.a).map fun (r : Ring) => r.headSlot.2.seq).getD 0)
  | _, _ => s

/-- A refusal on one core: its instances, its streams, its block fills and its waiting drains. -/
def refuseCore (s : State) (n : BitVec 12) (id : BitVec 32) (c : Nat) : State :=
  let r := s.refuseEntries id n (s.core c).entries
  let s := s.modCore c fun k => { k with entries := r.2 }
  let s := r.1.foldl (fun s e => s.refuseEntry c n e.1 e.2) s
  let s := (s.core c).streams.foldl (fun s x => match x.state with
    | .paused f => if x.ctx = n ∧ f.id = id then s.failStream c x (refusal f.addr) else s
    | _ => s) s
  let fills := (s.core c).bfills.filter fun f => f.ctx == n && hitStop id f.stop
  let s := s.modCore c fun k => { k with bfills := k.bfills.filter fun f => !(f.ctx == n && hitStop id f.stop) }
  let s := fills.foldl (fun s f => s.rejectFill c f (refusal ((f.stop.map Stop.addr).getD 0))) s
  let drains := (s.core c).mxe.drainStops.filter fun d => d.2.id == id
  let s := s.modCore c fun k => { k with mxe := { k.mxe with drainStops := k.mxe.drainStops.filter fun d => d.2.id != id } }
  (drains.foldl (fun s d => s.refuseDrain c d.1) s).examineFifo c

/-- A refusal for what a pre-emption has saved of a context: a stream's state goes to error there too. -/
def refuseSaved (s : State) (n : BitVec 12) (id : BitVec 32) : State :=
  let saved := (s.ctx n).saved
  let s := s.modCtx n fun x => { x with saved := saved.map fun y => { y with
    entries := (s.refuseEntries id n y.entries).2
    streams := y.streams.map fun x => match x.state with
      | .paused f => if f.id = id then { x with state := .error } else x
      | _ => x } }
  saved.foldl (fun s y =>
    let gone := (y.entries.map (·.frame)).filter fun f => !((s.refuseEntries id n y.entries).2.any fun e => e.frame == f)
    let s := s.modCore y.core fun k => { k with kept := k.kept.filter fun f => !gone.contains f }
    (s.refuseEntries id n y.entries).1.foldl (fun s e => s.refuseEntry y.core n e.1 e.2) s) s

/-- The engines and agents that stopped under a fault stop with an error. -/
def refuseEngines (s : State) (n : BitVec 12) (id : BitVec 32) : State :=
  let s := s.eng.copies.foldl (fun s p => match p.2.running with
    | some c => if hitStop id c.stop then s.finishCopy p.1 { c with stop := none } 5 else s
    | none => s) s
  let s := (List.range s.eng.syms.length).reverse.foldl (fun s i => match s.eng.syms[i]? with
    | some q => match q.stop with
      | some f => if f.id = id then s.symStopped i q (.err (refusal f.addr) false) else s
      | none => s
    | none => s) s
  let s := (List.range s.eng.psels.length).reverse.foldl (fun s i => match s.eng.psels[i]? with
    | some j => match j.stop with
      | some f => if f.id = id then s.stopPsel i j j.page (.err (refusal f.addr) false) else s
      | none => s
    | none => s) s
  (s.failStopped (hitStop id)).modCtx n fun x => if hitStop id x.trapStop then { x with trapStop := none, trapRefused := true } else x

/-- The refusal of a fault (R398). -/
def refuseFault (s : State) (id : BitVec 32) : State :=
  match s.xlt.faults.find? fun f => f.id == id with
  | none => s
  | some f =>
    if (s.ctx f.ctx).resumes.contains id then s
    else
    let s := ((s.closeFault id).refuseEngines f.ctx id).refuseSaved f.ctx id
    ((nkeys s.cores).foldl (fun s c => s.refuseCore f.ctx id c) s).settleWait f.ctx

/-! ### Invalidations (R395, R397, R399) -/

/-- The span of addresses that a cached non-leaf entry leads to. -/
def preSpan (e : NonLeaf) : Nat × Nat :=
  let shift := ((levels.find? fun l => l.1 == e.level).map (·.2)).getD 12
  (e.pre * 2 ^ shift, (e.pre + 1) * 2 ^ shift)

/-- Drops the cached translations that an invalidation covers: those that satisfy a test of context and span. -/
def dropXlt (s : State) (p : BitVec 12 → Nat → Nat → Bool) : State :=
  let leaf (l : Leaf) : Bool := !p l.ctx l.base (l.base + l.size)
  let xlt := { s.xlt with
    leaves := s.xlt.leaves.map fun x => (x.1, x.2.filter leaf)
    nonLeaves := s.xlt.nonLeaves.map fun x => (x.1, x.2.filter fun e => !p e.ctx (preSpan e).1 (preSpan e).2) }
  { s with xlt, cores := s.cores.map fun x => (x.1, { x.2 with utlb := x.2.utlb.filter leaf }) }

/-- An invalidation begins (R399): covered entries are dropped at once, and what was translated before is noted. -/
def beginInval (s : State) (op : Nat) (n : BitVec 12) (p : BitVec 12 → Nat → Nat → Bool) : State :=
  let mine (m : BitVec 12) : Bool := op == 3 || m == n
  let chords := (s.cores.map fun c => (c.2.chords.filter fun x => mine x.2.ctx).map fun x => (c.1 * 16 + x.1, x.2.granted)).flatten
  let s := s.dropXlt p
  { s with xlt := { s.xlt with busy := true, err := 0, inval := some { op, ctx := n, began := s.cycle, upTo := s.flow.nextId, chords } } }

/-- A write of XLT_INVCMD: ignored while BUSY; one that is not valid starts nothing. -/
def invalCommand (s : State) (op : Nat) (n : BitVec 12) (gran count : Nat) : State :=
  if s.xlt.busy then s
  else if (op != 1 && op != 2 && op != 3) || (op == 1 && (gran == 3 || count == 0)) then { s with xlt := { s.xlt with err := 1 } }
  else
    let lo := s.xlt.invAddr.toNat
    let hi := lo + count * (match gran with | 0 => 2 ^ 12 | 1 => 2 ^ 21 | _ => 2 ^ 30)
    s.beginInval op n fun m a b => match op with
      | 1 => m == n && decide (a < hi) && decide (lo < b)
      | 2 => m == n
      | _ => true

/-- Whether a write on its way to a home is one that an invalidation concerns. One that no hypothesis tags names no context, and may be
any context's. -/
def invalHit (v : Inval) : HomeOp → Bool
  | .write _ _ _ _ n h _ => v.op == 3 || h == 0 || n == v.ctx
  | .flag .. => true
  | .upd u => v.op == 3 || u.ctx == v.ctx

/-- Whether the chords that held translations when an invalidation began are gone, and no write or fill of its context is on its way:
what was translated before it began is from then on at a window, or a request in flight. -/
def invalQuiet (s : State) (v : Inval) : Bool :=
  let mine (m : BitVec 12) : Bool := v.op == 3 || m == v.ctx
  v.chords.all (fun p => match s.chord? (p.1 / 16) (p.1 % 16) with
      | some ch => ch.granted != p.2
      | none => true)
    && s.cores.all (fun p => p.2.homeQ.all (fun o => !invalHit v o) && p.2.fills.all fun f => !(f.hid == 0 || mine f.ctx))
    && s.homes.slices.all fun p => p.2.heldWr.all (fun h => !invalHit v h.op) && p.2.inq.all fun u => !mine u.ctx

/-- Whether every access translated before an invalidation began has been performed or abandoned. -/
def invalDone (s : State) (v : Inval) : Bool :=
  let mine (m : BitVec 12) : Bool := v.op == 3 || m == v.ctx
  let old (u : UEnt) : Bool := mine u.ctx && decide (u.at_ ≤ v.began)
  v.marked && s.reqs.all (fun q => !(mine q.ctx && decide (q.id < v.upTo)))
    && s.homes.slices.all fun p => p.2.window.all (fun u => !old u) && p.2.ops.all fun o => o.2.batch.all fun u => !old u

/-- Notes the instant from which only windows and requests hold what was translated before the invalidation. -/
def invalMark (s : State) (v : Inval) : Inval :=
  if !v.marked && s.invalQuiet v then { v with marked := true, began := s.cycle, upTo := s.flow.nextId } else v

/-- An invalidation ends (R399); one of a range has every core write its L1 back and drop it first. -/
def invalEnd (s : State) : State :=
  match s.xlt.inval with
  | none => s
  | some v0 =>
    let v := s.invalMark v0
    if !s.invalDone v then { s with xlt := { s.xlt with inval := some v } }
    else
      let flushed := if v.op = 1 then (nkeys s.cores).foldl (fun (acc : Option State) c => acc.bind fun s => s.flushAll c) (some s) else some s
      match flushed with
      | none => s
      | some s => { s with xlt := { s.xlt with busy := false, inval := none } }

end State

def execTranslationWalk (core : BitVec 8) (ctx : BitVec 12) (va : BitVec 57) (s : State) : Answer := .next (s.walkStep core.toNat ctx va.toNat)
def execFaultResume (m : Master) (id : BitVec 32) (s : State) : Answer := .next (s.ownerWrite m fun s => s.resumeFault id)
def execFaultRefuse (m : Master) (id : BitVec 32) (s : State) : Answer := .next (s.ownerWrite m fun s => s.refuseFault id)
def execInvalidateRange (m : Master) (ctx : BitVec 12) (gran : BitVec 2) (count : BitVec 16) (s : State) : Answer :=
  .next (s.ownerWrite m fun s => s.invalCommand 1 ctx gran.toNat count.toNat)
def execInvalidateContext (m : Master) (ctx : BitVec 12) (s : State) : Answer := .next (s.ownerWrite m fun s => s.invalCommand 2 ctx 0 0)
def execInvalidateAll (m : Master) (s : State) : Answer := .next (s.ownerWrite m fun s => s.invalCommand 3 0 0 0)
def execInvalidationEnd (s : State) : Answer := .next s.invalEnd

end Sys2Proof.Machine
end

