-- ==== Sys2Proof/Machine/Links.lean ====
section
/-! DEFINITION. Between packages (R231 to R242): flits and their retry, delivery and forwarding of packets, remote accesses at
their homes and their answers, routes lost and found, domain time, and the Ethernet ports. -/

namespace Sys2Proof.Machine

/-! ### Flits (R231, R232) -/

/-- A flit's sequence number, type and whether it is whole. -/
structure Flit where
  seq : BitVec 12
  typ : Nat
  body : List Byte
  good : Bool
deriving DecidableEq, Repr, Inhabited

/-- A received flit: whole if it has its length, its CRC and zeros in bits 1:0 of HDR. -/
def Flit.ofBytes (bs : List Byte) : Flit :=
  let h := natOfBytes (bs.take 2)
  { seq := BitVec.ofNat 12 (h / 16), typ := h / 4 % 4, body := (bs.drop 2).take 246,
    good := bs.length == 256 && h % 4 == 0 && wordOfBytes (bs.drop 248) == crc64 (bs.take 248) }

/-- Whether a packet asks for an access on behalf of a context, or is a loader's message about one, rather than answers one (R237). -/
def reqAsks (r : RemoteReq) : Bool :=
  r.what ≤ 4 || r.what == 7 || r.what == 8 || (13 ≤ r.what && r.what ≤ 22) || r.what == 25

namespace State

def port (s : State) (q : Nat) : Port := (nget s.links.ports q).getD {}
def setPort (s : State) (q : Nat) (x : Port) : State := { s with links := { s.links with ports := nput s.links.ports q x } }
def modPort (s : State) (q : Nat) (f : Port → Port) : State := s.setPort q (f (s.port q))

/-- The X-die of a port (R231). -/
def portDie (q : Nat) : Nat := if q < 32 then 0 else 1

/-- A packet is discarded as a link protocol error (R233): counted, with an event for the first in 65,536 cycles. -/
def protocolError (s : State) (q : Nat) : State :=
  let x := s.port q
  let fresh := match x.discardAt with
    | some t => decide (t + Config.slice64k ≤ s.cycle)
    | none => true
  let s := s.setPort q { x with discards := if x.discards = 0xFFFFFFFF then x.discards else x.discards + 1,
                                discardAt := if fresh then some s.cycle else x.discardAt }
  if fresh then s.linkEvent 1 q else s

/-- The limit on hops towards a package by an X-die's table (R234): the greatest where the table has no valid entry, which the
manual leaves open (assumption log 12). -/
def hopLimit (s : State) (die : Nat) (dst : BitVec 12) : Nat :=
  match nget s.links.routes (die * 4096 + dst.toNat) with
  | some r => if r.valid then r.hops.toNat + 1 else 8
  | none => 8

/-! ### Domain time on the links (R239, R240) -/

/-- A time flit's value, as its body gives it (R231; the layout is open). -/
def timeOf (body : List Byte) : BitVec 64 := BitVec.ofNat 64 (Config.linkBody 7 (body.drop 4)).pa

/-- Sends a time flit on every port that is up and that some valid entry names, but for the one the time came by: a package knows no
shortest path from the source, so it goes every way, and the flit that comes first has come the shortest (assumption log 12). -/
def sendTime (s : State) (from_ : Option Nat) : State :=
  let used (q : Nat) : Bool := s.links.routes.any fun p => p.2.valid && p.2.ports.getLsbD q
  let qs := (List.range 64).filter fun q => (s.port q).state == .up && used q && from_ != some q
  let s := { s with links := { s.links with lastSent := s.cycle, timeOut := s.links.timeOut ++ qs.map fun q => (q, s.links.dtime) } }
  qs.foldl (fun s q => s.emit q (flitBytes 0 3 (openBody (Config.timeBody s.links.dtime)))) s

/-- Whether a time flit comes in the interval of the last one taken: within half of 65,536 cycles of it. -/
def sameInterval (s : State) : Bool :=
  match s.links.timeTaken with
  | some u => decide (s.cycle < u + Config.slice64k / 2)
  | none => false

/-- A received time flit (R239, R240), with what the package has measured of its way: a package that is behind steps forward at once;
one that is ahead holds its count until it is within 64 cycles. The first flit of an interval has come by the shortest way: its
neighbour is upstream, and the package passes its own time on. A later one of the interval shows only that time flits still come. A
package that is the source adjusts nothing. -/
def timeStep (s : State) (q : Option Nat) (t : BitVec 64) : State :=
  if s.links.src then s
  else if s.sameInterval then { s with links := { s.links with lastFlit := s.cycle, timeLost := false } }
  else
    let s := { s with links := { s.links with timeTaken := some s.cycle } }
    let way := match q with
      | some q => Config.hopDelay q s.flow.freeCtr
      | none => 0
    let t := t + BitVec.ofNat 64 way
    let s := s.bump
    let l := s.links
    let s := if l.dtime.toNat < t.toNat
      then { s with links := { l with dtime := t, hold := 0, lastFlit := s.cycle, timeLost := false } }
      else { s with links := { l with hold := l.dtime.toNat - t.toNat - 64, lastFlit := s.cycle, timeLost := false } }
    s.sendTime q

/-! ### Packets that arrive (R233, R234, R237, R241, R422) -/

/-- Passes a packet on by the X-die's own table, one hop further. A packet of a secure context that came by a non-secure port is a
protocol error (R422), one without a valid route is (R241), and so, by this model's choice, is one whose route has no port up
(assumption log 12). -/
def forward (s : State) (q : Nat) (dst : BitVec 12) (secure : Bool) (src t kind hops : Nat) (bytes : List Byte) : State :=
  if secure && !s.sec.portWorld.getLsbD q then s.protocolError q
  else match s.egress (portDie q) dst secure src t with
  | some e =>
    let p : Packet := .pass dst kind (hops + 1) bytes
    s.putPort e { pkt := p, secure, src, t, bytes := p.bytes }
  | none => s.protocolError q

/-- Whether a packet's context is secure, by the descriptor of this package (R422). -/
def secureCtx (s : State) (n : BitVec 12) : Bool := let d := (s.ctx n).desc
                                                    d.valid && d.secure

/-- A token of another package at its destination X-die, which gives it its core (R134). -/
def tokenIn (s : State) (q : Nat) (t : Token) : State :=
  let s := s.loadDesc t.ctx
  let d := (s.ctx t.ctx).desc
  if d.valid && d.secure && !s.sec.portWorld.getLsbD q then s.protocolError q
  else if d.valid && !s.admits t.ctx t.spkg then (s.denyDomain t.ctx t.spkg).protectionEvent 0 t.ctx t.spkg
  else { s with net := s.net ++ [{ t with dcore := ((s.coreFor t).map (BitVec.ofNat 8 ·)).getD t.dcore }] }

/-- A remote access, or an answer, at its destination X-die. -/
def accessIn (s : State) (q : Nat) (r : RemoteReq) : State :=
  let s := s.loadDesc r.ctx
  let d := (s.ctx r.ctx).desc
  let take : State := { s with links := { s.links with inReqs := s.links.inReqs ++ [r] } }
  if reqAsks r && !d.valid then s.protectionEvent 1 r.ctx r.srcPkg
  else if d.valid && d.secure && !s.sec.portWorld.getLsbD q then s.protocolError q
  else if reqAsks r && !s.admits r.ctx r.srcPkg then (s.denyDomain r.ctx r.srcPkg).protectionEvent 0 r.ctx r.srcPkg
  else take

/-- A packet that has arrived whole: its kind (0 token, 1 to 6 accesses and answers, 7 time), its hop count and its body. -/
def packetIn (s : State) (q kind hops : Nat) (bytes : List Byte) : State :=
  if 8 ≤ kind then s.protocolError q
  else if kind = 7 then s.timeStep (some q) (BitVec.ofNat 64 (Config.linkBody 7 bytes).pa)
  else if kind = 0 then
    let ws := wordsOfBytes (bytes.length / 8) bytes
    let t := Token.ofWords ws
    if s.links.pkgValid ∧ t.dpkg = s.pkg then
      if bytes.length == 8 * ws.length && packetOk ws && decide (hops ≤ s.hopLimit (portDie q) t.dpkg) then s.tokenIn q t
      else s.protocolError q
    else
      let src := if t.skind = 0 then t.score.toNat else 0xFF
      let s := s.loadDesc t.ctx
      s.forward q t.dpkg (s.secureCtx t.ctx) src t.dcore.toNat 0 hops bytes
  else
    let r := Config.linkBody kind bytes
    let dst := Config.linkDst kind bytes
    if s.links.pkgValid ∧ dst = s.pkg then
      if hops ≤ s.hopLimit (portDie q) dst then s.accessIn q r else s.protocolError q
    else
      let s := s.loadDesc r.ctx
      s.forward q dst (s.secureCtx r.ctx) (reqPath r).1 (reqPath r).2 kind hops bytes

end State

/-- Takes the packets that lie whole at the head of a port's bytes. -/
def takePackets (q : Nat) : Nat → State → State
  | 0, s => s
  | f + 1, s =>
    let body := (s.port q).body
    if body.length < 4 then s
    else
      let h := Config.linkHeader (BitVec.ofNat 32 (natOfBytes (body.take 4)))
      let len := max 4 h.2.1
      if body.length < len then s
      else
        let s := s.setPort q { s.port q with body := body.drop len }
        takePackets q f (s.packetIn q h.1 h.2.2 ((body.take len).drop 4))

namespace State

/-! ### Sequence numbers, acknowledgement and retry (R232) -/

/-- How far a number lies beyond a port's first unacknowledged flit. -/
def seqAhead (x : Port) (seq : BitVec 12) : Nat := (seq - x.sendSeq).toNat

/-- Drops the packets whose bytes are all among the first `n`: the rest, and how many bytes of its first are. -/
def dropSent : Nat → List OutPkt → Nat × List OutPkt
  | n, [] => (n, [])
  | n, p :: r => if p.bytes.length ≤ n then dropSent (n - p.bytes.length) r else (n, p :: r)

/-- An acknowledgement: the flits up to a number are done with, and the replay buffer has room again. -/
def ackFlit (s : State) (q : Nat) (seq : BitVec 12) : State :=
  let x := s.port q
  let k := seqAhead x seq + 1
  if k ≤ x.sent then
    let d := dropSent (x.skip + 246 * k) x.out
    let live (i : Nat) : Bool := k ≤ seqAhead x (BitVec.ofNat 12 i) && seqAhead x (BitVec.ofNat 12 i) < x.sent
    (s.setPort q { x with out := d.2, skip := d.1, sent := x.sent - k, sendSeq := x.sendSeq + BitVec.ofNat 12 k,
                          resends := x.resends.filter fun p => live p.1 }).pump q
  else s

/-- Counts a corrected, retried or uncorrectable error (R435): event 20 once the count reaches a threshold that is not zero. -/
def countError (s : State) (n : Nat) : State :=
  let e := (nget s.mgmt.ecc n).getD {}
  let count := if e.count = 0xFFFFFFFF then e.count else e.count + 1
  let tell := e.thresh != 0 && e.thresh ≤ count && !e.told
  let s := { s with mgmt := { s.mgmt with ecc := nput s.mgmt.ecc n { e with count, told := e.told || tell } } }
  if tell then s.event { typ := 20, sub := BitVec.ofNat 8 n, words := [count.setWidth 64] } else s

/-- Counts so many errors. -/
def countErrors (s : State) (n k : Nat) : State := (List.range k).foldl (fun s _ => s.countError n) s

/-- A negative acknowledgement: the flits from a number on are sent again, each a retry (R435). -/
def nakFlit (s : State) (q : Nat) (seq : BitVec 12) : State :=
  let x := s.port q
  let k := seqAhead x seq
  if x.state == .up && k < x.sent then
    let nums := (List.range (x.sent - k)).map fun i => (seq + BitVec.ofNat 12 i).toNat
    let resends := nums.foldl (fun m i => nput m i ((nget m i).getD 0 + 1)) x.resends
    ((s.setPort q { x with resends }).emitRun q k (x.sent - k)).countErrors 4 (x.sent - k)
  else s

/-- The negative acknowledgement a receiver sends: it names the number expected. -/
def sendNak (s : State) (q : Nat) : State :=
  let x := s.port q
  (s.setPort q { x with nak := true }).emit q (flitBytes x.recvSeq 2 (openBody (Config.ackBody x.recvSeq)))

/-- A flit is received. A broken flit, or one beyond the number expected, is discarded, and a negative acknowledgement names that
number, once for a gap; a duplicate is dropped. What is received in order is acknowledged flit by flit. -/
def flitStep (s : State) (q : Nat) (bytes : List Byte) : State :=
  let f := Flit.ofBytes bytes
  let x := s.port q
  if !s.booted || x.state != .up then s
  else if !f.good then s.sendNak q
  else match f.typ with
    | 0 =>
      if f.seq = x.recvSeq then
        let body := x.body ++ f.body
        let s := (s.setPort q { x with recvSeq := x.recvSeq + 1, nak := false, body }).emit q (flitBytes f.seq 1 (openBody (Config.ackBody f.seq)))
        takePackets q body.length s
      else if (f.seq - x.recvSeq).toNat < Config.replayFlits && !x.nak then s.sendNak q
      else s
    | 1 => s.ackFlit q f.seq
    | 2 => s.nakFlit q f.seq
    | _ => s.timeStep (some q) (timeOf f.body)

/-- A port one of whose flits has been sent again 16 times retrains. -/
def retrainStep (s : State) (q : Nat) : State :=
  let x := s.port q
  if x.state == .up && x.resends.any (fun p => decide (16 ≤ p.2)) then s.setPort q { x with state := .retraining } else s

/-- What a port that is down had not had acknowledged goes out whole on the new path, in order and so ahead of later packets (R235).
A loader's message that no route takes is kept. DESIGN CHOICE (assumption log 12): a packet that is passed on takes its new port from the
table of the X-die of the port that failed. -/
def resendOut (s : State) (q : Nat) (l : List OutPkt) : State :=
  l.foldl (fun s p => match p.pkt with
    | .token t => s.sendToken t
    | .access dst r => if loaders r then s.sendBack dst r.ctx r else (s.sendPacket dst p.secure p.src p.t p.pkt).2
    | .pass dst .. => match s.egress (portDie q) dst p.secure p.src p.t with
      | some e => s.putPort e p
      | none => s.protocolError q) s

/-- How many of a failed port's unacknowledged flits the far side has taken, whose acknowledgements were lost with the port: a free number
up to all of them. Their packets are not sent again, since no packet is delivered twice (R232, assumption log 12). -/
def farTook (s : State) (q : Nat) : Nat := Config.farTook q s.flow.freeCtr % ((s.port q).sent + 1)

/-- A retraining ends: the port is up again and sends what is not acknowledged, or after three failures down, and the owner is told.
A retraining that succeeds sets the count of failed ones back, by this model's choice (assumption log 12). -/
def retrainEnd (s : State) (q : Nat) (ok : Bool) : State :=
  let x := s.port q
  if x.state != .retraining then s
  else if ok then
    (((s.setPort q { x with state := .up, resends := [], retrains := 0 }).emitRun q 0 x.sent).countErrors 4 x.sent).pump q
  else if x.retrains + 1 < 3 then s.setPort q { x with retrains := x.retrains + 1 }
  else
    let left := (dropSent (x.skip + 246 * s.farTook q) x.out).2
    let s := s.setPort q { x with state := .down, retrains := 3, out := [], skip := 0, sent := 0, resends := [], body := [], nak := false,
                                  sendSeq := x.sendSeq + BitVec.ofNat 12 x.sent }
    (s.bump.linkEvent 0 q).resendOut q left

end State

def execFlitReceive (port : BitVec 6) (bytes : List Byte) (s : State) : Answer := .next (s.flitStep port.toNat bytes)
def execNegativeAcknowledge (port : BitVec 6) (seq : BitVec 12) (s : State) : Answer :=
  .next (if s.booted then s.nakFlit port.toNat seq else s)
def execPortRetrain (port : BitVec 6) (s : State) : Answer := .next (s.retrainStep port.toNat)
def execRetrainEnd (port : BitVec 6) (ok : Bool) (s : State) : Answer := .next (s.retrainEnd port.toNat ok)

/-! ### Remote accesses (R211, R221, R222, R225, R238) -/

namespace State

/-- A core's answer to a drain order takes the path of the core's own traffic to that home, behind what it sent before (R222, R235). -/
def sendDrained (s : State) (r : RemoteReq) (sig : Sig) : State :=
  let q : RemoteReq := { (default : RemoteReq) with
    what := 10, srcPkg := s.pkg, srcCore := r.srcCore, ctx := r.ctx, id := r.id, pa := r.pa, data := (sig.setWidth 1024 : Line) <<< 128 }
  s.sendBack r.srcPkg r.ctx q

/-- A core's write or atomic is acknowledged: fences and commits that wait for it go on (R170). -/
def acked (s : State) (c id : Nat) : State :=
  s.modCore c fun k => { k with
    acks := k.acks.filter fun i => i != id
    atoms := k.atoms.filter fun i => i != id
    chords := k.chords.map fun p =>
      let ch := p.2
      (p.1, { ch with waits := (ch.waits.map fun w => { w with acks := w.acks.filter fun i => i != id }).filter fun w =>
        !(w.acks.isEmpty && w.fin.bytes == 0 && w.got.isEmpty) }) }

def dropRequest (s : State) (id : Nat) : State := { s with reqs := s.reqs.filter fun q => q.id != id }

/-- COUNT goes back to the home of a claimed header (R178): the home's operation ends with it. The write is acknowledged. -/
def sendCount (s : State) (u : UEnt) (p : BitVec 12) (claim : Nat) (count : Option Nat) : State :=
  let (id, s) := s.newId
  let q : RemoteReq := { (default : RemoteReq) with
    what := 14, srcPkg := s.pkg, srcCore := BitVec.ofNat 8 u.core, ctx := u.ctx, id, pa := u.pa, len := 4, key := u.slot,
    data := BitVec.ofNat 1024 (count.getD 0), cmp := BitVec.ofNat 64 claim, ord := count.isNone }
  (s.modCore u.core fun k => { k with acks := k.acks ++ [id] }).sendAccess p u.core q (.ack u.core none)

/-- The answer to a request of this package: bytes for a lane, the header of a claim, or an acknowledgement (R178, R216, R238). None
where a claim's checks must wait. -/
def answered (s : State) (q : Request) (bs : List Byte) (bad : Bool) (sig : Sig) : Option State :=
  let s := s.dropRequest q.id
  let sign (c : Nat) (line : Option Nat) (s : State) : State := match q.pkg, line with
    | some p, some l => s.sigLine c p l
    | _, _ => s
  match q.what with
  | .load who off len => some (((sign who.core q.line s).acked who.core q.id).answer who off (bs.take len) bad sig)
  | .claim u hdr =>
    let p := q.pkg.getD 0
    if bad then some (((s.claimBad u 0).sendCount u p q.id none).acked u.core q.id)
    else (s.claimOn u (CmpkHdr.ofBytes bs) ((hdr[8]?).getD (.host 0))).map fun r =>
      (r.2.sendCount u p q.id (some r.1)).acked u.core q.id
  | .ack c line => some ((sign c line s).acked c q.id)
  | .upd c line _ => some ((sign c (some line) s).acked c q.id)
  | .remoteAtom .. => some s
  | .engine e _ => some (match q.pkg, q.line with
    | some p, some l => if e < 1000 then s.engSigLine e p l else s
    | _, _ => s)
  | .read => some (s.readAnswered q.id (if bad then .trap (trapEcc 0 0) else .bytes bs))

/-- A release that was refused: the core writes back its dirty lines and sends it again with its signature (R221). None where
it must wait. -/
def resendRelease (s : State) (q : Request) : Option State :=
  match q.again, q.pkg with
  | some r, some p =>
    (s.flushSettle r.srcCore.toNat).map fun s =>
      let r := { r with ord := true, data := (r.data &&& (BitVec.allOnes 128).setWidth 1024) ||| (((s.core r.srcCore.toNat).rs.setWidth 1024 : Line) <<< 128) }
      s.sendBack p r.ctx r
  | _, _ => some s

/-- An update, atomic or claim of another package, as the window holds it. -/
def remoteEntry (r : RemoteReq) : UEnt :=
  { pa := r.pa, slot := r.key, size := r.size, op := r.op, isUpd := r.what == 3, ord := r.ord && r.what == 3, x := r.data.extractLsb' 0 64,
    c := r.cmp, pkg := r.srcPkg, core := r.srcCore.toNat, ctx := r.ctx, sync := { ord := r.sync, scope := .sys },
    remote := some r.id, far := r.what == 13, eager := r.ord && r.what == 2, rs := packetSig r }

/-- Whether a packet asks for an access of memory at this package. -/
def accessesHere (r : RemoteReq) : Bool := r.what ≤ 4 || r.what == 7 || r.what == 8 || r.what == 13 || r.what == 15

/-- A request that ends without an answer: its lanes raise a trap, given for an address, and nothing waits for it any more. -/
def failRequest (s : State) (q : Request) (t : Word → Trap) : State :=
  let s := s.dropRequest q.id
  match q.what with
  | .claim u _ => (s.claimFail u t).acked u.core q.id
  | .load who _ _ =>
    let s := s.acked who.core q.id
    match s.chord? who.core who.slot with
    | none => s
    | some ch => match ch.waits.find? fun w => w.id == who.wait with
      | none => s
      | some w =>
        let ch' := w.lanes.foldl (fun ch l => ch.modLane l fun x => x.doomLate (t w.addr) w.idx) ch
        s.setChord who.core who.slot (ch'.finishWait { w with got := w.got.map fun _ => some 0 } false)
  | .ack c _ => s.acked c q.id
  | .upd c _ _ => s.acked c q.id
  | .remoteAtom .. => s
  | .engine .. => s
  | .read => s.readAnswered q.id (.trap (t 0))

/-- The engine a refused write is from stops with an error: a copy, a stream, or the comparator's request (R277, R280, R373, R423). -/
def refuseEngine (s : State) (e job : Nat) : State :=
  let t := trapProt 0x72 0
  if e < 32 then match (s.copyEngine e).running with
    | some c => if c.seq.toNat = job then s.finishCopy e c 5 else s
    | none => s
  else match s.cores.findSome? fun k => (k.2.streams.find? fun x => streamOwner k.1 x.actKey x.handle == job && x.state != .error).map fun x => (k.1, x) with
    | some (c, x) => s.failStream c x t
    | none =>
      let i := s.eng.syms.findIdx fun q => s.symEngine q == e && (q.due.isSome || q.fin.isSome)
      match s.eng.syms[i]? with
      | some q => s.symStopped i q (.err t false)
      | none => s

/-- A request that its home refuses under R423 (assumption log 40): the waiting lanes raise PROTECTION 0x72, the engine stops with an error,
and of a write or atomic whose lane has committed the trap graph is told with the lane's record. -/
def refuseRequest (s : State) (q : Request) : State :=
  let f := s.failRequest q fun a => trapProt 0x72 a
  let tell (c : Nat) : State :=
    let r := q.refusal.getD ({ cause := 0x08, reason := 0x72, index := 0xFF }, false)
    f.sendTrap c q.ctx 0 r.2 r.1
  match q.what with
  | .ack c _ => tell c
  | .upd c _ _ => tell c
  | .engine e job => f.refuseEngine e job
  | _ => f

/-- A remote access is performed: none where it must wait. One through a page whose SEC breaks R423 at this home is refused, counted
and answered so (assumption log 40). -/
def performRemote (s : State) (r : RemoteReq) : Option State :=
  let l := lineOf r.pa
  let i := homeSlice l
  let bytes := bytesOfNat r.len r.data.toNat
  if accessesHere r && s.secBreach r.sec r.pa r.key then some (s.deny.sendAnswer r 24 0 0)
  else match r.what with
  | 0 => if s.heldAt (.far r.srcPkg r.srcCore) i then none else
    let bs := s.homeBytes r.key r.pa r.len
    some ((s.l2Enter [] r.key l).sendAnswer r (if (s.line l).poison then 11 else 5) r.len (BitVec.ofNat 1024 (natOfBytes bs)))
  | 1 | 4 | 8 | 15 => s.farReach r
  | 2 | 3 | 13 => if s.heldAt (.far r.srcPkg r.srcCore) i then none
    else some (s.modSlice i fun sl => { sl with inq := sl.inq ++ [remoteEntry r] })
  | 7 => if s.heldAt (.far r.srcPkg r.srcCore) i then none else
    let q : AcqReq := { pa := r.pa, slot := r.key, len := r.len, ctx := r.ctx, hid := 0, reply := none, remote := some (r.srcPkg, r.srcCore, r.id) }
    some (s.modSlice i fun sl => { sl with acqQ := sl.acqQ ++ [q] })
  | 9 => (s.flushDirty r.srcCore.toNat).map fun s => s.sendDrained r (s.core r.srcCore.toNat).rs
  | 10 => some (s.modSlice (homeSlice r.id) fun sl =>
      (sl.takeAnswer r.id (r.srcPkg, r.srcCore) (packetSig r)).unpend r.id (r.srcPkg, r.srcCore))
  | 14 => some ((s.endClaim i l r.srcPkg r.cmp.toNat (if r.ord then none else some r.data.toNat)).ackTo r)
  | 16 | 17 | 18 | 19 | 20 | 21 | 22 | 25 => some (s.loaderIn r (packetSig r))
  | 12 => match s.reqs.find? fun q => q.id == r.id with
    | some q => s.resendRelease q
    | none => some s
  | _ => match s.reqs.find? fun q => q.id == r.id with
    | some q => match q.what, r.what with
      | .upd c line false, 6 =>
        let reqs := s.reqs.map fun x => if x.id = q.id then { x with what := .upd c line true } else x
        some ({ s with reqs }.acked c q.id)
      | _, 24 => some (s.refuseRequest q)
      | _, _ => s.answered q bytes (r.what == 11) (packetSig r)
    | none => some s

/-- Whether a packet must wait behind an earlier one: accesses of one core to one home are performed in the order they came (R210). -/
def behind (r q : RemoteReq) : Bool :=
  accessesHere r && accessesHere q && r.srcPkg == q.srcPkg && r.srcCore == q.srcCore && homeSlice (lineOf r.pa) == homeSlice (lineOf q.pa)

/-- Takes the first packet that can be performed: the state, and the packets that remain. -/
def takeRemote (s : State) : List RemoteReq → List RemoteReq → Option (State × List RemoteReq)
  | _, [] => none
  | seen, r :: rest =>
    if seen.any (behind r) then takeRemote s (seen ++ [r]) rest
    else match s.performRemote r with
      | some s1 => some (s1, seen ++ rest)
      | none => takeRemote s (seen ++ [r]) rest

def remoteStep (s : State) : State :=
  match takeRemote s [] s.links.inReqs with
  | some (s1, rest) => { s1 with links := { s1.links with inReqs := rest } }
  | none => s

end State

def execRemoteAccess (s : State) : Answer := .next s.remoteStep

/-! ### Routes (R236) -/

/-- Whether a request is a write, update or posted atomic that has not been accepted. -/
def Request.owes (q : Request) : Bool :=
  match q.what with
  | .ack .. => true
  | .upd _ _ accepted => !accepted
  | .engine .. => true
  | _ => false

namespace State

/-- Whether a route to a package remains for a context. -/
def routed (s : State) (p : BitVec 12) (n : BitVec 12) : Bool := (s.egress 0 p (s.ctx n).desc.secure 0 0).isSome

/-- Operations that wait for COUNT from a package end without it. -/
def loseClaims (s : State) (p : BitVec 12) : State :=
  let waits := (s.homes.slices.map fun x => x.2.ops.filterMap fun o =>
    (o.2.batch.find? fun u => u.far && o.2.sent && u.pkg == p).map fun u => (x.1, o.1, u.remote.getD 0)).flatten
  waits.foldl (fun s w => s.endClaim w.1 w.2.1 p w.2.2 none) s

/-- No route remains to a package: waiting lanes raise ECC_UNCORRECTED for the link, and each context with a write outstanding there is
stopped. -/
def routeLost (s : State) (p : BitVec 12) : State :=
  let gone := s.reqs.filter fun q => q.pkg == some p && !s.routed p q.ctx
  if (s.egress 0 p false 0 0).isSome && gone.isEmpty then s
  else
    let s := if s.links.lost.contains p then s else { s with links := { s.links with lost := s.links.lost ++ [p] } }
    let s := (gone.foldl (fun s q => s.failRequest q fun a => trapEcc a 3) s).loseClaims p
    ((gone.filter Request.owes).map Request.ctx).eraseDups.foldl (fun s n => s.escalate n 7 {}) s

/-- Whether a token's activation has ended on this package (R335). -/
def ended (s : State) (t : Token) : Bool :=
  (s.act? (actKey t.ctx t.act)).isNone && s.loader.quar.any fun x => x.ctx == t.ctx && x.act == t.act

end State

/-- Sends the slots of a context's spill table for a package, oldest first, from a slot on. One whose activation has ended is
dropped and counted (R335), and one that breaks R35 is discarded. -/
def drainSpill (p : BitVec 12) (n : BitVec 12) : Nat → Nat → State → State
  | 0, _, s => s
  | f + 1, i, s =>
    if (s.ctx n).spillTail ≤ i then s
    else
      let t := s.spillAt n i
      if t.act ≠ 0 ∧ t.dpkg = p ∧ p ≠ s.pkg then
        let s := if s.slotBad n i then s.escalate n 6 {} else if s.ended t then s.countDiscard n else if s.slotOk n i then s.sendToken t else s.slotError
        drainSpill p n f (i + 1) (s.freeSlot n i)
      else drainSpill p n f (i + 1) (s.denyPages n (s.spillSlot n i) 64)

namespace State

/-- A route to a package returns: held tokens leave first, then those in spill tables and those the agent keeps for full ones. -/
def routeReturn (s : State) (p : BitVec 12) : State :=
  if (s.egress 0 p false 0 0).isNone then s
  else
    let mine := s.links.held.filter fun t => t.dpkg == p
    let s := { s with links := { s.links with lost := s.links.lost.filter fun x => x != p, held := s.links.held.filter fun t => t.dpkg != p } }
    let s := (mine.foldl (fun s t => s.sendToken t) s).sendLate p
    (nkeys s.ctxs).foldl (fun s i =>
      let n := BitVec.ofNat 12 i
      let x := s.ctx n
      let s := drainSpill p n (x.spillTail - x.spillHead + x.overflow.length) x.spillHead s
      let late := (s.ctx n).overflow.filter fun t => t.dpkg == p && p != s.pkg
      let s := s.modCtx n fun y => { y with overflow := y.overflow.filter fun t => !(t.dpkg == p && p != s.pkg) }
      (late.foldl (fun s t => if s.ended t then s.countDiscard n else s.sendToken t) s).settleWait n) s |>.payAcks

end State

def execRouteLost (pkg : BitVec 12) (s : State) : Answer := .next (s.routeLost pkg)
def execRouteReturn (pkg : BitVec 12) (s : State) : Answer := .next (s.routeReturn pkg)

/-! ### Domain time (R239, R240) -/

namespace State

/-- Cycles pass. Domain time counts from the end of boot, except while it is held. A resident context that holds state has
not been idle (R330). -/
def pass (s : State) (n : Nat) : State :=
  let now := s.flow.cycle + n
  let s : State := { s with
    flow := { s.flow with cycle := now }
    ctxs := s.ctxs.map fun p =>
      if p.2.st = .resident ∧ (s.cores.any fun k => k.2.holds (BitVec.ofNat 12 p.1)) then (p.1, { p.2 with idleSince := now }) else p }
  if s.sec.bootState = 2 then
    let h := if s.links.src then 0 else min s.links.hold n
    { s with links := { s.links with hold := s.links.hold - h, dtime := s.links.dtime + BitVec.ofNat 64 (n - h) } }
  else s

def timeSendStep (s : State) : State :=
  if s.links.src && s.sec.bootState == 2 && decide (s.links.lastSent + Config.slice64k ≤ s.cycle) then s.sendTime none else s

/-- No time flit has come for four intervals: the owner is told once, and clean bytes go at each epoch until one comes. DESIGN CHOICE
(assumption log 12): a package that is itself the source receives none and reports nothing. -/
def timeLostStep (s : State) : State :=
  if !s.links.src && s.sec.bootState == 2 && !s.links.timeLost && decide (s.links.lastFlit + 4 * Config.slice64k ≤ s.cycle) then
    { s with links := { s.links with timeLost := true } }.event { typ := 6 }
  else s

end State

def execTimeFlitSend (s : State) : Answer := .next s.timeSendStep
def execTimeFlit (time : BitVec 64) (s : State) : Answer := .next (if s.booted then s.timeStep none time else s)
def execDomainTimeLost (s : State) : Answer := .next s.timeLostStep

/-! ### Ethernet (R242) -/

/-- A packet of the copy transport: one that breaks its checks is dropped whole; one without data acknowledges the piece of a copy of
ours that it names by peer and number, and the pieces sent to that peer before it and still not acknowledged are sent again; any
other is written at the address it carries, under the port's world, and acknowledged (R422, assumption log 24). -/
def State.ethernetStep (s : State) (port peer num : Nat) (ok : Bool) (addr : BitVec 64) (bytes : List Byte) : State :=
  if !ok || !s.booted then s
  else if bytes.isEmpty then match s.links.eth.find? fun p => p.peer == peer && p.num == num with
    | none => s
    | some p =>
      let late := s.links.eth.takeWhile fun x => x != p
      { s with links := { s.links with eth := s.links.eth.erase p,
                                       ethOut := s.links.ethOut ++ late.filter fun x => x.peer == peer } }
  else if (List.range bytes.length).any fun i => s.regionWorld (addr.toNat + i) && !s.sec.ethWorld.getLsbD port then s
  else
    let s := s.acceptBytes (s.regionKey addr.toNat) addr.toNat bytes
    { s with links := { s.links with ethOut := s.links.ethOut ++ [{ engine := none, peer, num, port, addr, bytes := [] }] } }

def execEthernetPacket (port : BitVec 2) (ok : Bool) (head : PieceHead) (bytes : List Byte) (s : State) : Answer :=
  .next (s.ethernetStep port.toNat head.peer head.num ok head.addr bytes)

end Sys2Proof.Machine
end

