-- ==== Sys2Proof/Machine/Host.lean ====
section
/-! DEFINITION. The host link (R403 to R420): interrupts, the event ring, completion records, ingress ports, the window onto
memory, answers of the host, and the change of owner. -/

namespace Sys2Proof.Machine

namespace State

/-! ### MSI-X (R403, R412) -/

/-- A word of the MSI-X table; vectors are masked at reset, as PCIe has it (assumption log 4). -/
def msixWord (s : State) (i : Nat) : Word := (nget s.host.msixTable i).getD (if i % 2 = 1 then 1#64 <<< 32 else 0)

/-- A vector's mask bit. -/
def msixMasked (s : State) (v : Nat) : Bool := (s.msixWord (2 * v + 1)).getLsbD 32

/-- Sends a vector's message, or sets its pending bit while it is masked. -/
def msix (s : State) (v : BitVec 11) : State :=
  if s.msixMasked v.toNat then { s with host := { s.host with msixPend := s.host.msixPend ||| (1#2048 <<< v.toNat) } }
  else { s with host := { s.host with out := s.host.out ++ [.msix v] } }

/-- A write of a word of the table; a vector unmasked while it is pending sends its message. -/
def msixWrite (s : State) (i : Nat) (w : Word) : State :=
  let s := { s with host := { s.host with msixTable := nput s.host.msixTable i w } }
  let v := i / 2
  if s.host.msixPend.getLsbD v && !s.msixMasked v then
    { s with host := { s.host with msixPend := s.host.msixPend &&& ~~~(1#2048 <<< v) } }.msix (BitVec.ofNat 11 v)
  else s

/-! ### The event ring (R410 to R412) -/

/-- The entries of the ring. -/
def evEntries (s : State) : Nat := let n := s.host.evLog2n.toNat
                                   2 ^ (if 6 ≤ n ∧ n ≤ 16 then n else 6)

/-- The words of an event's entry. -/
def eventWords (s : State) (e : Event) : List Word :=
  let named := e.byCtx || (e.typ == 5 && e.sub == 1)
  let odd := s.host.evHead.toNat / s.evEntries % 2 == 0
  let w0 := (if odd then 1 else 0) + e.typ.toNat * 2 ^ 8 + e.sub.toNat * 2 ^ 16 + (if named then e.ctx.toNat * 2 ^ 24 else 0)
    + (if e.typ.toNat ≤ 3 then e.act.toNat * 2 ^ 36 else 0) + s.pkg.toNat * 2 ^ 52
  BitVec.ofNat 64 w0 :: (List.range 7).map (wordAt e.words)

/-- The vector of an event. -/
def eventVec (s : State) (e : Event) : BitVec 11 := if e.byCtx then e.vec else s.host.evVec

/-- Whether the ring takes an entry now. -/
def ringOpen (s : State) : Bool := s.host.evEn && (s.host.evHead - s.host.evTail).toNat != s.evEntries

/-- Writes the oldest waiting event, and then sends its message: not while an operation of the update unit holds the write back. -/
def eventStep (s : State) : State :=
  match s.host.evQueue with
  | [] => s
  | e :: r =>
    let a := s.host.evBase.toNat % 2 ^ 63 + 64 * (s.host.evHead.toNat % s.evEntries)
    if !s.ringOpen || (s.host.evLocal && s.opInFlight (lineOf a)) then s
    else
      let bytes := ((s.eventWords e).map bytesOfWord).flatten
      let v := s.eventVec e
      let s := { s with host := { s.host with evQueue := r, evHead := s.host.evHead + 1 } }
      let s := if s.host.evLocal then s.acceptBytes (s.regionKey a) a bytes
        else { s with host := { s.host with out := s.host.out ++ [.write a bytes none] } }
      (s.msix v).admitEvent

/-- A write of HOST_EVCTL: a rise of EN starts the ring afresh. -/
def setEvctl (s : State) (v : Word) : State :=
  let h := s.host
  let en := v.getLsbD 8
  let rise := en && !h.evEn
  { s with host := { h with evLog2n := bits v 0 5, evEn := en, evVec := bits v 16 11,
                            evHead := if rise then 0 else h.evHead, evTail := if rise then 0 else h.evTail } }

def setEvtail (s : State) (v : Word) : State := { s with host := { s.host with evTail := bits v 0 32 } }

/-! ### Completion records (R409) -/

/-- The loader writes its oldest record to host memory, and the port's message follows it. -/
def recordStep (s : State) : State :=
  match s.host.records with
  | [] => s
  | r :: rest =>
    let o : HostOut := .write r.addr.toNat (r.words.map bytesOfWord).flatten none
    { s with host := { s.host with records := rest, out := s.host.out ++ [o] } }.msix r.vec

/-! ### Ingress (R406 to R408, R422, R437) -/

def ingress (s : State) (p : Nat) : Ingress := (nget s.host.ingress p).getD {}

/-- A write dropped at a port: counted, and reported. -/
def dropIngress (s : State) (p : Nat) : State :=
  let g := s.ingress p
  let g' := { g with drops := if g.drops = 0xFFFF then g.drops else g.drops + 1 }
  { s with host := { s.host with ingress := nput s.host.ingress p g' } }.event
    { typ := 8, words := [BitVec.ofNat 64 p, g.ctx.setWidth 64] }

/-- The release signature of the host port. -/
def hostRs (s : State) : Sig := s.host.sig0 ||| s.host.sig1 ||| s.host.sig2 ||| s.host.sig3

/-- The token of a port's packet, as the port rewrites it. -/
def rewriteIngress (s : State) (n : BitVec 12) (t : Token) : Token :=
  { t with ctx := n, hid := 0, trapf := false, cntf := false, engf := false, relf := true, spkg := s.pkg, score := 0xFF, skind := 1,
           tail := s.hostRs }

/-- Sends a token of a port on: a launch to the graph loader, any other to its activation's core, which the destination computes where this
package does not know the activation's cores there (R134). -/
def deliverIngress (s : State) (vec : BitVec 11) (t : Token) : State :=
  if t.act = 0 then
    let q : LReq := { ctx := t.ctx, image := 0, entry := 0, payload := 0, params := [], count := 0, launcher := none, notify := none,
                      host := some (t.payload, vec), sig := t.tail, pkg := s.pkg, stage := 0 }
    s.setQueue (s.loader.queue ++ [q])
  else match s.spreadCore (actKey t.ctx t.act) t.dpkg t.dblock t.tag with
    | some c => s.sendToken { t with dcore := BitVec.ofNat 8 c }
    | none => if t.dpkg ≠ s.pkg then s.sendToken { t with dcore := 0 } else if (s.loadDesc t.ctx).ctx t.ctx |>.desc.valid then s.countDiscard t.ctx else s.protectionEvent 1 t.ctx s.pkg

/-- The oldest token of a port leaves it, unless its context's tokens are held back at their sources (R341), or a BAR2 write that it covers
has not been accepted at its home (R408). -/
def portOut (s : State) (p : Nat) : State :=
  let g := s.ingress p
  match g.fifo with
  | [] => s
  | t :: r =>
    if (t.act != 0 && s.spillStuck t.ctx) || s.heldFrom .host then s
    else { s with host := { s.host with ingress := nput s.host.ingress p { g with fifo := r } } }.deliverIngress g.vec t

/-- Tokens leave every port that holds some, while they can. -/
def portsOut (s : State) : State :=
  (nkeys s.host.ingress).foldl (fun s p => (s.ingress p).fifo.foldl (fun s _ => s.portOut p) s) s

/-- Cycles pass, and what waits in the ingress ports leaves them. -/
def tick (s : State) (n : Nat) : State := (s.pass n).portsOut

/-- A write to a port's page (R407): its token joins the port's FIFO, and leaves it at once if it can. -/
def ingressStep (s : State) (p off : Nat) (bytes : List Byte) : State :=
  let g := s.ingress p
  if !s.registersLive then s
  else if !s.owned .host then s.refuseWrite
  else if bytes.length ≠ 32 ∨ off ≠ 0 ∨ !g.en ∨ 64 ≤ g.fifo.length ∨ s.replaying g.ctx then s.dropIngress p
  else
    let s := s.loadDesc g.ctx
    if (s.ctx g.ctx).desc.secure && !s.sec.hostWorld then s.deny.dropIngress p
    else
      let t := s.rewriteIngress g.ctx (Token.ofWords (wordsOfBytes 4 bytes))
      let s := s.recordToken t
      let g := s.ingress p
      let s := { s with host := { s.host with ingress := nput s.host.ingress p { g with fifo := g.fifo ++ [t] } } }
      s.portOut p

/-! ### The window onto memory (R405, R419, R422) -/

/-- Whether an access of the host port reaches a secure region that the port may not see. -/
def hostDenied (s : State) (a len : Nat) : Bool :=
  !s.sec.hostWorld && (List.range len).any fun i => s.regionWorld (a + i)

/-- Inserts a line into the host port's current signature register. -/
def hostSig (s : State) (line : Nat) : State :=
  let k := sigInsert 0 (lineKey s.pkg line)
  let h := s.host
  { s with host := match s.epoch % 4 with
      | 0 => { h with sig0 := h.sig0 ||| k }
      | 1 => { h with sig1 := h.sig1 ||| k }
      | 2 => { h with sig2 := h.sig2 ||| k }
      | _ => { h with sig3 := h.sig3 ||| k } }

/-- A write through BAR2; an offset beyond the BAR reaches nothing (R403). -/
def bar2Store (s : State) (a : Nat) (bytes : List Byte) : State :=
  if !s.registersLive || decide (s.host.bar2 < a + bytes.length) then s
  else if !s.owned .host then s.refuseWrite
  else if s.hostDenied a bytes.length then s.deny
  else
    let s := s.acceptBytes (s.regionKey a) a bytes .host
    (((List.range bytes.length).map fun i => lineOf (a + i)).eraseDups).foldl (fun s l => s.hostSig l) s

/-- A read of the window: what it answers leaves for the host. The window does not respond before the boot has completed (R426). -/
def bar2Load (s : State) (a len : Nat) : State :=
  if !s.registersLive || decide (s.host.bar2 < a + len) then s
  else
  let bytes := if s.hostDenied a len then List.replicate len 0xFF
    else (List.range len).map fun i => if Config.memBytes ≤ a + i then 0xFF else s.homeByte (s.regionKey (a + i)) (a + i)
  let s := if s.hostDenied a len then s.deny
    else (((List.range len).map fun i => lineOf (a + i)).eraseDups).foldl (fun (s : State) l => s.l2Enter [] (s.regionKey (l * 128)) l) s
  { s.bump with host := { s.host with out := s.host.out ++ [.data bytes] } }

/-! ### Answers of the host (R414, R415) -/

/-- The word a CAS loop would store over one it has seen (R165, R415). -/
def CasLoop.next (x : CasLoop) (old : Word) : Word :=
  let n := atBytes x.size
  let bs := bytesOfWord old
  let m := wordOfBytes ((bs.drop x.off).take n)
  let v := (atomNew x.op x.size m x.x x.c).1
  wordOfBytes (bs.take x.off ++ bytesOfNat n v.toNat ++ bs.drop (x.off + n))

/-- One turn of a CAS loop: the word seen is compared against, and its successor offered. -/
def casTurn (s : State) (x : CasLoop) (old : Word) : State :=
  let cas := s.host.cas.map fun y => if y.id = x.id then { x with old, started := true } else y
  { s with host := { s.host with cas, out := s.host.out ++ [.atomic .cas x.word 8 (CasLoop.next x old) old x.id] } }

/-- An answer of the host; a claim, which alone could have to wait, is never asked of it. -/
def hostAnswered (s : State) (q : Request) (bs : List Byte) (bad : Bool) : State := (s.answered q bs bad 0).getD s

/-- A loop ends: the operand's bytes of the old word are returned. -/
def casEnd (s : State) (x : CasLoop) (old : Word) (bad : Bool) : State :=
  let s := { s with host := { s.host with cas := s.host.cas.filter fun y => y.id != x.id } }
  match s.reqs.find? fun q => q.id == x.id && q.pkg.isNone with
  | some q => s.hostAnswered q (((bytesOfWord old).drop x.off).take (atBytes x.size)) bad
  | none => s

/-- The host's answer to a CAS of a loop (R415). -/
def casStep (s : State) (id : Nat) (seen : Word) : State :=
  match s.host.cas.find? fun x => x.id == id && x.started with
  | none => s
  | some x => if seen = x.old then s.casEnd x x.old false else s.casTurn x seen

/-- A completion from the host: data or an acknowledgement for the lane, engine or agent that waits for it. -/
def completionStep (s : State) (id : Nat) (a : HostAnswer) : State :=
  match s.reqs.find? fun q => q.id == id && q.pkg.isNone with
  | none => s
  | some q => match s.host.cas.find? fun x => x.id == id, a with
    | some x, .data v => if x.started then s.casStep id (v.setWidth 64) else s.casTurn x (v.setWidth 64)
    | some x, .poisoned => s.casEnd x 0 true
    | some _, .ack => s
    | none, .poisoned => s.hostAnswered q [] true
    | none, .data v => s.hostAnswered q (bytesOfNat 16 v.toNat) false
    | none, .ack => match q.what with
      | .load .. => s
      | .read => s
      | _ => s.hostAnswered q [] false

/-! ### Ownership (R417 to R420) -/

/-- A CLAIM: taken while there is no owner, and of the claims of one cycle the host's before the baseboard controller's, and that before
the peer's (R418). -/
def claimStep (s : State) (m : Master) : State :=
  let c := Master.code s m
  let first := s.host.owner == 0 || (s.host.claimedAt == some s.cycle && decide (c < s.host.owner))
  if s.registersLive && c != 0 && first then { s with host := { s.host with owner := c, claimedAt := some s.cycle } } else s

/-- A write of HOST_PEERSET: the baseboard controller's, while there is no owner. -/
def peersetStep (s : State) (m : Master) (p : BitVec 12) : State :=
  if !s.registersLive then s
  else if s.host.owner = 0 ∧ m = .bmc then { s with host := { s.host with peerPkg := p } }
  else if s.owned m then s else s.refuseWrite

/-- A write of HOST_HANDOVER. -/
def setHandover (s : State) (v : Word) : State :=
  let new : BitVec 2 := bits v 0 2
  let p : BitVec 12 := bits v 16 12
  if !v.getLsbD 31 || s.host.handover.isSome || (new == 3 && p == 0xFFF) then s
  else { s with host := { s.host with handover := some (new, p) } }

/-- Writes the events that wait, as far as the ring takes them. -/
def eventsOut (s : State) : State := (s.host.evQueue ++ s.host.evWait).foldl (fun s _ => s.eventStep) s

/-- A handover takes effect once no command and no invalidation runs: its event goes to the ring as it stands, behind those that
wait, and then the owner changes (R420). While a ring that is on has no room it waits; where the ring is off the event waits for it
(R412). PEERPKG takes a value when the new owner is a peer. -/
def handoverStep (s : State) : State :=
  match s.host.handover with
  | none => s
  | some (new, p) =>
    if s.ctxRegs.busy || s.xlt.busy then s
    else
      let peer := if new = 3 then p else s.host.peerPkg
      let stuck (t : State) : Bool := s.host.evEn && !t.host.evQueue.isEmpty
      let t := s.eventsOut
      let u := (t.event { typ := 9, sub := new.setWidth 8, words := [peer.setWidth 64] }).eventsOut
      if stuck t || stuck u then s
      else { u with host := { u.host with owner := new, claimedAt := none, peerPkg := peer, handover := none } }

end State

def execIngressWrite (port : BitVec 8) (off : BitVec 12) (bytes : List Byte) (s : State) : Answer :=
  .next (s.ingressStep port.toNat off.toNat bytes)
def execBar2Write (addr : Nat) (bytes : List Byte) (s : State) : Answer := .next (s.bar2Store addr bytes)
def execBar2Read (addr len : Nat) (s : State) : Answer := .next (s.bar2Load addr len)
def execCompletionRecord (s : State) : Answer := .next s.recordStep
def execEventWrite (s : State) : Answer := .next s.eventStep
def execHostEvctlWrite (m : Master) (v : Word) (s : State) : Answer := .next (s.ownerWrite m fun s => s.setEvctl v)
def execHostEvtailWrite (m : Master) (v : Word) (s : State) : Answer := .next (s.ownerWrite m fun s => s.setEvtail v)
def execHostCasResponse (id : Nat) (seen : Word) (s : State) : Answer := .next (s.casStep id seen)
def execHostCompletion (id : Nat) (ans : HostAnswer) (s : State) : Answer := .next (s.completionStep id ans)
def execHostClaim (m : Master) (s : State) : Answer := .next (s.claimStep m)
def execHostPeerset (m : Master) (pkg : BitVec 12) (s : State) : Answer := .next (s.peersetStep m pkg)
def execHostHandover (m : Master) (v : Word) (s : State) : Answer := .next (s.ownerWrite m fun s => s.setHandover v)
def execHandoverEffect (s : State) : Answer := .next s.handoverStep

end Sys2Proof.Machine
end

