-- ==== Sys2Proof/Machine/Security.lean ====
section
/-! DEFINITION. Boot, keys, attestation and reset (R421 to R428, R432). -/

namespace Sys2Proof.Machine

/-- Whether a master may stage an image and start the boot ROM: the host function, or the baseboard controller (R426). -/
def Master.boots : Master → Bool
  | .host => true
  | .bmc => true
  | .peer _ => false

namespace State

/-! ### Boot (R425 to R427) -/

/-- A write of SEC_BOOTCTL or the staging window once the boot has completed does nothing, and a master that is not the owner has it
refused (R419, R421). -/
def afterBoot (s : State) (m : Master) : State := s.ownerWrite m id

/-- A write to the staging window, ignored after START. -/
def stage (s : State) (m : Master) (off : Nat) (bytes : List Byte) : State :=
  if s.sec.bootState = 0 ∧ Master.boots m ∧ off + bytes.length ≤ 2 ^ 22 then
    { s with sec := { s.sec with staging := mputs s.sec.staging off bytes } }
  else s.afterBoot m

/-- START, ignored while STATE is not 0. -/
def startBoot (s : State) (m : Master) : State :=
  if s.sec.bootState = 0 ∧ Master.boots m then { s with sec := { s.sec with bootState := 1 } } else s.afterBoot m

/-- Bytes of the staged image. -/
def staged (s : State) (off n : Nat) : List Byte := mgets s.sec.staging off n

def stagedNat (s : State) (off n : Nat) : Nat := natOfBytes (s.staged off n)

/-- The size of BODY. -/
def bodySize (s : State) : Nat := s.stagedNat 8 4

/-- SVN, the image's security version. -/
def imageSvn (s : State) : BitVec 32 := BitVec.ofNat 32 (s.stagedNat 0xC 4)

/-- The FAIL code of the first check of the boot ROM that fails, 0 for none (R427). -/
def bootFault (s : State) : BitVec 8 :=
  let body := s.bodySize
  let ed := s.staged 0x10 32
  let ml := s.staged 0x40 1952
  let msg := s.staged 0 (0x800 + body)
  if s.stagedNat 0 4 ≠ 0x57465A4C ∨ s.stagedNat 4 4 ≠ 1 ∨ body % 64 ≠ 0 ∨ 2 ^ 22 < 0x800 + body + 64 + 3309
      ∨ (s.staged 0x30 16).any (fun b => b != 0) ∨ (s.staged 0x7E0 32).any (fun b => b != 0) then 1
  else if s.imageSvn.toNat < max Config.fusedSvn.toNat s.sec.svnUp.toNat then 2
  else if Config.sha384 ed ≠ Config.fusedEdHash ∨ Config.sha384 ml ≠ Config.fusedMldsaHash then 3
  else if !Config.ed25519Ok ed msg (s.staged (0x800 + body) 64) then 4
  else if !Config.mldsaOk ml msg (s.staged (0x800 + body + 64) 3309) then 5
  else 0

/-- Every key slot with a key of a boot, marked non-secure (R425). -/
def bootKeys (s : State) : NMap KeySlot :=
  (List.range 256).map fun i => (i, { world := false, key := Config.bootKey s.sec.boots i, gen := (s.keySlot (BitVec.ofNat 8 i)).gen + 1 })

/-- What firmware leaves the fused counter at: never lower (R427). -/
def raiseSvn (s : State) : BitVec 32 := if s.sec.svnUp < Config.svnRaise s.sec.boots then Config.svnRaise s.sec.boots else s.sec.svnUp

/-- The boot ROM's verdict. When the image verifies, the alias pair of its measurement is derived, and every other register holds its reset
value (R427); until a report is made the report window holds the certificates of the two identities (R428). -/
def endBoot (s : State) : State :=
  if s.sec.bootState ≠ 1 then s
  else
    let f := s.bootFault
    if f ≠ 0 then { s with sec := { s.sec with bootState := 3, bootFail := f } }
    else
      let measure := Config.sha384 (s.staged 0 (0x800 + s.bodySize + 64 + 3309))
      let pair := Config.aliasPair measure
      { State.reset with
        flow := s.flow
        homes := s.homes
        host := { ({} : HostIf) with out := s.host.out }
        sec := { ({} : Sec) with
          bootState := 2, keys := s.bootKeys, measure, boots := s.sec.boots + 1, staging := s.sec.staging, svnUp := s.raiseSvn, alias_ := pair,
          report := Config.certificates ++ Config.aliasCertificate pair } }

/-! ### Reset (R425, R426, R432) -/

/-- A fundamental reset. What the environment is to do next, the time, the count of boots and the fuses go on; what has left through the
host port has left; and the bytes of memory are open (R425). -/
def resetAll (s : State) : State :=
  let opens : List OpenRange := [{ lo := 0, hi := Config.memBytes, occasion := s.flow.freeCtr, off := 0, raw := true }]
  { State.reset with
    flow := { s.bump.flow with focusCore := 0, focusSlot := 0 }
    sec := { ({} : Sec) with boots := s.sec.boots, svnUp := s.sec.svnUp }
    host := { ({} : HostIf) with out := s.host.out }
    homes := { ({} : Homes) with opens } }

/-- A trip: its event is written if the ring takes it at once, and the module enters reset (R432, R433). -/
def tripStep (s : State) (hbm : Bool) (temp : Nat) : State :=
  if temp < (if hbm then 105 else 110) then s
  else if s.host.evQueue.isEmpty then (s.event { typ := 19, sub := if hbm then 1 else 0 }).eventStep.resetAll
  else s.resetAll

/-! ### Locks and keys (R421, R424, R425) -/

def setLock (s : State) (v : Word) : State := if v.getLsbD 0 then { s with sec := { s.sec with lock := true } } else s

/-- A GO write of SEC_KEYSEL loads a slot at one instant; a secure slot is not written while LOCK is 1. -/
def loadKey (s : State) (v : Word) : State :=
  let slot : BitVec 8 := bits v 0 8
  let k := s.keySlot slot
  if !v.getLsbD 31 || (s.sec.lock && k.world) then s
  else
    { s with sec := { s.sec with keys := nput s.sec.keys slot.toNat { world := v.getLsbD 8, key := s.sec.keyData, gen := k.gen + 1 } } }

/-! ### Attestation (R428) -/

/-- A region's two words, as the table lays them out (R421). -/
def Region.words (r : Region) : List Word :=
  [BitVec.ofNat 64 (r.en.toNat + r.world.toNat * 2 + r.base.toNat * 4096), BitVec.ofNat 64 (r.key.toNat + r.limit.toNat * 4096)]

/-- The world registers and the region table, word by word in the order of their offsets (R421). -/
def worldWords (s : State) : List Word :=
  (List.range 4).map (fun i => s.sec.coreWorld.extractLsb' (64 * i) 64) ++ [s.sec.engWorld.setWidth 64]
    ++ (List.range 2).map (fun i => s.sec.strmWorld.extractLsb' (64 * i) 64)
    ++ [s.sec.portWorld, BitVec.ofNat 64 (s.sec.ethWorld.toNat + s.sec.hostWorld.toNat * 16)]
    ++ ((List.range 16).map fun n => Region.words ((nget s.sec.regions n).getD {})).flatten

/-- Their SHA-384 (R428; assumption log 6). -/
def worldHash (s : State) : BitVec 384 := Config.sha384 (s.worldWords.map bytesOfWord).flatten

/-- A report is asked for: the instant it is made from (assumption log 6). -/
def askReport (s : State) : State :=
  if s.sec.attBusy then s
  else { s with sec := { s.sec with
    attBusy := true, attSnap := [s.sec.nonce.toNat, s.sec.lock.toNat, s.links.pkgId.toNat, s.worldHash.toNat] } }

/-- The report is made, with the alias pair's signatures. -/
def endReport (s : State) : State :=
  if !s.sec.attBusy then s
  else match s.sec.attSnap with
    | [nonce, lock, pkg, worlds] =>
      let body := Config.reportBody (BitVec.ofNat 256 nonce) s.sec.measure s.imageSvn (lock != 0) (BitVec.ofNat 12 pkg) (BitVec.ofNat 384 worlds)
      { s with sec := { s.sec with attBusy := false, report := body ++ Config.aliasSignatures s.sec.alias_ body } }
    | _ => { s with sec := { s.sec with attBusy := false } }

end State

def execBootStart (m : Master) (s : State) : Answer := .next (s.startBoot m)
def execBootComplete (s : State) : Answer := .next s.endBoot
def execStagingWrite (m : Master) (off : Nat) (bytes : List Byte) (s : State) : Answer := .next (s.stage m off bytes)
def execSecLock (m : Master) (v : Word) (s : State) : Answer := .next (s.ownerWrite m fun s => s.setLock v)
def execKeyLoad (m : Master) (v : Word) (s : State) : Answer := .next (s.ownerWrite m fun s => s.loadKey v)
def execAttestationRequest (m : Master) (s : State) : Answer := .next (s.ownerWrite m fun s => s.askReport)
def execAttestationDone (s : State) : Answer := .next s.endReport
def execReset (s : State) : Answer := .next s.resetAll
def execTrip (hbm : Bool) (temp : BitVec 8) (s : State) : Answer := .next (s.tripStep hbm temp.toNat)

end Sys2Proof.Machine
end

