-- ==== Sys2Proof/Machine/Mgmt.lean ====
section
/-! DEFINITION. Power, temperatures, memory through the management registers, soft errors and replay (R343, R429 to R437). -/

namespace Sys2Proof.Machine

namespace State

/-! ### Power and temperature (R429 to R433) -/

/-- The cap that LIMIT stands for (R430). -/
def powerLimit (s : State) : Nat := max 500 (min 2800 s.mgmt.pwrLimit.toNat)

/-- A new average of the module's power: capping begins when it exceeds LIMIT, and ends when it falls below (R431). -/
def powerStep (s : State) (now : BitVec 12) : State :=
  let capped := decide (s.powerLimit < now.toNat) || (s.mgmt.capped && decide (s.powerLimit = now.toNat))
  let s1 := { s with mgmt := { s.mgmt with pwrNow := now, capped } }
  if capped = s.mgmt.capped then s1
  else s1.event { typ := 16, sub := if capped then 0 else 1, words := [s.mgmt.pwrLimit.setWidth 64, now.setWidth 64] }

/-- Whether the cap is being enforced: nothing is gated while a context is being pre-empted (R430, R431). -/
def capping (s : State) : Bool := s.mgmt.capped && !s.leaving

/-- A reading of the hottest die sensor: a warning at an upward crossing of WARN. -/
def temperatureStep (s : State) (die : BitVec 4) (temp : BitVec 8) : State :=
  let crossed := s.mgmt.dieMax.toNat < s.mgmt.warn.toNat && s.mgmt.warn.toNat ≤ temp.toNat
  let s := { s with mgmt := { s.mgmt with dieMax := temp } }
  if crossed then s.event { typ := 17, words := [temp.setWidth 64, die.setWidth 64] } else s

/-- A reading of an HBM stack: throttling begins, changes or ends, and HBMMAX is the hottest stack's (R430, R432). -/
def throttleStep (s : State) (stack : BitVec 4) (temp : BitVec 8) : State :=
  let i := stack.toNat
  let was := (s.mgmt.hbmThr.getLsbD i, s.mgmt.hbmQuarter.getLsbD i)
  let is := (decide (85 ≤ temp.toNat), decide (95 ≤ temp.toNat))
  let put (w : BitVec 16) (b : Bool) : BitVec 16 := if b then w ||| (1#16 <<< i) else w &&& ~~~(1#16 <<< i)
  let temps := nput s.mgmt.hbmTemp i temp
  let hottest := temps.foldl (fun (m : BitVec 8) (p : Nat × BitVec 8) => if m < p.2 then p.2 else m) 0
  let s := { s with mgmt := { s.mgmt with hbmTemp := temps, hbmMax := hottest, hbmThr := put s.mgmt.hbmThr is.1, hbmQuarter := put s.mgmt.hbmQuarter is.2 } }
  if is = was then s
  else s.event { typ := 18, sub := if is.2 then 1 else if is.1 then 0 else 2, words := [stack.setWidth 64] }

/-- A write of MGMT_COOL: the baseboard controller's whoever owns the module, or the owner's (R433). -/
def coolStep (s : State) (m : Master) (code : Byte) : State :=
  if !s.registersLive then s
  else if m = .bmc ∨ s.owned m then (if code = 0 then s else s.event { typ := 23, sub := code }) else s.refuseWrite

/-! ### Memory through MGMT_MEMADDR (R434) -/

/-- The 8 bytes at ADDR, all ones beyond the installed memory as through BAR2 (R405), and the state once they have been read by a master: the owner's access advances ADDR. -/
def memRead (s : State) (m : Master) : Word × State :=
  if !s.registersLive then (0, s)
  else
    let a := s.mgmt.memAddr.toNat
    let v := wordOfBytes ((List.range 8).map fun i => if Config.memBytes ≤ a + i then 0xFF else s.homeByte (s.regionKey a) (a + i))
    let s := s.l2Enter [] (s.regionKey a) (lineOf a)
    (v, if s.owned m then { s with mgmt := { s.mgmt with memAddr := BitVec.ofNat 64 ((a + 8) % 2 ^ 52) } } else s)

/-- A read's answer to a master: it leaves through the host port, or over I3C; an answer to a peer's read has no given form. -/
def answerMaster (s : State) (m : Master) (v : Word) : State :=
  match m with
  | .host => { s with host := { s.host with out := s.host.out ++ [.data (bytesOfWord v)] } }
  | .bmc => { s with mgmt := { s.mgmt with i3cOut := s.mgmt.i3cOut ++ [v] } }
  | .peer _ => s

def memdataReadStep (s : State) (m : Master) : State :=
  let r := s.memRead m
  (r.2.answerMaster m r.1).bump

/-- The owner's write of MGMT_MEMDATA. -/
def memWrite (s : State) (v : Word) : State :=
  let a := s.mgmt.memAddr.toNat
  let s := s.acceptBytes (s.regionKey a) a (bytesOfWord v)
  { s with mgmt := { s.mgmt with memAddr := BitVec.ofNat 64 ((a + 8) % 2 ^ 52) } }

/-! ### Soft errors (R343, R435) -/

/-- A lane that waits for data raises ECC_UNCORRECTED. -/
def badLoad (s : State) (c slot l : Nat) : State :=
  match s.chord? c slot with
  | none => s
  | some ch => match ch.waits.find? fun w => w.lanes.contains l with
    | some w => s.setChord c slot (ch.finishWait w true)
    | none => s

/-- What an uncorrectable error does, by the structure that holds it. One in an SRAM, a line or a version is found when it is read: at a
grant, a staging read, RGET, or an access to memory (R343, R382). -/
def badAt (s : State) (w : EccWhere) : State :=
  match w with
  | .load c slot lane => s.badLoad c.toNat slot.toNat lane.toNat
  | .sram c a => s.modCore c.toNat fun k => { k with bad := k.bad ++ (List.range 8).map (a.toNat / 8 * 8 + ·) }
  | .fill c n => match (s.core c.toNat).bfills[n]? with
    | some f => (s.dropFill c.toNat n).failFill c.toNat f (trapEcc (BitVec.ofNat 64 f.va) 4)
    | none => s
  | .line l => s.setLine l { s.line l with poison := true }
  | .version n h l => { s with homes := { s.homes with versions := s.homes.versions.map fun v =>
      if v.ctx = n ∧ v.hid = h ∧ v.line = l then { v with poison := true } else v } }
  | .matching n => s.escalate n 6 {}

/-- A soft error: a corrected one is counted by its counter, and an uncorrectable one by counter 5 and handled by its structure; a parity
error of a matching store is one that counter 3 counts too. -/
def eccStep (s : State) (n : Nat) (bad : Option EccWhere) : State :=
  match bad with
  | none => if n < 6 then s.countError n else s
  | some (.matching m) => ((if n = 3 then s.countError 3 else s).countError 5).badAt (.matching m)
  | some w => (s.countError 5).badAt w

/-! ### Replay (R437) -/

/-- The context that is being replayed. -/
def replayCtx (s : State) : Option (BitVec 12) :=
  (s.dbg.active.find? fun p => p.2 == 2).map (·.1)

/-- The next logged ingress token is injected; where the log has run out the replay stops. -/
def injectStep (s : State) : State :=
  match s.replayCtx, s.nextLog fun e => e.kind == 1 with
  | some n, none => if s.checked n ∧ (s.nextLog fun _ => true).isNone then s.replayStop n 0 0xFF s.dbg.recHead.toNat else s
  | some n, some e =>
    let t := s.rewriteIngress n (s.loggedToken e.w2 e.w3)
    let vec := match s.host.ingress.find? fun p => p.2.en && p.2.ctx == n with
      | some p => p.2.vec
      | none => 0
    (s.consumeLog e).deliverIngress vec { t with act := e.act }
  | none, _ => s

/-- A core's next logged chord cannot be granted in time, or the whole log has run out while a bin of the context would be granted. Where only
the core's chords have, its bins are not granted, and wait. -/
def replayTimeoutStep (s : State) (c : Nat) : State :=
  match s.replayCtx with
  | none => s
  | some n => if !s.checked n then s else match s.nextChord c with
    | some e =>
      let since := (nget s.dbg.nextAt c).getD (s.ctx n).since
      if since + 2 ^ 20 ≤ s.cycle then s.replayStop n 3 c e.off else s
    | none =>
      let ended := (s.nextLog fun _ => true).isNone
      if ended && (s.ctx n).fires && (s.core c).bins.any fun b => b.2.ctx == n && s.firable c b.2 then s.replayStop n 0 c s.dbg.recHead.toNat else s

end State

def execPowerCap (now : BitVec 12) (s : State) : Answer := .next (s.powerStep now)
def execTemperatureWarning (die : BitVec 4) (temp : BitVec 8) (s : State) : Answer := .next (s.temperatureStep die temp)
def execHbmThrottle (stack : BitVec 4) (temp : BitVec 8) (s : State) : Answer := .next (s.throttleStep stack temp)
def execMgmtCool (m : Master) (code : Byte) (s : State) : Answer := .next (s.coolStep m code)
def execMemdataRead (m : Master) (s : State) : Answer := .next (s.memdataReadStep m)
def execMemdataWrite (m : Master) (v : Word) (s : State) : Answer := .next (s.ownerWrite m fun s => s.memWrite v)
def execEccError (n : BitVec 3) (bad : Option EccWhere) (s : State) : Answer := .next (s.eccStep n.toNat bad)
def execReplayInject (s : State) : Answer := .next s.injectStep
def execReplayTimeout (core : BitVec 8) (s : State) : Answer := .next (s.replayTimeoutStep core.toNat)

end Sys2Proof.Machine
end

