-- ==== Sys2Proof/Machine/Registers.lean ====
section
/-! DEFINITION. The register file behind BAR0 and I3C (R8, R9, R326, R397, R404, R417, R421, R434): a write to each register, a
read of each, and the baseboard controller's accesses. -/

namespace Sys2Proof.Machine

/-- A register of 64-bit parts: part n of a wide value, and the value with part n replaced. -/
def part {w : Nat} (x : BitVec w) (n : Nat) : Word := BitVec.ofNat 64 (x.toNat / 2 ^ (64 * n))
def setPart {w : Nat} (x : BitVec w) (n : Nat) (v : Word) : BitVec w :=
  BitVec.ofNat w (x.toNat % 2 ^ (64 * n) + v.toNat * 2 ^ (64 * n) + x.toNat / 2 ^ (64 * (n + 1)) * 2 ^ (64 * (n + 1)))

namespace State

/-! ### Writes -/

def setRegion (s : State) (n : Nat) (f : Region → Region) : State :=
  { s with sec := { s.sec with regions := nput s.sec.regions n (f ((nget s.sec.regions n).getD {})) } }

/-- A routing-table entry's part (R234). A package that the table comes to name is told of the trap activations here (R134). -/
def setRoute (s : State) (i : Nat) (high : Bool) (v : Word) : State :=
  let r := (nget s.links.routes i).getD {}
  let r := if high then { r with valid := v.getLsbD 0, hops := bits v 1 3 } else { r with ports := v }
  let s : State := { s with links := { s.links with routes := nput s.links.routes i r } }
  s.knownCtxs.foldl (fun s n => s.tellTrap n) s

/-- A write of MGMT_PKGID: ignored while a context is resident, leaving or saved (R241). -/
def setPkgId (s : State) (v : Word) : State :=
  if s.knownCtxs.any fun n => (s.ctx n).st == .resident || (s.ctx n).st == .leaving || (s.ctx n).st == .saved then s
  else { s with links := { s.links with pkgId := bits v 0 12, pkgValid := v.getLsbD 12 } }

/-- A write of an error counter sets its threshold (R435). -/
def setThresh (s : State) (n : Nat) (v : Word) : State :=
  let e := (nget s.mgmt.ecc n).getD {}
  let thresh : BitVec 32 := bits v 32 32
  { s with mgmt := { s.mgmt with ecc := nput s.mgmt.ecc n { e with thresh, told := decide (thresh ≤ e.count) } } }

/-- A write of CTX_CMD (R326): an OP that is none of the five is ignored. -/
def setCtxCmd (s : State) (v : Word) : State :=
  let n : BitVec 12 := bits v 0 12
  if s.ctxRegs.busy then s
  else
    let s1 := { s with ctxRegs := { s.ctxRegs with err := 0 } }
    match (bits v 12 4).toNat with
    | 1 => s1.cmdPreempt n
    | 2 => s1.cmdStop n
    | 3 => s1.cmdResume n
    | 4 => s1.cmdEnd n
    | 5 => s1.cmdReload n
    | _ => s

/-- A write of XLT_FAULT (R398). -/
def setFault (s : State) (v : Word) : State :=
  match (bits v 32 2).toNat with
  | 0 => s.resumeFault (bits v 0 32)
  | 1 => s.refuseFault (bits v 0 32)
  | _ => s

/-- World registers and the region table (R421), which LOCK freezes. -/
def setWorld (s : State) (off : Nat) (v : Word) : State :=
  let x := s.sec
  if x.lock then s
  else if 0x100 ≤ off ∧ off < 0x120 then { s with sec := { x with coreWorld := setPart x.coreWorld ((off - 0x100) / 8) v } }
  else if off = 0x120 then { s with sec := { x with engWorld := bits v 0 32 } }
  else if off = 0x128 ∨ off = 0x130 then { s with sec := { x with strmWorld := setPart x.strmWorld ((off - 0x128) / 8) v } }
  else if off = 0x138 then { s with sec := { x with portWorld := v } }
  else if off = 0x140 then { s with sec := { x with ethWorld := bits v 0 4, hostWorld := v.getLsbD 4 } }
  else if 0x200 ≤ off ∧ off < 0x300 then
    s.setRegion ((off - 0x200) / 16) fun r =>
      if off % 16 = 0 then { r with en := v.getLsbD 0, world := v.getLsbD 1, base := bits v 12 40 }
      else { r with key := bits v 0 8, limit := bits v 12 40 }
  else s

/-- A write of a SEC_ register but SEC_BOOTCTL. -/
def setSec (s : State) (off : Nat) (v : Word) : State :=
  if off = 0x10 then s.setLock v
  else if off = 0x300 then s.loadKey v
  else if 0x308 ≤ off ∧ off < 0x348 then { s with sec := { s.sec with keyData := setPart s.sec.keyData ((off - 0x308) / 8) v } }
  else if 0x400 ≤ off ∧ off < 0x420 then { s with sec := { s.sec with nonce := setPart s.sec.nonce ((off - 0x400) / 8) v } }
  else if off = 0x420 then (if v.getLsbD 0 then s.askReport else s)
  else s.setWorld off v

/-- A write of a MGMT_ or DBG_ register. -/
def setMgmt (s : State) (off : Nat) (v : Word) : State :=
  match off with
  | 0x00 => { s with mgmt := { s.mgmt with pwrLimit := bits v 0 12 } }
  | 0x10 => { s with mgmt := { s.mgmt with warn := bits v 16 8 } }
  | 0x20 => { s with mgmt := { s.mgmt with memAddr := BitVec.ofNat 64 (v.toNat % 2 ^ 52 / 8 * 8) } }
  | 0x28 => s.memWrite v
  | 0x30 => s.setPkgId v
  | 0x38 => { s with links := { s.links with src := v.getLsbD 0, hold := if v.getLsbD 0 then 0 else s.links.hold } }
  | 0x100 =>
    let d := s.dbg
    { s with dbg := { d with mode := bits v 0 2, ctx := bits v 2 12, fresh := d.fresh || d.mode != bits v 0 2 || d.ctx != bits v 2 12 } }
  | 0x108 => { s with dbg := { s.dbg with recBase := BitVec.ofNat 64 (v.toNat % 2 ^ 52 / 64 * 64) } }
  | 0x110 => { s with dbg := { s.dbg with recSize := bits v 0 32 } }
  | _ => if 0x40 ≤ off ∧ off < 0x70 then s.setThresh ((off - 0x40) / 8) v else s

/-- A write of a HOST_ register but CLAIM and PEERSET. -/
def setHost (s : State) (off : Nat) (v : Word) : State :=
  match off with
  | 0x18 => s.setHandover v
  | 0x100 => { s with host := { s.host with evBase := BitVec.ofNat 64 (v.toNat / 4096 * 4096), evLocal := v.getLsbD 63 } }
  | 0x108 => s.setEvctl v
  | 0x118 => s.setEvtail v
  | 0x200 => { s with host := { s.host with atomCap := bits v 0 6 } }
  | _ => s

/-- The owner's write of 8 bytes at a BAR0 offset; offsets without a writable register ignore it (R404). -/
def regSet (s : State) (off : Nat) (v : Word) : State :=
  if off < 0x8000 then s.msixWrite (off / 8) v
  else if 0x10000 ≤ off ∧ off < 0x20000 then s.setHost (off - 0x10000) v
  else if 0x20000 ≤ off ∧ off < 0x20800 then
    let p := (off - 0x20000) / 8
    let g := { s.ingress p with en := v.getLsbD 0, ctx := bits v 4 12, vec := bits v 16 11 }
    { s with host := { s.host with ingress := nput s.host.ingress p g } }
  else if off = 0x100000 then { s with ctxRegs := { s.ctxRegs with tabBase := v } }
  else if off = 0x100008 then s.setCtxCmd v
  else if off = 0x110000 then { s with xlt := { s.xlt with invAddr := BitVec.ofNat 64 (v.toNat % 2 ^ 57 / 4096 * 4096) } }
  else if off = 0x110008 then s.invalCommand (bits v 12 3).toNat (bits v 0 12) (bits v 16 2).toNat (bits v 32 16).toNat
  else if off = 0x110018 then s.setFault v
  else if 0x200000 ≤ off ∧ off < 0x201000 then s.setSec (off - 0x200000) v
  else if 0x300000 ≤ off ∧ off < 0x301000 then s.setMgmt (off - 0x300000) v
  else if 0x1000000 ≤ off ∧ off < 0x1020000 then s.setRoute ((off - 0x1000000) / 16) (off % 16 = 8) v
  else s

/-- A master's write of 8 bytes at a BAR0 offset: what is open to a master that is not the owner first (R419, R426, R433). -/
def regWrite (s : State) (m : Master) (off : Nat) (v : Word) : State :=
  if off % 8 ≠ 0 then s
  else if 0x400000 ≤ off ∧ off < 0x800000 then s.stage m (off - 0x400000) (bytesOfWord v)
  else if off = 0x200000 then (if v.getLsbD 0 then s.startBoot m else if s.sec.bootState = 0 then s else s.afterBoot m)
  else if off = 0x10010 then (if v.getLsbD 0 then s.claimStep m else s)
  else if off = 0x10008 then s.peersetStep m (bits v 0 12)
  else if off = 0x300018 then s.coolStep m (bits v 0 8)
  else s.ownerWrite m fun s => s.regSet off v

/-! ### Reads -/

/-- A read of a SEC_ register or of the report window. -/
def secRead (s : State) (off : Nat) : Word :=
  let x := s.sec
  let r : Region := (nget x.regions ((off - 0x200) / 16)).getD {}
  if off = 0x08 then BitVec.ofNat 64 (x.bootState.toNat + x.bootFail.toNat * 256)
  else if off = 0x10 then BitVec.ofNat 64 x.lock.toNat
  else if off = 0x18 then x.denied.setWidth 64
  else if 0x100 ≤ off ∧ off < 0x120 then part x.coreWorld ((off - 0x100) / 8)
  else if off = 0x120 then x.engWorld.setWidth 64
  else if off = 0x128 ∨ off = 0x130 then part x.strmWorld ((off - 0x128) / 8)
  else if off = 0x138 then x.portWorld
  else if off = 0x140 then BitVec.ofNat 64 (x.ethWorld.toNat + x.hostWorld.toNat * 16)
  else if 0x200 ≤ off ∧ off < 0x300 then
    (if off % 16 = 0 then BitVec.ofNat 64 (r.en.toNat + r.world.toNat * 2 + r.base.toNat * 4096)
     else BitVec.ofNat 64 (r.key.toNat + r.limit.toNat * 4096))
  else if off = 0x420 then BitVec.ofNat 64 (x.attBusy.toNat * 2)
  else if 0x1000 ≤ off ∧ off < 0x3000 then wordOfBytes ((x.report.drop (off - 0x1000)).take 8)
  else 0

/-- A port's count of discarded packets, which the owner may read (R233). DESIGN CHOICE (assumption log 12): no rule gives it an offset, so
it stands at an open one, where no other register is. -/
def discardRead (s : State) (off : Nat) : Word :=
  match (List.range 64).find? fun q => Config.discardAt q == off with
  | some q => (s.port q).discards.setWidth 64
  | none => 0

/-- A read of a MGMT_ or DBG_ register but MGMT_MEMDATA. -/
def mgmtRead (s : State) (off : Nat) : Word :=
  let g := s.mgmt
  match off with
  | 0x00 => g.pwrLimit.setWidth 64
  | 0x08 => BitVec.ofNat 64 (g.pwrNow.toNat + s.capping.toNat * 4096)
  | 0x10 => BitVec.ofNat 64 (g.dieMax.toNat + g.hbmMax.toNat * 2 ^ 8 + g.warn.toNat * 2 ^ 16 + g.hbmThr.toNat * 2 ^ 24)
  | 0x20 => g.memAddr
  | 0x30 => BitVec.ofNat 64 (s.links.pkgId.toNat + s.links.pkgValid.toNat * 4096)
  | 0x38 => BitVec.ofNat 64 s.links.src.toNat
  | 0x70 => s.links.dtime
  | 0x100 => BitVec.ofNat 64 (s.dbg.mode.toNat + s.dbg.ctx.toNat * 4)
  | 0x108 => s.dbg.recBase
  | 0x110 => s.dbg.recSize.setWidth 64
  | 0x118 => s.dbg.recHead
  | _ =>
    if 0x40 ≤ off ∧ off < 0x70 then
      let e := (nget g.ecc ((off - 0x40) / 8)).getD {}
      BitVec.ofNat 64 (e.count.toNat + e.thresh.toNat * 2 ^ 32)
    else s.discardRead off

/-- A read of a HOST_ register. -/
def hostRead (s : State) (off : Nat) : Word :=
  let h := s.host
  match off with
  | 0x00 => BitVec.ofNat 64 (h.owner.toNat + h.peerPkg.toNat * 2 ^ 16)
  | 0x20 => h.nownWr.setWidth 64
  | 0x100 => BitVec.ofNat 64 (h.evBase.toNat % 2 ^ 63 + h.evLocal.toNat * 2 ^ 63)
  | 0x108 => BitVec.ofNat 64 (h.evLog2n.toNat + h.evEn.toNat * 2 ^ 8 + h.evVec.toNat * 2 ^ 16)
  | 0x110 => h.evHead.setWidth 64
  | 0x118 => h.evTail.setWidth 64
  | 0x120 => h.evLost.setWidth 64
  | 0x200 => h.atomCap.setWidth 64
  | _ => 0

/-- The value at a BAR0 offset (R8, R404, R426); MGMT_MEMDATA is read by `memRead`. -/
def regRead (s : State) (off : Nat) : Word :=
  if !s.registersLive then (if off = 0x200008 then s.secRead 8 else 0)
  else if off < 0x8000 then s.msixWord (off / 8)
  else if off < 0x8100 then part s.host.msixPend ((off - 0x8000) / 8)
  else if 0x10000 ≤ off ∧ off < 0x20000 then s.hostRead (off - 0x10000)
  else if 0x20000 ≤ off ∧ off < 0x20800 then
    let g := s.ingress ((off - 0x20000) / 8)
    BitVec.ofNat 64 (g.en.toNat + g.ctx.toNat * 2 ^ 4 + g.vec.toNat * 2 ^ 16 + g.drops.toNat * 2 ^ 32 + (64 - g.fifo.length) * 2 ^ 48)
  else if off = 0x100000 then s.ctxRegs.tabBase
  else if off = 0x100010 then BitVec.ofNat 64 (s.ctxRegs.busy.toNat + s.ctxRegs.err.toNat * 2)
  else if off = 0x110000 then s.xlt.invAddr
  else if off = 0x110010 then BitVec.ofNat 64 (s.xlt.busy.toNat + s.xlt.err.toNat * 2)
  else if 0x200000 ≤ off ∧ off < 0x203000 then s.secRead (off - 0x200000)
  else if 0x300000 ≤ off ∧ off < 0x301000 then s.mgmtRead (off - 0x300000)
  else if 0x1000000 ≤ off ∧ off < 0x1020000 then
    let r := (nget s.links.routes ((off - 0x1000000) / 16)).getD {}
    if off % 16 = 8 then BitVec.ofNat 64 (r.valid.toNat + r.hops.toNat * 2) else r.ports
  else 0

/-! ### I3C (R434) -/

/-- A private read answers what the write before it asked for, and all ones where none did. -/
def i3cAnswer (s : State) : State :=
  { s with mgmt := { s.mgmt with i3cOut := s.mgmt.i3cOut ++ [s.mgmt.i3cRead.getD (BitVec.allOnes 64)], i3cRead := none } }

/-- A private write of 13 bytes makes one access as the baseboard controller; a malformed one makes none, and a write leaves the answer of
a read that stands. No bytes stand for a private read. -/
def i3cStep (s : State) (bytes : List Byte) : State :=
  let clear (s : State) : State := { s with mgmt := { s.mgmt with i3cRead := none } }
  let off := natOfBytes ((bytes.drop 1).take 4)
  let v := wordOfBytes ((bytes.drop 5).take 8)
  if bytes.isEmpty then s.i3cAnswer
  else if bytes.length ≠ 13 ∨ off % 8 ≠ 0 then clear s
  else match (bytes.headD 0).toNat with
    | 1 =>
      let r := if off = 0x300028 then s.memRead .bmc else (s.regRead off, s)
      { r.2 with mgmt := { r.2.mgmt with i3cRead := some r.1 } }
    | 2 => s.regWrite .bmc off v
    | _ => clear s

end State

def execRegisterWrite (m : Master) (off : Nat) (v : Word) (s : State) : Answer := .next (s.regWrite m off v)
def execI3cAccess (bytes : List Byte) (s : State) : Answer := .next (s.i3cStep bytes)

end Sys2Proof.Machine
end

