-- ==== Sys2Proof/Machine/Dispatch.lean ====
section
/-! DEFINITION. One arm for each constructor of Instr: the call of its meaning. -/

namespace Sys2Proof.Machine

def exec (i : Instr) (s : State) : Host.Outcome State Fault Refusal :=
  match i with
  | .add ty f => Sys2Proof.Machine.execAdd ty f s
  | .sub ty f => Sys2Proof.Machine.execSub ty f s
  | .adds ty f => Sys2Proof.Machine.execAdds ty f s
  | .subs ty f => Sys2Proof.Machine.execSubs ty f s
  | .mul ty f => Sys2Proof.Machine.execMul ty f s
  | .mulh ty f => Sys2Proof.Machine.execMulh ty f s
  | .mad ty f => Sys2Proof.Machine.execMad ty f s
  | .div ty f => Sys2Proof.Machine.execDiv ty f s
  | .rem ty f => Sys2Proof.Machine.execRem ty f s
  | .min ty f => Sys2Proof.Machine.execMin ty f s
  | .max ty f => Sys2Proof.Machine.execMax ty f s
  | .abs ty f => Sys2Proof.Machine.execAbs ty f s
  | .neg ty f => Sys2Proof.Machine.execNeg ty f s
  | .and ty f => Sys2Proof.Machine.execAnd ty f s
  | .andn ty f => Sys2Proof.Machine.execAndn ty f s
  | .or ty f => Sys2Proof.Machine.execOr ty f s
  | .xor ty f => Sys2Proof.Machine.execXor ty f s
  | .not ty f => Sys2Proof.Machine.execNot ty f s
  | .shl ty f => Sys2Proof.Machine.execShl ty f s
  | .shr ty f => Sys2Proof.Machine.execShr ty f s
  | .sar ty f => Sys2Proof.Machine.execSar ty f s
  | .rot ty f => Sys2Proof.Machine.execRot ty f s
  | .popc ty f => Sys2Proof.Machine.execPopc ty f s
  | .clz ty f => Sys2Proof.Machine.execClz ty f s
  | .ctz ty f => Sys2Proof.Machine.execCtz ty f s
  | .brev ty f => Sys2Proof.Machine.execBrev ty f s
  | .bfx ty f => Sys2Proof.Machine.execBfx ty f s
  | .bfi ty f => Sys2Proof.Machine.execBfi ty f s
  | .sel ty f => Sys2Proof.Machine.execSel ty f s
  | .mov ty f => Sys2Proof.Machine.execMov ty f s
  | .idx sh f => Sys2Proof.Machine.execIdx sh f s
  | .cmp cond ty f => Sys2Proof.Machine.execCmp cond ty f s
  | .imm zx f => Sys2Proof.Machine.execImm zx f s
  | .immh f => Sys2Proof.Machine.execImmh f s
  | .fadd ft r f => Sys2Proof.Machine.execFadd ft r f s
  | .fsub ft r f => Sys2Proof.Machine.execFsub ft r f s
  | .fmul ft r f => Sys2Proof.Machine.execFmul ft r f s
  | .ffma ft r f => Sys2Proof.Machine.execFfma ft r f s
  | .fmin ft f => Sys2Proof.Machine.execFmin ft f s
  | .fmax ft f => Sys2Proof.Machine.execFmax ft f s
  | .fabs ft f => Sys2Proof.Machine.execFabs ft f s
  | .fneg ft f => Sys2Proof.Machine.execFneg ft f s
  | .fdiv ft r f => Sys2Proof.Machine.execFdiv ft r f s
  | .fsqrt ft r f => Sys2Proof.Machine.execFsqrt ft r f s
  | .frcp ft f => Sys2Proof.Machine.execFrcp ft f s
  | .frsq ft f => Sys2Proof.Machine.execFrsq ft f s
  | .fex2 ft f => Sys2Proof.Machine.execFex2 ft f s
  | .flg2 ft f => Sys2Proof.Machine.execFlg2 ft f s
  | .fsin ft f => Sys2Proof.Machine.execFsin ft f s
  | .fcos ft f => Sys2Proof.Machine.execFcos ft f s
  | .ftanh ft f => Sys2Proof.Machine.execFtanh ft f s
  | .frnd ft r f => Sys2Proof.Machine.execFrnd ft r f s
  | .fscl ft r f => Sys2Proof.Machine.execFscl ft r f s
  | .fcls ft f => Sys2Proof.Machine.execFcls ft f s
  | .fcmp cond ft f => Sys2Proof.Machine.execFcmp cond ft f s
  | .icvt toInt ft ty r f => Sys2Proof.Machine.execIcvt toInt ft ty r f s
  | .fcvt src dst sat r f => Sys2Proof.Machine.execFcvt src dst sat r f s
  | .send d f => Sys2Proof.Machine.execSend d f s
  | .spawn d f => Sys2Proof.Machine.execSpawn d f s
  | .launch w f => Sys2Proof.Machine.execLaunch w f s
  | .doneCredit f => Sys2Proof.Machine.execDoneCredit f s
  | .shfl op f => Sys2Proof.Machine.execShfl op f s
  | .bcst f => Sys2Proof.Machine.execBcst f s
  | .vote op f => Sys2Proof.Machine.execVote op f s
  | .mtch f => Sys2Proof.Machine.execMtch f s
  | .prfx op f => Sys2Proof.Machine.execPrfx op f s
  | .redu op f => Sys2Proof.Machine.execRedu op f s
  | .srd r f => Sys2Proof.Machine.execSrd r f s
  | .swr r f => Sys2Proof.Machine.execSwr r f s
  | .nop f => Sys2Proof.Machine.execNop f s
  | .trap f => Sys2Proof.Machine.execTrap f s
  | .brk f => Sys2Proof.Machine.execBrk f s
  | .tret f => Sys2Proof.Machine.execTret f s
  | .kill f => Sys2Proof.Machine.execKill f s
  | .ld sz f => Sys2Proof.Machine.execLd sz f s
  | .ldAcq sc sz f => Sys2Proof.Machine.execLdAcq sc sz f s
  | .st sz f => Sys2Proof.Machine.execSt sz f s
  | .stRel sc sz f => Sys2Proof.Machine.execStRel sc sz f s
  | .ldt sz d f => Sys2Proof.Machine.execLdt sz d f s
  | .atom sz w f => Sys2Proof.Machine.execAtom sz w f s
  | .upd sz w f => Sys2Proof.Machine.execUpd sz w f s
  | .fence sc f => Sys2Proof.Machine.execFence sc f s
  | .pref l f => Sys2Proof.Machine.execPref l f s
  | .cctl op f => Sys2Proof.Machine.execCctl op f s
  | .bcinv f => Sys2Proof.Machine.execBcinv f s
  | .frma f => Sys2Proof.Machine.execFrma f s
  | .frmf f => Sys2Proof.Machine.execFrmf f s
  | .cmpk sz w f => Sys2Proof.Machine.execCmpk sz w f s
  | .rbind f => Sys2Proof.Machine.execRbind f s
  | .runb f => Sys2Proof.Machine.execRunb f s
  | .rget f => Sys2Proof.Machine.execRget f s
  | .rput f => Sys2Proof.Machine.execRput f s
  | .radv tail f => Sys2Proof.Machine.execRadv tail f s
  | .rwait free d f => Sys2Proof.Machine.execRwait free d f s
  | .rstat f => Sys2Proof.Machine.execRstat f s
  | .strm w f => Sys2Proof.Machine.execStrm w f s
  | .strmw w f => Sys2Proof.Machine.execStrmw w f s
  | .strmq f => Sys2Proof.Machine.execStrmq f s
  | .strmc f => Sys2Proof.Machine.execStrmc f s
  | .cpy w f => Sys2Proof.Machine.execCpy w f s
  | .cpyq f => Sys2Proof.Machine.execCpyq f s
  | .cpyc f => Sys2Proof.Machine.execCpyc f s
  | .mxbind slot w f => Sys2Proof.Machine.execMxbind slot w f s
  | .mxunb slot f => Sys2Proof.Machine.execMxunb slot f s
  | .mxfire w f => Sys2Proof.Machine.execMxfire w f s
  | .mxz f => Sys2Proof.Machine.execMxz f s
  | .mxld f => Sys2Proof.Machine.execMxld f s
  | .mxst w f => Sys2Proof.Machine.execMxst w f s
  | .mxmute slot f => Sys2Proof.Machine.execMxmute slot f s
  | .mxstat slot f => Sys2Proof.Machine.execMxstat slot f s
  | .mxsave slot f => Sys2Proof.Machine.execMxsave slot f s
  | .mxrest slot f => Sys2Proof.Machine.execMxrest slot f s
  | .symk f => Sys2Proof.Machine.execSymk f s
  | .symc w f => Sys2Proof.Machine.execSymc w f s
  | .symr w f => Sys2Proof.Machine.execSymr w f s
  | .symp w f => Sys2Proof.Machine.execSymp w f s
  | .syms f => Sys2Proof.Machine.execSyms f s
  | .symq w f => Sys2Proof.Machine.execSymq w f s
  | .hfork f => Sys2Proof.Machine.execHfork f s
  | .hres refute d f => Sys2Proof.Machine.execHres refute d f s
  | .hqry f => Sys2Proof.Machine.execHqry f s
  | .hnote f => Sys2Proof.Machine.execHnote f s
  | .psel w f => Sys2Proof.Machine.execPsel w f s
  | .topk f => Sys2Proof.Machine.execTopk f s
  | .tokenArrival n => Sys2Proof.Machine.execTokenArrival n s
  | .blockFill core n => Sys2Proof.Machine.execBlockFill core n s
  | .fifoDivert core n => Sys2Proof.Machine.execFifoDivert core n s
  | .spillReload ctx core => Sys2Proof.Machine.execSpillReload ctx core s
  | .spillAppend n => Sys2Proof.Machine.execSpillAppend n s
  | .binSustainExpiry core bin => Sys2Proof.Machine.execBinSustainExpiry core bin s
  | .arbitrationRound core => Sys2Proof.Machine.execArbitrationRound core s
  | .chordCommit core slot => Sys2Proof.Machine.execChordCommit core slot s
  | .watchdog core slot => Sys2Proof.Machine.execWatchdog core slot s
  | .epochAdvance => Sys2Proof.Machine.execEpochAdvance s
  | .releaseRecordFree slice => Sys2Proof.Machine.execReleaseRecordFree slice s
  | .l1Fill core n => Sys2Proof.Machine.execL1Fill core n s
  | .writeBackAccept core => Sys2Proof.Machine.execWriteBackAccept core s
  | .flagRelease core => Sys2Proof.Machine.execFlagRelease core s
  | .flagAcquire slice => Sys2Proof.Machine.execFlagAcquire slice s
  | .drainOrder slice n => Sys2Proof.Machine.execDrainOrder slice n s
  | .drainAnswer slice n => Sys2Proof.Machine.execDrainAnswer slice n s
  | .acquireAnswer slice n => Sys2Proof.Machine.execAcquireAnswer slice n s
  | .updateAccept slice => Sys2Proof.Machine.execUpdateAccept slice s
  | .updateOperation slice line => Sys2Proof.Machine.execUpdateOperation slice line s
  | .updateOperationEnd slice line => Sys2Proof.Machine.execUpdateOperationEnd slice line s
  | .remoteAccess => Sys2Proof.Machine.execRemoteAccess s
  | .flitReceive port bytes => Sys2Proof.Machine.execFlitReceive port bytes s
  | .negativeAcknowledge port seq => Sys2Proof.Machine.execNegativeAcknowledge port seq s
  | .portRetrain port => Sys2Proof.Machine.execPortRetrain port s
  | .retrainEnd port ok => Sys2Proof.Machine.execRetrainEnd port ok s
  | .routeLost pkg => Sys2Proof.Machine.execRouteLost pkg s
  | .routeReturn pkg => Sys2Proof.Machine.execRouteReturn pkg s
  | .timeFlitSend => Sys2Proof.Machine.execTimeFlitSend s
  | .timeFlit time => Sys2Proof.Machine.execTimeFlit time s
  | .domainTimeLost => Sys2Proof.Machine.execDomainTimeLost s
  | .ethernetPacket port ok head bytes => Sys2Proof.Machine.execEthernetPacket port ok head bytes s
  | .streamTile core n => Sys2Proof.Machine.execStreamTile core n s
  | .streamEnd core n => Sys2Proof.Machine.execStreamEnd core n s
  | .streamError core n => Sys2Proof.Machine.execStreamError core n s
  | .copyStart e => Sys2Proof.Machine.execCopyStart e s
  | .copyEnd e => Sys2Proof.Machine.execCopyEnd e s
  | .stageComplete core cand ring => Sys2Proof.Machine.execStageComplete core cand ring s
  | .firingStart core => Sys2Proof.Machine.execFiringStart core s
  | .firingRetire core => Sys2Proof.Machine.execFiringRetire core s
  | .drainStart core => Sys2Proof.Machine.execDrainStart core s
  | .drainEnd core => Sys2Proof.Machine.execDrainEnd core s
  | .mutePassed core slot => Sys2Proof.Machine.execMutePassed core slot s
  | .residencyDecision => Sys2Proof.Machine.execResidencyDecision s
  | .preemptBegin ctx => Sys2Proof.Machine.execPreemptBegin ctx s
  | .preemptChordAbandon core slot => Sys2Proof.Machine.execPreemptChordAbandon core slot s
  | .preemptSave ctx => Sys2Proof.Machine.execPreemptSave ctx s
  | .preemptSaveComplete ctx => Sys2Proof.Machine.execPreemptSaveComplete ctx s
  | .contextRestore ctx => Sys2Proof.Machine.execContextRestore ctx s
  | .launchRequest n => Sys2Proof.Machine.execLaunchRequest n s
  | .endOrder ctx act => Sys2Proof.Machine.execEndOrder ctx act s
  | .hypothesisRequest ctx => Sys2Proof.Machine.execHypothesisRequest ctx s
  | .sweepPhaseB ctx => Sys2Proof.Machine.execSweepPhaseB ctx s
  | .sweepEnd ctx => Sys2Proof.Machine.execSweepEnd ctx s
  | .speculativeReservation core slot => Sys2Proof.Machine.execSpeculativeReservation core slot s
  | .hypothesisCapacity core slot => Sys2Proof.Machine.execHypothesisCapacity core slot s
  | .symcCompare n => Sys2Proof.Machine.execSymcCompare n s
  | .sympStore n => Sys2Proof.Machine.execSympStore n s
  | .symrReplay n => Sys2Proof.Machine.execSymrReplay n s
  | .pselSelect n => Sys2Proof.Machine.execPselSelect n s
  | .translationWalk core ctx va => Sys2Proof.Machine.execTranslationWalk core ctx va s
  | .faultResume m id => Sys2Proof.Machine.execFaultResume m id s
  | .faultRefuse m id => Sys2Proof.Machine.execFaultRefuse m id s
  | .invalidateRange m ctx gran count => Sys2Proof.Machine.execInvalidateRange m ctx gran count s
  | .invalidateContext m ctx => Sys2Proof.Machine.execInvalidateContext m ctx s
  | .invalidateAll m => Sys2Proof.Machine.execInvalidateAll m s
  | .invalidationEnd => Sys2Proof.Machine.execInvalidationEnd s
  | .ctxPreempt m ctx => Sys2Proof.Machine.execCtxPreempt m ctx s
  | .ctxStop m ctx => Sys2Proof.Machine.execCtxStop m ctx s
  | .ctxResume m ctx => Sys2Proof.Machine.execCtxResume m ctx s
  | .ctxEnd m ctx => Sys2Proof.Machine.execCtxEnd m ctx s
  | .ctxReload m ctx => Sys2Proof.Machine.execCtxReload m ctx s
  | .ingressWrite port off bytes => Sys2Proof.Machine.execIngressWrite port off bytes s
  | .bar2Write addr bytes => Sys2Proof.Machine.execBar2Write addr bytes s
  | .bar2Read addr len => Sys2Proof.Machine.execBar2Read addr len s
  | .completionRecord => Sys2Proof.Machine.execCompletionRecord s
  | .eventWrite => Sys2Proof.Machine.execEventWrite s
  | .hostEvctlWrite m v => Sys2Proof.Machine.execHostEvctlWrite m v s
  | .hostEvtailWrite m v => Sys2Proof.Machine.execHostEvtailWrite m v s
  | .hostCasResponse id seen => Sys2Proof.Machine.execHostCasResponse id seen s
  | .hostClaim m => Sys2Proof.Machine.execHostClaim m s
  | .hostPeerset m pkg => Sys2Proof.Machine.execHostPeerset m pkg s
  | .hostHandover m v => Sys2Proof.Machine.execHostHandover m v s
  | .handoverEffect => Sys2Proof.Machine.execHandoverEffect s
  | .registerWrite m off v => Sys2Proof.Machine.execRegisterWrite m off v s
  | .bootStart m => Sys2Proof.Machine.execBootStart m s
  | .bootComplete => Sys2Proof.Machine.execBootComplete s
  | .stagingWrite m off bytes => Sys2Proof.Machine.execStagingWrite m off bytes s
  | .secLock m v => Sys2Proof.Machine.execSecLock m v s
  | .keyLoad m v => Sys2Proof.Machine.execKeyLoad m v s
  | .attestationRequest m => Sys2Proof.Machine.execAttestationRequest m s
  | .attestationDone => Sys2Proof.Machine.execAttestationDone s
  | .reset => Sys2Proof.Machine.execReset s
  | .powerCap now => Sys2Proof.Machine.execPowerCap now s
  | .temperatureWarning die temp => Sys2Proof.Machine.execTemperatureWarning die temp s
  | .hbmThrottle stack temp => Sys2Proof.Machine.execHbmThrottle stack temp s
  | .trip hbm temp => Sys2Proof.Machine.execTrip hbm temp s
  | .mgmtCool m code => Sys2Proof.Machine.execMgmtCool m code s
  | .i3cAccess bytes => Sys2Proof.Machine.execI3cAccess bytes s
  | .memdataRead m => Sys2Proof.Machine.execMemdataRead m s
  | .memdataWrite m v => Sys2Proof.Machine.execMemdataWrite m v s
  | .eccError n bad => Sys2Proof.Machine.execEccError n bad s
  | .replayInject => Sys2Proof.Machine.execReplayInject s
  | .replayTimeout core => Sys2Proof.Machine.execReplayTimeout core s
  | .hostCompletion id ans => Sys2Proof.Machine.execHostCompletion id ans s

end Sys2Proof.Machine
end

