-- ==== Sys2Proof/Machine/Issue.lean ====
section
/-! DEFINITION. Fetching (R12, R23, R202): the instruction a chord stands at, read from the words of its block; and the small
machine in which a given instruction is the next one. -/

namespace Sys2Proof.Machine

/-- What a chord's slot holds to be issued. -/
inductive Fetched
  /-- No chord, or one whose block is not there yet, or one past its last instruction. -/
  | nothing
  | instr (i : Instr)
  | bad (reason : Nat)
deriving DecidableEq, Repr, Inhabited

/-- The instruction at a chord's next index. -/
def Chord.fetch (ch : Chord) : Fetched :=
  match ch.img with
  | none => .nothing
  | some (_, ws) =>
    if ws.length ≤ ch.pc then .nothing
    else match decodeWords (ws.drop ch.pc) with
      | .ok (i, _) => .instr i
      | .error e => .bad e

/-! ### Issue slots and latencies (R112, R131, R152, R181, R202, R208, R282, R309, R360) -/

/-- Whether an instruction takes the lane-ALU issue slot; any other of a program takes the memory, token or matrix slot. -/
def laneAlu (i : Instr) : Bool :=
  decide (i.opcode < 0x100) || (decide (0x108 ≤ i.opcode) && decide (i.opcode < 0x132)) || decide (i.opcode = 0x380) || decide (i.opcode = 0x38B)

/-- The cycles of a load or flag load by its window (R181): of one in window 0 those of an L1 hit, since a value that comes later is there
when it comes. -/
def loadLatency (core : Nat) (a : Word) : Nat :=
  match a.toNat / 2 ^ 60 with
  | 1 => if a.toNat / 2 ^ 40 % 256 = core then 6 else 14
  | 2 => 6
  | 3 => 14
  | _ => 12

/-- The ac cycles from an instruction's issue until a consumer may issue, but for loads; 0 where the tables fix none, since a value is then
there when it comes. -/
def latency (i : Instr) : Nat :=
  match i with
  | .mul t _ | .mulh t _ | .mad t _ => if intBits t = 64 then 6 else 4
  | .div t _ | .rem t _ => if intBits t = 64 then 34 else 18
  | .fadd .. | .fsub .. | .fmul .. | .ffma .. | .icvt .. | .fcvt .. => 4
  | .frcp t _ | .frsq t _ | .fex2 t _ | .flg2 t _ => if t = .f32 then 10 else 24
  | .fsin t _ | .fcos t _ | .ftanh t _ => if t = .f32 then 16 else 40
  | .fdiv t _ _ => if t = .f32 then 20 else 36
  | .fsqrt t _ _ => if t = .f32 then 18 else 34
  | .shfl .. | .bcst .. | .vote .. | .mtch .. => 4
  | .prfx (.int ..) _ | .redu (.int ..) _ => 8
  | .prfx (.fadd t _) _ | .redu (.fadd t _) _ => if t = .f32 then 20 else 36
  | .frma .. | .rstat .. | .strmq .. | .cpy .. | .mxstat .. | .symk .. => 4
  | .rget .. => 6
  | .topk .. => 12
  | _ => if i.opcode < 0x132 then 2 else 0

/-- The cycle from which a chord's next instruction has every operand that its producers deliver at issue; a chord's first instruction issues three cycles after its block is there. -/
def Chord.readyFrom (ch : Chord) : Nat :=
  match ch.img with
  | none => 0
  | some (_, ws) => ch.issued.foldl (fun m p => match decodeWords (ws.drop p.1) with
      | .ok (i, _) => if i.targets.any fun t => t.idx.toNat == ch.pc then max m p.2 else m
      | .error _ => m) (ch.imgAt + 3)

namespace State

/-- What the chord in a slot of a core is to issue. -/
def fetch (s : State) (c slot : Nat) : Fetched :=
  match s.chord? c slot with
  | some ch => ch.fetch
  | none => .nothing

/-- Turns to a chord slot: its chord is the one whose instruction runs. -/
def setFocusAt (s : State) (c slot : Nat) : State := { s with flow := { s.flow with focusCore := c, focusSlot := slot } }

/-- The cycles until what an instruction of a chord delivers is there: a load's are those of its slowest lane. -/
def issueLatency (s : State) (c : Nat) (ch : Chord) (i : Instr) : Nat :=
  let load (sh : Shape) (sz : Size) (f : Flds) : Nat :=
    (((gather sh f ch (s.consts ch) ch.pc ch.lanes).getD []).foldl (fun m p =>
      if selects f p.2.2 then max m (loadLatency c (p.2.2.a + p.2.2.b)) else m) 0) + if sz = .w128 then 1 else 0
  match i with
  | .ld sz f | .ldAcq _ sz f => load .bin sz f
  | .ldt sz _ f => load (.act2 .n) sz f
  | i => latency i

/-- Notes when what a chord's next instruction delivers will be there. -/
def noteIssue (s : State) (c slot : Nat) (i : Instr) : State :=
  s.modChord c slot fun ch => { ch with issued := nput ch.issued ch.pc (s.cycle + s.issueLatency c ch i) }

/-- Whether a chord's next instruction is ready for an issue slot: it has its operands, and, run, it changes its chord. -/
def readyFor (run : Instr → State → Answer) (s : State) (c slot : Nat) (alu : Bool) : Bool :=
  match s.chord? c slot, s.fetch c slot with
  | some ch, .instr i => laneAlu i == alu && decide (ch.readyFrom ≤ s.cycle) && match run i (s.setFocusAt c slot) with
    | .next t => t.chord? c slot != some ch
    | _ => false
  | _, _ => false

/-- Whether a slot's chord may issue an instruction now: no chord of its core that was granted earlier is ready for that issue
slot (R202). `run` executes an instruction. -/
def mayGo (run : Instr → State → Answer) (s : State) (c slot : Nat) (i : Instr) : Bool :=
  let at_ : Nat := ((s.chord? c slot).map Chord.granted).getD 0
  (s.core c).chords.all fun p => p.1 == slot || decide (at_ ≤ p.2.granted) || !s.readyFor run c p.1 (laneAlu i)

/-- Takes the first move off what the machine is to do next. -/
def popMove (s : State) : State := { s with flow := { s.flow with agenda := s.flow.agenda.drop 1 } }

end State

/-- Whether an instruction is a step of an agent: it has no words of its own (R36 to R45 encode the others). -/
def isEvent (i : Instr) : Bool := (encode i).isEmpty

/-- A chord of one lane whose block is the given words, standing at its first one. -/
def probeChord (ws : List Word) (cycle : Nat) : Chord :=
  let lane : Lane := { tag := 0, hid := 0, hid0 := 0, frame := 0, ports := List.replicate 16 0 }
  { ctx := 0, act := 1, dblock := 1, va := 0, lanes := [(0, lane)], granted := cycle,
    img := some ({ version := 1, icount := BitVec.ofNat 7 (ws.length - 1), expect := 0xFFFF, acquire := 0, accum := 0, scount := 0,
                   dcount := false, fill := 0, sustain := 0, memops := 0, ucheck := false, trapblk := false, sympath := false }, ws) }

end Sys2Proof.Machine
end

