-- ==== Sys2Proof/Machine/Step.lean ====
section
/-! DEFINITION. One step of the machine: the first of the moves it is to make, or one cycle of time (assumption log 1). -/

namespace Sys2Proof.Machine

/-- A chord slot issues: the instruction its chord stands at is decoded from its block and executed there, unless a chord granted
earlier is to issue first. -/
def issue (s : State) (c slot : Nat) : Host.Outcome State Fault Refusal :=
  match s.fetch c slot with
  | .nothing => .next s
  | .instr i => if s.mayGo exec c slot i then exec i ((s.noteIssue c slot i).setFocusAt c slot) else .next s
  | .bad e => .fault (.undecodable e)

/-- One step. Instructions of programs are only issued, and only steps of agents are events. -/
def step (s : State) : Host.Outcome State Fault Refusal :=
  match s.flow.agenda with
  | [] => .next (s.tick 1)
  | .tick n :: _ => .next (s.popMove.tick n)
  | .issue c slot :: _ => issue s.popMove c slot
  | .event i :: _ => if isEvent i then exec i s.popMove else .next s.popMove

/-- The state with an instruction's words in the block of a chord in slot 0 of core 0, which is to issue next. -/
def State.withFetchWord (s : State) (nbits w : Nat) : State :=
  let bs := tableBytes nbits (w % 2 ^ nbits)
  let s := s.setChord 0 0 (probeChord (wordsOfBytes (bs.length / 8) bs) s.cycle)
  { s with flow := { s.flow with agenda := [.issue 0 0] } }

end Sys2Proof.Machine
end

