-- ==== Sys2Proof/Laws/Encoding.lean ====
section
/-! SUPPORT. The fields of an encoded word read back (R16 to R28), and what that gives for decoding an instruction. -/

set_option linter.unusedSimpArgs false

namespace Sys2Proof

theorem low_app {v w : Nat} (x : BitVec v) (y : BitVec w) : (x ++ y).extractLsb' 0 w = y := by
  ext i hi; simp [BitVec.getLsbD_append, hi]
@[simp] theorem packWord_opc (opc : BitVec 10) (m : BitVec 3) (f : Flds) : bits (packWord opc m f) 54 10 = opc := by
  change BitVec.extractLsb' 54 10 (((((((((opc ++ encBool f.u) ++ encPred f.p) ++ m) ++ encTarget f.t0) ++ encTarget f.t1) ++ encSel f.a) ++ encSel f.b) ++ encSel f.c) : BitVec (10 + 1 + 2 + 3 + 9 + 9 + 10 + 10 + 10)) = _
  simp only [BitVec.extractLsb'_append_eq_of_le, Nat.reduceLeDiff, Nat.reduceSub, low_app, BitVec.extractLsb'_eq_self]

@[simp] theorem packWord_u (opc : BitVec 10) (m : BitVec 3) (f : Flds) : bits (packWord opc m f) 53 1 = encBool f.u := by
  change BitVec.extractLsb' 53 1 (((((((((opc ++ encBool f.u) ++ encPred f.p) ++ m) ++ encTarget f.t0) ++ encTarget f.t1) ++ encSel f.a) ++ encSel f.b) ++ encSel f.c) : BitVec (10 + 1 + 2 + 3 + 9 + 9 + 10 + 10 + 10)) = _
  simp only [BitVec.extractLsb'_append_eq_of_le, Nat.reduceLeDiff, Nat.reduceSub, low_app, BitVec.extractLsb'_eq_self]

@[simp] theorem packWord_p (opc : BitVec 10) (m : BitVec 3) (f : Flds) : bits (packWord opc m f) 51 2 = encPred f.p := by
  change BitVec.extractLsb' 51 2 (((((((((opc ++ encBool f.u) ++ encPred f.p) ++ m) ++ encTarget f.t0) ++ encTarget f.t1) ++ encSel f.a) ++ encSel f.b) ++ encSel f.c) : BitVec (10 + 1 + 2 + 3 + 9 + 9 + 10 + 10 + 10)) = _
  simp only [BitVec.extractLsb'_append_eq_of_le, Nat.reduceLeDiff, Nat.reduceSub, low_app, BitVec.extractLsb'_eq_self]

@[simp] theorem packWord_m (opc : BitVec 10) (m : BitVec 3) (f : Flds) : bits (packWord opc m f) 48 3 = m := by
  change BitVec.extractLsb' 48 3 (((((((((opc ++ encBool f.u) ++ encPred f.p) ++ m) ++ encTarget f.t0) ++ encTarget f.t1) ++ encSel f.a) ++ encSel f.b) ++ encSel f.c) : BitVec (10 + 1 + 2 + 3 + 9 + 9 + 10 + 10 + 10)) = _
  simp only [BitVec.extractLsb'_append_eq_of_le, Nat.reduceLeDiff, Nat.reduceSub, low_app, BitVec.extractLsb'_eq_self]

@[simp] theorem packWord_t0 (opc : BitVec 10) (m : BitVec 3) (f : Flds) : bits (packWord opc m f) 39 9 = encTarget f.t0 := by
  change BitVec.extractLsb' 39 9 (((((((((opc ++ encBool f.u) ++ encPred f.p) ++ m) ++ encTarget f.t0) ++ encTarget f.t1) ++ encSel f.a) ++ encSel f.b) ++ encSel f.c) : BitVec (10 + 1 + 2 + 3 + 9 + 9 + 10 + 10 + 10)) = _
  simp only [BitVec.extractLsb'_append_eq_of_le, Nat.reduceLeDiff, Nat.reduceSub, low_app, BitVec.extractLsb'_eq_self]

@[simp] theorem packWord_t1 (opc : BitVec 10) (m : BitVec 3) (f : Flds) : bits (packWord opc m f) 30 9 = encTarget f.t1 := by
  change BitVec.extractLsb' 30 9 (((((((((opc ++ encBool f.u) ++ encPred f.p) ++ m) ++ encTarget f.t0) ++ encTarget f.t1) ++ encSel f.a) ++ encSel f.b) ++ encSel f.c) : BitVec (10 + 1 + 2 + 3 + 9 + 9 + 10 + 10 + 10)) = _
  simp only [BitVec.extractLsb'_append_eq_of_le, Nat.reduceLeDiff, Nat.reduceSub, low_app, BitVec.extractLsb'_eq_self]

@[simp] theorem packWord_a (opc : BitVec 10) (m : BitVec 3) (f : Flds) : bits (packWord opc m f) 20 10 = encSel f.a := by
  change BitVec.extractLsb' 20 10 (((((((((opc ++ encBool f.u) ++ encPred f.p) ++ m) ++ encTarget f.t0) ++ encTarget f.t1) ++ encSel f.a) ++ encSel f.b) ++ encSel f.c) : BitVec (10 + 1 + 2 + 3 + 9 + 9 + 10 + 10 + 10)) = _
  simp only [BitVec.extractLsb'_append_eq_of_le, Nat.reduceLeDiff, Nat.reduceSub, low_app, BitVec.extractLsb'_eq_self]

@[simp] theorem packWord_b (opc : BitVec 10) (m : BitVec 3) (f : Flds) : bits (packWord opc m f) 10 10 = encSel f.b := by
  change BitVec.extractLsb' 10 10 (((((((((opc ++ encBool f.u) ++ encPred f.p) ++ m) ++ encTarget f.t0) ++ encTarget f.t1) ++ encSel f.a) ++ encSel f.b) ++ encSel f.c) : BitVec (10 + 1 + 2 + 3 + 9 + 9 + 10 + 10 + 10)) = _
  simp only [BitVec.extractLsb'_append_eq_of_le, Nat.reduceLeDiff, Nat.reduceSub, low_app, BitVec.extractLsb'_eq_self]

@[simp] theorem packWord_c (opc : BitVec 10) (m : BitVec 3) (f : Flds) : bits (packWord opc m f) 0 10 = encSel f.c := by
  change BitVec.extractLsb' 0 10 (((((((((opc ++ encBool f.u) ++ encPred f.p) ++ m) ++ encTarget f.t0) ++ encTarget f.t1) ++ encSel f.a) ++ encSel f.b) ++ encSel f.c) : BitVec (10 + 1 + 2 + 3 + 9 + 9 + 10 + 10 + 10)) = _
  simp only [BitVec.extractLsb'_append_eq_of_le, Nat.reduceLeDiff, Nat.reduceSub, low_app, BitVec.extractLsb'_eq_self]

@[simp] theorem packImm_opc (opc : BitVec 10) (m : BitVec 3) (f : ImmFlds) : bits (packImm opc m f) 54 10 = opc := by
  change BitVec.extractLsb' 54 10 (((((((opc ++ encBool f.u) ++ (0 : BitVec 2)) ++ m) ++ encTarget f.t0) ++ (0 : BitVec 7)) ++ f.imm) : BitVec (10 + 1 + 2 + 3 + 9 + 7 + 32)) = _
  simp only [BitVec.extractLsb'_append_eq_of_le, Nat.reduceLeDiff, Nat.reduceSub, low_app, BitVec.extractLsb'_eq_self]

@[simp] theorem packImm_u (opc : BitVec 10) (m : BitVec 3) (f : ImmFlds) : bits (packImm opc m f) 53 1 = encBool f.u := by
  change BitVec.extractLsb' 53 1 (((((((opc ++ encBool f.u) ++ (0 : BitVec 2)) ++ m) ++ encTarget f.t0) ++ (0 : BitVec 7)) ++ f.imm) : BitVec (10 + 1 + 2 + 3 + 9 + 7 + 32)) = _
  simp only [BitVec.extractLsb'_append_eq_of_le, Nat.reduceLeDiff, Nat.reduceSub, low_app, BitVec.extractLsb'_eq_self]

@[simp] theorem packImm_p (opc : BitVec 10) (m : BitVec 3) (f : ImmFlds) : bits (packImm opc m f) 51 2 = (0 : BitVec 2) := by
  change BitVec.extractLsb' 51 2 (((((((opc ++ encBool f.u) ++ (0 : BitVec 2)) ++ m) ++ encTarget f.t0) ++ (0 : BitVec 7)) ++ f.imm) : BitVec (10 + 1 + 2 + 3 + 9 + 7 + 32)) = _
  simp only [BitVec.extractLsb'_append_eq_of_le, Nat.reduceLeDiff, Nat.reduceSub, low_app, BitVec.extractLsb'_eq_self]

@[simp] theorem packImm_m (opc : BitVec 10) (m : BitVec 3) (f : ImmFlds) : bits (packImm opc m f) 48 3 = m := by
  change BitVec.extractLsb' 48 3 (((((((opc ++ encBool f.u) ++ (0 : BitVec 2)) ++ m) ++ encTarget f.t0) ++ (0 : BitVec 7)) ++ f.imm) : BitVec (10 + 1 + 2 + 3 + 9 + 7 + 32)) = _
  simp only [BitVec.extractLsb'_append_eq_of_le, Nat.reduceLeDiff, Nat.reduceSub, low_app, BitVec.extractLsb'_eq_self]

@[simp] theorem packImm_t0 (opc : BitVec 10) (m : BitVec 3) (f : ImmFlds) : bits (packImm opc m f) 39 9 = encTarget f.t0 := by
  change BitVec.extractLsb' 39 9 (((((((opc ++ encBool f.u) ++ (0 : BitVec 2)) ++ m) ++ encTarget f.t0) ++ (0 : BitVec 7)) ++ f.imm) : BitVec (10 + 1 + 2 + 3 + 9 + 7 + 32)) = _
  simp only [BitVec.extractLsb'_append_eq_of_le, Nat.reduceLeDiff, Nat.reduceSub, low_app, BitVec.extractLsb'_eq_self]

@[simp] theorem packImm_mbz (opc : BitVec 10) (m : BitVec 3) (f : ImmFlds) : bits (packImm opc m f) 32 7 = (0 : BitVec 7) := by
  change BitVec.extractLsb' 32 7 (((((((opc ++ encBool f.u) ++ (0 : BitVec 2)) ++ m) ++ encTarget f.t0) ++ (0 : BitVec 7)) ++ f.imm) : BitVec (10 + 1 + 2 + 3 + 9 + 7 + 32)) = _
  simp only [BitVec.extractLsb'_append_eq_of_le, Nat.reduceLeDiff, Nat.reduceSub, low_app, BitVec.extractLsb'_eq_self]

@[simp] theorem packImm_imm (opc : BitVec 10) (m : BitVec 3) (f : ImmFlds) : bits (packImm opc m f) 0 32 = f.imm := by
  change BitVec.extractLsb' 0 32 (((((((opc ++ encBool f.u) ++ (0 : BitVec 2)) ++ m) ++ encTarget f.t0) ++ (0 : BitVec 7)) ++ f.imm) : BitVec (10 + 1 + 2 + 3 + 9 + 7 + 32)) = _
  simp only [BitVec.extractLsb'_append_eq_of_le, Nat.reduceLeDiff, Nat.reduceSub, low_app, BitVec.extractLsb'_eq_self]

theorem encTarget_low (i : BitVec 7) (k : BitVec 2) : (i ++ k).extractLsb' 0 2 = k := low_app _ _
@[simp] theorem dec_encTarget (t : Option Target) : decTarget (encTarget t) = t := by
  rcases t with _ | ⟨i, sl⟩
  · decide
  · cases sl <;> simp only [encTarget, decTarget, BitVec.extractLsb'_append_eq_of_le, low_app, Nat.le_refl, Nat.sub_self, BitVec.extractLsb'_eq_self] <;> rfl
@[simp] theorem badTarget_enc (t : Option Target) : badTarget (encTarget t) = false := by
  rcases t with _ | ⟨i, sl⟩
  · decide
  · cases sl <;> simp only [encTarget, badTarget, low_app] <;> simp
@[simp] theorem dec_encSel (x : Sel) : decSel (encSel x) = x := by
  cases x with
  | link => decide
  | port p => revert p; decide
  | const k => simp only [encSel, decSel, low_app, BitVec.extractLsb'_append_eq_of_le, Nat.le_refl, Nat.sub_self, BitVec.extractLsb'_eq_self]; rfl
  | imm k => simp only [encSel, decSel, low_app, BitVec.extractLsb'_append_eq_of_le, Nat.le_refl, Nat.sub_self, BitVec.extractLsb'_eq_self]; rfl
@[simp] theorem dec_encPred (x : Pred) : decPred (encPred x) = x := by cases x <;> decide
@[simp] theorem dec_encBool (x : Bool) : decBool (encBool x) = x := by cases x <;> decide
@[simp] theorem dec_encRnd (x : Rnd) : decRnd (encRnd x) = x := by cases x <;> decide
@[simp] theorem dec_encRoute (x : Route) : decRoute (encRoute x) = x := by cases x <;> decide
@[simp] theorem dec_encOrd (x : AtOrd) : decOrd (encOrd x) = x := by cases x <;> decide
@[simp] theorem dec_encScope (x : Scope) : decScope (encScope x) = x := by cases x <;> decide
@[simp] theorem dec_encAtomOp (x : AtomOp) : decAtomOp (encAtomOp x) = x := by cases x <;> decide
@[simp] theorem dec_encUpdOp (x : UpdOp) : decUpdOp (encUpdOp x) = x := by cases x <;> decide
@[simp] theorem dec_encCounter (x : Counter) : decCounter (encCounter x) = x := by cases x <;> decide
@[simp] theorem unpack_pack (opc : BitVec 10) (m : BitVec 3) (f : Flds) : unpackWord (packWord opc m f) = f := by
  simp [unpackWord]
@[simp] theorem unpack_packImm (opc : BitVec 10) (m : BitVec 3) (f : ImmFlds) : unpackImm (packImm opc m f) = f := by
  simp [unpackImm]

@[simp] theorem encDest_dblock (w : TokenDest) : bits (encDest w) 32 32 = w.dblock := by
  change BitVec.extractLsb' 32 32 ((((((w.dblock ++ w.dport) ++ encRoute w.route) ++ encBool w.rel) ++ encBool w.ownTag) ++ (0 : BitVec 24)) : BitVec (32 + 4 + 2 + 1 + 1 + 24)) = _
  simp only [BitVec.extractLsb'_append_eq_of_le, Nat.reduceLeDiff, Nat.reduceSub, low_app, BitVec.extractLsb'_eq_self]

@[simp] theorem encDest_dport (w : TokenDest) : bits (encDest w) 28 4 = w.dport := by
  change BitVec.extractLsb' 28 4 ((((((w.dblock ++ w.dport) ++ encRoute w.route) ++ encBool w.rel) ++ encBool w.ownTag) ++ (0 : BitVec 24)) : BitVec (32 + 4 + 2 + 1 + 1 + 24)) = _
  simp only [BitVec.extractLsb'_append_eq_of_le, Nat.reduceLeDiff, Nat.reduceSub, low_app, BitVec.extractLsb'_eq_self]

@[simp] theorem encDest_route (w : TokenDest) : bits (encDest w) 26 2 = encRoute w.route := by
  change BitVec.extractLsb' 26 2 ((((((w.dblock ++ w.dport) ++ encRoute w.route) ++ encBool w.rel) ++ encBool w.ownTag) ++ (0 : BitVec 24)) : BitVec (32 + 4 + 2 + 1 + 1 + 24)) = _
  simp only [BitVec.extractLsb'_append_eq_of_le, Nat.reduceLeDiff, Nat.reduceSub, low_app, BitVec.extractLsb'_eq_self]

@[simp] theorem encDest_rel (w : TokenDest) : bits (encDest w) 25 1 = encBool w.rel := by
  change BitVec.extractLsb' 25 1 ((((((w.dblock ++ w.dport) ++ encRoute w.route) ++ encBool w.rel) ++ encBool w.ownTag) ++ (0 : BitVec 24)) : BitVec (32 + 4 + 2 + 1 + 1 + 24)) = _
  simp only [BitVec.extractLsb'_append_eq_of_le, Nat.reduceLeDiff, Nat.reduceSub, low_app, BitVec.extractLsb'_eq_self]

@[simp] theorem encDest_ownTag (w : TokenDest) : bits (encDest w) 24 1 = encBool w.ownTag := by
  change BitVec.extractLsb' 24 1 ((((((w.dblock ++ w.dport) ++ encRoute w.route) ++ encBool w.rel) ++ encBool w.ownTag) ++ (0 : BitVec 24)) : BitVec (32 + 4 + 2 + 1 + 1 + 24)) = _
  simp only [BitVec.extractLsb'_append_eq_of_le, Nat.reduceLeDiff, Nat.reduceSub, low_app, BitVec.extractLsb'_eq_self]

@[simp] theorem dec_encDest (w : TokenDest) : decDest (encDest w) = w := by
  simp [decDest]

@[simp] theorem encLaunch_cblock (w : LaunchWord) : bits (encLaunch w) 40 24 = w.cblock := by
  change BitVec.extractLsb' 40 24 ((((((((w.cblock ++ w.cport) ++ encBool w.cen) ++ (0 : BitVec 3)) ++ w.ccount) ++ w.pcount) ++ w.pfirst) ++ w.entry) : BitVec (24 + 4 + 1 + 3 + 8 + 8 + 8 + 8)) = _
  simp only [BitVec.extractLsb'_append_eq_of_le, Nat.reduceLeDiff, Nat.reduceSub, low_app, BitVec.extractLsb'_eq_self]

@[simp] theorem encLaunch_cport (w : LaunchWord) : bits (encLaunch w) 36 4 = w.cport := by
  change BitVec.extractLsb' 36 4 ((((((((w.cblock ++ w.cport) ++ encBool w.cen) ++ (0 : BitVec 3)) ++ w.ccount) ++ w.pcount) ++ w.pfirst) ++ w.entry) : BitVec (24 + 4 + 1 + 3 + 8 + 8 + 8 + 8)) = _
  simp only [BitVec.extractLsb'_append_eq_of_le, Nat.reduceLeDiff, Nat.reduceSub, low_app, BitVec.extractLsb'_eq_self]

@[simp] theorem encLaunch_cen (w : LaunchWord) : bits (encLaunch w) 35 1 = encBool w.cen := by
  change BitVec.extractLsb' 35 1 ((((((((w.cblock ++ w.cport) ++ encBool w.cen) ++ (0 : BitVec 3)) ++ w.ccount) ++ w.pcount) ++ w.pfirst) ++ w.entry) : BitVec (24 + 4 + 1 + 3 + 8 + 8 + 8 + 8)) = _
  simp only [BitVec.extractLsb'_append_eq_of_le, Nat.reduceLeDiff, Nat.reduceSub, low_app, BitVec.extractLsb'_eq_self]

@[simp] theorem encLaunch_ccount (w : LaunchWord) : bits (encLaunch w) 24 8 = w.ccount := by
  change BitVec.extractLsb' 24 8 ((((((((w.cblock ++ w.cport) ++ encBool w.cen) ++ (0 : BitVec 3)) ++ w.ccount) ++ w.pcount) ++ w.pfirst) ++ w.entry) : BitVec (24 + 4 + 1 + 3 + 8 + 8 + 8 + 8)) = _
  simp only [BitVec.extractLsb'_append_eq_of_le, Nat.reduceLeDiff, Nat.reduceSub, low_app, BitVec.extractLsb'_eq_self]

@[simp] theorem encLaunch_pcount (w : LaunchWord) : bits (encLaunch w) 16 8 = w.pcount := by
  change BitVec.extractLsb' 16 8 ((((((((w.cblock ++ w.cport) ++ encBool w.cen) ++ (0 : BitVec 3)) ++ w.ccount) ++ w.pcount) ++ w.pfirst) ++ w.entry) : BitVec (24 + 4 + 1 + 3 + 8 + 8 + 8 + 8)) = _
  simp only [BitVec.extractLsb'_append_eq_of_le, Nat.reduceLeDiff, Nat.reduceSub, low_app, BitVec.extractLsb'_eq_self]

@[simp] theorem encLaunch_pfirst (w : LaunchWord) : bits (encLaunch w) 8 8 = w.pfirst := by
  change BitVec.extractLsb' 8 8 ((((((((w.cblock ++ w.cport) ++ encBool w.cen) ++ (0 : BitVec 3)) ++ w.ccount) ++ w.pcount) ++ w.pfirst) ++ w.entry) : BitVec (24 + 4 + 1 + 3 + 8 + 8 + 8 + 8)) = _
  simp only [BitVec.extractLsb'_append_eq_of_le, Nat.reduceLeDiff, Nat.reduceSub, low_app, BitVec.extractLsb'_eq_self]

@[simp] theorem encLaunch_entry (w : LaunchWord) : bits (encLaunch w) 0 8 = w.entry := by
  change BitVec.extractLsb' 0 8 ((((((((w.cblock ++ w.cport) ++ encBool w.cen) ++ (0 : BitVec 3)) ++ w.ccount) ++ w.pcount) ++ w.pfirst) ++ w.entry) : BitVec (24 + 4 + 1 + 3 + 8 + 8 + 8 + 8)) = _
  simp only [BitVec.extractLsb'_append_eq_of_le, Nat.reduceLeDiff, Nat.reduceSub, low_app, BitVec.extractLsb'_eq_self]

@[simp] theorem dec_encLaunch (w : LaunchWord) : decLaunch (encLaunch w) = w := by
  simp [decLaunch]

@[simp] theorem encAtom_ord (w : AtomWord) : bits (encAtom w) 14 2 = encOrd w.ord := by
  change BitVec.extractLsb' 14 2 ((((((0 : BitVec 48) ++ encOrd w.ord) ++ encScope w.scope) ++ (0 : BitVec 8)) ++ encAtomOp w.op) : BitVec (48 + 2 + 2 + 8 + 4)) = _
  simp only [BitVec.extractLsb'_append_eq_of_le, Nat.reduceLeDiff, Nat.reduceSub, low_app, BitVec.extractLsb'_eq_self]

@[simp] theorem encAtom_scope (w : AtomWord) : bits (encAtom w) 12 2 = encScope w.scope := by
  change BitVec.extractLsb' 12 2 ((((((0 : BitVec 48) ++ encOrd w.ord) ++ encScope w.scope) ++ (0 : BitVec 8)) ++ encAtomOp w.op) : BitVec (48 + 2 + 2 + 8 + 4)) = _
  simp only [BitVec.extractLsb'_append_eq_of_le, Nat.reduceLeDiff, Nat.reduceSub, low_app, BitVec.extractLsb'_eq_self]

@[simp] theorem encAtom_op (w : AtomWord) : bits (encAtom w) 0 4 = encAtomOp w.op := by
  change BitVec.extractLsb' 0 4 ((((((0 : BitVec 48) ++ encOrd w.ord) ++ encScope w.scope) ++ (0 : BitVec 8)) ++ encAtomOp w.op) : BitVec (48 + 2 + 2 + 8 + 4)) = _
  simp only [BitVec.extractLsb'_append_eq_of_le, Nat.reduceLeDiff, Nat.reduceSub, low_app, BitVec.extractLsb'_eq_self]

@[simp] theorem dec_encAtom (w : AtomWord) : decAtom (encAtom w) = w := by
  simp [decAtom]

@[simp] theorem encUpd_ord (w : UpdWord) : bits (encUpd w) 4 1 = encBool w.ord := by
  change BitVec.extractLsb' 4 1 ((((0 : BitVec 59) ++ encBool w.ord) ++ encUpdOp w.op) : BitVec (59 + 1 + 4)) = _
  simp only [BitVec.extractLsb'_append_eq_of_le, Nat.reduceLeDiff, Nat.reduceSub, low_app, BitVec.extractLsb'_eq_self]

@[simp] theorem encUpd_op (w : UpdWord) : bits (encUpd w) 0 4 = encUpdOp w.op := by
  change BitVec.extractLsb' 0 4 ((((0 : BitVec 59) ++ encBool w.ord) ++ encUpdOp w.op) : BitVec (59 + 1 + 4)) = _
  simp only [BitVec.extractLsb'_append_eq_of_le, Nat.reduceLeDiff, Nat.reduceSub, low_app, BitVec.extractLsb'_eq_self]

@[simp] theorem dec_encUpd (w : UpdWord) : decUpd (encUpd w) = w := by
  simp [decUpd]

@[simp] theorem encCmpk_offw (w : CmpkWord) : bits (encCmpk w) 1 1 = encBool w.offw := by
  change BitVec.extractLsb' 1 1 ((((0 : BitVec 62) ++ encBool w.offw) ++ encBool w.offen) : BitVec (62 + 1 + 1)) = _
  simp only [BitVec.extractLsb'_append_eq_of_le, Nat.reduceLeDiff, Nat.reduceSub, low_app, BitVec.extractLsb'_eq_self]

@[simp] theorem encCmpk_offen (w : CmpkWord) : bits (encCmpk w) 0 1 = encBool w.offen := by
  change BitVec.extractLsb' 0 1 ((((0 : BitVec 62) ++ encBool w.offw) ++ encBool w.offen) : BitVec (62 + 1 + 1)) = _
  simp only [BitVec.extractLsb'_append_eq_of_le, Nat.reduceLeDiff, Nat.reduceSub, low_app, BitVec.extractLsb'_eq_self]

@[simp] theorem dec_encCmpk (w : CmpkWord) : decCmpk (encCmpk w) = w := by
  simp [decCmpk]

@[simp] theorem encStream_cblock (w : StreamWord) : bits (encStream w) 32 32 = w.cblock := by
  change BitVec.extractLsb' 32 32 ((((((w.cblock ++ w.cport) ++ encBool w.cen) ++ (0 : BitVec 15)) ++ w.pat) ++ w.handle) : BitVec (32 + 4 + 1 + 15 + 8 + 4)) = _
  simp only [BitVec.extractLsb'_append_eq_of_le, Nat.reduceLeDiff, Nat.reduceSub, low_app, BitVec.extractLsb'_eq_self]

@[simp] theorem encStream_cport (w : StreamWord) : bits (encStream w) 28 4 = w.cport := by
  change BitVec.extractLsb' 28 4 ((((((w.cblock ++ w.cport) ++ encBool w.cen) ++ (0 : BitVec 15)) ++ w.pat) ++ w.handle) : BitVec (32 + 4 + 1 + 15 + 8 + 4)) = _
  simp only [BitVec.extractLsb'_append_eq_of_le, Nat.reduceLeDiff, Nat.reduceSub, low_app, BitVec.extractLsb'_eq_self]

@[simp] theorem encStream_cen (w : StreamWord) : bits (encStream w) 27 1 = encBool w.cen := by
  change BitVec.extractLsb' 27 1 ((((((w.cblock ++ w.cport) ++ encBool w.cen) ++ (0 : BitVec 15)) ++ w.pat) ++ w.handle) : BitVec (32 + 4 + 1 + 15 + 8 + 4)) = _
  simp only [BitVec.extractLsb'_append_eq_of_le, Nat.reduceLeDiff, Nat.reduceSub, low_app, BitVec.extractLsb'_eq_self]

@[simp] theorem encStream_pat (w : StreamWord) : bits (encStream w) 4 8 = w.pat := by
  change BitVec.extractLsb' 4 8 ((((((w.cblock ++ w.cport) ++ encBool w.cen) ++ (0 : BitVec 15)) ++ w.pat) ++ w.handle) : BitVec (32 + 4 + 1 + 15 + 8 + 4)) = _
  simp only [BitVec.extractLsb'_append_eq_of_le, Nat.reduceLeDiff, Nat.reduceSub, low_app, BitVec.extractLsb'_eq_self]

@[simp] theorem encStream_handle (w : StreamWord) : bits (encStream w) 0 4 = w.handle := by
  change BitVec.extractLsb' 0 4 ((((((w.cblock ++ w.cport) ++ encBool w.cen) ++ (0 : BitVec 15)) ++ w.pat) ++ w.handle) : BitVec (32 + 4 + 1 + 15 + 8 + 4)) = _
  simp only [BitVec.extractLsb'_append_eq_of_le, Nat.reduceLeDiff, Nat.reduceSub, low_app, BitVec.extractLsb'_eq_self]

@[simp] theorem dec_encStream (w : StreamWord) : decStream (encStream w) = w := by
  simp [decStream]

@[simp] theorem encCopy_cblock (w : CopyWord) : bits (encCopy w) 32 32 = w.cblock := by
  change BitVec.extractLsb' 32 32 (((((w.cblock ++ w.cport) ++ encBool w.cen) ++ (0 : BitVec 19)) ++ w.desc) : BitVec (32 + 4 + 1 + 19 + 8)) = _
  simp only [BitVec.extractLsb'_append_eq_of_le, Nat.reduceLeDiff, Nat.reduceSub, low_app, BitVec.extractLsb'_eq_self]

@[simp] theorem encCopy_cport (w : CopyWord) : bits (encCopy w) 28 4 = w.cport := by
  change BitVec.extractLsb' 28 4 (((((w.cblock ++ w.cport) ++ encBool w.cen) ++ (0 : BitVec 19)) ++ w.desc) : BitVec (32 + 4 + 1 + 19 + 8)) = _
  simp only [BitVec.extractLsb'_append_eq_of_le, Nat.reduceLeDiff, Nat.reduceSub, low_app, BitVec.extractLsb'_eq_self]

@[simp] theorem encCopy_cen (w : CopyWord) : bits (encCopy w) 27 1 = encBool w.cen := by
  change BitVec.extractLsb' 27 1 (((((w.cblock ++ w.cport) ++ encBool w.cen) ++ (0 : BitVec 19)) ++ w.desc) : BitVec (32 + 4 + 1 + 19 + 8)) = _
  simp only [BitVec.extractLsb'_append_eq_of_le, Nat.reduceLeDiff, Nat.reduceSub, low_app, BitVec.extractLsb'_eq_self]

@[simp] theorem encCopy_desc (w : CopyWord) : bits (encCopy w) 0 8 = w.desc := by
  change BitVec.extractLsb' 0 8 (((((w.cblock ++ w.cport) ++ encBool w.cen) ++ (0 : BitVec 19)) ++ w.desc) : BitVec (32 + 4 + 1 + 19 + 8)) = _
  simp only [BitVec.extractLsb'_append_eq_of_le, Nat.reduceLeDiff, Nat.reduceSub, low_app, BitVec.extractLsb'_eq_self]

@[simp] theorem dec_encCopy (w : CopyWord) : decCopy (encCopy w) = w := by
  simp [decCopy]

@[simp] theorem encCtl_cblock (w : CtlWord) : bits (encCtl w) 40 24 = w.cblock := by
  change BitVec.extractLsb' 40 24 (((((((((((((w.cblock ++ w.cport) ++ encBool w.cen) ++ (0 : BitVec 6)) ++ w.opk) ++ w.mring) ++ w.nm1) ++ w.spm) ++ encBool w.tb) ++ encBool w.ta) ++ encRnd w.rnd) ++ w.afmt) ++ w.cls) : BitVec (24 + 4 + 1 + 6 + 8 + 5 + 5 + 3 + 1 + 1 + 2 + 2 + 2)) = _
  simp only [BitVec.extractLsb'_append_eq_of_le, Nat.reduceLeDiff, Nat.reduceSub, low_app, BitVec.extractLsb'_eq_self]

@[simp] theorem encCtl_cport (w : CtlWord) : bits (encCtl w) 36 4 = w.cport := by
  change BitVec.extractLsb' 36 4 (((((((((((((w.cblock ++ w.cport) ++ encBool w.cen) ++ (0 : BitVec 6)) ++ w.opk) ++ w.mring) ++ w.nm1) ++ w.spm) ++ encBool w.tb) ++ encBool w.ta) ++ encRnd w.rnd) ++ w.afmt) ++ w.cls) : BitVec (24 + 4 + 1 + 6 + 8 + 5 + 5 + 3 + 1 + 1 + 2 + 2 + 2)) = _
  simp only [BitVec.extractLsb'_append_eq_of_le, Nat.reduceLeDiff, Nat.reduceSub, low_app, BitVec.extractLsb'_eq_self]

@[simp] theorem encCtl_cen (w : CtlWord) : bits (encCtl w) 35 1 = encBool w.cen := by
  change BitVec.extractLsb' 35 1 (((((((((((((w.cblock ++ w.cport) ++ encBool w.cen) ++ (0 : BitVec 6)) ++ w.opk) ++ w.mring) ++ w.nm1) ++ w.spm) ++ encBool w.tb) ++ encBool w.ta) ++ encRnd w.rnd) ++ w.afmt) ++ w.cls) : BitVec (24 + 4 + 1 + 6 + 8 + 5 + 5 + 3 + 1 + 1 + 2 + 2 + 2)) = _
  simp only [BitVec.extractLsb'_append_eq_of_le, Nat.reduceLeDiff, Nat.reduceSub, low_app, BitVec.extractLsb'_eq_self]

@[simp] theorem encCtl_opk (w : CtlWord) : bits (encCtl w) 21 8 = w.opk := by
  change BitVec.extractLsb' 21 8 (((((((((((((w.cblock ++ w.cport) ++ encBool w.cen) ++ (0 : BitVec 6)) ++ w.opk) ++ w.mring) ++ w.nm1) ++ w.spm) ++ encBool w.tb) ++ encBool w.ta) ++ encRnd w.rnd) ++ w.afmt) ++ w.cls) : BitVec (24 + 4 + 1 + 6 + 8 + 5 + 5 + 3 + 1 + 1 + 2 + 2 + 2)) = _
  simp only [BitVec.extractLsb'_append_eq_of_le, Nat.reduceLeDiff, Nat.reduceSub, low_app, BitVec.extractLsb'_eq_self]

@[simp] theorem encCtl_mring (w : CtlWord) : bits (encCtl w) 16 5 = w.mring := by
  change BitVec.extractLsb' 16 5 (((((((((((((w.cblock ++ w.cport) ++ encBool w.cen) ++ (0 : BitVec 6)) ++ w.opk) ++ w.mring) ++ w.nm1) ++ w.spm) ++ encBool w.tb) ++ encBool w.ta) ++ encRnd w.rnd) ++ w.afmt) ++ w.cls) : BitVec (24 + 4 + 1 + 6 + 8 + 5 + 5 + 3 + 1 + 1 + 2 + 2 + 2)) = _
  simp only [BitVec.extractLsb'_append_eq_of_le, Nat.reduceLeDiff, Nat.reduceSub, low_app, BitVec.extractLsb'_eq_self]

@[simp] theorem encCtl_nm1 (w : CtlWord) : bits (encCtl w) 11 5 = w.nm1 := by
  change BitVec.extractLsb' 11 5 (((((((((((((w.cblock ++ w.cport) ++ encBool w.cen) ++ (0 : BitVec 6)) ++ w.opk) ++ w.mring) ++ w.nm1) ++ w.spm) ++ encBool w.tb) ++ encBool w.ta) ++ encRnd w.rnd) ++ w.afmt) ++ w.cls) : BitVec (24 + 4 + 1 + 6 + 8 + 5 + 5 + 3 + 1 + 1 + 2 + 2 + 2)) = _
  simp only [BitVec.extractLsb'_append_eq_of_le, Nat.reduceLeDiff, Nat.reduceSub, low_app, BitVec.extractLsb'_eq_self]

@[simp] theorem encCtl_spm (w : CtlWord) : bits (encCtl w) 8 3 = w.spm := by
  change BitVec.extractLsb' 8 3 (((((((((((((w.cblock ++ w.cport) ++ encBool w.cen) ++ (0 : BitVec 6)) ++ w.opk) ++ w.mring) ++ w.nm1) ++ w.spm) ++ encBool w.tb) ++ encBool w.ta) ++ encRnd w.rnd) ++ w.afmt) ++ w.cls) : BitVec (24 + 4 + 1 + 6 + 8 + 5 + 5 + 3 + 1 + 1 + 2 + 2 + 2)) = _
  simp only [BitVec.extractLsb'_append_eq_of_le, Nat.reduceLeDiff, Nat.reduceSub, low_app, BitVec.extractLsb'_eq_self]

@[simp] theorem encCtl_tb (w : CtlWord) : bits (encCtl w) 7 1 = encBool w.tb := by
  change BitVec.extractLsb' 7 1 (((((((((((((w.cblock ++ w.cport) ++ encBool w.cen) ++ (0 : BitVec 6)) ++ w.opk) ++ w.mring) ++ w.nm1) ++ w.spm) ++ encBool w.tb) ++ encBool w.ta) ++ encRnd w.rnd) ++ w.afmt) ++ w.cls) : BitVec (24 + 4 + 1 + 6 + 8 + 5 + 5 + 3 + 1 + 1 + 2 + 2 + 2)) = _
  simp only [BitVec.extractLsb'_append_eq_of_le, Nat.reduceLeDiff, Nat.reduceSub, low_app, BitVec.extractLsb'_eq_self]

@[simp] theorem encCtl_ta (w : CtlWord) : bits (encCtl w) 6 1 = encBool w.ta := by
  change BitVec.extractLsb' 6 1 (((((((((((((w.cblock ++ w.cport) ++ encBool w.cen) ++ (0 : BitVec 6)) ++ w.opk) ++ w.mring) ++ w.nm1) ++ w.spm) ++ encBool w.tb) ++ encBool w.ta) ++ encRnd w.rnd) ++ w.afmt) ++ w.cls) : BitVec (24 + 4 + 1 + 6 + 8 + 5 + 5 + 3 + 1 + 1 + 2 + 2 + 2)) = _
  simp only [BitVec.extractLsb'_append_eq_of_le, Nat.reduceLeDiff, Nat.reduceSub, low_app, BitVec.extractLsb'_eq_self]

@[simp] theorem encCtl_rnd (w : CtlWord) : bits (encCtl w) 4 2 = encRnd w.rnd := by
  change BitVec.extractLsb' 4 2 (((((((((((((w.cblock ++ w.cport) ++ encBool w.cen) ++ (0 : BitVec 6)) ++ w.opk) ++ w.mring) ++ w.nm1) ++ w.spm) ++ encBool w.tb) ++ encBool w.ta) ++ encRnd w.rnd) ++ w.afmt) ++ w.cls) : BitVec (24 + 4 + 1 + 6 + 8 + 5 + 5 + 3 + 1 + 1 + 2 + 2 + 2)) = _
  simp only [BitVec.extractLsb'_append_eq_of_le, Nat.reduceLeDiff, Nat.reduceSub, low_app, BitVec.extractLsb'_eq_self]

@[simp] theorem encCtl_afmt (w : CtlWord) : bits (encCtl w) 2 2 = w.afmt := by
  change BitVec.extractLsb' 2 2 (((((((((((((w.cblock ++ w.cport) ++ encBool w.cen) ++ (0 : BitVec 6)) ++ w.opk) ++ w.mring) ++ w.nm1) ++ w.spm) ++ encBool w.tb) ++ encBool w.ta) ++ encRnd w.rnd) ++ w.afmt) ++ w.cls) : BitVec (24 + 4 + 1 + 6 + 8 + 5 + 5 + 3 + 1 + 1 + 2 + 2 + 2)) = _
  simp only [BitVec.extractLsb'_append_eq_of_le, Nat.reduceLeDiff, Nat.reduceSub, low_app, BitVec.extractLsb'_eq_self]

@[simp] theorem encCtl_cls (w : CtlWord) : bits (encCtl w) 0 2 = w.cls := by
  change BitVec.extractLsb' 0 2 (((((((((((((w.cblock ++ w.cport) ++ encBool w.cen) ++ (0 : BitVec 6)) ++ w.opk) ++ w.mring) ++ w.nm1) ++ w.spm) ++ encBool w.tb) ++ encBool w.ta) ++ encRnd w.rnd) ++ w.afmt) ++ w.cls) : BitVec (24 + 4 + 1 + 6 + 8 + 5 + 5 + 3 + 1 + 1 + 2 + 2 + 2)) = _
  simp only [BitVec.extractLsb'_append_eq_of_le, Nat.reduceLeDiff, Nat.reduceSub, low_app, BitVec.extractLsb'_eq_self]

@[simp] theorem dec_encCtl (w : CtlWord) : decCtl (encCtl w) = w := by
  simp [decCtl]

@[simp] theorem encEpi_ek (w : EpiWord) : bits (encEpi w) 18 8 = w.ek := by
  change BitVec.extractLsb' 18 8 ((((((((((((0 : BitVec 38) ++ w.ek) ++ encBool w.clr) ++ w.act) ++ encBool w.scale) ++ encBool w.bias) ++ encBool w.sat) ++ encRnd w.round) ++ w.dfmt) ++ w.dring) ++ encBool w.dkind) : BitVec (38 + 8 + 1 + 2 + 1 + 1 + 1 + 2 + 4 + 5 + 1)) = _
  simp only [BitVec.extractLsb'_append_eq_of_le, Nat.reduceLeDiff, Nat.reduceSub, low_app, BitVec.extractLsb'_eq_self]

@[simp] theorem encEpi_clr (w : EpiWord) : bits (encEpi w) 17 1 = encBool w.clr := by
  change BitVec.extractLsb' 17 1 ((((((((((((0 : BitVec 38) ++ w.ek) ++ encBool w.clr) ++ w.act) ++ encBool w.scale) ++ encBool w.bias) ++ encBool w.sat) ++ encRnd w.round) ++ w.dfmt) ++ w.dring) ++ encBool w.dkind) : BitVec (38 + 8 + 1 + 2 + 1 + 1 + 1 + 2 + 4 + 5 + 1)) = _
  simp only [BitVec.extractLsb'_append_eq_of_le, Nat.reduceLeDiff, Nat.reduceSub, low_app, BitVec.extractLsb'_eq_self]

@[simp] theorem encEpi_act (w : EpiWord) : bits (encEpi w) 15 2 = w.act := by
  change BitVec.extractLsb' 15 2 ((((((((((((0 : BitVec 38) ++ w.ek) ++ encBool w.clr) ++ w.act) ++ encBool w.scale) ++ encBool w.bias) ++ encBool w.sat) ++ encRnd w.round) ++ w.dfmt) ++ w.dring) ++ encBool w.dkind) : BitVec (38 + 8 + 1 + 2 + 1 + 1 + 1 + 2 + 4 + 5 + 1)) = _
  simp only [BitVec.extractLsb'_append_eq_of_le, Nat.reduceLeDiff, Nat.reduceSub, low_app, BitVec.extractLsb'_eq_self]

@[simp] theorem encEpi_scale (w : EpiWord) : bits (encEpi w) 14 1 = encBool w.scale := by
  change BitVec.extractLsb' 14 1 ((((((((((((0 : BitVec 38) ++ w.ek) ++ encBool w.clr) ++ w.act) ++ encBool w.scale) ++ encBool w.bias) ++ encBool w.sat) ++ encRnd w.round) ++ w.dfmt) ++ w.dring) ++ encBool w.dkind) : BitVec (38 + 8 + 1 + 2 + 1 + 1 + 1 + 2 + 4 + 5 + 1)) = _
  simp only [BitVec.extractLsb'_append_eq_of_le, Nat.reduceLeDiff, Nat.reduceSub, low_app, BitVec.extractLsb'_eq_self]

@[simp] theorem encEpi_bias (w : EpiWord) : bits (encEpi w) 13 1 = encBool w.bias := by
  change BitVec.extractLsb' 13 1 ((((((((((((0 : BitVec 38) ++ w.ek) ++ encBool w.clr) ++ w.act) ++ encBool w.scale) ++ encBool w.bias) ++ encBool w.sat) ++ encRnd w.round) ++ w.dfmt) ++ w.dring) ++ encBool w.dkind) : BitVec (38 + 8 + 1 + 2 + 1 + 1 + 1 + 2 + 4 + 5 + 1)) = _
  simp only [BitVec.extractLsb'_append_eq_of_le, Nat.reduceLeDiff, Nat.reduceSub, low_app, BitVec.extractLsb'_eq_self]

@[simp] theorem encEpi_sat (w : EpiWord) : bits (encEpi w) 12 1 = encBool w.sat := by
  change BitVec.extractLsb' 12 1 ((((((((((((0 : BitVec 38) ++ w.ek) ++ encBool w.clr) ++ w.act) ++ encBool w.scale) ++ encBool w.bias) ++ encBool w.sat) ++ encRnd w.round) ++ w.dfmt) ++ w.dring) ++ encBool w.dkind) : BitVec (38 + 8 + 1 + 2 + 1 + 1 + 1 + 2 + 4 + 5 + 1)) = _
  simp only [BitVec.extractLsb'_append_eq_of_le, Nat.reduceLeDiff, Nat.reduceSub, low_app, BitVec.extractLsb'_eq_self]

@[simp] theorem encEpi_round (w : EpiWord) : bits (encEpi w) 10 2 = encRnd w.round := by
  change BitVec.extractLsb' 10 2 ((((((((((((0 : BitVec 38) ++ w.ek) ++ encBool w.clr) ++ w.act) ++ encBool w.scale) ++ encBool w.bias) ++ encBool w.sat) ++ encRnd w.round) ++ w.dfmt) ++ w.dring) ++ encBool w.dkind) : BitVec (38 + 8 + 1 + 2 + 1 + 1 + 1 + 2 + 4 + 5 + 1)) = _
  simp only [BitVec.extractLsb'_append_eq_of_le, Nat.reduceLeDiff, Nat.reduceSub, low_app, BitVec.extractLsb'_eq_self]

@[simp] theorem encEpi_dfmt (w : EpiWord) : bits (encEpi w) 6 4 = w.dfmt := by
  change BitVec.extractLsb' 6 4 ((((((((((((0 : BitVec 38) ++ w.ek) ++ encBool w.clr) ++ w.act) ++ encBool w.scale) ++ encBool w.bias) ++ encBool w.sat) ++ encRnd w.round) ++ w.dfmt) ++ w.dring) ++ encBool w.dkind) : BitVec (38 + 8 + 1 + 2 + 1 + 1 + 1 + 2 + 4 + 5 + 1)) = _
  simp only [BitVec.extractLsb'_append_eq_of_le, Nat.reduceLeDiff, Nat.reduceSub, low_app, BitVec.extractLsb'_eq_self]

@[simp] theorem encEpi_dring (w : EpiWord) : bits (encEpi w) 1 5 = w.dring := by
  change BitVec.extractLsb' 1 5 ((((((((((((0 : BitVec 38) ++ w.ek) ++ encBool w.clr) ++ w.act) ++ encBool w.scale) ++ encBool w.bias) ++ encBool w.sat) ++ encRnd w.round) ++ w.dfmt) ++ w.dring) ++ encBool w.dkind) : BitVec (38 + 8 + 1 + 2 + 1 + 1 + 1 + 2 + 4 + 5 + 1)) = _
  simp only [BitVec.extractLsb'_append_eq_of_le, Nat.reduceLeDiff, Nat.reduceSub, low_app, BitVec.extractLsb'_eq_self]

@[simp] theorem encEpi_dkind (w : EpiWord) : bits (encEpi w) 0 1 = encBool w.dkind := by
  change BitVec.extractLsb' 0 1 ((((((((((((0 : BitVec 38) ++ w.ek) ++ encBool w.clr) ++ w.act) ++ encBool w.scale) ++ encBool w.bias) ++ encBool w.sat) ++ encRnd w.round) ++ w.dfmt) ++ w.dring) ++ encBool w.dkind) : BitVec (38 + 8 + 1 + 2 + 1 + 1 + 1 + 2 + 4 + 5 + 1)) = _
  simp only [BitVec.extractLsb'_append_eq_of_le, Nat.reduceLeDiff, Nat.reduceSub, low_app, BitVec.extractLsb'_eq_self]

@[simp] theorem dec_encEpi (w : EpiWord) : decEpi (encEpi w) = w := by
  simp [decEpi]

@[simp] theorem encCompare_hblock (w : CompareWord) : bits (encCompare w) 44 20 = w.hblock := by
  change BitVec.extractLsb' 44 20 (((((((w.hblock ++ w.hport) ++ w.mblock) ++ w.mport) ++ (0 : BitVec 7)) ++ encBool w.src) ++ w.sel) : BitVec (20 + 4 + 20 + 4 + 7 + 1 + 8)) = _
  simp only [BitVec.extractLsb'_append_eq_of_le, Nat.reduceLeDiff, Nat.reduceSub, low_app, BitVec.extractLsb'_eq_self]

@[simp] theorem encCompare_hport (w : CompareWord) : bits (encCompare w) 40 4 = w.hport := by
  change BitVec.extractLsb' 40 4 (((((((w.hblock ++ w.hport) ++ w.mblock) ++ w.mport) ++ (0 : BitVec 7)) ++ encBool w.src) ++ w.sel) : BitVec (20 + 4 + 20 + 4 + 7 + 1 + 8)) = _
  simp only [BitVec.extractLsb'_append_eq_of_le, Nat.reduceLeDiff, Nat.reduceSub, low_app, BitVec.extractLsb'_eq_self]

@[simp] theorem encCompare_mblock (w : CompareWord) : bits (encCompare w) 20 20 = w.mblock := by
  change BitVec.extractLsb' 20 20 (((((((w.hblock ++ w.hport) ++ w.mblock) ++ w.mport) ++ (0 : BitVec 7)) ++ encBool w.src) ++ w.sel) : BitVec (20 + 4 + 20 + 4 + 7 + 1 + 8)) = _
  simp only [BitVec.extractLsb'_append_eq_of_le, Nat.reduceLeDiff, Nat.reduceSub, low_app, BitVec.extractLsb'_eq_self]

@[simp] theorem encCompare_mport (w : CompareWord) : bits (encCompare w) 16 4 = w.mport := by
  change BitVec.extractLsb' 16 4 (((((((w.hblock ++ w.hport) ++ w.mblock) ++ w.mport) ++ (0 : BitVec 7)) ++ encBool w.src) ++ w.sel) : BitVec (20 + 4 + 20 + 4 + 7 + 1 + 8)) = _
  simp only [BitVec.extractLsb'_append_eq_of_le, Nat.reduceLeDiff, Nat.reduceSub, low_app, BitVec.extractLsb'_eq_self]

@[simp] theorem encCompare_src (w : CompareWord) : bits (encCompare w) 8 1 = encBool w.src := by
  change BitVec.extractLsb' 8 1 (((((((w.hblock ++ w.hport) ++ w.mblock) ++ w.mport) ++ (0 : BitVec 7)) ++ encBool w.src) ++ w.sel) : BitVec (20 + 4 + 20 + 4 + 7 + 1 + 8)) = _
  simp only [BitVec.extractLsb'_append_eq_of_le, Nat.reduceLeDiff, Nat.reduceSub, low_app, BitVec.extractLsb'_eq_self]

@[simp] theorem encCompare_sel (w : CompareWord) : bits (encCompare w) 0 8 = w.sel := by
  change BitVec.extractLsb' 0 8 (((((((w.hblock ++ w.hport) ++ w.mblock) ++ w.mport) ++ (0 : BitVec 7)) ++ encBool w.src) ++ w.sel) : BitVec (20 + 4 + 20 + 4 + 7 + 1 + 8)) = _
  simp only [BitVec.extractLsb'_append_eq_of_le, Nat.reduceLeDiff, Nat.reduceSub, low_app, BitVec.extractLsb'_eq_self]

@[simp] theorem dec_encCompare (w : CompareWord) : decCompare (encCompare w) = w := by
  simp [decCompare]

@[simp] theorem encStore_cblock (w : StoreWord) : bits (encStore w) 40 24 = w.cblock := by
  change BitVec.extractLsb' 40 24 ((((((((w.cblock ++ w.cport) ++ encBool w.cen) ++ (0 : BitVec 17)) ++ encBool w.isrc) ++ encBool w.osrc) ++ w.isel) ++ w.osel) : BitVec (24 + 4 + 1 + 17 + 1 + 1 + 8 + 8)) = _
  simp only [BitVec.extractLsb'_append_eq_of_le, Nat.reduceLeDiff, Nat.reduceSub, low_app, BitVec.extractLsb'_eq_self]

@[simp] theorem encStore_cport (w : StoreWord) : bits (encStore w) 36 4 = w.cport := by
  change BitVec.extractLsb' 36 4 ((((((((w.cblock ++ w.cport) ++ encBool w.cen) ++ (0 : BitVec 17)) ++ encBool w.isrc) ++ encBool w.osrc) ++ w.isel) ++ w.osel) : BitVec (24 + 4 + 1 + 17 + 1 + 1 + 8 + 8)) = _
  simp only [BitVec.extractLsb'_append_eq_of_le, Nat.reduceLeDiff, Nat.reduceSub, low_app, BitVec.extractLsb'_eq_self]

@[simp] theorem encStore_cen (w : StoreWord) : bits (encStore w) 35 1 = encBool w.cen := by
  change BitVec.extractLsb' 35 1 ((((((((w.cblock ++ w.cport) ++ encBool w.cen) ++ (0 : BitVec 17)) ++ encBool w.isrc) ++ encBool w.osrc) ++ w.isel) ++ w.osel) : BitVec (24 + 4 + 1 + 17 + 1 + 1 + 8 + 8)) = _
  simp only [BitVec.extractLsb'_append_eq_of_le, Nat.reduceLeDiff, Nat.reduceSub, low_app, BitVec.extractLsb'_eq_self]

@[simp] theorem encStore_isrc (w : StoreWord) : bits (encStore w) 17 1 = encBool w.isrc := by
  change BitVec.extractLsb' 17 1 ((((((((w.cblock ++ w.cport) ++ encBool w.cen) ++ (0 : BitVec 17)) ++ encBool w.isrc) ++ encBool w.osrc) ++ w.isel) ++ w.osel) : BitVec (24 + 4 + 1 + 17 + 1 + 1 + 8 + 8)) = _
  simp only [BitVec.extractLsb'_append_eq_of_le, Nat.reduceLeDiff, Nat.reduceSub, low_app, BitVec.extractLsb'_eq_self]

@[simp] theorem encStore_osrc (w : StoreWord) : bits (encStore w) 16 1 = encBool w.osrc := by
  change BitVec.extractLsb' 16 1 ((((((((w.cblock ++ w.cport) ++ encBool w.cen) ++ (0 : BitVec 17)) ++ encBool w.isrc) ++ encBool w.osrc) ++ w.isel) ++ w.osel) : BitVec (24 + 4 + 1 + 17 + 1 + 1 + 8 + 8)) = _
  simp only [BitVec.extractLsb'_append_eq_of_le, Nat.reduceLeDiff, Nat.reduceSub, low_app, BitVec.extractLsb'_eq_self]

@[simp] theorem encStore_isel (w : StoreWord) : bits (encStore w) 8 8 = w.isel := by
  change BitVec.extractLsb' 8 8 ((((((((w.cblock ++ w.cport) ++ encBool w.cen) ++ (0 : BitVec 17)) ++ encBool w.isrc) ++ encBool w.osrc) ++ w.isel) ++ w.osel) : BitVec (24 + 4 + 1 + 17 + 1 + 1 + 8 + 8)) = _
  simp only [BitVec.extractLsb'_append_eq_of_le, Nat.reduceLeDiff, Nat.reduceSub, low_app, BitVec.extractLsb'_eq_self]

@[simp] theorem encStore_osel (w : StoreWord) : bits (encStore w) 0 8 = w.osel := by
  change BitVec.extractLsb' 0 8 ((((((((w.cblock ++ w.cport) ++ encBool w.cen) ++ (0 : BitVec 17)) ++ encBool w.isrc) ++ encBool w.osrc) ++ w.isel) ++ w.osel) : BitVec (24 + 4 + 1 + 17 + 1 + 1 + 8 + 8)) = _
  simp only [BitVec.extractLsb'_append_eq_of_le, Nat.reduceLeDiff, Nat.reduceSub, low_app, BitVec.extractLsb'_eq_self]

@[simp] theorem dec_encStore (w : StoreWord) : decStore (encStore w) = w := by
  simp [decStore]

@[simp] theorem encReplay_cblock (w : ReplayWord) : bits (encReplay w) 40 24 = w.cblock := by
  change BitVec.extractLsb' 40 24 ((((((((w.cblock ++ w.cport) ++ encBool w.cen) ++ (0 : BitVec 17)) ++ encBool w.fen) ++ encBool w.dsrc) ++ w.flopk) ++ w.dsel) : BitVec (24 + 4 + 1 + 17 + 1 + 1 + 8 + 8)) = _
  simp only [BitVec.extractLsb'_append_eq_of_le, Nat.reduceLeDiff, Nat.reduceSub, low_app, BitVec.extractLsb'_eq_self]

@[simp] theorem encReplay_cport (w : ReplayWord) : bits (encReplay w) 36 4 = w.cport := by
  change BitVec.extractLsb' 36 4 ((((((((w.cblock ++ w.cport) ++ encBool w.cen) ++ (0 : BitVec 17)) ++ encBool w.fen) ++ encBool w.dsrc) ++ w.flopk) ++ w.dsel) : BitVec (24 + 4 + 1 + 17 + 1 + 1 + 8 + 8)) = _
  simp only [BitVec.extractLsb'_append_eq_of_le, Nat.reduceLeDiff, Nat.reduceSub, low_app, BitVec.extractLsb'_eq_self]

@[simp] theorem encReplay_cen (w : ReplayWord) : bits (encReplay w) 35 1 = encBool w.cen := by
  change BitVec.extractLsb' 35 1 ((((((((w.cblock ++ w.cport) ++ encBool w.cen) ++ (0 : BitVec 17)) ++ encBool w.fen) ++ encBool w.dsrc) ++ w.flopk) ++ w.dsel) : BitVec (24 + 4 + 1 + 17 + 1 + 1 + 8 + 8)) = _
  simp only [BitVec.extractLsb'_append_eq_of_le, Nat.reduceLeDiff, Nat.reduceSub, low_app, BitVec.extractLsb'_eq_self]

@[simp] theorem encReplay_fen (w : ReplayWord) : bits (encReplay w) 17 1 = encBool w.fen := by
  change BitVec.extractLsb' 17 1 ((((((((w.cblock ++ w.cport) ++ encBool w.cen) ++ (0 : BitVec 17)) ++ encBool w.fen) ++ encBool w.dsrc) ++ w.flopk) ++ w.dsel) : BitVec (24 + 4 + 1 + 17 + 1 + 1 + 8 + 8)) = _
  simp only [BitVec.extractLsb'_append_eq_of_le, Nat.reduceLeDiff, Nat.reduceSub, low_app, BitVec.extractLsb'_eq_self]

@[simp] theorem encReplay_dsrc (w : ReplayWord) : bits (encReplay w) 16 1 = encBool w.dsrc := by
  change BitVec.extractLsb' 16 1 ((((((((w.cblock ++ w.cport) ++ encBool w.cen) ++ (0 : BitVec 17)) ++ encBool w.fen) ++ encBool w.dsrc) ++ w.flopk) ++ w.dsel) : BitVec (24 + 4 + 1 + 17 + 1 + 1 + 8 + 8)) = _
  simp only [BitVec.extractLsb'_append_eq_of_le, Nat.reduceLeDiff, Nat.reduceSub, low_app, BitVec.extractLsb'_eq_self]

@[simp] theorem encReplay_flopk (w : ReplayWord) : bits (encReplay w) 8 8 = w.flopk := by
  change BitVec.extractLsb' 8 8 ((((((((w.cblock ++ w.cport) ++ encBool w.cen) ++ (0 : BitVec 17)) ++ encBool w.fen) ++ encBool w.dsrc) ++ w.flopk) ++ w.dsel) : BitVec (24 + 4 + 1 + 17 + 1 + 1 + 8 + 8)) = _
  simp only [BitVec.extractLsb'_append_eq_of_le, Nat.reduceLeDiff, Nat.reduceSub, low_app, BitVec.extractLsb'_eq_self]

@[simp] theorem encReplay_dsel (w : ReplayWord) : bits (encReplay w) 0 8 = w.dsel := by
  change BitVec.extractLsb' 0 8 ((((((((w.cblock ++ w.cport) ++ encBool w.cen) ++ (0 : BitVec 17)) ++ encBool w.fen) ++ encBool w.dsrc) ++ w.flopk) ++ w.dsel) : BitVec (24 + 4 + 1 + 17 + 1 + 1 + 8 + 8)) = _
  simp only [BitVec.extractLsb'_append_eq_of_le, Nat.reduceLeDiff, Nat.reduceSub, low_app, BitVec.extractLsb'_eq_self]

@[simp] theorem dec_encReplay (w : ReplayWord) : decReplay (encReplay w) = w := by
  simp [decReplay]

@[simp] theorem encCounterWord_cls (w : CounterWord) : bits (encCounterWord w) 4 4 = w.cls := by
  change BitVec.extractLsb' 4 4 (((((0 : BitVec 56) ++ w.cls) ++ (0 : BitVec 1)) ++ encCounter w.counter) : BitVec (56 + 4 + 1 + 3)) = _
  simp only [BitVec.extractLsb'_append_eq_of_le, Nat.reduceLeDiff, Nat.reduceSub, low_app, BitVec.extractLsb'_eq_self]

@[simp] theorem encCounterWord_counter (w : CounterWord) : bits (encCounterWord w) 0 3 = encCounter w.counter := by
  change BitVec.extractLsb' 0 3 (((((0 : BitVec 56) ++ w.cls) ++ (0 : BitVec 1)) ++ encCounter w.counter) : BitVec (56 + 4 + 1 + 3)) = _
  simp only [BitVec.extractLsb'_append_eq_of_le, Nat.reduceLeDiff, Nat.reduceSub, low_app, BitVec.extractLsb'_eq_self]

@[simp] theorem dec_encCounterWord (w : CounterWord) : decCounterWord (encCounterWord w) = w := by
  simp [decCounterWord]

@[simp] theorem encSelWord_cblock (w : SelWord) : bits (encSelWord w) 40 24 = w.cblock := by
  change BitVec.extractLsb' 40 24 (((((((w.cblock ++ w.cport) ++ encBool w.cen) ++ (0 : BitVec 7)) ++ w.npages) ++ (0 : BitVec 3)) ++ w.ring) : BitVec (24 + 4 + 1 + 7 + 20 + 3 + 5)) = _
  simp only [BitVec.extractLsb'_append_eq_of_le, Nat.reduceLeDiff, Nat.reduceSub, low_app, BitVec.extractLsb'_eq_self]

@[simp] theorem encSelWord_cport (w : SelWord) : bits (encSelWord w) 36 4 = w.cport := by
  change BitVec.extractLsb' 36 4 (((((((w.cblock ++ w.cport) ++ encBool w.cen) ++ (0 : BitVec 7)) ++ w.npages) ++ (0 : BitVec 3)) ++ w.ring) : BitVec (24 + 4 + 1 + 7 + 20 + 3 + 5)) = _
  simp only [BitVec.extractLsb'_append_eq_of_le, Nat.reduceLeDiff, Nat.reduceSub, low_app, BitVec.extractLsb'_eq_self]

@[simp] theorem encSelWord_cen (w : SelWord) : bits (encSelWord w) 35 1 = encBool w.cen := by
  change BitVec.extractLsb' 35 1 (((((((w.cblock ++ w.cport) ++ encBool w.cen) ++ (0 : BitVec 7)) ++ w.npages) ++ (0 : BitVec 3)) ++ w.ring) : BitVec (24 + 4 + 1 + 7 + 20 + 3 + 5)) = _
  simp only [BitVec.extractLsb'_append_eq_of_le, Nat.reduceLeDiff, Nat.reduceSub, low_app, BitVec.extractLsb'_eq_self]

@[simp] theorem encSelWord_npages (w : SelWord) : bits (encSelWord w) 8 20 = w.npages := by
  change BitVec.extractLsb' 8 20 (((((((w.cblock ++ w.cport) ++ encBool w.cen) ++ (0 : BitVec 7)) ++ w.npages) ++ (0 : BitVec 3)) ++ w.ring) : BitVec (24 + 4 + 1 + 7 + 20 + 3 + 5)) = _
  simp only [BitVec.extractLsb'_append_eq_of_le, Nat.reduceLeDiff, Nat.reduceSub, low_app, BitVec.extractLsb'_eq_self]

@[simp] theorem encSelWord_ring (w : SelWord) : bits (encSelWord w) 0 5 = w.ring := by
  change BitVec.extractLsb' 0 5 (((((((w.cblock ++ w.cport) ++ encBool w.cen) ++ (0 : BitVec 7)) ++ w.npages) ++ (0 : BitVec 3)) ++ w.ring) : BitVec (24 + 4 + 1 + 7 + 20 + 3 + 5)) = _
  simp only [BitVec.extractLsb'_append_eq_of_le, Nat.reduceLeDiff, Nat.reduceSub, low_app, BitVec.extractLsb'_eq_self]

@[simp] theorem dec_encSelWord (w : SelWord) : decSelWord (encSelWord w) = w := by
  simp [decSelWord]

@[simp] theorem dec_encReg (r : Reg) : decReg (encReg r) = r := by cases r <;> decide

@[simp] theorem dec_encSlotM (s : BitVec 2) : decSlotM (encSlotM s) = some s := by revert s; decide

@[simp] theorem dec_encFT_ty (ft : FTy) (r : Rnd) : decFTy ((encFT ft r).extractLsb' 2 1) = ft := by
  cases ft <;> cases r <;> decide
@[simp] theorem dec_encFT_rnd (ft : FTy) (r : Rnd) : decRnd ((encFT ft r).extractLsb' 0 2) = r := by
  cases ft <;> cases r <;> decide
@[simp] theorem dec_encFN (ft : FTy) : decFN (encFN ft) = some ft := by cases ft <;> decide

@[simp] theorem dec_cvt_sat (sat : Bool) (r : Rnd) : decBool ((encBool sat ++ encRnd r).extractLsb' 2 1) = sat := by
  cases sat <;> cases r <;> decide
@[simp] theorem dec_cvt_rnd (sat : Bool) (r : Rnd) : decRnd ((encBool sat ++ encRnd r).extractLsb' 0 2) = r := by
  cases sat <;> cases r <;> decide

theorem encPred_ne (p : Pred) : (encPred p == 3) = false := by cases p <;> decide

theorem ownReason_of_wf (i : Instr) (f : Flds) (opc : BitVec 10) (m : BitVec 3) (x : Option Word)
    (hf : i.flds = some f) (hw : i.word0 = packWord opc m f) (sh : Shape) (hs : i.shape = some sh)
    (wf : i.WellFormed = true) (hx : i.extWord = none ∨ i.extWord = x) :
    ownReason (packWord opc m f) x i = none := by
  unfold Instr.WellFormed at wf
  rw [hf, hs] at wf
  simp only [Bool.and_eq_true] at wf
  obtain ⟨⟨hm, he⟩, ⟨⟨⟨hp, hu⟩, hsl⟩, hst⟩, ht⟩ := wf
  unfold ownReason ownBreaches
  simp only [hf, hs, hw, unpack_pack, packWord_p, packWord_t0, packWord_t1, badTarget_enc, encPred_ne, Option.getD_some, hm, he, hp, hu, hsl, hst, ht]
  rcases hx with hx | hx
  · simp [hx]
  · cases x with
    | none => simp [hx]
    | some y => simp [hx]

theorem ownReason_imm (i : Instr) (f : ImmFlds) (opc : BitVec 10) (m : BitVec 3) (x : Option Word)
    (hf : i.flds = none) (hw : i.word0 = packImm opc m f) (hs : i.shape = none)
    (hm : i.mOk = true) (hx : i.extWord = none) :
    ownReason (packImm opc m f) x i = none := by
  unfold ownReason ownBreaches
  simp [hf, hs, hw, hm, hx]

theorem decode_f0 (i : Instr) (f : Flds) (opc : BitVec 10) (m : BitVec 3) (x : Option Word) (mk : Flds → Instr)
    (hw : i.word0 = packWord opc m f) (hb : build opc.toNat m = .f0 mk) (hi : mk f = i)
    (hr : ownReason (packWord opc m f) x i = none) : decodeWord i.word0 x = .ok i := by
  rw [hw]; unfold decodeWord candidate
  simp [hb, hi, hr]

theorem decode_f1 (i : Instr) (f : ImmFlds) (opc : BitVec 10) (m : BitVec 3) (x : Option Word) (mk : ImmFlds → Instr)
    (hw : i.word0 = packImm opc m f) (hb : build opc.toNat m = .f1 mk) (hi : mk f = i)
    (hr : ownReason (packImm opc m f) x i = none) : decodeWord i.word0 x = .ok i := by
  rw [hw]; unfold decodeWord candidate
  simp [hb, hi, hr]

theorem decode_f3 (i : Instr) (f : Flds) (opc : BitVec 10) (m : BitVec 3) (e : Word) (mk : Word → Flds → Instr)
    (hw : i.word0 = packWord opc m f) (hb : build opc.toNat m = .f3 mk) (hi : mk e f = i)
    (hr : ownReason (packWord opc m f) (some e) i = none) : decodeWord i.word0 (some e) = .ok i := by
  rw [hw]; unfold decodeWord candidate
  simp [hb, hi, hr]

end Sys2Proof
end

