-- ==== Sys2Proof/Laws/PerInstr.lean ====
section
/-! SUPPORT. For every instruction: decoding what it encodes to gives it back, and the words that follow. -/

namespace Sys2Proof

/-- A well-formed instruction of Isaef is decoded from its own words, whatever words follow them. -/
def Laws.Encode.Statement (i : Instr) : Prop :=
  i.isIsa = true → i.WellFormed = true → ∀ rest, decodeWords (encode i ++ rest) = .ok (i, rest)

namespace Laws.Encode

theorem one_word {i : Instr} (hi : i.isIsa = true) (he : i.extWord = none) (h : ∀ x, decodeWord i.word0 x = .ok i)
    (rest : List Word) : decodeWords (encode i ++ rest) = .ok (i, rest) := by
  simp [encode, hi, he, decodeWords, h, Instr.len]

theorem two_words {i : Instr} {e : Word} (hi : i.isIsa = true) (he : i.extWord = some e)
    (h : decodeWord i.word0 (some e) = .ok i) (rest : List Word) :
    decodeWords (encode i ++ rest) = .ok (i, rest) := by
  simp [encode, hi, he, decodeWords, h, Instr.len]

end Laws.Encode

end Sys2Proof

set_option Elab.async false

open Sys2Proof Sys2Proof.Laws.Encode

theorem Sys2Proof.Laws.Encode.add (ty : IntTy) (f : Flds) : Statement (Instr.add ty f) := fun _ h => one_word rfl rfl fun x =>
  decode_f0 (Instr.add ty f) f _ _ x (.add ty) rfl (by cases ty <;> rfl) rfl (ownReason_of_wf _ f _ _ x rfl rfl _ rfl h (.inl rfl))
theorem Sys2Proof.Laws.Encode.sub (ty : IntTy) (f : Flds) : Statement (Instr.sub ty f) := fun _ h => one_word rfl rfl fun x =>
  decode_f0 (Instr.sub ty f) f _ _ x (.sub ty) rfl (by cases ty <;> rfl) rfl (ownReason_of_wf _ f _ _ x rfl rfl _ rfl h (.inl rfl))
theorem Sys2Proof.Laws.Encode.adds (ty : IntTy) (f : Flds) : Statement (Instr.adds ty f) := fun _ h => one_word rfl rfl fun x =>
  decode_f0 (Instr.adds ty f) f _ _ x (.adds ty) rfl (by cases ty <;> rfl) rfl (ownReason_of_wf _ f _ _ x rfl rfl _ rfl h (.inl rfl))
theorem Sys2Proof.Laws.Encode.subs (ty : IntTy) (f : Flds) : Statement (Instr.subs ty f) := fun _ h => one_word rfl rfl fun x =>
  decode_f0 (Instr.subs ty f) f _ _ x (.subs ty) rfl (by cases ty <;> rfl) rfl (ownReason_of_wf _ f _ _ x rfl rfl _ rfl h (.inl rfl))
theorem Sys2Proof.Laws.Encode.mul (ty : IntTy) (f : Flds) : Statement (Instr.mul ty f) := fun _ h => one_word rfl rfl fun x =>
  decode_f0 (Instr.mul ty f) f _ _ x (.mul ty) rfl (by cases ty <;> rfl) rfl (ownReason_of_wf _ f _ _ x rfl rfl _ rfl h (.inl rfl))
theorem Sys2Proof.Laws.Encode.mulh (ty : IntTy) (f : Flds) : Statement (Instr.mulh ty f) := fun _ h => one_word rfl rfl fun x =>
  decode_f0 (Instr.mulh ty f) f _ _ x (.mulh ty) rfl (by cases ty <;> rfl) rfl (ownReason_of_wf _ f _ _ x rfl rfl _ rfl h (.inl rfl))
theorem Sys2Proof.Laws.Encode.mad (ty : IntTy) (f : Flds) : Statement (Instr.mad ty f) := fun _ h => one_word rfl rfl fun x =>
  decode_f0 (Instr.mad ty f) f _ _ x (.mad ty) rfl (by cases ty <;> rfl) rfl (ownReason_of_wf _ f _ _ x rfl rfl _ rfl h (.inl rfl))
theorem Sys2Proof.Laws.Encode.div (ty : IntTy) (f : Flds) : Statement (Instr.div ty f) := fun _ h => one_word rfl rfl fun x =>
  decode_f0 (Instr.div ty f) f _ _ x (.div ty) rfl (by cases ty <;> rfl) rfl (ownReason_of_wf _ f _ _ x rfl rfl _ rfl h (.inl rfl))
theorem Sys2Proof.Laws.Encode.rem (ty : IntTy) (f : Flds) : Statement (Instr.rem ty f) := fun _ h => one_word rfl rfl fun x =>
  decode_f0 (Instr.rem ty f) f _ _ x (.rem ty) rfl (by cases ty <;> rfl) rfl (ownReason_of_wf _ f _ _ x rfl rfl _ rfl h (.inl rfl))
theorem Sys2Proof.Laws.Encode.min (ty : IntTy) (f : Flds) : Statement (Instr.min ty f) := fun _ h => one_word rfl rfl fun x =>
  decode_f0 (Instr.min ty f) f _ _ x (.min ty) rfl (by cases ty <;> rfl) rfl (ownReason_of_wf _ f _ _ x rfl rfl _ rfl h (.inl rfl))
theorem Sys2Proof.Laws.Encode.max (ty : IntTy) (f : Flds) : Statement (Instr.max ty f) := fun _ h => one_word rfl rfl fun x =>
  decode_f0 (Instr.max ty f) f _ _ x (.max ty) rfl (by cases ty <;> rfl) rfl (ownReason_of_wf _ f _ _ x rfl rfl _ rfl h (.inl rfl))
theorem Sys2Proof.Laws.Encode.abs (ty : IntTy) (f : Flds) : Statement (Instr.abs ty f) := fun _ h => one_word rfl rfl fun x =>
  decode_f0 (Instr.abs ty f) f _ _ x (.abs ty) rfl (by cases ty <;> rfl) rfl (ownReason_of_wf _ f _ _ x rfl rfl _ rfl h (.inl rfl))
theorem Sys2Proof.Laws.Encode.neg (ty : IntTy) (f : Flds) : Statement (Instr.neg ty f) := fun _ h => one_word rfl rfl fun x =>
  decode_f0 (Instr.neg ty f) f _ _ x (.neg ty) rfl (by cases ty <;> rfl) rfl (ownReason_of_wf _ f _ _ x rfl rfl _ rfl h (.inl rfl))
theorem Sys2Proof.Laws.Encode.and (ty : IntTy) (f : Flds) : Statement (Instr.and ty f) := fun _ h => one_word rfl rfl fun x =>
  decode_f0 (Instr.and ty f) f _ _ x (.and ty) rfl (by cases ty <;> rfl) rfl (ownReason_of_wf _ f _ _ x rfl rfl _ rfl h (.inl rfl))
theorem Sys2Proof.Laws.Encode.andn (ty : IntTy) (f : Flds) : Statement (Instr.andn ty f) := fun _ h => one_word rfl rfl fun x =>
  decode_f0 (Instr.andn ty f) f _ _ x (.andn ty) rfl (by cases ty <;> rfl) rfl (ownReason_of_wf _ f _ _ x rfl rfl _ rfl h (.inl rfl))
theorem Sys2Proof.Laws.Encode.or (ty : IntTy) (f : Flds) : Statement (Instr.or ty f) := fun _ h => one_word rfl rfl fun x =>
  decode_f0 (Instr.or ty f) f _ _ x (.or ty) rfl (by cases ty <;> rfl) rfl (ownReason_of_wf _ f _ _ x rfl rfl _ rfl h (.inl rfl))
theorem Sys2Proof.Laws.Encode.xor (ty : IntTy) (f : Flds) : Statement (Instr.xor ty f) := fun _ h => one_word rfl rfl fun x =>
  decode_f0 (Instr.xor ty f) f _ _ x (.xor ty) rfl (by cases ty <;> rfl) rfl (ownReason_of_wf _ f _ _ x rfl rfl _ rfl h (.inl rfl))
theorem Sys2Proof.Laws.Encode.not (ty : IntTy) (f : Flds) : Statement (Instr.not ty f) := fun _ h => one_word rfl rfl fun x =>
  decode_f0 (Instr.not ty f) f _ _ x (.not ty) rfl (by cases ty <;> rfl) rfl (ownReason_of_wf _ f _ _ x rfl rfl _ rfl h (.inl rfl))
theorem Sys2Proof.Laws.Encode.shl (ty : IntTy) (f : Flds) : Statement (Instr.shl ty f) := fun _ h => one_word rfl rfl fun x =>
  decode_f0 (Instr.shl ty f) f _ _ x (.shl ty) rfl (by cases ty <;> rfl) rfl (ownReason_of_wf _ f _ _ x rfl rfl _ rfl h (.inl rfl))
theorem Sys2Proof.Laws.Encode.shr (ty : IntTy) (f : Flds) : Statement (Instr.shr ty f) := fun _ h => one_word rfl rfl fun x =>
  decode_f0 (Instr.shr ty f) f _ _ x (.shr ty) rfl (by cases ty <;> rfl) rfl (ownReason_of_wf _ f _ _ x rfl rfl _ rfl h (.inl rfl))
theorem Sys2Proof.Laws.Encode.sar (ty : IntTy) (f : Flds) : Statement (Instr.sar ty f) := fun _ h => one_word rfl rfl fun x =>
  decode_f0 (Instr.sar ty f) f _ _ x (.sar ty) rfl (by cases ty <;> rfl) rfl (ownReason_of_wf _ f _ _ x rfl rfl _ rfl h (.inl rfl))
theorem Sys2Proof.Laws.Encode.rot (ty : IntTy) (f : Flds) : Statement (Instr.rot ty f) := fun _ h => one_word rfl rfl fun x =>
  decode_f0 (Instr.rot ty f) f _ _ x (.rot ty) rfl (by cases ty <;> rfl) rfl (ownReason_of_wf _ f _ _ x rfl rfl _ rfl h (.inl rfl))
theorem Sys2Proof.Laws.Encode.popc (ty : IntTy) (f : Flds) : Statement (Instr.popc ty f) := fun _ h => one_word rfl rfl fun x =>
  decode_f0 (Instr.popc ty f) f _ _ x (.popc ty) rfl (by cases ty <;> rfl) rfl (ownReason_of_wf _ f _ _ x rfl rfl _ rfl h (.inl rfl))
theorem Sys2Proof.Laws.Encode.clz (ty : IntTy) (f : Flds) : Statement (Instr.clz ty f) := fun _ h => one_word rfl rfl fun x =>
  decode_f0 (Instr.clz ty f) f _ _ x (.clz ty) rfl (by cases ty <;> rfl) rfl (ownReason_of_wf _ f _ _ x rfl rfl _ rfl h (.inl rfl))
theorem Sys2Proof.Laws.Encode.ctz (ty : IntTy) (f : Flds) : Statement (Instr.ctz ty f) := fun _ h => one_word rfl rfl fun x =>
  decode_f0 (Instr.ctz ty f) f _ _ x (.ctz ty) rfl (by cases ty <;> rfl) rfl (ownReason_of_wf _ f _ _ x rfl rfl _ rfl h (.inl rfl))
theorem Sys2Proof.Laws.Encode.brev (ty : IntTy) (f : Flds) : Statement (Instr.brev ty f) := fun _ h => one_word rfl rfl fun x =>
  decode_f0 (Instr.brev ty f) f _ _ x (.brev ty) rfl (by cases ty <;> rfl) rfl (ownReason_of_wf _ f _ _ x rfl rfl _ rfl h (.inl rfl))
theorem Sys2Proof.Laws.Encode.bfx (ty : IntTy) (f : Flds) : Statement (Instr.bfx ty f) := fun _ h => one_word rfl rfl fun x =>
  decode_f0 (Instr.bfx ty f) f _ _ x (.bfx ty) rfl (by cases ty <;> rfl) rfl (ownReason_of_wf _ f _ _ x rfl rfl _ rfl h (.inl rfl))
theorem Sys2Proof.Laws.Encode.bfi (ty : IntTy) (f : Flds) : Statement (Instr.bfi ty f) := fun _ h => one_word rfl rfl fun x =>
  decode_f0 (Instr.bfi ty f) f _ _ x (.bfi ty) rfl (by cases ty <;> rfl) rfl (ownReason_of_wf _ f _ _ x rfl rfl _ rfl h (.inl rfl))
theorem Sys2Proof.Laws.Encode.sel (ty : IntTy) (f : Flds) : Statement (Instr.sel ty f) := fun _ h => one_word rfl rfl fun x =>
  decode_f0 (Instr.sel ty f) f _ _ x (.sel ty) rfl (by cases ty <;> rfl) rfl (ownReason_of_wf _ f _ _ x rfl rfl _ rfl h (.inl rfl))
theorem Sys2Proof.Laws.Encode.mov (ty : IntTy) (f : Flds) : Statement (Instr.mov ty f) := fun _ h => one_word rfl rfl fun x =>
  decode_f0 (Instr.mov ty f) f _ _ x (.mov ty) rfl (by cases ty <;> rfl) rfl (ownReason_of_wf _ f _ _ x rfl rfl _ rfl h (.inl rfl))
theorem Sys2Proof.Laws.Encode.idx (sh : BitVec 3) (f : Flds) : Statement (Instr.idx sh f) := fun _ h => one_word rfl rfl fun x =>
  decode_f0 (Instr.idx sh f) f _ _ x (.idx sh) rfl (rfl) rfl (ownReason_of_wf _ f _ _ x rfl rfl _ rfl h (.inl rfl))
theorem Sys2Proof.Laws.Encode.cmp (cond : Cond) (ty : IntTy) (f : Flds) : Statement (Instr.cmp cond ty f) := fun _ h => one_word rfl rfl fun x =>
  decode_f0 (Instr.cmp cond ty f) f _ _ x (.cmp cond ty) rfl (by cases cond <;> cases ty <;> rfl) rfl (ownReason_of_wf _ f _ _ x rfl rfl _ rfl h (.inl rfl))
theorem Sys2Proof.Laws.Encode.imm (zx : Bool) (f : ImmFlds) : Statement (Instr.imm zx f) := fun _ h => one_word rfl rfl fun x =>
  decode_f1 (Instr.imm zx f) f _ _ x (.imm zx) rfl (by cases zx <;> rfl) rfl (ownReason_imm _ f _ _ x rfl rfl rfl rfl rfl)
theorem Sys2Proof.Laws.Encode.immh (f : ImmFlds) : Statement (Instr.immh f) := fun _ h => one_word rfl rfl fun x =>
  decode_f1 (Instr.immh f) f _ _ x (.immh) rfl (rfl) rfl (ownReason_imm _ f _ _ x rfl rfl rfl rfl rfl)
theorem Sys2Proof.Laws.Encode.fadd (ft : FTy) (r : Rnd) (f : Flds) : Statement (Instr.fadd ft r f) := fun _ h => one_word rfl rfl fun x =>
  decode_f0 (Instr.fadd ft r f) f _ _ x (.fadd ft r) rfl (by
    show Built.ofFT (encFT ft r) _ = _
    rw [Built.ofFT, dec_encFT_ty, dec_encFT_rnd]) rfl (ownReason_of_wf _ f _ _ x rfl rfl _ rfl h (.inl rfl))
theorem Sys2Proof.Laws.Encode.fsub (ft : FTy) (r : Rnd) (f : Flds) : Statement (Instr.fsub ft r f) := fun _ h => one_word rfl rfl fun x =>
  decode_f0 (Instr.fsub ft r f) f _ _ x (.fsub ft r) rfl (by
    show Built.ofFT (encFT ft r) _ = _
    rw [Built.ofFT, dec_encFT_ty, dec_encFT_rnd]) rfl (ownReason_of_wf _ f _ _ x rfl rfl _ rfl h (.inl rfl))
theorem Sys2Proof.Laws.Encode.fmul (ft : FTy) (r : Rnd) (f : Flds) : Statement (Instr.fmul ft r f) := fun _ h => one_word rfl rfl fun x =>
  decode_f0 (Instr.fmul ft r f) f _ _ x (.fmul ft r) rfl (by
    show Built.ofFT (encFT ft r) _ = _
    rw [Built.ofFT, dec_encFT_ty, dec_encFT_rnd]) rfl (ownReason_of_wf _ f _ _ x rfl rfl _ rfl h (.inl rfl))
theorem Sys2Proof.Laws.Encode.ffma (ft : FTy) (r : Rnd) (f : Flds) : Statement (Instr.ffma ft r f) := fun _ h => one_word rfl rfl fun x =>
  decode_f0 (Instr.ffma ft r f) f _ _ x (.ffma ft r) rfl (by
    show Built.ofFT (encFT ft r) _ = _
    rw [Built.ofFT, dec_encFT_ty, dec_encFT_rnd]) rfl (ownReason_of_wf _ f _ _ x rfl rfl _ rfl h (.inl rfl))
theorem Sys2Proof.Laws.Encode.fmin (ft : FTy) (f : Flds) : Statement (Instr.fmin ft f) := fun _ h => one_word rfl rfl fun x =>
  decode_f0 (Instr.fmin ft f) f _ _ x (.fmin ft) rfl (by
    show Built.ofFN (encFN ft) _ = _
    rw [Built.ofFN, dec_encFN]) rfl (ownReason_of_wf _ f _ _ x rfl rfl _ rfl h (.inl rfl))
theorem Sys2Proof.Laws.Encode.fmax (ft : FTy) (f : Flds) : Statement (Instr.fmax ft f) := fun _ h => one_word rfl rfl fun x =>
  decode_f0 (Instr.fmax ft f) f _ _ x (.fmax ft) rfl (by
    show Built.ofFN (encFN ft) _ = _
    rw [Built.ofFN, dec_encFN]) rfl (ownReason_of_wf _ f _ _ x rfl rfl _ rfl h (.inl rfl))
theorem Sys2Proof.Laws.Encode.fabs (ft : FTy) (f : Flds) : Statement (Instr.fabs ft f) := fun _ h => one_word rfl rfl fun x =>
  decode_f0 (Instr.fabs ft f) f _ _ x (.fabs ft) rfl (by
    show Built.ofFN (encFN ft) _ = _
    rw [Built.ofFN, dec_encFN]) rfl (ownReason_of_wf _ f _ _ x rfl rfl _ rfl h (.inl rfl))
theorem Sys2Proof.Laws.Encode.fneg (ft : FTy) (f : Flds) : Statement (Instr.fneg ft f) := fun _ h => one_word rfl rfl fun x =>
  decode_f0 (Instr.fneg ft f) f _ _ x (.fneg ft) rfl (by
    show Built.ofFN (encFN ft) _ = _
    rw [Built.ofFN, dec_encFN]) rfl (ownReason_of_wf _ f _ _ x rfl rfl _ rfl h (.inl rfl))
theorem Sys2Proof.Laws.Encode.fdiv (ft : FTy) (r : Rnd) (f : Flds) : Statement (Instr.fdiv ft r f) := fun _ h => one_word rfl rfl fun x =>
  decode_f0 (Instr.fdiv ft r f) f _ _ x (.fdiv ft r) rfl (by
    show Built.ofFT (encFT ft r) _ = _
    rw [Built.ofFT, dec_encFT_ty, dec_encFT_rnd]) rfl (ownReason_of_wf _ f _ _ x rfl rfl _ rfl h (.inl rfl))
theorem Sys2Proof.Laws.Encode.fsqrt (ft : FTy) (r : Rnd) (f : Flds) : Statement (Instr.fsqrt ft r f) := fun _ h => one_word rfl rfl fun x =>
  decode_f0 (Instr.fsqrt ft r f) f _ _ x (.fsqrt ft r) rfl (by
    show Built.ofFT (encFT ft r) _ = _
    rw [Built.ofFT, dec_encFT_ty, dec_encFT_rnd]) rfl (ownReason_of_wf _ f _ _ x rfl rfl _ rfl h (.inl rfl))
theorem Sys2Proof.Laws.Encode.frcp (ft : FTy) (f : Flds) : Statement (Instr.frcp ft f) := fun _ h => one_word rfl rfl fun x =>
  decode_f0 (Instr.frcp ft f) f _ _ x (.frcp ft) rfl (by
    show Built.ofFN (encFN ft) _ = _
    rw [Built.ofFN, dec_encFN]) rfl (ownReason_of_wf _ f _ _ x rfl rfl _ rfl h (.inl rfl))
theorem Sys2Proof.Laws.Encode.frsq (ft : FTy) (f : Flds) : Statement (Instr.frsq ft f) := fun _ h => one_word rfl rfl fun x =>
  decode_f0 (Instr.frsq ft f) f _ _ x (.frsq ft) rfl (by
    show Built.ofFN (encFN ft) _ = _
    rw [Built.ofFN, dec_encFN]) rfl (ownReason_of_wf _ f _ _ x rfl rfl _ rfl h (.inl rfl))
theorem Sys2Proof.Laws.Encode.fex2 (ft : FTy) (f : Flds) : Statement (Instr.fex2 ft f) := fun _ h => one_word rfl rfl fun x =>
  decode_f0 (Instr.fex2 ft f) f _ _ x (.fex2 ft) rfl (by
    show Built.ofFN (encFN ft) _ = _
    rw [Built.ofFN, dec_encFN]) rfl (ownReason_of_wf _ f _ _ x rfl rfl _ rfl h (.inl rfl))
theorem Sys2Proof.Laws.Encode.flg2 (ft : FTy) (f : Flds) : Statement (Instr.flg2 ft f) := fun _ h => one_word rfl rfl fun x =>
  decode_f0 (Instr.flg2 ft f) f _ _ x (.flg2 ft) rfl (by
    show Built.ofFN (encFN ft) _ = _
    rw [Built.ofFN, dec_encFN]) rfl (ownReason_of_wf _ f _ _ x rfl rfl _ rfl h (.inl rfl))
theorem Sys2Proof.Laws.Encode.fsin (ft : FTy) (f : Flds) : Statement (Instr.fsin ft f) := fun _ h => one_word rfl rfl fun x =>
  decode_f0 (Instr.fsin ft f) f _ _ x (.fsin ft) rfl (by
    show Built.ofFN (encFN ft) _ = _
    rw [Built.ofFN, dec_encFN]) rfl (ownReason_of_wf _ f _ _ x rfl rfl _ rfl h (.inl rfl))
theorem Sys2Proof.Laws.Encode.fcos (ft : FTy) (f : Flds) : Statement (Instr.fcos ft f) := fun _ h => one_word rfl rfl fun x =>
  decode_f0 (Instr.fcos ft f) f _ _ x (.fcos ft) rfl (by
    show Built.ofFN (encFN ft) _ = _
    rw [Built.ofFN, dec_encFN]) rfl (ownReason_of_wf _ f _ _ x rfl rfl _ rfl h (.inl rfl))
theorem Sys2Proof.Laws.Encode.ftanh (ft : FTy) (f : Flds) : Statement (Instr.ftanh ft f) := fun _ h => one_word rfl rfl fun x =>
  decode_f0 (Instr.ftanh ft f) f _ _ x (.ftanh ft) rfl (by
    show Built.ofFN (encFN ft) _ = _
    rw [Built.ofFN, dec_encFN]) rfl (ownReason_of_wf _ f _ _ x rfl rfl _ rfl h (.inl rfl))
theorem Sys2Proof.Laws.Encode.frnd (ft : FTy) (r : Rnd) (f : Flds) : Statement (Instr.frnd ft r f) := fun _ h => one_word rfl rfl fun x =>
  decode_f0 (Instr.frnd ft r f) f _ _ x (.frnd ft r) rfl (by
    show Built.ofFT (encFT ft r) _ = _
    rw [Built.ofFT, dec_encFT_ty, dec_encFT_rnd]) rfl (ownReason_of_wf _ f _ _ x rfl rfl _ rfl h (.inl rfl))
theorem Sys2Proof.Laws.Encode.fscl (ft : FTy) (r : Rnd) (f : Flds) : Statement (Instr.fscl ft r f) := fun _ h => one_word rfl rfl fun x =>
  decode_f0 (Instr.fscl ft r f) f _ _ x (.fscl ft r) rfl (by
    show Built.ofFT (encFT ft r) _ = _
    rw [Built.ofFT, dec_encFT_ty, dec_encFT_rnd]) rfl (ownReason_of_wf _ f _ _ x rfl rfl _ rfl h (.inl rfl))
theorem Sys2Proof.Laws.Encode.fcls (ft : FTy) (f : Flds) : Statement (Instr.fcls ft f) := fun _ h => one_word rfl rfl fun x =>
  decode_f0 (Instr.fcls ft f) f _ _ x (.fcls ft) rfl (by
    show Built.ofFN (encFN ft) _ = _
    rw [Built.ofFN, dec_encFN]) rfl (ownReason_of_wf _ f _ _ x rfl rfl _ rfl h (.inl rfl))
theorem Sys2Proof.Laws.Encode.fcmp (cond : FCond) (ft : FTy) (f : Flds) : Statement (Instr.fcmp cond ft f) := fun _ h => one_word rfl rfl fun x =>
  decode_f0 (Instr.fcmp cond ft f) f _ _ x (.fcmp cond ft) rfl (by
    cases cond <;> (show Built.ofFN (encFN ft) _ = _; rw [Built.ofFN, dec_encFN])) rfl (ownReason_of_wf _ f _ _ x rfl rfl _ rfl h (.inl rfl))
theorem Sys2Proof.Laws.Encode.icvt (toInt : Bool) (ft : FTy) (ty : IntTy) (r : Rnd) (f : Flds) : Statement (Instr.icvt toInt ft ty r f) := fun _ h => one_word rfl rfl fun x =>
  decode_f0 (Instr.icvt toInt ft ty r f) f _ _ x (.icvt toInt ft ty r) rfl (by
    cases toInt <;> cases ft <;> cases ty <;> cases r <;> simp [build, buildIcvt, Instr.opcode, Instr.mField, encRnd, encFTy, tyCode, decRnd]) rfl (ownReason_of_wf _ f _ _ x rfl rfl _ rfl h (.inl rfl))
theorem Sys2Proof.Laws.Encode.fcvt (src : CvtFmt) (dst : CvtFmt) (sat : Bool) (r : Rnd) (f : Flds) : Statement (Instr.fcvt src dst sat r f) := fun _ h => one_word rfl rfl fun x =>
  decode_f0 (Instr.fcvt src dst sat r f) f _ _ x (.fcvt src dst sat r) rfl (by
    have hc : cvtAssigned src dst = true := by simp [Instr.WellFormed, Instr.mOk] at h; exact h.1.1.1
    cases src <;> cases dst <;> first | exact absurd hc (by decide) | simp [build, buildCvt, Instr.opcode, encCvt, decCvt, cvtAssigned, Instr.mField]) rfl (ownReason_of_wf _ f _ _ x rfl rfl _ rfl h (.inl rfl))
theorem Sys2Proof.Laws.Encode.send (d : TokenDest) (f : Flds) : Statement (Instr.send d f) := fun _ h => two_words rfl rfl
  (decode_f3 (Instr.send d f) f _ _ _ (fun x => .send (decDest x)) rfl (rfl) (by simp) (ownReason_of_wf _ f _ _ _ rfl rfl _ rfl h (.inr rfl)))
theorem Sys2Proof.Laws.Encode.spawn (d : TokenDest) (f : Flds) : Statement (Instr.spawn d f) := fun _ h => two_words rfl rfl
  (decode_f3 (Instr.spawn d f) f _ _ _ (fun x => .spawn (decDest x)) rfl (rfl) (by simp) (ownReason_of_wf _ f _ _ _ rfl rfl _ rfl h (.inr rfl)))
theorem Sys2Proof.Laws.Encode.launch (w : LaunchWord) (f : Flds) : Statement (Instr.launch w f) := fun _ h => two_words rfl rfl
  (decode_f3 (Instr.launch w f) f _ _ _ (fun x => .launch (decLaunch x)) rfl (rfl) (by simp) (ownReason_of_wf _ f _ _ _ rfl rfl _ rfl h (.inr rfl)))
theorem Sys2Proof.Laws.Encode.doneCredit (f : Flds) : Statement (Instr.doneCredit f) := fun _ h => one_word rfl rfl fun x =>
  decode_f0 (Instr.doneCredit f) f _ _ x (.doneCredit) rfl (rfl) rfl (ownReason_of_wf _ f _ _ x rfl rfl _ rfl h (.inl rfl))
theorem Sys2Proof.Laws.Encode.shfl (op : Shuf) (f : Flds) : Statement (Instr.shfl op f) := fun _ h => one_word rfl rfl fun x =>
  decode_f0 (Instr.shfl op f) f _ _ x (.shfl op) rfl (by cases op <;> rfl) rfl (ownReason_of_wf _ f _ _ x rfl rfl _ rfl h (.inl rfl))
theorem Sys2Proof.Laws.Encode.bcst (f : Flds) : Statement (Instr.bcst f) := fun _ h => one_word rfl rfl fun x =>
  decode_f0 (Instr.bcst f) f _ _ x (.bcst) rfl (rfl) rfl (ownReason_of_wf _ f _ _ x rfl rfl _ rfl h (.inl rfl))
theorem Sys2Proof.Laws.Encode.vote (op : VoteOp) (f : Flds) : Statement (Instr.vote op f) := fun _ h => one_word rfl rfl fun x =>
  decode_f0 (Instr.vote op f) f _ _ x (.vote op) rfl (by cases op <;> rfl) rfl (ownReason_of_wf _ f _ _ x rfl rfl _ rfl h (.inl rfl))
theorem Sys2Proof.Laws.Encode.mtch (f : Flds) : Statement (Instr.mtch f) := fun _ h => one_word rfl rfl fun x =>
  decode_f0 (Instr.mtch f) f _ _ x (.mtch) rfl (rfl) rfl (ownReason_of_wf _ f _ _ x rfl rfl _ rfl h (.inl rfl))
theorem Sys2Proof.Laws.Encode.prfx (op : ScanOp) (f : Flds) : Statement (Instr.prfx op f) := fun _ h => one_word rfl rfl fun x =>
  decode_f0 (Instr.prfx op f) f _ _ x (.prfx op) rfl (by
    rcases op with ⟨op, ty⟩ | ⟨ft, r⟩
    · cases op <;> cases ty <;> rfl
    · show Built.ofFT (encFT ft r) (fun ft r => .prfx (.fadd ft r)) = _
      rw [Built.ofFT, dec_encFT_ty, dec_encFT_rnd]) rfl (ownReason_of_wf _ f _ _ x rfl rfl _ rfl h (.inl rfl))
theorem Sys2Proof.Laws.Encode.redu (op : ScanOp) (f : Flds) : Statement (Instr.redu op f) := fun _ h => one_word rfl rfl fun x =>
  decode_f0 (Instr.redu op f) f _ _ x (.redu op) rfl (by
    rcases op with ⟨op, ty⟩ | ⟨ft, r⟩
    · cases op <;> cases ty <;> rfl
    · show Built.ofFT (encFT ft r) (fun ft r => .redu (.fadd ft r)) = _
      rw [Built.ofFT, dec_encFT_ty, dec_encFT_rnd]) rfl (ownReason_of_wf _ f _ _ x rfl rfl _ rfl h (.inl rfl))
theorem Sys2Proof.Laws.Encode.srd (r : Reg) (f : Flds) : Statement (Instr.srd r f) := fun _ h => two_words rfl rfl
  (decode_f3 (Instr.srd r f) f _ _ _ (fun x => .srd (decReg x)) rfl (rfl) (by simp) (ownReason_of_wf _ f _ _ _ rfl rfl _ rfl h (.inr rfl)))
theorem Sys2Proof.Laws.Encode.swr (r : Reg) (f : Flds) : Statement (Instr.swr r f) := fun _ h => two_words rfl rfl
  (decode_f3 (Instr.swr r f) f _ _ _ (fun x => .swr (decReg x)) rfl (rfl) (by simp) (ownReason_of_wf _ f _ _ _ rfl rfl _ rfl h (.inr rfl)))
theorem Sys2Proof.Laws.Encode.nop (f : Flds) : Statement (Instr.nop f) := fun _ h => one_word rfl rfl fun x =>
  decode_f0 (Instr.nop f) f _ _ x (.nop) rfl (rfl) rfl (ownReason_of_wf _ f _ _ x rfl rfl _ rfl h (.inl rfl))
theorem Sys2Proof.Laws.Encode.trap (f : Flds) : Statement (Instr.trap f) := fun _ h => one_word rfl rfl fun x =>
  decode_f0 (Instr.trap f) f _ _ x (.trap) rfl (rfl) rfl (ownReason_of_wf _ f _ _ x rfl rfl _ rfl h (.inl rfl))
theorem Sys2Proof.Laws.Encode.brk (f : Flds) : Statement (Instr.brk f) := fun _ h => one_word rfl rfl fun x =>
  decode_f0 (Instr.brk f) f _ _ x (.brk) rfl (rfl) rfl (ownReason_of_wf _ f _ _ x rfl rfl _ rfl h (.inl rfl))
theorem Sys2Proof.Laws.Encode.tret (f : Flds) : Statement (Instr.tret f) := fun _ h => one_word rfl rfl fun x =>
  decode_f0 (Instr.tret f) f _ _ x (.tret) rfl (rfl) rfl (ownReason_of_wf _ f _ _ x rfl rfl _ rfl h (.inl rfl))
theorem Sys2Proof.Laws.Encode.kill (f : Flds) : Statement (Instr.kill f) := fun _ h => one_word rfl rfl fun x =>
  decode_f0 (Instr.kill f) f _ _ x (.kill) rfl (rfl) rfl (ownReason_of_wf _ f _ _ x rfl rfl _ rfl h (.inl rfl))
theorem Sys2Proof.Laws.Encode.ld (sz : Size) (f : Flds) : Statement (Instr.ld sz f) := fun _ h => one_word rfl rfl fun x =>
  decode_f0 (Instr.ld sz f) f _ _ x (.ld sz) rfl (by cases sz <;> rfl) rfl (ownReason_of_wf _ f _ _ x rfl rfl _ rfl h (.inl rfl))
theorem Sys2Proof.Laws.Encode.ldAcq (sc : Scope) (sz : Size) (f : Flds) : Statement (Instr.ldAcq sc sz f) := fun _ h => one_word rfl rfl fun x =>
  decode_f0 (Instr.ldAcq sc sz f) f _ _ x (.ldAcq sc sz) rfl (by cases sc <;> cases sz <;> rfl) rfl (ownReason_of_wf _ f _ _ x rfl rfl _ rfl h (.inl rfl))
theorem Sys2Proof.Laws.Encode.st (sz : StSize) (f : Flds) : Statement (Instr.st sz f) := fun _ h => one_word rfl rfl fun x =>
  decode_f0 (Instr.st sz f) f _ _ x (.st sz) rfl (by cases sz <;> rfl) rfl (ownReason_of_wf _ f _ _ x rfl rfl _ rfl h (.inl rfl))
theorem Sys2Proof.Laws.Encode.stRel (sc : Scope) (sz : StSize) (f : Flds) : Statement (Instr.stRel sc sz f) := fun _ h => one_word rfl rfl fun x =>
  decode_f0 (Instr.stRel sc sz f) f _ _ x (.stRel sc sz) rfl (by cases sc <;> cases sz <;> rfl) rfl (ownReason_of_wf _ f _ _ x rfl rfl _ rfl h (.inl rfl))
theorem Sys2Proof.Laws.Encode.ldt (sz : Size) (d : TokenDest) (f : Flds) : Statement (Instr.ldt sz d f) := fun _ h => two_words rfl rfl
  (decode_f3 (Instr.ldt sz d f) f _ _ _ (fun x => .ldt sz (decDest x)) rfl (by cases sz <;> rfl) (by simp) (ownReason_of_wf _ f _ _ _ rfl rfl _ rfl h (.inr rfl)))
theorem Sys2Proof.Laws.Encode.atom (sz : AtSize) (w : AtomWord) (f : Flds) : Statement (Instr.atom sz w f) := fun _ h => two_words rfl rfl
  (decode_f3 (Instr.atom sz w f) f _ _ _ (fun x => .atom sz (decAtom x)) rfl (by cases sz <;> rfl) (by simp) (ownReason_of_wf _ f _ _ _ rfl rfl _ rfl h (.inr rfl)))
theorem Sys2Proof.Laws.Encode.upd (sz : AtSize) (w : UpdWord) (f : Flds) : Statement (Instr.upd sz w f) := fun _ h => two_words rfl rfl
  (decode_f3 (Instr.upd sz w f) f _ _ _ (fun x => .upd sz (decUpd x)) rfl (by cases sz <;> rfl) (by simp) (ownReason_of_wf _ f _ _ _ rfl rfl _ rfl h (.inr rfl)))
theorem Sys2Proof.Laws.Encode.fence (sc : Scope) (f : Flds) : Statement (Instr.fence sc f) := fun _ h => one_word rfl rfl fun x =>
  decode_f0 (Instr.fence sc f) f _ _ x (.fence sc) rfl (by cases sc <;> rfl) rfl (ownReason_of_wf _ f _ _ x rfl rfl _ rfl h (.inl rfl))
theorem Sys2Proof.Laws.Encode.pref (l : PrefLevel) (f : Flds) : Statement (Instr.pref l f) := fun _ h => one_word rfl rfl fun x =>
  decode_f0 (Instr.pref l f) f _ _ x (.pref l) rfl (by cases l <;> rfl) rfl (ownReason_of_wf _ f _ _ x rfl rfl _ rfl h (.inl rfl))
theorem Sys2Proof.Laws.Encode.cctl (op : CctlOp) (f : Flds) : Statement (Instr.cctl op f) := fun _ h => one_word rfl rfl fun x =>
  decode_f0 (Instr.cctl op f) f _ _ x (.cctl op) rfl (by cases op <;> rfl) rfl (ownReason_of_wf _ f _ _ x rfl rfl _ rfl h (.inl rfl))
theorem Sys2Proof.Laws.Encode.bcinv (f : Flds) : Statement (Instr.bcinv f) := fun _ h => one_word rfl rfl fun x =>
  decode_f0 (Instr.bcinv f) f _ _ x (.bcinv) rfl (rfl) rfl (ownReason_of_wf _ f _ _ x rfl rfl _ rfl h (.inl rfl))
theorem Sys2Proof.Laws.Encode.frma (f : Flds) : Statement (Instr.frma f) := fun _ h => one_word rfl rfl fun x =>
  decode_f0 (Instr.frma f) f _ _ x (.frma) rfl (rfl) rfl (ownReason_of_wf _ f _ _ x rfl rfl _ rfl h (.inl rfl))
theorem Sys2Proof.Laws.Encode.frmf (f : Flds) : Statement (Instr.frmf f) := fun _ h => one_word rfl rfl fun x =>
  decode_f0 (Instr.frmf f) f _ _ x (.frmf) rfl (rfl) rfl (ownReason_of_wf _ f _ _ x rfl rfl _ rfl h (.inl rfl))
theorem Sys2Proof.Laws.Encode.cmpk (sz : AtSize) (w : CmpkWord) (f : Flds) : Statement (Instr.cmpk sz w f) := fun _ h => two_words rfl rfl
  (decode_f3 (Instr.cmpk sz w f) f _ _ _ (fun x => .cmpk sz (decCmpk x)) rfl (by cases sz <;> rfl) (by simp) (ownReason_of_wf _ f _ _ _ rfl rfl _ rfl h (.inr rfl)))
theorem Sys2Proof.Laws.Encode.rbind (f : Flds) : Statement (Instr.rbind f) := fun _ h => one_word rfl rfl fun x =>
  decode_f0 (Instr.rbind f) f _ _ x (.rbind) rfl (rfl) rfl (ownReason_of_wf _ f _ _ x rfl rfl _ rfl h (.inl rfl))
theorem Sys2Proof.Laws.Encode.runb (f : Flds) : Statement (Instr.runb f) := fun _ h => one_word rfl rfl fun x =>
  decode_f0 (Instr.runb f) f _ _ x (.runb) rfl (rfl) rfl (ownReason_of_wf _ f _ _ x rfl rfl _ rfl h (.inl rfl))
theorem Sys2Proof.Laws.Encode.rget (f : Flds) : Statement (Instr.rget f) := fun _ h => one_word rfl rfl fun x =>
  decode_f0 (Instr.rget f) f _ _ x (.rget) rfl (rfl) rfl (ownReason_of_wf _ f _ _ x rfl rfl _ rfl h (.inl rfl))
theorem Sys2Proof.Laws.Encode.rput (f : Flds) : Statement (Instr.rput f) := fun _ h => one_word rfl rfl fun x =>
  decode_f0 (Instr.rput f) f _ _ x (.rput) rfl (rfl) rfl (ownReason_of_wf _ f _ _ x rfl rfl _ rfl h (.inl rfl))
theorem Sys2Proof.Laws.Encode.radv (tail : Bool) (f : Flds) : Statement (Instr.radv tail f) := fun _ h => one_word rfl rfl fun x =>
  decode_f0 (Instr.radv tail f) f _ _ x (.radv tail) rfl (by cases tail <;> rfl) rfl (ownReason_of_wf _ f _ _ x rfl rfl _ rfl h (.inl rfl))
theorem Sys2Proof.Laws.Encode.rwait (free : Bool) (d : TokenDest) (f : Flds) : Statement (Instr.rwait free d f) := fun _ h => two_words rfl rfl
  (decode_f3 (Instr.rwait free d f) f _ _ _ (fun x => .rwait free (decDest x)) rfl (by cases free <;> rfl) (by simp) (ownReason_of_wf _ f _ _ _ rfl rfl _ rfl h (.inr rfl)))
theorem Sys2Proof.Laws.Encode.rstat (f : Flds) : Statement (Instr.rstat f) := fun _ h => one_word rfl rfl fun x =>
  decode_f0 (Instr.rstat f) f _ _ x (.rstat) rfl (rfl) rfl (ownReason_of_wf _ f _ _ x rfl rfl _ rfl h (.inl rfl))
theorem Sys2Proof.Laws.Encode.strm (w : StreamWord) (f : Flds) : Statement (Instr.strm w f) := fun _ h => two_words rfl rfl
  (decode_f3 (Instr.strm w f) f _ _ _ (fun x => .strm (decStream x)) rfl (rfl) (by simp) (ownReason_of_wf _ f _ _ _ rfl rfl _ rfl h (.inr rfl)))
theorem Sys2Proof.Laws.Encode.strmw (w : StreamWord) (f : Flds) : Statement (Instr.strmw w f) := fun _ h => two_words rfl rfl
  (decode_f3 (Instr.strmw w f) f _ _ _ (fun x => .strmw (decStream x)) rfl (rfl) (by simp) (ownReason_of_wf _ f _ _ _ rfl rfl _ rfl h (.inr rfl)))
theorem Sys2Proof.Laws.Encode.strmq (f : Flds) : Statement (Instr.strmq f) := fun _ h => one_word rfl rfl fun x =>
  decode_f0 (Instr.strmq f) f _ _ x (.strmq) rfl (rfl) rfl (ownReason_of_wf _ f _ _ x rfl rfl _ rfl h (.inl rfl))
theorem Sys2Proof.Laws.Encode.strmc (f : Flds) : Statement (Instr.strmc f) := fun _ h => one_word rfl rfl fun x =>
  decode_f0 (Instr.strmc f) f _ _ x (.strmc) rfl (rfl) rfl (ownReason_of_wf _ f _ _ x rfl rfl _ rfl h (.inl rfl))
theorem Sys2Proof.Laws.Encode.cpy (w : CopyWord) (f : Flds) : Statement (Instr.cpy w f) := fun _ h => two_words rfl rfl
  (decode_f3 (Instr.cpy w f) f _ _ _ (fun x => .cpy (decCopy x)) rfl (rfl) (by simp) (ownReason_of_wf _ f _ _ _ rfl rfl _ rfl h (.inr rfl)))
theorem Sys2Proof.Laws.Encode.cpyq (f : Flds) : Statement (Instr.cpyq f) := fun _ h => one_word rfl rfl fun x =>
  decode_f0 (Instr.cpyq f) f _ _ x (.cpyq) rfl (rfl) rfl (ownReason_of_wf _ f _ _ x rfl rfl _ rfl h (.inl rfl))
theorem Sys2Proof.Laws.Encode.cpyc (f : Flds) : Statement (Instr.cpyc f) := fun _ h => one_word rfl rfl fun x =>
  decode_f0 (Instr.cpyc f) f _ _ x (.cpyc) rfl (rfl) rfl (ownReason_of_wf _ f _ _ x rfl rfl _ rfl h (.inl rfl))
theorem Sys2Proof.Laws.Encode.mxbind (slot : BitVec 2) (w : CtlWord) (f : Flds) : Statement (Instr.mxbind slot w f) := fun _ h => two_words rfl rfl
  (decode_f3 (Instr.mxbind slot w f) f _ _ _ (fun x => .mxbind slot (decCtl x)) rfl (by
    show Built.ofSlot (encSlotM slot) _ = _
    rw [Built.ofSlot, dec_encSlotM]) (by simp) (ownReason_of_wf _ f _ _ _ rfl rfl _ rfl h (.inr rfl)))
theorem Sys2Proof.Laws.Encode.mxunb (slot : BitVec 2) (f : Flds) : Statement (Instr.mxunb slot f) := fun _ h => one_word rfl rfl fun x =>
  decode_f0 (Instr.mxunb slot f) f _ _ x (.mxunb slot) rfl (by
    show Built.ofSlot (encSlotM slot) _ = _
    rw [Built.ofSlot, dec_encSlotM]) rfl (ownReason_of_wf _ f _ _ x rfl rfl _ rfl h (.inl rfl))
theorem Sys2Proof.Laws.Encode.mxfire (w : CtlWord) (f : Flds) : Statement (Instr.mxfire w f) := fun _ h => two_words rfl rfl
  (decode_f3 (Instr.mxfire w f) f _ _ _ (fun x => .mxfire (decCtl x)) rfl (rfl) (by simp) (ownReason_of_wf _ f _ _ _ rfl rfl _ rfl h (.inr rfl)))
theorem Sys2Proof.Laws.Encode.mxz (f : Flds) : Statement (Instr.mxz f) := fun _ h => one_word rfl rfl fun x =>
  decode_f0 (Instr.mxz f) f _ _ x (.mxz) rfl (rfl) rfl (ownReason_of_wf _ f _ _ x rfl rfl _ rfl h (.inl rfl))
theorem Sys2Proof.Laws.Encode.mxld (f : Flds) : Statement (Instr.mxld f) := fun _ h => one_word rfl rfl fun x =>
  decode_f0 (Instr.mxld f) f _ _ x (.mxld) rfl (rfl) rfl (ownReason_of_wf _ f _ _ x rfl rfl _ rfl h (.inl rfl))
theorem Sys2Proof.Laws.Encode.mxst (w : EpiWord) (f : Flds) : Statement (Instr.mxst w f) := fun _ h => two_words rfl rfl
  (decode_f3 (Instr.mxst w f) f _ _ _ (fun x => .mxst (decEpi x)) rfl (rfl) (by simp) (ownReason_of_wf _ f _ _ _ rfl rfl _ rfl h (.inr rfl)))
theorem Sys2Proof.Laws.Encode.mxmute (slot : BitVec 2) (f : Flds) : Statement (Instr.mxmute slot f) := fun _ h => one_word rfl rfl fun x =>
  decode_f0 (Instr.mxmute slot f) f _ _ x (.mxmute slot) rfl (by
    show Built.ofSlot (encSlotM slot) _ = _
    rw [Built.ofSlot, dec_encSlotM]) rfl (ownReason_of_wf _ f _ _ x rfl rfl _ rfl h (.inl rfl))
theorem Sys2Proof.Laws.Encode.mxstat (slot : BitVec 2) (f : Flds) : Statement (Instr.mxstat slot f) := fun _ h => one_word rfl rfl fun x =>
  decode_f0 (Instr.mxstat slot f) f _ _ x (.mxstat slot) rfl (by
    show Built.ofSlot (encSlotM slot) _ = _
    rw [Built.ofSlot, dec_encSlotM]) rfl (ownReason_of_wf _ f _ _ x rfl rfl _ rfl h (.inl rfl))
theorem Sys2Proof.Laws.Encode.mxsave (slot : BitVec 2) (f : Flds) : Statement (Instr.mxsave slot f) := fun _ h => one_word rfl rfl fun x =>
  decode_f0 (Instr.mxsave slot f) f _ _ x (.mxsave slot) rfl (by
    show Built.ofSlot (encSlotM slot) _ = _
    rw [Built.ofSlot, dec_encSlotM]) rfl (ownReason_of_wf _ f _ _ x rfl rfl _ rfl h (.inl rfl))
theorem Sys2Proof.Laws.Encode.mxrest (slot : BitVec 2) (f : Flds) : Statement (Instr.mxrest slot f) := fun _ h => one_word rfl rfl fun x =>
  decode_f0 (Instr.mxrest slot f) f _ _ x (.mxrest slot) rfl (by
    show Built.ofSlot (encSlotM slot) _ = _
    rw [Built.ofSlot, dec_encSlotM]) rfl (ownReason_of_wf _ f _ _ x rfl rfl _ rfl h (.inl rfl))
theorem Sys2Proof.Laws.Encode.symk (f : Flds) : Statement (Instr.symk f) := fun _ h => one_word rfl rfl fun x =>
  decode_f0 (Instr.symk f) f _ _ x (.symk) rfl (rfl) rfl (ownReason_of_wf _ f _ _ x rfl rfl _ rfl h (.inl rfl))
theorem Sys2Proof.Laws.Encode.symc (w : CompareWord) (f : Flds) : Statement (Instr.symc w f) := fun _ h => two_words rfl rfl
  (decode_f3 (Instr.symc w f) f _ _ _ (fun x => .symc (decCompare x)) rfl (rfl) (by simp) (ownReason_of_wf _ f _ _ _ rfl rfl _ rfl h (.inr rfl)))
theorem Sys2Proof.Laws.Encode.symr (w : ReplayWord) (f : Flds) : Statement (Instr.symr w f) := fun _ h => two_words rfl rfl
  (decode_f3 (Instr.symr w f) f _ _ _ (fun x => .symr (decReplay x)) rfl (rfl) (by simp) (ownReason_of_wf _ f _ _ _ rfl rfl _ rfl h (.inr rfl)))
theorem Sys2Proof.Laws.Encode.symp (w : StoreWord) (f : Flds) : Statement (Instr.symp w f) := fun _ h => two_words rfl rfl
  (decode_f3 (Instr.symp w f) f _ _ _ (fun x => .symp (decStore x)) rfl (rfl) (by simp) (ownReason_of_wf _ f _ _ _ rfl rfl _ rfl h (.inr rfl)))
theorem Sys2Proof.Laws.Encode.syms (f : Flds) : Statement (Instr.syms f) := fun _ h => one_word rfl rfl fun x =>
  decode_f0 (Instr.syms f) f _ _ x (.syms) rfl (rfl) rfl (ownReason_of_wf _ f _ _ x rfl rfl _ rfl h (.inl rfl))
theorem Sys2Proof.Laws.Encode.symq (w : CounterWord) (f : Flds) : Statement (Instr.symq w f) := fun _ h => two_words rfl rfl
  (decode_f3 (Instr.symq w f) f _ _ _ (fun x => .symq (decCounterWord x)) rfl (rfl) (by simp) (ownReason_of_wf _ f _ _ _ rfl rfl _ rfl h (.inr rfl)))
theorem Sys2Proof.Laws.Encode.hfork (f : Flds) : Statement (Instr.hfork f) := fun _ h => one_word rfl rfl fun x =>
  decode_f0 (Instr.hfork f) f _ _ x (.hfork) rfl (rfl) rfl (ownReason_of_wf _ f _ _ x rfl rfl _ rfl h (.inl rfl))
theorem Sys2Proof.Laws.Encode.hres (refute : Bool) (d : TokenDest) (f : Flds) : Statement (Instr.hres refute d f) := fun _ h => two_words rfl rfl
  (decode_f3 (Instr.hres refute d f) f _ _ _ (fun x => .hres refute (decDest x)) rfl (by cases refute <;> rfl) (by simp) (ownReason_of_wf _ f _ _ _ rfl rfl _ rfl h (.inr rfl)))
theorem Sys2Proof.Laws.Encode.hqry (f : Flds) : Statement (Instr.hqry f) := fun _ h => one_word rfl rfl fun x =>
  decode_f0 (Instr.hqry f) f _ _ x (.hqry) rfl (rfl) rfl (ownReason_of_wf _ f _ _ x rfl rfl _ rfl h (.inl rfl))
theorem Sys2Proof.Laws.Encode.hnote (f : Flds) : Statement (Instr.hnote f) := fun _ h => one_word rfl rfl fun x =>
  decode_f0 (Instr.hnote f) f _ _ x (.hnote) rfl (rfl) rfl (ownReason_of_wf _ f _ _ x rfl rfl _ rfl h (.inl rfl))
theorem Sys2Proof.Laws.Encode.psel (w : SelWord) (f : Flds) : Statement (Instr.psel w f) := fun _ h => two_words rfl rfl
  (decode_f3 (Instr.psel w f) f _ _ _ (fun x => .psel (decSelWord x)) rfl (rfl) (by simp) (ownReason_of_wf _ f _ _ _ rfl rfl _ rfl h (.inr rfl)))
theorem Sys2Proof.Laws.Encode.topk (f : Flds) : Statement (Instr.topk f) := fun _ h => one_word rfl rfl fun x =>
  decode_f0 (Instr.topk f) f _ _ x (.topk) rfl (rfl) rfl (ownReason_of_wf _ f _ _ x rfl rfl _ rfl h (.inl rfl))
theorem Sys2Proof.Laws.Encode.tokenArrival (n : Nat) : Statement (Instr.tokenArrival n) := fun h => absurd h (by simp [Instr.isIsa, Instr.flds])
theorem Sys2Proof.Laws.Encode.blockFill (core : BitVec 8) (n : Nat) : Statement (Instr.blockFill core n) := fun h => absurd h (by simp [Instr.isIsa, Instr.flds])
theorem Sys2Proof.Laws.Encode.fifoDivert (core : BitVec 8) (n : Nat) : Statement (Instr.fifoDivert core n) := fun h => absurd h (by simp [Instr.isIsa, Instr.flds])
theorem Sys2Proof.Laws.Encode.spillReload (ctx : BitVec 12) (core : BitVec 8) : Statement (Instr.spillReload ctx core) := fun h => absurd h (by simp [Instr.isIsa, Instr.flds])
theorem Sys2Proof.Laws.Encode.spillAppend (n : Nat) : Statement (Instr.spillAppend n) := fun h => absurd h (by simp [Instr.isIsa, Instr.flds])
theorem Sys2Proof.Laws.Encode.binSustainExpiry (core : BitVec 8) (bin : BitVec 6) : Statement (Instr.binSustainExpiry core bin) := fun h => absurd h (by simp [Instr.isIsa, Instr.flds])
theorem Sys2Proof.Laws.Encode.arbitrationRound (core : BitVec 8) : Statement (Instr.arbitrationRound core) := fun h => absurd h (by simp [Instr.isIsa, Instr.flds])
theorem Sys2Proof.Laws.Encode.chordCommit (core : BitVec 8) (slot : BitVec 4) : Statement (Instr.chordCommit core slot) := fun h => absurd h (by simp [Instr.isIsa, Instr.flds])
theorem Sys2Proof.Laws.Encode.watchdog (core : BitVec 8) (slot : BitVec 4) : Statement (Instr.watchdog core slot) := fun h => absurd h (by simp [Instr.isIsa, Instr.flds])
theorem Sys2Proof.Laws.Encode.epochAdvance  : Statement Instr.epochAdvance := fun h => absurd h (by simp [Instr.isIsa, Instr.flds])
theorem Sys2Proof.Laws.Encode.releaseRecordFree (slice : BitVec 7) : Statement (Instr.releaseRecordFree slice) := fun h => absurd h (by simp [Instr.isIsa, Instr.flds])
theorem Sys2Proof.Laws.Encode.l1Fill (core : BitVec 8) (n : Nat) : Statement (Instr.l1Fill core n) := fun h => absurd h (by simp [Instr.isIsa, Instr.flds])
theorem Sys2Proof.Laws.Encode.writeBackAccept (core : BitVec 8) : Statement (Instr.writeBackAccept core) := fun h => absurd h (by simp [Instr.isIsa, Instr.flds])
theorem Sys2Proof.Laws.Encode.flagRelease (core : BitVec 8) : Statement (Instr.flagRelease core) := fun h => absurd h (by simp [Instr.isIsa, Instr.flds])
theorem Sys2Proof.Laws.Encode.flagAcquire (slice : BitVec 7) : Statement (Instr.flagAcquire slice) := fun h => absurd h (by simp [Instr.isIsa, Instr.flds])
theorem Sys2Proof.Laws.Encode.drainOrder (slice : BitVec 7) (n : Nat) : Statement (Instr.drainOrder slice n) := fun h => absurd h (by simp [Instr.isIsa, Instr.flds])
theorem Sys2Proof.Laws.Encode.drainAnswer (slice : BitVec 7) (n : Nat) : Statement (Instr.drainAnswer slice n) := fun h => absurd h (by simp [Instr.isIsa, Instr.flds])
theorem Sys2Proof.Laws.Encode.acquireAnswer (slice : BitVec 7) (n : Nat) : Statement (Instr.acquireAnswer slice n) := fun h => absurd h (by simp [Instr.isIsa, Instr.flds])
theorem Sys2Proof.Laws.Encode.updateAccept (slice : BitVec 7) : Statement (Instr.updateAccept slice) := fun h => absurd h (by simp [Instr.isIsa, Instr.flds])
theorem Sys2Proof.Laws.Encode.updateOperation (slice : BitVec 7) (line : Nat) : Statement (Instr.updateOperation slice line) := fun h => absurd h (by simp [Instr.isIsa, Instr.flds])
theorem Sys2Proof.Laws.Encode.updateOperationEnd (slice : BitVec 7) (line : Nat) : Statement (Instr.updateOperationEnd slice line) := fun h => absurd h (by simp [Instr.isIsa, Instr.flds])
theorem Sys2Proof.Laws.Encode.remoteAccess  : Statement Instr.remoteAccess := fun h => absurd h (by simp [Instr.isIsa, Instr.flds])
theorem Sys2Proof.Laws.Encode.flitReceive (port : BitVec 6) (bytes : List Byte) : Statement (Instr.flitReceive port bytes) := fun h => absurd h (by simp [Instr.isIsa, Instr.flds])
theorem Sys2Proof.Laws.Encode.negativeAcknowledge (port : BitVec 6) (seq : BitVec 12) : Statement (Instr.negativeAcknowledge port seq) := fun h => absurd h (by simp [Instr.isIsa, Instr.flds])
theorem Sys2Proof.Laws.Encode.portRetrain (port : BitVec 6) : Statement (Instr.portRetrain port) := fun h => absurd h (by simp [Instr.isIsa, Instr.flds])
theorem Sys2Proof.Laws.Encode.retrainEnd (port : BitVec 6) (ok : Bool) : Statement (Instr.retrainEnd port ok) := fun h => absurd h (by simp [Instr.isIsa, Instr.flds])
theorem Sys2Proof.Laws.Encode.routeLost (pkg : BitVec 12) : Statement (Instr.routeLost pkg) := fun h => absurd h (by simp [Instr.isIsa, Instr.flds])
theorem Sys2Proof.Laws.Encode.routeReturn (pkg : BitVec 12) : Statement (Instr.routeReturn pkg) := fun h => absurd h (by simp [Instr.isIsa, Instr.flds])
theorem Sys2Proof.Laws.Encode.timeFlitSend  : Statement Instr.timeFlitSend := fun h => absurd h (by simp [Instr.isIsa, Instr.flds])
theorem Sys2Proof.Laws.Encode.timeFlit (time : BitVec 64) : Statement (Instr.timeFlit time) := fun h => absurd h (by simp [Instr.isIsa, Instr.flds])
theorem Sys2Proof.Laws.Encode.domainTimeLost  : Statement Instr.domainTimeLost := fun h => absurd h (by simp [Instr.isIsa, Instr.flds])
theorem Sys2Proof.Laws.Encode.ethernetPacket (port : BitVec 2) (ok : Bool) (head : PieceHead) (bytes : List Byte) : Statement (Instr.ethernetPacket port ok head bytes) := fun h => absurd h (by simp [Instr.isIsa, Instr.flds])
theorem Sys2Proof.Laws.Encode.streamTile (core : BitVec 8) (n : Nat) : Statement (Instr.streamTile core n) := fun h => absurd h (by simp [Instr.isIsa, Instr.flds])
theorem Sys2Proof.Laws.Encode.streamEnd (core : BitVec 8) (n : Nat) : Statement (Instr.streamEnd core n) := fun h => absurd h (by simp [Instr.isIsa, Instr.flds])
theorem Sys2Proof.Laws.Encode.streamError (core : BitVec 8) (n : Nat) : Statement (Instr.streamError core n) := fun h => absurd h (by simp [Instr.isIsa, Instr.flds])
theorem Sys2Proof.Laws.Encode.copyStart (e : BitVec 5) : Statement (Instr.copyStart e) := fun h => absurd h (by simp [Instr.isIsa, Instr.flds])
theorem Sys2Proof.Laws.Encode.copyEnd (e : BitVec 5) : Statement (Instr.copyEnd e) := fun h => absurd h (by simp [Instr.isIsa, Instr.flds])
theorem Sys2Proof.Laws.Encode.stageComplete (core : BitVec 8) (cand : BitVec 3) (ring : BitVec 5) : Statement (Instr.stageComplete core cand ring) := fun h => absurd h (by simp [Instr.isIsa, Instr.flds])
theorem Sys2Proof.Laws.Encode.firingStart (core : BitVec 8) : Statement (Instr.firingStart core) := fun h => absurd h (by simp [Instr.isIsa, Instr.flds])
theorem Sys2Proof.Laws.Encode.firingRetire (core : BitVec 8) : Statement (Instr.firingRetire core) := fun h => absurd h (by simp [Instr.isIsa, Instr.flds])
theorem Sys2Proof.Laws.Encode.drainStart (core : BitVec 8) : Statement (Instr.drainStart core) := fun h => absurd h (by simp [Instr.isIsa, Instr.flds])
theorem Sys2Proof.Laws.Encode.drainEnd (core : BitVec 8) : Statement (Instr.drainEnd core) := fun h => absurd h (by simp [Instr.isIsa, Instr.flds])
theorem Sys2Proof.Laws.Encode.mutePassed (core : BitVec 8) (slot : BitVec 2) : Statement (Instr.mutePassed core slot) := fun h => absurd h (by simp [Instr.isIsa, Instr.flds])
theorem Sys2Proof.Laws.Encode.residencyDecision  : Statement Instr.residencyDecision := fun h => absurd h (by simp [Instr.isIsa, Instr.flds])
theorem Sys2Proof.Laws.Encode.preemptBegin (ctx : BitVec 12) : Statement (Instr.preemptBegin ctx) := fun h => absurd h (by simp [Instr.isIsa, Instr.flds])
theorem Sys2Proof.Laws.Encode.preemptChordAbandon (core : BitVec 8) (slot : BitVec 4) : Statement (Instr.preemptChordAbandon core slot) := fun h => absurd h (by simp [Instr.isIsa, Instr.flds])
theorem Sys2Proof.Laws.Encode.preemptSave (ctx : BitVec 12) : Statement (Instr.preemptSave ctx) := fun h => absurd h (by simp [Instr.isIsa, Instr.flds])
theorem Sys2Proof.Laws.Encode.preemptSaveComplete (ctx : BitVec 12) : Statement (Instr.preemptSaveComplete ctx) := fun h => absurd h (by simp [Instr.isIsa, Instr.flds])
theorem Sys2Proof.Laws.Encode.contextRestore (ctx : BitVec 12) : Statement (Instr.contextRestore ctx) := fun h => absurd h (by simp [Instr.isIsa, Instr.flds])
theorem Sys2Proof.Laws.Encode.launchRequest (n : Nat) : Statement (Instr.launchRequest n) := fun h => absurd h (by simp [Instr.isIsa, Instr.flds])
theorem Sys2Proof.Laws.Encode.endOrder (ctx : BitVec 12) (act : BitVec 16) : Statement (Instr.endOrder ctx act) := fun h => absurd h (by simp [Instr.isIsa, Instr.flds])
theorem Sys2Proof.Laws.Encode.hypothesisRequest (ctx : BitVec 12) : Statement (Instr.hypothesisRequest ctx) := fun h => absurd h (by simp [Instr.isIsa, Instr.flds])
theorem Sys2Proof.Laws.Encode.sweepPhaseB (ctx : BitVec 12) : Statement (Instr.sweepPhaseB ctx) := fun h => absurd h (by simp [Instr.isIsa, Instr.flds])
theorem Sys2Proof.Laws.Encode.sweepEnd (ctx : BitVec 12) : Statement (Instr.sweepEnd ctx) := fun h => absurd h (by simp [Instr.isIsa, Instr.flds])
theorem Sys2Proof.Laws.Encode.speculativeReservation (core : BitVec 8) (slot : BitVec 4) : Statement (Instr.speculativeReservation core slot) := fun h => absurd h (by simp [Instr.isIsa, Instr.flds])
theorem Sys2Proof.Laws.Encode.hypothesisCapacity (core : BitVec 8) (slot : BitVec 4) : Statement (Instr.hypothesisCapacity core slot) := fun h => absurd h (by simp [Instr.isIsa, Instr.flds])
theorem Sys2Proof.Laws.Encode.symcCompare (n : Nat) : Statement (Instr.symcCompare n) := fun h => absurd h (by simp [Instr.isIsa, Instr.flds])
theorem Sys2Proof.Laws.Encode.sympStore (n : Nat) : Statement (Instr.sympStore n) := fun h => absurd h (by simp [Instr.isIsa, Instr.flds])
theorem Sys2Proof.Laws.Encode.symrReplay (n : Nat) : Statement (Instr.symrReplay n) := fun h => absurd h (by simp [Instr.isIsa, Instr.flds])
theorem Sys2Proof.Laws.Encode.pselSelect (n : Nat) : Statement (Instr.pselSelect n) := fun h => absurd h (by simp [Instr.isIsa, Instr.flds])
theorem Sys2Proof.Laws.Encode.translationWalk (core : BitVec 8) (ctx : BitVec 12) (va : BitVec 57) : Statement (Instr.translationWalk core ctx va) := fun h => absurd h (by simp [Instr.isIsa, Instr.flds])
theorem Sys2Proof.Laws.Encode.faultResume (m : Master) (id : BitVec 32) : Statement (Instr.faultResume m id) := fun h => absurd h (by simp [Instr.isIsa, Instr.flds])
theorem Sys2Proof.Laws.Encode.faultRefuse (m : Master) (id : BitVec 32) : Statement (Instr.faultRefuse m id) := fun h => absurd h (by simp [Instr.isIsa, Instr.flds])
theorem Sys2Proof.Laws.Encode.invalidateRange (m : Master) (ctx : BitVec 12) (gran : BitVec 2) (count : BitVec 16) : Statement (Instr.invalidateRange m ctx gran count) := fun h => absurd h (by simp [Instr.isIsa, Instr.flds])
theorem Sys2Proof.Laws.Encode.invalidateContext (m : Master) (ctx : BitVec 12) : Statement (Instr.invalidateContext m ctx) := fun h => absurd h (by simp [Instr.isIsa, Instr.flds])
theorem Sys2Proof.Laws.Encode.invalidateAll (m : Master) : Statement (Instr.invalidateAll m) := fun h => absurd h (by simp [Instr.isIsa, Instr.flds])
theorem Sys2Proof.Laws.Encode.invalidationEnd  : Statement Instr.invalidationEnd := fun h => absurd h (by simp [Instr.isIsa, Instr.flds])
theorem Sys2Proof.Laws.Encode.ctxPreempt (m : Master) (ctx : BitVec 12) : Statement (Instr.ctxPreempt m ctx) := fun h => absurd h (by simp [Instr.isIsa, Instr.flds])
theorem Sys2Proof.Laws.Encode.ctxStop (m : Master) (ctx : BitVec 12) : Statement (Instr.ctxStop m ctx) := fun h => absurd h (by simp [Instr.isIsa, Instr.flds])
theorem Sys2Proof.Laws.Encode.ctxResume (m : Master) (ctx : BitVec 12) : Statement (Instr.ctxResume m ctx) := fun h => absurd h (by simp [Instr.isIsa, Instr.flds])
theorem Sys2Proof.Laws.Encode.ctxEnd (m : Master) (ctx : BitVec 12) : Statement (Instr.ctxEnd m ctx) := fun h => absurd h (by simp [Instr.isIsa, Instr.flds])
theorem Sys2Proof.Laws.Encode.ctxReload (m : Master) (ctx : BitVec 12) : Statement (Instr.ctxReload m ctx) := fun h => absurd h (by simp [Instr.isIsa, Instr.flds])
theorem Sys2Proof.Laws.Encode.ingressWrite (port : BitVec 8) (off : BitVec 12) (bytes : List Byte) : Statement (Instr.ingressWrite port off bytes) := fun h => absurd h (by simp [Instr.isIsa, Instr.flds])
theorem Sys2Proof.Laws.Encode.bar2Write (addr : Nat) (bytes : List Byte) : Statement (Instr.bar2Write addr bytes) := fun h => absurd h (by simp [Instr.isIsa, Instr.flds])
theorem Sys2Proof.Laws.Encode.bar2Read (addr : Nat) (len : Nat) : Statement (Instr.bar2Read addr len) := fun h => absurd h (by simp [Instr.isIsa, Instr.flds])
theorem Sys2Proof.Laws.Encode.completionRecord  : Statement Instr.completionRecord := fun h => absurd h (by simp [Instr.isIsa, Instr.flds])
theorem Sys2Proof.Laws.Encode.eventWrite  : Statement Instr.eventWrite := fun h => absurd h (by simp [Instr.isIsa, Instr.flds])
theorem Sys2Proof.Laws.Encode.hostEvctlWrite (m : Master) (v : Word) : Statement (Instr.hostEvctlWrite m v) := fun h => absurd h (by simp [Instr.isIsa, Instr.flds])
theorem Sys2Proof.Laws.Encode.hostEvtailWrite (m : Master) (v : Word) : Statement (Instr.hostEvtailWrite m v) := fun h => absurd h (by simp [Instr.isIsa, Instr.flds])
theorem Sys2Proof.Laws.Encode.hostCasResponse (id : Nat) (seen : Word) : Statement (Instr.hostCasResponse id seen) := fun h => absurd h (by simp [Instr.isIsa, Instr.flds])
theorem Sys2Proof.Laws.Encode.hostClaim (m : Master) : Statement (Instr.hostClaim m) := fun h => absurd h (by simp [Instr.isIsa, Instr.flds])
theorem Sys2Proof.Laws.Encode.hostPeerset (m : Master) (pkg : BitVec 12) : Statement (Instr.hostPeerset m pkg) := fun h => absurd h (by simp [Instr.isIsa, Instr.flds])
theorem Sys2Proof.Laws.Encode.hostHandover (m : Master) (v : Word) : Statement (Instr.hostHandover m v) := fun h => absurd h (by simp [Instr.isIsa, Instr.flds])
theorem Sys2Proof.Laws.Encode.handoverEffect  : Statement Instr.handoverEffect := fun h => absurd h (by simp [Instr.isIsa, Instr.flds])
theorem Sys2Proof.Laws.Encode.registerWrite (m : Master) (off : Nat) (v : Word) : Statement (Instr.registerWrite m off v) := fun h => absurd h (by simp [Instr.isIsa, Instr.flds])
theorem Sys2Proof.Laws.Encode.bootStart (m : Master) : Statement (Instr.bootStart m) := fun h => absurd h (by simp [Instr.isIsa, Instr.flds])
theorem Sys2Proof.Laws.Encode.bootComplete  : Statement Instr.bootComplete := fun h => absurd h (by simp [Instr.isIsa, Instr.flds])
theorem Sys2Proof.Laws.Encode.stagingWrite (m : Master) (off : Nat) (bytes : List Byte) : Statement (Instr.stagingWrite m off bytes) := fun h => absurd h (by simp [Instr.isIsa, Instr.flds])
theorem Sys2Proof.Laws.Encode.secLock (m : Master) (v : Word) : Statement (Instr.secLock m v) := fun h => absurd h (by simp [Instr.isIsa, Instr.flds])
theorem Sys2Proof.Laws.Encode.keyLoad (m : Master) (v : Word) : Statement (Instr.keyLoad m v) := fun h => absurd h (by simp [Instr.isIsa, Instr.flds])
theorem Sys2Proof.Laws.Encode.attestationRequest (m : Master) : Statement (Instr.attestationRequest m) := fun h => absurd h (by simp [Instr.isIsa, Instr.flds])
theorem Sys2Proof.Laws.Encode.attestationDone  : Statement Instr.attestationDone := fun h => absurd h (by simp [Instr.isIsa, Instr.flds])
theorem Sys2Proof.Laws.Encode.reset  : Statement Instr.reset := fun h => absurd h (by simp [Instr.isIsa, Instr.flds])
theorem Sys2Proof.Laws.Encode.powerCap (now : BitVec 12) : Statement (Instr.powerCap now) := fun h => absurd h (by simp [Instr.isIsa, Instr.flds])
theorem Sys2Proof.Laws.Encode.temperatureWarning (die : BitVec 4) (temp : BitVec 8) : Statement (Instr.temperatureWarning die temp) := fun h => absurd h (by simp [Instr.isIsa, Instr.flds])
theorem Sys2Proof.Laws.Encode.hbmThrottle (stack : BitVec 4) (temp : BitVec 8) : Statement (Instr.hbmThrottle stack temp) := fun h => absurd h (by simp [Instr.isIsa, Instr.flds])
theorem Sys2Proof.Laws.Encode.trip (hbm : Bool) (temp : BitVec 8) : Statement (Instr.trip hbm temp) := fun h => absurd h (by simp [Instr.isIsa, Instr.flds])
theorem Sys2Proof.Laws.Encode.mgmtCool (m : Master) (code : Byte) : Statement (Instr.mgmtCool m code) := fun h => absurd h (by simp [Instr.isIsa, Instr.flds])
theorem Sys2Proof.Laws.Encode.i3cAccess (bytes : List Byte) : Statement (Instr.i3cAccess bytes) := fun h => absurd h (by simp [Instr.isIsa, Instr.flds])
theorem Sys2Proof.Laws.Encode.memdataRead (m : Master) : Statement (Instr.memdataRead m) := fun h => absurd h (by simp [Instr.isIsa, Instr.flds])
theorem Sys2Proof.Laws.Encode.memdataWrite (m : Master) (v : Word) : Statement (Instr.memdataWrite m v) := fun h => absurd h (by simp [Instr.isIsa, Instr.flds])
theorem Sys2Proof.Laws.Encode.eccError (n : BitVec 3) (bad : Option EccWhere) : Statement (Instr.eccError n bad) := fun h => absurd h (by simp [Instr.isIsa, Instr.flds])
theorem Sys2Proof.Laws.Encode.replayInject  : Statement Instr.replayInject := fun h => absurd h (by simp [Instr.isIsa, Instr.flds])
theorem Sys2Proof.Laws.Encode.replayTimeout (core : BitVec 8) : Statement (Instr.replayTimeout core) := fun h => absurd h (by simp [Instr.isIsa, Instr.flds])
theorem Sys2Proof.Laws.Encode.hostCompletion (id : Nat) (ans : HostAnswer) : Statement (Instr.hostCompletion id ans) := fun h => absurd h (by simp [Instr.isIsa, Instr.flds])
end

