-- ==== Sys2Proof/Safety.lean ====
section
/-! DEFINITION. The terms in which claims about the machine are made: memories in canonical form, an instruction ready to
issue, and what it means that an instruction carries out its effect. -/

namespace Sys2Proof.Machine

/-- A byte memory in canonical form: addresses strictly rising, and no entry equal to what an unlisted address reads as. -/
def Memory.wf (m : List Host.Cell) : Bool := memOk none m

/-- Every byte memory of the package in canonical form: package memory, the boot staging window, each core's SRAM. -/
def State.memsWf (s : State) : Bool :=
  Memory.wf s.homes.mem && Memory.wf s.sec.staging && s.cores.all fun p => Memory.wf p.2.sram

/-- The chord at the focus may issue, and every operand that an instruction of this shape reads there has arrived in every
lane (R202). -/
def State.ready (s : State) (sh : Shape) (f : Flds) (ch : Chord) (ls : List (Nat × Lane × Vals)) : Prop :=
  s.focus = some ch ∧ ch.mayIssue = true ∧ gather sh f ch (s.consts ch) ch.pc ch.lanes = some ls

/-- An instruction without effects beyond its values: whenever it is ready it executes, and delivers `op` of the operands
in every selected lane (R21, R205). -/
def Delivers (i : Instr) (sh : Shape) (f : Flds) (op : Vals → Word) : Prop :=
  ∀ s ch ls, s.ready sh f ch ls → exec i s = .next (s.setFocus ((ch.alu sh f op ls).next 1))

/-- A cross-lane instruction: whenever it is ready it executes, and delivers in every selected lane `op` of the operands of
the lanes visible to it, the lane's number and its own operands (R144). -/
def Exchanges (i : Instr) (sh : Shape) (f : Flds) (op : List (Nat × Vals) → Nat → Vals → Word) : Prop :=
  ∀ s ch ls, s.ready sh f ch ls →
    exec i s = .next (s.setFocus ((ls.foldl (fun c p => c.put f ch.pc p.1 (.val (if selects f p.2.2 then
      op (s.visible ch.ctx f ls p.2.1.hid) p.1 p.2.2 else passed sh p.2.2))) ch).next 1))

/-- What an instruction does in one lane: from a state, with the lane's number, its state and its operands, an outcome and
the state it leaves. -/
abbrev InLane := State → Nat → Lane → Vals → LaneRes → State → Prop

/-- What an instruction does in its lanes, lowest first (R156): `one` in each selected lane, the passed value in the others
(R21). A trap in a lane already doomed changes nothing (R132). -/
def Lanes (sh : Shape) (f : Flds) (one : InLane) :
    List (Nat × Lane × Vals) → State → List (Nat × LaneRes) → State → Prop
  | [], s, out, s' => out = [] ∧ s' = s
  | (l, x, v) :: r, s, out, s' => ∃ res s1 rest,
      (if selects f v then one s l x v res s1 else res = .val (passed sh v) ∧ s1 = s) ∧
      Lanes sh f one r (if res.trap.isSome && x.doom.isSome then s else s1) rest s' ∧ out = (l, res) :: rest

/-- What SPAWN does in its lanes, lowest first: as `Lanes`, but a lane already doomed uses up its tag as any other does (R138). -/
def LanesKept (sh : Shape) (f : Flds) (one : InLane) :
    List (Nat × Lane × Vals) → State → List (Nat × LaneRes) → State → Prop
  | [], s, out, s' => out = [] ∧ s' = s
  | (l, x, v) :: r, s, out, s' => ∃ res s1 rest,
      (if selects f v then one s l x v res s1 else res = .val (passed sh v) ∧ s1 = s) ∧
      LanesKept sh f one r s1 rest s' ∧ out = (l, res) :: rest

/-- The chord after the uniformity check that a block may ask for (R205). -/
def Chord.checked (ch : Chord) (f : Flds) (ls : List (Nat × Lane × Vals)) : Chord :=
  match ls with
  | [] => ch
  | (_, _, v) :: _ => if f.u && ch.ucheck then ch.checkUniform ch.pc v ls else ch

/-- The state once an instruction of `len` words has handed on its outcomes lane by lane. -/
def State.handedOn (s : State) (ch : Chord) (f : Flds) (len : Nat) (out : List (Nat × LaneRes)) : State :=
  s.setFocus ((out.foldl (fun c p => c.put f ch.pc p.1 p.2) ch).next len)

/-- An instruction carries out its effect: whenever it is ready, and `one` says what it does in each lane, the machine goes
on with the lanes' outcomes handed on, in lane order under U = 0, and once for the whole chord under U = 1 (R205), unless it
is of the kind (`mem`) for which U falls away where the lanes run under different HIDs (R206). -/
def CarriesOut (i : Instr) (sh : Shape) (f : Flds) (len : Nat) (mem : Bool) (one : Chord → InLane) : Prop :=
  ∀ s ch ls, s.ready sh f ch ls →
    let ch' := ch.checked f ls
    ((f.u = false ∨ mem = true ∧ ch'.mixedHids = true) →
      ∀ out s1, Lanes sh f (one ch') ls s out s1 → exec i s = .next (s1.handedOn ch' f len out)) ∧
    ((f.u = true ∧ ¬(mem = true ∧ ch'.mixedHids = true)) →
      ∀ l x v r res s1, ls = (l, x, v) :: r →
        (if selects f v then one ch' s l x v res s1 else res = .val (passed sh v) ∧ s1 = s) →
        exec i s = .next ((if res.trap.isSome && ls.all (fun p => p.2.1.doom.isSome) then s else s1).setFocus
          ((ch'.putAll f ch'.pc res).next len)))

/-- The instruction leaves the state alone and gives a value that depends on the state, the lane and its operands. -/
def gives (g : State → Chord → Nat → Lane → Vals → LaneRes) : Chord → InLane :=
  fun ch s l x v res s1 => res = g s ch l x v ∧ s1 = s

/-- The core and package a lane's token goes to under a destination word (R135): the block lies inside the graph image; .same
names the own core, .core the core of C, which the own package's placement holds, .spread the core of R136, and .pkg the
core of R136 on the package of C, which the context may reach and which no speculative lane leaves its own package for.
Where R136 names no core the packet carries 0, the model's choice (assumption log 46). -/
def SendsTo (s : State) (ch : Chord) (x : Lane) (d : TokenDest) (tag : BitVec 32) (dest : Word) (pkg : BitVec 12) (core : Nat) : Prop :=
  s.blockOutside ch.key d.dblock = false ∧
  match d.route with
  | .same => pkg = s.pkg ∧ core = s.flow.focusCore
  | .core => pkg = s.pkg ∧ core = dest.toNat ∧ dest.toNat < 256 ∧ (s.placement ch.key s.pkg).contains dest.toNat = true
  | .spread => pkg = s.pkg ∧ core = (s.spreadCore ch.key s.pkg d.dblock tag).getD 0
  | .pkg => pkg = dest.setWidth 12 ∧ dest.toNat < 4096 ∧ s.admits ch.ctx pkg = true ∧ (x.hid = 0 ∨ pkg = s.pkg) ∧
      core = (s.spreadCore ch.key pkg d.dblock tag).getD 0

/-- The trap that stops a lane's token (R135, R237): PROTECTION where the block lies outside the graph image, where .core names a
core outside the own package's placement, and where .pkg names a package that the context may not reach; after that last one
comes SPECULATIVE_ATOMIC, where a lane under a HID names another package. -/
def SendStops (s : State) (ch : Chord) (x : Lane) (d : TokenDest) (dest : Word) (t : Trap) : Prop :=
  let outside := s.blockOutside ch.key d.dblock = true
  match d.route with
  | .same | .spread => outside ∧ t = { cause := 0x08 }
  | .core => (256 ≤ dest.toNat ∨ (s.placement ch.key s.pkg).contains dest.toNat = false ∨ outside) ∧ t = { cause := 0x08 }
  | .pkg =>
    let barred := 4096 ≤ dest.toNat ∨ s.admits ch.ctx (dest.setWidth 12) = false
    let leaves := x.hid ≠ 0 ∧ dest.setWidth 12 ≠ s.pkg
    ((barred ∨ ¬leaves ∧ outside) ∧ t = { cause := 0x08 }) ∨ (¬barred ∧ leaves ∧ t = { cause := 0x0F })

/-- The token of a lane of the chord at the focus (R34, R135). -/
def laneToken (s : State) (ch : Chord) (x : Lane) (d : TokenDest) (tag : BitVec 32) (payload : Word) (pkg : BitVec 12) (core : Nat) : Token :=
  { payload, tag, dblock := d.dblock, dpkg := pkg, dcore := BitVec.ofNat 8 core, ctx := ch.ctx, act := ch.act, hid := x.hid,
    port := d.dport, spkg := s.pkg, score := BitVec.ofNat 8 s.flow.focusCore, skind := 0 }

/-- A chord effect at execution (R266): under a hypothesis it traps with SPECULATIVE_ATOMIC; a breach of its rules against
the state that the chord's earlier chord effects leave traps as the rules say; otherwise it is buffered, with its value. -/
def ChordEffect (s : State) (ch : Chord) (e : Eff) (v : Word) (res : LaneRes) (s1 : State) : Prop :=
  s1 = s ∧
  ((∃ p ∈ ch.lanes, p.2.hid ≠ 0) → res = .trapped { cause := 0x0F }) ∧
  ((∀ p ∈ ch.lanes, p.2.hid = 0) →
    match effBreach ((s.afterChordEffs s.flow.focusCore ch (s.consts ch)).core s.flow.focusCore) ch.key (s.consts ch) e with
    | some t => res = .trapped t
    | none => res = { LaneRes.val v with effs := [e] })

/-- What follows the checks of an access: the trap they answer, or the effect on the places of its bytes. -/
def Checked.thenDo (c : Checked) (eff : List Place → State → LaneRes → State → Prop) (res : LaneRes) (s1 : State) : Prop :=
  match c with
  | .wait => False
  | .trap t s' => res = .trapped t ∧ s1 = s'
  | .ok pl s' => eff pl s' res s1

/-- The checks of an access of a lane to `n` bytes from `a` (R157), on behalf of the chord at the focus. -/
def State.access (s : State) (ch : Chord) (x : Lane) (a : Word) (n align : Nat) (k : AccKind) (only0 atomic : Bool) : Checked :=
  s.check s.flow.focusCore (laneWho s ch ch.pc x (if k == .read then 0 else 1)) a n align k only0 atomic

/-- What an instruction that is not a load does with the bytes at the places of a checked read, from `addr` on, for `who` (R238): it
waits while another package or the host owes some of them; it traps as that one answered; an uncorrectable byte traps with ECC; and
otherwise `eff` says what follows from the bytes, once they have entered the caches. -/
def State.ReadsOn (s : State) (who : Who) (addr : Word) (pl : List Place) (eff : List Byte → State → LaneRes → State → Prop)
    (res : LaneRes) (s1 : State) : Prop :=
  match s.seek who pl with
  | .later u => (res, s1) = awaitRead u who
  | .fails t => res = .trapped { t with addr } ∧ s1 = s.forgetJob who
  | .got gl =>
    if gl.any (engPoison s) = true then res = .trapped { cause := 0x11, addr } ∧ s1 = s.forgetJob who
    else eff (gl.map (engByte s)) (s.enterPlaces gl).bump res s1

/-- What a load hands on once its bytes are read: its values when all of them are at hand and it acquires nothing, and otherwise a wait
under a new number, with a request for each run of bytes that lies elsewhere, whole (R155, R158, R160, R211). -/
def HandsOn (s : State) (ch : Chord) (x : Lane) (fin : Fin) (pl : List Place) (got : List (Option Byte)) (ea : Word) (acquire : Bool)
    (res : LaneRes) (s1 : State) : Prop :=
  let bs := overlay x pl got
  ((∀ b ∈ bs, b ≠ none) → acquire = false → s1 = s ∧
    res = { v0 := some (fin.value (bs.filterMap id)).1, v1 := some (fin.value (bs.filterMap id)).2 }) ∧
  (((∃ b ∈ bs, b = none) ∨ acquire = true) →
    res = { v0 := none, v1 := none, wait := some { id := s.newId.1, idx := 0, lanes := [], fin, got := bs, t0 := none,
                                                   t1 := none, acquire, gate := acquire && pl.all (!·.host?), addr := ea } } ∧
    s1 = (missingRuns 0 (pl.zip got) []).foldl (fun t r => t.askRun ch
      { core := s.flow.focusCore, slot := s.flow.focusSlot, wait := s.newId.1 } (if acquire then 7 else 0) r) s.newId.2)

/-- A load of a lane (R160): the checks, then the bytes of R156 and R158; an uncorrectable one traps with ECC. -/
def Loads (s : State) (ch : Chord) (x : Lane) (fin : Fin) (ea : Word) : LaneRes → State → Prop :=
  (s.access ch x ea fin.bytes (if fin.bytes = 16 then 16 else 1) .read false false).thenDo fun pl s2 res s1 =>
    ∃ got bad s3, readPlaces s2.flow.focusCore ch.ctx x.hid pl s2 = some ((got, bad), s3) ∧
      (bad = true → res = .trapped { cause := 0x11, addr := ea } ∧ s1 = s3) ∧
      (bad = false → HandsOn s3 ch x fin pl got ea false res s1)

/-- The registers that no program reaches: those that the owner writes (R404, R419), and what only the boot ROM, the management
controller and the links' time set. SEC_DENIED counts programs' accesses too, so it is left out. -/
def State.ownersPart (s : State) : State :=
  { sec := { s.sec with denied := 0 }
    ctxRegs := s.ctxRegs
    mgmt := s.mgmt
    xlt := { invAddr := s.xlt.invAddr, busy := s.xlt.busy, err := s.xlt.err, inval := s.xlt.inval }
    links := { routes := s.links.routes, pkgId := s.links.pkgId, pkgValid := s.links.pkgValid, src := s.links.src, dtime := s.links.dtime,
               hold := s.links.hold }
    dbg := { mode := s.dbg.mode, ctx := s.dbg.ctx, recBase := s.dbg.recBase, recSize := s.dbg.recSize }
    host := { owner := s.host.owner, peerPkg := s.host.peerPkg, nownWr := s.host.nownWr, handover := s.host.handover,
              ingress := s.host.ingress, evBase := s.host.evBase, evLocal := s.host.evLocal, evLog2n := s.host.evLog2n,
              evEn := s.host.evEn, evVec := s.host.evVec, evHead := s.host.evHead, evTail := s.host.evTail,
              atomCap := s.host.atomCap, msixTable := s.host.msixTable, msixPend := s.host.msixPend } }

end Sys2Proof.Machine
end

