-- ==== Sys2Proof/Certificates/Slice0/Obligations.lean ====
section
/-! DEFINITION. The statements about the model that the provers are to prove; each docstring names the rules it formalises. -/

open Sys2Proof Sys2Proof.Machine

/-! ### Decoding and stepping -/

/-- Tier 1. When the words at a chord's next index decode to an instruction, the step that issues the chord is the
execution of that instruction with its chord at the focus and the cycle noted from which what it delivers is there,
unless a chord of the core granted earlier is ready for the same issue slot (R202), when it lets nothing pass but the
move; where no chord of the core was granted earlier it is that execution. An agent's step that is due is executed as
it is, an instruction of a program is never one, and a step with nothing due lets one cycle pass (assumption log 1).
(R12, R202, 09_execution_model.md) -/
def Obligations.StepRunsDecoded : Prop :=
  (∀ (s : State) (c slot : Nat) (r : List Move) (ch : Chord) (h : Header) (ws rest : List Word) (i : Instr),
    s.flow.agenda = .issue c slot :: r → s.chord? c slot = some ch → ch.img = some (h, ws) → ch.pc < ws.length →
    decodeWords (ws.drop ch.pc) = .ok (i, rest) →
    let runs := exec i ((s.popMove.noteIssue c slot i).setFocusAt c slot)
    (s.popMove.mayGo exec c slot i = true → step s = runs) ∧
    (s.popMove.mayGo exec c slot i = false → step s = .next s.popMove) ∧
    ((∀ p ∈ (s.core c).chords, p.1 = slot ∨ ch.granted ≤ p.2.granted) → step s = runs)) ∧
  (∀ (s : State) (r : List Move) (i : Instr), s.flow.agenda = .event i :: r → encode i = [] → step s = exec i s.popMove) ∧
  (∀ (s : State) (r : List Move) (i : Instr), s.flow.agenda = .event i :: r → encode i ≠ [] → step s = .next s.popMove) ∧
  (∀ (s : State) (r : List Move) (n : Nat), s.flow.agenda = .tick n :: r → step s = .next (s.popMove.tick n)) ∧
  (∀ s : State, s.flow.agenda = [] → step s = .next (s.tick 1))

/-- Tier 1. The worked words of the spec (FADD and SEND of the encoding chapter, ST.64 and DONE of the assembly chapter)
and one word for each other group, written out field by field from R16 to R28 and the opcode map, decode to the
instructions they stand for. (R16, R18, R19, R23, R25, R27, 01_encodings_opcode_map.md, 02_assembly_language.md) -/
def Obligations.DecodedWords : Prop :=
  decodeWords [0x2004027FD0040400#64] = .ok (.fadd .f32 .rne
    { u := false, p := .always, t0 := some ⟨1, .a⟩, t1 := none, a := .port 0, b := .port 1, c := .link }, []) ∧
  decodeWords [0x4000FFFFC0000000#64, 0x0000000409000000#64] = .ok (.send
    { dblock := 4, dport := 0, route := .spread, rel := false, ownTag := true }
    { u := false, p := .always, t0 := none, t1 := none, a := .link, b := .link, c := .link }, []) ∧
  decodeWords [0x8203FFFFE0040000#64] = .ok (.st .w64
    { u := false, p := .always, t0 := none, t1 := none, a := .const 0, b := .port 0, c := .link }, []) ∧
  decodeWords [0x40C0FFFFF0100000#64] = .ok (.doneCredit
    { u := false, p := .always, t0 := none, t1 := none, a := .imm 1, b := .link, c := .link }, []) ∧
  decodeWords [0x0003027FD00C0400#64] = .ok (.add .n64
    { u := false, p := .always, t0 := some ⟨1, .a⟩, t1 := none, a := .port 0, b := .imm 1, c := .link }, []) ∧
  decodeWords [0x0F01010000001234#64] = .ok (.imm true { u := false, t0 := some ⟨0, .c⟩, imm := 0x1234 }, []) ∧
  decodeWords [0xA0C0FFFFF0580000#64] = .ok (.rput
    { u := false, p := .always, t0 := none, t1 := none, a := .imm 5, b := .const 0, c := .link }, []) ∧
  decodeWords [0xC060FFFFC0000000#64] = .ok (.mxunb 0
    { u := true, p := .always, t0 := none, t1 := none, a := .link, b := .link, c := .link }, []) ∧
  decodeWords [0xC040FFFFC0000000#64] = .error 0x13 ∧
  decodeWords [0xE2000A7FD0000000#64] = .ok (.hqry
    { u := false, p := .always, t0 := some ⟨5, .a⟩, t1 := none, a := .port 0, b := .link, c := .link }, [])

/-- Tier 3. Every well-formed instruction of Isaef, laid out in memory as its words are stored, decodes to itself with
every field as it was, and leaves the bytes that follow it. (R12, R16, R18, R19, R23, R24, R25, R26, R27, R28) -/
def Obligations.DecodeEncode : Prop :=
  ∀ i : Instr, i.isIsa = true → i.WellFormed = true → ∀ rest : List Byte,
    decode ((encode i).flatMap bytesOfWord ++ rest) = .ok (i, rest)

/-- Tier 2. A word that decodes is the first word of the instruction it decodes to, the word after it is the extension
word if the instruction has one, and the instruction is well-formed: so no reserved or ill-formed encoding decodes,
and no two words stand for one instruction. (R16, R18, R19, R20, R23, R31) -/
def Obligations.EncodeDecode : Prop :=
  ∀ (w : Word) (x : Option Word) (i : Instr), decodeWord w x = .ok i →
    i.isIsa = true ∧ i.WellFormed = true ∧ i.word0 = w ∧ (i.extWord.isSome = true → i.extWord = x)

/-! ### Integer, logic and address instructions -/

/-- Tier 1. ADD, SUB, ADDS, SUBS, MUL, MULH, MAD, DIV, REM, MIN, MAX, ABS and NEG execute whenever their operands are
there, and deliver in every selected lane the exact result over the integers their type reads, wrapped or saturated to
the type. (R101, R102) -/
def Obligations.IntegerArithmetic : Prop :=
  ∀ (ty : IntTy) (f : Flds),
    Delivers (.add ty f) .bin f (fun v => intWrap ty (intRead ty v.a + intRead ty v.b)) ∧
    Delivers (.sub ty f) .bin f (fun v => intWrap ty (intRead ty v.a - intRead ty v.b)) ∧
    Delivers (.adds ty f) .bin f (fun v => intSat ty (intRead ty v.a + intRead ty v.b)) ∧
    Delivers (.subs ty f) .bin f (fun v => intSat ty (intRead ty v.a - intRead ty v.b)) ∧
    Delivers (.mul ty f) .bin f (fun v => intWrap ty (intRead ty v.a * intRead ty v.b)) ∧
    Delivers (.mulh ty f) .bin f (fun v => intWrap ty (intRead ty v.a * intRead ty v.b / 2 ^ intBits ty)) ∧
    Delivers (.mad ty f) .tri f (fun v => intWrap ty (intRead ty v.a * intRead ty v.b + intRead ty v.c)) ∧
    Delivers (.div ty f) .bin f (fun v => if intRead ty v.b = 0 then intOut ty (BitVec.allOnes 64)
      else intWrap ty ((intRead ty v.a).tdiv (intRead ty v.b))) ∧
    Delivers (.rem ty f) .bin f (fun v => if intRead ty v.b = 0 then intOut ty v.a
      else intWrap ty ((intRead ty v.a).tmod (intRead ty v.b))) ∧
    Delivers (.min ty f) .bin f (fun v => intWrap ty (min (intRead ty v.a) (intRead ty v.b))) ∧
    Delivers (.max ty f) .bin f (fun v => intWrap ty (max (intRead ty v.a) (intRead ty v.b))) ∧
    Delivers (.abs ty f) .un f (fun v => intWrap ty (intRead ty v.a).natAbs) ∧
    Delivers (.neg ty f) .un f (fun v => intWrap ty (-(intRead ty v.a)))

/-- Tier 1. AND, ANDN, OR, XOR, NOT, SHL, SHR, SAR, ROT, POPC, CLZ, CTZ, BREV, BFX, BFI, SEL, MOV, IDX and CMP execute
whenever their operands are there and deliver the results of R103 to R108 and R111; IMM and IMMH deliver the value of
R109 to every lane's T0. (R103, R104, R105, R106, R107, R108, R109, R111) -/
def Obligations.IntegerLogic : Prop :=
  (∀ (ty : IntTy) (f : Flds),
    Delivers (.and ty f) .bin f (fun v => intOut ty (v.a &&& v.b)) ∧
    Delivers (.andn ty f) .bin f (fun v => intOut ty (v.a &&& ~~~v.b)) ∧
    Delivers (.or ty f) .bin f (fun v => intOut ty (v.a ||| v.b)) ∧
    Delivers (.xor ty f) .bin f (fun v => intOut ty (v.a ^^^ v.b)) ∧
    Delivers (.not ty f) .un f (fun v => intOut ty (~~~v.a)) ∧
    Delivers (.shl ty f) .bin f (fun v => shlVal ty v.a v.b) ∧
    Delivers (.shr ty f) .bin f (fun v => shrVal ty v.a v.b) ∧
    Delivers (.sar ty f) .bin f (fun v => sarVal ty v.a v.b) ∧
    Delivers (.rot ty f) .bin f (fun v => rotVal ty v.a v.b) ∧
    Delivers (.popc ty f) .un f (fun v => BitVec.ofNat 64 ((lowBits (intBits ty) v.a).countP id)) ∧
    Delivers (.clz ty f) .un f (fun v => clzVal ty v.a) ∧
    Delivers (.ctz ty f) .un f (fun v => ctzVal ty v.a) ∧
    Delivers (.brev ty f) .un f (fun v => brevVal ty v.a) ∧
    Delivers (.bfx ty f) .bin f (fun v => bfxVal ty v.a v.b) ∧
    Delivers (.bfi ty f) .tri f (fun v => bfiVal ty v.a v.b v.c) ∧
    Delivers (.sel ty f) .tri f (fun v => intOut ty (if v.c != 0 then v.a else v.b)) ∧
    Delivers (.mov ty f) .un f (fun v => intOut ty v.a) ∧
    (∀ sh, Delivers (.idx sh f) .tri f (fun v => v.a + v.b * BitVec.ofNat 64 (2 ^ sh.toNat) + v.c)) ∧
    (∀ c, Delivers (.cmp c ty f) .bin f (fun v => if condHolds c (intRead ty v.a) (intRead ty v.b) then 1 else 0))) ∧
  (∀ (s : State) (ch : Chord) (f : ImmFlds) (zx : Bool), s.focus = some ch → ch.mayIssue = true →
    exec (.imm zx f) s = .next (s.setFocus (((nkeys ch.lanes).foldl (fun c l =>
      c.deliver f.t0 l (if zx then f.imm.setWidth 64 else f.imm.signExtend 64)) ch).next 1)) ∧
    exec (.immh f) s = .next (s.setFocus (((nkeys ch.lanes).foldl (fun c l => c.deliver f.t0 l (f.imm ++ (0 : BitVec 32))) ch).next 1)))

/-- Tier 2. SHL, SHR, SAR, ROT, POPC, CLZ, CTZ, BREV, BFX and BFI execute whenever their operands are there and deliver
the results of R104 to R106. Within the n bits of the type: SHL puts bit i − s of A into bit i and zeros below, SHR
puts bit i + s into bit i and zeros above, SAR copies bit n − 1 down, and ROT takes bit (i − s) mod n; the count is
all of B, unsigned. CLZ gives a count k of zero bits at the top of the n-bit pattern such that bit n − 1 − k is 1
unless k is n; CTZ likewise from the bottom; bit i of BREV is bit n − 1 − i of A; POPC counts the positions that hold
a 1. With p = B[7:0] and w = B[15:8]: where p is at least n or w is 0, BFX gives 0 and BFI leaves A; otherwise the
field is cut at bit n − 1, BFX moves it down and extends it by the type, and BFI replaces it by the low bits of C.
Results are extended from n bits by the type. (R104, R105, R106) -/
def Obligations.ShiftAndCountBits : Prop :=
  (∀ (ty : IntTy) (f : Flds),
    Delivers (.shl ty f) .bin f (fun v => shlVal ty v.a v.b) ∧ Delivers (.shr ty f) .bin f (fun v => shrVal ty v.a v.b) ∧
    Delivers (.sar ty f) .bin f (fun v => sarVal ty v.a v.b) ∧ Delivers (.rot ty f) .bin f (fun v => rotVal ty v.a v.b) ∧
    Delivers (.popc ty f) .un f (fun v => popcVal ty v.a) ∧ Delivers (.clz ty f) .un f (fun v => clzVal ty v.a) ∧
    Delivers (.ctz ty f) .un f (fun v => ctzVal ty v.a) ∧ Delivers (.brev ty f) .un f (fun v => brevVal ty v.a) ∧
    Delivers (.bfx ty f) .bin f (fun v => bfxVal ty v.a v.b) ∧ Delivers (.bfi ty f) .tri f (fun v => bfiVal ty v.a v.b v.c)) ∧
  ∀ (ty : IntTy) (a b c : Word),
    (∀ i, i < intBits ty →
      (shlVal ty a b).getLsbD i = (decide (b.toNat ≤ i) && a.getLsbD (i - b.toNat)) ∧
      (shrVal ty a b).getLsbD i = (decide (i + b.toNat < intBits ty) && a.getLsbD (i + b.toNat)) ∧
      (sarVal ty a b).getLsbD i = a.getLsbD (min (i + b.toNat) (intBits ty - 1)) ∧
      (rotVal ty a b).getLsbD i = a.getLsbD ((i + intBits ty - b.toNat % intBits ty) % intBits ty)) ∧
    intOut ty (shlVal ty a b) = shlVal ty a b ∧ intOut ty (shrVal ty a b) = shrVal ty a b ∧
    intOut ty (sarVal ty a b) = sarVal ty a b ∧ intOut ty (rotVal ty a b) = rotVal ty a b ∧
    (clzVal ty a).toNat ≤ intBits ty ∧ (ctzVal ty a).toNat ≤ intBits ty ∧
    (∀ i, intBits ty - (clzVal ty a).toNat ≤ i → i < intBits ty → a.getLsbD i = false) ∧
    ((clzVal ty a).toNat < intBits ty → a.getLsbD (intBits ty - 1 - (clzVal ty a).toNat) = true) ∧
    (∀ i, i < (ctzVal ty a).toNat → a.getLsbD i = false) ∧
    ((ctzVal ty a).toNat < intBits ty → a.getLsbD (ctzVal ty a).toNat = true) ∧
    (∀ i, i < intBits ty → (brevVal ty a).getLsbD i = a.getLsbD (intBits ty - 1 - i)) ∧
    (popcVal ty a).toNat = ((List.range (intBits ty)).filter fun i => a.getLsbD i).length ∧
    intOut ty (brevVal ty a) = brevVal ty a ∧ intOut ty (bfxVal ty a b) = bfxVal ty a b ∧ intOut ty (bfiVal ty a b c) = bfiVal ty a b c ∧
    let p := b.toNat % 256
    let w := min (b.toNat / 256 % 256) (intBits ty - p)
    (w = 0 → bfxVal ty a b = 0 ∧ bfiVal ty a b c = intOut ty a) ∧
    ∀ i, i < intBits ty → w ≠ 0 →
      (bfxVal ty a b).getLsbD i = (if i < w then a.getLsbD (p + i) else intSigned ty && a.getLsbD (p + w - 1)) ∧
      (bfiVal ty a b c).getLsbD i = (if p ≤ i ∧ i < p + w then c.getLsbD (i - p) else a.getLsbD i)

/-- Tier 2. Over 64-bit patterns ADD, SUB and MUL are the operations modulo 2^64 under both signednesses, DIV and REM of a
nonzero divisor are the truncating division and remainder of the patterns, signed or unsigned, and a zero divisor
gives all ones and the dividend; a 32-bit type does the same with the low halves alone, whose 32-bit result is
extended by the type. (R101, R102) -/
def Obligations.DivisionPatterns : Prop :=
  ∀ a b : Word,
    let x : BitVec 32 := a.setWidth 32
    let y : BitVec 32 := b.setWidth 32
    (addVal .n64 a b = a + b ∧ addVal .i64 a b = a + b ∧ subVal .n64 a b = a - b ∧ subVal .i64 a b = a - b ∧
      mulVal .n64 a b = a * b ∧ mulVal .i64 a b = a * b) ∧
    (b ≠ 0 → divVal' .n64 a b = a / b ∧ remVal .n64 a b = a % b ∧ divVal' .i64 a b = a.sdiv b ∧ remVal .i64 a b = a.srem b) ∧
    (divVal' .n64 a 0 = BitVec.allOnes 64 ∧ divVal' .i64 a 0 = BitVec.allOnes 64 ∧ remVal .n64 a 0 = a ∧ remVal .i64 a 0 = a) ∧
    (addVal .n32 a b = (x + y).setWidth 64 ∧ addVal .i32 a b = (x + y).signExtend 64 ∧
      subVal .n32 a b = (x - y).setWidth 64 ∧ subVal .i32 a b = (x - y).signExtend 64 ∧
      mulVal .n32 a b = (x * y).setWidth 64 ∧ mulVal .i32 a b = (x * y).signExtend 64) ∧
    (y ≠ 0 → divVal' .n32 a b = (x / y).setWidth 64 ∧ remVal .n32 a b = (x % y).setWidth 64 ∧
      divVal' .i32 a b = (x.sdiv y).signExtend 64 ∧ remVal .i32 a b = (x.srem y).signExtend 64) ∧
    (y = 0 → divVal' .n32 a b = 0x00000000FFFFFFFF#64 ∧ divVal' .i32 a b = BitVec.allOnes 64 ∧
      remVal .n32 a b = x.setWidth 64 ∧ remVal .i32 a b = x.signExtend 64)

/-- Tier 2. After an instruction of the ALU kind under U = 0, each target's slot of each lane holds the result of that
lane's operands where the lane is selected, and the lane's A value (zero without one) where it is not; under U = 1
every lane holds the result of the lowest lane's operands. (R17, R21, R99, R205) -/
def Obligations.DeliveryInLanes : Prop :=
  ∀ (ch : Chord) (sh : Shape) (f : Flds) (op : Vals → Word) (ls : List (Nat × Lane × Vals)) (l : Nat) (x : Lane) (v : Vals) (t : Target),
    (f.t0 = some t ∨ f.t1 = some t) →
    (f.u = false → (l, x, v) ∈ ls → (∀ q ∈ ls, q.1 = l → q.2.2 = v) →
      (ch.alu sh f op ls).linkVal t.idx.toNat t.slot l = some (if selects f v then op v else passed sh v)) ∧
    (f.u = true → ls.head? = some (l, x, v) → ∀ k ∈ nkeys (ch.checked f ls).lanes,
      (ch.alu sh f op ls).linkVal t.idx.toNat t.slot k = some (if selects f v then op v else passed sh v))

/-- Tier 2. An instruction of the ALU kind changes nothing of the machine but its own chord, and nothing of its chord but
the delivered values, the next index and, under a uniformity check, the doom of a lane: no port, tag, HID or buffered
effect, no other chord, no memory, no context, no register. (R17, R100, 04_integer_instructions.md) -/
def Obligations.DeliveryFrame : Prop :=
  ∀ (i : Instr) (sh : Shape) (f : Flds) (op : Vals → Word), Delivers i sh f op →
    ∀ s ch ls t, s.ready sh f ch ls → exec i s = .next t →
      (∃ ch', t = s.setFocus ch' ∧ ch' = { ch with links := ch'.links, pc := ch.pc + 1, lanes := ch'.lanes } ∧
        (∀ l, (nget ch'.lanes l).isSome = (nget ch.lanes l).isSome) ∧
        ∀ l x, nget ch.lanes l = some x → ∃ x', nget ch'.lanes l = some x' ∧
          x' = { x with doom := x'.doom } ∧ (f.u = false → x'.doom = x.doom)) ∧
      (∀ c slot, (c, slot) ≠ (s.flow.focusCore, s.flow.focusSlot) → t.chord? c slot = s.chord? c slot) ∧
      (∀ a, mget t.homes.mem a = mget s.homes.mem a)

/-! ### Floating-point and conversion instructions -/

/-- Tier 1. FADD, FSUB, FMUL, FFMA, FDIV, FSQRT, FRND and FSCL execute whenever their operands are there and deliver the
exact value rounded once to the format under their mode; FMIN and FMAX deliver the chosen operand, FABS and FNEG the
operand with its sign cleared or flipped, and a NaN result is the canonical one. (R115, R116, R117, R118, R119, R120,
R123, R124) -/
def Obligations.FloatArithmetic : Prop :=
  ∀ (ft : FTy) (r : Rnd) (f : Flds),
    let t := fmtOfTy ft
    Delivers (.fadd ft r f) .bin f (fun v => fword (roundXF (FVal.add r (fval t f.a v.a) (fval t f.b v.b)) t r)) ∧
    Delivers (.fsub ft r f) .bin f (fun v => fword (roundXF (FVal.add r (fval t f.a v.a) (fval t f.b v.b).negate) t r)) ∧
    Delivers (.fmul ft r f) .bin f (fun v => fword (roundXF (FVal.mul (fval t f.a v.a) (fval t f.b v.b)) t r)) ∧
    Delivers (.ffma ft r f) .tri f (fun v =>
      fword (roundXF (FVal.add r (FVal.mul (fval t f.a v.a) (fval t f.b v.b)) (fval t f.c v.c)) t r)) ∧
    Delivers (.fmin ft f) .bin f (fun v =>
      fword (fminmax false t (fval t f.a v.a) (fval t f.b v.b) (fbits t f.a v.a) (fbits t f.b v.b))) ∧
    Delivers (.fmax ft f) .bin f (fun v =>
      fword (fminmax true t (fval t f.a v.a) (fval t f.b v.b) (fbits t f.a v.a) (fbits t f.b v.b))) ∧
    Delivers (.fabs ft f) .un f (fun v => fword (fsign false t (fval t f.a v.a) (fbits t f.a v.a))) ∧
    Delivers (.fneg ft f) .un f (fun v => fword (fsign true t (fval t f.a v.a) (fbits t f.a v.a))) ∧
    Delivers (.fdiv ft r f) .bin f (fun v =>
      let q := divVal (fval t f.a v.a) (fval t f.b v.b); fword (roundXFs q.1 t r false q.2)) ∧
    Delivers (.fsqrt ft r f) .un f (fun v => let q := sqrtVal (fval t f.a v.a); fword (roundXFs q.1 t r false q.2)) ∧
    Delivers (.frnd ft r f) .un f (fun v => fword (frndVal t r (fval t f.a v.a))) ∧
    Delivers (.fscl ft r f) .bin f (fun v => fword (fsclVal t r (fval t f.a v.a) (fbits t f.a v.a) v.b.toInt))

/-- Tier 1. FRCP, FRSQ, FEX2, FLG2, FSIN, FCOS and FTANH execute whenever their operand is there and deliver the
approximation of R125 and R126 (its low bits are free within the stated bound, assumption log 10); FCLS delivers the
class bit of R121, FCMP the truth of the condition of R122, ICVT the conversion of R129 and R130, and FCVT that of
R127 and R128. (R121, R122, R125, R126, R127, R128, R129, R130) -/
def Obligations.FloatConversions : Prop :=
  ∀ (ft : FTy) (r : Rnd) (f : Flds),
    Delivers (.frcp ft f) .un f (fun v => approxVal 0 ft f.a v.a) ∧
    Delivers (.frsq ft f) .un f (fun v => approxVal 1 ft f.a v.a) ∧
    Delivers (.fex2 ft f) .un f (fun v => approxVal 2 ft f.a v.a) ∧
    Delivers (.flg2 ft f) .un f (fun v => approxVal 3 ft f.a v.a) ∧
    Delivers (.fsin ft f) .un f (fun v => approxVal 4 ft f.a v.a) ∧
    Delivers (.fcos ft f) .un f (fun v => approxVal 5 ft f.a v.a) ∧
    Delivers (.ftanh ft f) .un f (fun v => approxVal 6 ft f.a v.a) ∧
    Delivers (.fcls ft f) .un f (fun v => fword (2 ^ classBit (fmtOfTy ft) (fval (fmtOfTy ft) f.a v.a))) ∧
    (∀ c, Delivers (.fcmp c ft f) .bin f
      (fun v => if fcondHolds c (fval (fmtOfTy ft) f.a v.a) (fval (fmtOfTy ft) f.b v.b) then 1 else 0)) ∧
    (∀ ty, Delivers (.icvt true ft ty r f) .un f (fun v => toIntVal ty r (fval (fmtOfTy ft) f.a v.a)) ∧
      Delivers (.icvt false ft ty r f) .un f (fun v => fword (roundXF (.ofInt (intRead ty v.a)) (fmtOfTy ft) r))) ∧
    (∀ src dst sat, Delivers (.fcvt src dst sat r f) .un f
      (fun v => fword (roundXF (fval (fmtOfCvt src) f.a v.a) (fmtOfCvt dst) r sat)))

/-- Tier 2. For an operand that is no NaN, FABS clears the top bit of the format and FNEG flips it, and every other bit
stays; a NaN gives the canonical NaN; of one NaN operand FMIN and FMAX give the other operand, and of −0 and +0 the
lesser is −0. (R119, R120) -/
def Obligations.FloatSigns : Prop :=
  ∀ (ft : FTy) (w : Word),
    let t := fmtOfTy ft
    let n := t.width
    let a := w.toNat % 2 ^ n
    let x := decodeFmt t a
    (x.isNaN = false → ∀ i, i < n →
      (fsign false t x a).testBit i = (decide (i ≠ n - 1) && a.testBit i) ∧
      (fsign true t x a).testBit i = (if i = n - 1 then !a.testBit i else a.testBit i)) ∧
    (x.isNaN = true → fsign false t x a = t.canonNaN ∧ fsign true t x a = t.canonNaN ∧
      ∀ y b, y.isNaN = false → fminmax false t x y a b = b ∧ fminmax true t x y a b = b ∧
        fminmax false t y x b a = b ∧ fminmax true t y x b a = b) ∧
    fminmax false t (decodeFmt t 0) (decodeFmt t (2 ^ (n - 1))) 0 (2 ^ (n - 1)) = 2 ^ (n - 1) ∧
    fminmax true t (decodeFmt t (2 ^ (n - 1))) (decodeFmt t 0) (2 ^ (n - 1)) 0 = 0

/-! ### Token, chord and system instructions -/

/-- Tier 1. SHFL, BCST, VOTE, MTCH, PRFX, REDU and TOPK execute whenever their operands are there in every lane, and
deliver in each selected lane the value that R145, R146 and R359 give over the selected lanes whose HID is the lane's
own or an ancestor of it. (R144, R145, R146, R359) -/
def Obligations.CrossLane : Prop :=
  ∀ f : Flds,
    (∀ op, Exchanges (.shfl op f) (.bin .n) f (shflVal op)) ∧
    Exchanges (.bcst f) (.bin .n) f bcstVal ∧
    (∀ op, Exchanges (.vote op f) (.un .n) f (voteVal op)) ∧
    Exchanges (.mtch f) (.un .n) f (fun vis _ v => laneMask ((vis.filter fun p => p.2.a == v.a).map (·.1))) ∧
    (∀ op, Exchanges (.prfx op f) (.un .n) f (fun vis l _ => scanVal op f.a ((vis.filter fun p => p.1 ≤ l).map (·.2.a)))) ∧
    (∀ op, Exchanges (.redu op f) (.un .n) f (fun vis _ _ => scanVal op f.a (vis.map (·.2.a)))) ∧
    Exchanges (.topk f) (.tri .n) f topkVal

/-- Tier 1. SEND buffers in each selected lane the token of R135 towards the core and package its ROUTE names, or traps there
with the PROTECTION or SPECULATIVE_ATOMIC of its checks; SPAWN does so with a fresh tag 0x8000_0000 + core × 2^23 + counter,
delivers the tag and advances the counter, in a lane that traps or is doomed too; LAUNCH buffers the launch of the graph
image at A with its parameters from the constant bank, or traps for an image outside window 0 (WINDOW), off 16 bytes
(MISALIGNED), or under a HID (SPECULATIVE_ATOMIC); DONE buffers a credit of A[31:0]. A destination page that R423 refuses counts
in SEC_DENIED. (The core 0 where R136 names none is the model's choice, assumption log 46.) (R133, R135, R136, R138, R140, R141, R143, R237, R421) -/
def Obligations.TokensSent : Prop :=
  (∀ (d : TokenDest) (f : Flds), CarriesOut (.send d f) (sendShape d) f 2 false fun ch s _ x v res s1 =>
    (s1 = s ∧ ∃ pkg core, SendsTo s ch x d (if d.ownTag then x.tag else v.b.setWidth 32) v.c pkg core ∧
      res = { effs := [.send (laneToken s ch x d (if d.ownTag then x.tag else v.b.setWidth 32) v.a pkg core) d.rel] }) ∨
    (s1 = s.denyRoute ch.ctx d v.c ∧ ∃ t, SendStops s ch x d v.c t ∧ res = .trapped t)) ∧
  (∀ (d : TokenDest) (f : Flds) (s : State) (ch : Chord) (ls : List (Nat × Lane × Vals)) (out : List (Nat × LaneRes)) (s1 : State),
    s.ready (spawnShape d) f ch ls →
    LanesKept (spawnShape d) f (fun s _ x v res s1 =>
      let c := s.flow.focusCore
      let tag : BitVec 32 := BitVec.ofNat 32 (0x80000000 + c * 2 ^ 23 + (s.spawnCtr c ch.key).toNat)
      let u := s.modCore c (fun k => { k with spawn := nput k.spawn ch.key (s.spawnCtr c ch.key + 1) })
      (s1 = u ∧ ∃ pkg core, SendsTo u ch x d tag v.c pkg core ∧
        res = { v0 := some (tag.setWidth 64), v1 := some (tag.setWidth 64),
                effs := [.send (laneToken u ch x d tag v.a pkg core) d.rel] }) ∨
      (s1 = u.denyRoute ch.ctx d v.c ∧ ∃ t, SendStops u ch x d v.c t ∧
        res = { v0 := some (tag.setWidth 64), v1 := some (tag.setWidth 64), trap := some t })) ls s out s1 →
    exec (.spawn d f) s = .next (s1.handedOn ch f 2 out)) ∧
  (∀ (w : LaunchWord) (f : Flds), CarriesOut (.launch w f) (.act2 .n) f 2 false fun ch s _ x v res s1 =>
    s1 = s ∧
    if v.a.extractLsb' 60 4 ≠ 0 then res = .trapped { cause := 0x05, addr := v.a }
    else if v.a.extractLsb' 0 4 ≠ 0 then res = .trapped { cause := 0x06, addr := v.a }
    else if x.hid ≠ 0 then res = .trapped { cause := 0x0F }
    else res = .eff (.launch {
      ctx := ch.ctx, image := v.a, entry := w.entry.toNat, payload := v.b,
      params := (List.range w.pcount.toNat).map (fun n => wordAt (s.consts ch) (w.pfirst.toNat + n)),
      count := w.ccount.toNat + 1, launcher := some ch.act, notify := if w.cen then some (w.cblock, w.cport, x.tag) else none,
      host := none, pkg := s.pkg })) ∧
  (∀ f : Flds, CarriesOut (.doneCredit f) (.act1 .y) f 1 false
    (gives fun _ _ _ _ v => { effs := [.credit (v.a.toNat % 2 ^ 32)] }))

/-- Tier 1. SRD delivers the register its word names; SWR of the only system register traps with PROTECTION in every lane,
since programs may not write it (R244); NOP delivers nothing; TRAP and BRK raise SOFTWARE with code A[15:0] and
BREAKPOINT; TRET and KILL of a handle that names an instance parked in the context's fault queue buffer its return or
its end, and trap with PROTECTION for any other. (R147, R148, R149, R150, R151, R244) -/
def Obligations.SystemInstructions : Prop :=
  (∀ (r : Reg) (f : Flds), CarriesOut (.srd r f) srdShape f 2 false (gives fun s ch l x _ => .val (match r with
    | .lane => BitVec.ofNat 64 l
    | .tag => x.tag.setWidth 64
    | .act => ch.act.setWidth 64
    | .core => BitVec.ofNat 64 s.flow.focusCore
    | .pkg => s.pkg.setWidth 64
    | .step => (s.ctx ch.ctx).step.setWidth 64
    | .hid => x.hid.setWidth 64
    | .bankrole => (s.core s.flow.focusCore).roles))) ∧
  (∀ (r : Reg) (f : Flds), CarriesOut (.swr r f) (.act1 .r) f 2 false (gives fun _ _ _ _ _ => .trapped { cause := 0x08 })) ∧
  (∀ f : Flds, CarriesOut (.nop f) (.none .n) f 1 false (gives fun _ _ _ _ _ => {})) ∧
  (∀ f : Flds, CarriesOut (.trap f) (.act1 .n) f 1 false
    (gives fun _ _ _ _ v => .trapped { cause := 0x12, code := v.a.setWidth 16 })) ∧
  (∀ f : Flds, CarriesOut (.brk f) (.none .n) f 1 false (gives fun _ _ _ _ _ => .trapped { cause := 0x13 })) ∧
  (∀ f : Flds, CarriesOut (.tret f) (.act1 .n) f 1 false (gives fun s ch _ _ v => match s.parkedHandle ch.ctx v.a with
    | some (c, j) => { effs := [.tret c j] }
    | none => .trapped { cause := 0x08 })) ∧
  (∀ f : Flds, CarriesOut (.kill f) (.act1 .n) f 1 false (gives fun s ch _ _ v => match s.parkedHandle ch.ctx v.a with
    | some (c, j) => { effs := [.kill c j] }
    | none => .trapped { cause := 0x08 }))

/-! ### Memory, atomic, update, compaction and frame instructions -/

/-- Tier 1. LD of A + B checks the access (R157), reads the bytes where R156 and R158 find them and delivers their value;
LDT does the same and sends the value as a token; LD.acq first lets the core's copies of the lines go and its accepted
writes land (R214), then reads at the home: at scope .core at once and without acquiring, wherever the home is, at the
wider scopes by a request that the home answers with a signature, even where the lane's own stores give every byte; one
whose value comes from elsewhere orders the chord's later instructions behind it at every scope.
Bytes of another package or the host are asked for whole, with those that the lane stored itself. (R156, R157, R158,
R160, R162, R163, R214, R224) -/
def Obligations.LoadInstructions : Prop :=
  (∀ (sz : Size) (f : Flds), CarriesOut (.ld sz f) .bin f 1 true fun ch s _ x v res s1 =>
    Loads s ch x (sizeFin sz) (v.a + v.b) res s1) ∧
  (∀ (sz : Size) (d : TokenDest) (f : Flds), CarriesOut (.ldt sz d f) (.act2 .n) f 2 true fun ch s _ x v res s1 =>
    ∃ r, Loads s ch x (sizeFin sz) (v.a + v.b) r s1 ∧
      (r.trap.isSome = true → res = r) ∧
      (r.trap = none → (∃ pkg core, SendsTo s1 ch x d x.tag 0 pkg core ∧
        res = { v0 := some 0, v1 := some 0, effs := [.send (laneToken s1 ch x d x.tag (r.v0.getD 0) pkg core) false],
                wait := r.wait.map fun w => { w with ldt := true } }) ∨
        ∃ t, SendStops s1 ch x d 0 t ∧ res = .trapped t)) ∧
  (∀ (sc : Scope) (sz : Size) (f : Flds), CarriesOut (.ldAcq sc sz f) .bin f 1 true fun ch s _ x v res s1 =>
    let n := (sizeFin sz).bytes
    (s.access ch x (v.a + v.b) n n .read true false).thenDo (fun pl s2 res s1 =>
      ∃ s3, s2.clearOwn s.flow.focusCore pl = some s3 ∧
      match pl with
      | .home pa _ slot :: _ =>
        if sc = .core then
          let vs := s3.homeView ch.ctx x.hid pl
          let s4 := s3.enterPlaces pl
          if vs.any (·.2) = true then res = .trapped { cause := 0x11, addr := v.a + v.b } ∧ s1 = s4
          else HandsOn s4 ch x (sizeFin sz) pl (vs.map fun b => some b.1) (v.a + v.b) false res s1
        else
          let w := s3.newId
          let who : ReplyTo := { core := s.flow.focusCore, slot := s3.flow.focusSlot, wait := w.1 }
          s1 = w.2.modSlice (homeSlice (lineOf pa)) (fun sl =>
            { sl with acqQ := sl.acqQ ++ [{ pa, slot, len := n, ctx := ch.ctx, hid := x.hid, reply := some who }] }) ∧
          res = { v0 := none, v1 := none, wait := some { id := w.1, idx := 0, lanes := [], fin := sizeFin sz,
                                                         got := overlay x pl (pl.map fun _ => none), t0 := none, t1 := none,
                                                         acquire := true, gate := true, addr := v.a + v.b } }
      | _ => ∃ r, HandsOn s3 ch x (sizeFin sz) pl (pl.map fun _ => none) (v.a + v.b) (sc != .core) r s1 ∧
          res = { r with wait := r.wait.map fun w => { w with order := true } }) res s1)

/-- Tier 1. ST and ST.rel check their access and buffer the bytes they write, ST under a HID with the line reservations it
obtained or waits for; a posted ATOM and UPD check theirs and buffer the operation; on host memory UPD traps with
HOST_ATOMIC, and so does an operation that no host path carries (R414). (R157, R161, R162, R164, R168, R383, R414) -/
def Obligations.Stores : Prop :=
  (∀ (sz : StSize) (f : Flds), CarriesOut (.st sz f) (stShape sz) f 1 true fun ch s l x v res s1 =>
    (s.access ch x v.a (stBytes sz) (if stBytes sz = 16 then 16 else 1) .write false false).thenDo (fun pl s2 res s1 =>
      let r := s2.reserveAll ch ch.pc l x v.a pl
      res = { effs := [.store x.hid (pl.zip (bytesOfWord v.b ++ bytesOfWord v.c))], specs := r.1 } ∧ s1 = r.2 ∧
      (x.hid = 0 → r = ([], s2))) res s1) ∧
  (∀ (sc : Scope) (sz : StSize) (f : Flds), CarriesOut (.stRel sc sz f) (.act2 .n) f 1 true fun ch s _ x v res s1 =>
    (s.access ch x v.a (stBytes sz) (stBytes sz) .write true true).thenDo (fun pl s2 res s1 =>
      res = .eff (.storeRel (pl.zip (bytesOfWord v.b)) sc) ∧ s1 = s2) res s1) ∧
  (∀ (sz : AtSize) (w : AtomWord) (f : Flds), f.t0 = none → f.t1 = none →
    CarriesOut (.atom sz w f) (atomShape w) f 2 true fun ch s _ x v res s1 =>
      (s.access ch x v.a (atBytes sz) (atBytes sz) .rw true true).thenDo (fun pl s2 res s1 =>
        s1 = s2 ∧ ∃ p r, pl = p :: r ∧
        match p, hostAtomicFault s2 w.op sz with
        | .host _, some reason => res = .trapped { cause := 0x10, reason, addr := v.a }
        | p, _ => res = .eff (.atomPost p { pa := 0, size := sz, op := w.op, x := v.b, c := v.c, pkg := s2.pkg,
                                             core := s2.flow.focusCore, ctx := ch.ctx,
                                             sync := { ord := w.ord, scope := w.scope },
                                             direct := hostPath s2 w.op sz == some true })) res s1) ∧
  (∀ (sz : AtSize) (w : UpdWord) (f : Flds), CarriesOut (.upd sz w f) (.act2 .n) f 2 true fun ch s _ x v res s1 =>
    (s.access ch x v.a (atBytes sz) (atBytes sz) .rw true true).thenDo (fun pl s2 res s1 =>
      s1 = s2 ∧ ∃ p r, pl = p :: r ∧
      match p with
      | .host _ => res = .trapped { cause := 0x10, reason := 0, addr := v.a }
      | p => res = .eff (.upd p { pa := 0, size := sz, op := updOp w.op, isUpd := true, ord := w.ord, x := v.b,
                                   pkg := s2.pkg, core := s2.flow.focusCore, ctx := ch.ctx })) res s1)

/-- Tier 1. An ATOM with a target checks its access, releases first where its order asks for it (R222), lets the core's
copies of the line go, and sends the operation to the home of the package, to the package that holds the memory or to
the host, as an AtomicOp or as the loop over a compare and swap; the lane's targets wait for the answer. With .acq or
.ar the chord issues nothing before the answer, and beyond scope .core the answer is acquired before any later chord of
the core fires (R167, R222, R224); one that leaves the package is among what the core is owed (R217). (R157, R164, R165, R166, R167, R214, R222, R414) -/
def Obligations.Atomics : Prop :=
  ∀ (sz : AtSize) (w : AtomWord) (f : Flds), (f.t0 ≠ none ∨ f.t1 ≠ none) →
    CarriesOut (.atom sz w f) (atomShape w) f 2 true fun ch s _ x v res s1 =>
      (s.access ch x v.a (atBytes sz) (atBytes sz) .rw true true).thenDo (fun pl s2 res s1 =>
        let k := s2.flow.focusCore
        let rel := w.ord = .rel ∨ w.ord = .ar
        let acq := (w.ord == .acq || w.ord == .ar) && w.scope != .core
        let noAcks := (s2.core k).acks = []
        match pl with
        | [] => False
        | p :: _ =>
          match p, hostAtomicFault s2 w.op sz with
          | .host _, some reason => res = .trapped { cause := 0x10, reason, addr := v.a } ∧ s1 = s2
          | p, _ => ∃ s3 s4, s3.clearOwn k pl = some s4 ∧
            (¬rel → s3 = s2) ∧
            (rel → match p with
              | .host _ => noAcks ∧ ∃ s5, s2.flushDirty k = some s5 ∧ s5.settle k = some s3
              | _ => if w.scope = .core then s3 = s2 else (w.scope = .sys → noAcks) ∧ s2.settle k = some s3) ∧
            let id := s4.newId
            let id2 := id.2.newId
            let owes : State := id2.2.modCore k fun y => { y with atoms := y.atoms ++ [id2.1] }
            let who : ReplyTo := { core := k, slot := s4.flow.focusSlot, wait := id.1 }
            res = { v0 := none, v1 := none, atomf := true, wait := some { id := id.1, idx := 0, lanes := [], fin := atFin sz,
                                                                          got := List.replicate (atBytes sz) none, t0 := none,
                                                                          t1 := none, acquire := acq,
                                                                          order := w.ord == .acq || w.ord == .ar,
                                                                          gate := acq && pl.all (!·.host?), addr := v.a, atomf := true } } ∧
            match p with
            | .home pa _ slot => s1 = id.2.modSlice (homeSlice (lineOf pa)) (fun sl =>
                { sl with inq := sl.inq ++ [{ pa, slot, size := sz, op := w.op, x := v.b, c := v.c, pkg := id.2.pkg, core := k,
                                              ctx := ch.ctx, sync := { ord := w.ord, scope := w.scope }, reply := some who }] })
            | .remote pkg pa key sec => s1 = owes.sendAccess pkg k
                { what := 2, srcPkg := id2.2.pkg, srcCore := BitVec.ofNat 8 k, ctx := ch.ctx, id := id2.1, pa, len := atBytes sz, key, sec,
                  data := v.b.setWidth 1024, cmp := v.c, size := sz, op := w.op, ord := false,
                  sync := if w.scope = .core then .none else w.ord } (.load who 0 (atBytes sz))
            | .host a =>
                if hostPath owes w.op sz = some true then
                  s1 = owes.sendHost ch.ctx id2.1 (.atomic w.op a (atBytes sz) v.b v.c id2.1) (.load who 0 (atBytes sz))
                else
                  let s5 := owes.sendHost ch.ctx id2.1 (.read (a / 8 * 8) 8 id2.1) (.load who 0 (atBytes sz))
                  s1 = { s5 with host := { s5.host with cas := s5.host.cas ++ [{
                    id := id2.1, word := a / 8 * 8, off := a % 8, size := sz, op := w.op, x := v.b, c := v.c, old := 0, started := false }] } }
            | .sram .. => s1 = id.2
            | .given _ => s1 = id.2) res s1

/-- Tier 1. FENCE first completes what the core committed, at its scope, and under .sys waits for the acknowledgements
outstanding, then buffers the fence; PREF.l1 asks for a fill of a cacheable line the context may read and otherwise
does nothing; CCTL buffers its operation on such a line, or nothing; BCINV buffers the range, or the whole block cache
where the range leaves window 0. (R170, R171, R172, R173) -/
def Obligations.FencesAndHints : Prop :=
  (∀ (sc : Scope) (f : Flds), CarriesOut (.fence sc f) fenceShape f 1 true fun _ s _ _ _ res s1 =>
    ∃ s2, s.complete s.flow.focusCore sc = some s2 ∧
      if sc = .sys ∧ (s2.core s2.flow.focusCore).acks ≠ [] then
        s1 = s2.newId.2 ∧
        res = { effs := [.fence sc], wait := some { id := s2.newId.1, idx := 0, lanes := [], fin := { bytes := 0 }, got := [],
                                                    t0 := none, t1 := none, acquire := true,
                                                    acks := (s2.core s2.flow.focusCore).acks } }
      else s1 = s2 ∧ res = .eff (.fence sc)) ∧
  (∀ (lv : PrefLevel) (f : Flds), CarriesOut (.pref lv f) (.act1 .y) f 1 false fun ch s _ x v res s1 =>
    res = .val 0 ∧ match lv, hintPlace s ch v.a with
      | .l1, some (pa, true, slot) => s1 = s.modCore s.flow.focusCore (fun k =>
          { k with fills := k.fills ++ [{ line := lineOf pa, slot, ctx := if x.hid = 0 then 0 else ch.ctx, hid := x.hid }] })
      | _, _ => s1 = s) ∧
  (∀ (op : CctlOp) (f : Flds), CarriesOut (.cctl op f) (.act1 .y) f 1 false (gives fun s ch _ _ v => match hintPlace s ch v.a with
    | some (pa, _, _) => .eff (.cctl op pa)
    | none => .val 0)) ∧
  (∀ f : Flds, CarriesOut (.bcinv f) bcinvShape f 1 false (gives fun _ _ _ _ v =>
    if v.a.toNat + v.b.toNat ≤ 2 ^ 57 then .eff (.bcinv v.a.toNat v.b.toNat)
    else if v.b = 0 then .val 0 else .eff (.bcinv 0 (2 ^ 64))))

/-- Tier 1. FRMA of n from 1 to 64 takes some run of n free frames of its core (which one is free, assumption log 11),
clears their bytes, records the allocation under a name of its own and delivers the handle of the first; with no such
run, or n out of range, it delivers 0. FRMF of a handle that names the first byte of a live allocation of the context
buffers the release of that allocation, and traps with PROTECTION for any other. (R174, R175) -/
def Obligations.FrameHeap : Prop :=
  (∀ f : Flds, CarriesOut (.frma f) frmaShape f 1 false fun ch s _ _ v res s1 =>
    let c := s.flow.focusCore
    let n := v.a.toNat
    let runs := (s.core c).freeRuns n
    ((n = 0 ∨ 64 < n ∨ runs = []) → res = .val 0 ∧ s1 = s) ∧
    (1 ≤ n → n ≤ 64 → ∀ r rs, runs = r :: rs → ∃ j ∈ runs,
      j = runs[Config.pick s.flow.freeCtr % runs.length]?.getD 0 ∧
      res = { LaneRes.val (frameHandle c j) with frma := [s.bump.newId.1] } ∧
      s1 = s.bump.newId.2.modCore c (fun k =>
        { k.zeroFrames j n with allocs := k.allocs ++ [{ id := s.bump.newId.1, ctx := ch.ctx, act := ch.act, first := j, count := n }] }))) ∧
  (∀ f : Flds, CarriesOut (.frmf f) frmfShape f 1 false (gives fun s ch _ _ v => match handleFrame v.a with
    | some (c, j) => match (s.core c).allocs.find? fun a => a.ctx == ch.ctx && a.first == j with
      | some a => .eff (.frmf c a.id)
      | none => .trapped { cause := 0x08, addr := v.a }
    | none => .trapped { cause := 0x08, addr := v.a }))

/-- Tier 2. FRMA's candidates are exactly the j such that frames j to j + n − 1 exist and are free; clearing them makes
every byte of their 128-byte spans read zero and leaves every other byte of the SRAM alone. (R174, R247,
13_memory_hierarchy.md) -/
def Obligations.FrameRuns : Prop :=
  ∀ (k : Core) (n j : Nat), 1 ≤ n →
    (j ∈ k.freeRuns n ↔ j + n ≤ k.frames ∧ ∀ i, i < n → k.frameFree (j + i) = true) ∧
    (∀ a, mget (k.zeroFrames j n).sram a =
      if (List.range n).any (fun i => decide (k.frameAddr (j + i) ≤ a ∧ a < k.frameAddr (j + i) + 128)) = true then 0 else mget k.sram a)

/-- Tier 1. CMPK checks the 32-byte header of each selected lane and makes one claim for each distinct header address, its
lanes lowest first, each once the one before it has been answered; a lane whose check fails delivers all ones with its
trap, and one that is not selected its A. With one selected lane whose header is homed in the package the claim enters
the update unit there, and with its header on another package it is asked of that home; the lane waits for its
position. (The request that asks it, of kind 13 and 32 bytes, is the choice of assumption log 15; that the writes of
the core land first is that of log 19.) (R176, R177, R178, R225, R238) -/
def Obligations.Compaction : Prop :=
  (∀ (sz : AtSize) (w : CmpkWord) (f : Flds) (s : State) (ch : Chord) (ls : List (Nat × Lane × Vals)) (cs : List (Nat × CmpkLane))
      (s1 : State) (ch2 : Chord) (s2 : State),
    s.ready (.bin .n) f ch ls → ch.claimQ = none → cmpkLanes ch f ls s = some (cs, s1) →
    s1.claimNext (ch.putChecked f cs) w sz f (cmpkGroups cs) = some (ch2, s2) →
    exec (.cmpk sz w f) s = .next (s2.setFocus ch2)) ∧
  (∀ (sz : AtSize) (w : CmpkWord) (f : Flds) (s : State) (ch : Chord) (q : List (Word × List Place × List ClaimLane)) (ch2 : Chord) (s2 : State),
    s.focus = some ch → ch.mayIssue = true → ch.claimQ = some q → s.claimNext ch w sz f q = some (ch2, s2) →
    exec (.cmpk sz w f) s = .next (s2.setFocus ch2)) ∧
  (∀ (sz : AtSize) (w : CmpkWord) (f : Flds) (s : State) (ch : Chord) (l : Nat) (x : Lane) (v : Vals) (pl : List Place) (s1 : State)
      (r : List Place),
    s.ready (.bin .n) f ch [(l, x, v)] → ch.claimQ = none → selects f v = true → x.doom = none →
    s.access ch x v.b 32 32 .write true true = .ok pl s1 →
    let c := s1.flow.focusCore
    let id := s1.newId
    let who : ReplyTo := { core := c, slot := id.2.flow.focusSlot, wait := id.1 }
    let after : Chord := Chord.next { ch with waits := ch.waits ++ [{
      id := id.1, idx := ch.pc, lanes := [l], fin := { bytes := 8 }, got := [none], t0 := f.t0, t1 := f.t1, addr := v.b, atomf := true }] } 2
    let u : UEnt := { pa := 0, size := sz, pkg := id.2.pkg, core := c, ctx := ch.ctx,
                      claim := some (w, [{ lane := l, tag := x.tag, data := v.a }], v.b), reply := some who }
    (∀ pa cache slot s2, pl = .home pa cache slot :: r → id.2.clearOwn c pl = some s2 →
      exec (.cmpk sz w f) s = .next ((s2.modSlice (homeSlice (lineOf pa)) (fun sl =>
        { sl with inq := sl.inq ++ [{ u with pa, slot }] })).setFocus after)) ∧
    (∀ pkg pa key sec, pl = .remote pkg pa key sec :: r →
      let n := id.2.newId
      ∃ q : RemoteReq, q.what = 13 ∧ q.srcPkg = n.2.pkg ∧ q.srcCore = BitVec.ofNat 8 c ∧ q.ctx = ch.ctx ∧ q.id = n.1 ∧ q.pa = pa ∧ q.len = 32 ∧
        q.key = key ∧ q.sec = sec ∧ exec (.cmpk sz w f) s = .next (((n.2.modCore c fun k => { k with atoms := k.atoms ++ [n.1] }).sendAccess pkg c q
          (.claim { u with pa, slot := key } pl)).setFocus after)))

/-- Tier 2. The lanes of a claim come out in the order they went in; the positions handed out are consecutive from COUNT
up, each is below BOUND, and the count left behind is the first position not handed out. (R178) -/
def Obligations.ClaimPositions : Prop :=
  ∀ core ch i w sz (h : CmpkHdr) addr holes (ls : List ClaimLane) q s rs q' s',
    claimLanes core ch i w sz h addr holes ls q s = some (rs, q', s') →
    rs.map (·.1) = ls.map (·.lane) ∧ q ≤ q' ∧
    rs.filterMap (fun p => match p.2 with
      | .at_ j _ => some j
      | .trap _ => none) = List.range' q (q' - q) ∧
    (q < q' → q' ≤ h.bound)

/-- Tier 2. A byte outside the windows gives WINDOW, then a misaligned address MISALIGNED, then under a HID a store
outside window 0 or an atomic SPECULATIVE_ATOMIC; only then come the checks of pages and of SRAM; and a passed access
has one place for every byte and changes no more than the cached translations of the core and of the package, and the
model's count of free choices (assumption log 11). (R153, R154, R155, R157) -/
def Obligations.AccessOrder : Prop :=
  ∀ (s : State) (core : Nat) (w : Who) (a : Word) (n align : Nat) (k : AccKind) (only0 atomic : Bool),
    (windowOk core only0 a n = false → s.check core w a n align k only0 atomic = .trap { cause := 0x05, addr := a } s) ∧
    (windowOk core only0 a n = true → a.toNat % align ≠ 0 → s.check core w a n align k only0 atomic = .trap { cause := 0x06, addr := a } s) ∧
    (windowOk core only0 a n = true → a.toNat % align = 0 → w.hid ≠ 0 → (atomic = true ∨ k.writes = true ∧ a.toNat / 2 ^ 60 ≠ 0) →
      s.check core w a n align k only0 atomic = .trap { cause := 0x0F, addr := a } s) ∧
    (∀ pl s', s.check core w a n align k only0 atomic = .ok pl s' → windowOk core only0 a n = true ∧ a.toNat % align = 0 ∧
      pl.length = n ∧
      s' = { s with cores := s'.cores, flow := { s.flow with freeCtr := s'.flow.freeCtr },
                    xlt := { s.xlt with leaves := s'.xlt.leaves, nonLeaves := s'.xlt.nonLeaves } } ∧
      ∀ c, { s'.core c with utlb := [] } = { s.core c with utlb := [] })

/-! ### Ring, stream and copy instructions -/

/-- Tier 1. RGET delivers the element that its position names in the slot so far from HEAD, RPUT buffers one for the slot
so far from TAIL, each after the checks 0x41, 0x43 and 0x44 in that order, and RGET of an uncorrectable element traps
with ECC; RSTAT delivers the ring's status word, 0 where none is bound; RBIND reads its descriptor and buffers the
binding with the address of the ring's first byte as its value, or traps for a bad descriptor with 0x40, 0x41 or 0x42
as the chord's earlier effects leave the rings, and where the descriptor lies beyond the package it is asked for at its
home, whose answer may trap; RUNB, RADV and RWAIT buffer their chord effects. (That RBIND under a HID traps before its
descriptor is read is the model's choice, assumption log 46.) (R238, R265, R266, R268, R269, R270, R271, R272) -/
def Obligations.RingInstructions : Prop :=
  (∀ f : Flds, CarriesOut (.rbind f) (ringShape .r true false true) f 1 false fun ch s _ x v res s1 =>
    let ring := immNat f.a
    ((∃ p ∈ ch.lanes, p.2.hid ≠ 0) → res = .trapped { cause := 0x0F } ∧ s1 = s) ∧
    ((∀ p ∈ ch.lanes, p.2.hid = 0) → (s.access ch x v.b 8 16 .read true false).thenDo (fun pl s2 res s1 =>
      let who := laneWho s ch ch.pc x 0
      match s2.seek who pl with
      | .later u => (res, s1) = awaitRead u who
      | .fails t => res = .trapped { t with addr := v.b } ∧ s1 = s2.forgetJob who
      | .got gl => ∃ got bad s3, readPlaces s2.flow.focusCore ch.ctx x.hid gl s2 = some ((got, bad), s3) ∧
        let u := (s3.forgetJob who).bump
        let word := wordOfBytes ((overlay x pl got).map (·.getD 0))
        (bad = true → res = .trapped { cause := 0x11, addr := v.b } ∧ s1 = s3.forgetJob who) ∧
        (bad = false → ∀ d, RingDesc.ofWord word = some d →
          let k := u.core u.flow.focusCore
          let first := ((k.plans.find? fun p => p.actKey == ch.key && p.num == ring).map (·.first)).getD 0
          ChordEffect u ch (.rbind ring d) (BitVec.ofNat 64 (2 * 2 ^ 60 + first * 131072 + d.base)) res s1) ∧
        (bad = false → RingDesc.ofWord word = none →
          let k := (u.afterChordEffs u.flow.focusCore ch (u.consts ch)).core u.flow.focusCore
          s1 = u ∧ ∃ reason, res = .trapped (protAt reason ring) ∧
            (reason = 0x40 ∧ (∀ p ∈ k.plans, ¬(p.actKey = ch.key ∧ p.num = ring)) ∨
             reason = 0x41 ∧ (∃ p ∈ k.plans, p.actKey = ch.key ∧ p.num = ring) ∧ k.ring? ch.key ring ≠ none ∨
             reason = 0x42 ∧ (∃ p ∈ k.plans, p.actKey = ch.key ∧ p.num = ring) ∧ k.ring? ch.key ring = none))) res s1)) ∧
  (∀ f : Flds, CarriesOut (.runb f) (ringShape .r false false false) f 1 false fun ch s _ _ _ => ChordEffect s ch (.runb (immNat f.a)) 0) ∧
  (∀ f : Flds, CarriesOut (.rget f) (ringShape .n true false true) f 1 false (gives fun s ch _ _ v =>
    let k := s.core s.flow.focusCore
    match k.boundRing ch.key (immNat f.a) with
    | .error t => .trapped t
    | .ok r =>
      if r.cons ≠ .program then .trapped (protAt 0x43 (immNat f.a)) else match posOf r v.b r.filled with
        | .error t => .trapped t
        | .ok (e, sl) =>
          let slot := (r.head.toNat + sl) % r.desc.depth
          if k.badElem r slot e = true then .trapped { cause := 0x11, aux := 2 } else .val (BitVec.ofNat 64 (k.elem r slot e)))) ∧
  (∀ f : Flds, CarriesOut (.rput f) (ringShape .n true true false) f 1 false (gives fun s ch _ x v =>
    match (s.core s.flow.focusCore).boundRing ch.key (immNat f.a) with
    | .error t => .trapped t
    | .ok r =>
      if r.prod ≠ .program then .trapped (protAt 0x43 (immNat f.a)) else match posOf r v.b r.free with
        | .error t => .trapped t
        | .ok (e, sl) => if x.hid ≠ 0 then .trapped { cause := 0x0F }
          else .eff (.rput (immNat f.a) ((r.tail.toNat + sl) % r.desc.depth) e v.c))) ∧
  (∀ (tail : Bool) (f : Flds), CarriesOut (.radv tail f) (ringShape .r true false false) f 1 false fun ch s _ _ v =>
    ChordEffect s ch (.radv tail (immNat f.a) v.b.toNat) 0) ∧
  (∀ (free : Bool) (d : TokenDest) (f : Flds), CarriesOut (.rwait free d f) (ringShape .r true false false) f 2 false fun ch s _ _ v =>
    ChordEffect s ch (.rwait free (immNat f.a) v.b.toNat d) 0) ∧
  (∀ f : Flds, CarriesOut (.rstat f) (ringShape .y false false true) f 1 false (gives fun s ch _ _ _ =>
    match (s.core s.flow.focusCore).ring? ch.key (immNat f.a) with
    | some r => .val (BitVec.ofNat 64 (r.head.toNat + r.filled * 2 ^ 32 + r.desc.depth * 2 ^ 39 + sideCode r.prod * 2 ^ 46
        + sideCode r.cons * 2 ^ 48 + (if r.wFilled.isSome then 2 ^ 50 else 0) + (if r.wFree.isSome then 2 ^ 51 else 0) + 2 ^ 52))
    | none => .val 0))

/-- Tier 2. RBIND of an unscaled ring stands when the ring is in the plan, not bound, and its slots fit in its banks; RUNB
when it is bound, both its sides are the program's and no other ring names it as its scale ring; RADV of n when the
side it moves is the program's and n slots are filled, or free; RWAIT of n when no watch of its kind is set and n is
from 1 to DEPTH. (R266, R268, R269, R271, R272) -/
def Obligations.RingConditions : Prop :=
  ∀ (k : Core) (key num : Nat) (ks : List Word),
    (∀ d, d.scaled = false → (effBreach k key ks (.rbind num d) = none ↔
      ∃ p, k.plans.find? (fun p => p.actKey == key && p.num == num) = some p ∧ k.ring? key num = none ∧
        d.base + d.depth * d.slotBytes ≤ p.banks * 131072)) ∧
    (effBreach k key ks (.runb num) = none ↔ ∃ r, k.ring? key num = some r ∧ r.prod = .program ∧ r.cons = .program ∧
      ∀ q ∈ k.rings, q.actKey = key → q.desc.scaled = true → q.desc.sring ≠ num) ∧
    (∀ n, effBreach k key ks (.radv true num n) = none ↔ ∃ r, k.ring? key num = some r ∧ r.prod = .program ∧ n ≤ r.free) ∧
    (∀ n, effBreach k key ks (.radv false num n) = none ↔ ∃ r, k.ring? key num = some r ∧ r.cons = .program ∧ n ≤ r.filled) ∧
    (∀ n d, effBreach k key ks (.rwait true num n d) = none ↔ ∃ r, k.ring? key num = some r ∧ r.wFree = none ∧ 1 ≤ n ∧ n ≤ r.desc.depth) ∧
    (∀ n d, effBreach k key ks (.rwait false num n d) = none ↔ ∃ r, k.ring? key num = some r ∧ r.wFilled = none ∧ 1 ≤ n ∧ n ≤ r.desc.depth)

/-- Tier 2. In a memory in canonical form, writing the code of element e of a slot of any element width and then reading
element e gives the code, cut to the width; reading any other element of the slot gives what it gave before; no byte
outside the element's own bytes changes; and the bytes it writes whole are good again (R343). (R73, R263, R270, R343) -/
def Obligations.RingElements : Prop :=
  ∀ (k : Core) (addr w e e' code : Nat), Memory.wf k.sram = true → w ∈ [4, 8, 16, 32, 64] →
    let t := k.writeElem addr w e code
    readElem t.sram addr w e' = (if e' = e then code % 2 ^ w else readElem k.sram addr w e') ∧ Memory.wf t.sram = true ∧
    (∀ a, (a < addr + e * w / 8 ∨ addr + (e * w + w - 1) / 8 < a) → mget t.sram a = mget k.sram a) ∧
    (∀ a, a ∈ t.bad ↔ a ∈ k.bad ∧ (w = 4 ∨ a < addr + e * w / 8 ∨ addr + (e * w + w - 1) / 8 < a)) ∧
    t = { k with sram := t.sram, bad := t.bad }

/-- Tier 1. STRM and STRMW check window and alignment of the base and buffer the start of the stream as a chord effect;
STRMQ delivers the stream's status, 0 for no stream; STRMC and CPYC buffer the cancellation; CPY checks its pattern,
takes the least loaded engine of the context's world, delivers the handle and buffers the copy, and traps in every
lane under a hypothesis, under U as well, where one copy serves the other lanes; CPYQ delivers the copy's status word.
(That STRM and STRMW look at the lanes' HIDs before window and alignment, what a uniform CPY does over lanes of
different HIDs, and that a stream's handle is looked for in the chord's own activation first, are the model's choices,
assumption log 46.) (R205, R266, R275, R278, R279, R280, R281) -/
def Obligations.StreamInstructions : Prop :=
  (∀ (out : Bool) (w : StreamWord) (f : Flds), CarriesOut (if out then Instr.strmw w f else .strm w f) (ringShape .r true false false) f 2 false
    fun ch s _ _ v res s1 =>
    let width := (((s.afterChordEffs s.flow.focusCore ch (s.consts ch)).core s.flow.focusCore).ring? ch.key (immNat f.a)).elim 8
      (fun r => r.desc.width)
    if v.b.toNat < 2 ^ 57 ∧ v.b.toNat % max 1 (width / 8) = 0 ∨ (∃ p ∈ ch.lanes, p.2.hid ≠ 0)
    then ChordEffect s ch (.strm out (immNat f.a) v.b w) 0 res s1
    else s1 = s ∧ res = .trapped { cause := if 2 ^ 57 ≤ v.b.toNat then 0x05 else 0x06, addr := v.b }) ∧
  (∀ f : Flds, CarriesOut (.strmq f) strmqShape f 1 false (gives fun s ch _ _ _ =>
    match (s.core s.flow.focusCore).namedStream ch.key (immNat f.a) with
    | some x => .val (BitVec.ofNat 64 (x.tiles % 2 ^ 32 + strCode x.state * 2 ^ 32 + (if x.out then 2 ^ 34 else 0) + x.ring * 2 ^ 35))
    | none => .val 0)) ∧
  (∀ f : Flds, CarriesOut (.strmc f) strmcShape f 1 false fun ch s _ _ _ res s1 => s1 = s ∧
    ((∃ p ∈ ch.lanes, p.2.hid ≠ 0) → res = .trapped { cause := 0x0F }) ∧
    ((∀ p ∈ ch.lanes, p.2.hid = 0) → res = .eff (.strmc (immNat f.a)))) ∧
  (∀ (w : CopyWord) (f : Flds) (s : State) (ch : Chord) (ls : List (Nat × Lane × Vals)), s.ready .bin f ch ls →
    let one : Chord → InLane := fun ch s _ x v res s1 =>
      if 2 ^ 57 ≤ v.a.toNat then res = .trapped { cause := 0x05, addr := v.a } ∧ s1 = s
      else if 2 ^ 57 ≤ v.b.toNat then res = .trapped { cause := 0x05, addr := v.b } ∧ s1 = s
      else if x.hid ≠ 0 then res = .trapped { cause := 0x0F } ∧ s1 = s
      else match copyOf s (s.consts ch) ch.ctx ch.act s.flow.focusCore x.tag v.a v.b w, s.chooseEngine ch.ctx with
        | .error t, _ => res = .trapped t ∧ s1 = s
        | .ok _, none => res = .trapped (protAt 0x74 0) ∧ s1 = s
        | .ok c, some e =>
          let g := s.copyEngine e
          s1 = s.setCopyEngine e { g with seq := g.seq + 1 } ∧
          res = { LaneRes.val (BitVec.ofNat 64 (e + 256 * g.seq.toNat)) with effs := [.cpy { c with seq := g.seq } e] }
    let ch' := ch.checked f ls
    (f.u = false → ∀ out s1, Lanes .bin f (one ch') ls s out s1 → exec (.cpy w f) s = .next (s1.handedOn ch' f 2 out)) ∧
    (f.u = true → ∀ l x v r, ls = (l, x, v) :: r →
      (selects f v = false → exec (.cpy w f) s = .next (s.setFocus ((ch'.putAll f ch'.pc (.val (passed .bin v))).next 2))) ∧
      (selects f v = true → ch.mixedHids = false → ∀ res s1, one ch' s l x v res s1 →
        exec (.cpy w f) s = .next ((if res.trap.isSome && ls.all (fun p => p.2.1.doom.isSome) then s else s1).setFocus
          ((ch'.putAll f ch'.pc res).next 2))) ∧
      (selects f v = true → ch.mixedHids = true → ∀ res s1, one ch' s l { x with hid := 0 } v res s1 →
        let outside := 2 ^ 57 ≤ v.a.toNat ∨ 2 ^ 57 ≤ v.b.toNat
        let out := ch'.lanes.foldl (fun c p => c.put f ch'.pc p.1 (if p.2.hid ≠ 0 ∧ ¬outside then .trapped { cause := 0x0F }
          else { v0 := res.v0, v1 := res.v1, trap := res.trap })) ch'
        exec (.cpy w f) s = .next (s1.setFocus (Chord.next { out with effs := out.effs ++ res.effs.map fun e => (ch'.pc, e) } 2))))) ∧
  (∀ f : Flds, CarriesOut (.cpyq f) .un f 1 false (gives fun s ch _ _ v => .val (s.copyStatus ch.ctx v.a))) ∧
  (∀ f : Flds, CarriesOut (.cpyc f) (.act1 .y) f 1 false (gives fun _ _ _ _ v => .eff (.cpyc v.a)))

/-! ### Matrix instructions -/

/-- Tier 1. MXBIND takes its operation's constants from the bank and buffers the binding; MXUNB, MXFIRE, MXZ and MXMUTE
buffer their chord effects; MXSTAT delivers the status word of a binding of the chord's own activation, and 0 for any
other slot. (R286, R294, R296, R297, R298, R303, R304) -/
def Obligations.MatrixInstructions : Prop :=
  (∀ (slot : BitVec 2) (w : CtlWord) (f : Flds), CarriesOut (.mxbind slot w f) mxopShape f 2 false fun ch s _ _ _ =>
    ChordEffect s ch (.mxbind slot.toNat (immNat f.a) (immNat f.b) (immNat f.c) w (wordAt (s.consts ch) w.opk.toNat)
      (wordAt (s.consts ch) (w.opk.toNat + 1))) 0) ∧
  (∀ (slot : BitVec 2) (f : Flds), CarriesOut (.mxunb slot f) (.none .r) f 1 false fun ch s _ _ _ => ChordEffect s ch (.mxunb slot.toNat) 0) ∧
  (∀ (w : CtlWord) (f : Flds), CarriesOut (.mxfire w f) mxopShape f 2 false fun ch s _ _ _ =>
    ChordEffect s ch (.mxfire (immNat f.a) (immNat f.b) (immNat f.c) w) 0) ∧
  (∀ f : Flds, CarriesOut (.mxz f) mxzShape f 1 false fun ch s _ _ _ => ChordEffect s ch (.mxz (immNat f.a)) 0) ∧
  (∀ (slot : BitVec 2) (f : Flds), CarriesOut (.mxmute slot f) (.none .r) f 1 false fun ch s _ _ _ => ChordEffect s ch (.mxmute slot.toNat) 0) ∧
  (∀ (slot : BitVec 2) (f : Flds), CarriesOut (.mxstat slot f) mxstatShape f 1 false (gives fun s ch _ _ _ =>
    let m := (s.core s.flow.focusCore).mxe
    match nget m.slots slot.toNat with
    | some b => if b.actKey = ch.key then
        let a := m.acc b.acc
        .val (BitVec.ofNat 64 (mxStateCode b.state + (if b.muting then 4 else 0) + (if a.full then 8 else 0) + (if b.sat then 16 else 0)
          + (if a.live then 32 else 0) + b.acc * 64 + b.a * 2 ^ 9 + b.b * 2 ^ 14 + a.kt * 2 ^ 19 + b.otiles.toNat % 2 ^ 29 * 2 ^ 35))
      else .val 0
    | none => .val 0))

/-- Tier 1. Under a hypothesis each traps with SPECULATIVE_ATOMIC; otherwise MXLD and MXREST check alignment before their
slot or accumulator, MXSAVE and MXST after it; every byte of the tile, the bias values, the save area is checked by
R157; and the chord effect is buffered, with the places that its bytes were translated to, MXREST's with the bytes it
read, whose home answers for those that lie beyond the package. (That SPECULATIVE_ATOMIC comes first is the model's choice,
assumption log 48, and so is that MXREST's area is read as its bytes stand at execution, log 26.) (R238, R286, R299, R300,
R302, R305, R306, R307, R399) -/
def Obligations.MatrixMemory : Prop :=
  (∀ f : Flds, CarriesOut (.mxld f) mxldShape f 1 false fun ch s _ x v res s1 =>
    let acc := immNat f.a
    if hasHid ch then res = .trapped { cause := 0x0F } ∧ s1 = s
    else if v.b.toNat % 128 ≠ 0 then res = .trapped { cause := 0x06, addr := v.b } ∧ s1 = s
    else match effBreach (s.shadow ch) ch.key (s.consts ch) (.mxld acc v.b) with
      | some t => res = .trapped t ∧ s1 = s
      | none => (checkAll s.flow.focusCore (laneWho s ch ch.pc x 0) .read [(v.b, 1024 * ((s.shadow ch).mxe.acc acc).fmt.bytes)] s).thenDo
          (fun pl s2 res s1 => ChordEffect s2 ch (.mxld acc v.b pl) 0 res s1) res s1) ∧
  (∀ (w : EpiWord) (f : Flds), CarriesOut (.mxst w f) (mxstShape w) f 2 false fun ch s _ x v res s1 =>
    let acc := immNat f.a
    let ks := s.consts ch
    if hasHid ch then res = .trapped { cause := 0x0F } ∧ s1 = s
    else match effBreach (s.shadow ch) ch.key ks (.mxst acc v.b w) with
      | some t => res = .trapped t ∧ s1 = s
      | none =>
        if w.dkind = false ∧ v.b.toNat % max 1 (fmtWidth w.dfmt.toNat / 8) ≠ 0 then res = .trapped { cause := 0x06, addr := v.b } ∧ s1 = s
        else
          let rows := mxstRows (s.shadow ch) ks acc v.b w
          (checkAll s.flow.focusCore (laneWho s ch ch.pc x 1) .write rows s).thenDo (fun pl s2 res s1 =>
          (checkAll s2.flow.focusCore (laneWho s2 ch ch.pc x 1) .read (if w.bias then [(biasAddr ks w, 128)] else []) s2).thenDo
            (fun bias s3 res s1 => ChordEffect s3 ch (.mxst acc v.b w bias ((rows.map fun p => byteAddrs p.1 p.2).flatten.zip pl)) 0 res s1)
            res s1) res s1) ∧
  (∀ (slot : BitVec 2) (f : Flds), CarriesOut (.mxsave slot f) (.act1 .r) f 1 false fun ch s _ x v res s1 =>
    if hasHid ch then res = .trapped { cause := 0x0F } ∧ s1 = s
    else match effBreach (s.shadow ch) ch.key (s.consts ch) (.mxsave slot.toNat v.a) with
      | some t => res = .trapped t ∧ s1 = s
      | none =>
        if v.a.toNat % 128 ≠ 0 then res = .trapped { cause := 0x06, addr := v.a } ∧ s1 = s
        else ∃ b, nget (s.shadow ch).mxe.slots slot.toNat = some b ∧
          (checkAll s.flow.focusCore (laneWho s ch ch.pc x 1) .write [(v.a, saveLen ((s.shadow ch).mxe.acc b.acc).fmt)] s).thenDo
            (fun pl s2 res s1 => ChordEffect s2 ch (.mxsave slot.toNat v.a pl) 0 res s1) res s1) ∧
  (∀ (slot : BitVec 2) (f : Flds), CarriesOut (.mxrest slot f) (.act1 .r) f 1 false fun ch s _ x v res s1 =>
    let c := s.flow.focusCore
    if hasHid ch then res = .trapped { cause := 0x0F } ∧ s1 = s
    else if v.a.toNat % 128 ≠ 0 then res = .trapped { cause := 0x06, addr := v.a } ∧ s1 = s
    else
      let who := laneWho s ch ch.pc x 0
      (s.check c who v.a 64 1 .read true false).thenDo (fun pl s2 res s1 =>
        s2.ReadsOn who v.a pl (fun hd s3 res s1 =>
          if saveBad hd then res = .trapped (protAt 0x57 slot.toNat) ∧ s1 = s3.forgetJob who
          else (s3.check c who (v.a + 64) (saveLen (saveFmt hd) - 64) 1 .read true false).thenDo (fun pe s4 res s1 =>
            s4.ReadsOn who v.a pe (fun el s5 res s1 => ChordEffect (s5.forgetJob who) ch (.mxrest slot.toNat v.a (hd ++ el)) 0 res s1)
              res s1) res s1) res s1) res s1)

/-- Tier 2. The bytes MXSAVE writes of a binding and its accumulator pass the header check of MXREST, are as many as the
save area of their format has, and read back as the same control word, rings, accumulator number, bounds, step
counter, FULL and LIVE flags, overflow flag, output tile count, first operation constant and tag, and, of a live
accumulator, the same elements. (R305, R306, R307) -/
def Obligations.MatrixSave : Prop :=
  ∀ (x : Binding) (a : Acc), x.a < 32 → x.b < 32 → x.acc < 8 → 1 ≤ a.vr → a.vr ≤ 32 → 1 ≤ a.vc → a.vc ≤ 32 →
    a.kt < 2 ^ 16 → x.k0.toNat < 2 ^ 32 → (a.elems = [] ∨ a.elems.length = 1024) → (∀ e ∈ a.elems, e < 2 ^ (8 * a.fmt.bytes)) →
    let bs := saveBytes x a
    let v := MxSave.ofBytes bs
    saveBad bs = false ∧ bs.length = saveLen a.fmt ∧ v.w = x.w ∧ v.a = x.a ∧ v.b = x.b ∧ v.acc = x.acc ∧ v.val.fmt = a.fmt ∧
    v.val.vr = a.vr ∧ v.val.vc = a.vc ∧ v.val.kt = a.kt ∧ v.val.full = a.full ∧ v.val.live = a.live ∧ v.sat = x.sat ∧
    v.otiles = x.otiles ∧ v.k0 = x.k0 ∧ v.tag = x.tag ∧
    (a.live = true → ∀ i, i < 1024 → v.val.elem i = a.elem i) ∧ (a.live = false → v.val.elems = [])

/-- Tier 2. MXUNB and MXMUTE stand for a slot bound by the own activation, MXSAVE for one that is also muted or stopped;
MXZ, MXLD and MXST of a quiet accumulator that no other activation owns, MXST where besides its epilogue word keeps
R300, a ring destination is bound, of a permitted format, the program's to fill, and has a free slot, as its scale
ring has, and a memory destination has a permitted format and a pitch of whole elements and of a row at least. MXZ
leaves the accumulator owned by the activation, with every element zero, bounds 32 by 32, not live and not full, and
no other accumulator changed. (R285, R287, R296, R298, R299, R300, R302, R303, R306) -/
def Obligations.MatrixConditions : Prop :=
  ∀ (k : Core) (key : Nat) (ks : List Word) (slot acc : Nat),
    (effBreach k key ks (.mxunb slot) = none ↔ ∃ b, nget k.mxe.slots slot = some b ∧ b.actKey = key) ∧
    (effBreach k key ks (.mxmute slot) = none ↔ ∃ b, nget k.mxe.slots slot = some b ∧ b.actKey = key) ∧
    (∀ a pl, effBreach k key ks (.mxsave slot a pl) = none ↔
      ∃ b, nget k.mxe.slots slot = some b ∧ b.actKey = key ∧ (b.state ≠ .running ∨ b.muting = true)) ∧
    (effBreach k key ks (.mxz acc) = none ↔
      (∀ o, (k.mxe.acc acc).owner = some o → o = key) ∧ k.mxe.quiet (k.mxe.acc acc) = true) ∧
    (∀ a pl, effBreach k key ks (.mxld acc a pl) = effBreach k key ks (.mxz acc)) ∧
    (∀ (a : Word) (w : EpiWord) bias els, let fmt := (k.mxe.acc acc).fmt
      let width := fmtWidth w.dfmt.toNat / 8
      let pitch := (wordAt ks (w.ek.toNat + 3)).toNat
      effBreach k key ks (.mxst acc a w bias els) = none ↔ effBreach k key ks (.mxz acc) = none ∧ w.ek.toNat ≤ 252 ∧ w.act ≠ 3 ∧
        (w.dkind = true → w.dfmt = 0 ∧ w.sat = false ∧ w.round = .rne ∧
          ∃ r, k.ring? key w.dring.toNat = some r ∧ epiFmtOk fmt r.desc.fmt true r.desc.scaled = true ∧ r.prod = .program ∧ 0 < r.free ∧
            (r.desc.scaled = true → ∀ q, k.ring? key r.desc.sring = some q → q.prod = .program ∧ 0 < q.free)) ∧
        (w.dkind = false → w.dring = 0 ∧ epiFmtOk fmt w.dfmt.toNat false false = true ∧ pitch % max 1 width = 0 ∧ 32 * width ≤ pitch)) ∧
    (∀ (s : State) (c : Nat) (n : BitVec 12) (act : BitVec 16) (tag : BitVec 32) (hid : BitVec 8),
      let t := s.chordEffect c n act ks tag hid (.mxz acc)
      let x := (t.core c).mxe.acc acc
      x.owner = some (actKey n act) ∧ (∀ i, x.elem i = 0) ∧ x.vr = 32 ∧ x.vc = 32 ∧ x.live = false ∧ x.full = false ∧
      x.fmt = ((s.core c).mxe.acc acc).fmt ∧ (∀ i, i ≠ acc → (t.core c).mxe.acc i = (s.core c).mxe.acc i) ∧
      (t.core c).mxe.slots = (s.core c).mxe.slots ∧ t.homes = s.homes ∧ t.ctxs = s.ctxs ∧ ∀ c', c' ≠ c → t.core c' = s.core c')

/-! ### Sympathy, selection and hypothesis instructions -/

/-- Tier 1. SYMK makes a key handle from a key and two thresholds rounded towards zero to BF16, and traps for a NaN or
negative one; SYMC, SYMP and SYMR check handle, class and tile operands, trap under a HID, have their windows
translated, and buffer the request; SYMS buffers the advance of the step; SYMQ delivers a counter's word, which its home
gives, and never traps; PSEL checks its operands and its ring in the order of R357 and buffers the selection. (The open
word that SYMQ delivers where there is no table, or where its word cannot be read, is the model's choice, assumption
log 31, and so is the alignment of PSEL's list to its 8-byte entries, log 29.) (R345, R346, R347, R349, R350, R351, R352, R357) -/
def Obligations.SympathyInstructions : Prop :=
  (∀ f : Flds, CarriesOut (.symk f) .bin f 1 true (gives fun _ _ _ _ v =>
    match threshold (v.b.toNat % 2 ^ 32), threshold (v.b.toNat / 2 ^ 32) with
    | some ta, some tr => .val (BitVec.ofNat 64 (v.a.toNat % 2 ^ 32 + ta * 2 ^ 32 + tr % 2 ^ 15 * 2 ^ 48))
    | _, _ => .trapped (protAt 0x60 0))) ∧
  (∀ (w : CompareWord) (f : Flds), CarriesOut (.symc w f) (.act2 .y) f 2 true fun ch s _ x v res s1 =>
    match keyBad s ch.ctx v.a, tileLoc s ch w.src w.sel v.b false with
    | some t, _ => res = .trapped t ∧ s1 = s
    | none, .error t => res = .trapped t ∧ s1 = s
    | none, .ok l =>
      (x.hid ≠ 0 → res = .trapped { cause := 0x0F } ∧ s1 = s) ∧
      (x.hid = 0 → (tilesOk s ch ch.pc x .read [l]).thenDo (fun _ s2 res s1 => res = .eff (.sym (.symc w l) v.a 0) ∧ s1 = s2) res s1)) ∧
  (∀ (w : StoreWord) (f : Flds), CarriesOut (.symp w f) sympShape f 2 true fun ch s _ x v res s1 =>
    match keyBad s ch.ctx v.a, tileLoc s ch w.isrc w.isel v.b false, tileLoc s ch w.osrc w.osel v.c false with
    | some t, _, _ => res = .trapped t ∧ s1 = s
    | none, .error t, _ => res = .trapped t ∧ s1 = s
    | none, .ok _, .error t => res = .trapped t ∧ s1 = s
    | none, .ok a, .ok b =>
      (x.hid ≠ 0 → res = .trapped { cause := 0x0F } ∧ s1 = s) ∧
      (x.hid = 0 → (tilesOk s ch ch.pc x .read [a, b]).thenDo (fun _ s2 res s1 => res = .eff (.sym (.symp w a b) v.a 0) ∧ s1 = s2) res s1)) ∧
  (∀ (w : ReplayWord) (f : Flds), CarriesOut (.symr w f) (.act2 .y) f 2 true fun ch s _ x v res s1 =>
    if v.a.getLsbD 63 = false then res = .trapped (protAt 0x60 0) ∧ s1 = s
    else match tileLoc s ch w.dsrc w.dsel v.b true with
      | .error t => res = .trapped t ∧ s1 = s
      | .ok l =>
        (x.hid ≠ 0 → res = .trapped { cause := 0x0F } ∧ s1 = s) ∧
        (x.hid = 0 → (tilesOk s ch ch.pc x .write [l]).thenDo (fun _ s2 res s1 =>
          res = .eff (.sym (.symr w l) v.a (if w.fen then wordAt (s.consts ch) w.flopk.toNat else 0)) ∧ s1 = s2) res s1)) ∧
  (∀ f : Flds, CarriesOut (.syms f) (.none .r) f 1 false (gives fun _ ch _ _ _ =>
    if hasHid ch then .trapped { cause := 0x0F } else .eff .syms)) ∧
  (∀ (w : CounterWord) (f : Flds), CarriesOut (.symq w f) symqShape f 2 true fun ch s _ x _ res s1 =>
    let tab := (s.ctx ch.ctx).desc.symtab.toNat
    let va := counterVa tab w.counter w.cls.toNat
    let who := laneWho s ch ch.pc x 0
    let pl := (List.range 8).filterMap fun k => s.placeBy who (va + k)
    let isOpen (t : State) : Prop := res = .val (Config.freeWord t.flow.freeCtr) ∧ s1 = t.bump
    if tab = 0 then isOpen s
    else if pl.length < 8 then isOpen (s.denyIf (s.breachAt who va 8))
    else
      let t := s.fillXlt who va
      match t.seek who pl with
      | .later u => (res, s1) = awaitRead u who
      | .fails _ => isOpen (t.forgetJob who)
      | .got gl =>
        if gl.any (engPoison t) = true then isOpen t
        else res = .val (wordOfBytes (gl.map (engByte t))) ∧ s1 = ((t.forgetJob who).enterPlaces gl).bump) ∧
  (∀ (w : SelWord) (f : Flds), CarriesOut (.psel w f) pselShape f 2 true (gives fun s ch l _ v =>
    if 2 ^ 57 < v.a.toNat + 8 * w.npages.toNat then .trapped { cause := 0x05, addr := v.a }
    else if 2 ^ 57 < v.b.toNat + 512 then .trapped { cause := 0x05, addr := v.b }
    else if v.a.toNat % 8 ≠ 0 then .trapped { cause := 0x06, addr := v.a }
    else if v.b.toNat % 64 ≠ 0 then .trapped { cause := 0x06, addr := v.b }
    else if hasHid ch then .trapped { cause := 0x0F }
    else if v.c.toNat < 1 ∨ 256 < v.c.toNat ∨ w.npages = 0 then .trapped (protAt 0x63 0)
    else match (s.core s.flow.focusCore).boundRing ch.key w.ring.toNat with
      | .error t => .trapped t
      | .ok r =>
        if r.prod ≠ .program ∨ (nkeys ch.lanes).any (fun j => j < l) then .trapped (protAt 0x43 r.num)
        else if r.free = 0 then .trapped (protAt 0x44 r.num)
        else if ¬(r.desc.fmt = 1 ∨ r.desc.fmt = 10) ∨ r.desc.shape = true ∨ r.desc.scaled = true then .trapped (protAt 0x42 r.num)
        else .eff (.psel v.a v.b v.c.toNat w)))

/-- Tier 2. Where every lane is visible and holds A = a(lane): SHFL.idx gives lane l the value a(B), .up a(l − B), .down
a(l + B) and .xor a(l xor B) when the source lane is one of the 32, and its own A value otherwise; BCST gives a(B) and
VOTE.any says whether some A is nonzero. TOPK gives the lanes below k the candidates in rank order, each once: lane l
the one that exactly l candidates rank before, with its index in the high word and its score in the low word; every
other lane receives all ones. (R145, R359) -/
def Obligations.LaneExchanges : Prop :=
  ∀ (a b : Nat → Word) (k : Word) (l : Nat), l < 32 →
    let vis : List (Nat × Vals) := (List.range 32).map fun j => (j, { a := a j, b := k })
    let v : Vals := { a := a l, b := k }
    let tops : List (Nat × Vals) := (List.range 32).map fun j => (j, { a := a j, b := b j, c := k })
    let top : Vals := { a := a l, b := b l, c := k }
    shflVal .idx vis l v = (if k.toNat < 32 then a k.toNat else a l) ∧
    shflVal .up vis l v = (if k.toNat ≤ l then a (l - k.toNat) else a l) ∧
    shflVal .down vis l v = (if l + k.toNat < 32 then a (l + k.toNat) else a l) ∧
    shflVal .xor vis l v = (if k.toNat < 32 then a (l ^^^ k.toNat) else a l) ∧
    bcstVal vis l v = (if k.toNat < 32 then a k.toNat else a l) ∧
    voteVal .any vis l v = (if (List.range 32).any (fun j => a j != 0) then 1 else 0) ∧
    (min k.toNat 32 ≤ l → topkVal tops l top = BitVec.allOnes 64) ∧
    (l < min k.toNat 32 → ∃ j, j < 32 ∧ ((List.range 32).filter fun i =>
        topBefore (i, { a := a i, b := b i, c := k }) (j, { a := a j, b := b j, c := k })).length = l ∧
      topkVal tops l top = (b j).setWidth 32 ++ (a j).setWidth 32)

/-- Tier 1. HFORK gives each selected lane, lowest first, a new child of its HID as its HID from the next index on and
delivers its number, all ones where there is none to make; under U one child serves every lane, after the uniformity
check that the block may ask for, and lanes of different HIDs are served as under U = 0; a lane not selected delivers
zero. HRES and HNOTE buffer the resolution and the note after the checks of 0x62; HQRY delivers the table's word of a
HID. (R205, R344, R353, R354, R355, R356) -/
def Obligations.HypothesisInstructions : Prop :=
  (∀ (f : Flds) (s : State) (ch : Chord) (ls : List (Nat × Lane × Vals)), s.ready hforkShape f ch ls →
    let give := fun (c : Chord) (l : Nat) (w : Word) => (c.deliver f.t0 l w).deliver f.t1 l w
    ((f.u = false ∨ ch.mixedHids = true) → exec (.hfork f) s =
      let r := forkLanes f ch.ctx ls s
      let c1 := ls.foldl (fun c p => if selects f p.2.2 then c else give c p.1 0) ch
      let c2 := r.1.foldl (fun c p => match p.2 with
        | some k => give (c.modLane p.1 fun x => { x with hid := k, forks := x.forks ++ [k] }) p.1 (k.setWidth 64)
        | none => give c p.1 (BitVec.allOnes 64)) c1
      .next (r.2.setFocus (c2.next 1))) ∧
    ((f.u = true ∧ ch.mixedHids = false) → ∀ l x v r, ls = (l, x, v) :: r →
      let all := fun (c : Chord) (w : Word) => (nkeys c.lanes).foldl (fun c l => give c l w) c
      let ch := ch.checked f ls
      exec (.hfork f) s = if selects f v then
          match s.fork ch.ctx x.hid with
          | none => .next (s.setFocus ((all ch (BitVec.allOnes 64)).next 1))
          | some (k, s1) =>
            let c1 := (nkeys ch.lanes).foldl (fun c l => c.modLane l fun x => { x with hid := k }) ch
            .next (s1.setFocus (Chord.next { all c1 (k.setWidth 64) with forks := c1.forks ++ [k] } 1))
        else .next (s.setFocus ((all ch 0).next 1)))) ∧
  (∀ (refute : Bool) (d : TokenDest) (f : Flds), CarriesOut (.hres refute d f) (.act1 .y) f 2 true (gives fun s ch _ x v =>
    if v.a.extractLsb' 8 56 ≠ 0 ∨ s.resOk ch.ctx refute (v.a.extractLsb' 0 8) x.hid = false then .trapped (protAt 0x62 0)
    else .eff (.hres { ctx := ch.ctx, refute, target := v.a.extractLsb' 0 8, hid := x.hid, tag := x.tag, act := ch.act, core := s.flow.focusCore, d }))) ∧
  (∀ f : Flds, CarriesOut (.hqry f) .un f 1 true (gives fun s ch _ _ v => .val (s.hypWord ch.ctx (v.a.extractLsb' 0 8)))) ∧
  (∀ f : Flds, CarriesOut (.hnote f) (.act2 .y) f 1 true (gives fun s ch _ x v =>
    if v.a.extractLsb' 8 56 ≠ 0 ∨ s.hypState ch.ctx (v.a.extractLsb' 0 8) ≠ 1 ∨ s.isAncestor ch.ctx x.hid (v.a.extractLsb' 0 8) = false
    then .trapped (protAt 0x62 0) else .eff (.hnote (v.a.extractLsb' 0 8) (v.b.extractLsb' 0 32))))

/-- Tier 2. A fork of HID h of a context gives the lowest free HID from 1 to 255 as a live child of h one level deeper,
and leaves every other HID, every other context and all else alone; there is none exactly when h is at depth 15, h is
not live, or no HID is free. (R353, R376, R379) -/
def Obligations.ForkedChildren : Prop :=
  ∀ (s : State) (n : BitVec 12) (h : BitVec 8),
    (s.fork n h = none ↔ s.hypDepth n h = 15 ∨ s.hypState n h ≠ 1 ∨ ∀ c : BitVec 8, c ≠ 0 → s.hypState n c ≠ 0) ∧
    (∀ c t, s.fork n h = some (c, t) →
      c ≠ 0 ∧ s.hypState n c = 0 ∧ (∀ c' : BitVec 8, c' ≠ 0 → c' < c → s.hypState n c' ≠ 0) ∧
      nget (t.ctx n).hyps c.toNat = some { state := 1, parent := h, depth := BitVec.ofNat 4 (s.hypDepth n h + 1) } ∧
      (∀ k, k ≠ c.toNat → nget (t.ctx n).hyps k = nget (s.ctx n).hyps k) ∧
      t = s.modCtx n fun x => { x with hyps := nput x.hyps c.toNat { state := 1, parent := h, depth := BitVec.ofNat 4 (s.hypDepth n h + 1) } })

/-! ### Steps of the agents: matching, commit, traps -/

/-- Tier 1. A token on the network for a resident context is matched at its core, which then examines its FIFO; one of
another package that the agent keeps is sent on to it; one for a context that is away is appended to its spill table while the agent has room, or discarded where its activation has no
placement here; one without a valid descriptor is reported; a token 4,096 cycles in the FIFO is diverted; a core with
an empty FIFO and a free frame is sent the oldest token spilled towards it, or has it discarded where its packet
breaks R35, while data of it that is uncorrectable stops the context; a fill that reads its block caches or refuses
it; a bin's sustain timer makes it firable; a round, none while an acquisition of the core is under way, grants the
bin that R200 chooses among those with references to place. (The port 0xFF in the event of a slot that breaks R35 is
the model's choice, assumption log 12; that a slot with uncorrectable data is lost is log 20; and that a context being
pre-empted matches its tokens until step 4 is log 34.) (R189, R194, R195, R197, R200, R260, R335) -/
def Obligations.MatchingSteps : Prop :=
  (∀ (s : State) (n : Nat) (t : Token), s.net[n]? = some t →
    let s0 := State.loadDesc { s with net := ldrop s.net n } t.ctx
    (t.dpkg ≠ s.pkg → exec (.tokenArrival n) s = .next (s0.sendToken t).payAcks) ∧
    (t.dpkg = s.pkg → (s0.ctx t.ctx).desc.valid = true → (s0.ctx t.ctx).matches_ = true →
      exec (.tokenArrival n) s = .next ((s0.matchToken t.dcore.toNat t).examineFifo t.dcore.toNat)) ∧
    (t.dpkg = s.pkg → (s0.ctx t.ctx).desc.valid = false →
      exec (.tokenArrival n) s = .next (s0.protectionEvent 1 t.ctx t.spkg) ∧ exec (.spillAppend n) s = .next (s0.protectionEvent 1 t.ctx t.spkg)) ∧
    (t.dpkg = s.pkg → (s0.ctx t.ctx).desc.valid = true → (s0.ctx t.ctx).matches_ = false →
      (s0.act? (actKey t.ctx t.act) = none ∨ s0.placement (actKey t.ctx t.act) s0.pkg ≠ [] → s0.spillStuck t.ctx = false →
        exec (.spillAppend n) s = .next (s0.spillPut t)) ∧
      (s0.act? (actKey t.ctx t.act) ≠ none → s0.placement (actKey t.ctx t.act) s0.pkg = [] →
        exec (.spillAppend n) s = .next (s0.countDiscard t.ctx)))) ∧
  (∀ (s : State) (core : BitVec 8) (n : Nat) (w : Waiting), (s.core core.toNat).fifo[n]? = some w → w.since + 4096 ≤ s.cycle →
    s.spillStuck w.tok.ctx = false → exec (.fifoDivert core n) s = .next ((s.modCore core.toNat fun k => { k with fifo := ldrop k.fifo n }).divert
      w.tok w.hdr)) ∧
  (∀ (s : State) (ctx : BitVec 12) (core : BitVec 8) (i : Nat), (s.ctx ctx).matches_ = true → (s.core core.toNat).fifo = [] →
    (s.core core.toNat).freeFrame ≠ none → s.spillFor ctx core.toNat = some i →
    (s.slotBad ctx i = false → s.slotOk ctx i = true → exec (.spillReload ctx core) s = .next (((s.freeSlot ctx i).matchToken core.toNat
      { s.spillAt ctx i with skind := 7, score := 0xFF, cntf := false, dcore := core }).examineFifo core.toNat)) ∧
    (s.slotBad ctx i = false → s.slotOk ctx i = false → exec (.spillReload ctx core) s = .next (s.freeSlot ctx i).slotError) ∧
    (s.slotBad ctx i = true → exec (.spillReload ctx core) s = .next ((s.freeSlot ctx i).escalate ctx 6 {}))) ∧
  (∀ (s : State) (core : BitVec 8) (n : Nat) (f : BFill) (pl hp pw wp : List Place) (s1 s2 : State),
    let c := core.toNat
    let who : Who := { core := some c, die := dieOf c, ctx := f.ctx, act := f.act, kind := 2, job := c + 256 * f.va }
    (s.core c).bfills[n]? = some f → f.stop = none → s.checkPages who f.va 16 .exec = .ok pl s1 → s1.seek who pl = .got hp →
    let lo := wordOfBytes (hp.map (engByte s1))
    let hi := wordOfBytes ((hp.map (engByte s1)).drop 8)
    let len := 8 * (decHeader lo hi).n
    s1.checkPages who (f.va + 16) len .exec = .ok pw s2 → s2.seek who pw = .got wp →
    let s3 := (s2.bump.enterPinned (pl ++ pw)).forgetJob who
    (∀ p ∈ pl ++ pw, engPoison s3 p = false) →
    let ws := wordsOfBytes (len / 8) (wp.map (engByte s1))
    (∀ b, validate lo hi ws = .ok b → exec (.blockFill core n) s = .next ((s3.dropFill c n).endFill c f b.hdr ws)) ∧
    (∀ syn, validate lo hi ws = .error syn →
      exec (.blockFill core n) s = .next ((s3.dropFill c n).refuseFill c f syn (decHeader lo hi).trapblk (16 + len)))) ∧
  (∀ (s : State) (core : BitVec 8) (bin : BitVec 6) (b : Bin), nget (s.core core.toNat).bins bin.toNat = some b → s.firable core.toNat b = true →
    b.fires = false → (s.ctx b.ctx).fires = true → exec (.binSustainExpiry core bin) s = .next (s.modCore core.toNat fun k =>
      { k with bins := nput k.bins bin.toNat { b with fires := true, losses := 0, credit := 0, due := none } })) ∧
  (∀ (s : State) (core : BitVec 8) (slot g : Nat) (b : Bin),
    let c := core.toNat
    let s1 := s.refreshBins c
    let fs := (s1.core c).bins.filter fun p => p.2.fires && !(s1.lanesOf c p.2).isEmpty
    let fit := fs.filter fun p => s1.binFits c p.2
    let top := fit.foldl (fun m p => max m (s1.ctx p.2.ctx).desc.prio) 0
    let ps := fit.filter fun p => (s1.ctx p.2.ctx).desc.prio == top
    s.gated c = false → (List.range 16).find? (fun i => (nget (s1.core c).chords i).isNone) = some slot → s1.roundBin c fs ps = some (g, b) →
    exec (.arbitrationRound core) s = .next ((s1.loseRound c g fs ps).grant c g slot b))

/-- Tier 2. For a token other than a trap token, of a live activation placed on the package, under a HID not refuted.
Without an entry for its identity, whose block the core holds: a port outside EXPECT is a collision of reason 1, a
count that is not valid is a bad count of reason 0, and with room an entry is made and the token accepted, or else it
goes to the FIFO. With an entry, whether or not the block is still held: a port outside EXPECT, a filled port (reason
2 for one that accumulates more than one arrival), a HID on another branch, and a bad count are rejected in that
order, and any other token is accepted. (That an i0 whose count target is 1 collides with reason 0 is the model’s
reading of R192, assumption log 46.) (R189, R190, R191, R192, R207) -/
def Obligations.TokenRows : Prop :=
  ∀ (s : State) (c : Nat) (t : Token) (a : Act),
    s.act? (actKey t.ctx t.act) = some a → s.placement (actKey t.ctx t.act) s.pkg ≠ [] → s.hypState t.ctx t.hid ≠ 3 → t.trapf = false →
    let p := t.port.toNat
    let whole := t.payload.toNat ≠ 0 ∧ t.payload.toNat < 65536
    let found := (s.core c).entries.find? fun e => e.ctx == t.ctx && e.act == t.act && e.dblock == t.dblock && e.tag == t.tag
    (∀ b, found = none → (s.core c).cached? t.ctx t.act (a.blockVa t.dblock) = some b →
      let room := roomOf b.hdr b.words
      let counted := b.hdr.dcount = true ∧ p = 0
      (b.hdr.expect.getLsbD p = false → s.matchToken c t = s.reject c t none { cause := 0x03, reason := 1, addr := t.payload, aux := t.port.setWidth 63 }) ∧
      (b.hdr.expect.getLsbD p = true → counted → ¬whole → s.matchToken c t = s.reject c t none
        { cause := 0x04, reason := 0, addr := t.payload, aux := BitVec.ofNat 63 (t.payload.toNat % 65536) }) ∧
      (b.hdr.expect.getLsbD p = true → (counted → whole) → ∀ frame s1, s.newEntry c t b.hdr room = some (frame, s1) →
        s.matchToken c t = s1.acceptToken c frame b.hdr t) ∧
      (b.hdr.expect.getLsbD p = true → (counted → whole) → s.newEntry c t b.hdr room = none → s.matchToken c t = s.toFifo c t b.hdr room)) ∧
    (∀ e, found = some e →
      let h := e.hdr
      let counted := h.dcount = true ∧ p = 0
      let collides := fun r => s.matchToken c t = s.reject c t (some e) { cause := 0x03, reason := r, addr := t.payload, aux := t.port.setWidth 63 }
      let oneArrival := h.accum = 0 ∨ (h.dcount = true ∧ e.target = some 1) ∨ (h.dcount = false ∧ h.scount = 1)
      (h.expect.getLsbD p = false → collides 1) ∧
      (h.expect.getLsbD p = true → e.filled.getLsbD p = true → p ≠ 0 ∨ oneArrival → collides 0) ∧
      (h.expect.getLsbD p = true → e.filled.getLsbD p = true → p = 0 → ¬oneArrival → collides 2) ∧
      (h.expect.getLsbD p = true → e.filled.getLsbD p = false →
        s.isAncestor t.ctx t.hid e.hid = false → s.isAncestor t.ctx e.hid t.hid = false →
        s.matchToken c t = s.reject c t (some e) { cause := 0x0D, addr := t.payload, aux := BitVec.ofNat 63 (t.port.toNat + e.hid.toNat * 256) }) ∧
      (h.expect.getLsbD p = true → e.filled.getLsbD p = false →
        (s.isAncestor t.ctx t.hid e.hid = true ∨ s.isAncestor t.ctx e.hid t.hid = true) →
        (counted → ¬(whole ∧ ∀ n, e.target = some n → n = t.payload.toNat) → s.matchToken c t = s.reject c t (some e)
          { cause := 0x04, reason := if e.target.isSome then 1 else 0, addr := t.payload,
            aux := BitVec.ofNat 63 (t.payload.toNat % 65536 + e.target.getD 0 * 65536) }) ∧
        ((counted → whole ∧ ∀ n, e.target = some n → n = t.payload.toNat) → s.matchToken c t = s.acceptToken c e.frame h t)))

/-- Tier 2. A trap other than a page fault parks the instance: its entry stays with its frame, port values and HID, in the
parked state, and one trap token leaves for the context's trap graph with the instance's handle as payload, the trap
counter as tag, and the record of cause, reason, code, activation, tag, block, HID, index, address, AUX and ATOMF; the
counter goes up by one; no frame byte changes. A page fault parks it and sends nothing. Without a trap graph, from a
trap-handler block or from the trap activation, of a page fault there too, its owner is told by an event of TYPE 1
with reason and record, and the context is stopped: a resident or leaving one leaves and is then stopped, a saved one
is stopped at once; while the event queue is full both wait. (R132, R336, R337, R338, R339, R341) -/
def Obligations.TrapsAreTaken : Prop :=
  ∀ (s : State) (c frame : Nat) (e : Entry) (t : Trap) (index : Nat) (atomf trapBlk : Bool),
    (s.core c).entry? frame = some e →
    let u := s.takeTrap c frame trapBlk t index atomf
    let r : TrapRec := { cause := t.cause, reason := t.reason, code := t.code, act := e.act, index := BitVec.ofNat 8 index, hid := e.hid,
                         tag := e.tag, block := e.dblock, addr := t.addr, atomf, aux := t.aux }
    (∃ e', (u.core c).entry? frame = some e' ∧
      e' = { e with state := .parked (t.fault.map fun id => { id, addr := t.addr }) (t.fault.isNone && s.trapSent e.ctx e.act trapBlk) false,
                    trapIdx := BitVec.ofNat 8 index, atomf }) ∧
    (u.core c).sram = (s.core c).sram ∧ u.homes = s.homes ∧
    let there := trapBlk = true ∨ e.act = 0xFFFF
    (t.fault ≠ none → ¬there → u.net = s.net ∧ u.ctxs = s.ctxs ∧ u.host = s.host) ∧
    (t.fault = none → ∀ a, trapBlk = false → e.act ≠ 0xFFFF → (s.ctx e.ctx).desc.timage ≠ 0 → s.act? (actKey e.ctx 0xFFFF) = some a →
      (∃ k, u.net = s.net ++ [k] ∧ k.payload = frameHandle c frame ∧ k.tag = (s.ctx e.ctx).trapCtr ∧ k.dblock = a.entry.1 ∧ k.port = a.entry.2 ∧
        k.ctx = e.ctx ∧ k.act = 0xFFFF ∧ k.trapf = true ∧ k.hid = 0 ∧ k.dcore = BitVec.ofNat 8 c ∧ k.tail = r.pack) ∧
      (u.ctx e.ctx).trapCtr = (s.ctx e.ctx).trapCtr + 1) ∧
    (there ∨ t.fault = none ∧ ((s.ctx e.ctx).desc.timage = 0 ∨ s.act? (actKey e.ctx 0xFFFF) = none) → u.net = s.net ∧
      ∃ ev : Event, ev.typ = 1 ∧ (there → ev.sub = 1) ∧ (¬there → ev.sub = if (s.ctx e.ctx).desc.timage = 0 then 3 else 1) ∧ ev.ctx = e.ctx ∧
        ev.act = e.act ∧ ev.byCtx = true ∧ ev.vec = (s.ctx e.ctx).desc.evec ∧
        ev.words = [0, 0, 0, r.pack.extractLsb' 0 64, r.pack.extractLsb' 64 64, r.pack.extractLsb' 128 64, r.pack.extractLsb' 192 64] ∧
        (s.host.evQueue.length < 256 → u.host = { s.host with evQueue := s.host.evQueue ++ [ev] } ∧
          u.ctx e.ctx = (match (s.ctx e.ctx).st with
            | .resident => { s.ctx e.ctx with st := .leaving, phase := 0, toStop := true }
            | .leaving => { s.ctx e.ctx with toStop := true }
            | .saved => { s.ctx e.ctx with st := .stopped }
            | .absent => s.ctx e.ctx
            | .stopped => s.ctx e.ctx)) ∧
        (256 ≤ s.host.evQueue.length → u.host = { s.host with evWait := s.host.evWait ++ [ev] } ∧ u.ctxs = s.ctxs))

/-- Tier 2. The return of a parked instance that is not marked refuted makes it ready again, with its frame and its tokens
as they were and a new ready time, one reference to it placed in a bin of its own identity or in the queue of
references, and no other; one marked refuted, and one that is killed, loses its entry, so that its frame is free; an
instance that is not parked is left alone. TRET of one that waits under a page fault changes nothing (the model’s
choice, assumption log 46), and of any other is that return. (R151, R183, R196, R386, R389) -/
def Obligations.ReturnsFromTraps : Prop :=
  ∀ (s : State) (c frame : Nat) (e : Entry) (stop : Option Stop) (told : Bool), (s.core c).entry? frame = some e →
    (e.state = .parked stop told false →
      (∃ e', ((s.returnParked c frame).core c).entry? frame = some e' ∧ e'.state = .ready ∧ e'.filled = e.filled ∧ e'.hid = e.hid ∧
        e'.tag = e.tag ∧ e'.dblock = e.dblock ∧ e'.act = e.act ∧ e'.ctx = e.ctx ∧ s.cycle ≤ e'.readyAt ∧
        let k := s.core c
        let u := (s.returnParked c frame).core c
        let ref : Ref := { frame, readyAt := e'.readyAt }
        (∃ n b', nget u.bins n = some b' ∧ b'.ctx = e.ctx ∧ b'.act = e.act ∧ b'.dblock = e.dblock ∧ u.binQ = k.binQ ∧
            (b'.refs = [ref] ∧ nget k.bins n = none ∨ ∃ b, (n, b) ∈ k.bins ∧ b'.refs = insertBy Ref.readyAt ref b.refs) ∧
            ∀ m, m ≠ n → (nget u.bins m).map Bin.refs = (nget k.bins m).map Bin.refs) ∨
          (∃ q : QRef, q.ref = ref ∧ q.ctx = e.ctx ∧ q.act = e.act ∧ q.dblock = e.dblock ∧ u.binQ = insertBy (fun r => r.ref.readyAt) q k.binQ ∧
            ∀ m, (nget u.bins m).map Bin.refs = (nget k.bins m).map Bin.refs)) ∧
      ((s.returnParked c frame).core c).sram = (s.core c).sram ∧ (s.returnParked c frame).net = s.net) ∧
    (e.state = .parked stop told true → ((s.returnParked c frame).core c).entry? frame = none) ∧
    (e.state = .parked stop told false ∨ e.state = .parked stop told true → ((s.killParked c frame).core c).entry? frame = none) ∧
    (e.state = .ready ∨ e.state = .firing ∨ e.state = .waiting → s.returnParked c frame = s ∧ s.killParked c frame = s ∧ s.tretParked c frame = s) ∧
    (∀ f told r, e.state = .parked (some f) told r → s.tretParked c frame = s) ∧
    (∀ told r, e.state = .parked none told r → s.tretParked c frame = s.returnParked c frame)

/-- Tier 1. When every instruction of a chord has completed in every lane the commit begins with the plan that its lanes'
fates give, the chord's effects and children dropped where none of its lanes commits; what must wait is carried on
later; and when nothing is left the chord's slot is free. A chord that its context, not being pre-empted, has held for
WDOG × 65,536 cycles is abandoned: one whose block is not there yet is voided with WATCHDOG in every lane; of another
every lane that is not doomed yet raises WATCHDOG, with the cycles it was held as AUX, and the commit that voids them
begins. (That every lane's fate is fixed at the instant at which its chord's commit begins, and that the watchdog
counts only while the context's bins fire, are the model's choices, assumption log 38.) (R204, R342) -/
def Obligations.CommitSteps : Prop :=
  (∀ (s : State) (core : BitVec 8) (slot : BitVec 4) (ch : Chord), s.chord? core.toNat slot.toNat = some ch →
    (∀ todo, ch.todo = some todo → exec (.chordCommit core slot) s = .next (s.commitOn core.toNat slot.toNat ch todo)) ∧
    (ch.todo = some [] → exec (.chordCommit core slot) s = .next (s.delChord core.toNat slot.toNat)) ∧
    (ch.todo = none → ∀ h ws, ch.img = some (h, ws) → ws.length ≤ ch.pc → ch.waits = [] → ch.specs = [] →
      exec (.chordCommit core slot) s = .next (
        let go := (ch.lanes.filter fun p => fateOf s ch p.2 == .commits).map (·.1)
        let s1 := if (leadLane s ch).isNone then s.dropChordEffs { ch with commits := go } else s
        (s1.modChord core.toNat slot.toNat fun x => { x with todo := some (commitPlan s ch), commits := go }).commitOn core.toNat slot.toNat
          { ch with commits := go } (commitPlan s ch))) ∧
    (ch.todo = none → (s.ctx ch.ctx).fires = true → (s.ctx ch.ctx).desc.wdog ≠ 0 → (s.ctx ch.ctx).desc.wdog * 65536 ≤ s.cycle - ch.granted →
      let t : Trap := { cause := 0x14, aux := BitVec.ofNat 63 ((s.cycle - ch.granted) % 2 ^ 32) }
      (ch.img = none → exec (.watchdog core slot) s = .next (s.voidChord core.toNat slot.toNat t false)) ∧
      (ch.img ≠ none →
        exec (.watchdog core slot) s = .next ((s.setChord core.toNat slot.toNat (ch.abandon t)).commitBegin core.toNat slot.toNat (ch.abandon t)) ∧
        (∀ l x, nget ch.lanes l = some x → ∃ y, nget (ch.abandon t).lanes l = some y ∧ y.doom = (if x.doom.isSome then x.doom else some (t, ch.pc))))))

/-- Tier 2. A lane whose HID is refuted, or that is doomed, commits no effect of its own: its claims become holes and it
is discarded, or parked. A lane that commits performs its buffered effects and claimed elements in ascending index,
the lowest such lane the chord's effects too, and is finished last; every effect it buffered is performed exactly
once. (R132, R156, R179, R204, R266, R377) -/
def Obligations.CommitOrder : Prop :=
  ∀ (s : State) (ch : Chord) (l : Nat) (x : Lane),
    (s.hypState ch.ctx x.hid = 3 → laneActs s ch l x = x.claims.map (.hole l) ++ [.orphan l]) ∧
    (s.hypState ch.ctx x.hid ≠ 3 → x.doom ≠ none → laneActs s ch l x = x.claims.map (.hole l) ++ [.park l]) ∧
    (s.hypState ch.ctx x.hid ≠ 3 → x.doom = none → ∃ acts : List (Nat × CommitAct), laneActs s ch l x = acts.map (·.2) ++ [.finish l] ∧
      acts.Pairwise (fun a b => a.1 ≤ b.1) ∧
      acts.Perm (x.effs.map (fun e => (e.1, CommitAct.eff l e.1 e.2 false)) ++ x.claims.map (fun k => (k.idx, CommitAct.elem l k)) ++
        (if leadLane s ch = some l then ch.effs.map fun e => (e.1, CommitAct.eff (32 + l) e.1 e.2 false) else [])))

/-! ### Steps of the agents: the memory system -/

/-- Tier 1. The epoch advances when domain time has passed 16,384 cycles more; a slice drops what is four epochs old; the
oldest write of a core reaches its home, where it is performed, or held while an update operation has its line or an
earlier write to the line, or of the core, is held; a flag write is recorded with its releaser, and with no room is
performed after the core's dirty lines with its signature held, ahead of what else the core has issued after it, and one
of core scope is only performed; a flag read is performed, with the pending releasers to be drained; a
core serves a drain order and is pending no more; the home takes answers and answers the acquirer; a fill that an
acquisition matched ends without its line. (R210, R212, R213, R214, R216, R220, R221, R222, R259) -/
def Obligations.MemorySteps : Prop :=
  (∀ s : State, s.epoch < s.links.dtime.toNat / 16384 → ∃ t, exec .epochAdvance s = .next t ∧ t.epoch = s.epoch + 1 ∧
    t.links.dtime = s.links.dtime ∧ (∀ e, t.engSigs e = if (nget s.eng.sigs e).isSome then lset (s.engSigs e) ((s.epoch + 1) % 4) 0 else s.engSigs e)) ∧
  (∀ (s : State) (slice : BitVec 7), exec (.releaseRecordFree slice) s = .next (s.modSlice slice.toNat fun sl => sl.age s.epoch)) ∧
  (∀ (s : State) (core : BitVec 8) (pa : Nat) (slot : BitVec 8) (mask : Mask) (data : Line) (n : BitVec 12) (b : Bool) (r : List HomeOp),
    let c := core.toNat
    let l := lineOf pa
    (s.core c).homeQ = .write pa slot mask data n 0 b :: r → s.queuedUpdate c (homeSlice l) = false →
    (s.opInFlight l = false → s.heldOn l = false → s.heldAt (.core c) (homeSlice l) = false →
      exec (.writeBackAccept core) s = .next (((s.acceptLine slot l mask data).signBy (.core c) l).modCore c fun k => { k with homeQ := r })) ∧
    (s.opInFlight l = true ∨ s.heldOn l = true ∨ s.heldAt (.core c) (homeSlice l) = true →
      exec (.writeBackAccept core) s = .next ((s.modSlice (homeSlice l) fun sl => { sl with
        heldWr := sl.heldWr ++ [{ line := l, op := .write pa slot mask data n 0 b, by_ := .core c }] }).modCore c fun k => { k with homeQ := r }))) ∧
  (∀ (s : State) (core : BitVec 8) (pa : Nat) (slot : BitVec 8) (data : Word) (cached : Bool) (r : List HomeOp),
    let c := core.toNat
    let l := lineOf pa
    (s.core c).homeQ = .flag pa slot data cached true :: r →
    let s0 := s.modCore c fun k => { k with homeQ := r }
    let a := s0.addReleaser l s0.pkg (BitVec.ofNat 8 c)
    let signed := fun (u : State) => if cached then u else u.sigLine c u.pkg l
    s0.writeWaits c (.flag pa slot data cached true) = false →
    (a.1 = true → exec (.flagRelease core) s = .next (signed (a.2.acceptBytes slot pa (bytesOfWord data)))) ∧
    (a.1 = false → let q := splitBack (((s.core c).l1.filter fun l => l.dirty != 0).map L1Line.line) r
      ∀ s1, (s.modCore c fun k => { k with homeQ := q.1 }).flushDirty c = some s1 → let u := s1.acceptBytes slot pa (bytesOfWord data)
      exec (.flagRelease core) s = .next (((signed u).holdSig l (s1.core c).rs).modCore c fun k => { k with homeQ := q.2 }))) ∧
  (∀ (s : State) (core : BitVec 8) (pa : Nat) (slot : BitVec 8) (data : Word) (cached : Bool) (r : List HomeOp),
    let c := core.toNat
    (s.core c).homeQ = .flag pa slot data cached false :: r →
    let s0 := s.modCore c fun k => { k with homeQ := r }
    s0.writeWaits c (.flag pa slot data cached false) = false →
    let u := s0.acceptBytes slot pa (bytesOfWord data)
    exec (.flagRelease core) s = .next (if cached then u else u.sigLine c u.pkg (lineOf pa))) ∧
  (∀ (s : State) (slice : BitVec 7) (q : AcqReq) (r : List AcqReq) (u : State), (s.slice slice.toNat).acqQ = q :: r →
    let l := lineOf q.pa
    (match q.reply with
      | some who => (s.flushLine who.core l).drainHome who.core
      | none => some s) = some u →
    ∃ a : Acq, exec (.flagAcquire slice) s = .next ((u.l2Enter [] q.slot l).modSlice slice.toNat fun sl => { sl with acqQ := r, acqs := sl.acqs ++ [a] }) ∧
      a.line = l ∧ a.reply = q.reply ∧ a.remote = q.remote ∧
      a.value = ((List.range q.len).map fun k => (u.viewByte q.ctx q.hid q.slot (q.pa + k)).1) ∧
      ∀ o, o ∈ a.orders ∨ o ∈ a.sent ↔ o ∈ u.pendingOf l) ∧
  (∀ (s : State) (slice : BitVec 7) (n line : Nat) (o : BitVec 12 × BitVec 8) (s1 : State),
    (s.slice slice.toNat).drainOrders[n]? = some (line, o) → o.1 = s.pkg → s.flushDirty o.2.toNat = some s1 →
    exec (.drainOrder slice n) s = .next (s1.modSlice slice.toNat fun sl => (sl.takeAnswer line o (s1.core o.2.toNat).rs).unpend line o)) ∧
  (∀ (s : State) (slice : BitVec 7) (n k line : Nat) (o : BitVec 12 × BitVec 8) (sig : Sig),
    (s.slice slice.toNat).drainAnswers[n]? = some (k, line, o, sig) →
      exec (.drainAnswer slice n) s = .next ((s.holdSig line sig).modSlice slice.toNat fun sl =>
        { sl with acqs := sl.acqs.zipIdx.map fun p =>
          if p.2 = k then { p.1 with answers := p.1.answers.filter (fun x => x.1 != o), got := p.1.got ||| sig } else p.1 })) ∧
  (∀ (s : State) (slice : BitVec 7) (n : Nat) (a : Acq) (who : ReplyTo), (s.slice slice.toNat).acqs[n]? = some a →
    a.orders = [] → a.sent = [] → a.answers = [] → a.reply = some who →
    exec (.acquireAnswer slice n) s = .next ((s.setSlice slice.toNat { s.slice slice.toNat with acqs := ldrop (s.slice slice.toNat).acqs n }).answer
      who 0 a.value a.bad (((nget (s.slice slice.toNat).recs a.line).elim 0 (·.held)) ||| (s.slice slice.toNat).ovf ||| a.got))) ∧
  (∀ (s : State) (core : BitVec 8) (n : Nat) (f : Fill), (s.core core.toNat).fills[n]? = some f →
    (f.keep = false → exec (.l1Fill core n) s = .next (s.modCore core.toNat fun k => { k with fills := ldrop k.fills n })) ∧
    (f.keep = true → (s.core core.toNat).l1 = [] → (s.core core.toNat).homeQ = [] → s.heldBack core.toNat = false → 0 < (s.core core.toNat).banks 2 →
      exec (.l1Fill core n) s = .next ((s.fillLine core.toNat f.slot f.ctx f.hid f.line).modCore core.toNat fun k => { k with fills := ldrop k.fills n })))

/-- Tier 1. Entries leave the input queue for the window while it has fewer than 64, and other packages are told that theirs
are accepted; an operation starts on a line with
waiting entries of an earlier cycle and none in flight and no write to it held back, once the cores whose entries it
takes have written back and dropped the line (under replay it takes those of the next logged batch, assumption log
23); when it ends, its UPD entries are applied to the line as one read-modify-write in the order of their groups, the
atomic or claim that ends the batch after them, the cores' copies of the line go, and the writes held back are
performed; a claim of another package first sends that package the header (assumption log 15). (R165, R169, R178,
R214, R238, R257, R258, R259) -/
def Obligations.UpdateSteps : Prop :=
  (∀ (s : State) (slice : BitVec 7), exec (.updateAccept slice) s = .next ((s.modSlice slice.toNat fun sl =>
    let n := 64 - sl.window.length - (sl.ops.map fun p => p.2.batch.length).sum
    { sl with window := sl.window ++ (sl.inq.take n).map (fun u => { u with at_ := s.cycle }), inq := sl.inq.drop n }).tellAccepted slice.toNat)) ∧
  (∀ (s : State) (slice : BitVec 7) (line : Nat) (u : UEnt) (r b : List UEnt) (s1 s2 : State),
    let sl := s.slice slice.toNat
    nget sl.ops line = none → homeSlice line = slice.toNat → (∀ h ∈ sl.heldWr, h.line ≠ line) → batchOf s.cycle line sl.window = u :: r →
    s.logBatch (waitingOn s.cycle line sl.window) (u :: r) = some (s1, b) → clearCopies line (batchCores s.pkg b) s1 = some s2 →
    exec (.updateOperation slice line) s = .next ((s2.l2Enter [] u.slot line).modSlice slice.toNat fun sl =>
      { sl with window := dropBatch sl.window b, ops := nput sl.ops line { batch := b } })) ∧
  (∀ (s : State) (slice : BitVec 7) (line : Nat) (op : Operation), nget (s.slice slice.toNat).ops line = some op →
    let i := slice.toNat
    let o := s.batchLine line op.batch
    let s1 := s.closeOp i line op.batch
    (∀ u r, op.batch = u :: r → (∀ v ∈ op.batch, v.isUpd = true) →
      exec (.updateOperationEnd slice line) s = .next ((s1.putOpLine line u.slot o).releaseHeld i)) ∧
    (∀ u, op.batch.find? (fun u => !u.isUpd) = some u →
      (u.far = false → ∀ s2, s1.applyLast line o u = some s2 → exec (.updateOperationEnd slice line) s = .next (s2.releaseHeld i)) ∧
      (u.far = true → op.sent = false → exec (.updateOperationEnd slice line) s = .next (s.sendHeader i line op o u)))) ∧
  (∀ (s : State) (line : Nat) (u : UEnt), u.isUpd = true → s.batchLine line [u] = (s.opLine line u.slot).applyGroup [u]) ∧
  (∀ (us : List UEnt), (∀ u ∈ us, u.ord = true) → updGroups us = us.map fun u => [u])

/-- Tier 2. Over 64-bit locations ADD, AND, OR, XOR, SWAP and CAS leave the wrapped sum, the bitwise results, the operand,
and the operand where the location held the comparand; the four extrema pick by their signedness; the saturating add
clamps to the signed range and says so; FADD leaves the sum in FP64, rounded to nearest even; RDOVF leaves the location.
Over 32-bit locations the same operations work on the low halves alone and leave 32 bits, the saturating add clamping to
the signed range under .i32 and to the unsigned one under .n32, and FADD adding in FP32. (R165) -/
def Obligations.AtomicResults : Prop :=
  ∀ m x c : Word,
    atomNew .add .w64 m x c = (m + x, false) ∧ atomNew .and .w64 m x c = (m &&& x, false) ∧ atomNew .or .w64 m x c = (m ||| x, false) ∧
    atomNew .xor .w64 m x c = (m ^^^ x, false) ∧ atomNew .swap .w64 m x c = (x, false) ∧ atomNew .rdovf .w64 m x c = (m, false) ∧
    atomNew .cas .w64 m x c = (if m = c then x else m, false) ∧
    atomNew .umin .w64 m x c = (if m ≤ x then m else x, false) ∧ atomNew .umax .w64 m x c = (if m ≤ x then x else m, false) ∧
    atomNew .smin .w64 m x c = (if m.sle x then m else x, false) ∧ atomNew .smax .w64 m x c = (if m.sle x then x else m, false) ∧
    atomNew .adds .w64 m x c = (if m.toInt + x.toInt < -2 ^ 63 then (0x8000000000000000, true)
      else if 2 ^ 63 ≤ m.toInt + x.toInt then (0x7FFFFFFFFFFFFFFF, true) else (m + x, false)) ∧
    (∀ op sz, sz ≠ .w64 → (atomNew op sz m x c).1.toNat < 2 ^ 32 ∧
      atomNew op sz (m.setWidth 32 |>.setWidth 64) (x.setWidth 32 |>.setWidth 64) (c.setWidth 32 |>.setWidth 64) = atomNew op sz m x c) ∧
    atomNew .fadd .w64 m x c =
      (BitVec.ofNat 64 (roundXF (FVal.add .rne (decodeFmt .fp64 m.toNat) (decodeFmt .fp64 x.toNat)) .fp64 .rne), false) ∧
    let y : BitVec 32 := m.setWidth 32
    let z : BitVec 32 := x.setWidth 32
    let d : BitVec 32 := c.setWidth 32
    let up : BitVec 32 → Word := fun w => w.setWidth 64
    (∀ sz, sz ≠ .w64 →
      atomNew .add sz m x c = (up (y + z), false) ∧ atomNew .and sz m x c = (up (y &&& z), false) ∧
      atomNew .or sz m x c = (up (y ||| z), false) ∧ atomNew .xor sz m x c = (up (y ^^^ z), false) ∧
      atomNew .swap sz m x c = (up z, false) ∧ atomNew .rdovf sz m x c = (up y, false) ∧
      atomNew .cas sz m x c = (up (if y = d then z else y), false) ∧
      atomNew .umin sz m x c = (up (if y ≤ z then y else z), false) ∧ atomNew .umax sz m x c = (up (if y ≤ z then z else y), false) ∧
      atomNew .smin sz m x c = (up (if y.sle z then y else z), false) ∧ atomNew .smax sz m x c = (up (if y.sle z then z else y), false) ∧
      atomNew .fadd sz m x c =
        (BitVec.ofNat 64 (roundXF (FVal.add .rne (decodeFmt .fp32 y.toNat) (decodeFmt .fp32 z.toNat)) .fp32 .rne), false)) ∧
    atomNew .adds .i32 m x c = (if y.toInt + z.toInt < -2 ^ 31 then (up 0x80000000, true)
      else if 2 ^ 31 ≤ y.toInt + z.toInt then (up 0x7FFFFFFF, true) else (up (y + z), false)) ∧
    atomNew .adds .n32 m x c = (if 2 ^ 32 ≤ y.toNat + z.toNat then (up 0xFFFFFFFF, true) else (up (y + z), false))

/-- Tier 2. Where package memory is in canonical form and the line lies in it, accepting masked bytes under a key slot
makes each masked byte read, under that slot, as the byte written, and leaves every other byte of the line reading as
before under that slot; none of its bytes is from then on one that an earlier boot left. The line is in the L2 from then
on, and its stamp is one more than it was, or 1 where the line was not there. Every other line, but for the one that left
the L2 for this one, is as it was and reads as before under every slot; that one was in the L2 and is there no more, and
where it was changed there under its own key, and holds nothing of an earlier boot, it reads as before under that key.
Beyond the bytes, the open ranges and the lines of the memory, and the model’s count of free choices, nothing changes.
(A write to a line beyond the installed memory changes nothing at all: this first clause is the model's choice, assumption
log 9; the spec says it of BAR2 only, R405.) (R210, R229, R255, R256, R259, R424, R425) -/
def Obligations.HomeMemory : Prop :=
  ∀ (s : State) (slot : BitVec 8) (line : Nat) (mask : Mask) (data : Line), Memory.wf s.homes.mem = true →
    (Config.memBytes ≤ line * 128 → s.acceptLine slot line mask data = s) ∧
    (line * 128 < Config.memBytes →
      let t := s.acceptLine slot line mask data
      (∀ i, i < 128 → t.homeByte slot (line * 128 + i) =
        if mask.getLsbD i then data.extractLsb' (8 * i) 8 else s.homeByte slot (line * 128 + i)) ∧
      (∀ i, i < 128 → ∀ r ∈ t.homes.opens, r.raw = true → line * 128 + i < r.lo ∨ r.hi ≤ line * 128 + i) ∧
      (t.line line).res = true ∧ (t.line line).stamp = (if (s.line line).res then (s.line line).stamp else 0) + 1 ∧
      (∃ out : Option Nat,
        (∀ l, l ≠ line → out ≠ some l → t.line l = s.line l ∧ ∀ k pa, lineOf pa = l → t.homeByte k pa = s.homeByte k pa) ∧
        (∀ l, out = some l → l ≠ line ∧ (s.line line).res = false ∧ (s.line l).res = true ∧ (t.line l).res = false ∧ (t.line l).stamp = 0 ∧
          (t.line l).sticky = (s.line l).sticky ∧ (t.line l).poison = (s.line l).poison ∧
          ((s.line l).dirty = true → (s.line l).garb = false → s.rawLine l = false → ∀ pa, lineOf pa = l →
            t.homeByte (s.line l).tag pa = s.homeByte (s.line l).tag pa))) ∧
      Memory.wf t.homes.mem = true ∧ 
      t = { s with homes := { s.homes with mem := t.homes.mem, opens := t.homes.opens, lines := t.homes.lines },
                   flow := { s.flow with freeCtr := t.flow.freeCtr } })

/-- Tier 2. Writing one byte, writing a run of bytes and clearing a range keep a memory in canonical form; a byte written
reads back and every other byte is unchanged; clearing a range makes its bytes read zero and leaves the rest; and two
memories in canonical form that read the same everywhere are the same list. (10_memory_model.md, R210) -/
def Obligations.MemoryForm : Prop :=
  ∀ m : List Host.Cell, Memory.wf m = true →
    (∀ a v, Memory.wf (mput m a v) = true ∧ mget (mput m a v) a = v ∧ ∀ b, b ≠ a → mget (mput m a v) b = mget m b) ∧
    (∀ a bs, Memory.wf (mputs m a bs) = true ∧ mgets (mputs m a bs) a bs.length = bs ∧
      ∀ b, (b < a ∨ a + bs.length ≤ b) → mget (mputs m a bs) b = mget m b) ∧
    (∀ lo hi, Memory.wf (mclear m lo hi) = true ∧ ∀ b, mget (mclear m lo hi) b = if lo ≤ b ∧ b < hi then 0 else mget m b) ∧
    (∀ m', Memory.wf m' = true → (∀ a, mget m a = mget m' a) → m = m')

/-- Tier 3. From every state whose package memory is in canonical form (addresses strictly rising, no entry equal to what
an unlisted address reads as), every step that answers a next state, an instruction of a program or a step of any
other agent, leaves the package memory in canonical form: so equal contents of memory stay equal data in every run.
(The canonical form is the model's own representation of a memory; no rule of the spec states it.)
(10_memory_model.md, R210) -/
def Obligations.StepKeepsMemory : Prop :=
  ∀ s t : State, Memory.wf s.homes.mem = true → step s = .next t → Memory.wf t.homes.mem = true

/-! ### Steps of the agents: between packages -/

/-- Tier 1. The oldest remote access that can be is performed at its home, those of one core to one home in their order: a
read answers the bytes there, a write or a store is accepted and acknowledged, or held while an update operation has
its line or an earlier write to the line, or of the core, is held, an atomic, update or claim goes to its slice, and one through a page of the wrong world is refused (assumption log 40). A flit with a good CRC and of the
number expected is acknowledged and the packets it completes are delivered; a broken one, or the first beyond that
number, is discarded and answered with a negative acknowledgement that names the number expected; a duplicate is
dropped; an acknowledgement drops what it covers, and a negative one sends the rest again and counts each. A port one
of whose flits was sent again 16 times retrains, and goes up and sends again what is not acknowledged, or after three
failures down, with what it held sent elsewhere, but for what the far side has taken, whose acknowledgement was lost. A
route lost ends what waits on it, and one that returns lets go what was held for it, oldest first, and what was owed once
nothing is held. Domain time is sent once in 65,536 cycles, steps forward at once and never back, is
passed on once an interval, a later flit of which shows only that flits still come, and its loss is told. A packet of the copy transport is written at its address under the
port's world and acknowledged, or dropped whole; an acknowledgement ends its piece and sends the earlier ones to that
peer again. (Taking the count of failed retrainings back to 0 on success, sending the time to every neighbour that the routing table
names, and how much of what it held the far side of a failed port has taken, are this model’s choices, assumption log 12; the bodies of such flits and packets are open,
and the identity of an Ethernet piece is log 24; that a port which retrains keeps its flits, and that a route lost
drops the acknowledgements on their way, are log 25.) (R221, R231, R232, R235, R236, R238, R239, R240, R242, R422) -/
def Obligations.LinkSteps : Prop :=
  (∀ (s : State) (r : RemoteReq) (rest : List RemoteReq), s.links.inReqs = r :: rest →
    let took := fun (s1 : State) => exec .remoteAccess s = .next { s1 with links := { s1.links with inReqs := rest } }
    (∀ s1, s.performRemote r = some s1 → took s1) ∧
    (∀ (q : RemoteReq) (rest' : List RemoteReq) (s1 : State), s.performRemote r = none → rest = q :: rest' → State.behind q r = false →
      s.performRemote q = some s1 → exec .remoteAccess s = .next { s1 with links := { s1.links with inReqs := r :: rest' } }) ∧
    (State.accessesHere r = true → s.secBreach r.sec r.pa r.key = true → took (s.deny.sendAnswer r 24 0 0)) ∧
    (s.secBreach r.sec r.pa r.key = false →
    let i := homeSlice (lineOf r.pa)
    let w : Writer := .far r.srcPkg r.srcCore
    (r.what = 0 → s.heldAt w i = false → took ((s.l2Enter [] r.key (lineOf r.pa)).sendAnswer r (if (s.line (lineOf r.pa)).poison then 11 else 5) r.len
      (BitVec.ofNat 1024 (natOfBytes (s.homeBytes r.key r.pa r.len))))) ∧
    (r.what = 1 ∨ r.what = 4 →
      (s.queuedFar r.srcPkg r.srcCore.toNat i = true → rest = [] → exec .remoteAccess s = .next s) ∧
      (s.queuedFar r.srcPkg r.srcCore.toNat i = false →
        (s.opInFlight (lineOf r.pa) = false → s.heldOn (lineOf r.pa) = false → s.heldAt w i = false →
          took ((s.acceptBytes r.key r.pa (bytesOfNat r.len r.data.toNat)).sendAnswer r 6 0 0)) ∧
        (s.opInFlight (lineOf r.pa) = true ∨ s.heldOn (lineOf r.pa) = true ∨ s.heldAt w i = true → took (s.modSlice i fun sl =>
          { sl with heldWr := sl.heldWr ++ [{ line := lineOf r.pa, op := .write r.pa 0 0 0 0 0 false, by_ := w, far := some r }] })))) ∧
    (r.what = 2 ∨ r.what = 3 ∨ r.what = 13 → s.heldAt w i = false → took (s.modSlice i fun sl => { sl with inq := sl.inq ++ [State.remoteEntry r] })))) ∧
  (∀ (s : State) (port : BitVec 6) (bytes : List Byte),
    let q := port.toNat
    let x := s.port q
    let f := Flit.ofBytes bytes
    let nak := ((s.setPort q { x with nak := true }).emit q (flitBytes x.recvSeq 2 (openBody (Config.ackBody x.recvSeq))))
    s.booted = true → x.state = .up →
      (f.good = false → exec (.flitReceive port bytes) s = .next nak) ∧
      (f.good = true → f.typ = 0 → 1 ≤ (f.seq - x.recvSeq).toNat → (f.seq - x.recvSeq).toNat < 2048 →
        exec (.flitReceive port bytes) s = .next (if x.nak then s else nak)) ∧
      (f.good = true → f.typ = 0 → f.seq = x.recvSeq →
        exec (.flitReceive port bytes) s = .next (takePackets q (x.body ++ f.body).length
          ((s.setPort q { x with recvSeq := x.recvSeq + 1, nak := false, body := x.body ++ f.body }).emit q
            (flitBytes f.seq 1 (openBody (Config.ackBody f.seq)))))) ∧
      (f.good = true → f.typ = 0 → 2048 ≤ (f.seq - x.recvSeq).toNat → exec (.flitReceive port bytes) s = .next s) ∧
      (f.good = true → f.typ = 1 → exec (.flitReceive port bytes) s = .next (s.ackFlit q f.seq)) ∧
      (f.good = true → f.typ = 2 → exec (.flitReceive port bytes) s = .next (s.nakFlit q f.seq)) ∧
      (f.good = true → f.typ = 3 → exec (.flitReceive port bytes) s = .next (s.timeStep (some q) (State.timeOf f.body)))) ∧
  (∀ (s : State) (port : BitVec 6) (seq : BitVec 12),
    let q := port.toNat
    let x := s.port q
    let k := (seq - x.sendSeq).toNat
    s.booted = true → x.state = .up → k < x.sent → ∃ resends,
      exec (.negativeAcknowledge port seq) s = .next (((s.setPort q { x with resends }).emitRun q k (x.sent - k)).countErrors 4 (x.sent - k)) ∧
      ∀ i, i < x.sent - k → i < 4096 → ∃ n, nget resends (seq + BitVec.ofNat 12 i).toNat = some (n + 1)) ∧
  (∀ (s : State) (port : BitVec 6), let x := s.port port.toNat
    x.state = .up → (∃ p ∈ x.resends, 16 ≤ p.2) → exec (.portRetrain port) s = .next (s.setPort port.toNat { x with state := .retraining })) ∧
  (∀ (s : State) (port : BitVec 6), let q := port.toNat
    let x := s.port q
    x.state = .retraining →
      exec (.retrainEnd port true) s = .next ((((s.setPort q { x with state := .up, resends := [], retrains := 0 }).emitRun q 0 x.sent).countErrors 4 x.sent).pump q) ∧
      (x.retrains < 2 → exec (.retrainEnd port false) s = .next (s.setPort q { x with retrains := x.retrains + 1 })) ∧
      (2 ≤ x.retrains → ∃ took, took ≤ x.sent ∧ exec (.retrainEnd port false) s = .next (((s.setPort q { x with
        state := .down, retrains := 3, out := [], skip := 0, sent := 0, resends := [], body := [], nak := false,
        sendSeq := x.sendSeq + BitVec.ofNat 12 x.sent }).bump.linkEvent 0 q).resendOut q (State.dropSent (x.skip + 246 * took) x.out).2))) ∧
  (∀ (s : State) (p : BitVec 12),
    let gone := s.reqs.filter fun q => q.pkg == some p && !s.routed p q.ctx
    (s.egress 0 p false 0 0 = none ∨ gone ≠ [] → 
      let s1 := (gone.foldl (fun s q => s.failRequest q fun a => trapEcc a 3)
        (if s.links.lost.contains p then s else { s with links := { s.links with lost := s.links.lost ++ [p] } })).loseClaims p
      exec (.routeLost p) s = .next (((gone.filter Request.owes).map Request.ctx).eraseDups.foldl (fun s n => s.escalate n 7 {}) s1)) ∧
    (s.egress 0 p false 0 0 ≠ none →
      let s1 : State := { s with links := { s.links with
        lost := s.links.lost.filter fun x => x != p, held := s.links.held.filter fun t => t.dpkg != p } }
      let s2 := ((s.links.held.filter fun t => t.dpkg == p).foldl (fun s t => s.sendToken t) s1).sendLate p
      exec (.routeReturn p) s = .next (((nkeys s2.ctxs).foldl (fun s i =>
        let n := BitVec.ofNat 12 i
        let s3 := drainSpill p n ((s.ctx n).spillTail - (s.ctx n).spillHead + (s.ctx n).overflow.length) (s.ctx n).spillHead s
        (((s3.ctx n).overflow.filter fun t => t.dpkg == p && p != s3.pkg).foldl (fun s t => if s.ended t then s.countDiscard n else s.sendToken t)
          (s3.modCtx n fun y => { y with overflow := y.overflow.filter fun t => !(t.dpkg == p && p != s3.pkg) })).settleWait n) s2).payAcks))) ∧
  (∀ s : State, s.links.src = true → s.sec.bootState = 2 → s.links.lastSent + 65536 ≤ s.cycle → ∃ t out,
    exec .timeFlitSend s = .next t ∧ t.links.lastSent = s.cycle ∧ t.links.timeOut = s.links.timeOut ++ out ∧ t.links.dtime = s.links.dtime ∧
    t.links.wire = s.links.wire ++ out.map (fun p => (p.1, flitBytes 0 3 (openBody (Config.timeBody s.links.dtime)))) ∧
    ∀ q, (q, s.links.dtime) ∈ out ↔ q < 64 ∧ (s.port q).state = .up ∧ ∃ p ∈ s.links.routes, p.2.valid = true ∧ p.2.ports.getLsbD q = true) ∧
  (∀ (s : State) (t : BitVec 64),
    (s.links.src = true → exec (.timeFlit t) s = .next s) ∧
    (s.booted = true → s.links.src = false → s.sameInterval = true →
      exec (.timeFlit t) s = .next { s with links := { s.links with lastFlit := s.cycle, timeLost := false } }) ∧
    (s.booted = true → s.links.src = false → s.sameInterval = false → ∃ u : State, exec (.timeFlit t) s = .next (u.sendTime none) ∧
      u.links.lastFlit = s.cycle ∧ u.links.timeLost = false ∧ u.links.timeTaken = some s.cycle ∧ u.cores = s.cores ∧ u.homes = s.homes ∧
      (s.links.dtime.toNat < t.toNat → u.links.dtime = t ∧ u.links.hold = 0) ∧
      (t.toNat ≤ s.links.dtime.toNat → u.links.dtime = s.links.dtime ∧ u.links.hold = s.links.dtime.toNat - t.toNat - 64))) ∧
  (∀ s : State, s.links.src = false → s.sec.bootState = 2 → s.links.timeLost = false → s.links.lastFlit + 262144 ≤ s.cycle →
    exec .domainTimeLost s = .next (State.event { s with links := { s.links with timeLost := true } } { typ := 6 })) ∧
  (∀ (s : State) (port : BitVec 2) (peer num : Nat) (addr : BitVec 64) (bytes : List Byte),
    exec (.ethernetPacket port false { peer, num, addr } bytes) s = .next s ∧
    (s.booted = true → ∀ p before after, s.links.eth = before ++ p :: after → (∀ x ∈ before, ¬(x.peer = peer ∧ x.num = num)) →
      p.peer = peer → p.num = num → exec (.ethernetPacket port true { peer, num, addr } []) s = .next { s with links := { s.links with
        eth := before ++ after, ethOut := s.links.ethOut ++ before.filter fun x => x.peer == peer } }) ∧
    (s.booted = true → bytes ≠ [] →
      ((∀ i, i < bytes.length → s.regionWorld (addr.toNat + i) = false ∨ s.sec.ethWorld.getLsbD port.toNat = true) →
        let u := s.acceptBytes (s.regionKey addr.toNat) addr.toNat bytes
        exec (.ethernetPacket port true { peer, num, addr } bytes) s = .next { u with links := { u.links with
          ethOut := u.links.ethOut ++ [{ engine := none, peer, num, port := port.toNat, addr, bytes := [] }] } }) ∧
      ((∃ i, i < bytes.length ∧ s.regionWorld (addr.toNat + i) = true) → s.sec.ethWorld.getLsbD port.toNat = false →
        exec (.ethernetPacket port true { peer, num, addr } bytes) s = .next s)))

/-! ### Steps of the agents: streams, copies and the matrix engine -/

/-- Tier 1. A STRM moves its next tile; a STRMW writes its own, and pops and counts it once every write of it has been
accepted; a stream stops at a page fault (one of the trap activation stops its context), goes on later where another
package or the host owes it bytes, ends when its last tile is done while its context is not away, and stops with an
error at another fault; a copy engine takes the head of its queue and ends a copy once all is written and
acknowledged, with its state as R280 names it; a candidate's ring slot is staged with its bytes; the next firable
candidate in order starts with what was staged for it, or ends by the check that fails; the firing that started first
retires with its accumulator and rings; a drain reads its bias and begins, or goes on later, or waits on its page fault (and then
leaves the drain path free, assumption log 14), and ends with the tile in its ring and the accumulator cleared; a mute
passes. (R238, R276, R277, R280, R294, R303, R312, R313, R314, R316, R318, R336) -/
def Obligations.EngineSteps : Prop :=
  (∀ (s : State) (core : BitVec 8) (n : Nat) (x : Stream) (r : Ring),
    let c := core.toNat
    (s.core c).streams[n]? = some x → (s.core c).ring? x.actKey x.ring = some r →
    (streamReady (s.core c) x r = true → s.streamsRun x.ctx = true →
      (x.wrote = true → s.streamOut c x = false → exec (.streamTile core n) s = .next (s.popTile c x r)) ∧
      (x.wrote = false →
        (∀ u, nextTile s c x r = .ok u →
          (x.out = false → exec (.streamTile core n) s =
            .next (u.modCore c fun k => k.modStream x.actKey x.handle fun x => { x with tiles := x.tiles + 1 })) ∧
          (x.out = true → u.streamOut c (((u.core c).streams[n]?).getD x) = false → exec (.streamTile core n) s = .next (u.popTile c x r)) ∧
          (x.out = true → u.streamOut c (((u.core c).streams[n]?).getD x) = true → exec (.streamTile core n) s =
            .next (u.modCore c fun k => k.modStream x.actKey x.handle fun x => { x with wrote := true }))) ∧
        (∀ f u, nextTile s c x r = .error (.fault f u) →
          exec (.streamTile core n) s = .next ((u.modCore c fun k => k.modStream x.actKey x.handle fun x =>
            { x with state := .paused f }).engFault x.ctx x.act f)) ∧
        (∀ u, nextTile s c x r = .error (.later u) → exec (.streamTile core n) s = .next u) ∧
        (∀ t denied, nextTile s c x r = .error (.err t denied) → exec (.streamError core n) s = .next ((s.denyIf denied).failStream c x t)))) ∧
    (x.state = .running → s.streamsRun x.ctx = true → s.streamDone c x = true →
      exec (.streamEnd core n) s = .next (s.endStream c x false false))) ∧
  (∀ (s : State) (e : BitVec 5) (c : Copy) (r : List Copy), (s.copyEngine e.toNat).running = none → (s.copyEngine e.toNat).queue = c :: r →
    exec (.copyStart e) s = .next (s.setCopyEngine e.toNat { s.copyEngine e.toNat with running := some c, queue := r })) ∧
  (∀ (s : State) (e : BitVec 5) (c : Copy), (s.copyEngine e.toNat).running = some c →
    (∀ st, c.fin = some st → s.copyOut e.toNat c = false → exec (.copyEnd e) s = .next (s.endCopy e.toNat c st)) ∧
    (c.fin = none → c.stop = none →
      (copyTotal c ≤ c.written → s.copyOut e.toNat c = false → exec (.copyEnd e) s = .next (s.endCopy e.toNat c 3)) ∧
      (∀ u n, moveElems e.toNat c ((copyTotal c - c.written) / copyStride c) c.written s = (u, n, none) →
        u.copyOut e.toNat { c with written := n } = false → exec (.copyEnd e) s = .next (u.endCopy e.toNat { c with written := n } 3)) ∧
      (∀ u n t denied, moveElems e.toNat c ((copyTotal c - c.written) / copyStride c) c.written s = (u, n, some (.err t denied)) →
        (u.denyIf denied).copyOut e.toNat { c with written := n } = false →
        exec (.copyEnd e) s = .next ((u.denyIf denied).endCopy e.toNat { c with written := n } 5)) ∧
      (∀ u n f v, moveElems e.toNat c ((copyTotal c - c.written) / copyStride c) c.written s = (u, n, some (.fault f v)) →
        exec (.copyEnd e) s = .next ((u.setCopyEngine e.toNat { u.copyEngine e.toNat with
          running := some { c with written := n, stop := some f } }).engFault c.ctx c.act f)) ∧
      (∀ u n v, moveElems e.toNat c ((copyTotal c - c.written) / copyStride c) c.written s = (u, n, some (.later v)) →
        exec (.copyEnd e) s = .next (u.setCopyEngine e.toNat { u.copyEngine e.toNat with running := some { c with written := n } })))) ∧
  (∀ (s : State) (core : BitVec 8) (cand : BitVec 3) (ring : BitVec 5), (s.core core.toNat).stageable cand.toNat ring.toNat = true →
    ∃ b, exec (.stageComplete core cand ring) s = .next (s.modCore core.toNat fun k => { k with mxe := { k.mxe with staged := k.mxe.staged ++ [b] } }) ∧
      b.cand = cand.toNat ∧ b.ring = ring.toNat ∧
      ∀ o r, (s.core core.toNat).mxe.cand cand.toNat = some o → (s.core core.toNat).ring? o.key ring.toNat = some r →
        let slot := r.slotAt r.head (if (s.core core.toNat).mxe.fires cand.toNat then 1 else 0)
        b.info = r.slotMeta slot ∧ b.bytes = mgets (s.core core.toNat).sram (r.slotAddr slot) r.desc.slotBytes ∧
        b.bad = (s.core core.toNat).badIn (r.slotAddr slot) r.desc.slotBytes) ∧
  (∀ (s : State) (core : BitVec 8) (i : Nat) (o : MxOp),
    let c := core.toNat
    let k := s.core c
    (∃ d, d < 5 ∧ i = (k.mxe.last + 1 + d) % 5 ∧ ∀ e, e < d → s.mxFirable c ((k.mxe.last + 1 + e) % 5) = false) → s.mxFirable c i = true →
    k.mxe.cand i = some o →
    let s1 := s.modCore c fun k => { k with mxe := { k.mxe with last := i } }
    (firingBad k o = none → exec (.firingStart core) s = .next (s1.modCore c fun k =>
      { k with mxe := { k.mxe with firing := k.mxe.firing ++ [{ cand := i, bufs := k.mxe.staged.filter fun p => p.cand == i }],
                                   staged := k.mxe.staged.filter fun p => p.cand != i } })) ∧
    (∀ t seq, firingBad k o = some (t, seq) → exec (.firingStart core) s = .next (s1.failFiring c o t seq))) ∧
  (∀ (s : State) (core : BitVec 8) (f : Firing) (r : List Firing) (o : MxOp) (b : Binding),
    let c := core.toNat
    let m := (s.core c).mxe
    m.firing = f :: r → f.cand < 4 → nget m.slots f.cand = some b → m.cand f.cand = some o →
    let p := matrixStep (s.core c) o f.bufs
    let done := kCount b.k0 ≤ p.1.kt
    ∃ t, exec (.firingRetire core) s = .next t ∧ (t.core c).mxe.firing = r ∧
      (t.core c).mxe.acc b.acc = { p.1 with full := p.1.full || (done && !kDrains b.k0) } ∧
      nget (t.core c).mxe.slots f.cand = some { b with sat := b.sat || p.2, otiles := if done then b.otiles + 1 else b.otiles } ∧
      (∀ a, a ≠ b.acc → (t.core c).mxe.acc a = m.acc a)) ∧
  (∀ (s : State) (core : BitVec 8) (f : Firing) (r : List Firing) (q : FireStep) (l : List FireStep),
    let c := core.toNat
    let m := (s.core c).mxe
    m.firing = f :: r → f.cand = 4 → m.queue = q :: l → (∀ p ∈ m.slots, p.1 < 4) →
    ∃ t o, m.cand 4 = some o ∧ exec (.firingRetire core) s = .next t ∧ (t.core c).mxe.firing = r ∧ (t.core c).mxe.queue = l ∧
      (t.core c).mxe.acc q.acc = { (matrixStep (s.core c) o f.bufs).1 with pend := false }) ∧
  (∀ (s : State) (core : BitVec 8) (i : Nat) (b : Binding),
    let c := core.toNat
    let k := s.core c
    let w := decEpi b.k1
    let addr := biasAddr ((s.act? b.actKey).elim [] Act.consts) w
    let who : Who := { die := dieOf c, ctx := keyCtx b.actKey, act := keyAct b.actKey, kind := 8, job := c + 2 ^ 8 * i + 2 ^ 10 * b.otiles.toNat }
    let begun := fun (u : State) (bias : List Byte) => exec (.drainStart core) s = .next (u.modCore c fun k =>
      { k with mxe := { k.mxe with drain := some (i, bias), lastDrain := i, drainNext := k.mxe.drainNext.filter fun j => j != i } })
    k.mxe.drain = none → nget k.mxe.slots i = some b →
    (∃ d, d < 4 ∧ i = (k.mxe.lastDrain + 1 + d) % 4 ∧ ∀ e, e < d → k.drainable ((k.mxe.lastDrain + 1 + e) % 4) = false) → k.drainable i = true →
    (w.bias = false → begun s []) ∧
    (w.bias = true → (∀ pl u, engAccess s who addr.toNat 128 .read = .ok pl u →
        begun (u.forgetJob who).bump (pl.map (engByte u))) ∧
      (∀ u, engAccess s who addr.toNat 128 .read = .later u → exec (.drainStart core) s = .next u) ∧
      (∀ f u, engAccess s who addr.toNat 128 .read = .fault f u → exec (.drainStart core) s = .next ((u.modCore c fun k =>
        let stops := k.mxe.drainStops ++ [(i, f)]
        { k with mxe := { k.mxe with drainStops := stops, lastDrain := i, drainNext := k.mxe.drainNext.filter fun j => j != i } }).engFault
          who.ctx who.act f)))) ∧
  (∀ (s : State) (core : BitVec 8) (i : Nat) (bias : List Byte) (b : Binding),
    let c := core.toNat
    let a := (s.core c).mxe.acc b.acc
    (s.core c).mxe.drain = some (i, bias) → nget (s.core c).mxe.slots i = some b →
    let s1 := s.modCore c fun k => { k with mxe := { k.mxe with drain := none } }
    exec (.drainEnd core) s = .next ((s1.modCore c fun k => { k with mxe := k.mxe.setAcc b.acc a.clear }).epiPush c b.actKey
      ((s.act? b.actKey).elim [] Act.consts) (decEpi b.k1) a bias)) ∧
  (∀ (s : State) (core : BitVec 8) (slot : BitVec 2) (b : Binding),
    let c := core.toNat
    nget (s.core c).mxe.slots slot.toNat = some b → (s.core c).mxe.mutePassed slot.toNat = true →
    ∃ t, exec (.mutePassed core slot) s = .next t ∧
      nget (t.core c).mxe.slots slot.toNat = some { b with state := if b.state = .running then .muted else b.state, muting := false })

/-! ### Steps of the agents: the scheduler and the loader -/

/-- Tier 1. The runnable context of the highest priority takes a free slot, or one resident begins to leave for it; a
pre-emption begins, its chords are abandoned after 16,384 cycles, its steps follow one another as each ends, and its
slot is freed; a granted context is restored from blocks whose CRC matches, with the resumes accepted while it was
away; a launch reads its descriptor and its tables, is given a number and, where its one package is this one and its
cores have room, is placed; an end order is carried out; and the owner's commands have their effect in the states that
allow them, with ERR 2 in the others, and none while BUSY. (What a save and a restore hold beyond R333, and where it
lies, is assumption log 20; a resume noted during a restore is log 42; a broken descriptor that stops its context with
ERR 1 at residency is log 40.) (R311, R326, R327, R328, R329, R330, R331, R332, R333, R334, R335, R336) -/
def Obligations.SchedulerSteps : Prop :=
  (∀ (s : State) (x : BitVec 12), let s0 := s.noteWaiting
    s0.nextCtx = some x →
    (s0.leaving = true ∨ s0.idleCtx = none → s0.slotsTaken < 16 → s0.links.pkgValid = true → exec .residencyDecision s = .next (s0.grantSlot x)) ∧
    (s0.leaving = false → s0.idleCtx = none → 16 ≤ s0.slotsTaken → ∀ n, s0.displaced x = some n →
      exec .residencyDecision s = .next (s0.modCtx n fun x => { x with st := .leaving, phase := 0 }))) ∧
  (∀ (s : State) (n : BitVec 12), let x := s.ctx n
    x.st = .leaving →
    (x.phase = 0 → (∀ m ∈ s.knownCtxs, (s.ctx m).st = .leaving → (s.ctx m).phase = 0) →
      exec (.preemptBegin n) s = .next (s.setCtx n { x with phase := 1, phaseAt := s.cycle })) ∧
    (x.restoring = false → x.phase = 1 → s.chordsGone n = true →
      exec (.preemptSave n) s = .next ((s.muteCtx n).modCtx n fun x => { x with phase := 3 })) ∧
    (x.restoring = false → x.phase = 3 → s.quiet n = true →
      exec (.preemptSave n) s = .next (((nkeys s.cores).foldl (fun s c => s.spillCore n c) s).modCtx n fun x => { x with phase := 4 })) ∧
    (x.restoring = false → x.phase = 4 → ∀ u, s.saveCtx n = some u → exec (.preemptSave n) s = .next (u.modCtx n fun x => { x with phase := 5 })) ∧
    (x.phase = 5 → ∃ t, exec (.preemptSaveComplete n) s = .next t ∧ (t.ctx n).st = (if x.toStop then .stopped else .saved) ∧
      (t.ctx n).saved = x.saved ∧ (t.ctx n).phase = 0 ∧ t.cores = s.cores ∧ t.homes = s.homes ∧
      (s.ctxRegs.cmd = some n → t.ctxRegs.busy = false))) ∧
  (∀ (s : State) (core : BitVec 8) (slot : BitVec 4) (ch : Chord), s.chord? core.toNat slot.toNat = some ch → ch.todo = none →
    (s.ctx ch.ctx).st = .leaving → (s.ctx ch.ctx).phase = 1 → (s.ctx ch.ctx).phaseAt + 16384 ≤ s.cycle →
    exec (.preemptChordAbandon core slot) s = .next (((((ch.lanes.foldl (fun s l => s.abandonLane core.toNat ch l.2) s).dropChordEffs ch).dropReads
      core.toNat slot.toNat ch).delChord core.toNat slot.toNat).examineFifo core.toNat)) ∧
  (∀ (s : State) (n : BitVec 12), let x := s.ctx n
    let s1 := x.resumes.foldl (fun s id => (s.closeFault id).resumeEngines n id) s
    x.st = .resident → x.restoring = true →
    ((∃ y ∈ x.saved, s.blockGood n y = false) → exec (.contextRestore n) s = .next
      ((x.saved.foldl (fun s y => s.denyPages n (x.desc.save.toNat + 2 ^ 22 * y.core) (2 ^ 22)) s).refuseRestore n 5 { cause := 0x11 })) ∧
    ((∀ y ∈ x.saved, s.blockGood n y = true) → (s1.ctx n).trapStop = none →
      (∀ u, s1.setUpTrap n = .ready u →
        let v := ((x.saved.foldl (fun s y => s.restoreCore n y) u).restoreCounters n).unmuteCtx n
        exec (.contextRestore n) s = .next (x.resumes.foldl (fun s id => s.resumeCores n id)
          (v.modCtx n fun x => { x with restoring := false, saved := [], resumes := [], idleSince := v.cycle, trapRefused := false }))) ∧
      (∀ u, s1.setUpTrap n = .fails u → exec (.contextRestore n) s = .next ((u.readDone n).refuseRestore n 1 {})))) ∧
  (∀ (s : State) (n : BitVec 12) (y : SavedCore),
    (s.blockGood n y = true ↔ s.onOwnPages n ((s.ctx n).desc.save.toNat + 2 ^ 22 * y.core) (2 ^ 22) = true ∧
      s.blockBad n ((s.ctx n).desc.save.toNat + 2 ^ 22 * y.core) = false ∧
      BitVec.ofNat 32 (natOfBytes (s.abytes n ((s.ctx n).desc.save.toNat + 2 ^ 22 * y.core + 0x3FFFFC) 4)) = State.crc32 (s.blockBytes n y.core))) ∧
  (∀ (s : State) (i : Nat) (q : LReq), s.loader.queue[i]? = some q → q.stop = none →
    let s0 := s.loadDesc q.ctx
    (s0.ctx q.ctx).desc.valid = true →
    (∀ desc vec bs u, q.num = none → q.host = some (desc, vec) → q.stage = 0 → desc.toNat % 64 = 0 → loaderBytes s0 q.ctx 0 desc.toNat 64 = .ok (bs, u) →
      ∀ q', q.ofDesc bs = some q' → exec (.launchRequest i) s = .next (((u.bump.readDone q.ctx).setReq i q').settleWait q.ctx)) ∧
    (∀ h ps u pl v place, q.num = none → q.host = some h → q.stage = 1 → loaderBytes s0 q.ctx 0 q.paramVa.toNat (8 * q.nparam) = .ok (ps, u) →
      loaderBytes u q.ctx 0 q.placeVa.toNat (48 * q.nplace) = .ok (pl, v) → placementOf pl q.nplace = some place →
      exec (.launchRequest i) s = .next (((v.bump.readDone q.ctx).setReq i { q with
        stage := 2, placement := place, params := (List.range q.nparam).map fun k => BitVec.ofNat 64 (bytesAt ps (8 * k) 8) }).settleWait q.ctx)) ∧
    (∀ img e a, q.num = none → q.from_ = none → (q.host = none ∨ 2 ≤ q.stage) → s0.loaded? q.ctx q.image.toNat = some img → img.entries[q.entry]? = some e → e.1 ≠ 0 →
      s0.nextNumber q.ctx = some a → ∃ t, exec (.launchRequest i) s = .next t ∧ t.loader.queue = lset s0.loader.queue i { q with num := some a } ∧
        (t.ctx q.ctx).lastAct = a) ∧
    (∀ num img, q.num = some num → s0.loaded? q.ctx q.image.toNat = some img →
      exec (.launchRequest i) s = .next ((s0.placeStep i q num img).settleWait q.ctx)) ∧
    (∀ num img mask cores u,
      let d := (s0.ctx q.ctx).desc
      let key := actKey q.ctx num
      let e := (img.entries[q.entry]?).getD (0, 0)
      q.num = some num → s0.loaded? q.ctx q.image.toNat = some img → q.from_ = none → q.phase = 0 → q.placement = [(s0.pkg, mask)] → q.answers = [] →
      (∀ c ∈ mask, s0.coreSecure c = d.secure) → (s0.ctx q.ctx).st = .resident → (s0.ctx q.ctx).restoring = false →
      s0.ownCores d img mask = some cores → placeCores key d img cores s0 = some u →
      let a : Act := { ctx := q.ctx, act := num, image := img.va, size := img.size, consts := constBank img q.params, pkgs := [(s0.pkg, cores)],
                       plan := img.plan, count := q.count, launcher := q.launcher, notify := q.notify,
                       host := q.host.map fun h => (q.record, h.2), entry := e, home := none }
      exec (.launchRequest i) s = .next ((((u.bump.setAct key a).placeTrap q.ctx).goStep i q num e).settleWait q.ctx))) ∧
  (∀ (s : State) (n : BitVec 12) (act : BitVec 16) (a : Act), s.act? (actKey n act) = some a → a.ending = true →
    (∀ p ∈ s.cores, p.2.committing n act = false) → (s.discardAct n act).ctxRegs.cmd ≠ some n → exec (.endOrder n act) s = .next (s.discardAct n act)) ∧
  (∀ (s : State) (m : Master) (n : BitVec 12), s.sec.bootState = 2 → s.owned m = true → s.ctxRegs.busy = false →
    let s0 : State := { s with ctxRegs := { s.ctxRegs with err := 0 } }
    let run : State → State := fun u => { u with ctxRegs := { u.ctxRegs with busy := true, cmd := some n } }
    let bad : State := { s with ctxRegs := { s.ctxRegs with err := 2 } }
    let x := s.ctx n
    (x.st = .resident →
      exec (.ctxPreempt m n) s = .next (run ((s0.setCtx n { x with st := .leaving, phase := 0 }).modCtx n fun x => { x with byCmd := true })) ∧
      exec (.ctxStop m n) s = .next (run (s0.setCtx n { x with st := .leaving, phase := 0, toStop := true }))) ∧
    (x.st ≠ .resident → exec (.ctxPreempt m n) s = .next bad) ∧
    (x.st = .leaving → exec (.ctxStop m n) s = .next (run (s0.setCtx n { x with toStop := true }))) ∧
    (x.st = .saved → exec (.ctxStop m n) s = .next (s0.setCtx n { x with st := .stopped })) ∧
    (x.st = .absent ∨ x.st = .stopped → exec (.ctxStop m n) s = .next bad) ∧
    (x.st = .stopped → exec (.ctxResume m n) s = .next (s0.setCtx n { x with st := .saved, parked := false, waitSince := if s0.hasWork n then s.cycle else 0 })) ∧
    (x.st ≠ .stopped → exec (.ctxResume m n) s = .next bad) ∧
    (exec (.ctxEnd m n) s = .next (s0.cmdEnd n)) ∧
    (x.st = .saved ∨ x.st = .stopped → s0.descBroken n = false → exec (.ctxReload m n) s = .next (s0.readSyms n (s0.tableDesc n).symtab.toNat)) ∧
    (x.st = .resident ∨ x.st = .leaving ∨ x.st = .absent → exec (.ctxReload m n) s = .next bad)) ∧
  (∀ (s : State) (m : Master) (n : BitVec 12), s.ctxRegs.busy = true → s.owned m = true →
    exec (.ctxPreempt m n) s = .next s ∧ exec (.ctxStop m n) s = .next s ∧ exec (.ctxResume m n) s = .next s ∧
    exec (.ctxEnd m n) s = .next s ∧ exec (.ctxReload m n) s = .next s)

/-! ### Steps of the agents: hypotheses, sympathy and page selection -/

/-- Tier 1. The hypothesis table marks the target of a resolution that passes its check, or the target with its
descendants, and fails one that does not; a sweep's phase B follows its phase A, and its end frees or merges the HIDs
and sends the completion token; waiting reservations are obtained as ways come free, and lanes that waited 16,384
cycles are doomed and obtain none; a SYMC reads its tile, finds the newest entry of its key within age, compares, and
sends one outcome to every lane, or stops where its directory or entry is barred; a SYMP writes its slot first, and its
record once the slot is accepted; a SYMP and a SYMR whose writes are acknowledged send their token and end; a
selection, from the page at which it stopped, publishes its ranked pages. (That an engine reads at the instant of its
step is assumption log 14; that a selection stands still while its context is away is log 29; that the merge takes
place at the end of the sweep is log 32.) (R347, R349, R350, R354, R357, R358, R368,
R370, R380, R383, R384, R385) -/
def Obligations.SpeculationSteps : Prop :=
  (∀ (s : State) (n : BitVec 12) (q : HypReq) (r : List HypReq), (s.ctx n).hypQ = q :: r → (s.ctx n).fires = true → (s.ctx n).sweep = none →
    let s0 := s.modCtx n fun x => { x with hypQ := r }
    (s0.resOk n q.refute q.target q.hid = false → exec (.hypothesisRequest n) s = .next (s0.hresToken n q true)) ∧
    (s0.resOk n q.refute q.target q.hid = true → ∃ t, exec (.hypothesisRequest n) s = .next t ∧
      let ids := if q.refute then s0.descendants n q.target else [q.target]
      (t.ctx n).sweep = some { req := q, ids } ∧ (t.ctx n).hypQ = r ∧
      (t.ctx n).hyps = (s.ctx n).hyps.map (fun p =>
        if ids.contains (BitVec.ofNat 8 p.1) then (p.1, { p.2 with state := if q.refute then 3 else 2 }) else p) ∧
      t.cores = s.cores ∧ t.net = s.net ∧ t.homes = s.homes)) ∧
  (∀ (s : State) (n : BitVec 12) (w : Sweep), (s.ctx n).sweep = some w →
    (w.b = false → s.phaseADone n w.ids = true →
      (w.req.refute = true → exec (.sweepPhaseB n) s =
        .next ((s.discardHids n w.ids).modCtx n fun x => { x with sweep := some { w with b := true } })) ∧
      (w.req.refute = false → ∀ u, s.flushTagged n w.ids = some u → exec (.sweepPhaseB n) s =
        .next (((s.taggedLines n w.ids).foldl (fun s l => s.engSigLine (sweepEngine n) s.pkg l) u).modCtx n fun x =>
          { x with sweep := some { w with b := true } }))) ∧
    (w.b = true →
      (w.req.refute = true → exec (.sweepEnd n) s =
        .next (((s.freeHids n w.ids).modCtx n fun x => { x with sweep := none }).hresToken n w.req false)) ∧
      (w.req.refute = false → s.mergeable n w.req.target = true → exec (.sweepEnd n) s =
        .next (((s.confirmEnd n w.req.target).modCtx n fun x => { x with sweep := none }).hresToken n w.req false)))) ∧
  (∀ (s : State) (core : BitVec 8) (slot : BitVec 4) (ch : Chord), s.chord? core.toNat slot.toNat = some ch →
    (∀ w u, ch.specs = [w] → s.cycle < w.since + 16384 → s.reserve ch.ctx w.hid w.line = some u →
      exec (.speculativeReservation core slot) s = .next (u.setChord core.toNat slot.toNat { ch with specs := [] })) ∧
    (∀ w, ch.specs = [w] → w.since + 16384 ≤ s.cycle → exec (.hypothesisCapacity core slot) s = .next (s.setChord core.toNat slot.toNat
      { ch.modLane w.lane (fun x => x.doomLate { cause := 0x0E, addr := w.addr } w.idx) with specs := [] }))) ∧
  (∀ (s : State) (n : Nat) (q : SymReq) (w : CompareWord) (tile : TileLoc), s.eng.syms[n]? = some q → q.kind = .symc w tile → s.symFirst n = true →
    s.countsOpen (symWho s q) .hits (keyClass q.handle) 24 = true → ∀ (x : Tile) (u0 : State), readTile s q.core (symWho s q) tile = .ok (x, u0) →
    let absent := fun (v : State) => exec (.symcCompare n) s = .next ((((v.symLog q [3]).symCount (symWho v q) .absences (keyClass q.handle) 1).symOutcome q
      w.mblock w.mport 3).endSym n q)
    (u0.symPlace q = none → absent u0) ∧
    (∀ c set way0, u0.symPlace q = some (c, set, way0) →
      (∀ b, u0.symBar q (dirVa c set) 128 true = some b → exec (.symcCompare n) s = .next (u0.symStopped n q b)) ∧
      (u0.symBar q (dirVa c set) 128 true = none →
      let v := u0.symSeek q (dirVa c set) 128
      (v.symDir q c set = none → absent (v.symEvent q.ctx c.cls)) ∧
      (∀ recs, v.symDir q c set = some recs → symNewest recs (q.handle.toNat % 2 ^ 32) q.step c.maxAge = none → absent v) ∧
      (∀ recs way, v.symDir q c set = some recs → symNewest recs (q.handle.toNat % 2 ^ 32) q.step c.maxAge = some way →
        let gen := ((recs[way]?).map fun r => r.gen.toNat).getD 0
        let i := c.first + set * (c.ways + 1) + way
        (∀ b, v.entryBar q (slotVa (v.ctx q.ctx) i) false = some b → exec (.symcCompare n) s = .next (v.symStopped n q b)) ∧
        (v.entryBar q (slotVa (v.ctx q.ctx) i) false = none →
        let u := v.symSeek q (slotVa (v.ctx q.ctx) i) (64 + x.span)
        (u.symEntry q (slotVa (u.ctx q.ctx) i) false = none → absent (u.symEvent q.ctx c.cls)) ∧
        ∀ e, u.symEntry q (slotVa (u.ctx q.ctx) i) false = some e →
        (symCompare q.handle x e = none → exec (.symcCompare n) s =
          .next ((((u.symLog q [2, way, gen]).symCount (symWho u q) .misses c.cls 1).symOutcome q w.mblock w.mport 2).endSym n q)) ∧
        (∀ k, symCompare q.handle x e = some (some k) → exec (.symcCompare n) s =
          .next ((((u.symLog q [1, way, gen, k]).symCount (symWho u q) .misses c.cls 1).symOutcome q w.mblock w.mport (BitVec.ofNat 64 (1 + k * 256))).endSym n q)) ∧
        (symCompare q.handle x e = some none → exec (.symcCompare n) s =
          .next ((((u.symLog q [0, way, gen]).symCount (symWho u q) .hits c.cls 1).symOutcome q w.hblock w.hport
            (BitVec.ofNat 64 (gen + i * 2 ^ 32 + 2 ^ 63))).endSym n q))))))) ∧
  (∀ (s : State) (n : Nat) (q : SymReq) (p : Word), s.eng.syms[n]? = some q → q.fin = some p → s.writesOut (s.symEngine q) 0 = false →
    (∀ w a b, q.kind = .symp w a b →
      exec (.sympStore n) s = .next ((s.symToken q w.cen w.cblock w.cport p (s.symEngine q)).endSym n q)) ∧
    (∀ w d, q.kind = .symr w d →
      exec (.symrReplay n) s = .next ((s.symToken q w.cen w.cblock w.cport p (s.symEngine q)).endSym n q))) ∧
  (∀ (s : State) (n : Nat) (q : SymReq) (w : StoreWord) (inp out : TileLoc) (a b : Tile) (u v : State) (c : SymClass) (set way0 : Nat) (recs : List DirRec),
    s.eng.syms[n]? = some q → q.kind = .symp w inp out → q.fin = none → q.due = none → s.symFirst n = true →
    readTile s q.core (symWho s q) inp = .ok (a, u) → readTile u q.core (symWho u q) out = .ok (b, v) → v.symPlace q = some (c, set, way0) →
    entryLen a b ≤ 2 ^ (9 + (v.ctx q.ctx).slotL) → v.symBar q (dirVa c set) 128 true = none →
    let y := v.symSeek q (dirVa c set) 128
    y.symDir q c set = some recs →
    let key := q.handle.toNat % 2 ^ 32
    let way := symWay recs c key q.step
    let gen : BitVec 32 := ((recs[way]?).map DirRec.gen).getD 0 + 1
    let va := slotVa (v.ctx q.ctx) (c.first + set * (c.ways + 1) + way)
    let head := bytesOfNat 4 key ++ bytesOfNat 4 q.step.toNat ++ bytesOfNat 4 gen.toNat
    let slot := head ++ [a.kindByte, BitVec.ofNat 8 a.vr, BitVec.ofNat 8 a.vc, b.kindByte, BitVec.ofNat 8 b.vr, BitVec.ofNat 8 b.vc]
      ++ List.replicate 46 0 ++ a.bytes ++ b.bytes
    y.symBar q va (entryLen a b) false = none → (∀ p ∈ y.symPlaces q va (entryLen a b), p ≠ none) →
    let t := y.vput q.ctx (some (s.symEngine q)) va (slot.take (entryLen a b)) (symWho y q).die
    exec (.sympStore n) s = .next (t.setSyms (lset t.eng.syms n { q with
      taken := true, due := some (dirVa c set + 16 * way, head ++ [1, 0, 0, 0], way, gen) }))) ∧
  (∀ (s : State) (n : Nat) (q : SymReq) (w : StoreWord) (inp out : TileLoc) (at_ way : Nat) (rec : List Byte) (gen : BitVec 32),
    s.eng.syms[n]? = some q → q.kind = .symp w inp out → q.fin = none → q.due = some (at_, rec, way, gen) →
    let e := s.symEngine q
    let t := (s.vput q.ctx (some e) at_ rec (symWho s q).die).symLog q [way, gen.toNat]
    (s.writesOut e 0 = true → exec (.sympStore n) s = .next s) ∧
    (s.writesOut e 0 = false → t.writesOut e 0 = false →
      exec (.sympStore n) s = .next ((t.symToken q w.cen w.cblock w.cport (gen.setWidth 64) e).endSym n q))) ∧
  (∀ (s : State) (n : Nat) (q : SymReq) (w : ReplayWord) (dest : TileLoc) (c : SymClass) (set way : Nat) (recs : List DirRec) (d : DirRec) (t : Tile)
      (m : Nat) (u : State),
    s.eng.syms[n]? = some q → q.kind = .symr w dest → q.fin = none → s.symFirst n = true → s.symPlace q = some (c, set, way) →
    s.countsOpen (symWho s q) .bytes c.cls 16 = true → s.symBar q (dirVa c set) 128 true = none →
    let y := s.symSeek q (dirVa c set) 128
    let i := (q.handle.extractLsb' 32 31).toNat
    y.entryBar q (slotVa (y.ctx q.ctx) i) true = none →
    let z := y.symSeek q (slotVa (y.ctx q.ctx) i) 64
    y.symDir q c set = some recs → recs[way]? = some d → d.valid = true → d.gen = q.handle.extractLsb' 0 32 →
    z.symEntry q (slotVa (z.ctx q.ctx) i) true = some t →
    replayTile z q (s.symEngine q) t dest = .wrote m u →
    let v0 := u.symCount (symWho u q) .bytes c.cls (BitVec.ofNat 64 m)
    let v := (if w.fen then v0.symCount (symWho v0 q) .flops c.cls q.flops else v0).symLog q [59, way, d.gen.toNat]
    v.writesOut (s.symEngine q) 0 = false →
    exec (.symrReplay n) s = .next ((v.symToken q w.cen w.cblock w.cport (BitVec.ofNat 64 m) (s.symEngine q)).endSym n q)) ∧
  (∀ (s : State) (n : Nat) (j : PselJob), s.eng.psels[n]? = some j → j.stop = none → s.streamsRun j.ctx = true →
    let key := actKey j.ctx j.act
    let who := pselWho j
    ∀ pl u ranked v r, engAccess s who (j.query.toNat : Nat) 512 .read = .ok pl u →
    scorePages who ((List.range 128).map fun i => decodeFmt .fp32 (bytesAt (pl.map (engByte u)) (4 * i) 4)) j.list.toNat (j.w.npages.toNat - j.page) j.page j.acc u.bump
      = .ok (ranked, v) → (v.core j.core).ring? key j.w.ring.toNat = some r →
    let k := min j.k j.w.npages.toNat
    let slot := r.slotAt r.tail 0
    exec (.pselSelect n) s = .next (((v.modCore j.core fun c =>
        ((ranked.take k).zipIdx).foldl (fun c p => (c.setElem r slot (2 * p.2) p.1.1).setElem r slot (2 * p.2 + 1) p.1.2)
          (c.zeroSram (r.slotAddr slot) (r.slotAddr slot + r.desc.slotBytes))).pushRing
      j.core key r.num ((2 * k + 31) / 32) (if 32 ≤ 2 * k then 32 else 2 * k)).endPsel n j false))

/-! ### Steps of the agents: translation, the host, security and management -/

/-- Tier 1. A walk changes nothing but cached translations and the model's count of free choices (assumption log 11). The
owner's resume of an open fault closes it and lets go on what waits under it, at once where the instances are on their
cores; where the context is away the resume is noted and the fault stays open until the restore, and nothing of it is
resumed or refused twice; where the context has ended the resume only closes the fault; a refusal closes it and raises PROTECTION in what waits. An invalidation by the owner while
none runs drops every covered cached translation at once, in the cores too, and sets BUSY; a range of no units or of
the reserved unit sets ERR alone; its end, once every access translated before it is done, clears BUSY, and for a
range has every L1 written back and dropped first. (That a resume during a restore is carried out after it, and that a
walk changes nothing but cached translations, are read from the rules by inference, assumption log 42.) (R386, R389,
R390, R393, R395, R397, R398, R399) -/
def Obligations.TranslationSteps : Prop :=
  (∀ (s : State) (core : BitVec 8) (n : BitVec 12) (va : BitVec 57), ∃ u, exec (.translationWalk core n va) s = .next u ∧
    u = { s with cores := u.cores, flow := { s.flow with freeCtr := u.flow.freeCtr },
                 xlt := { s.xlt with leaves := u.xlt.leaves, nonLeaves := u.xlt.nonLeaves } } ∧
    ∀ c, { u.core c with utlb := [] } = { s.core c with utlb := [] }) ∧
  (∀ (s : State) (m : Master) (f : PFault), s.sec.bootState = 2 → s.owned m = true → (s.xlt.faults.find? fun x => x.id == f.id) = some f →
    let s0 : State := { s with xlt := { s.xlt with faults := s.xlt.faults.filter fun x => x.id != f.id } }
    let s1 := s.modCtx f.ctx fun x => { x with resumes := x.resumes ++ [f.id] }
    ((s.ctx f.ctx).resumes.contains f.id = true → exec (.faultResume m f.id) s = .next s ∧ exec (.faultRefuse m f.id) s = .next s) ∧
    ((s.ctx f.ctx).resumes.contains f.id = false →
      (s.here f.ctx = true → exec (.faultResume m f.id) s = .next ((s0.resumeEngines f.ctx f.id).resumeCores f.ctx f.id)) ∧
      (s.here f.ctx = false → (s.ctx f.ctx).st = .saved ∨ (s.ctx f.ctx).st = .leaving ∨ (s.ctx f.ctx).st = .stopped →
        exec (.faultResume m f.id) s = .next (s1.settleWait f.ctx)) ∧
      (s.here f.ctx = false → (s.ctx f.ctx).st = .resident →
        exec (.faultResume m f.id) s = .next ((s1.closeFault f.id).resumeEngines f.ctx f.id)) ∧
      (s.here f.ctx = false → (s.ctx f.ctx).st = .absent → exec (.faultResume m f.id) s = .next (s0.resumeEngines f.ctx f.id)) ∧
      exec (.faultRefuse m f.id) s = .next (((nkeys ((s0.refuseEngines f.ctx f.id).refuseSaved f.ctx f.id).cores).foldl
        (fun s c => s.refuseCore f.ctx f.id c) ((s0.refuseEngines f.ctx f.id).refuseSaved f.ctx f.id)).settleWait f.ctx))) ∧
  (∀ (s : State) (m : Master) (n : BitVec 12) (gran : BitVec 2) (count : BitVec 16),
    s.sec.bootState = 2 → s.owned m = true → s.xlt.busy = false →
    let covers := fun (a : Answer) (op : Nat) (p : BitVec 12 → Nat → Nat → Bool) => ∃ u v, a = .next u ∧
      u.xlt.busy = true ∧ u.xlt.err = 0 ∧ u.xlt.inval = some v ∧ v.op = op ∧ (op ≠ 3 → v.ctx = n) ∧ u.homes = s.homes ∧ u.ctxs = s.ctxs ∧
      (∀ c l, l ∈ (u.core c).utlb ↔ l ∈ (s.core c).utlb ∧ p l.ctx l.base (l.base + l.size) = false) ∧
      (∀ i l, l ∈ (nget u.xlt.leaves i).getD [] ↔ l ∈ (nget s.xlt.leaves i).getD [] ∧ p l.ctx l.base (l.base + l.size) = false)
    let lo := s.xlt.invAddr.toNat
    let unit := if gran = 0 then 4096 else if gran = 1 then 2097152 else 1073741824
    (gran = 3 ∨ count = 0 → exec (.invalidateRange m n gran count) s = .next { s with xlt := { s.xlt with err := 1 } }) ∧
    (gran ≠ 3 → count ≠ 0 → covers (exec (.invalidateRange m n gran count) s) 1
      (fun k a b => k == n && decide (a < lo + count.toNat * unit) && decide (lo < b))) ∧
    covers (exec (.invalidateContext m n) s) 2 (fun k _ _ => k == n) ∧
    covers (exec (.invalidateAll m) s) 3 (fun _ _ _ => true)) ∧
  (∀ (s : State) (v0 : Inval), s.xlt.inval = some v0 →
    let v := s.invalMark v0
    (s.invalDone v = false → exec .invalidationEnd s = .next { s with xlt := { s.xlt with inval := some v } }) ∧
    (s.invalDone v = true → v.op ≠ 1 → exec .invalidationEnd s = .next { s with xlt := { s.xlt with busy := false, inval := none } }) ∧
    (s.invalDone v = true → v.op = 1 → ∀ u, (nkeys s.cores).foldl (fun (acc : Option State) c => acc.bind fun s => s.flushAll c) (some s) = some u →
      exec .invalidationEnd s = .next { u with xlt := { u.xlt with busy := false, inval := none } }))

/-- Tier 1. After the boot a write to an enabled ingress page with room by the owning host, 32 bytes at its start, becomes
a token rewritten by the port, which leaves it at once unless its context’s tokens are held back; another write is
dropped and counted, and a write of a master that is not the owner only counts NOWNWR. The window, as far as its BAR
goes, writes and reads memory. Records and events leave in order, each followed by its message. A claim succeeds while
there is no owner, and of those of one cycle the host's comes before the baseboard controller's and that before the
peer's (claims that the model takes one after the other in one cycle, assumption log 46); a handover takes effect once
no command and no invalidation runs and its event stands in the ring, if that is on. (That a handover changes PEERPKG
only when NEW is 3 is assumption log 41.) (R405, R406, R407, R409, R410, R412, R414, R415, R417, R418, R419, R420) -/
def Obligations.HostSteps : Prop :=
  (∀ (s : State) (port : BitVec 8) (off : BitVec 12) (bytes : List Byte), s.sec.bootState = 2 → s.owned .host = true →
    let g := s.ingress port.toNat
    (bytes.length ≠ 32 ∨ off ≠ 0 ∨ g.en = false ∨ 64 ≤ g.fifo.length ∨ s.replaying g.ctx = true → exec (.ingressWrite port off bytes) s = .next (s.dropIngress port.toNat)) ∧
    (bytes.length = 32 → off = 0 → g.en = true → g.fifo.length < 64 → s.replaying g.ctx = false →
      let s0 := s.loadDesc g.ctx
      let t := s0.rewriteIngress g.ctx (Token.ofWords (wordsOfBytes 4 bytes))
      let s1 := s0.recordToken t
      let g1 := s1.ingress port.toNat
      let holding := fun (l : List Token) => { s1 with host := { s1.host with ingress := nput s1.host.ingress port.toNat { g1 with fifo := l } } }
      ((s0.ctx g.ctx).desc.secure = false ∨ s0.sec.hostWorld = true →
        exec (.ingressWrite port off bytes) s = .next (State.portOut (holding (g1.fifo ++ [t])) port.toNat) ∧
        (g1.fifo = [] → (t.act = 0 ∨ (holding [t]).spillStuck t.ctx = false) → s1.heldFrom .host = false → ∃ u : State, exec (.ingressWrite port off bytes) s = .next (u.deliverIngress g1.vec t) ∧
          (u.ingress port.toNat).fifo = [] ∧ u.ctxs = s1.ctxs ∧ u.net = s1.net ∧ u.loader = s1.loader)) ∧
      ((s0.ctx g.ctx).desc.secure = true → s0.sec.hostWorld = false → exec (.ingressWrite port off bytes) s =
        .next (s0.deny.dropIngress port.toNat)))) ∧
  (∀ (s : State) (a : Nat) (bytes : List Byte), s.sec.bootState = 2 → s.owned .host = true →
    a + bytes.length ≤ s.host.bar2 → (∀ i, i < bytes.length → s.regionWorld (a + i) = false ∨ s.sec.hostWorld = true) →
    ∃ u, exec (.bar2Write a bytes) s = .next u ∧ u.homes = (s.acceptBytes (s.regionKey a) a bytes .host).homes ∧ u.cores = s.cores ∧ u.ctxs = s.ctxs) ∧
  (∀ (s : State) (a len : Nat), s.sec.bootState = 2 → a + len ≤ s.host.bar2 →
    (∀ i, i < len → s.regionWorld (a + i) = false ∨ s.sec.hostWorld = true) → ∃ u, exec (.bar2Read a len) s = .next u ∧ u.homes.mem = s.homes.mem ∧
      u.host.out = s.host.out ++ [.data ((List.range len).map fun i =>
        if 768 * 2 ^ 30 ≤ a + i then 0xFF else s.homeByte (s.regionKey (a + i)) (a + i))]) ∧
  (∀ (s : State) (r : RecordOut) (l : List RecordOut), s.host.records = r :: l → exec .completionRecord s =
    .next (State.msix { s with host := { s.host with
      records := l, out := s.host.out ++ [.write r.addr.toNat (r.words.map bytesOfWord).flatten none] } } r.vec)) ∧
  (∀ (s : State) (e : Event) (l : List Event), s.host.evQueue = e :: l → s.host.evEn = true →
    (s.host.evHead - s.host.evTail).toNat ≠ s.evEntries → s.host.evLocal = false → exec .eventWrite s =
      .next (State.admitEvent (State.msix { s with host := { s.host with
        evQueue := l, evHead := s.host.evHead + 1,
        out := s.host.out ++ [.write (s.host.evBase.toNat % 2 ^ 63 + 64 * (s.host.evHead.toNat % s.evEntries))
          ((s.eventWords e).map bytesOfWord).flatten none] } } (s.eventVec e)))) ∧
  (∀ (s : State) (m : Master) (v : Word), s.sec.bootState = 2 → s.owned m = true →
    (∃ u, exec (.hostEvctlWrite m v) s = .next u ∧ u.host.evLog2n = v.extractLsb' 0 5 ∧ u.host.evEn = v.getLsbD 8 ∧
      u.host.evVec = v.extractLsb' 16 11 ∧
      (v.getLsbD 8 = true → s.host.evEn = false → u.host.evHead = 0 ∧ u.host.evTail = 0) ∧
      (v.getLsbD 8 = false ∨ s.host.evEn = true → u.host.evHead = s.host.evHead ∧ u.host.evTail = s.host.evTail)) ∧
    exec (.hostEvtailWrite m v) s = .next { s with host := { s.host with evTail := v.extractLsb' 0 32 } } ∧
    (v.getLsbD 31 = true → s.host.handover = none → ¬(v.extractLsb' 0 2 = 3 ∧ v.extractLsb' 16 12 = 0xFFF) → exec (.hostHandover m v) s =
      .next { s with host := { s.host with handover := some (v.extractLsb' 0 2, v.extractLsb' 16 12) } })) ∧
  (∀ (s : State) (id : Nat) (seen : Word) (x : CasLoop), (s.host.cas.find? fun x => x.id == id && x.started) = some x →
    (seen = x.old → exec (.hostCasResponse id seen) s = .next (s.casEnd x x.old false)) ∧
    (seen ≠ x.old → exec (.hostCasResponse id seen) s = .next (s.casTurn x seen))) ∧
  (∀ (s : State) (id : Nat) (q : Request), (s.reqs.find? fun q => q.id == id && q.pkg.isNone) = some q → (∀ x ∈ s.host.cas, x.id ≠ id) →
    (∀ a b, q.what ≠ .claim a b) →
    (∀ v, ∃ u, s.answered q (bytesOfNat 16 v.toNat) false 0 = some u ∧ exec (.hostCompletion id (.data v)) s = .next u) ∧
    (∃ u, s.answered q [] true 0 = some u ∧ exec (.hostCompletion id .poisoned) s = .next u) ∧
    ((∀ a b c, q.what ≠ .load a b c) → ∃ u, s.answered q [] false 0 = some u ∧ exec (.hostCompletion id .ack) s = .next u)) ∧
  (∀ (s : State) (m : Master), s.sec.bootState = 2 → Master.code s m ≠ 0 →
    let taken := { s with host := { s.host with owner := Master.code s m, claimedAt := some s.cycle } }
    (s.host.owner = 0 → exec (.hostClaim m) s = .next taken) ∧
    (s.host.owner ≠ 0 → s.host.claimedAt = some s.cycle → Master.code s m < s.host.owner → exec (.hostClaim m) s = .next taken) ∧
    (s.host.owner ≠ 0 → s.host.claimedAt ≠ some s.cycle ∨ s.host.owner ≤ Master.code s m → exec (.hostClaim m) s = .next s)) ∧
  (∀ (s : State) (p : BitVec 12), s.sec.bootState = 2 → s.host.owner = 0 →
    exec (.hostPeerset .bmc p) s = .next { s with host := { s.host with peerPkg := p } }) ∧
  (∀ (s : State) (new : BitVec 2) (p : BitVec 12), s.host.handover = some (new, p) →
    (s.ctxRegs.busy = true ∨ s.xlt.busy = true → exec .handoverEffect s = .next s) ∧
    (s.ctxRegs.busy = false → s.xlt.busy = false →
      let peer := if new = 3 then p else s.host.peerPkg
      let t := s.eventsOut
      let u := (t.event { typ := 9, sub := new.setWidth 8, words := [peer.setWidth 64] }).eventsOut
      (s.host.evEn = true ∧ (t.host.evQueue ≠ [] ∨ u.host.evQueue ≠ []) → exec .handoverEffect s = .next s) ∧
      (s.host.evEn = false ∨ (t.host.evQueue = [] ∧ u.host.evQueue = []) → u.cores = s.cores ∧ exec .handoverEffect s =
        .next { u with host := { u.host with owner := new, claimedAt := none, peerPkg := peer, handover := none } }))) ∧
  (∀ (s : State) (m : Master) (off : Nat) (v : Word), s.sec.bootState = 2 → s.owned m = true → off % 8 = 0 →
    (off < 0x400000 ∨ 0x800000 ≤ off) → off ∉ [0x200000, 0x10010, 0x10008, 0x300018] → exec (.registerWrite m off v) s = .next (s.regSet off v)) ∧
  (∀ (s : State) (m : Master) (v : Word) (n : BitVec 12), s.sec.bootState = 2 → s.owned m = false →
    let t := { s with host := { s.host with nownWr := if s.host.nownWr = 0xFFFFFFFF then s.host.nownWr else s.host.nownWr + 1 } }
    (∀ off, off % 8 = 0 → (off < 0x400000 ∨ 0x800000 ≤ off) → off ∉ [0x200000, 0x10010, 0x10008, 0x300018] →
      exec (.registerWrite m off v) s = .next t) ∧
    exec (.ctxEnd m n) s = .next t ∧ exec (.hostEvctlWrite m v) s = .next t ∧ exec (.hostHandover m v) s = .next t ∧
    exec (.invalidateAll m) s = .next t ∧ exec (.secLock m v) s = .next t ∧ exec (.keyLoad m v) s = .next t ∧ exec (.memdataWrite m v) s = .next t)

/-- Tier 1. The staging window is written and START is taken only before the boot; the boot ROM's verdict is success, with
every key slot given a key, the image measured, its alias pair certified and every other register at its reset value,
or the FAIL code of the first check that fails; LOCK only ever rises, and under it a secure slot's key stays; a report
is made of what stood when it was asked for; reset leaves the machine as it is after reset but for the model's own
counts, and a trip at its temperature does the same. (The functions of the boot and of the report, and what a report
covers, are open constants, assumption log 6; that a secure slot is judged by what it holds at the moment under LOCK
is log 41; what a reset leaves in memory is log 9.) (R421, R425, R426, R427, R428, R432, R433) -/
def Obligations.SecuritySteps : Prop :=
  (∀ (s : State) (off : Nat) (bytes : List Byte), s.sec.bootState = 0 → off + bytes.length ≤ 4194304 →
    exec (.stagingWrite .host off bytes) s = .next { s with sec := { s.sec with staging := mputs s.sec.staging off bytes } } ∧
    exec (.stagingWrite .bmc off bytes) s = .next { s with sec := { s.sec with staging := mputs s.sec.staging off bytes } } ∧
    exec (.bootStart .host) s = .next { s with sec := { s.sec with bootState := 1 } } ∧
    exec (.bootStart .bmc) s = .next { s with sec := { s.sec with bootState := 1 } }) ∧
  (∀ (s : State) (m : Master) (off : Nat) (bytes : List Byte), s.sec.bootState ≠ 0 →
    (s.sec.bootState ≠ 2 ∨ s.owned m = true → exec (.stagingWrite m off bytes) s = .next s ∧ exec (.bootStart m) s = .next s) ∧
    (s.sec.bootState = 2 → s.owned m = false →
      exec (.stagingWrite m off bytes) s = .next s.refuseWrite ∧ exec (.bootStart m) s = .next s.refuseWrite)) ∧
  (∀ s : State, s.sec.bootState = 1 →
    (s.bootFault ≠ 0 → exec .bootComplete s = .next { s with sec := { s.sec with bootState := 3, bootFail := s.bootFault } }) ∧
    (s.bootFault = 0 → ∃ t : State, exec .bootComplete s = .next t ∧
      let m := Config.sha384 (mgets s.sec.staging 0 (0x800 + s.bodySize + 64 + 3309))
      t = { State.reset with flow := s.flow, homes := s.homes, host := { State.reset.host with out := s.host.out }, sec := t.sec } ∧
      t.sec = { State.reset.sec with
        bootState := 2, keys := t.sec.keys, measure := m, boots := s.sec.boots + 1, staging := s.sec.staging, svnUp := t.sec.svnUp,
        alias_ := Config.aliasPair m, report := Config.certificates ++ Config.aliasCertificate (Config.aliasPair m) } ∧
      s.sec.svnUp ≤ t.sec.svnUp ∧ ∀ i : Nat, i < 256 → ∃ k, nget t.sec.keys i = some k ∧ k.world = false)) ∧
  (∀ (s : State) (m : Master) (v : Word), s.sec.bootState = 2 → s.owned m = true →
    let slot : BitVec 8 := v.extractLsb' 0 8
    let k := s.keySlot slot
    exec (.secLock m v) s = .next { s with sec := { s.sec with lock := s.sec.lock || v.getLsbD 0 } } ∧
    (v.getLsbD 31 = true → s.sec.lock = false ∨ k.world = false → exec (.keyLoad m v) s = .next { s with sec := { s.sec with
      keys := nput s.sec.keys slot.toNat { world := v.getLsbD 8, key := s.sec.keyData, gen := k.gen + 1 } } }) ∧
    (s.sec.lock = true → k.world = true → exec (.keyLoad m v) s = .next s) ∧
    (s.sec.attBusy = false → ∃ t, exec (.attestationRequest m) s = .next t ∧ t.sec.attBusy = true ∧
      ∃ u, exec .attestationDone t = .next u ∧ u.sec.attBusy = false ∧
        let body := Config.reportBody s.sec.nonce s.sec.measure s.imageSvn s.sec.lock s.links.pkgId
          (Config.sha384 (s.worldWords.map bytesOfWord).flatten)
        u.sec.report = body ++ Config.aliasSignatures s.sec.alias_ body)) ∧
  (∀ s : State, s.sec.attBusy = true → ∃ t, exec .attestationDone s = .next t ∧ t.sec.attBusy = false) ∧
  (∀ s : State, ∃ t, exec .reset s = .next t ∧ t.ctxs = [] ∧ t.acts = [] ∧ t.cores = [] ∧ t.reqs = [] ∧ t.net = [] ∧
    t.loader = State.reset.loader ∧ t.xlt = State.reset.xlt ∧ t.links = State.reset.links ∧ t.mgmt = State.reset.mgmt ∧ t.dbg = State.reset.dbg ∧
    t.ctxRegs = State.reset.ctxRegs ∧ t.eng = State.reset.eng ∧ t.host = { State.reset.host with out := s.host.out } ∧
    t.sec = { State.reset.sec with boots := s.sec.boots, svnUp := s.sec.svnUp } ∧ t.homes.mem = [] ∧ t.flow.cycle = s.flow.cycle ∧ t.flow.agenda = s.flow.agenda) ∧
  (∀ (s : State) (hbm : Bool) (temp : BitVec 8), (if hbm then 105 else 110) ≤ temp.toNat → ∃ t, exec (.trip hbm temp) s = .next t ∧
    t.ctxs = [] ∧ t.acts = [] ∧ t.cores = [] ∧ t.sec.bootState = 0 ∧ t.sec.lock = false ∧ t.host.owner = 0 ∧ t.links = State.reset.links)

/-- Tier 1. Capping begins when the average exceeds the limit, held to 500 to 2,800 W, and lasts until it falls below; a
warning comes at an upward crossing of WARN; an HBM stack is throttled from 85 degrees and to a quarter from 95, and
HBMMAX is the hottest stack’s temperature; the baseboard controller may ask for cooling whoever owns the module;
MGMT_MEMDATA reads and writes memory at ADDR and advances it; I3C reads and writes registers as the baseboard
controller; a corrected error is counted and an uncorrectable one is handled where it lies; logged tokens are
injected, and a replay that cannot follow its log, or reaches its end, stops (assumption log 23). (R343, R430, R431,
R432, R433, R434, R435, R437) -/
def Obligations.ManagementSteps : Prop :=
  (∀ (s : State) (now : BitVec 12),
    let limit := max 500 (min 2800 s.mgmt.pwrLimit.toNat)
    let at_ := fun (capped : Bool) => ({ s with mgmt := { s.mgmt with pwrNow := now, capped } } : State)
    let tell := fun (sub : Byte) (u : State) => u.event { typ := 16, sub, words := [s.mgmt.pwrLimit.setWidth 64, now.setWidth 64] }
    (limit < now.toNat → exec (.powerCap now) s = .next (if s.mgmt.capped then at_ true else tell 0 (at_ true))) ∧
    (now.toNat < limit → exec (.powerCap now) s = .next (if s.mgmt.capped then tell 1 (at_ false) else at_ false)) ∧
    (now.toNat = limit → exec (.powerCap now) s = .next (at_ s.mgmt.capped))) ∧
  (∀ (s : State) (die : BitVec 4) (temp : BitVec 8),
    let s0 := { s with mgmt := { s.mgmt with dieMax := temp } }
    exec (.temperatureWarning die temp) s = .next (if s.mgmt.dieMax.toNat < s.mgmt.warn.toNat ∧ s.mgmt.warn.toNat ≤ temp.toNat
      then State.event s0 { typ := 17, words := [temp.setWidth 64, die.setWidth 64] } else s0)) ∧
  (∀ (s : State) (stack : BitVec 4) (temp : BitVec 8), ∃ t, exec (.hbmThrottle stack temp) s = .next t ∧
    nget t.mgmt.hbmTemp stack.toNat = some temp ∧ (∀ p ∈ t.mgmt.hbmTemp, p.2 ≤ t.mgmt.hbmMax) ∧ (∃ p ∈ t.mgmt.hbmTemp, p.2 = t.mgmt.hbmMax) ∧
    t.mgmt.hbmThr.getLsbD stack.toNat = decide (85 ≤ temp.toNat) ∧ t.mgmt.hbmQuarter.getLsbD stack.toNat = decide (95 ≤ temp.toNat) ∧
    ∀ i, i ≠ stack.toNat → t.mgmt.hbmThr.getLsbD i = s.mgmt.hbmThr.getLsbD i) ∧
  (∀ (s : State) (code : Byte), s.sec.bootState = 2 → code ≠ 0 → exec (.mgmtCool .bmc code) s = .next (s.event { typ := 23, sub := code })) ∧
  (∀ (s : State) (m : Master) (v : Word), s.sec.bootState = 2 → s.owned m = true →
    let a := s.mgmt.memAddr.toNat
    let next := fun (u : State) => { u with mgmt := { u.mgmt with memAddr := BitVec.ofNat 64 ((a + 8) % 2 ^ 52) } }
    exec (.memdataWrite m v) s = .next (next (s.acceptBytes (s.regionKey a) a (bytesOfWord v))) ∧
    exec (.memdataRead m) s = .next ((next (s.l2Enter [] (s.regionKey a) (lineOf a))).answerMaster m (wordOfBytes ((List.range 8).map fun i =>
      if Config.memBytes ≤ a + i then 0xFF else s.homeByte (s.regionKey a) (a + i)))).bump) ∧
  (∀ (s : State) (off v : Nat), off < 2 ^ 32 → off % 8 = 0 → v < 2 ^ 64 →
    (∃ t, exec (.i3cAccess (2 :: bytesOfNat 4 off ++ bytesOfNat 8 v)) s = .next t ∧
      t = s.regWrite .bmc off (BitVec.ofNat 64 v)) ∧
    (off ≠ 0x300028 → ∃ t u, exec (.i3cAccess (1 :: bytesOfNat 4 off ++ bytesOfNat 8 v)) s = .next t ∧ exec (.i3cAccess []) t = .next u ∧
      u.mgmt.i3cOut = s.mgmt.i3cOut ++ [s.regRead off] ∧ u.mgmt.i3cRead = none)) ∧
  (∀ (s : State) (n : BitVec 3), (n.toNat < 6 → exec (.eccError n none) s = .next (s.countError n.toNat)) ∧
    (∀ w, (∀ m, w ≠ .matching m) → exec (.eccError n (some w)) s = .next ((s.countError 5).badAt w)) ∧
    (∀ m, exec (.eccError n (some (.matching m))) s = .next (((if n = 3 then s.countError 3 else s).countError 5).badAt (.matching m)))) ∧
  (∀ (s : State) (n : BitVec 12) (e : LogEntry), s.replayCtx = some n → (s.nextLog fun e => e.kind == 1) = some e →
    ∃ vec, exec .replayInject s = .next ((s.consumeLog e).deliverIngress vec
      { s.rewriteIngress n (s.loggedToken e.w2 e.w3) with act := e.act })) ∧
  (∀ (s : State) (n : BitVec 12), s.replayCtx = some n → s.checked n = true → (s.nextLog fun e => e.kind == 1) = none →
    (s.nextLog fun _ => true) = none → exec .replayInject s = .next (s.replayStop n 0 0xFF s.dbg.recHead.toNat)) ∧
  (∀ (s : State) (core : BitVec 8) (n : BitVec 12) (e : LogEntry), s.replayCtx = some n → s.checked n = true → s.nextChord core.toNat = some e →
    (nget s.dbg.nextAt core.toNat).getD (s.ctx n).since + 1048576 ≤ s.cycle →
    exec (.replayTimeout core) s = .next (s.replayStop n 3 core.toNat e.off))

/-! ### Programs and the registers -/

/-- Tier 3. Whatever instruction of a program executes, in whatever state, the owner's registers, the world registers, the
region table and the keys, LOCK, the state of the boot, the routing table, the package ID, domain time, the event
ring’s registers, the ingress pages, the context commands, the invalidation registers, the power, temperature and
error registers and the record and replay controls are as they were; only the count of denied accesses may change.
(R148, R404, R417, R419, R421) -/
def Obligations.ProgramsLeaveRegisters : Prop :=
  ∀ (i : Instr) (s t : State), isEvent i = false → exec i s = .next t → t.ownersPart = s.ownersPart

/-- Tier 2. Whatever instruction of a program executes: the activations, the tokens on the network, every other chord, and
in every core the matching store, the FIFO, the bins, the bank roles, the rings, the streams and the matrix engine
with its accumulators are as they were; the contexts but for HFORK, and every byte of every frame and ring slot but
for FRMA, which clears the frames it takes. Every byte of package memory is as it was, since stores wait for the
commit; LD, LDT, LD.acq, ATOM, CMPK, FENCE and RBIND may first let the core’s earlier writes land, and change no byte
where the core has none on its way and no dirty byte. What an instruction can change of a line is whether the L2 holds
it (a load brings it in, and so do MXREST and SYMQ, and a speculative store may take a way): so each byte reads as before
under every key that gives its bytes before and after, but for a line with bytes of an earlier boot, which read by the key
that the L2 took the line under, or else by the slot's own (R255, R424, R425). (R132, R156, R174, R204, R255, R424, R425) -/
def Obligations.ProgramsFrame : Prop :=
  ∀ (i : Instr) (s t : State), isEvent i = false → exec i s = .next t →
    t.acts = s.acts ∧ t.net = s.net ∧
    (∀ c slot, (c, slot) ≠ (s.flow.focusCore, s.flow.focusSlot) → t.chord? c slot = s.chord? c slot) ∧
    (∀ c, (t.core c).entries = (s.core c).entries ∧ (t.core c).fifo = (s.core c).fifo ∧ (t.core c).bins = (s.core c).bins ∧
      (t.core c).roles = (s.core c).roles ∧ (t.core c).rings = (s.core c).rings ∧ (t.core c).streams = (s.core c).streams ∧
      (t.core c).mxe = (s.core c).mxe) ∧
    ((∀ f, i ≠ .hfork f) → t.ctxs = s.ctxs) ∧
    ((∀ f, i ≠ .frma f) → ∀ c, (t.core c).sram = (s.core c).sram ∧ (t.core c).allocs = (s.core c).allocs) ∧
    ((match i with
      | .ld .. | .ldt .. | .ldAcq .. | .atom .. | .cmpk .. | .fence .. | .rbind _ =>
        (s.core s.flow.focusCore).homeQ = [] ∧ ∀ l ∈ (s.core s.flow.focusCore).l1, l.dirty = 0
      | _ => True) → t.homes.mem = s.homes.mem ∧ t.homes.opens = s.homes.opens ∧
        (∀ l, (t.line l).poison = (s.line l).poison ∧ (t.line l).sticky = (s.line l).sticky) ∧
        (∀ slot a, s.garbled slot (lineOf a) = false → t.garbled slot (lineOf a) = false → s.rawLine (lineOf a) = false →
          t.homeByte slot a = s.homeByte slot a) ∧
        (match i with
          | .ld .. | .ldt .. | .ldAcq .. | .rbind _ | .st .. | .mxrest .. | .symq .. => True
          | _ => t.homes.lines = s.homes.lines ∧ ∀ slot a, t.homeByte slot a = s.homeByte slot a))

/-! ### Reset -/

/-- Tier 1. After reset the package awaits its image: the boot has not begun, LOCK is 0, there is no owner, no context,
activation, fault, request or event, the event ring and the ingress pages are off, the routing table has no valid
entry, the package has no ID, domain time is 0, and every core is secure or not as its bit says with no entry and no
frame in use; the memories hold nothing written and are in canonical form. (What the model chose where the
specification gives no value is not stated.) (R184, R241, R326, R418, R421, R426) -/
def Obligations.ResetState : Prop :=
  State.reset.sec.bootState = 0 ∧ State.reset.sec.bootFail = 0 ∧ State.reset.sec.lock = false ∧ State.reset.host.owner = 0 ∧
  State.reset.host.nownWr = 0 ∧ State.reset.host.evEn = false ∧ State.reset.host.evQueue = [] ∧ State.reset.host.handover = none ∧
  State.reset.ctxs = [] ∧ State.reset.acts = [] ∧ State.reset.loader.queue = [] ∧ State.reset.xlt.faults = [] ∧ State.reset.xlt.busy = false ∧
  State.reset.ctxRegs.busy = false ∧ State.reset.reqs = [] ∧ State.reset.net = [] ∧ State.reset.links.pkgValid = false ∧ State.reset.pkg = 0 ∧
  (∀ i, nget State.reset.links.routes i = none) ∧ (∀ p, (State.reset.ingress p).en = false) ∧ State.reset.links.dtime = 0 ∧
  State.reset.epoch = 0 ∧ (∀ n, (State.reset.ctx n).st = .absent) ∧
  (∀ c, (State.reset.core c).entries = [] ∧ (State.reset.core c).fifo = [] ∧ (State.reset.core c).chords = [] ∧ (State.reset.core c).sram = [] ∧
    (∀ j, (State.reset.core c).frameFree j = true) ∧ State.reset.coreSecure c = State.reset.sec.coreWorld.getLsbD c) ∧
  State.reset.sec.coreWorld = 0 ∧ State.reset.sec.regions = [] ∧ State.reset.homes.mem = [] ∧ State.reset.sec.staging = [] ∧
  State.reset.mgmt.capped = false ∧ State.reset.dbg.active = [] ∧ State.memsWf State.reset = true ∧
  (∀ m, State.reset.owned m = false) ∧
  ∀ (m : Master) (v : Word) (n : BitVec 12), exec (.ctxEnd m n) State.reset = .next State.reset ∧
    exec (.hostEvctlWrite m v) State.reset = .next State.reset ∧ exec (.hostClaim m) State.reset = .next State.reset
end

