-- ==== Sys2Proof/Laws/Perform.lean ====
section
/-! SUPPORT. What the one shared way of executing an instruction does (Operands.lean): cited wherever a claim is about an
instruction's effect in the lanes. -/

namespace Sys2Proof.Machine

/-- Lane by lane, the body's outcomes are those that `Lanes` describes. -/
theorem runLanes_of_lanes {sh : Shape} {f : Flds} {ch : Chord} {body : Body} {one : InLane}
    (hb : ∀ s l x v res s1, one s l x v res s1 → body s ch ch.pc l x v = some (res, s1)) :
    ∀ ls s out s', Lanes sh f one ls s out s' → runLanes sh f ch ch.pc body ls s = some (out, s') := by
  intro ls
  induction ls with
  | nil => rintro s out s' ⟨rfl, rfl⟩; rfl
  | cons p r ih =>
    obtain ⟨l, x, v⟩ := p
    rintro s out s' ⟨res, s1, rest, h1, h2, rfl⟩
    have h3 := ih _ _ _ h2
    by_cases hs : selects f v = true
    · rw [if_pos hs] at h1
      simp only [runLanes, hs, if_true, hb _ _ _ _ _ _ h1, h3]
    · rw [if_neg hs] at h1
      obtain ⟨rfl, rfl⟩ := h1
      rw [ite_self] at h3
      simp [runLanes, hs, h3]

/-- An instruction that is its body performed carries out what the body does in a lane. -/
theorem carriesOut_of_body {i : Instr} {sh : Shape} {f : Flds} {len : Nat} {mem : Bool} {body : Body} {one : Chord → InLane}
    (he : ∀ s, exec i s = .next (s.perform sh f len mem body))
    (hb : ∀ ch s l x v res s1, one ch s l x v res s1 → body s ch ch.pc l x v = some (res, s1)) :
    CarriesOut i sh f len mem one := by
  rintro s ch ls ⟨hf, hm, hg⟩
  simp only [he]
  refine ⟨?_, ?_⟩
  · intro hu out s1 hl
    congr 1
    cases ls with
    | nil =>
      obtain ⟨rfl, rfl⟩ := hl
      simp [State.perform, hf, hm, hg, State.handedOn, Chord.checked]
    | cons p r =>
      obtain ⟨l, x, v⟩ := p
      have hr := runLanes_of_lanes (sh := sh) (f := f) (fun s l x v res s1 h => hb _ s l x v res s1 h) _ _ _ _ hl
      have hc : (f.u && !(mem && (ch.checked f ((l, x, v) :: r)).mixedHids)) = false := by
        rcases hu with hu | ⟨h1, h2⟩ <;> simp_all
      simp only [State.perform, hf, hm, hg, if_true, State.handedOn]
      simp only [Chord.checked] at hr hc ⊢
      simp only [hc, hr]
      simp
  · rintro ⟨hu, hmm⟩ l x v r res s1 rfl h1
    congr 1
    have hc : (f.u && !(mem && (ch.checked f ((l, x, v) :: r)).mixedHids)) = true := by
      simp only [hu, Bool.true_and, Bool.not_eq_true', Bool.and_eq_false_iff]
      by_cases h : mem = true
      · right; simpa [h] using hmm
      · left; simpa using h
    simp only [State.perform, hf, hm, hg, if_true]
    simp only [Chord.checked] at h1 hc ⊢
    simp only [hc, if_true]
    by_cases hs : selects f v = true
    · rw [if_pos hs] at h1
      simp only [hs, if_true, hb _ _ _ _ _ _ _ h1]
    · rw [if_neg hs] at h1
      obtain ⟨rfl, rfl⟩ := h1
      simp [hs, LaneRes.val]

end Sys2Proof.Machine
end

