-- ==== Sys2Proof/Laws/Access.lean ====
section
/-! SUPPORT. What the shared operations of memory instructions and sends do, in the terms of Safety.lean: a load's bytes and
its wait, the way to a token's destination, and what an agent that reads beyond the package leaves alone. -/

namespace Sys2Proof.Machine

/-- A load that hands on what `HandsOn` says. -/
theorem handsOn_eq {s ch x fin pl got ea acq res s1} (h : HandsOn s ch x fin pl got ea acq res s1) :
    s.finishLoad ch x fin pl got ea acq = (res, s1) := by
  obtain ⟨h1, h2⟩ := h
  unfold State.finishLoad
  by_cases hb : (∀ b ∈ overlay x pl got, b ≠ none) ∧ acq = false
  · obtain ⟨rfl, rfl⟩ := h1 hb.1 hb.2
    have : (overlay x pl got).all (·.isSome) = true := by
      rw [List.all_eq_true]; intro b hm; exact Option.isSome_iff_ne_none.mpr (hb.1 b hm)
    dsimp only
    rw [this, hb.2]; rfl
  · have hb' : (∃ b ∈ overlay x pl got, b = none) ∨ acq = true := by
      by_contra hc
      refine hb ⟨fun b hm he => hc (.inl ⟨b, hm, he⟩), ?_⟩
      cases acq
      · rfl
      · exact absurd (.inr rfl) hc
    obtain ⟨hr, rfl⟩ := h2 hb'
    have : ¬ ((overlay x pl got).all (·.isSome) && !acq) = true := by
      rw [Bool.and_eq_true, List.all_eq_true]
      rintro ⟨ha, hq⟩
      rcases hb' with ⟨b, hm, rfl⟩ | rfl
      · have := ha none hm; simp at this
      · simp at hq
    dsimp only
    rw [if_neg this]
    simp only [hr]; rfl

/-- A load of a lane does what `Loads` says. -/
theorem loads_eq {s ch x fin ea res s1} (h : Loads s ch x fin ea res s1) : loadBytes fin s ch ch.pc x ea = some (res, s1) := by
  unfold Loads State.access at h
  unfold loadBytes
  dsimp only at h ⊢
  simp only [beq_self_eq_true, if_true] at h
  generalize s.check _ _ _ _ _ _ _ _ = c at h ⊢
  cases c with
  | wait => exact h.elim
  | trap t s' => obtain ⟨rfl, rfl⟩ := h; rfl
  | ok pl s2 =>
    obtain ⟨got, bad, s3, hr, h1, h2⟩ := h
    simp only [hr]
    cases bad with
    | true => obtain ⟨rfl, rfl⟩ := h1 rfl; simp [trapEcc]
    | false => simp [handsOn_eq (h2 rfl)]

/-- A destination that `SendsTo` resolves is where the token goes. -/
theorem send_eq {s ch x d tag dest pkg core p} (h : SendsTo s ch x d tag dest pkg core) :
  routeToken s ch s.flow.focusCore x d tag p dest = .ok (laneToken s ch x d tag p pkg core) := by
  obtain ⟨h1, h2⟩ := h
  unfold routeToken
  cases hd : d.route <;> simp only [hd] at h2
  · obtain ⟨rfl, rfl⟩ := h2; simp [laneToken, h1]
  · obtain ⟨rfl, rfl, h3, h4⟩ := h2
    have h5 : ¬(256 ≤ dest.toNat) := by omega
    simp only [h4, h5, decide_false, Bool.not_true, Bool.or_false, Bool.false_eq_true, if_false, h1, laneToken]
  · obtain ⟨rfl, rfl⟩ := h2; simp [laneToken, h1]
  · obtain ⟨rfl, h4, h5, h6, rfl⟩ := h2
    have h8 : ¬(4096 ≤ dest.toNat) := by omega
    have h9 : ¬(x.hid ≠ 0 ∧ dest.setWidth 12 ≠ s.pkg) := by rintro ⟨a, b⟩; rcases h6 with h6 | h6 <;> contradiction
    simp only [h5, h8, decide_false, Bool.not_true, Bool.or_false, Bool.false_eq_true, if_false, if_neg h9, h1, laneToken]

/-- A destination that `SendStops` stops, no token goes to. -/
theorem stops_eq {s ch x d tag dest p t} (h : SendStops s ch x d dest t) :
  routeToken s ch s.flow.focusCore x d tag p dest = .error t := by
  unfold SendStops at h
  unfold routeToken
  cases hd : d.route <;> simp only [hd] at h ⊢
  · obtain ⟨h1, rfl⟩ := h; simp [h1, protTrap]
  · obtain ⟨h1, rfl⟩ := h
    by_cases h2 : 256 ≤ dest.toNat ∨ (s.placement ch.key s.pkg).contains dest.toNat = false
    · rw [if_pos (by simpa using h2)]; rfl
    · rw [if_neg (by simpa using h2)]
      have h3 : s.blockOutside ch.key d.dblock = true := by tauto
      simp [h3, protTrap]
  · obtain ⟨h1, rfl⟩ := h; simp [h1, protTrap]
  · by_cases h2 : 4096 ≤ dest.toNat ∨ s.admits ch.ctx (dest.setWidth 12) = false
    · rw [if_pos (by simpa using h2)]
      obtain ⟨-, rfl⟩ | ⟨h3, -⟩ := h
      · rfl
      · exact absurd h2 h3
    · rw [if_neg (by simpa using h2)]
      by_cases h3 : x.hid ≠ 0 ∧ dest.setWidth 12 ≠ s.pkg
      · rw [if_pos h3]
        obtain ⟨h4, -⟩ | ⟨-, -, rfl⟩ := h
        · tauto
        · rfl
      · rw [if_neg h3]
        obtain ⟨h4, rfl⟩ | ⟨-, h4, -⟩ := h
        · have h5 : s.blockOutside ch.key d.dblock = true := by tauto
          simp [h5, protTrap]
        · exact absurd h4 h3

/-- The lanes of a SPAWN do what `LanesKept` says. -/
theorem spawnLanes_eq {sh : Shape} {f : Flds} {d : TokenDest} {ch : Chord} {one : InLane}
    (hb : ∀ s l x v res s1, one s l x v res s1 → spawnBody d s ch ch.pc l x v = some (res, s1)) :
    ∀ ls s out s', LanesKept sh f one ls s out s' → spawnLanes sh f d ch ls s = (out, s') := by
  intro ls
  induction ls with
  | nil => rintro s out s' ⟨rfl, rfl⟩; rfl
  | cons p r ih =>
    obtain ⟨l, x, v⟩ := p
    rintro s out s' ⟨res, s1, rest, h1, h2, rfl⟩
    have h3 := ih _ _ _ h2
    by_cases hs : selects f v = true
    · rw [if_pos hs] at h1
      simp only [spawnLanes, hs, if_true, hb _ _ _ _ _ _ h1, Option.getD_some, h3]
    · rw [if_neg hs] at h1
      obtain ⟨rfl, rfl⟩ := h1
      simp [spawnLanes, hs, h3]

/-- Bytes read at their homes are handed on as `ReadsOn` says. -/
theorem readsOn_eq {s : State} {who addr pl eff res s1 k} (h : s.ReadsOn who addr pl eff res s1)
    (hk : ∀ bs t, eff bs t res s1 → k bs t = some (res, s1)) : withBytes s who addr pl k = some (res, s1) := by
  unfold State.ReadsOn at h
  unfold withBytes
  generalize s.seek who pl = g at h ⊢
  cases g with
  | later u => exact congrArg some h.symm
  | fails t => obtain ⟨rfl, rfl⟩ := h; rfl
  | got gl =>
    by_cases hp : gl.any (engPoison s) = true
    · simp only [if_pos hp] at h ⊢
      obtain ⟨rfl, rfl⟩ := h
      rfl
    · simp only [if_neg hp] at h ⊢
      exact hk _ _ h

/-- The checks of an access that is no read. -/
theorem access_w {s : State} {ch : Chord} {x : Lane} {a n al k o at_} (hk : (k == AccKind.read) = false) : s.access ch x a n al k o at_ =
  s.check s.flow.focusCore (laneWho s ch ch.pc x 1) a n al k o at_ := by unfold State.access; rw [hk]; rfl

/-! ### Reads beyond the package -/

/-- What sending a request, or asking for bytes, leaves alone: only the links, the requests, the reads, the next number and what goes out
to the host may change, and nothing of the owner's (R238). -/
def State.AsksOnly (s u : State) : Prop :=
  u = { s with flow := { s.flow with nextId := u.flow.nextId }, eng := { s.eng with reads := u.eng.reads }, links := u.links, reqs := u.reqs,
               host := { s.host with out := u.host.out } } ∧ u.ownersPart = s.ownersPart

theorem State.AsksOnly.refl (s : State) : s.AsksOnly s := ⟨rfl, rfl⟩

theorem State.AsksOnly.trans {s t u : State} (h : s.AsksOnly t) (h' : t.AsksOnly u) : s.AsksOnly u := by
  obtain ⟨e, o⟩ := h; obtain ⟨e', o'⟩ := h'
  refine ⟨?_, o'.trans o⟩
  rw [e']; rw [e]

theorem foldl_asksOnly {α : Type} {f : State → α → State} (hf : ∀ (s : State) x, s.AsksOnly (f s x)) (l : List α) (s : State) : s.AsksOnly (l.foldl f s) := by
  induction l generalizing s with
  | nil => exact .refl s
  | cons x r ih => exact (hf s x).trans (ih _)

theorem State.emit_asksOnly (s : State) (q : Nat) (b : List Byte) : s.AsksOnly (s.emit q b) := ⟨rfl, rfl⟩

theorem State.pump_asksOnly (s : State) (q : Nat) : s.AsksOnly (s.pump q) := by
  unfold State.pump
  dsimp only
  split
  · exact .refl s
  · exact (foldl_asksOnly (fun (s : State) _ => s.emit_asksOnly _ _) _ s).trans ⟨rfl, rfl⟩

theorem State.putPort_asksOnly (s : State) (q : Nat) (p : OutPkt) : s.AsksOnly (s.putPort q p) :=
  State.AsksOnly.trans ⟨rfl, rfl⟩ (State.pump_asksOnly _ q)

theorem State.sendPacket_asksOnly (s : State) (d : BitVec 12) (sec : Bool) (a t : Nat) (p : Packet) : s.AsksOnly (s.sendPacket d sec a t p).2 := by
  unfold State.sendPacket; split
  · exact s.putPort_asksOnly _ _
  · exact .refl s

theorem State.sendAccess_asksOnly (s : State) (d : BitVec 12) (a : Nat) (q : RemoteReq) (w : Pending) : s.AsksOnly (s.sendAccess d a q w) :=
  State.AsksOnly.trans ⟨rfl, rfl⟩ (State.sendPacket_asksOnly _ d _ a _ _)

theorem State.askRead_asksOnly (s : State) (w : Who) (r : Place × Nat) : s.AsksOnly (s.askRead w r) := by
  unfold State.askRead
  dsimp only
  split
  · exact State.AsksOnly.trans ⟨rfl, rfl⟩ (State.sendAccess_asksOnly _ _ _ _ _)
  · exact ⟨rfl, rfl⟩
  · exact ⟨rfl, rfl⟩

/-- An agent that must wait for what it reads has asked for it, and changed nothing else. -/
theorem State.seek_asksOnly {s : State} {w : Who} {pl : List Place} {u : State} (h : s.seek w pl = .later u) : s.AsksOnly u := by
  unfold State.seek at h
  dsimp only at h
  repeat' split at h
  all_goals cases h
  · exact foldl_asksOnly (fun (s : State) r => s.askRead_asksOnly w r) _ s
  · exact .refl s

/-- The places it is given are as many as it reads, and of those of the package itself they are the same. -/
theorem State.seek_got {s : State} {w : Who} {pl gl : List Place} (h : s.seek w pl = .got gl) : gl = pl ∨ ∃ l, gl = pl.map (Place.fromReads l) := by
  unfold State.seek at h
  dsimp only at h
  repeat' split at h
  all_goals cases h
  · exact .inl rfl
  · exact .inr ⟨_, rfl⟩

end Sys2Proof.Machine
end

