-- ==== Sys2Proof/Laws/Memory.lean ====
section
/-! SUPPORT. Tables and byte memories: what a read finds after a write, and that every memory operation keeps the canonical
form. -/

namespace Sys2Proof.Machine

/-! ### Tables by number -/

theorem nget_nput {α : Type} (m : NMap α) (k : Nat) (v : α) (j : Nat) : nget (nput m k v) j = if j = k then some v else nget m j := by
  induction m with
  | nil => simp [nput, nget, eq_comm]
  | cons p r ih =>
    obtain ⟨k', v'⟩ := p
    unfold nput
    split
    · simp [nget, eq_comm]
    · split
      · subst_vars; simp only [nget]; split <;> simp_all [eq_comm]
      · simp only [nget, ih]; split <;> split <;> simp_all

@[simp] theorem nget_nput_same {α : Type} (m : NMap α) (k : Nat) (v : α) : nget (nput m k v) k = some v := by simp [nget_nput]

theorem nget_nput_other {α : Type} (m : NMap α) {k j : Nat} (v : α) (h : j ≠ k) : nget (nput m k v) j = nget m j := by
  simp [nget_nput, h]

theorem nget_ndel {α : Type} (m : NMap α) (k j : Nat) : nget (ndel m k) j = if j = k then none else nget m j := by
  induction m with
  | nil => simp [ndel, nget]
  | cons p r ih =>
    obtain ⟨k', v'⟩ := p
    simp only [ndel, List.filter_cons] at ih ⊢
    by_cases h : k' = k
    · subst h; simp only [bne_self_eq_false, Bool.false_eq_true, if_false, ih, nget]
      by_cases h2 : j = k'
      · simp [h2]
      · rw [if_neg h2, if_neg h2, if_neg (Ne.symm h2)]
    · simp only [nget, bne_iff_ne, ne_eq, h, not_false_eq_true, if_true, ih]
      by_cases h2 : k' = j <;> by_cases h3 : j = k <;> simp_all

/-! ### The canonical form -/

theorem memOk_none {lo : Option Nat} {m : List Host.Cell} (h : memOk lo m = true) : memOk none m = true := by
  cases m with
  | nil => rfl
  | cons p r => obtain ⟨a, v⟩ := p; simp only [memOk, Bool.and_eq_true] at h ⊢; exact ⟨⟨trivial, h.1.2⟩, h.2⟩

theorem memOk_lower {l l' : Nat} {m : List Host.Cell} (hl : l' ≤ l) (h : memOk (some l) m = true) : memOk (some l') m = true := by
  cases m with
  | nil => rfl
  | cons p r =>
    obtain ⟨a, v⟩ := p
    simp only [memOk, Bool.and_eq_true, decide_eq_true_eq] at h ⊢
    exact ⟨⟨by omega, h.1.2⟩, h.2⟩

theorem memOk_tail {l : Option Nat} {a : Nat} {v : Byte} {r : List Host.Cell} (h : memOk l ((a, v) :: r) = true) : memOk l r = true := by
  simp only [memOk, Bool.and_eq_true] at h
  cases l with
  | none => exact memOk_none h.2
  | some l => exact memOk_lower (by have := h.1.1; simp at this; omega) h.2

theorem memOk_mput {lo : Option Nat} {m : List Host.Cell} {a : Nat} (v : Byte) (hm : memOk lo m = true) (ha : ∀ l ∈ lo, l < a) :
    memOk lo (mput m a v) = true := by
  induction m generalizing lo with
  | nil => cases lo <;> by_cases hv : v = 0 <;> simp_all [mput, memOk]
  | cons p r ih =>
    obtain ⟨a', v'⟩ := p
    have hm' := hm
    simp only [memOk, Bool.and_eq_true] at hm
    unfold mput
    by_cases h1 : a < a'
    · by_cases hv : v = 0
      · simp only [h1, hv, if_true]; exact hm'
      · simp only [h1, hv, if_true, if_false]
        cases lo <;> simp_all [memOk]
    · by_cases h2 : a' = a
      · by_cases hv : v = 0
        · simp only [if_neg h1, if_pos h2, if_pos hv]; exact memOk_tail hm'
        · subst h2; simp only [h1, hv, if_true, if_false]
          cases lo <;> simp_all [memOk]
      · simp only [h1, h2, if_false, memOk, Bool.and_eq_true]
        exact ⟨hm.1, ih hm.2 (by intro l hl; cases hl; omega)⟩

theorem wf_mput {m : List Host.Cell} (h : Memory.wf m = true) (a : Nat) (v : Byte) : Memory.wf (mput m a v) = true :=
  memOk_mput v h (by intro l hl; cases hl)

theorem wf_mputs {m : List Host.Cell} (h : Memory.wf m = true) (a : Nat) (bs : List Byte) : Memory.wf (mputs m a bs) = true := by
  induction bs generalizing m a with
  | nil => exact h
  | cons b r ih => exact ih (wf_mput h a b) (a + 1)

theorem memOk_filter {lo : Option Nat} {m : List Host.Cell} (p : Host.Cell → Bool) (h : memOk lo m = true) : memOk lo (m.filter p) = true := by
  induction m generalizing lo with
  | nil => exact h
  | cons c r ih =>
    obtain ⟨a, v⟩ := c
    have h' := h
    simp only [memOk, Bool.and_eq_true] at h
    simp only [List.filter_cons]
    split
    · simp only [memOk, Bool.and_eq_true]; exact ⟨h.1, ih h.2⟩
    · exact ih (memOk_tail h')

theorem wf_mclear {m : List Host.Cell} (h : Memory.wf m = true) (lo hi : Nat) : Memory.wf (mclear m lo hi) = true := memOk_filter _ h

/-- Nothing at or below the bound is listed. -/
theorem mget_of_low {l a : Nat} {m : List Host.Cell} (h : memOk (some l) m = true) (ha : a ≤ l) : mget m a = 0 := by
  induction m generalizing l with
  | nil => rfl
  | cons p r ih =>
    obtain ⟨a', v'⟩ := p
    simp only [memOk, Bool.and_eq_true, decide_eq_true_eq] at h
    simp only [mget]
    rw [if_neg (by omega)]
    exact ih h.2 (by omega)

theorem mget_mput {lo : Option Nat} {m : List Host.Cell} (h : memOk lo m = true) (a : Nat) (v : Byte) (b : Nat) :
    mget (mput m a v) b = if b = a then v else mget m b := by
  induction m generalizing lo with
  | nil =>
    by_cases hv : v = 0 <;> by_cases hb : b = a
    · simp [mput, mget, hv]
    · simp [mput, mget, hv]
    · simp only [mput, if_neg hv, mget, if_pos hb.symm, if_pos hb]
    · simp only [mput, if_neg hv, mget, if_neg (Ne.symm hb), if_neg hb]
  | cons p r ih =>
    obtain ⟨a', v'⟩ := p
    simp only [memOk, Bool.and_eq_true] at h
    unfold mput
    by_cases h1 : a < a'
    · by_cases hv : v = 0
      · simp only [h1, hv, if_true]
        by_cases hb : b = a
        · subst hb; simp only [if_true, mget]; rw [if_neg (by omega)]; exact mget_of_low h.2 (by omega)
        · simp [hb]
      · simp only [h1, hv, if_true, if_false, mget, eq_comm]
    · by_cases h2 : a' = a
      · subst h2
        by_cases hv : v = 0
        · simp only [h1, hv, if_true, if_false, mget]
          by_cases hb : b = a'
          · subst hb; simp [mget_of_low h.2 (Nat.le_refl _)]
          · simp [hb, eq_comm]
        · simp only [h1, hv, if_true, if_false, mget]
          by_cases hb : b = a'
          · rw [if_pos hb.symm, if_pos hb]
          · rw [if_neg (Ne.symm hb), if_neg hb, if_neg (Ne.symm hb)]
      · simp only [h1, h2, if_false, mget, ih h.2]
        by_cases hb : b = a
        · subst hb; rw [if_neg h2, if_pos rfl, if_pos rfl]
        · rw [if_neg hb, if_neg hb]

/-! ### The operations that write at homes keep the form -/

theorem foldl_keeps {α β : Type} {P : β → Prop} {f : β → α → β} (hf : ∀ b a, P b → P (f b a)) : ∀ (l : List α) (b : β), P b → P (l.foldl f b)
  | [], _, h => h
  | a :: r, b, h => foldl_keeps hf r (f b a) (hf b a h)

/-- What bringing a line into the L2 does: nothing to the bytes of memory, to the versions or to anything but the lines' states; and
of those it changes only the line itself, which is in the L2 from then on, and at most one other, which leaves. -/
theorem l2Enter_cases (s : State) (pins : List Nat) (slot : BitVec 8) (line : Nat) :
    s.l2Enter pins slot line = s ∨
    ((s.line line).res = false ∧ line * 128 < Config.memBytes ∧ ∃ (s1 : State) (out : Option Nat),
      (s1 = s ∧ out = none ∨ s1 = s.bump ∧ out = none ∨ ∃ l, out = some l ∧ (s.line l).res = true ∧ s1 = s.bump.l2Leave l) ∧
      s.l2Enter pins slot line = s1.setLine line { s1.line line with
        stamp := 0, res := true, tag := slot, tkey := (s1.keySlot slot).key, dirty := false, garb := s1.wrongKey (s1.line line) slot }) := by
  unfold State.l2Enter
  by_cases h : ((s.line line).res || decide (Config.memBytes ≤ line * 128)) = true
  · exact .inl (if_pos h)
  · rw [if_neg h]
    simp only [Bool.or_eq_true, decide_eq_true_eq, not_or, Bool.not_eq_true, Nat.not_le] at h
    refine .inr ⟨h.1, h.2, s.l2Room pins line, ?_⟩
    unfold State.l2Room
    dsimp only
    split
    · exact ⟨none, .inl ⟨rfl, rfl⟩, rfl⟩
    · generalize hm : (s.l2Lines line).filter (fun l => !pins.contains l) = may
      cases hl : may[(s.pick may.length).1]? with
      | none => exact ⟨none, .inr (.inl ⟨rfl, rfl⟩), rfl⟩
      | some l =>
        refine ⟨some l, .inr (.inr ⟨l, rfl, ?_, rfl⟩), rfl⟩
        have : l ∈ (s.l2Lines line).filter fun l => !pins.contains l := hm ▸ List.mem_of_getElem? hl
        simp only [State.l2Lines, List.mem_filter, Bool.and_eq_true] at this
        exact this.1.2.1.1

/-- Bringing a line into the L2 changes no byte of memory. -/
@[simp] theorem l2Enter_mem (s : State) (pins : List Nat) (slot : BitVec 8) (line : Nat) :
    (s.l2Enter pins slot line).homes.mem = s.homes.mem := by
  rcases l2Enter_cases s pins slot line with h | ⟨-, -, s1, out, h1, h2⟩
  · rw [h]
  · rw [h2]
    rcases h1 with ⟨rfl, -⟩ | ⟨rfl, -⟩ | ⟨l, -, -, rfl⟩ <;> rfl

theorem wf_acceptLine {s : State} (h : Memory.wf s.homes.mem = true) (slot : BitVec 8) (line : Nat) (mask : Mask) (data : Line) :
    Memory.wf (s.acceptLine slot line mask data).homes.mem = true := by
  unfold State.acceptLine
  split
  · exact h
  · refine foldl_keeps (P := fun m => Memory.wf m = true) (fun m i hm => ?_) _ _ (by simpa [State.setLine] using h)
    split
    · exact wf_mput hm _ _
    · split
      · exact wf_mput hm _ _
      · exact hm

/-- Signing a line changes no byte of memory. -/
@[simp] theorem signBy_mem (s : State) (w : Writer) (line : Nat) : (s.signBy w line).homes.mem = s.homes.mem := by
  cases w <;> rfl

theorem wf_performWrite {s : State} (h : Memory.wf s.homes.mem = true) (w : Writer) (op : HomeOp) :
    Memory.wf (s.performWrite w op).homes.mem = true := by
  unfold State.performWrite
  cases op with
  | flag => exact h
  | upd => exact h
  | write pa slot mask data n hid =>
    dsimp only
    rw [signBy_mem]
    split
    · exact wf_acceptLine h _ _ _ _
    · exact h

theorem wf_homeWrite {s : State} (h : Memory.wf s.homes.mem = true) (w : Writer) (op : HomeOp) :
    Memory.wf (s.homeWrite w op).homes.mem = true := by
  unfold State.homeWrite
  cases op with
  | flag => exact h
  | upd => exact h
  | write pa slot mask data n hid =>
    dsimp only
    split
    · exact h
    · exact wf_performWrite h _ _

theorem wf_acceptBytes {s : State} (h : Memory.wf s.homes.mem = true) (slot : BitVec 8) (pa : Nat) (bytes : List Byte) (w : Writer := .other) :
    Memory.wf (s.acceptBytes slot pa bytes w).homes.mem = true :=
  foldl_keeps (P := fun s : State => Memory.wf s.homes.mem = true) (fun _ _ h => wf_homeWrite h _ _) _ _ h

/-- The memories at reset are in the form. -/
theorem memsWf_reset : State.memsWf State.reset = true := by rfl

end Sys2Proof.Machine
end

