-- ==== Sys2Proof/Laws/Keeps.lean ====
section
/-! SUPPORT. What every function of the machine does to the form of the package memory: one lemma `<name>_keeps` per function
that answers a state. Here the base, and the functions of Ops, Home, Translate, Network, Record, the lanes, memory and updates. -/

namespace Sys2Proof.Machine

set_option linter.unusedTactic false
set_option linter.unreachableTactic false

/-- The package memory of a state is in canonical form. -/
def State.HomeWf (s : State) : Prop := Memory.wf s.homes.mem = true

theorem HomeWf.mem {s : State} (h : s.HomeWf) : Memory.wf s.homes.mem = true := h

theorem HomeWf.mk {a b c d e f g h i j k l m n o p} (w : Memory.wf (Homes.mem j) = true) : (State.mk a b c d e f g h i j k l m n o p).HomeWf := w

theorem HomeWf.ite {c : Prop} [Decidable c] {s t : State} (h : s.HomeWf) (h' : t.HomeWf) : (if c then s else t).HomeWf := by split <;> assumption

theorem HomeWf.foldl {α : Type} {f : State → α → State} {l : List α} {s : State} (hf : ∀ s x, s.HomeWf → (f s x).HomeWf) (h : s.HomeWf) : (l.foldl f s).HomeWf := by
  induction l generalizing s with
  | nil => exact h
  | cons x r ih => exact ih (hf s x h)

theorem HomeWf.foldlO {α : Type} {f : State → α → Option State} {l : List α} {o : Option State} {t : State}
    (e : l.foldl (fun (acc : Option State) x => acc.bind fun s => f s x) o = some t) (hf : ∀ s x t, f s x = some t → s.HomeWf → t.HomeWf)
    (h : ∀ s, o = some s → s.HomeWf) : t.HomeWf := by
  induction l generalizing o with
  | nil => exact h t e
  | cons x r ih =>
    refine ih (o := o.bind fun s => f s x) e ?_
    intro u hu
    rw [Option.bind_eq_some_iff] at hu
    obtain ⟨v, h1, h2⟩ := hu
    exact hf _ _ _ h2 (h _ h1)

theorem HomeWf.getD {o : Option State} {s : State} (ho : ∀ t, o = some t → t.HomeWf) (h : s.HomeWf) : (o.getD s).HomeWf := by
  cases o with
  | none => exact h
  | some t => exact ho t rfl

theorem HomeWf.elim {α : Type} {o : Option α} {s : State} {f : α → State} (ho : ∀ x, o = some x → (f x).HomeWf) (h : s.HomeWf) :
    (o.elim s f).HomeWf := by
  cases o with
  | none => exact h
  | some t => exact ho t rfl

theorem HomeWf.foldl2 {α β : Type} {f : β × State → α → β × State} {l : List α} {s : β × State} (hf : ∀ s x, s.2.HomeWf → (f s x).2.HomeWf)
    (h : s.2.HomeWf) : (l.foldl f s).2.HomeWf := by
  induction l generalizing s with
  | nil => exact h
  | cons x r ih => exact ih (hf s x h)

theorem HomeWf.foldl1 {α β : Type} {f : State × β → α → State × β} {l : List α} {s : State × β} (hf : ∀ s x, s.1.HomeWf → (f s x).1.HomeWf)
    (h : s.1.HomeWf) : (l.foldl f s).1.HomeWf := by
  induction l generalizing s with
  | nil => exact h
  | cons x r ih => exact ih (hf s x h)

theorem HomeWf.foldl2e {α β : Type} {f : β × State → α → β × State} {l : List α} {s : β × State} {v : β} {t : State}
    (e : l.foldl f s = (v, t)) (hf : ∀ s x, s.2.HomeWf → (f s x).2.HomeWf) (h : s.2.HomeWf) : t.HomeWf := by
  have := HomeWf.foldl2 (l := l) hf h
  rw [e] at this; exact this

theorem HomeWf.foldl1e {α β : Type} {f : State × β → α → State × β} {l : List α} {s : State × β} {v : β} {t : State}
    (e : l.foldl f s = (t, v)) (hf : ∀ s x, s.1.HomeWf → (f s x).1.HomeWf) (h : s.1.HomeWf) : t.HomeWf := by
  have := HomeWf.foldl1 (l := l) hf h
  rw [e] at this; exact this
/-- So is that of the state an engine's access leaves. -/
def EngAccess.HomeWf : EngAccess → Prop
  | .ok _ s => s.HomeWf
  | .fault _ s => s.HomeWf
  | .later s => s.HomeWf
  | _ => True

theorem EngAccess.wf_fault {st : Stop} {s : State} (h : s.HomeWf) : (EngAccess.fault st s).HomeWf := h

theorem EngAccess.wf_later {s : State} (h : s.HomeWf) : (EngAccess.later s).HomeWf := h

theorem EngAccess.wf_wait : (EngAccess.wait).HomeWf := trivial

theorem EngAccess.wf_err {t : Trap} {d : Bool} : (EngAccess.err t d).HomeWf := trivial

theorem State.setCore_keeps {s : State} {x1 : Nat} {x2 : Core} (h : s.HomeWf) : (State.setCore s x1 x2).HomeWf := by
  unfold State.setCore
  repeat' first | with_reducible assumption | (unfold State.HomeWf; dsimp only; with_reducible apply HomeWf.mem)

theorem State.modCore_keeps {s : State} {x1 : Nat} {x2 : Core → Core} (h : s.HomeWf) : (State.modCore s x1 x2).HomeWf := by
  unfold State.modCore
  repeat' first | with_reducible assumption | with_reducible apply State.setCore_keeps

theorem State.refreshBins_keeps {s : State} {x1 : Nat} (h : s.HomeWf) : (State.refreshBins s x1).HomeWf := by
  unfold State.refreshBins
  repeat' first | with_reducible assumption | with_reducible apply State.modCore_keeps

theorem State.makeReady_keeps {s : State} {x1 x2 : Nat} (h : s.HomeWf) : (State.makeReady s x1 x2).HomeWf := by
  unfold State.makeReady
  repeat' first | with_reducible assumption | with_reducible apply State.modCore_keeps | with_reducible apply State.refreshBins_keeps

theorem State.returnParked_keeps {s : State} {x1 x2 : Nat} (h : s.HomeWf) : (State.returnParked s x1 x2).HomeWf := by
  unfold State.returnParked
  repeat' first
    | with_reducible assumption | with_reducible apply HomeWf.ite | with_reducible apply State.modCore_keeps
    | with_reducible apply State.makeReady_keeps | cases e | split at e | split

theorem State.tretParked_keeps {s : State} {x1 x2 : Nat} (h : s.HomeWf) : (State.tretParked s x1 x2).HomeWf := by
  unfold State.tretParked
  repeat' first
    | with_reducible assumption | with_reducible apply HomeWf.ite | with_reducible apply State.returnParked_keeps | cases e | split at e | split

theorem State.event_keeps {s : State} {x1 : Event} (h : s.HomeWf) : (State.event s x1).HomeWf := by
  unfold State.event
  repeat' first | with_reducible assumption | with_reducible apply HomeWf.ite | (unfold State.HomeWf; dsimp only; with_reducible apply HomeWf.mem)

theorem State.delChord_keeps {s : State} {x1 x2 : Nat} (h : s.HomeWf) : (State.delChord s x1 x2).HomeWf := by
  unfold State.delChord
  repeat' first | with_reducible assumption | with_reducible apply State.modCore_keeps

theorem State.newId_keeps {s : State} {v1 : Nat} {t : State} (e : State.newId s = (v1, t)) (h : s.HomeWf) : t.HomeWf := by
  unfold State.newId at e
  repeat' first | with_reducible assumption | cases e | (unfold State.HomeWf; dsimp only; with_reducible apply HomeWf.mem)

theorem State.newId_keeps_st {s : State} (h : s.HomeWf) : (State.newId s).2.HomeWf := by
  rcases e : State.newId s with ⟨a, b⟩; exact State.newId_keeps e h

theorem State.setCtx_keeps {s : State} {x1 : BitVec 12} {x2 : Ctx} (h : s.HomeWf) : (State.setCtx s x1 x2).HomeWf := by
  unfold State.setCtx
  repeat' first | with_reducible assumption | (unfold State.HomeWf; dsimp only; with_reducible apply HomeWf.mem)

theorem State.modCtx_keeps {s : State} {x1 : BitVec 12} {x2 : Ctx → Ctx} (h : s.HomeWf) : (State.modCtx s x1 x2).HomeWf := by
  unfold State.modCtx
  repeat' first | with_reducible assumption | with_reducible apply State.setCtx_keeps

theorem State.stopCtx_keeps {s : State} {x1 : BitVec 12} (h : s.HomeWf) : (State.stopCtx s x1).HomeWf := by
  unfold State.stopCtx
  repeat' first | with_reducible assumption | with_reducible apply State.modCtx_keeps

theorem State.admitEvent_keeps {s : State} (h : s.HomeWf) : (State.admitEvent s).HomeWf := by
  unfold State.admitEvent
  repeat' first
    | with_reducible assumption | with_reducible apply HomeWf.ite | with_reducible apply State.stopCtx_keeps
    | (unfold State.HomeWf; dsimp only; with_reducible apply HomeWf.mem) | cases e | split at e | split

theorem State.escalate_keeps {s : State} {x1 : BitVec 12} {x2 : BitVec 8} {x3 : TrapRec} (h : s.HomeWf) : (State.escalate s x1 x2 x3).HomeWf := by
  unfold State.escalate
  repeat' first
    | with_reducible assumption | with_reducible apply HomeWf.ite | with_reducible apply State.event_keeps
    | with_reducible apply State.stopCtx_keeps

theorem State.engFault_keeps {s : State} {x1 : BitVec 12} {x2 : BitVec 16} {x3 : Stop} (h : s.HomeWf) : (State.engFault s x1 x2 x3).HomeWf := by
  unfold State.engFault
  repeat' first | with_reducible assumption | with_reducible apply HomeWf.ite | with_reducible apply State.escalate_keeps

theorem State.sendTrap_keeps {s : State} {x1 : Nat} {x2 : BitVec 12} {x3 : Word} {x4 : Bool} {x5 : TrapRec} {x6 : optParam (BitVec 4) 0} (h : s.HomeWf) :
    (State.sendTrap s x1 x2 x3 x4 x5 x6).HomeWf := by
  unfold State.sendTrap
  repeat' first
    | with_reducible assumption | with_reducible apply HomeWf.ite | with_reducible apply State.escalate_keeps
    | with_reducible apply State.modCtx_keeps | (unfold State.HomeWf; dsimp only; with_reducible apply HomeWf.mem) | cases e | split at e | split

theorem State.setSlice_keeps {s : State} {x1 : Nat} {x2 : Slice} (h : s.HomeWf) : (State.setSlice s x1 x2).HomeWf := by
  unfold State.setSlice
  repeat' first | with_reducible assumption | (unfold State.HomeWf; dsimp only; with_reducible apply HomeWf.mem)

theorem State.modSlice_keeps {s : State} {x1 : Nat} {x2 : Slice → Slice} (h : s.HomeWf) : (State.modSlice s x1 x2).HomeWf := by
  unfold State.modSlice
  repeat' first | with_reducible assumption | with_reducible apply State.setSlice_keeps

theorem State.killParked_keeps {s : State} {x1 x2 : Nat} (h : s.HomeWf) : (State.killParked s x1 x2).HomeWf := by
  unfold State.killParked
  repeat' first
    | with_reducible assumption | with_reducible apply HomeWf.ite | with_reducible apply State.modCore_keeps | cases e | split at e | split

theorem State.setAct_keeps {s : State} {x1 : Nat} {x2 : Act} (h : s.HomeWf) : (State.setAct s x1 x2).HomeWf := by
  unfold State.setAct
  repeat' first | with_reducible assumption | (unfold State.HomeWf; dsimp only; with_reducible apply HomeWf.mem)

theorem State.modAct_keeps {s : State} {x1 : Nat} {x2 : Act → Act} (h : s.HomeWf) : (State.modAct s x1 x2).HomeWf := by
  unfold State.modAct
  repeat' first | with_reducible assumption | with_reducible apply HomeWf.ite | with_reducible apply State.setAct_keeps | cases e | split at e | split

theorem State.bump_keeps {s : State} (h : s.HomeWf) : (State.bump s).HomeWf := by
  unfold State.bump
  repeat' first | with_reducible assumption | (unfold State.HomeWf; dsimp only; with_reducible apply HomeWf.mem)

theorem State.pick_keeps {s : State} {x1 : Nat} {v1 : Nat} {t : State} (e : State.pick s x1 = (v1, t)) (h : s.HomeWf) : t.HomeWf := by
  unfold State.pick at e
  repeat' first | with_reducible assumption | cases e | with_reducible apply State.bump_keeps

theorem State.pick_keeps_st {s : State} {x1 : Nat} (h : s.HomeWf) : (State.pick s x1).2.HomeWf := by
  rcases e : State.pick s x1 with ⟨a, b⟩; exact State.pick_keeps e h

theorem State.freshAccs_keeps {s : State} {x1 : Nat} (h : s.HomeWf) : (State.freshAccs s x1).HomeWf := by
  unfold State.freshAccs
  repeat' first
    | with_reducible assumption | with_reducible apply HomeWf.ite | with_reducible apply State.bump_keeps
    | with_reducible apply State.modCore_keeps

theorem State.setChord_keeps {s : State} {x1 x2 : Nat} {x3 : Chord} (h : s.HomeWf) : (State.setChord s x1 x2 x3).HomeWf := by
  unfold State.setChord
  repeat' first | with_reducible assumption | with_reducible apply State.modCore_keeps

theorem State.takeTrap_keeps {s : State} {x1 x2 : Nat} {x3 : Bool} {x4 : Trap} {x5 : Nat} {x6 : Bool} (h : s.HomeWf) : (State.takeTrap s x1 x2 x3 x4 x5 x6).HomeWf := by
  unfold State.takeTrap
  repeat' first
    | with_reducible assumption | with_reducible apply HomeWf.ite | with_reducible apply State.modCore_keeps
    | with_reducible apply State.sendTrap_keeps | with_reducible apply State.escalate_keeps
    | (unfold State.HomeWf; dsimp only; with_reducible apply HomeWf.mem) | cases e | split at e | split

theorem State.setLine_keeps {s : State} {x1 : Nat} {x2 : LineMeta} (h : s.HomeWf) : (State.setLine s x1 x2).HomeWf := by
  unfold State.setLine
  repeat' first | with_reducible assumption | (unfold State.HomeWf; dsimp only; with_reducible apply HomeWf.mem)

theorem State.modChord_keeps {s : State} {x1 x2 : Nat} {x3 : Chord → Chord} (h : s.HomeWf) : (State.modChord s x1 x2 x3).HomeWf := by
  unfold State.modChord
  repeat' first
    | with_reducible assumption | with_reducible apply HomeWf.ite | with_reducible apply State.setChord_keeps | cases e | split at e | split

theorem State.linkEvent_keeps {s : State} {x1 : BitVec 8} {x2 : Nat} (h : s.HomeWf) : (State.linkEvent s x1 x2).HomeWf := by
  unfold State.linkEvent
  repeat' first | with_reducible assumption | with_reducible apply State.event_keeps

theorem State.dropLine_keeps {s : State} {x1 x2 : Nat} (h : s.HomeWf) : (State.dropLine s x1 x2).HomeWf := by
  unfold State.dropLine
  repeat' first | with_reducible assumption | with_reducible apply State.modCore_keeps

theorem State.writeBackLine_keeps {s : State} {x1 : Nat} {x2 : L1Line} (h : s.HomeWf) : (State.writeBackLine s x1 x2).HomeWf := by
  unfold State.writeBackLine
  repeat' first | with_reducible assumption | with_reducible apply HomeWf.ite | with_reducible apply State.modCore_keeps

theorem State.flushLine_keeps {s : State} {x1 x2 : Nat} (h : s.HomeWf) : (State.flushLine s x1 x2).HomeWf := by
  unfold State.flushLine
  repeat' first
    | with_reducible assumption | with_reducible apply HomeWf.ite | with_reducible apply State.dropLine_keeps
    | with_reducible apply State.writeBackLine_keeps | cases e | split at e | split

theorem State.retag_keeps {s : State} {x1 : Nat} {x2 : BitVec 12} {x3 : BitVec 8} {x4 : Nat} (h : s.HomeWf) : (State.retag s x1 x2 x3 x4).HomeWf := by
  unfold State.retag
  repeat' first
    | with_reducible assumption | with_reducible apply HomeWf.ite | with_reducible apply State.flushLine_keeps | cases e | split at e | split

theorem State.sigLine_keeps {s : State} {x1 : Nat} {x2 : BitVec 12} {x3 : Nat} (h : s.HomeWf) : (State.sigLine s x1 x2 x3).HomeWf := by
  unfold State.sigLine
  repeat' first | with_reducible assumption | with_reducible apply State.modCore_keeps

theorem State.engSigLine_keeps {s : State} {x1 : Nat} {x2 : BitVec 12} {x3 : Nat} (h : s.HomeWf) : (State.engSigLine s x1 x2 x3).HomeWf := by
  unfold State.engSigLine
  repeat' first | with_reducible assumption | (unfold State.HomeWf; dsimp only; with_reducible apply HomeWf.mem)

theorem State.signBy_keeps {s : State} {x1 : Writer} {x2 : Nat} (h : s.HomeWf) : (State.signBy s x1 x2).HomeWf := by
  unfold State.signBy
  repeat' first
    | with_reducible assumption | with_reducible apply HomeWf.ite | with_reducible apply State.sigLine_keeps
    | with_reducible apply State.engSigLine_keeps | cases e | split at e | split

theorem State.l2Leave_keeps {s : State} {x1 : Nat} (h : s.HomeWf) : (State.l2Leave s x1).HomeWf := by
  unfold State.l2Leave
  repeat' first | with_reducible assumption | with_reducible apply State.setLine_keeps

theorem State.l2Room_keeps {s : State} {x1 : List Nat} {x2 : Nat} (h : s.HomeWf) : (State.l2Room s x1 x2).HomeWf := by
  unfold State.l2Room
  repeat' first
    | with_reducible assumption | with_reducible apply HomeWf.ite | with_reducible apply State.pick_keeps_st
    | (with_reducible refine State.pick_keeps (by assumption) ?_) | with_reducible apply State.l2Leave_keeps
    | (unfold State.HomeWf; dsimp only; with_reducible apply HomeWf.mem) | cases e | split at e | split

theorem State.l2Enter_keeps {s : State} {x1 : List Nat} {x2 : BitVec 8} {x3 : Nat} (h : s.HomeWf) : (State.l2Enter s x1 x2 x3).HomeWf := by
  unfold State.l2Enter
  repeat' first
    | with_reducible assumption | with_reducible apply HomeWf.ite | with_reducible apply State.l2Room_keeps
    | with_reducible apply State.setLine_keeps

theorem State.acceptLine_keeps {s : State} {slot : BitVec 8} {line : Nat} {mask : Mask} {data : Line} (h : s.HomeWf) :
    (s.acceptLine slot line mask data).HomeWf := wf_acceptLine h slot line mask data

theorem State.acceptVersion_keeps {s : State} {x1 : BitVec 12} {x2 : BitVec 8} {x3 : BitVec 8} {x4 : Nat} {x5 : Mask} {x6 : Line} (h : s.HomeWf) :
    (State.acceptVersion s x1 x2 x3 x4 x5 x6).HomeWf := by
  unfold State.acceptVersion
  repeat' first | with_reducible assumption | (unfold State.HomeWf; dsimp only; with_reducible apply HomeWf.mem)

theorem State.performWrite_keeps {s : State} {x1 : Writer} {x2 : HomeOp} (h : s.HomeWf) : (State.performWrite s x1 x2).HomeWf := by
  unfold State.performWrite
  repeat' first
    | with_reducible assumption | with_reducible apply HomeWf.ite | with_reducible apply State.signBy_keeps
    | with_reducible apply State.acceptLine_keeps | with_reducible apply State.acceptVersion_keeps
    | (unfold State.HomeWf; dsimp only; with_reducible apply HomeWf.mem) | cases e | split at e | split

theorem State.homeWrite_keeps {s : State} {x1 : Writer} {x2 : HomeOp} (h : s.HomeWf) : (State.homeWrite s x1 x2).HomeWf := by
  unfold State.homeWrite
  repeat' first
    | with_reducible assumption | with_reducible apply HomeWf.ite | with_reducible apply State.modSlice_keeps
    | with_reducible apply State.performWrite_keeps | (unfold State.HomeWf; dsimp only; with_reducible apply HomeWf.mem) | cases e | split at e
    | split

theorem State.acceptBytes_keeps {s : State} {x1 : BitVec 8} {x2 : Nat} {x3 : List Byte} {x4 : optParam Writer Writer.other} (h : s.HomeWf) :
    (State.acceptBytes s x1 x2 x3 x4).HomeWf := by
  unfold State.acceptBytes
  repeat' first
    | with_reducible assumption | intro _ | with_reducible apply HomeWf.ite | with_reducible apply HomeWf.foldl
    | with_reducible apply State.homeWrite_keeps

theorem State.acceptFlag_keeps {s : State} {x1 x2 : Nat} {x3 : BitVec 8} {x4 : BitVec 64} {x5 : Bool} (h : s.HomeWf) : (State.acceptFlag s x1 x2 x3 x4 x5).HomeWf := by
  unfold State.acceptFlag
  repeat' first
    | with_reducible assumption | with_reducible apply HomeWf.ite | with_reducible apply State.acceptBytes_keeps
    | with_reducible apply State.sigLine_keeps

theorem State.addReleaser_keeps {s : State} {x1 : Nat} {x2 : BitVec 12} {x3 : BitVec 8} {v1 : Bool} {t : State} (e : State.addReleaser s x1 x2 x3 = (v1, t))
    (h : s.HomeWf) : t.HomeWf := by
  unfold State.addReleaser at e
  repeat' first | with_reducible assumption | cases e | split at e | dsimp only at e | with_reducible apply State.setSlice_keeps

theorem State.addReleaser_keeps_st {s : State} {x1 : Nat} {x2 : BitVec 12} {x3 : BitVec 8} (h : s.HomeWf) : (State.addReleaser s x1 x2 x3).2.HomeWf := by
  rcases e : State.addReleaser s x1 x2 x3 with ⟨a, b⟩; exact State.addReleaser_keeps e h

theorem State.performHomeOp_keeps {s : State} {x1 : Nat} {x2 : HomeOp} {t : State} (e : State.performHomeOp s x1 x2 = some t) (h : s.HomeWf) : t.HomeWf := by
  unfold State.performHomeOp at e
  repeat' first
    | with_reducible assumption | cases e | split at e | with_reducible apply State.homeWrite_keeps | with_reducible apply State.acceptFlag_keeps
    | with_reducible apply State.addReleaser_keeps_st | (with_reducible refine State.addReleaser_keeps (by assumption) ?_)
    | with_reducible apply State.modSlice_keeps

theorem drainAux_keeps {x0 : Nat} {x1 : List HomeOp} {s : State} {t : State} (e : drainAux x0 x1 s = some t) (h : s.HomeWf) : t.HomeWf := by
  induction x1 generalizing x0 s  t with
  | nil => unfold drainAux at e; (repeat' first
    | cases e | split at e | dsimp only at e | (rw [Option.map_eq_some_iff] at e; obtain ⟨_, e1, e⟩ := e)
    | (rw [Option.bind_eq_some_iff] at e; obtain ⟨_, e1, e⟩ := e)
    | (injection e with e)) <;> repeat' first | with_reducible assumption | with_reducible exact EngAccess.wf_wait | with_reducible apply EngAccess.wf_err | intro _ | with_reducible apply HomeWf.ite | with_reducible apply HomeWf.foldl | with_reducible apply HomeWf.foldl2 | with_reducible apply HomeWf.getD | with_reducible apply HomeWf.elim | with_reducible apply HomeWf.foldl1 | (with_reducible refine HomeWf.foldl2e (by assumption) ?_ ?_) | (with_reducible refine HomeWf.foldl1e (by assumption) ?_ ?_) | (with_reducible refine State.performHomeOp_keeps (by assumption) ?_) | with_reducible apply State.modCore_keeps | with_reducible apply EngAccess.wf_fault | with_reducible apply EngAccess.wf_later | (unfold State.HomeWf; dsimp only; with_reducible apply HomeWf.mem) | cases e | split at e | dsimp only at e | (rw [Option.map_eq_some_iff] at e; obtain ⟨_, e1, e⟩ := e) | (rw [Option.bind_eq_some_iff] at e; obtain ⟨_, e1, e⟩ := e) | (injection e with e) | cases e1 | split at e1 | dsimp only at e1 | (rw [Option.map_eq_some_iff] at e1; obtain ⟨_, e2, e1⟩ := e1) | (rw [Option.bind_eq_some_iff] at e1; obtain ⟨_, e2, e1⟩ := e1) | (rename_i e; rw [Option.map_eq_some_iff] at e; obtain ⟨_, e1, e⟩ := e) | (rename_i e; rw [Option.bind_eq_some_iff] at e; obtain ⟨_, e1, e⟩ := e) | split
  | cons _ _ ih => unfold drainAux at e; (repeat' first
    | cases e | split at e | dsimp only at e | (rw [Option.map_eq_some_iff] at e; obtain ⟨_, e1, e⟩ := e)
    | (rw [Option.bind_eq_some_iff] at e; obtain ⟨_, e1, e⟩ := e)
    | (injection e with e)) <;> repeat' first | with_reducible assumption | (with_reducible refine ih (by assumption) ?_) | with_reducible exact EngAccess.wf_wait | with_reducible apply EngAccess.wf_err | intro _ | with_reducible apply HomeWf.ite | with_reducible apply HomeWf.foldl | with_reducible apply HomeWf.foldl2 | with_reducible apply HomeWf.getD | with_reducible apply HomeWf.elim | with_reducible apply HomeWf.foldl1 | (with_reducible refine HomeWf.foldl2e (by assumption) ?_ ?_) | (with_reducible refine HomeWf.foldl1e (by assumption) ?_ ?_) | (with_reducible refine State.performHomeOp_keeps (by assumption) ?_) | with_reducible apply State.modCore_keeps | with_reducible apply EngAccess.wf_fault | with_reducible apply EngAccess.wf_later | (unfold State.HomeWf; dsimp only; with_reducible apply HomeWf.mem) | cases e | split at e | dsimp only at e | (rw [Option.map_eq_some_iff] at e; obtain ⟨_, e1, e⟩ := e) | (rw [Option.bind_eq_some_iff] at e; obtain ⟨_, e1, e⟩ := e) | (injection e with e) | cases e1 | split at e1 | dsimp only at e1 | (rw [Option.map_eq_some_iff] at e1; obtain ⟨_, e2, e1⟩ := e1) | (rw [Option.bind_eq_some_iff] at e1; obtain ⟨_, e2, e1⟩ := e1) | (rename_i e; rw [Option.map_eq_some_iff] at e; obtain ⟨_, e1, e⟩ := e) | (rename_i e; rw [Option.bind_eq_some_iff] at e; obtain ⟨_, e1, e⟩ := e) | split

theorem State.drainHome_keeps {s : State} {x1 : Nat} {t : State} (e : State.drainHome s x1 = some t) (h : s.HomeWf) : t.HomeWf := by
  unfold State.drainHome at e
  repeat' first | with_reducible assumption | cases e | split at e | (with_reducible refine drainAux_keeps (by assumption) ?_)

theorem State.l1Room_keeps {s : State} {x1 x2 : Nat} (h : s.HomeWf) : (State.l1Room s x1 x2).HomeWf := by
  unfold State.l1Room
  repeat' first
    | with_reducible assumption | with_reducible apply HomeWf.ite | with_reducible apply State.pick_keeps_st
    | (with_reducible refine State.pick_keeps (by assumption) ?_) | with_reducible apply State.flushLine_keeps
    | (unfold State.HomeWf; dsimp only; with_reducible apply HomeWf.mem) | cases e | split at e | split

theorem State.fillLine_keeps {s : State} {x1 : Nat} {x2 : BitVec 8} {x3 : BitVec 12} {x4 : BitVec 8} {x5 : Nat} (h : s.HomeWf) :
    (State.fillLine s x1 x2 x3 x4 x5).HomeWf := by
  unfold State.fillLine
  repeat' first | with_reducible assumption | with_reducible apply State.l2Enter_keeps | with_reducible apply State.modCore_keeps

theorem State.l1Byte_keeps {s : State} {x1 : Nat} {x2 : BitVec 8} {x3 : BitVec 12} {x4 : BitVec 8} {x5 : Nat} {v1 : (Byte × Bool)} {t : State}
    (e : State.l1Byte s x1 x2 x3 x4 x5 = some (v1, t)) (h : s.HomeWf) : t.HomeWf := by
  unfold State.l1Byte at e
  repeat' first
    | with_reducible assumption | cases e | split at e | dsimp only at e | with_reducible apply HomeWf.ite
    | with_reducible apply State.retag_keeps | (with_reducible refine State.drainHome_keeps (by assumption) ?_)
    | with_reducible apply State.l1Room_keeps | with_reducible apply State.fillLine_keeps

theorem State.l1Store_keeps {s : State} {x1 : Nat} {x2 : BitVec 8} {x3 : BitVec 12} {x4 : BitVec 8} {x5 : Nat} {x6 : Byte} (h : s.HomeWf) :
    (State.l1Store s x1 x2 x3 x4 x5 x6).HomeWf := by
  unfold State.l1Store
  repeat' first
    | with_reducible assumption | with_reducible apply HomeWf.ite | with_reducible apply State.retag_keeps
    | with_reducible apply State.modCore_keeps | with_reducible apply State.l1Room_keeps

theorem State.acceptUpdates_keeps {s : State} {x1 : Nat} (h : s.HomeWf) : (State.acceptUpdates s x1).HomeWf := by
  unfold State.acceptUpdates
  repeat' first | with_reducible assumption | with_reducible apply State.modSlice_keeps

theorem State.flushDirty_keeps {s : State} {x1 : Nat} {t : State} (e : State.flushDirty s x1 = some t) (h : s.HomeWf) : t.HomeWf := by
  unfold State.flushDirty at e
  repeat' first
    | with_reducible assumption | intro _ | with_reducible apply HomeWf.ite | with_reducible apply HomeWf.foldl
    | (with_reducible refine State.drainHome_keeps (by assumption) ?_) | with_reducible apply State.writeBackLine_keeps

theorem State.flushAll_keeps {s : State} {x1 : Nat} {t : State} (e : State.flushAll s x1 = some t) (h : s.HomeWf) : t.HomeWf := by
  unfold State.flushAll at e
  repeat' first
    | with_reducible assumption | cases e | split at e | dsimp only at e | (rw [Option.map_eq_some_iff] at e; obtain ⟨_, e1, e⟩ := e)
    | (injection e with e) | with_reducible apply State.modCore_keeps | (with_reducible refine State.flushDirty_keeps (by assumption) ?_)

theorem State.holdSig_keeps {s : State} {x1 : Nat} {x2 : Sig} (h : s.HomeWf) : (State.holdSig s x1 x2).HomeWf := by
  unfold State.holdSig
  repeat' first
    | with_reducible assumption | with_reducible apply HomeWf.ite | with_reducible apply State.setSlice_keeps
    | (unfold State.HomeWf; dsimp only; with_reducible apply HomeWf.mem) | cases e | split at e | split

theorem State.acquire_keeps {s : State} {x1 : Nat} {x2 : Sig} (h : s.HomeWf) : (State.acquire s x1 x2).HomeWf := by
  unfold State.acquire
  repeat' first
    | with_reducible assumption | intro _ | with_reducible apply HomeWf.ite | with_reducible apply HomeWf.foldl
    | with_reducible apply State.dropLine_keeps | with_reducible apply State.writeBackLine_keeps | with_reducible apply State.modCore_keeps

theorem State.openFault_keeps {s : State} {x1 : Who} {x2 : Nat} {v1 : BitVec 32} {t : State} (e : State.openFault s x1 x2 = some (v1, t)) (h : s.HomeWf) : t.HomeWf := by
  unfold State.openFault at e
  repeat' first
    | with_reducible assumption | cases e | split at e | dsimp only at e | with_reducible apply State.event_keeps
    | (unfold State.HomeWf; dsimp only; with_reducible apply HomeWf.mem)

theorem State.deny_keeps {s : State} (h : s.HomeWf) : (State.deny s).HomeWf := by
  unfold State.deny
  repeat' first | with_reducible assumption | (unfold State.HomeWf; dsimp only; with_reducible apply HomeWf.mem)

theorem State.cachePut_keeps {α : Type} [DecidableEq α] {s : State} {cap : Nat} {l : List α} {x : α} {v : List α} {t : State}
 (e : s.cachePut cap l x = (v, t)) (h : s.HomeWf) : t.HomeWf := by
  unfold State.cachePut at e
  repeat' first | cases e | split at e | dsimp only at e
  all_goals first | assumption | exact State.pick_keeps (by assumption) h

theorem State.cachePut_keeps_st {α : Type} [DecidableEq α] {s : State} {cap : Nat} {l : List α} {x : α} (h : s.HomeWf) :
    (s.cachePut cap l x).2.HomeWf := by rcases e : s.cachePut cap l x with ⟨a, b⟩; exact State.cachePut_keeps e h

theorem State.fillXlt_keeps {s : State} {w : Who} {va : Nat} (h : s.HomeWf) : (State.fillXlt s w va).HomeWf := by
  have hfold : ∀ (l : List NonLeaf) (p : List NonLeaf × State), p.2.HomeWf →
      (l.foldl (fun (p : List NonLeaf × State) e => State.cachePut p.2 Config.sliceNonLeaves p.1 e) p).2.HomeWf := by
    intro l
    induction l with
    | nil => intro p hp; exact hp
    | cons x r ih => intro p hp; exact ih _ (State.cachePut_keeps_st hp)
  unfold State.fillXlt
  dsimp only
  split
  · split
    · exact State.modCore_keeps (State.cachePut_keeps_st h)
    · exact h
  · split
    · split
      · exact State.modCore_keeps (State.cachePut_keeps_st (hfold _ _ (State.cachePut_keeps_st h)))
      · exact hfold _ _ (State.cachePut_keeps_st h)
    · exact h

theorem State.checkPages_keeps_ok {s : State} {x1 : Who} {x2 x3 : Nat} {x4 : AccKind} {pl : List Place} {t : State} (e : State.checkPages s x1 x2 x3 x4 = .ok pl t)
    (h : s.HomeWf) : t.HomeWf := by
  unfold State.checkPages at e
  repeat' first
    | with_reducible assumption | cases e | split at e | dsimp only at e | intro _ | with_reducible apply HomeWf.ite
    | with_reducible apply HomeWf.foldl | (with_reducible refine State.openFault_keeps (by assumption) ?_)
    | with_reducible apply State.deny_keeps | with_reducible apply State.fillXlt_keeps

theorem State.checkPages_keeps_trap {s : State} {x1 : Who} {x2 x3 : Nat} {x4 : AccKind} {tr : Trap} {t : State} (e : State.checkPages s x1 x2 x3 x4 = .trap tr t)
    (h : s.HomeWf) : t.HomeWf := by
  unfold State.checkPages at e
  repeat' first
    | with_reducible assumption | cases e | split at e | dsimp only at e | with_reducible apply HomeWf.ite
    | (with_reducible refine State.openFault_keeps (by assumption) ?_) | with_reducible apply State.deny_keeps

theorem State.check_keeps_ok {s : State} {x1 : Nat} {x2 : Who} {x3 : Word} {x4 x5 : Nat} {x6 : AccKind} {x7 : Bool} {x8 : Bool} {pl : List Place}
    {t : State} (e : State.check s x1 x2 x3 x4 x5 x6 x7 x8 = .ok pl t) (h : s.HomeWf) : t.HomeWf := by
  unfold State.check at e
  repeat' first
    | with_reducible assumption | cases e | split at e | dsimp only at e | (with_reducible refine State.checkPages_keeps_ok (by assumption) ?_)

theorem State.check_keeps_trap {s : State} {x1 : Nat} {x2 : Who} {x3 : Word} {x4 x5 : Nat} {x6 : AccKind} {x7 : Bool} {x8 : Bool} {tr : Trap}
    {t : State} (e : State.check s x1 x2 x3 x4 x5 x6 x7 x8 = .trap tr t) (h : s.HomeWf) : t.HomeWf := by
  unfold State.check at e
  repeat' first
    | with_reducible assumption | cases e | split at e | dsimp only at e | (with_reducible refine State.checkPages_keeps_ok (by assumption) ?_)
    | (with_reducible refine State.checkPages_keeps_trap (by assumption) ?_)

theorem State.enterPlaces_keeps {s : State} {x1 : List Place} (h : s.HomeWf) : (State.enterPlaces s x1).HomeWf := by
  unfold State.enterPlaces
  repeat' first
    | with_reducible assumption | intro _ | with_reducible apply HomeWf.ite | with_reducible apply HomeWf.foldl
    | with_reducible apply State.l2Enter_keeps | cases e | split at e | split

theorem readEach_keeps {c : Nat} {n : BitVec 12} {hh : BitVec 8} {l : List Place} {s : State} {v : List (Option Byte) × Bool} {t : State}
 (e : readEach c n hh l s = some (v, t)) (h : s.HomeWf) : t.HomeWf := by
  induction l generalizing s v t with
  | nil => unfold readEach at e; cases e; exact h
  | cons p r ih =>
    unfold readEach at e
    dsimp only at e
    split at e
    · cases e
    · rename_i s1 h1
      have hs : s1.HomeWf := by
        repeat' split at h1
        all_goals first
          | (cases h1; exact h)
          | (rw [Option.map_eq_some_iff] at h1; obtain ⟨⟨a, b⟩, e1, e2⟩ := h1; cases e2; exact State.l1Byte_keeps e1 h)
          | (rw [Option.map_eq_some_iff] at h1; obtain ⟨a, e1, e2⟩ := h1; cases e2; exact State.enterPlaces_keeps (State.drainHome_keeps e1 h))
      split at e
      · cases e
      · rename_i h2; cases e; exact ih h2 hs

theorem fillPlaces_keeps {c : Nat} {n : BitVec 12} {hh : BitVec 8} {l : List Place} {s t : State}
 (e : fillPlaces c n hh l s = some t) (h : s.HomeWf) : t.HomeWf := by
  induction l generalizing s t with
  | nil => unfold fillPlaces at e; cases e; exact h
  | cons p r ih =>
    unfold fillPlaces at e
    split at e
    · cases e; exact h
    · rename_i h1
      cases h1
      rw [Option.bind_eq_some_iff] at e
      obtain ⟨x, e1, e2⟩ := e
      exact ih e2 (State.l1Byte_keeps e1 h)
    · rename_i h1
      cases h1
      exact ih e h

theorem readPlaces_keeps {c : Nat} {n : BitVec 12} {hh : BitVec 8} {l : List Place} {s : State} {v : List (Option Byte) × Bool} {t : State}
 (e : readPlaces c n hh l s = some (v, t)) (h : s.HomeWf) : t.HomeWf := by
  unfold readPlaces at e
  rw [Option.bind_eq_some_iff] at e
  obtain ⟨u, e1, e2⟩ := e
  exact readEach_keeps e2 (fillPlaces_keeps e1 h)

theorem State.settleWait_keeps {s : State} {x1 : BitVec 12} (h : s.HomeWf) : (State.settleWait s x1).HomeWf := by
  unfold State.settleWait
  repeat' first | with_reducible assumption | with_reducible apply State.modCtx_keeps

theorem State.emit_keeps {s : State} {x1 : Nat} {x2 : List Byte} (h : s.HomeWf) : (State.emit s x1 x2).HomeWf := by
  unfold State.emit
  repeat' first | with_reducible assumption | (unfold State.HomeWf; dsimp only; with_reducible apply HomeWf.mem)

theorem State.emitRun_keeps {s : State} {x1 x2 x3 : Nat} (h : s.HomeWf) : (State.emitRun s x1 x2 x3).HomeWf := by
  unfold State.emitRun
  repeat' first
    | with_reducible assumption | intro _ | with_reducible apply HomeWf.ite | with_reducible apply HomeWf.foldl
    | with_reducible apply State.emit_keeps

theorem State.pump_keeps {s : State} {x1 : Nat} (h : s.HomeWf) : (State.pump s x1).HomeWf := by
  unfold State.pump
  repeat' first
    | with_reducible assumption | with_reducible apply HomeWf.ite | with_reducible apply State.emitRun_keeps
    | (unfold State.HomeWf; dsimp only; with_reducible apply HomeWf.mem)

theorem State.putPort_keeps {s : State} {x1 : Nat} {x2 : OutPkt} (h : s.HomeWf) : (State.putPort s x1 x2).HomeWf := by
  unfold State.putPort
  repeat' first
    | with_reducible assumption | with_reducible apply State.pump_keeps | (unfold State.HomeWf; dsimp only; with_reducible apply HomeWf.mem)

theorem State.sendPacket_keeps {s : State} {x1 : BitVec 12} {x2 : Bool} {x3 x4 : Nat} {x5 : Packet} {v1 : Bool} {t : State} (e : State.sendPacket s x1 x2 x3 x4 x5 = (v1, t))
    (h : s.HomeWf) : t.HomeWf := by
  unfold State.sendPacket at e
  repeat' first | with_reducible assumption | cases e | split at e | with_reducible apply State.putPort_keeps

theorem State.sendPacket_keeps_st {s : State} {x1 : BitVec 12} {x2 : Bool} {x3 x4 : Nat} {x5 : Packet} (h : s.HomeWf) : (State.sendPacket s x1 x2 x3 x4 x5).2.HomeWf := by
  rcases e : State.sendPacket s x1 x2 x3 x4 x5 with ⟨a, b⟩; exact State.sendPacket_keeps e h

theorem State.sendAccess_keeps {s : State} {x1 : BitVec 12} {x2 : Nat} {x3 : RemoteReq} {x4 : Pending} (h : s.HomeWf) : (State.sendAccess s x1 x2 x3 x4).HomeWf := by
  unfold State.sendAccess
  repeat' first
    | with_reducible assumption | with_reducible apply State.sendPacket_keeps_st
    | (with_reducible refine State.sendPacket_keeps (by assumption) ?_) | (unfold State.HomeWf; dsimp only; with_reducible apply HomeWf.mem)

theorem State.sendHost_keeps {s : State} {x1 : BitVec 12} {x2 : Nat} {x3 : HostOut} {x4 : Pending} (h : s.HomeWf) : (State.sendHost s x1 x2 x3 x4).HomeWf := by
  unfold State.sendHost
  repeat' first | with_reducible assumption | (unfold State.HomeWf; dsimp only; with_reducible apply HomeWf.mem)

theorem putRun_keeps {x0 : BitVec 12} {x1 : Option Nat} {x2 : Nat} {s : State} {x4 : Place × List Byte} (h : s.HomeWf) : (putRun x0 x1 x2 s x4).HomeWf := by
  unfold putRun
  repeat' first
    | with_reducible assumption | with_reducible apply HomeWf.ite | with_reducible apply State.acceptBytes_keeps
    | with_reducible apply State.modCore_keeps | with_reducible apply State.newId_keeps_st
    | (with_reducible refine State.newId_keeps (by assumption) ?_) | with_reducible apply State.sendAccess_keeps
    | with_reducible apply State.sendHost_keeps | (unfold State.HomeWf; dsimp only; with_reducible apply HomeWf.mem) | cases e | split at e
    | split

theorem putPlaces_keeps {x0 : BitVec 12} {x1 : Option Nat} {x2 : List (Place × Byte)} {s : State} {x4 : optParam Nat 0} (h : s.HomeWf) :
    (putPlaces x0 x1 x2 s x4).HomeWf := by
  induction x2 generalizing x0 x1 s x4 with
  | nil => unfold putPlaces; repeat' first
    | with_reducible assumption | with_reducible exact EngAccess.wf_wait | with_reducible apply EngAccess.wf_err | intro _
    | with_reducible apply HomeWf.ite | with_reducible apply HomeWf.foldl | with_reducible apply HomeWf.foldl2 | with_reducible apply HomeWf.getD
    | with_reducible apply HomeWf.elim | with_reducible apply HomeWf.foldl1 | (with_reducible refine HomeWf.foldl2e (by assumption) ?_ ?_)
    | (with_reducible refine HomeWf.foldl1e (by assumption) ?_ ?_) | with_reducible apply putRun_keeps | with_reducible apply EngAccess.wf_fault
    | with_reducible apply EngAccess.wf_later | (unfold State.HomeWf; dsimp only; with_reducible apply HomeWf.mem) | cases e | split at e
    | dsimp only at e | (rw [Option.map_eq_some_iff] at e; obtain ⟨_, e1, e⟩ := e) | (rw [Option.bind_eq_some_iff] at e; obtain ⟨_, e1, e⟩ := e)
    | (injection e with e) | cases e1 | split at e1 | dsimp only at e1 | (rw [Option.map_eq_some_iff] at e1; obtain ⟨_, e2, e1⟩ := e1)
    | (rw [Option.bind_eq_some_iff] at e1; obtain ⟨_, e2, e1⟩ := e1) | (rename_i e; rw [Option.map_eq_some_iff] at e; obtain ⟨_, e1, e⟩ := e)
    | (rename_i e; rw [Option.bind_eq_some_iff] at e; obtain ⟨_, e1, e⟩ := e) | split
  | cons _ _ ih => unfold putPlaces; repeat' first
    | with_reducible assumption | with_reducible apply ih | with_reducible exact EngAccess.wf_wait | with_reducible apply EngAccess.wf_err
    | intro _ | with_reducible apply HomeWf.ite | with_reducible apply HomeWf.foldl | with_reducible apply HomeWf.foldl2
    | with_reducible apply HomeWf.getD | with_reducible apply HomeWf.elim | with_reducible apply HomeWf.foldl1
    | (with_reducible refine HomeWf.foldl2e (by assumption) ?_ ?_) | (with_reducible refine HomeWf.foldl1e (by assumption) ?_ ?_)
    | with_reducible apply putRun_keeps | with_reducible apply EngAccess.wf_fault | with_reducible apply EngAccess.wf_later
    | (unfold State.HomeWf; dsimp only; with_reducible apply HomeWf.mem) | cases e | split at e | dsimp only at e
    | (rw [Option.map_eq_some_iff] at e; obtain ⟨_, e1, e⟩ := e) | (rw [Option.bind_eq_some_iff] at e; obtain ⟨_, e1, e⟩ := e)
    | (injection e with e) | cases e1 | split at e1 | dsimp only at e1 | (rw [Option.map_eq_some_iff] at e1; obtain ⟨_, e2, e1⟩ := e1)
    | (rw [Option.bind_eq_some_iff] at e1; obtain ⟨_, e2, e1⟩ := e1) | (rename_i e; rw [Option.map_eq_some_iff] at e; obtain ⟨_, e1, e⟩ := e)
    | (rename_i e; rw [Option.bind_eq_some_iff] at e; obtain ⟨_, e1, e⟩ := e) | split

theorem State.denyIf_keeps {s : State} {x1 : Bool} (h : s.HomeWf) : (State.denyIf s x1).HomeWf := by
  unfold State.denyIf
  repeat' first | with_reducible assumption | with_reducible apply HomeWf.ite | with_reducible apply State.deny_keeps

theorem State.vput_keeps {s : State} {x1 : BitVec 12} {x2 : Option Nat} {x3 : Nat} {x4 : List Byte} {x5 : optParam Nat 0} (h : s.HomeWf) :
    (State.vput s x1 x2 x3 x4 x5).HomeWf := by
  unfold State.vput
  repeat' first | with_reducible assumption | with_reducible apply putPlaces_keeps | with_reducible apply State.denyIf_keeps

theorem State.vputWord_keeps {s : State} {x1 : BitVec 12} {x2 : Nat} {x3 : Word} (h : s.HomeWf) : (State.vputWord s x1 x2 x3).HomeWf := by
  unfold State.vputWord
  repeat' first | with_reducible assumption | with_reducible apply State.vput_keeps

theorem State.askRead_keeps {s : State} {x1 : Who} {x2 : Place × Nat} (h : s.HomeWf) : (State.askRead s x1 x2).HomeWf := by
  unfold State.askRead
  repeat' first
    | with_reducible assumption | with_reducible apply HomeWf.ite | with_reducible apply State.newId_keeps_st
    | (with_reducible refine State.newId_keeps (by assumption) ?_) | with_reducible apply State.sendAccess_keeps
    | with_reducible apply State.sendHost_keeps | (unfold State.HomeWf; dsimp only; with_reducible apply HomeWf.mem) | cases e | split at e
    | split

theorem State.readAnswered_keeps {s : State} {x1 : Nat} {x2 : ReadAns} (h : s.HomeWf) : (State.readAnswered s x1 x2).HomeWf := by
  unfold State.readAnswered
  repeat' first
    | with_reducible assumption | with_reducible apply HomeWf.ite | (unfold State.HomeWf; dsimp only; with_reducible apply HomeWf.mem) | cases e
    | split at e | split

theorem State.aput_keeps {s : State} {x1 : BitVec 12} {x2 : Nat} {x3 : List Byte} (h : s.HomeWf) : (State.aput s x1 x2 x3).HomeWf := by
  unfold State.aput
  repeat' first | with_reducible assumption | with_reducible apply putPlaces_keeps | with_reducible apply State.denyIf_keeps

theorem State.spillStore_keeps {s : State} {x1 : Token} (h : s.HomeWf) : (State.spillStore s x1).HomeWf := by
  unfold State.spillStore
  repeat' first | with_reducible assumption | with_reducible apply State.aput_keeps | with_reducible apply State.modCtx_keeps

theorem State.sendBack_keeps {s : State} {x1 : BitVec 12} {x2 : BitVec 12} {x3 : RemoteReq} (h : s.HomeWf) : (State.sendBack s x1 x2 x3).HomeWf := by
  unfold State.sendBack
  repeat' first
    | with_reducible assumption | with_reducible apply HomeWf.ite | with_reducible apply State.sendPacket_keeps_st
    | (with_reducible refine State.sendPacket_keeps (by assumption) ?_) | (unfold State.HomeWf; dsimp only; with_reducible apply HomeWf.mem)

theorem State.tell_keeps {s : State} {x1 : BitVec 12} {x2 : Nat} {x3 : BitVec 12} {x4 : BitVec 16} {x5 : List Word} (h : s.HomeWf) :
    (State.tell s x1 x2 x3 x4 x5).HomeWf := by
  unfold State.tell
  repeat' first | with_reducible assumption | with_reducible apply State.sendBack_keeps

theorem State.payAcks_keeps {s : State} (h : s.HomeWf) : (State.payAcks s).HomeWf := by
  unfold State.payAcks
  repeat' first
    | with_reducible assumption | intro _ | with_reducible apply HomeWf.ite | with_reducible apply HomeWf.foldl
    | with_reducible apply State.tell_keeps | (unfold State.HomeWf; dsimp only; with_reducible apply HomeWf.mem) | cases e | split at e | split

theorem State.countDiscard_keeps {s : State} {x1 : BitVec 12} (h : s.HomeWf) : (State.countDiscard s x1).HomeWf := by
  unfold State.countDiscard
  repeat' first | with_reducible assumption | with_reducible apply State.modCtx_keeps

theorem refillSpill_keeps {x0 : BitVec 12} {x1 : Nat} {s : State} (h : s.HomeWf) : (refillSpill x0 x1 s).HomeWf := by
  induction x1 generalizing x0 s with
  | zero => unfold refillSpill; repeat' first
    | with_reducible assumption | with_reducible exact EngAccess.wf_wait | with_reducible apply EngAccess.wf_err | intro _
    | with_reducible apply HomeWf.ite | with_reducible apply HomeWf.foldl | with_reducible apply HomeWf.foldl2 | with_reducible apply HomeWf.getD
    | with_reducible apply HomeWf.elim | with_reducible apply HomeWf.foldl1 | (with_reducible refine HomeWf.foldl2e (by assumption) ?_ ?_)
    | (with_reducible refine HomeWf.foldl1e (by assumption) ?_ ?_) | with_reducible apply State.spillStore_keeps
    | with_reducible apply State.modCtx_keeps | with_reducible apply EngAccess.wf_fault | with_reducible apply EngAccess.wf_later
    | (unfold State.HomeWf; dsimp only; with_reducible apply HomeWf.mem) | cases e | split at e | dsimp only at e
    | (rw [Option.map_eq_some_iff] at e; obtain ⟨_, e1, e⟩ := e) | (rw [Option.bind_eq_some_iff] at e; obtain ⟨_, e1, e⟩ := e)
    | (injection e with e) | cases e1 | split at e1 | dsimp only at e1 | (rw [Option.map_eq_some_iff] at e1; obtain ⟨_, e2, e1⟩ := e1)
    | (rw [Option.bind_eq_some_iff] at e1; obtain ⟨_, e2, e1⟩ := e1) | (rename_i e; rw [Option.map_eq_some_iff] at e; obtain ⟨_, e1, e⟩ := e)
    | (rename_i e; rw [Option.bind_eq_some_iff] at e; obtain ⟨_, e1, e⟩ := e) | split
  | succ _ ih => unfold refillSpill; repeat' first
    | with_reducible assumption | with_reducible apply ih | with_reducible exact EngAccess.wf_wait | with_reducible apply EngAccess.wf_err
    | intro _ | with_reducible apply HomeWf.ite | with_reducible apply HomeWf.foldl | with_reducible apply HomeWf.foldl2
    | with_reducible apply HomeWf.getD | with_reducible apply HomeWf.elim | with_reducible apply HomeWf.foldl1
    | (with_reducible refine HomeWf.foldl2e (by assumption) ?_ ?_) | (with_reducible refine HomeWf.foldl1e (by assumption) ?_ ?_)
    | with_reducible apply State.spillStore_keeps | with_reducible apply State.modCtx_keeps | with_reducible apply EngAccess.wf_fault
    | with_reducible apply EngAccess.wf_later | (unfold State.HomeWf; dsimp only; with_reducible apply HomeWf.mem) | cases e | split at e
    | dsimp only at e | (rw [Option.map_eq_some_iff] at e; obtain ⟨_, e1, e⟩ := e) | (rw [Option.bind_eq_some_iff] at e; obtain ⟨_, e1, e⟩ := e)
    | (injection e with e) | cases e1 | split at e1 | dsimp only at e1 | (rw [Option.map_eq_some_iff] at e1; obtain ⟨_, e2, e1⟩ := e1)
    | (rw [Option.bind_eq_some_iff] at e1; obtain ⟨_, e2, e1⟩ := e1) | (rename_i e; rw [Option.map_eq_some_iff] at e; obtain ⟨_, e1, e⟩ := e)
    | (rename_i e; rw [Option.bind_eq_some_iff] at e; obtain ⟨_, e1, e⟩ := e) | split

theorem State.spillPut_keeps {s : State} {x1 : Token} (h : s.HomeWf) : (State.spillPut s x1).HomeWf := by
  unfold State.spillPut
  repeat' first
    | with_reducible assumption | with_reducible apply HomeWf.ite | with_reducible apply refillSpill_keeps
    | with_reducible apply State.spillStore_keeps | with_reducible apply State.modCtx_keeps | with_reducible apply State.escalate_keeps
    | (unfold State.HomeWf; dsimp only; with_reducible apply HomeWf.mem)

theorem State.holdToken_keeps {s : State} {x1 : Token} (h : s.HomeWf) : (State.holdToken s x1).HomeWf := by
  unfold State.holdToken
  repeat' first
    | with_reducible assumption | with_reducible apply HomeWf.ite | with_reducible apply State.linkEvent_keeps
    | with_reducible apply State.spillPut_keeps | (unfold State.HomeWf; dsimp only; with_reducible apply HomeWf.mem)

theorem State.sendToken_keeps {s : State} {x1 : Token} (h : s.HomeWf) : (State.sendToken s x1).HomeWf := by
  unfold State.sendToken
  repeat' first
    | with_reducible assumption | with_reducible apply HomeWf.ite | with_reducible apply State.holdToken_keeps
    | with_reducible apply State.sendPacket_keeps_st | (with_reducible refine State.sendPacket_keeps (by assumption) ?_)
    | (unfold State.HomeWf; dsimp only; with_reducible apply HomeWf.mem) | cases e | split at e | split

theorem State.denyPages_keeps {s : State} {x1 : BitVec 12} {x2 x3 : Nat} (h : s.HomeWf) : (State.denyPages s x1 x2 x3).HomeWf := by
  unfold State.denyPages
  repeat' first | with_reducible assumption | with_reducible apply State.denyIf_keeps

theorem State.forget_keeps {s : State} {x1 : AgentRead → Bool} (h : s.HomeWf) : (State.forget s x1).HomeWf := by
  unfold State.forget
  repeat' first | with_reducible assumption | (unfold State.HomeWf; dsimp only; with_reducible apply HomeWf.mem)

theorem State.forgetJob_keeps {s : State} {x1 : Who} (h : s.HomeWf) : (State.forgetJob s x1).HomeWf := by
  unfold State.forgetJob
  repeat' first | with_reducible assumption | with_reducible apply State.forget_keeps

theorem State.denyDomain_keeps {s : State} {x1 : BitVec 12} {x2 : BitVec 12} (h : s.HomeWf) : (State.denyDomain s x1 x2).HomeWf := by
  unfold State.denyDomain
  repeat' first | with_reducible assumption | with_reducible apply State.denyPages_keeps

theorem State.protectionEvent_keeps {s : State} {x1 : BitVec 8} {x2 : BitVec 12} {x3 : BitVec 12} (h : s.HomeWf) : (State.protectionEvent s x1 x2 x3).HomeWf := by
  unfold State.protectionEvent
  repeat' first | with_reducible assumption | with_reducible apply State.event_keeps

theorem State.seek_keeps_later {s : State} {x1 : Who} {x2 : List Place} {t : State} (e : State.seek s x1 x2 = .later t) (h : s.HomeWf) : t.HomeWf := by
  unfold State.seek at e
  repeat' first
    | with_reducible assumption | cases e | split at e | dsimp only at e | intro _ | with_reducible apply HomeWf.ite
    | with_reducible apply HomeWf.foldl | with_reducible apply State.askRead_keeps

theorem putBits_keeps {x0 : BitVec 12} {x1 : Option Nat} {x2 : Nat} {x3 : Place} {x4 : Byte} {x5 : Byte} {s : State} (h : s.HomeWf) :
    (putBits x0 x1 x2 x3 x4 x5 s).HomeWf := by
  unfold putBits
  repeat' first
    | with_reducible assumption | with_reducible apply HomeWf.ite | with_reducible apply State.newId_keeps_st
    | (with_reducible refine State.newId_keeps (by assumption) ?_) | with_reducible apply State.sendAccess_keeps
    | with_reducible apply putPlaces_keeps | (unfold State.HomeWf; dsimp only; with_reducible apply HomeWf.mem) | cases e | split at e | split

theorem State.slotError_keeps {s : State} (h : s.HomeWf) : (State.slotError s).HomeWf := by
  unfold State.slotError
  repeat' first | with_reducible assumption | with_reducible apply State.linkEvent_keeps

theorem State.sendLate_keeps {s : State} {x1 : BitVec 12} (h : s.HomeWf) : (State.sendLate s x1).HomeWf := by
  unfold State.sendLate
  repeat' first
    | with_reducible assumption | intro _ | with_reducible apply HomeWf.ite | with_reducible apply HomeWf.foldl
    | with_reducible apply State.sendBack_keeps | (unfold State.HomeWf; dsimp only; with_reducible apply HomeWf.mem)

theorem State.putLog_keeps {s : State} {x1 : List Word} (h : s.HomeWf) : (State.putLog s x1).HomeWf := by
  unfold State.putLog
  repeat' first
    | with_reducible assumption | with_reducible apply HomeWf.ite | with_reducible apply State.event_keeps
    | with_reducible apply State.acceptBytes_keeps | (unfold State.HomeWf; dsimp only; with_reducible apply HomeWf.mem)

theorem State.recordEntry_keeps {s : State} {x1 : BitVec 12} {x2 x3 : Nat} {x4 : BitVec 16} {x5 : List Nat} (h : s.HomeWf) :
    (State.recordEntry s x1 x2 x3 x4 x5).HomeWf := by
  unfold State.recordEntry
  repeat' first | with_reducible assumption | with_reducible apply HomeWf.ite | with_reducible apply State.putLog_keeps

theorem State.recordBatch_keeps {s : State} {x1 : BitVec 12} {x2 : Nat} {x3 : List Nat} (h : s.HomeWf) : (State.recordBatch s x1 x2 x3).HomeWf := by
  unfold State.recordBatch
  repeat' first
    | with_reducible assumption | with_reducible apply State.recordEntry_keeps
    | (unfold State.HomeWf; dsimp only; with_reducible apply HomeWf.mem)

theorem advanceLog_keeps {x0 : Nat} {s : State} (h : s.HomeWf) : (advanceLog x0 s).HomeWf := by
  induction x0 generalizing s with
  | zero => unfold advanceLog; repeat' first
    | with_reducible assumption | with_reducible exact EngAccess.wf_wait | with_reducible apply EngAccess.wf_err | intro _
    | with_reducible apply HomeWf.ite | with_reducible apply HomeWf.foldl | with_reducible apply HomeWf.foldl2 | with_reducible apply HomeWf.getD
    | with_reducible apply HomeWf.elim | with_reducible apply HomeWf.foldl1 | (with_reducible refine HomeWf.foldl2e (by assumption) ?_ ?_)
    | (with_reducible refine HomeWf.foldl1e (by assumption) ?_ ?_) | with_reducible apply EngAccess.wf_fault
    | with_reducible apply EngAccess.wf_later | (unfold State.HomeWf; dsimp only; with_reducible apply HomeWf.mem) | cases e | split at e
    | dsimp only at e | (rw [Option.map_eq_some_iff] at e; obtain ⟨_, e1, e⟩ := e) | (rw [Option.bind_eq_some_iff] at e; obtain ⟨_, e1, e⟩ := e)
    | (injection e with e) | cases e1 | split at e1 | dsimp only at e1 | (rw [Option.map_eq_some_iff] at e1; obtain ⟨_, e2, e1⟩ := e1)
    | (rw [Option.bind_eq_some_iff] at e1; obtain ⟨_, e2, e1⟩ := e1) | (rename_i e; rw [Option.map_eq_some_iff] at e; obtain ⟨_, e1, e⟩ := e)
    | (rename_i e; rw [Option.bind_eq_some_iff] at e; obtain ⟨_, e1, e⟩ := e) | split
  | succ _ ih => unfold advanceLog; repeat' first
    | with_reducible assumption | with_reducible apply ih | with_reducible exact EngAccess.wf_wait | with_reducible apply EngAccess.wf_err
    | intro _ | with_reducible apply HomeWf.ite | with_reducible apply HomeWf.foldl | with_reducible apply HomeWf.foldl2
    | with_reducible apply HomeWf.getD | with_reducible apply HomeWf.elim | with_reducible apply HomeWf.foldl1
    | (with_reducible refine HomeWf.foldl2e (by assumption) ?_ ?_) | (with_reducible refine HomeWf.foldl1e (by assumption) ?_ ?_)
    | with_reducible apply EngAccess.wf_fault | with_reducible apply EngAccess.wf_later
    | (unfold State.HomeWf; dsimp only; with_reducible apply HomeWf.mem) | cases e | split at e | dsimp only at e
    | (rw [Option.map_eq_some_iff] at e; obtain ⟨_, e1, e⟩ := e) | (rw [Option.bind_eq_some_iff] at e; obtain ⟨_, e1, e⟩ := e)
    | (injection e with e) | cases e1 | split at e1 | dsimp only at e1 | (rw [Option.map_eq_some_iff] at e1; obtain ⟨_, e2, e1⟩ := e1)
    | (rw [Option.bind_eq_some_iff] at e1; obtain ⟨_, e2, e1⟩ := e1) | (rename_i e; rw [Option.map_eq_some_iff] at e; obtain ⟨_, e1, e⟩ := e)
    | (rename_i e; rw [Option.bind_eq_some_iff] at e; obtain ⟨_, e1, e⟩ := e) | split

theorem State.consumeLog_keeps {s : State} {x1 : LogEntry} (h : s.HomeWf) : (State.consumeLog s x1).HomeWf := by
  unfold State.consumeLog
  repeat' first
    | with_reducible assumption | with_reducible apply HomeWf.ite | with_reducible apply advanceLog_keeps
    | (unfold State.HomeWf; dsimp only; with_reducible apply HomeWf.mem)

theorem State.recordChord_keeps {s : State} {x1 : BitVec 12} {x2 x3 : Nat} {x4 : BitVec 16} {x5 : BitVec 32} {x6 : List (BitVec 32)} (h : s.HomeWf) :
    (State.recordChord s x1 x2 x3 x4 x5 x6).HomeWf := by
  unfold State.recordChord
  repeat' first | with_reducible assumption | with_reducible apply HomeWf.ite | with_reducible apply State.putLog_keeps

theorem State.replayStop_keeps {s : State} {x1 : BitVec 12} {x2 : BitVec 8} {x3 x4 : Nat} (h : s.HomeWf) : (State.replayStop s x1 x2 x3 x4).HomeWf := by
  unfold State.replayStop
  repeat' first | with_reducible assumption | with_reducible apply State.event_keeps | with_reducible apply State.stopCtx_keeps

theorem State.logChoice_keeps {s : State} {x1 : BitVec 12} {x2 x3 : Nat} {x4 : BitVec 16} {x5 : BitVec 8} {x6 : List Nat} (h : s.HomeWf) :
    (State.logChoice s x1 x2 x3 x4 x5 x6).HomeWf := by
  unfold State.logChoice
  repeat' first
    | with_reducible assumption | with_reducible apply HomeWf.ite | with_reducible apply State.replayStop_keeps
    | with_reducible apply State.consumeLog_keeps | with_reducible apply State.recordEntry_keeps | cases e | split at e | split

theorem State.recordToken_keeps {s : State} {x1 : Token} (h : s.HomeWf) : (State.recordToken s x1).HomeWf := by
  unfold State.recordToken
  repeat' first
    | with_reducible assumption | with_reducible apply HomeWf.ite | with_reducible apply State.recordEntry_keeps
    | (unfold State.HomeWf; dsimp only; with_reducible apply HomeWf.mem)

theorem State.logPath_keeps {s : State} {x1 : BitVec 12} {x2 : Nat} {x3 : BitVec 16} {x4 : Nat} (h : s.HomeWf) : (State.logPath s x1 x2 x3 x4).HomeWf := by
  unfold State.logPath
  repeat' first
    | with_reducible assumption | with_reducible apply HomeWf.ite | with_reducible apply State.consumeLog_keeps
    | with_reducible apply State.recordEntry_keeps | cases e | split at e | split

theorem State.setFocus_keeps {s : State} {x1 : Chord} (h : s.HomeWf) : (State.setFocus s x1).HomeWf := by
  unfold State.setFocus
  repeat' first | with_reducible assumption | with_reducible apply State.setChord_keeps

theorem State.aluImm_keeps {s : State} {x1 : ImmFlds} {x2 : Word} (h : s.HomeWf) : (State.aluImm s x1 x2).HomeWf := by
  unfold State.aluImm
  repeat' first
    | with_reducible assumption | with_reducible apply HomeWf.ite | with_reducible apply State.setFocus_keeps | cases e | split at e | split

theorem State.alu_keeps {s : State} {x1 : Shape} {x2 : Flds} {x3 : Vals → Word} (h : s.HomeWf) : (State.alu s x1 x2 x3).HomeWf := by
  unfold State.alu
  repeat' first
    | with_reducible assumption | with_reducible apply HomeWf.ite | with_reducible apply State.setFocus_keeps | cases e | split at e | split

/-- A body keeps the form in every lane. -/
def BodyKeeps (body : Body) : Prop := ∀ s ch i l x v res t, body s ch i l x v = some (res, t) → s.HomeWf → t.HomeWf

theorem runLanes_keeps {sh : Shape} {f : Flds} {ch : Chord} {i : Nat} {body : Body} {ls : List (Nat × Lane × Vals)} {s : State}
    {v : List (Nat × LaneRes)} {t : State} (hb : BodyKeeps body) (e : runLanes sh f ch i body ls s = some (v, t)) (h : s.HomeWf) : t.HomeWf := by
  induction ls generalizing s v t with
  | nil => unfold runLanes at e; cases e; exact h
  | cons p r ih =>
    unfold runLanes at e
    dsimp only at e
    split at e
    · cases e
    · rename_i res s1 h1
      have hs : s1.HomeWf := by
        split at h1
        · exact hb _ _ _ _ _ _ _ _ h1 h
        · cases h1; exact h
      have h2 : (if res.trap.isSome && p.2.1.doom.isSome then s else s1).HomeWf := HomeWf.ite h hs
      split at e
      · cases e
      · rename_i h3; cases e; exact ih h3 h2

theorem State.perform_keeps {s : State} {sh : Shape} {f : Flds} {n : Nat} {m : Bool} {body : Body} (hb : BodyKeeps body) (h : s.HomeWf) :
    (s.perform sh f n m body).HomeWf := by
  unfold State.perform
  repeat' first
    | assumption | with_reducible apply HomeWf.ite | with_reducible apply State.setFocus_keeps
    | (with_reducible refine runLanes_keeps hb (by assumption) ?_) | (refine hb _ _ _ _ _ _ _ _ (by assumption) ?_) | split | dsimp only

theorem State.cross_keeps {s : State} {x1 : Shape} {x2 : Flds} {x3 : List (Nat × Vals) → Nat → Vals → Word} (h : s.HomeWf) : (State.cross s x1 x2 x3).HomeWf := by
  unfold State.cross
  repeat' first
    | with_reducible assumption | with_reducible apply HomeWf.ite | with_reducible apply State.setFocus_keeps
    | (unfold State.HomeWf; dsimp only; with_reducible apply HomeWf.mem) | cases e | split at e | split

theorem execAndn_keeps {x0 : IntTy} {x1 : Flds} {s : State} {t : State} (e : execAndn x0 x1 s = .next t) (h : s.HomeWf) : t.HomeWf := by
  unfold execAndn at e
  repeat' first | with_reducible assumption | cases e | with_reducible apply State.alu_keeps

theorem execShl_keeps {x0 : IntTy} {x1 : Flds} {s : State} {t : State} (e : execShl x0 x1 s = .next t) (h : s.HomeWf) : t.HomeWf := by
  unfold execShl at e
  repeat' first | with_reducible assumption | cases e | with_reducible apply State.alu_keeps

theorem execAdds_keeps {x0 : IntTy} {x1 : Flds} {s : State} {t : State} (e : execAdds x0 x1 s = .next t) (h : s.HomeWf) : t.HomeWf := by
  unfold execAdds at e
  repeat' first | with_reducible assumption | cases e | with_reducible apply State.alu_keeps

theorem execBfx_keeps {x0 : IntTy} {x1 : Flds} {s : State} {t : State} (e : execBfx x0 x1 s = .next t) (h : s.HomeWf) : t.HomeWf := by
  unfold execBfx at e
  repeat' first | with_reducible assumption | cases e | with_reducible apply State.alu_keeps

theorem execClz_keeps {x0 : IntTy} {x1 : Flds} {s : State} {t : State} (e : execClz x0 x1 s = .next t) (h : s.HomeWf) : t.HomeWf := by
  unfold execClz at e
  repeat' first | with_reducible assumption | cases e | with_reducible apply State.alu_keeps

theorem execImmh_keeps {x0 : ImmFlds} {s : State} {t : State} (e : execImmh x0 s = .next t) (h : s.HomeWf) : t.HomeWf := by
  unfold execImmh at e
  repeat' first | with_reducible assumption | cases e | with_reducible apply State.aluImm_keeps

theorem execBrev_keeps {x0 : IntTy} {x1 : Flds} {s : State} {t : State} (e : execBrev x0 x1 s = .next t) (h : s.HomeWf) : t.HomeWf := by
  unfold execBrev at e
  repeat' first | with_reducible assumption | cases e | with_reducible apply State.alu_keeps

theorem execRot_keeps {x0 : IntTy} {x1 : Flds} {s : State} {t : State} (e : execRot x0 x1 s = .next t) (h : s.HomeWf) : t.HomeWf := by
  unfold execRot at e
  repeat' first | with_reducible assumption | cases e | with_reducible apply State.alu_keeps

theorem execMad_keeps {x0 : IntTy} {x1 : Flds} {s : State} {t : State} (e : execMad x0 x1 s = .next t) (h : s.HomeWf) : t.HomeWf := by
  unfold execMad at e
  repeat' first | with_reducible assumption | cases e | with_reducible apply State.alu_keeps

theorem execImm_keeps {x0 : Bool} {x1 : ImmFlds} {s : State} {t : State} (e : execImm x0 x1 s = .next t) (h : s.HomeWf) : t.HomeWf := by
  unfold execImm at e
  repeat' first | with_reducible assumption | cases e | with_reducible apply State.aluImm_keeps

theorem execAbs_keeps {x0 : IntTy} {x1 : Flds} {s : State} {t : State} (e : execAbs x0 x1 s = .next t) (h : s.HomeWf) : t.HomeWf := by
  unfold execAbs at e
  repeat' first | with_reducible assumption | cases e | with_reducible apply State.alu_keeps

theorem execPopc_keeps {x0 : IntTy} {x1 : Flds} {s : State} {t : State} (e : execPopc x0 x1 s = .next t) (h : s.HomeWf) : t.HomeWf := by
  unfold execPopc at e
  repeat' first | with_reducible assumption | cases e | with_reducible apply State.alu_keeps

theorem execNot_keeps {x0 : IntTy} {x1 : Flds} {s : State} {t : State} (e : execNot x0 x1 s = .next t) (h : s.HomeWf) : t.HomeWf := by
  unfold execNot at e
  repeat' first | with_reducible assumption | cases e | with_reducible apply State.alu_keeps

theorem execIdx_keeps {x0 : BitVec 3} {x1 : Flds} {s : State} {t : State} (e : execIdx x0 x1 s = .next t) (h : s.HomeWf) : t.HomeWf := by
  unfold execIdx at e
  repeat' first | with_reducible assumption | cases e | with_reducible apply State.alu_keeps

theorem execMin_keeps {x0 : IntTy} {x1 : Flds} {s : State} {t : State} (e : execMin x0 x1 s = .next t) (h : s.HomeWf) : t.HomeWf := by
  unfold execMin at e
  repeat' first | with_reducible assumption | cases e | with_reducible apply State.alu_keeps

theorem execMov_keeps {x0 : IntTy} {x1 : Flds} {s : State} {t : State} (e : execMov x0 x1 s = .next t) (h : s.HomeWf) : t.HomeWf := by
  unfold execMov at e
  repeat' first | with_reducible assumption | cases e | with_reducible apply State.alu_keeps

theorem execSel_keeps {x0 : IntTy} {x1 : Flds} {s : State} {t : State} (e : execSel x0 x1 s = .next t) (h : s.HomeWf) : t.HomeWf := by
  unfold execSel at e
  repeat' first | with_reducible assumption | cases e | with_reducible apply State.alu_keeps

theorem execSub_keeps {x0 : IntTy} {x1 : Flds} {s : State} {t : State} (e : execSub x0 x1 s = .next t) (h : s.HomeWf) : t.HomeWf := by
  unfold execSub at e
  repeat' first | with_reducible assumption | cases e | with_reducible apply State.alu_keeps

theorem execOr_keeps {x0 : IntTy} {x1 : Flds} {s : State} {t : State} (e : execOr x0 x1 s = .next t) (h : s.HomeWf) : t.HomeWf := by
  unfold execOr at e
  repeat' first | with_reducible assumption | cases e | with_reducible apply State.alu_keeps

theorem execMax_keeps {x0 : IntTy} {x1 : Flds} {s : State} {t : State} (e : execMax x0 x1 s = .next t) (h : s.HomeWf) : t.HomeWf := by
  unfold execMax at e
  repeat' first | with_reducible assumption | cases e | with_reducible apply State.alu_keeps

theorem execShr_keeps {x0 : IntTy} {x1 : Flds} {s : State} {t : State} (e : execShr x0 x1 s = .next t) (h : s.HomeWf) : t.HomeWf := by
  unfold execShr at e
  repeat' first | with_reducible assumption | cases e | with_reducible apply State.alu_keeps

theorem execMul_keeps {x0 : IntTy} {x1 : Flds} {s : State} {t : State} (e : execMul x0 x1 s = .next t) (h : s.HomeWf) : t.HomeWf := by
  unfold execMul at e
  repeat' first | with_reducible assumption | cases e | with_reducible apply State.alu_keeps

theorem execNeg_keeps {x0 : IntTy} {x1 : Flds} {s : State} {t : State} (e : execNeg x0 x1 s = .next t) (h : s.HomeWf) : t.HomeWf := by
  unfold execNeg at e
  repeat' first | with_reducible assumption | cases e | with_reducible apply State.alu_keeps

theorem execXor_keeps {x0 : IntTy} {x1 : Flds} {s : State} {t : State} (e : execXor x0 x1 s = .next t) (h : s.HomeWf) : t.HomeWf := by
  unfold execXor at e
  repeat' first | with_reducible assumption | cases e | with_reducible apply State.alu_keeps

theorem execSubs_keeps {x0 : IntTy} {x1 : Flds} {s : State} {t : State} (e : execSubs x0 x1 s = .next t) (h : s.HomeWf) : t.HomeWf := by
  unfold execSubs at e
  repeat' first | with_reducible assumption | cases e | with_reducible apply State.alu_keeps

theorem execCtz_keeps {x0 : IntTy} {x1 : Flds} {s : State} {t : State} (e : execCtz x0 x1 s = .next t) (h : s.HomeWf) : t.HomeWf := by
  unfold execCtz at e
  repeat' first | with_reducible assumption | cases e | with_reducible apply State.alu_keeps

theorem execBfi_keeps {x0 : IntTy} {x1 : Flds} {s : State} {t : State} (e : execBfi x0 x1 s = .next t) (h : s.HomeWf) : t.HomeWf := by
  unfold execBfi at e
  repeat' first | with_reducible assumption | cases e | with_reducible apply State.alu_keeps

theorem execDiv_keeps {x0 : IntTy} {x1 : Flds} {s : State} {t : State} (e : execDiv x0 x1 s = .next t) (h : s.HomeWf) : t.HomeWf := by
  unfold execDiv at e
  repeat' first | with_reducible assumption | cases e | with_reducible apply State.alu_keeps

theorem execAnd_keeps {x0 : IntTy} {x1 : Flds} {s : State} {t : State} (e : execAnd x0 x1 s = .next t) (h : s.HomeWf) : t.HomeWf := by
  unfold execAnd at e
  repeat' first | with_reducible assumption | cases e | with_reducible apply State.alu_keeps

theorem execCmp_keeps {x0 : Cond} {x1 : IntTy} {x2 : Flds} {s : State} {t : State} (e : execCmp x0 x1 x2 s = .next t) (h : s.HomeWf) : t.HomeWf := by
  unfold execCmp at e
  repeat' first | with_reducible assumption | cases e | with_reducible apply State.alu_keeps

theorem execSar_keeps {x0 : IntTy} {x1 : Flds} {s : State} {t : State} (e : execSar x0 x1 s = .next t) (h : s.HomeWf) : t.HomeWf := by
  unfold execSar at e
  repeat' first | with_reducible assumption | cases e | with_reducible apply State.alu_keeps

theorem execAdd_keeps {x0 : IntTy} {x1 : Flds} {s : State} {t : State} (e : execAdd x0 x1 s = .next t) (h : s.HomeWf) : t.HomeWf := by
  unfold execAdd at e
  repeat' first | with_reducible assumption | cases e | with_reducible apply State.alu_keeps

theorem execMulh_keeps {x0 : IntTy} {x1 : Flds} {s : State} {t : State} (e : execMulh x0 x1 s = .next t) (h : s.HomeWf) : t.HomeWf := by
  unfold execMulh at e
  repeat' first | with_reducible assumption | cases e | with_reducible apply State.alu_keeps

theorem execRem_keeps {x0 : IntTy} {x1 : Flds} {s : State} {t : State} (e : execRem x0 x1 s = .next t) (h : s.HomeWf) : t.HomeWf := by
  unfold execRem at e
  repeat' first | with_reducible assumption | cases e | with_reducible apply State.alu_keeps

theorem State.fbin_keeps {s : State} {x1 : FTy} {x2 : Flds} {x3 : FVal → FVal → Nat} (h : s.HomeWf) : (State.fbin s x1 x2 x3).HomeWf := by
  unfold State.fbin
  repeat' first | with_reducible assumption | with_reducible apply State.alu_keeps

theorem execFmul_keeps {x0 : FTy} {x1 : Rnd} {x2 : Flds} {s : State} {t : State} (e : execFmul x0 x1 x2 s = .next t) (h : s.HomeWf) : t.HomeWf := by
  unfold execFmul at e
  repeat' first | with_reducible assumption | cases e | with_reducible apply State.fbin_keeps

theorem execFsin_keeps {x0 : FTy} {x1 : Flds} {s : State} {t : State} (e : execFsin x0 x1 s = .next t) (h : s.HomeWf) : t.HomeWf := by
  unfold execFsin at e
  repeat' first | with_reducible assumption | cases e | with_reducible apply State.alu_keeps

theorem State.fun1_keeps {s : State} {x1 : FTy} {x2 : Flds} {x3 : FVal → Nat} (h : s.HomeWf) : (State.fun1 s x1 x2 x3).HomeWf := by
  unfold State.fun1
  repeat' first | with_reducible assumption | with_reducible apply State.alu_keeps

theorem execFsqrt_keeps {x0 : FTy} {x1 : Rnd} {x2 : Flds} {s : State} {t : State} (e : execFsqrt x0 x1 x2 s = .next t) (h : s.HomeWf) : t.HomeWf := by
  unfold execFsqrt at e
  repeat' first | with_reducible assumption | cases e | with_reducible apply State.fun1_keeps

theorem execFtanh_keeps {x0 : FTy} {x1 : Flds} {s : State} {t : State} (e : execFtanh x0 x1 s = .next t) (h : s.HomeWf) : t.HomeWf := by
  unfold execFtanh at e
  repeat' first | with_reducible assumption | cases e | with_reducible apply State.alu_keeps

theorem execFmin_keeps {x0 : FTy} {x1 : Flds} {s : State} {t : State} (e : execFmin x0 x1 s = .next t) (h : s.HomeWf) : t.HomeWf := by
  unfold execFmin at e
  repeat' first | with_reducible assumption | cases e | with_reducible apply State.alu_keeps

theorem execFrcp_keeps {x0 : FTy} {x1 : Flds} {s : State} {t : State} (e : execFrcp x0 x1 s = .next t) (h : s.HomeWf) : t.HomeWf := by
  unfold execFrcp at e
  repeat' first | with_reducible assumption | cases e | with_reducible apply State.alu_keeps

theorem execFfma_keeps {x0 : FTy} {x1 : Rnd} {x2 : Flds} {s : State} {t : State} (e : execFfma x0 x1 x2 s = .next t) (h : s.HomeWf) : t.HomeWf := by
  unfold execFfma at e
  repeat' first | with_reducible assumption | cases e | with_reducible apply State.alu_keeps

theorem execFrsq_keeps {x0 : FTy} {x1 : Flds} {s : State} {t : State} (e : execFrsq x0 x1 s = .next t) (h : s.HomeWf) : t.HomeWf := by
  unfold execFrsq at e
  repeat' first | with_reducible assumption | cases e | with_reducible apply State.alu_keeps

theorem execIcvt_keeps {x0 : Bool} {x1 : FTy} {x2 : IntTy} {x3 : Rnd} {x4 : Flds} {s : State} {t : State} (e : execIcvt x0 x1 x2 x3 x4 s = .next t)
    (h : s.HomeWf) : t.HomeWf := by
  unfold execIcvt at e
  repeat' first | with_reducible assumption | cases e | with_reducible apply State.alu_keeps

theorem execFabs_keeps {x0 : FTy} {x1 : Flds} {s : State} {t : State} (e : execFabs x0 x1 s = .next t) (h : s.HomeWf) : t.HomeWf := by
  unfold execFabs at e
  repeat' first | with_reducible assumption | cases e | with_reducible apply State.alu_keeps

theorem execFdiv_keeps {x0 : FTy} {x1 : Rnd} {x2 : Flds} {s : State} {t : State} (e : execFdiv x0 x1 x2 s = .next t) (h : s.HomeWf) : t.HomeWf := by
  unfold execFdiv at e
  repeat' first | with_reducible assumption | cases e | with_reducible apply State.fbin_keeps

theorem execFlg2_keeps {x0 : FTy} {x1 : Flds} {s : State} {t : State} (e : execFlg2 x0 x1 s = .next t) (h : s.HomeWf) : t.HomeWf := by
  unfold execFlg2 at e
  repeat' first | with_reducible assumption | cases e | with_reducible apply State.alu_keeps

theorem execFneg_keeps {x0 : FTy} {x1 : Flds} {s : State} {t : State} (e : execFneg x0 x1 s = .next t) (h : s.HomeWf) : t.HomeWf := by
  unfold execFneg at e
  repeat' first | with_reducible assumption | cases e | with_reducible apply State.alu_keeps

theorem execFsub_keeps {x0 : FTy} {x1 : Rnd} {x2 : Flds} {s : State} {t : State} (e : execFsub x0 x1 x2 s = .next t) (h : s.HomeWf) : t.HomeWf := by
  unfold execFsub at e
  repeat' first | with_reducible assumption | cases e | with_reducible apply State.fbin_keeps

theorem execFcmp_keeps {x0 : FCond} {x1 : FTy} {x2 : Flds} {s : State} {t : State} (e : execFcmp x0 x1 x2 s = .next t) (h : s.HomeWf) : t.HomeWf := by
  unfold execFcmp at e
  repeat' first | with_reducible assumption | cases e | with_reducible apply State.alu_keeps

theorem execFadd_keeps {x0 : FTy} {x1 : Rnd} {x2 : Flds} {s : State} {t : State} (e : execFadd x0 x1 x2 s = .next t) (h : s.HomeWf) : t.HomeWf := by
  unfold execFadd at e
  repeat' first | with_reducible assumption | cases e | with_reducible apply State.fbin_keeps

theorem execFscl_keeps {x0 : FTy} {x1 : Rnd} {x2 : Flds} {s : State} {t : State} (e : execFscl x0 x1 x2 s = .next t) (h : s.HomeWf) : t.HomeWf := by
  unfold execFscl at e
  repeat' first | with_reducible assumption | cases e | with_reducible apply State.alu_keeps

theorem execFrnd_keeps {x0 : FTy} {x1 : Rnd} {x2 : Flds} {s : State} {t : State} (e : execFrnd x0 x1 x2 s = .next t) (h : s.HomeWf) : t.HomeWf := by
  unfold execFrnd at e
  repeat' first | with_reducible assumption | cases e | with_reducible apply State.fun1_keeps

theorem execFex2_keeps {x0 : FTy} {x1 : Flds} {s : State} {t : State} (e : execFex2 x0 x1 s = .next t) (h : s.HomeWf) : t.HomeWf := by
  unfold execFex2 at e
  repeat' first | with_reducible assumption | cases e | with_reducible apply State.alu_keeps

theorem execFcos_keeps {x0 : FTy} {x1 : Flds} {s : State} {t : State} (e : execFcos x0 x1 s = .next t) (h : s.HomeWf) : t.HomeWf := by
  unfold execFcos at e
  repeat' first | with_reducible assumption | cases e | with_reducible apply State.alu_keeps

theorem execFcls_keeps {x0 : FTy} {x1 : Flds} {s : State} {t : State} (e : execFcls x0 x1 s = .next t) (h : s.HomeWf) : t.HomeWf := by
  unfold execFcls at e
  repeat' first | with_reducible assumption | cases e | with_reducible apply State.fun1_keeps

theorem execFcvt_keeps {x0 : CvtFmt} {x1 : CvtFmt} {x2 : Bool} {x3 : Rnd} {x4 : Flds} {s : State} {t : State} (e : execFcvt x0 x1 x2 x3 x4 s = .next t)
    (h : s.HomeWf) : t.HomeWf := by
  unfold execFcvt at e
  repeat' first | with_reducible assumption | cases e | with_reducible apply State.alu_keeps

theorem execFmax_keeps {x0 : FTy} {x1 : Flds} {s : State} {t : State} (e : execFmax x0 x1 s = .next t) (h : s.HomeWf) : t.HomeWf := by
  unfold execFmax at e
  repeat' first | with_reducible assumption | cases e | with_reducible apply State.alu_keeps

theorem execShfl_keeps {x0 : Shuf} {x1 : Flds} {s : State} {t : State} (e : execShfl x0 x1 s = .next t) (h : s.HomeWf) : t.HomeWf := by
  unfold execShfl at e
  repeat' first | with_reducible assumption | cases e | with_reducible apply State.cross_keeps

theorem swrBody_keeps {s : State} {x1 : Chord} {x2 x3 : Nat} {x4 : Lane} {x5 : Vals} {v1 : LaneRes} {t : State} (e : swrBody s x1 x2 x3 x4 x5 = some (v1, t))
    (h : s.HomeWf) : t.HomeWf := by
  unfold swrBody at e
  repeat' first | with_reducible assumption | cases e

theorem execSwr_keeps {x0 : Reg} {x1 : Flds} {s : State} {t : State} (e : execSwr x0 x1 s = .next t) (h : s.HomeWf) : t.HomeWf := by
  unfold execSwr at e
  repeat' first | with_reducible assumption | cases e | (with_reducible refine State.perform_keeps (fun _ _ _ _ _ _ _ _ e _ => ?_) ?_)

theorem nopBody_keeps {s : State} {x1 : Chord} {x2 x3 : Nat} {x4 : Lane} {x5 : Vals} {v1 : LaneRes} {t : State} (e : nopBody s x1 x2 x3 x4 x5 = some (v1, t))
    (h : s.HomeWf) : t.HomeWf := by
  unfold nopBody at e
  repeat' first | with_reducible assumption | cases e

theorem State.denyRoute_keeps {s : State} {x1 : BitVec 12} {x2 : TokenDest} {x3 : Word} (h : s.HomeWf) : (State.denyRoute s x1 x2 x3).HomeWf := by
  unfold State.denyRoute
  repeat' first | with_reducible assumption | with_reducible apply HomeWf.ite | with_reducible apply State.denyDomain_keeps

theorem spawnBody_keeps {x0 : TokenDest} {s : State} {x2 : Chord} {x3 x4 : Nat} {x5 : Lane} {x6 : Vals} {v1 : LaneRes} {t : State} (e : spawnBody x0 s x2 x3 x4 x5 x6 = some (v1, t))
    (h : s.HomeWf) : t.HomeWf := by
  unfold spawnBody at e
  repeat' first
    | with_reducible assumption | cases e | split at e | dsimp only at e | with_reducible apply State.modCore_keeps
    | with_reducible apply State.denyRoute_keeps

theorem spawnLanes_keeps_st {sh : Shape} {f : Flds} {d : TokenDest} {ch : Chord} {l : List (Nat × Lane × Vals)} {s : State} (h : s.HomeWf) :
    (spawnLanes sh f d ch l s).2.HomeWf := by
  induction l generalizing s with
  | nil => exact h
  | cons p r ih =>
    unfold spawnLanes
    dsimp only
    split
    · refine ih ?_
      cases e : spawnBody d s ch ch.pc p.1 p.2.1 p.2.2 with
      | none => exact h
      | some o => obtain ⟨a, b⟩ := o; exact spawnBody_keeps e h
    · exact ih h

theorem spawnLanes_keeps {sh : Shape} {f : Flds} {d : TokenDest} {ch : Chord} {l : List (Nat × Lane × Vals)} {s : State} {v : List (Nat × LaneRes)}
    {t : State}
 (e : spawnLanes sh f d ch l s = (v, t)) (h : s.HomeWf) : t.HomeWf := by
  have := spawnLanes_keeps_st (sh := sh) (f := f) (d := d) (ch := ch) (l := l) h
  rw [e] at this; exact this

theorem execBcst_keeps {x0 : Flds} {s : State} {t : State} (e : execBcst x0 s = .next t) (h : s.HomeWf) : t.HomeWf := by
  unfold execBcst at e
  repeat' first | with_reducible assumption | cases e | with_reducible apply State.cross_keeps

theorem sendBody_keeps {x0 : TokenDest} {s : State} {x2 : Chord} {x3 x4 : Nat} {x5 : Lane} {x6 : Vals} {v1 : LaneRes} {t : State} (e : sendBody x0 s x2 x3 x4 x5 x6 = some (v1, t))
    (h : s.HomeWf) : t.HomeWf := by
  unfold sendBody at e
  repeat' first | with_reducible assumption | cases e | split at e | dsimp only at e | with_reducible apply State.denyRoute_keeps

theorem launchBody_keeps {x0 : LaunchWord} {s : State} {x2 : Chord} {x3 x4 : Nat} {x5 : Lane} {x6 : Vals} {v1 : LaneRes} {t : State} (e : launchBody x0 s x2 x3 x4 x5 x6 = some (v1, t))
    (h : s.HomeWf) : t.HomeWf := by
  unfold launchBody at e
  repeat' first | with_reducible assumption | cases e | split at e

theorem srdBody_keeps {x0 : Reg} {s : State} {x2 : Chord} {x3 x4 : Nat} {x5 : Lane} {x6 : Vals} {v1 : LaneRes} {t : State} (e : srdBody x0 s x2 x3 x4 x5 x6 = some (v1, t))
    (h : s.HomeWf) : t.HomeWf := by
  unfold srdBody at e
  repeat' first | with_reducible assumption | cases e

theorem doneBody_keeps {s : State} {x1 : Chord} {x2 x3 : Nat} {x4 : Lane} {x5 : Vals} {v1 : LaneRes} {t : State} (e : doneBody s x1 x2 x3 x4 x5 = some (v1, t))
    (h : s.HomeWf) : t.HomeWf := by
  unfold doneBody at e
  repeat' first | with_reducible assumption | cases e

theorem execDoneCredit_keeps {x0 : Flds} {s : State} {t : State} (e : execDoneCredit x0 s = .next t) (h : s.HomeWf) : t.HomeWf := by
  unfold execDoneCredit at e
  repeat' first | with_reducible assumption | cases e | (with_reducible refine State.perform_keeps (fun _ _ _ _ _ _ _ _ e _ => ?_) ?_)

theorem brkBody_keeps {s : State} {x1 : Chord} {x2 x3 : Nat} {x4 : Lane} {x5 : Vals} {v1 : LaneRes} {t : State} (e : brkBody s x1 x2 x3 x4 x5 = some (v1, t))
    (h : s.HomeWf) : t.HomeWf := by
  unfold brkBody at e
  repeat' first | with_reducible assumption | cases e

theorem execVote_keeps {x0 : VoteOp} {x1 : Flds} {s : State} {t : State} (e : execVote x0 x1 s = .next t) (h : s.HomeWf) : t.HomeWf := by
  unfold execVote at e
  repeat' first | with_reducible assumption | cases e | with_reducible apply State.cross_keeps

theorem execSpawn_keeps {x0 : TokenDest} {x1 : Flds} {s : State} {t : State} (e : execSpawn x0 x1 s = .next t) (h : s.HomeWf) : t.HomeWf := by
  unfold execSpawn at e
  repeat' first
    | with_reducible assumption | cases e | split at e | with_reducible apply spawnLanes_keeps_st
    | (with_reducible refine spawnLanes_keeps (by assumption) ?_) | with_reducible apply State.setFocus_keeps

theorem trapBody_keeps {s : State} {x1 : Chord} {x2 x3 : Nat} {x4 : Lane} {x5 : Vals} {v1 : LaneRes} {t : State} (e : trapBody s x1 x2 x3 x4 x5 = some (v1, t))
    (h : s.HomeWf) : t.HomeWf := by
  unfold trapBody at e
  repeat' first | with_reducible assumption | cases e

theorem execTrap_keeps {x0 : Flds} {s : State} {t : State} (e : execTrap x0 s = .next t) (h : s.HomeWf) : t.HomeWf := by
  unfold execTrap at e
  repeat' first | with_reducible assumption | cases e | (with_reducible refine State.perform_keeps (fun _ _ _ _ _ _ _ _ e _ => ?_) ?_)

theorem execLaunch_keeps {x0 : LaunchWord} {x1 : Flds} {s : State} {t : State} (e : execLaunch x0 x1 s = .next t) (h : s.HomeWf) : t.HomeWf := by
  unfold execLaunch at e
  repeat' first
    | with_reducible assumption | cases e | (with_reducible refine State.perform_keeps (fun _ _ _ _ _ _ _ _ e _ => ?_) ?_)
    | (with_reducible refine launchBody_keeps (by assumption) ?_)

theorem execSend_keeps {x0 : TokenDest} {x1 : Flds} {s : State} {t : State} (e : execSend x0 x1 s = .next t) (h : s.HomeWf) : t.HomeWf := by
  unfold execSend at e
  repeat' first
    | with_reducible assumption | cases e | (with_reducible refine State.perform_keeps (fun _ _ _ _ _ _ _ _ e _ => ?_) ?_)
    | (with_reducible refine sendBody_keeps (by assumption) ?_)

theorem execMtch_keeps {x0 : Flds} {s : State} {t : State} (e : execMtch x0 s = .next t) (h : s.HomeWf) : t.HomeWf := by
  unfold execMtch at e
  repeat' first | with_reducible assumption | cases e | with_reducible apply State.cross_keeps

theorem execNop_keeps {x0 : Flds} {s : State} {t : State} (e : execNop x0 s = .next t) (h : s.HomeWf) : t.HomeWf := by
  unfold execNop at e
  repeat' first | with_reducible assumption | cases e | (with_reducible refine State.perform_keeps (fun _ _ _ _ _ _ _ _ e _ => ?_) ?_)

theorem execRedu_keeps {x0 : ScanOp} {x1 : Flds} {s : State} {t : State} (e : execRedu x0 x1 s = .next t) (h : s.HomeWf) : t.HomeWf := by
  unfold execRedu at e
  repeat' first | with_reducible assumption | cases e | with_reducible apply State.cross_keeps

theorem serveBody_keeps {x0 : Bool} {s : State} {x2 : Chord} {x3 x4 : Nat} {x5 : Lane} {x6 : Vals} {v1 : LaneRes} {t : State} (e : serveBody x0 s x2 x3 x4 x5 x6 = some (v1, t))
    (h : s.HomeWf) : t.HomeWf := by
  unfold serveBody at e
  repeat' first | with_reducible assumption | cases e | split at e

theorem execKill_keeps {x0 : Flds} {s : State} {t : State} (e : execKill x0 s = .next t) (h : s.HomeWf) : t.HomeWf := by
  unfold execKill at e
  repeat' first
    | with_reducible assumption | cases e | (with_reducible refine State.perform_keeps (fun _ _ _ _ _ _ _ _ e _ => ?_) ?_)
    | (with_reducible refine serveBody_keeps (by assumption) ?_)

theorem execPrfx_keeps {x0 : ScanOp} {x1 : Flds} {s : State} {t : State} (e : execPrfx x0 x1 s = .next t) (h : s.HomeWf) : t.HomeWf := by
  unfold execPrfx at e
  repeat' first | with_reducible assumption | cases e | with_reducible apply State.cross_keeps

theorem execBrk_keeps {x0 : Flds} {s : State} {t : State} (e : execBrk x0 s = .next t) (h : s.HomeWf) : t.HomeWf := by
  unfold execBrk at e
  repeat' first | with_reducible assumption | cases e | (with_reducible refine State.perform_keeps (fun _ _ _ _ _ _ _ _ e _ => ?_) ?_)

theorem execTret_keeps {x0 : Flds} {s : State} {t : State} (e : execTret x0 s = .next t) (h : s.HomeWf) : t.HomeWf := by
  unfold execTret at e
  repeat' first
    | with_reducible assumption | cases e | (with_reducible refine State.perform_keeps (fun _ _ _ _ _ _ _ _ e _ => ?_) ?_)
    | (with_reducible refine serveBody_keeps (by assumption) ?_)

theorem execSrd_keeps {x0 : Reg} {x1 : Flds} {s : State} {t : State} (e : execSrd x0 x1 s = .next t) (h : s.HomeWf) : t.HomeWf := by
  unfold execSrd at e
  repeat' first | with_reducible assumption | cases e | (with_reducible refine State.perform_keeps (fun _ _ _ _ _ _ _ _ e _ => ?_) ?_)

theorem State.clearOwn_keeps {s : State} {x1 : Nat} {x2 : List Place} {t : State} (e : State.clearOwn s x1 x2 = some t) (h : s.HomeWf) : t.HomeWf := by
  unfold State.clearOwn at e
  repeat' first
    | with_reducible assumption | intro _ | with_reducible apply HomeWf.ite | with_reducible apply HomeWf.foldl
    | (with_reducible refine State.drainHome_keeps (by assumption) ?_) | with_reducible apply State.flushLine_keeps | cases e | split at e
    | split

theorem claimLanes_keeps {x0 : Nat} {x1 : Chord} {x2 : Nat} {x3 : CmpkWord} {x4 : AtSize} {x5 : CmpkHdr} {x6 : Word} {x7 : Place} {x8 : List ClaimLane}
    {x9 : Nat} {s : State} {v1 : List (Nat × Claimed)} {v2 : Nat} {t : State} (e : claimLanes x0 x1 x2 x3 x4 x5 x6 x7 x8 x9 s = some (v1, v2, t))
    (h : s.HomeWf) : t.HomeWf := by
  induction x8 generalizing x0 x1 x2 x3 x4 x5 x6 x7 x9 s v1 v2 t with
  | nil => unfold claimLanes at e; (repeat' first
    | cases e | split at e | dsimp only at e | (rw [Option.map_eq_some_iff] at e; obtain ⟨_, e1, e⟩ := e)
    | (rw [Option.bind_eq_some_iff] at e; obtain ⟨_, e1, e⟩ := e)
    | (injection e with e)) <;> repeat' first | with_reducible assumption | with_reducible exact EngAccess.wf_wait | with_reducible apply EngAccess.wf_err | intro _ | with_reducible apply HomeWf.ite | with_reducible apply HomeWf.foldl | with_reducible apply HomeWf.foldl2 | with_reducible apply HomeWf.getD | with_reducible apply HomeWf.elim | with_reducible apply HomeWf.foldl1 | (with_reducible refine HomeWf.foldl2e (by assumption) ?_ ?_) | (with_reducible refine HomeWf.foldl1e (by assumption) ?_ ?_) | (with_reducible refine State.check_keeps_ok (by assumption) ?_) | (with_reducible refine State.check_keeps_trap (by assumption) ?_) | with_reducible apply EngAccess.wf_fault | with_reducible apply EngAccess.wf_later | (unfold State.HomeWf; dsimp only; with_reducible apply HomeWf.mem) | cases e | split at e | dsimp only at e | (rw [Option.map_eq_some_iff] at e; obtain ⟨_, e1, e⟩ := e) | (rw [Option.bind_eq_some_iff] at e; obtain ⟨_, e1, e⟩ := e) | (injection e with e) | cases e1 | split at e1 | dsimp only at e1 | (rw [Option.map_eq_some_iff] at e1; obtain ⟨_, e2, e1⟩ := e1) | (rw [Option.bind_eq_some_iff] at e1; obtain ⟨_, e2, e1⟩ := e1) | (rename_i e; rw [Option.map_eq_some_iff] at e; obtain ⟨_, e1, e⟩ := e) | (rename_i e; rw [Option.bind_eq_some_iff] at e; obtain ⟨_, e1, e⟩ := e) | split
  | cons _ _ ih => unfold claimLanes at e; (repeat' first
    | cases e | split at e | dsimp only at e | (rw [Option.map_eq_some_iff] at e; obtain ⟨_, e1, e⟩ := e)
    | (rw [Option.bind_eq_some_iff] at e; obtain ⟨_, e1, e⟩ := e)
    | (injection e with e)) <;> repeat' first | with_reducible assumption | (with_reducible refine ih (by assumption) ?_) | with_reducible exact EngAccess.wf_wait | with_reducible apply EngAccess.wf_err | intro _ | with_reducible apply HomeWf.ite | with_reducible apply HomeWf.foldl | with_reducible apply HomeWf.foldl2 | with_reducible apply HomeWf.getD | with_reducible apply HomeWf.elim | with_reducible apply HomeWf.foldl1 | (with_reducible refine HomeWf.foldl2e (by assumption) ?_ ?_) | (with_reducible refine HomeWf.foldl1e (by assumption) ?_ ?_) | (with_reducible refine State.check_keeps_ok (by assumption) ?_) | (with_reducible refine State.check_keeps_trap (by assumption) ?_) | with_reducible apply EngAccess.wf_fault | with_reducible apply EngAccess.wf_later | (unfold State.HomeWf; dsimp only; with_reducible apply HomeWf.mem) | cases e | split at e | dsimp only at e | (rw [Option.map_eq_some_iff] at e; obtain ⟨_, e1, e⟩ := e) | (rw [Option.bind_eq_some_iff] at e; obtain ⟨_, e1, e⟩ := e) | (injection e with e) | cases e1 | split at e1 | dsimp only at e1 | (rw [Option.map_eq_some_iff] at e1; obtain ⟨_, e2, e1⟩ := e1) | (rw [Option.bind_eq_some_iff] at e1; obtain ⟨_, e2, e1⟩ := e1) | (rename_i e; rw [Option.map_eq_some_iff] at e; obtain ⟨_, e1, e⟩ := e) | (rename_i e; rw [Option.bind_eq_some_iff] at e; obtain ⟨_, e1, e⟩ := e) | split

theorem State.sendClaim_keeps {s : State} {x1 : Chord} {x2 : CmpkWord} {x3 : AtSize} {x4 : Flds} {x5 : Word} {x6 : List Place} {x7 : List ClaimLane}
    {v1 : Chord} {t : State} (e : State.sendClaim s x1 x2 x3 x4 x5 x6 x7 = some (v1, t)) (h : s.HomeWf) : t.HomeWf := by
  unfold State.sendClaim at e
  repeat' first
    | with_reducible assumption | cases e | split at e | dsimp only at e | (rw [Option.map_eq_some_iff] at e; obtain ⟨_, e1, e⟩ := e)
    | (injection e with e) | with_reducible apply State.newId_keeps_st | (with_reducible refine State.newId_keeps (by assumption) ?_)
    | with_reducible apply State.modSlice_keeps | (with_reducible refine State.clearOwn_keeps (by assumption) ?_)
    | with_reducible apply State.sendAccess_keeps | with_reducible apply State.modCore_keeps | with_reducible apply State.sendHost_keeps
    | (with_reducible refine claimLanes_keeps (by assumption) ?_) | with_reducible apply State.bump_keeps
    | (unfold State.HomeWf; dsimp only; with_reducible apply HomeWf.mem)

theorem State.claimNext_keeps {s : State} {x1 : Chord} {x2 : CmpkWord} {x3 : AtSize} {x4 : Flds} {x5 : List (Word × List Place × List ClaimLane)}
    {v1 : Chord} {t : State} (e : State.claimNext s x1 x2 x3 x4 x5 = some (v1, t)) (h : s.HomeWf) : t.HomeWf := by
  unfold State.claimNext at e
  repeat' first
    | with_reducible assumption | cases e | split at e | dsimp only at e | (rw [Option.map_eq_some_iff] at e; obtain ⟨_, e1, e⟩ := e)
    | (injection e with e) | (with_reducible refine State.sendClaim_keeps (by assumption) ?_)

theorem cmpkLanes_keeps {x0 : Chord} {x1 : Flds} {x2 : List (Nat × Lane × Vals)} {s : State} {v1 : List (Nat × CmpkLane)} {t : State} (e : cmpkLanes x0 x1 x2 s = some (v1, t))
    (h : s.HomeWf) : t.HomeWf := by
  induction x2 generalizing x0 x1 s v1 t with
  | nil => unfold cmpkLanes at e; (repeat' first
    | cases e | split at e | dsimp only at e | (rw [Option.map_eq_some_iff] at e; obtain ⟨_, e1, e⟩ := e)
    | (rw [Option.bind_eq_some_iff] at e; obtain ⟨_, e1, e⟩ := e)
    | (injection e with e)) <;> repeat' first | with_reducible assumption | with_reducible exact EngAccess.wf_wait | with_reducible apply EngAccess.wf_err | intro _ | with_reducible apply HomeWf.ite | with_reducible apply HomeWf.foldl | with_reducible apply HomeWf.foldl2 | with_reducible apply HomeWf.getD | with_reducible apply HomeWf.elim | with_reducible apply HomeWf.foldl1 | (with_reducible refine HomeWf.foldl2e (by assumption) ?_ ?_) | (with_reducible refine HomeWf.foldl1e (by assumption) ?_ ?_) | (with_reducible refine State.check_keeps_ok (by assumption) ?_) | (with_reducible refine State.check_keeps_trap (by assumption) ?_) | with_reducible apply EngAccess.wf_fault | with_reducible apply EngAccess.wf_later | (unfold State.HomeWf; dsimp only; with_reducible apply HomeWf.mem) | cases e | split at e | dsimp only at e | (rw [Option.map_eq_some_iff] at e; obtain ⟨_, e1, e⟩ := e) | (rw [Option.bind_eq_some_iff] at e; obtain ⟨_, e1, e⟩ := e) | (injection e with e) | cases e1 | split at e1 | dsimp only at e1 | (rw [Option.map_eq_some_iff] at e1; obtain ⟨_, e2, e1⟩ := e1) | (rw [Option.bind_eq_some_iff] at e1; obtain ⟨_, e2, e1⟩ := e1) | (rename_i e; rw [Option.map_eq_some_iff] at e; obtain ⟨_, e1, e⟩ := e) | (rename_i e; rw [Option.bind_eq_some_iff] at e; obtain ⟨_, e1, e⟩ := e) | split
  | cons _ _ ih => unfold cmpkLanes at e; (repeat' first
    | cases e | split at e | dsimp only at e | (rw [Option.map_eq_some_iff] at e; obtain ⟨_, e1, e⟩ := e)
    | (rw [Option.bind_eq_some_iff] at e; obtain ⟨_, e1, e⟩ := e)
    | (injection e with e)) <;> repeat' first | with_reducible assumption | (with_reducible refine ih (by assumption) ?_) | with_reducible exact EngAccess.wf_wait | with_reducible apply EngAccess.wf_err | intro _ | with_reducible apply HomeWf.ite | with_reducible apply HomeWf.foldl | with_reducible apply HomeWf.foldl2 | with_reducible apply HomeWf.getD | with_reducible apply HomeWf.elim | with_reducible apply HomeWf.foldl1 | (with_reducible refine HomeWf.foldl2e (by assumption) ?_ ?_) | (with_reducible refine HomeWf.foldl1e (by assumption) ?_ ?_) | (with_reducible refine State.check_keeps_ok (by assumption) ?_) | (with_reducible refine State.check_keeps_trap (by assumption) ?_) | with_reducible apply EngAccess.wf_fault | with_reducible apply EngAccess.wf_later | (unfold State.HomeWf; dsimp only; with_reducible apply HomeWf.mem) | cases e | split at e | dsimp only at e | (rw [Option.map_eq_some_iff] at e; obtain ⟨_, e1, e⟩ := e) | (rw [Option.bind_eq_some_iff] at e; obtain ⟨_, e1, e⟩ := e) | (injection e with e) | cases e1 | split at e1 | dsimp only at e1 | (rw [Option.map_eq_some_iff] at e1; obtain ⟨_, e2, e1⟩ := e1) | (rw [Option.bind_eq_some_iff] at e1; obtain ⟨_, e2, e1⟩ := e1) | (rename_i e; rw [Option.map_eq_some_iff] at e; obtain ⟨_, e1, e⟩ := e) | (rename_i e; rw [Option.bind_eq_some_iff] at e; obtain ⟨_, e1, e⟩ := e) | split

theorem execCmpk_keeps {x0 : AtSize} {x1 : CmpkWord} {x2 : Flds} {s : State} {t : State} (e : execCmpk x0 x1 x2 s = .next t) (h : s.HomeWf) : t.HomeWf := by
  unfold execCmpk at e
  repeat' first
    | with_reducible assumption | cases e | split at e | (with_reducible refine State.claimNext_keeps (by assumption) ?_)
    | with_reducible apply State.setFocus_keeps | (with_reducible refine cmpkLanes_keeps (by assumption) ?_)

theorem updBody_keeps {x0 : AtSize} {x1 : UpdWord} {s : State} {x3 : Chord} {x4 x5 : Nat} {x6 : Lane} {x7 : Vals} {v1 : LaneRes} {t : State}
    (e : updBody x0 x1 s x3 x4 x5 x6 x7 = some (v1, t)) (h : s.HomeWf) : t.HomeWf := by
  unfold updBody at e
  repeat' first
    | with_reducible assumption | cases e | split at e | dsimp only at e | (with_reducible refine State.check_keeps_ok (by assumption) ?_)
    | (with_reducible refine State.check_keeps_trap (by assumption) ?_)

theorem execUpd_keeps {x0 : AtSize} {x1 : UpdWord} {x2 : Flds} {s : State} {t : State} (e : execUpd x0 x1 x2 s = .next t) (h : s.HomeWf) : t.HomeWf := by
  unfold execUpd at e
  repeat' first
    | with_reducible assumption | cases e | (with_reducible refine State.perform_keeps (fun _ _ _ _ _ _ _ _ e _ => ?_) ?_)
    | (with_reducible refine updBody_keeps (by assumption) ?_)

theorem awaitRead_keeps {s : State} {x1 : Who} {v1 : LaneRes} {t : State} (e : awaitRead s x1 = (v1, t)) (h : s.HomeWf) : t.HomeWf := by
  unfold awaitRead at e
  repeat' first
    | with_reducible assumption | cases e | with_reducible apply State.newId_keeps_st
    | (with_reducible refine State.newId_keeps (by assumption) ?_) | (unfold State.HomeWf; dsimp only; with_reducible apply HomeWf.mem)

theorem awaitRead_keeps_st {s : State} {x1 : Who} (h : s.HomeWf) : (awaitRead s x1).2.HomeWf := by
  rcases e : awaitRead s x1 with ⟨a, b⟩; exact awaitRead_keeps e h

theorem State.askRun_keeps {s : State} {x1 : Chord} {x2 : ReplyTo} {x3 : Nat} {x4 : Nat × Nat × Place} (h : s.HomeWf) : (State.askRun s x1 x2 x3 x4).HomeWf := by
  unfold State.askRun
  repeat' first
    | with_reducible assumption | with_reducible apply HomeWf.ite | with_reducible apply State.newId_keeps_st
    | (with_reducible refine State.newId_keeps (by assumption) ?_) | with_reducible apply State.sendAccess_keeps
    | with_reducible apply State.sendHost_keeps | (unfold State.HomeWf; dsimp only; with_reducible apply HomeWf.mem) | cases e | split at e
    | split

theorem State.finishLoad_keeps {s : State} {x1 : Chord} {x2 : Lane} {x3 : Fin} {x4 : List Place} {x5 : List (Option Byte)} {x6 : Word} {x7 : Bool}
    {v1 : LaneRes} {t : State} (e : State.finishLoad s x1 x2 x3 x4 x5 x6 x7 = (v1, t)) (h : s.HomeWf) : t.HomeWf := by
  unfold State.finishLoad at e
  repeat' first
    | with_reducible assumption | cases e | split at e | dsimp only at e | intro _ | with_reducible apply HomeWf.ite
    | with_reducible apply HomeWf.foldl | with_reducible apply State.newId_keeps_st
    | (with_reducible refine State.newId_keeps (by assumption) ?_) | with_reducible apply State.askRun_keeps

theorem State.finishLoad_keeps_st {s : State} {x1 : Chord} {x2 : Lane} {x3 : Fin} {x4 : List Place} {x5 : List (Option Byte)} {x6 : Word}
    {x7 : Bool} (h : s.HomeWf) : (State.finishLoad s x1 x2 x3 x4 x5 x6 x7).2.HomeWf := by
  rcases e : State.finishLoad s x1 x2 x3 x4 x5 x6 x7 with ⟨a, b⟩; exact State.finishLoad_keeps e h

theorem loadBytes_keeps {x0 : Fin} {s : State} {x2 : Chord} {x3 : Nat} {x4 : Lane} {x5 : Word} {v1 : LaneRes} {t : State} (e : loadBytes x0 s x2 x3 x4 x5 = some (v1, t))
    (h : s.HomeWf) : t.HomeWf := by
  unfold loadBytes at e
  repeat' first
    | with_reducible assumption | cases e | split at e | dsimp only at e | (injection e with e)
    | (with_reducible refine State.check_keeps_ok (by assumption) ?_) | (with_reducible refine State.check_keeps_trap (by assumption) ?_)
    | (with_reducible refine readPlaces_keeps (by assumption) ?_) | with_reducible apply State.finishLoad_keeps_st
    | (with_reducible refine State.finishLoad_keeps (by assumption) ?_)

theorem ldBody_keeps {x0 : Size} {s : State} {x2 : Chord} {x3 x4 : Nat} {x5 : Lane} {x6 : Vals} {v1 : LaneRes} {t : State} (e : ldBody x0 s x2 x3 x4 x5 x6 = some (v1, t))
    (h : s.HomeWf) : t.HomeWf := by
  unfold ldBody at e
  repeat' first | with_reducible assumption | (with_reducible refine loadBytes_keeps (by assumption) ?_)

theorem ldAcqBody_keeps {x0 : Scope} {x1 : Size} {s : State} {x3 : Chord} {x4 x5 : Nat} {x6 : Lane} {x7 : Vals} {v1 : LaneRes} {t : State}
    (e : ldAcqBody x0 x1 s x3 x4 x5 x6 x7 = some (v1, t)) (h : s.HomeWf) : t.HomeWf := by
  unfold ldAcqBody at e
  repeat' first
    | with_reducible assumption | cases e | split at e | dsimp only at e | (injection e with e)
    | (with_reducible refine State.check_keeps_ok (by assumption) ?_) | (with_reducible refine State.check_keeps_trap (by assumption) ?_)
    | (with_reducible refine State.clearOwn_keeps (by assumption) ?_) | with_reducible apply State.enterPlaces_keeps
    | with_reducible apply State.finishLoad_keeps_st | (with_reducible refine State.finishLoad_keeps (by assumption) ?_)
    | with_reducible apply State.newId_keeps_st | (with_reducible refine State.newId_keeps (by assumption) ?_)
    | with_reducible apply State.modSlice_keeps

theorem execLdAcq_keeps {x0 : Scope} {x1 : Size} {x2 : Flds} {s : State} {t : State} (e : execLdAcq x0 x1 x2 s = .next t) (h : s.HomeWf) : t.HomeWf := by
  unfold execLdAcq at e
  repeat' first
    | with_reducible assumption | cases e | (with_reducible refine State.perform_keeps (fun _ _ _ _ _ _ _ _ e _ => ?_) ?_)
    | (with_reducible refine ldAcqBody_keeps (by assumption) ?_)

theorem State.reserve_keeps {s : State} {x1 : BitVec 12} {x2 : BitVec 8} {x3 : Nat} {t : State} (e : State.reserve s x1 x2 x3 = some t) (h : s.HomeWf) : t.HomeWf := by
  unfold State.reserve at e
  repeat' first
    | with_reducible assumption | cases e | split at e | with_reducible apply State.l2Room_keeps
    | (unfold State.HomeWf; dsimp only; with_reducible apply HomeWf.mem)

theorem cctlBody_keeps {x0 : CctlOp} {s : State} {x2 : Chord} {x3 x4 : Nat} {x5 : Lane} {x6 : Vals} {v1 : LaneRes} {t : State} (e : cctlBody x0 s x2 x3 x4 x5 x6 = some (v1, t))
    (h : s.HomeWf) : t.HomeWf := by
  unfold cctlBody at e
  repeat' first | with_reducible assumption | cases e | split at e

theorem execCctl_keeps {x0 : CctlOp} {x1 : Flds} {s : State} {t : State} (e : execCctl x0 x1 s = .next t) (h : s.HomeWf) : t.HomeWf := by
  unfold execCctl at e
  repeat' first
    | with_reducible assumption | cases e | (with_reducible refine State.perform_keeps (fun _ _ _ _ _ _ _ _ e _ => ?_) ?_)
    | (with_reducible refine cctlBody_keeps (by assumption) ?_)

theorem State.queueBytes_keeps {s : State} {x1 : Nat} {x2 : BitVec 12} {x3 : BitVec 8} {x4 : List (Nat × BitVec 8 × Byte)} (h : s.HomeWf) :
    (State.queueBytes s x1 x2 x3 x4).HomeWf := by
  unfold State.queueBytes
  repeat' first | with_reducible assumption | with_reducible apply State.modCore_keeps

theorem State.coreRun_keeps {s : State} {x1 : Nat} {x2 : BitVec 12} {x3 : Place × List Byte} (h : s.HomeWf) : (State.coreRun s x1 x2 x3).HomeWf := by
  unfold State.coreRun
  repeat' first
    | with_reducible assumption | with_reducible apply HomeWf.ite | with_reducible apply State.queueBytes_keeps
    | with_reducible apply State.modCore_keeps | with_reducible apply State.newId_keeps_st
    | (with_reducible refine State.newId_keeps (by assumption) ?_) | with_reducible apply State.sendAccess_keeps
    | with_reducible apply State.sendHost_keeps | (unfold State.HomeWf; dsimp only; with_reducible apply HomeWf.mem) | cases e | split at e
    | split

theorem State.corePut_keeps {s : State} {x1 : Nat} {x2 : BitVec 12} {x3 : List (Place × Byte)} (h : s.HomeWf) : (State.corePut s x1 x2 x3).HomeWf := by
  unfold State.corePut
  repeat' first
    | with_reducible assumption | intro _ | with_reducible apply HomeWf.ite | with_reducible apply HomeWf.foldl
    | with_reducible apply State.coreRun_keeps

theorem State.settle_keeps {s : State} {x1 : Nat} {t : State} (e : State.settle s x1 = some t) (h : s.HomeWf) : t.HomeWf := by
  unfold State.settle at e
  repeat' first
    | with_reducible assumption | cases e | split at e | dsimp only at e | (rw [Option.bind_eq_some_iff] at e; obtain ⟨_, e1, e⟩ := e)
    | (injection e with e) | intro _ | with_reducible apply HomeWf.ite | with_reducible apply HomeWf.foldl
    | with_reducible apply State.acceptUpdates_keeps | (with_reducible refine State.drainHome_keeps (by assumption) ?_)

theorem State.sendAtomic_keeps {s : State} {ch : Chord} {sz : AtSize} {w : AtomWord} {ea x c : Word} {pl : List Place} {v : LaneRes} {t : State}
 (e : s.sendAtomic ch sz w ea x c pl = some (v, t)) (h : s.HomeWf) : t.HomeWf := by
  unfold State.sendAtomic at e
  dsimp only at e
  split at e
  · cases e
  · rename_i u hu
    rw [Option.bind_eq_some_iff] at hu
    obtain ⟨u0, h0, h1⟩ := hu
    have hu0 : u0.HomeWf := by
      repeat' first
        | cases h0 | split at h0 | (rw [Option.bind_eq_some_iff] at h0; obtain ⟨_, h2, h0⟩ := h0) | assumption
        | (with_reducible refine State.settle_keeps (by assumption) ?_) | (with_reducible refine State.flushDirty_keeps (by assumption) ?_)
    have hu : u.HomeWf := State.clearOwn_keeps h1 hu0
    clear h1 hu0
    repeat' first | cases e | split at e
    all_goals repeat' first
      | assumption | with_reducible apply State.modSlice_keeps | with_reducible apply State.newId_keeps_st
      | with_reducible apply State.sendAccess_keeps | with_reducible apply State.modCore_keeps | with_reducible apply State.sendHost_keeps
      | with_reducible apply HomeWf.ite | (unfold State.HomeWf; dsimp only; with_reducible apply HomeWf.mem) | split

theorem atomBody_keeps {x0 : AtSize} {x1 : AtomWord} {x2 : Bool} {s : State} {x4 : Chord} {x5 x6 : Nat} {x7 : Lane} {x8 : Vals} {v1 : LaneRes}
    {t : State} (e : atomBody x0 x1 x2 s x4 x5 x6 x7 x8 = some (v1, t)) (h : s.HomeWf) : t.HomeWf := by
  unfold atomBody at e
  repeat' first
    | with_reducible assumption | cases e | split at e | dsimp only at e | (with_reducible refine State.check_keeps_ok (by assumption) ?_)
    | (with_reducible refine State.check_keeps_trap (by assumption) ?_) | (with_reducible refine State.sendAtomic_keeps (by assumption) ?_)

theorem State.reserveAll_keeps {s : State} {x1 : Chord} {x2 x3 : Nat} {x4 : Lane} {x5 : Word} {x6 : List Place} {v1 : List SpecWait} {t : State}
    (e : State.reserveAll s x1 x2 x3 x4 x5 x6 = (v1, t)) (h : s.HomeWf) : t.HomeWf := by
  unfold State.reserveAll at e
  repeat' first
    | with_reducible assumption | cases e | with_reducible exact EngAccess.wf_wait | with_reducible apply EngAccess.wf_err | intro _
    | with_reducible apply HomeWf.ite | with_reducible apply HomeWf.foldl | with_reducible apply HomeWf.foldl2 | with_reducible apply HomeWf.getD
    | with_reducible apply HomeWf.elim | with_reducible apply HomeWf.foldl1 | (with_reducible refine HomeWf.foldl2e (by assumption) ?_ ?_)
    | (with_reducible refine HomeWf.foldl1e (by assumption) ?_ ?_) | (with_reducible refine State.reserve_keeps (by assumption) ?_)
    | with_reducible apply EngAccess.wf_fault | with_reducible apply EngAccess.wf_later | split at e | dsimp only at e | (injection e with e)
    | cases e1 | split at e1 | dsimp only at e1 | split

theorem State.reserveAll_keeps_st {s : State} {x1 : Chord} {x2 x3 : Nat} {x4 : Lane} {x5 : Word} {x6 : List Place} (h : s.HomeWf) :
    (State.reserveAll s x1 x2 x3 x4 x5 x6).2.HomeWf := by
  rcases e : State.reserveAll s x1 x2 x3 x4 x5 x6 with ⟨a, b⟩; exact State.reserveAll_keeps e h

theorem stBody_keeps {x0 : StSize} {s : State} {x2 : Chord} {x3 x4 : Nat} {x5 : Lane} {x6 : Vals} {v1 : LaneRes} {t : State} (e : stBody x0 s x2 x3 x4 x5 x6 = some (v1, t))
    (h : s.HomeWf) : t.HomeWf := by
  unfold stBody at e
  repeat' first
    | with_reducible assumption | cases e | split at e | dsimp only at e | (with_reducible refine State.check_keeps_ok (by assumption) ?_)
    | (with_reducible refine State.check_keeps_trap (by assumption) ?_) | with_reducible apply State.reserveAll_keeps_st

theorem execSt_keeps {x0 : StSize} {x1 : Flds} {s : State} {t : State} (e : execSt x0 x1 s = .next t) (h : s.HomeWf) : t.HomeWf := by
  unfold execSt at e
  repeat' first
    | with_reducible assumption | cases e | (with_reducible refine State.perform_keeps (fun _ _ _ _ _ _ _ _ e _ => ?_) ?_)
    | (with_reducible refine stBody_keeps (by assumption) ?_)

theorem State.commitStore_keeps {s : State} {x1 : Nat} {x2 : BitVec 12} {x3 : BitVec 8} {x4 : List (Place × Byte)} (h : s.HomeWf) :
    (State.commitStore s x1 x2 x3 x4).HomeWf := by
  unfold State.commitStore
  repeat' first
    | with_reducible assumption | intro _ | with_reducible apply HomeWf.ite | with_reducible apply HomeWf.foldl
    | with_reducible apply State.l1Store_keeps | with_reducible apply State.modCore_keeps | with_reducible apply State.corePut_keeps
    | with_reducible apply State.queueBytes_keeps | cases e | split at e | split

theorem stRelBody_keeps {x0 : Scope} {x1 : StSize} {s : State} {x3 : Chord} {x4 x5 : Nat} {x6 : Lane} {x7 : Vals} {v1 : LaneRes} {t : State}
    (e : stRelBody x0 x1 s x3 x4 x5 x6 x7 = some (v1, t)) (h : s.HomeWf) : t.HomeWf := by
  unfold stRelBody at e
  repeat' first
    | with_reducible assumption | cases e | split at e | dsimp only at e | (with_reducible refine State.check_keeps_ok (by assumption) ?_)
    | (with_reducible refine State.check_keeps_trap (by assumption) ?_)

theorem prefBody_keeps {x0 : PrefLevel} {s : State} {x2 : Chord} {x3 x4 : Nat} {x5 : Lane} {x6 : Vals} {v1 : LaneRes} {t : State} (e : prefBody x0 s x2 x3 x4 x5 x6 = some (v1, t))
    (h : s.HomeWf) : t.HomeWf := by
  unfold prefBody at e
  repeat' first | with_reducible assumption | cases e | split at e | with_reducible apply State.modCore_keeps

theorem execPref_keeps {x0 : PrefLevel} {x1 : Flds} {s : State} {t : State} (e : execPref x0 x1 s = .next t) (h : s.HomeWf) : t.HomeWf := by
  unfold execPref at e
  repeat' first
    | with_reducible assumption | cases e | (with_reducible refine State.perform_keeps (fun _ _ _ _ _ _ _ _ e _ => ?_) ?_)
    | (with_reducible refine prefBody_keeps (by assumption) ?_)

theorem State.complete_keeps {s : State} {x1 : Nat} {x2 : Scope} {t : State} (e : State.complete s x1 x2 = some t) (h : s.HomeWf) : t.HomeWf := by
  unfold State.complete at e
  repeat' first
    | with_reducible assumption | cases e | split at e | dsimp only at e | (rw [Option.bind_eq_some_iff] at e; obtain ⟨_, e1, e⟩ := e)
    | (injection e with e) | (with_reducible refine State.flushDirty_keeps (by assumption) ?_)
    | (with_reducible refine State.settle_keeps (by assumption) ?_)

theorem frmaBody_keeps {s : State} {x1 : Chord} {x2 x3 : Nat} {x4 : Lane} {x5 : Vals} {v1 : LaneRes} {t : State} (e : frmaBody s x1 x2 x3 x4 x5 = some (v1, t))
    (h : s.HomeWf) : t.HomeWf := by
  unfold frmaBody at e
  repeat' first
    | with_reducible assumption | cases e | split at e | dsimp only at e | with_reducible apply State.pick_keeps_st
    | (with_reducible refine State.pick_keeps (by assumption) ?_) | with_reducible apply State.newId_keeps_st
    | (with_reducible refine State.newId_keeps (by assumption) ?_) | with_reducible apply State.modCore_keeps

theorem execFrma_keeps {x0 : Flds} {s : State} {t : State} (e : execFrma x0 s = .next t) (h : s.HomeWf) : t.HomeWf := by
  unfold execFrma at e
  repeat' first
    | with_reducible assumption | cases e | (with_reducible refine State.perform_keeps (fun _ _ _ _ _ _ _ _ e _ => ?_) ?_)
    | (with_reducible refine frmaBody_keeps (by assumption) ?_)

theorem fenceBody_keeps {x0 : Scope} {s : State} {x2 : Chord} {x3 x4 : Nat} {x5 : Lane} {x6 : Vals} {v1 : LaneRes} {t : State} (e : fenceBody x0 s x2 x3 x4 x5 x6 = some (v1, t))
    (h : s.HomeWf) : t.HomeWf := by
  unfold fenceBody at e
  repeat' first
    | with_reducible assumption | cases e | split at e | dsimp only at e | (with_reducible refine State.complete_keeps (by assumption) ?_)
    | with_reducible apply State.newId_keeps_st | (with_reducible refine State.newId_keeps (by assumption) ?_)

theorem execFence_keeps {x0 : Scope} {x1 : Flds} {s : State} {t : State} (e : execFence x0 x1 s = .next t) (h : s.HomeWf) : t.HomeWf := by
  unfold execFence at e
  repeat' first
    | with_reducible assumption | cases e | (with_reducible refine State.perform_keeps (fun _ _ _ _ _ _ _ _ e _ => ?_) ?_)
    | (with_reducible refine fenceBody_keeps (by assumption) ?_)

theorem execStRel_keeps {x0 : Scope} {x1 : StSize} {x2 : Flds} {s : State} {t : State} (e : execStRel x0 x1 x2 s = .next t) (h : s.HomeWf) : t.HomeWf := by
  unfold execStRel at e
  repeat' first
    | with_reducible assumption | cases e | (with_reducible refine State.perform_keeps (fun _ _ _ _ _ _ _ _ e _ => ?_) ?_)
    | (with_reducible refine stRelBody_keeps (by assumption) ?_)

theorem ldtBody_keeps {x0 : Size} {x1 : TokenDest} {s : State} {x3 : Chord} {x4 x5 : Nat} {x6 : Lane} {x7 : Vals} {v1 : LaneRes} {t : State}
    (e : ldtBody x0 x1 s x3 x4 x5 x6 x7 = some (v1, t)) (h : s.HomeWf) : t.HomeWf := by
  unfold ldtBody at e
  repeat' first | with_reducible assumption | cases e | split at e | (with_reducible refine loadBytes_keeps (by assumption) ?_)

theorem execLdt_keeps {x0 : Size} {x1 : TokenDest} {x2 : Flds} {s : State} {t : State} (e : execLdt x0 x1 x2 s = .next t) (h : s.HomeWf) : t.HomeWf := by
  unfold execLdt at e
  repeat' first
    | with_reducible assumption | cases e | (with_reducible refine State.perform_keeps (fun _ _ _ _ _ _ _ _ e _ => ?_) ?_)
    | (with_reducible refine ldtBody_keeps (by assumption) ?_)

theorem bcinvBody_keeps {s : State} {x1 : Chord} {x2 x3 : Nat} {x4 : Lane} {x5 : Vals} {v1 : LaneRes} {t : State} (e : bcinvBody s x1 x2 x3 x4 x5 = some (v1, t))
    (h : s.HomeWf) : t.HomeWf := by
  unfold bcinvBody at e
  repeat' first | with_reducible assumption | cases e | split at e

theorem execBcinv_keeps {x0 : Flds} {s : State} {t : State} (e : execBcinv x0 s = .next t) (h : s.HomeWf) : t.HomeWf := by
  unfold execBcinv at e
  repeat' first
    | with_reducible assumption | cases e | (with_reducible refine State.perform_keeps (fun _ _ _ _ _ _ _ _ e _ => ?_) ?_)
    | (with_reducible refine bcinvBody_keeps (by assumption) ?_)

theorem State.leaveUpdate_keeps {s : State} {x1 : Nat} {x2 : Place} {x3 : UEnt} (h : s.HomeWf) : (State.leaveUpdate s x1 x2 x3).HomeWf := by
  unfold State.leaveUpdate
  repeat' first
    | with_reducible assumption | with_reducible apply HomeWf.ite | with_reducible apply State.modCore_keeps
    | with_reducible apply State.newId_keeps_st | (with_reducible refine State.newId_keeps (by assumption) ?_)
    | with_reducible apply State.sendAccess_keeps | with_reducible apply State.sendHost_keeps
    | (unfold State.HomeWf; dsimp only; with_reducible apply HomeWf.mem) | cases e | split at e | split

theorem State.hole_keeps {s : State} {x1 : Nat} {x2 : BitVec 12} {x3 : Claim} (h : s.HomeWf) : (State.hole s x1 x2 x3).HomeWf := by
  unfold State.hole
  repeat' first | with_reducible assumption | with_reducible apply State.commitStore_keeps | with_reducible apply State.leaveUpdate_keeps

theorem execLd_keeps {x0 : Size} {x1 : Flds} {s : State} {t : State} (e : execLd x0 x1 s = .next t) (h : s.HomeWf) : t.HomeWf := by
  unfold execLd at e
  repeat' first
    | with_reducible assumption | cases e | (with_reducible refine State.perform_keeps (fun _ _ _ _ _ _ _ _ e _ => ?_) ?_)
    | (with_reducible refine ldBody_keeps (by assumption) ?_)

theorem frmfBody_keeps {s : State} {x1 : Chord} {x2 x3 : Nat} {x4 : Lane} {x5 : Vals} {v1 : LaneRes} {t : State} (e : frmfBody s x1 x2 x3 x4 x5 = some (v1, t))
    (h : s.HomeWf) : t.HomeWf := by
  unfold frmfBody at e
  repeat' first | with_reducible assumption | cases e | split at e

theorem execAtom_keeps {x0 : AtSize} {x1 : AtomWord} {x2 : Flds} {s : State} {t : State} (e : execAtom x0 x1 x2 s = .next t) (h : s.HomeWf) : t.HomeWf := by
  unfold execAtom at e
  repeat' first
    | with_reducible assumption | cases e | (with_reducible refine State.perform_keeps (fun _ _ _ _ _ _ _ _ e _ => ?_) ?_)
    | (with_reducible refine atomBody_keeps (by assumption) ?_)

theorem execFrmf_keeps {x0 : Flds} {s : State} {t : State} (e : execFrmf x0 s = .next t) (h : s.HomeWf) : t.HomeWf := by
  unfold execFrmf at e
  repeat' first
    | with_reducible assumption | cases e | (with_reducible refine State.perform_keeps (fun _ _ _ _ _ _ _ _ e _ => ?_) ?_)
    | (with_reducible refine frmfBody_keeps (by assumption) ?_)

theorem State.flagStep_keeps {s : State} {x1 : Nat} (h : s.HomeWf) : (State.flagStep s x1).HomeWf := by
  unfold State.flagStep
  repeat' first
    | with_reducible assumption | with_reducible apply HomeWf.ite | with_reducible apply State.modCore_keeps
    | (with_reducible refine State.performHomeOp_keeps (by assumption) ?_) | (with_reducible refine State.flushDirty_keeps (by assumption) ?_)
    | with_reducible apply State.holdSig_keeps | with_reducible apply State.acceptFlag_keeps
    | (unfold State.HomeWf; dsimp only; with_reducible apply HomeWf.mem) | cases e | split at e | split

theorem execFlagRelease_keeps {x0 : BitVec 8} {s : State} {t : State} (e : execFlagRelease x0 s = .next t) (h : s.HomeWf) : t.HomeWf := by
  unfold execFlagRelease at e
  repeat' first | with_reducible assumption | cases e | with_reducible apply State.flagStep_keeps

theorem State.epochStep_keeps {s : State} (h : s.HomeWf) : (State.epochStep s).HomeWf := by
  unfold State.epochStep
  repeat' first
    | with_reducible assumption | intro _ | with_reducible apply HomeWf.ite | with_reducible apply HomeWf.foldl
    | with_reducible apply State.modCore_keeps | with_reducible apply State.dropLine_keeps | with_reducible apply State.writeBackLine_keeps
    | (unfold State.HomeWf; dsimp only; with_reducible apply HomeWf.mem)

theorem execEpochAdvance_keeps {s : State} {t : State} (e : execEpochAdvance s = .next t) (h : s.HomeWf) : t.HomeWf := by
  unfold execEpochAdvance at e
  repeat' first | with_reducible assumption | with_reducible apply HomeWf.ite | with_reducible apply State.epochStep_keeps | cases e

theorem State.tellPerformed_keeps {s : State} {x1 : UEnt} (h : s.HomeWf) : (State.tellPerformed s x1).HomeWf := by
  unfold State.tellPerformed
  repeat' first
    | with_reducible assumption | with_reducible apply HomeWf.ite | with_reducible apply State.sendBack_keeps
    | (unfold State.HomeWf; dsimp only; with_reducible apply HomeWf.mem) | cases e | split at e | split

theorem State.dropClean_keeps {s : State} {x1 x2 : Nat} (h : s.HomeWf) : (State.dropClean s x1 x2).HomeWf := by
  unfold State.dropClean
  repeat' first | with_reducible assumption | with_reducible apply State.modCore_keeps

theorem State.closeOp_keeps {s : State} {x1 x2 : Nat} {x3 : List UEnt} (h : s.HomeWf) : (State.closeOp s x1 x2 x3).HomeWf := by
  unfold State.closeOp
  repeat' first
    | with_reducible assumption | intro _ | with_reducible apply HomeWf.ite | with_reducible apply HomeWf.foldl
    | with_reducible apply State.modSlice_keeps | with_reducible apply State.tellPerformed_keeps | with_reducible apply State.sigLine_keeps
    | with_reducible apply State.dropClean_keeps

theorem State.sendAnswer_keeps {s : State} {x1 : RemoteReq} {x2 x3 : Nat} {x4 : BitVec 1024} (h : s.HomeWf) : (State.sendAnswer s x1 x2 x3 x4).HomeWf := by
  unfold State.sendAnswer
  repeat' first | with_reducible assumption | with_reducible apply State.sendBack_keeps

theorem State.ackTo_keeps {s : State} {x1 : RemoteReq} (h : s.HomeWf) : (State.ackTo s x1).HomeWf := by
  unfold State.ackTo
  repeat' first | with_reducible assumption | with_reducible apply State.sendAnswer_keeps

theorem State.farWrite_keeps {s : State} {x1 : RemoteReq} (h : s.HomeWf) : (State.farWrite s x1).HomeWf := by
  unfold State.farWrite
  repeat' first
    | with_reducible assumption | with_reducible apply HomeWf.ite | with_reducible apply State.ackTo_keeps
    | with_reducible apply State.holdSig_keeps | with_reducible apply State.acceptBytes_keeps | with_reducible apply State.addReleaser_keeps_st
    | (with_reducible refine State.addReleaser_keeps (by assumption) ?_) | with_reducible apply State.sendAnswer_keeps
    | (unfold State.HomeWf; dsimp only; with_reducible apply HomeWf.mem) | cases e | split at e | split

theorem State.performHeld_keeps {s : State} {x1 : HeldWrite} (h : s.HomeWf) : (State.performHeld s x1).HomeWf := by
  unfold State.performHeld
  repeat' first
    | with_reducible assumption | with_reducible apply HomeWf.ite | with_reducible apply State.farWrite_keeps
    | with_reducible apply State.performWrite_keeps | cases e | split at e | split

theorem releaseWrites_keeps {x0 : List HeldWrite} {x1 : List HeldWrite} {s : State} {v1 : List HeldWrite} {t : State} (e : releaseWrites x0 x1 s = (v1, t))
    (h : s.HomeWf) : t.HomeWf := by
  induction x0 generalizing x1 s v1 t with
  | nil => unfold releaseWrites at e; (repeat' first
    | cases e | split at e | dsimp only at e | (rw [Option.map_eq_some_iff] at e; obtain ⟨_, e1, e⟩ := e)
    | (rw [Option.bind_eq_some_iff] at e; obtain ⟨_, e1, e⟩ := e)
    | (injection e with e)) <;> repeat' first | with_reducible assumption | with_reducible exact EngAccess.wf_wait | with_reducible apply EngAccess.wf_err | intro _ | with_reducible apply HomeWf.ite | with_reducible apply HomeWf.foldl | with_reducible apply HomeWf.foldl2 | with_reducible apply HomeWf.getD | with_reducible apply HomeWf.elim | with_reducible apply HomeWf.foldl1 | (with_reducible refine HomeWf.foldl2e (by assumption) ?_ ?_) | (with_reducible refine HomeWf.foldl1e (by assumption) ?_ ?_) | with_reducible apply State.performHeld_keeps | with_reducible apply EngAccess.wf_fault | with_reducible apply EngAccess.wf_later | (unfold State.HomeWf; dsimp only; with_reducible apply HomeWf.mem) | cases e | split at e | dsimp only at e | (rw [Option.map_eq_some_iff] at e; obtain ⟨_, e1, e⟩ := e) | (rw [Option.bind_eq_some_iff] at e; obtain ⟨_, e1, e⟩ := e) | (injection e with e) | cases e1 | split at e1 | dsimp only at e1 | (rw [Option.map_eq_some_iff] at e1; obtain ⟨_, e2, e1⟩ := e1) | (rw [Option.bind_eq_some_iff] at e1; obtain ⟨_, e2, e1⟩ := e1) | (rename_i e; rw [Option.map_eq_some_iff] at e; obtain ⟨_, e1, e⟩ := e) | (rename_i e; rw [Option.bind_eq_some_iff] at e; obtain ⟨_, e1, e⟩ := e) | split
  | cons _ _ ih => unfold releaseWrites at e; (repeat' first
    | cases e | split at e | dsimp only at e | (rw [Option.map_eq_some_iff] at e; obtain ⟨_, e1, e⟩ := e)
    | (rw [Option.bind_eq_some_iff] at e; obtain ⟨_, e1, e⟩ := e)
    | (injection e with e)) <;> repeat' first | with_reducible assumption | (with_reducible refine ih (by assumption) ?_) | with_reducible exact EngAccess.wf_wait | with_reducible apply EngAccess.wf_err | intro _ | with_reducible apply HomeWf.ite | with_reducible apply HomeWf.foldl | with_reducible apply HomeWf.foldl2 | with_reducible apply HomeWf.getD | with_reducible apply HomeWf.elim | with_reducible apply HomeWf.foldl1 | (with_reducible refine HomeWf.foldl2e (by assumption) ?_ ?_) | (with_reducible refine HomeWf.foldl1e (by assumption) ?_ ?_) | with_reducible apply State.performHeld_keeps | with_reducible apply EngAccess.wf_fault | with_reducible apply EngAccess.wf_later | (unfold State.HomeWf; dsimp only; with_reducible apply HomeWf.mem) | cases e | split at e | dsimp only at e | (rw [Option.map_eq_some_iff] at e; obtain ⟨_, e1, e⟩ := e) | (rw [Option.bind_eq_some_iff] at e; obtain ⟨_, e1, e⟩ := e) | (injection e with e) | cases e1 | split at e1 | dsimp only at e1 | (rw [Option.map_eq_some_iff] at e1; obtain ⟨_, e2, e1⟩ := e1) | (rw [Option.bind_eq_some_iff] at e1; obtain ⟨_, e2, e1⟩ := e1) | (rename_i e; rw [Option.map_eq_some_iff] at e; obtain ⟨_, e1, e⟩ := e) | (rename_i e; rw [Option.bind_eq_some_iff] at e; obtain ⟨_, e1, e⟩ := e) | split

theorem releaseWrites_keeps_st {x0 : List HeldWrite} {x1 : List HeldWrite} {s : State} (h : s.HomeWf) : (releaseWrites x0 x1 s).2.HomeWf := by
  rcases e : releaseWrites x0 x1 s with ⟨a, b⟩; exact releaseWrites_keeps e h

theorem State.releaseHeld_keeps {s : State} {x1 : Nat} (h : s.HomeWf) : (State.releaseHeld s x1).HomeWf := by
  unfold State.releaseHeld
  repeat' first
    | with_reducible assumption | with_reducible apply releaseWrites_keeps_st | (with_reducible refine releaseWrites_keeps (by assumption) ?_)
    | with_reducible apply State.modSlice_keeps

theorem State.putOpLine_keeps {s : State} {x1 : Nat} {x2 : BitVec 8} {x3 : OpLine} (h : s.HomeWf) : (State.putOpLine s x1 x2 x3).HomeWf := by
  unfold State.putOpLine
  repeat' first | with_reducible assumption | with_reducible apply State.acceptLine_keeps | with_reducible apply State.setLine_keeps

theorem State.sendHeader_keeps {s : State} {x1 x2 : Nat} {x3 : Operation} {x4 : OpLine} {x5 : UEnt} (h : s.HomeWf) : (State.sendHeader s x1 x2 x3 x4 x5).HomeWf := by
  unfold State.sendHeader
  repeat' first | with_reducible assumption | with_reducible apply State.modSlice_keeps | with_reducible apply State.sendBack_keeps

theorem State.recordRelease_keeps {s : State} {x1 : UEnt} {v1 : Bool} {t : State} (e : State.recordRelease s x1 = (v1, t)) (h : s.HomeWf) : t.HomeWf := by
  unfold State.recordRelease at e
  repeat' first
    | with_reducible assumption | cases e | split at e | dsimp only at e | with_reducible apply State.holdSig_keeps
    | with_reducible apply State.addReleaser_keeps_st | (with_reducible refine State.addReleaser_keeps (by assumption) ?_)

theorem State.recordRelease_keeps_st {s : State} {x1 : UEnt} (h : s.HomeWf) : (State.recordRelease s x1).2.HomeWf := by
  rcases e : State.recordRelease s x1 with ⟨a, b⟩; exact State.recordRelease_keeps e h

theorem State.answer_keeps {s : State} {x1 : ReplyTo} {x2 : Nat} {x3 : List Byte} {x4 : Bool} {x5 : Sig} (h : s.HomeWf) : (State.answer s x1 x2 x3 x4 x5).HomeWf := by
  unfold State.answer
  repeat' first
    | with_reducible assumption | with_reducible apply HomeWf.ite | with_reducible apply State.acquire_keeps
    | with_reducible apply State.setChord_keeps | (unfold State.HomeWf; dsimp only; with_reducible apply HomeWf.mem) | cases e | split at e
    | split

theorem State.replyAtomic_keeps {s : State} {x1 : UEnt} {x2 : Word} {x3 : List (BitVec 12 × BitVec 8)} (h : s.HomeWf) : (State.replyAtomic s x1 x2 x3).HomeWf := by
  unfold State.replyAtomic
  repeat' first
    | with_reducible assumption | with_reducible apply HomeWf.ite | with_reducible apply State.modSlice_keeps
    | with_reducible apply State.answer_keeps | with_reducible apply State.sendBack_keeps
    | (unfold State.HomeWf; dsimp only; with_reducible apply HomeWf.mem) | cases e | split at e | split

theorem State.refuse_keeps {s : State} {x1 : UEnt} (h : s.HomeWf) : (State.refuse s x1).HomeWf := by
  unfold State.refuse
  repeat' first
    | with_reducible assumption | intro _ | with_reducible apply HomeWf.ite | with_reducible apply HomeWf.foldl
    | with_reducible apply State.writeBackLine_keeps | with_reducible apply State.modCore_keeps | with_reducible apply State.sendBack_keeps

theorem State.claimFail_keeps {s : State} {x1 : UEnt} {x2 : Word → Trap} (h : s.HomeWf) : (State.claimFail s x1 x2).HomeWf := by
  unfold State.claimFail
  repeat' first
    | with_reducible assumption | with_reducible apply HomeWf.ite | with_reducible apply State.setChord_keeps
    | (unfold State.HomeWf; dsimp only; with_reducible apply HomeWf.mem) | cases e | split at e | split

theorem State.claimBad_keeps {s : State} {x1 : UEnt} {x2 : Nat} (h : s.HomeWf) : (State.claimBad s x1 x2).HomeWf := by
  unfold State.claimBad
  repeat' first | with_reducible assumption | with_reducible apply State.claimFail_keeps

theorem State.claimOn_keeps {s : State} {x1 : UEnt} {x2 : CmpkHdr} {x3 : Place} {v1 : Nat} {t : State} (e : State.claimOn s x1 x2 x3 = some (v1, t))
    (h : s.HomeWf) : t.HomeWf := by
  unfold State.claimOn at e
  repeat' first
    | with_reducible assumption | cases e | split at e | dsimp only at e | (rw [Option.map_eq_some_iff] at e; obtain ⟨_, e1, e⟩ := e)
    | (injection e with e) | intro _ | with_reducible apply HomeWf.ite | with_reducible apply HomeWf.foldl
    | with_reducible apply State.setChord_keeps | (with_reducible refine claimLanes_keeps (by assumption) ?_)
    | with_reducible apply State.hole_keeps | split

theorem State.applyLast_keeps {s : State} {x1 : Nat} {x2 : OpLine} {x3 : UEnt} {t : State} (e : State.applyLast s x1 x2 x3 = some t) (h : s.HomeWf) : t.HomeWf := by
  unfold State.applyLast at e
  repeat' first
    | with_reducible assumption | cases e | split at e | dsimp only at e | (rw [Option.map_eq_some_iff] at e; obtain ⟨_, e1, e⟩ := e)
    | (injection e with e) | with_reducible apply HomeWf.ite | with_reducible apply State.recordRelease_keeps_st
    | (with_reducible refine State.recordRelease_keeps (by assumption) ?_) | with_reducible apply State.putOpLine_keeps
    | with_reducible apply State.sigLine_keeps | with_reducible apply State.replyAtomic_keeps | with_reducible apply State.refuse_keeps
    | with_reducible apply State.claimBad_keeps | (with_reducible refine State.claimOn_keeps (by assumption) ?_)

theorem State.endOp_keeps {s : State} {x1 x2 : Nat} (h : s.HomeWf) : (State.endOp s x1 x2).HomeWf := by
  unfold State.endOp
  repeat' first
    | with_reducible assumption | with_reducible apply HomeWf.ite | with_reducible apply State.closeOp_keeps
    | with_reducible apply State.releaseHeld_keeps | with_reducible apply State.putOpLine_keeps | with_reducible apply State.sendHeader_keeps
    | (with_reducible refine State.applyLast_keeps (by assumption) ?_) | (unfold State.HomeWf; dsimp only; with_reducible apply HomeWf.mem)
    | cases e | split at e | split

theorem execUpdateOperationEnd_keeps {x0 : BitVec 7} {x1 : Nat} {s : State} {t : State} (e : execUpdateOperationEnd x0 x1 s = .next t) (h : s.HomeWf) : t.HomeWf := by
  unfold execUpdateOperationEnd at e
  repeat' first | with_reducible assumption | cases e | with_reducible apply State.endOp_keeps

theorem State.logBatch_keeps {s : State} {x1 : List UEnt} {x2 : List UEnt} {v1 : List UEnt} {t : State} (e : State.logBatch s x1 x2 = some (t, v1))
    (h : s.HomeWf) : t.HomeWf := by
  unfold State.logBatch at e
  repeat' first
    | with_reducible assumption | cases e | split at e | dsimp only at e | with_reducible apply State.recordBatch_keeps
    | with_reducible apply State.replayStop_keeps | with_reducible apply State.consumeLog_keeps

theorem clearCopies_keeps {x0 : Nat} {x1 : List Nat} {s : State} {t : State} (e : clearCopies x0 x1 s = some t) (h : s.HomeWf) : t.HomeWf := by
  induction x1 generalizing x0 s  t with
  | nil => unfold clearCopies at e; (repeat' first
    | cases e | split at e | dsimp only at e | (rw [Option.map_eq_some_iff] at e; obtain ⟨_, e1, e⟩ := e)
    | (rw [Option.bind_eq_some_iff] at e; obtain ⟨_, e1, e⟩ := e)
    | (injection e with e)) <;> repeat' first | with_reducible assumption | with_reducible exact EngAccess.wf_wait | with_reducible apply EngAccess.wf_err | intro _ | with_reducible apply HomeWf.ite | with_reducible apply HomeWf.foldl | with_reducible apply HomeWf.foldl2 | with_reducible apply HomeWf.getD | with_reducible apply HomeWf.elim | with_reducible apply HomeWf.foldl1 | (with_reducible refine HomeWf.foldl2e (by assumption) ?_ ?_) | (with_reducible refine HomeWf.foldl1e (by assumption) ?_ ?_) | with_reducible apply State.flushLine_keeps | (with_reducible refine State.drainHome_keeps (by assumption) ?_) | with_reducible apply EngAccess.wf_fault | with_reducible apply EngAccess.wf_later | (unfold State.HomeWf; dsimp only; with_reducible apply HomeWf.mem) | cases e | split at e | dsimp only at e | (rw [Option.map_eq_some_iff] at e; obtain ⟨_, e1, e⟩ := e) | (rw [Option.bind_eq_some_iff] at e; obtain ⟨_, e1, e⟩ := e) | (injection e with e) | cases e1 | split at e1 | dsimp only at e1 | (rw [Option.map_eq_some_iff] at e1; obtain ⟨_, e2, e1⟩ := e1) | (rw [Option.bind_eq_some_iff] at e1; obtain ⟨_, e2, e1⟩ := e1) | (rename_i e; rw [Option.map_eq_some_iff] at e; obtain ⟨_, e1, e⟩ := e) | (rename_i e; rw [Option.bind_eq_some_iff] at e; obtain ⟨_, e1, e⟩ := e) | split
  | cons _ _ ih => unfold clearCopies at e; (repeat' first
    | cases e | split at e | dsimp only at e | (rw [Option.map_eq_some_iff] at e; obtain ⟨_, e1, e⟩ := e)
    | (rw [Option.bind_eq_some_iff] at e; obtain ⟨_, e1, e⟩ := e)
    | (injection e with e)) <;> repeat' first | with_reducible assumption | (with_reducible refine ih (by assumption) ?_) | with_reducible exact EngAccess.wf_wait | with_reducible apply EngAccess.wf_err | intro _ | with_reducible apply HomeWf.ite | with_reducible apply HomeWf.foldl | with_reducible apply HomeWf.foldl2 | with_reducible apply HomeWf.getD | with_reducible apply HomeWf.elim | with_reducible apply HomeWf.foldl1 | (with_reducible refine HomeWf.foldl2e (by assumption) ?_ ?_) | (with_reducible refine HomeWf.foldl1e (by assumption) ?_ ?_) | with_reducible apply State.flushLine_keeps | (with_reducible refine State.drainHome_keeps (by assumption) ?_) | with_reducible apply EngAccess.wf_fault | with_reducible apply EngAccess.wf_later | (unfold State.HomeWf; dsimp only; with_reducible apply HomeWf.mem) | cases e | split at e | dsimp only at e | (rw [Option.map_eq_some_iff] at e; obtain ⟨_, e1, e⟩ := e) | (rw [Option.bind_eq_some_iff] at e; obtain ⟨_, e1, e⟩ := e) | (injection e with e) | cases e1 | split at e1 | dsimp only at e1 | (rw [Option.map_eq_some_iff] at e1; obtain ⟨_, e2, e1⟩ := e1) | (rw [Option.bind_eq_some_iff] at e1; obtain ⟨_, e2, e1⟩ := e1) | (rename_i e; rw [Option.map_eq_some_iff] at e; obtain ⟨_, e1, e⟩ := e) | (rename_i e; rw [Option.bind_eq_some_iff] at e; obtain ⟨_, e1, e⟩ := e) | split

theorem State.startOp_keeps {s : State} {x1 x2 : Nat} (h : s.HomeWf) : (State.startOp s x1 x2).HomeWf := by
  unfold State.startOp
  repeat' first
    | with_reducible assumption | with_reducible exact EngAccess.wf_wait | with_reducible apply EngAccess.wf_err | intro _
    | with_reducible apply HomeWf.ite | with_reducible apply HomeWf.foldl | with_reducible apply HomeWf.foldl2 | with_reducible apply HomeWf.getD
    | with_reducible apply HomeWf.elim | with_reducible apply HomeWf.foldl1 | (with_reducible refine HomeWf.foldl2e (by assumption) ?_ ?_)
    | (with_reducible refine HomeWf.foldl1e (by assumption) ?_ ?_) | (with_reducible refine State.logBatch_keeps (by assumption) ?_)
    | (with_reducible refine clearCopies_keeps (by assumption) ?_) | with_reducible apply State.modSlice_keeps
    | with_reducible apply State.l2Enter_keeps | with_reducible apply EngAccess.wf_fault | with_reducible apply EngAccess.wf_later | cases e
    | split at e | dsimp only at e | (rw [Option.map_eq_some_iff] at e; obtain ⟨_, e1, e⟩ := e) | (injection e with e) | cases e1 | split at e1
    | dsimp only at e1 | (rename_i e; rw [Option.bind_eq_some_iff] at e; obtain ⟨_, e1, e⟩ := e) | split

theorem State.farReach_keeps {s : State} {x1 : RemoteReq} {t : State} (e : State.farReach s x1 = some t) (h : s.HomeWf) : t.HomeWf := by
  unfold State.farReach at e
  repeat' first
    | with_reducible assumption | cases e | split at e | dsimp only at e | with_reducible apply State.modSlice_keeps
    | with_reducible apply State.farWrite_keeps

theorem State.acquireStep_keeps {s : State} {x1 x2 : Nat} (h : s.HomeWf) : (State.acquireStep s x1 x2).HomeWf := by
  unfold State.acquireStep
  repeat' first
    | with_reducible assumption | with_reducible apply HomeWf.ite | with_reducible apply State.setSlice_keeps
    | with_reducible apply State.answer_keeps | with_reducible apply State.sendBack_keeps
    | (unfold State.HomeWf; dsimp only; with_reducible apply HomeWf.mem) | cases e | split at e | split

theorem execAcquireAnswer_keeps {x0 : BitVec 7} {x1 : Nat} {s : State} {t : State} (e : execAcquireAnswer x0 x1 s = .next t) (h : s.HomeWf) : t.HomeWf := by
  unfold execAcquireAnswer at e
  repeat' first | with_reducible assumption | cases e | with_reducible apply State.acquireStep_keeps

theorem State.flagReadStep_keeps {s : State} {i : Nat} (h : s.HomeWf) : (s.flagReadStep i).HomeWf := by
  unfold State.flagReadStep
  split
  · exact h
  · dsimp only
    split
    · exact h
    · rename_i u h1
      have hu : u.HomeWf := by
        split at h1
        · exact State.drainHome_keeps h1 (State.flushLine_keeps h)
        · cases h1; exact h
      exact State.modSlice_keeps (State.l2Enter_keeps hu)

theorem execFlagAcquire_keeps {x0 : BitVec 7} {s : State} {t : State} (e : execFlagAcquire x0 s = .next t) (h : s.HomeWf) : t.HomeWf := by
  unfold execFlagAcquire at e
  repeat' first | with_reducible assumption | cases e | with_reducible apply State.flagReadStep_keeps

theorem execWriteBackAccept_keeps {x0 : BitVec 8} {s : State} {t : State} (e : execWriteBackAccept x0 s = .next t) (h : s.HomeWf) : t.HomeWf := by
  unfold execWriteBackAccept at e
  repeat' first
    | with_reducible assumption | with_reducible apply HomeWf.ite | (with_reducible refine State.performHomeOp_keeps (by assumption) ?_)
    | with_reducible apply State.modCore_keeps | cases e | split at e | split

theorem State.fillStep_keeps {s : State} {x1 x2 : Nat} (h : s.HomeWf) : (State.fillStep s x1 x2).HomeWf := by
  unfold State.fillStep
  repeat' first
    | with_reducible assumption | with_reducible apply HomeWf.ite | with_reducible apply State.modCore_keeps
    | (with_reducible refine State.drainHome_keeps (by assumption) ?_) | with_reducible apply State.retag_keeps
    | with_reducible apply State.l1Room_keeps | with_reducible apply State.fillLine_keeps
    | (unfold State.HomeWf; dsimp only; with_reducible apply HomeWf.mem) | cases e | split at e | split

theorem State.answerStep_keeps {s : State} {x1 x2 : Nat} (h : s.HomeWf) : (State.answerStep s x1 x2).HomeWf := by
  unfold State.answerStep
  repeat' first
    | with_reducible assumption | with_reducible apply HomeWf.ite | with_reducible apply State.modSlice_keeps
    | with_reducible apply State.holdSig_keeps | (unfold State.HomeWf; dsimp only; with_reducible apply HomeWf.mem) | cases e | split at e
    | split

theorem execL1Fill_keeps {x0 : BitVec 8} {x1 : Nat} {s : State} {t : State} (e : execL1Fill x0 x1 s = .next t) (h : s.HomeWf) : t.HomeWf := by
  unfold execL1Fill at e
  repeat' first | with_reducible assumption | cases e | with_reducible apply State.fillStep_keeps

theorem execUpdateOperation_keeps {x0 : BitVec 7} {x1 : Nat} {s : State} {t : State} (e : execUpdateOperation x0 x1 s = .next t) (h : s.HomeWf) : t.HomeWf := by
  unfold execUpdateOperation at e
  repeat' first | with_reducible assumption | cases e | with_reducible apply State.startOp_keeps

theorem State.tellAccepted_keeps {s : State} {x1 : Nat} (h : s.HomeWf) : (State.tellAccepted s x1).HomeWf := by
  unfold State.tellAccepted
  repeat' first
    | with_reducible assumption | intro _ | with_reducible apply HomeWf.ite | with_reducible apply HomeWf.foldl
    | with_reducible apply State.sendBack_keeps | with_reducible apply State.modSlice_keeps

theorem execUpdateAccept_keeps {x0 : BitVec 7} {s : State} {t : State} (e : execUpdateAccept x0 s = .next t) (h : s.HomeWf) : t.HomeWf := by
  unfold execUpdateAccept at e
  repeat' first | with_reducible assumption | cases e | with_reducible apply State.tellAccepted_keeps | with_reducible apply State.acceptUpdates_keeps

theorem execDrainAnswer_keeps {x0 : BitVec 7} {x1 : Nat} {s : State} {t : State} (e : execDrainAnswer x0 x1 s = .next t) (h : s.HomeWf) : t.HomeWf := by
  unfold execDrainAnswer at e
  repeat' first | with_reducible assumption | cases e | with_reducible apply State.answerStep_keeps

theorem execReleaseRecordFree_keeps {x0 : BitVec 7} {s : State} {t : State} (e : execReleaseRecordFree x0 s = .next t) (h : s.HomeWf) : t.HomeWf := by
  unfold execReleaseRecordFree at e
  repeat' first | with_reducible assumption | cases e | with_reducible apply State.modSlice_keeps

theorem State.drainStep_keeps {s : State} {x1 x2 : Nat} (h : s.HomeWf) : (State.drainStep s x1 x2).HomeWf := by
  unfold State.drainStep
  repeat' first
    | with_reducible assumption | with_reducible apply HomeWf.ite | (with_reducible refine State.flushDirty_keeps (by assumption) ?_)
    | with_reducible apply State.modSlice_keeps | with_reducible apply State.sendBack_keeps
    | (unfold State.HomeWf; dsimp only; with_reducible apply HomeWf.mem) | cases e | split at e | split

theorem State.endClaim_keeps {s : State} {x1 x2 : Nat} {x3 : BitVec 12} {x4 : Nat} {x5 : Option Nat} (h : s.HomeWf) : (State.endClaim s x1 x2 x3 x4 x5).HomeWf := by
  unfold State.endClaim
  repeat' first
    | with_reducible assumption | with_reducible apply HomeWf.ite | with_reducible apply State.releaseHeld_keeps
    | with_reducible apply State.putOpLine_keeps | with_reducible apply State.closeOp_keeps
    | (unfold State.HomeWf; dsimp only; with_reducible apply HomeWf.mem) | cases e | split at e | split

theorem execDrainOrder_keeps {x0 : BitVec 7} {x1 : Nat} {s : State} {t : State} (e : execDrainOrder x0 x1 s = .next t) (h : s.HomeWf) : t.HomeWf := by
  unfold execDrainOrder at e
  repeat' first | with_reducible assumption | cases e | with_reducible apply State.drainStep_keeps

theorem State.fireWatches_keeps {s : State} {x1 x2 x3 : Nat} (h : s.HomeWf) : (State.fireWatches s x1 x2 x3).HomeWf := by
  unfold State.fireWatches
  repeat' first
    | with_reducible assumption | with_reducible apply HomeWf.ite | with_reducible apply State.sendToken_keeps
    | with_reducible apply State.modCore_keeps | (unfold State.HomeWf; dsimp only; with_reducible apply HomeWf.mem) | cases e | split at e
    | split

theorem State.epiPush_keeps {s : State} {x1 x2 : Nat} {x3 : List Word} {x4 : EpiWord} {x5 : Acc} {x6 : List Byte} (h : s.HomeWf) :
    (State.epiPush s x1 x2 x3 x4 x5 x6).HomeWf := by
  unfold State.epiPush
  repeat' first
    | with_reducible assumption | with_reducible apply HomeWf.ite | with_reducible apply State.modCore_keeps
    | with_reducible apply State.fireWatches_keeps | (unfold State.HomeWf; dsimp only; with_reducible apply HomeWf.mem) | cases e | split at e
    | split

theorem State.mxEffect_keeps {s : State} {x1 : Nat} {x2 : BitVec 12} {x3 : BitVec 16} {x4 : List Word} {x5 : BitVec 32} {x6 : Eff} (h : s.HomeWf) :
    (State.mxEffect s x1 x2 x3 x4 x5 x6).HomeWf := by
  unfold State.mxEffect
  repeat' first
    | with_reducible assumption | with_reducible apply HomeWf.ite | with_reducible apply State.modCore_keeps
    | with_reducible apply State.bump_keeps | with_reducible apply State.epiPush_keeps | with_reducible apply State.corePut_keeps
    | (unfold State.HomeWf; dsimp only; with_reducible apply HomeWf.mem) | cases e | split at e | split

theorem State.popRing_keeps {s : State} {x1 x2 x3 x4 : Nat} (h : s.HomeWf) : (State.popRing s x1 x2 x3 x4).HomeWf := by
  unfold State.popRing
  repeat' first | with_reducible assumption | with_reducible apply State.fireWatches_keeps | with_reducible apply State.modCore_keeps

theorem State.ringEffect_keeps {s : State} {x1 : Nat} {x2 : BitVec 12} {x3 : BitVec 16} {x4 : List Word} {x5 : BitVec 32} {x6 : BitVec 8}
    {x7 : Eff} (h : s.HomeWf) : (State.ringEffect s x1 x2 x3 x4 x5 x6 x7).HomeWf := by
  unfold State.ringEffect
  repeat' first
    | with_reducible assumption | with_reducible apply HomeWf.ite | with_reducible apply State.modCore_keeps
    | with_reducible apply State.fireWatches_keeps | with_reducible apply State.popRing_keeps
    | (unfold State.HomeWf; dsimp only; with_reducible apply HomeWf.mem) | cases e | split at e | split

theorem State.chordEffect_keeps {s : State} {x1 : Nat} {x2 : BitVec 12} {x3 : BitVec 16} {x4 : List Word} {x5 : BitVec 32} {x6 : BitVec 8}
    {x7 : Eff} (h : s.HomeWf) : (State.chordEffect s x1 x2 x3 x4 x5 x6 x7).HomeWf := by
  unfold State.chordEffect
  repeat' first | with_reducible assumption | with_reducible apply State.mxEffect_keeps | with_reducible apply State.ringEffect_keeps

theorem State.afterEff_keeps {s : State} {x1 : Nat} {x2 : Chord} {x3 : List Word} {x4 : Eff} (h : s.HomeWf) : (State.afterEff s x1 x2 x3 x4).HomeWf := by
  unfold State.afterEff
  repeat' first
    | with_reducible assumption | with_reducible apply HomeWf.ite | with_reducible apply State.modCore_keeps
    | with_reducible apply State.chordEffect_keeps | cases e | split at e | split

theorem State.afterChordEffs_keeps {s : State} {x1 : Nat} {x2 : Chord} {x3 : List Word} (h : s.HomeWf) : (State.afterChordEffs s x1 x2 x3).HomeWf := by
  unfold State.afterChordEffs
  repeat' first
    | with_reducible assumption | intro _ | with_reducible apply HomeWf.ite | with_reducible apply HomeWf.foldl
    | with_reducible apply State.afterEff_keeps

theorem State.pushRing_keeps {s : State} {x1 x2 x3 x4 x5 : Nat} (h : s.HomeWf) : (State.pushRing s x1 x2 x3 x4 x5).HomeWf := by
  unfold State.pushRing
  repeat' first | with_reducible assumption | with_reducible apply State.fireWatches_keeps | with_reducible apply State.modCore_keeps

theorem State.engToken_keeps {s : State} {x1 : BitVec 12} {x2 : BitVec 16} {x3 : BitVec 32} {x4 : BitVec 4} {x5 : BitVec 32} {x6 : BitVec 4}
    {x7 : Word} {x8 : Option Sig} (h : s.HomeWf) : (State.engToken s x1 x2 x3 x4 x5 x6 x7 x8).HomeWf := by
  unfold State.engToken
  repeat' first
    | with_reducible assumption | with_reducible apply HomeWf.ite | with_reducible apply State.countDiscard_keeps
    | with_reducible apply State.sendToken_keeps | cases e | split at e | split

theorem chordEff_keeps {s : State} {x1 : Chord} {x2 : Eff} {x3 : Word} {v1 : LaneRes} {t : State} (e : chordEff s x1 x2 x3 = (v1, t)) (h : s.HomeWf) : t.HomeWf := by
  unfold chordEff at e
  repeat' first | with_reducible assumption | cases e | split at e | dsimp only at e

theorem chordEff_keeps_st {s : State} {x1 : Chord} {x2 : Eff} {x3 : Word} (h : s.HomeWf) : (chordEff s x1 x2 x3).2.HomeWf := by
  rcases e : chordEff s x1 x2 x3 with ⟨a, b⟩; exact chordEff_keeps e h

end Sys2Proof.Machine
end

