-- ==== Sys2Proof/Laws/KeepsEngines.lean ====
section
/-! SUPPORT. The same for the rings, streams, copies, the matrix engine, sympathy, selection, matching and hypotheses. -/

namespace Sys2Proof.Machine

set_option linter.unusedTactic false
set_option linter.unreachableTactic false

theorem rgetBody_keeps {x0 : Nat} {s : State} {x2 : Chord} {x3 x4 : Nat} {x5 : Lane} {x6 : Vals} {v1 : LaneRes} {t : State} (e : rgetBody x0 s x2 x3 x4 x5 x6 = some (v1, t))
    (h : s.HomeWf) : t.HomeWf := by
  unfold rgetBody at e
  repeat' first | with_reducible assumption | cases e | split at e | dsimp only at e

theorem execRget_keeps {x0 : Flds} {s : State} {t : State} (e : execRget x0 s = .next t) (h : s.HomeWf) : t.HomeWf := by
  unfold execRget at e
  repeat' first
    | with_reducible assumption | cases e | (with_reducible refine State.perform_keeps (fun _ _ _ _ _ _ _ _ e _ => ?_) ?_)
    | (with_reducible refine rgetBody_keeps (by assumption) ?_)

theorem runbBody_keeps {x0 : Nat} {s : State} {x2 : Chord} {x3 x4 : Nat} {x5 : Lane} {x6 : Vals} {v1 : LaneRes} {t : State} (e : runbBody x0 s x2 x3 x4 x5 x6 = some (v1, t))
    (h : s.HomeWf) : t.HomeWf := by
  unfold runbBody at e
  repeat' first
    | with_reducible assumption | cases e | split at e | dsimp only at e | (injection e with e) | with_reducible apply chordEff_keeps_st
    | (with_reducible refine chordEff_keeps (by assumption) ?_)

theorem State.setCopyEngine_keeps {s : State} {x1 : Nat} {x2 : CopyEngine} (h : s.HomeWf) : (State.setCopyEngine s x1 x2).HomeWf := by
  unfold State.setCopyEngine
  repeat' first | with_reducible assumption | (unfold State.HomeWf; dsimp only; with_reducible apply HomeWf.mem)

theorem State.unlockCopy_keeps {s : State} {x1 : Nat} {x2 : Copy} (h : s.HomeWf) : (State.unlockCopy s x1 x2).HomeWf := by
  unfold State.unlockCopy
  repeat' first | with_reducible assumption | (unfold State.HomeWf; dsimp only; with_reducible apply HomeWf.mem)

theorem State.endCopy_keeps {s : State} {x1 : Nat} {x2 : Copy} {x3 : Nat} (h : s.HomeWf) : (State.endCopy s x1 x2 x3).HomeWf := by
  unfold State.endCopy
  repeat' first
    | with_reducible assumption | with_reducible apply HomeWf.ite | with_reducible apply State.setCopyEngine_keeps
    | with_reducible apply State.forget_keeps | with_reducible apply State.unlockCopy_keeps | with_reducible apply State.engToken_keeps

theorem State.failStream_keeps {s : State} {x1 : Nat} {x2 : Stream} {x3 : Trap} (h : s.HomeWf) : (State.failStream s x1 x2 x3).HomeWf := by
  unfold State.failStream
  repeat' first | with_reducible assumption | with_reducible apply State.sendTrap_keeps | with_reducible apply State.modCore_keeps

theorem engAccess_keeps_ok {s : State} {x1 : Who} {x2 : ℤ} {x3 : Nat} {x4 : AccKind} {pl : List Place} {t : State} (e : engAccess s x1 x2 x3 x4 = .ok pl t)
    (h : s.HomeWf) : t.HomeWf := by
  unfold engAccess at e
  repeat' first
    | with_reducible assumption | cases e | split at e | dsimp only at e | (with_reducible refine State.checkPages_keeps_ok (by assumption) ?_)
    | (with_reducible refine State.checkPages_keeps_trap (by assumption) ?_) | (with_reducible refine State.seek_keeps_later (by assumption) ?_)
    | with_reducible apply State.enterPlaces_keeps

theorem engAccess_keeps_fault {s : State} {x1 : Who} {x2 : ℤ} {x3 : Nat} {x4 : AccKind} {st : Stop} {t : State} (e : engAccess s x1 x2 x3 x4 = .fault st t)
    (h : s.HomeWf) : t.HomeWf := by
  unfold engAccess at e
  repeat' first
    | with_reducible assumption | cases e | split at e | dsimp only at e | (with_reducible refine State.checkPages_keeps_ok (by assumption) ?_)
    | (with_reducible refine State.checkPages_keeps_trap (by assumption) ?_)

theorem engAccess_keeps_later {s : State} {x1 : Who} {x2 : ℤ} {x3 : Nat} {x4 : AccKind} {t : State} (e : engAccess s x1 x2 x3 x4 = .later t)
    (h : s.HomeWf) : t.HomeWf := by
  unfold engAccess at e
  repeat' first
    | with_reducible assumption | cases e | split at e | dsimp only at e | (with_reducible refine State.checkPages_keeps_ok (by assumption) ?_)
    | (with_reducible refine State.checkPages_keeps_trap (by assumption) ?_) | (with_reducible refine State.seek_keeps_later (by assumption) ?_)

theorem engAccess_keepsE {s : State} {w : Who} {va : Int} {n : Nat} {k : AccKind} (h : s.HomeWf) : (engAccess s w va n k).HomeWf := by
  cases e : engAccess s w va n k with
  | ok pl t => exact engAccess_keeps_ok e h
  | fault st t => exact engAccess_keeps_fault e h
  | later t => exact engAccess_keeps_later e h
  | err t => exact trivial
  | wait => exact trivial

theorem engAccess_keepsX {s : State} {w : Who} {va : Int} {n : Nat} {k : AccKind} {x : EngAccess} (e : engAccess s w va n k = x)
 (h : s.HomeWf) : x.HomeWf := e ▸ engAccess_keepsE h

theorem engReads_keeps_ok {x0 : Who} {x1 : Nat} {x2 : List ℤ} {s : State} {v1 : List (List Byte)} {t : State} (e : engReads x0 x1 x2 s = .ok (v1, t))
    (h : s.HomeWf) : t.HomeWf := by
  induction x2 generalizing x0 x1 s v1 t with
  | nil => unfold engReads at e; (repeat' first
    | cases e | split at e | dsimp only at e | (rw [Option.map_eq_some_iff] at e; obtain ⟨_, e1, e⟩ := e)
    | (rw [Option.bind_eq_some_iff] at e; obtain ⟨_, e1, e⟩ := e)
    | (injection e with e)) <;> repeat' first | with_reducible assumption | with_reducible exact EngAccess.wf_wait | with_reducible apply EngAccess.wf_err | intro _ | with_reducible apply HomeWf.ite | with_reducible apply HomeWf.foldl | with_reducible apply HomeWf.foldl2 | with_reducible apply HomeWf.getD | with_reducible apply HomeWf.elim | with_reducible apply HomeWf.foldl1 | (with_reducible refine HomeWf.foldl2e (by assumption) ?_ ?_) | (with_reducible refine HomeWf.foldl1e (by assumption) ?_ ?_) | with_reducible apply engAccess_keepsE | (with_reducible refine engAccess_keeps_ok (by assumption) ?_) | (with_reducible refine engAccess_keeps_fault (by assumption) ?_) | (with_reducible refine engAccess_keeps_later (by assumption) ?_) | with_reducible apply EngAccess.wf_fault | with_reducible apply EngAccess.wf_later | (unfold State.HomeWf; dsimp only; with_reducible apply HomeWf.mem) | cases e | split at e | dsimp only at e | (rw [Option.map_eq_some_iff] at e; obtain ⟨_, e1, e⟩ := e) | (rw [Option.bind_eq_some_iff] at e; obtain ⟨_, e1, e⟩ := e) | (injection e with e) | cases e1 | split at e1 | dsimp only at e1 | (rw [Option.map_eq_some_iff] at e1; obtain ⟨_, e2, e1⟩ := e1) | (rw [Option.bind_eq_some_iff] at e1; obtain ⟨_, e2, e1⟩ := e1) | (rename_i e; rw [Option.map_eq_some_iff] at e; obtain ⟨_, e1, e⟩ := e) | (rename_i e; rw [Option.bind_eq_some_iff] at e; obtain ⟨_, e1, e⟩ := e) | split
  | cons _ _ ih => unfold engReads at e; (repeat' first
    | cases e | split at e | dsimp only at e | (rw [Option.map_eq_some_iff] at e; obtain ⟨_, e1, e⟩ := e)
    | (rw [Option.bind_eq_some_iff] at e; obtain ⟨_, e1, e⟩ := e)
    | (injection e with e)) <;> repeat' first | with_reducible assumption | (with_reducible refine ih (by assumption) ?_) | with_reducible exact EngAccess.wf_wait | with_reducible apply EngAccess.wf_err | intro _ | with_reducible apply HomeWf.ite | with_reducible apply HomeWf.foldl | with_reducible apply HomeWf.foldl2 | with_reducible apply HomeWf.getD | with_reducible apply HomeWf.elim | with_reducible apply HomeWf.foldl1 | (with_reducible refine HomeWf.foldl2e (by assumption) ?_ ?_) | (with_reducible refine HomeWf.foldl1e (by assumption) ?_ ?_) | with_reducible apply engAccess_keepsE | (with_reducible refine engAccess_keeps_ok (by assumption) ?_) | (with_reducible refine engAccess_keeps_fault (by assumption) ?_) | (with_reducible refine engAccess_keeps_later (by assumption) ?_) | with_reducible apply EngAccess.wf_fault | with_reducible apply EngAccess.wf_later | (unfold State.HomeWf; dsimp only; with_reducible apply HomeWf.mem) | cases e | split at e | dsimp only at e | (rw [Option.map_eq_some_iff] at e; obtain ⟨_, e1, e⟩ := e) | (rw [Option.bind_eq_some_iff] at e; obtain ⟨_, e1, e⟩ := e) | (injection e with e) | cases e1 | split at e1 | dsimp only at e1 | (rw [Option.map_eq_some_iff] at e1; obtain ⟨_, e2, e1⟩ := e1) | (rw [Option.bind_eq_some_iff] at e1; obtain ⟨_, e2, e1⟩ := e1) | (rename_i e; rw [Option.map_eq_some_iff] at e; obtain ⟨_, e1, e⟩ := e) | (rename_i e; rw [Option.bind_eq_some_iff] at e; obtain ⟨_, e1, e⟩ := e) | split

theorem engReads_keeps_error {w : Who} {n : Nat} {l : List Int} {s : State} {ea : EngAccess} (e : engReads w n l s = .error ea) (h : s.HomeWf) : ea.HomeWf := by
  induction l generalizing s with
  | nil => unfold engReads at e; cases e
  | cons va r ih =>
    unfold engReads at e
    split at e
    · rename_i h1
      split at e
      · cases e
      · rename_i h2; injection e with e; subst e; exact ih h2 (engAccess_keeps_ok h1 h)
    · rename_i h1
      have hs := engAccess_keeps_later h1 h
      split at e
      · rename_i h2; injection e with e; subst e; exact engReads_keeps_ok h2 hs
      · rename_i h2; injection e with e; subst e; exact ih h2 hs
    · injection e with e; subst e; exact engAccess_keepsE h

theorem engReads_keepsF {x0 : Who} {x1 : Nat} {x2 : List ℤ} {s : State}  {st : Stop} {t : State} (e : engReads x0 x1 x2 s = .error (.fault st t))
    (h : s.HomeWf) : t.HomeWf := engReads_keeps_error e h

theorem engReads_keepsL {x0 : Who} {x1 : Nat} {x2 : List ℤ} {s : State} {t : State} (e : engReads x0 x1 x2 s = .error (.later t)) (h : s.HomeWf) : t.HomeWf := engReads_keeps_error e h

theorem State.noteEngines_keeps {s : State} {x1 : Nat} {x2 : Stream} {x3 : List Place} (h : s.HomeWf) : (State.noteEngines s x1 x2 x3).HomeWf := by
  unfold State.noteEngines
  repeat' first | with_reducible assumption | with_reducible apply State.modCore_keeps

theorem gatherTile_keeps_ok {s : State} {x1 : Nat} {x2 : Stream} {x3 : Ring} {t : State} (e : gatherTile s x1 x2 x3 = .ok t) (h : s.HomeWf) : t.HomeWf := by
  unfold gatherTile at e
  repeat' first
    | with_reducible assumption | cases e | split at e | dsimp only at e | with_reducible apply HomeWf.ite
    | (with_reducible refine engReads_keeps_ok (by assumption) ?_) | (with_reducible refine engReads_keepsF (by assumption) ?_)
    | (with_reducible refine engReads_keepsL (by assumption) ?_) | (with_reducible refine engReads_keeps_error (by assumption) ?_)
    | with_reducible apply State.noteEngines_keeps | with_reducible apply State.modCore_keeps | with_reducible apply State.bump_keeps
    | with_reducible apply State.forgetJob_keeps | with_reducible apply State.pushRing_keeps

theorem gatherTile_keeps_error {s : State} {x1 : Nat} {x2 : Stream} {x3 : Ring} {ea : EngAccess} (e : gatherTile s x1 x2 x3 = .error ea) (h : s.HomeWf) : ea.HomeWf := by
  unfold gatherTile at e
  repeat' first
    | with_reducible assumption | cases e | split at e | dsimp only at e | (with_reducible refine engReads_keeps_ok (by assumption) ?_)
    | (with_reducible refine engReads_keepsF (by assumption) ?_) | (with_reducible refine engReads_keepsL (by assumption) ?_)
    | (with_reducible refine engReads_keeps_error (by assumption) ?_)

theorem gatherTile_keepsF {s : State} {x1 : Nat} {x2 : Stream} {x3 : Ring}  {st : Stop} {t : State} (e : gatherTile s x1 x2 x3 = .error (.fault st t))
    (h : s.HomeWf) : t.HomeWf := gatherTile_keeps_error e h

theorem gatherTile_keepsL {s : State} {x1 : Nat} {x2 : Stream} {x3 : Ring} {t : State} (e : gatherTile s x1 x2 x3 = .error (.later t)) (h : s.HomeWf) : t.HomeWf := gatherTile_keeps_error e h

theorem cpycBody_keeps {s : State} {x1 : Chord} {x2 x3 : Nat} {x4 : Lane} {x5 : Vals} {v1 : LaneRes} {t : State} (e : cpycBody s x1 x2 x3 x4 x5 = some (v1, t))
    (h : s.HomeWf) : t.HomeWf := by
  unfold cpycBody at e
  repeat' first | with_reducible assumption | cases e

theorem execCpyc_keeps {x0 : Flds} {s : State} {t : State} (e : execCpyc x0 s = .next t) (h : s.HomeWf) : t.HomeWf := by
  unfold execCpyc at e
  repeat' first | with_reducible assumption | cases e | (with_reducible refine State.perform_keeps (fun _ _ _ _ _ _ _ _ e _ => ?_) ?_)

theorem engTargets_keeps_ok {x0 : Who} {x1 : Nat} {x2 : List ℤ} {s : State} {v1 : List (List Place)} {t : State} (e : engTargets x0 x1 x2 s = .ok (v1, t))
    (h : s.HomeWf) : t.HomeWf := by
  induction x2 generalizing x0 x1 s v1 t with
  | nil => unfold engTargets at e; (repeat' first
    | cases e | split at e | dsimp only at e | (rw [Option.map_eq_some_iff] at e; obtain ⟨_, e1, e⟩ := e)
    | (rw [Option.bind_eq_some_iff] at e; obtain ⟨_, e1, e⟩ := e)
    | (injection e with e)) <;> repeat' first | with_reducible assumption | with_reducible exact EngAccess.wf_wait | with_reducible apply EngAccess.wf_err | intro _ | with_reducible apply HomeWf.ite | with_reducible apply HomeWf.foldl | with_reducible apply HomeWf.foldl2 | with_reducible apply HomeWf.getD | with_reducible apply HomeWf.elim | with_reducible apply HomeWf.foldl1 | (with_reducible refine HomeWf.foldl2e (by assumption) ?_ ?_) | (with_reducible refine HomeWf.foldl1e (by assumption) ?_ ?_) | with_reducible apply engAccess_keepsE | (with_reducible refine engAccess_keeps_ok (by assumption) ?_) | (with_reducible refine engAccess_keeps_fault (by assumption) ?_) | (with_reducible refine engAccess_keeps_later (by assumption) ?_) | with_reducible apply EngAccess.wf_fault | with_reducible apply EngAccess.wf_later | (unfold State.HomeWf; dsimp only; with_reducible apply HomeWf.mem) | cases e | split at e | dsimp only at e | (rw [Option.map_eq_some_iff] at e; obtain ⟨_, e1, e⟩ := e) | (rw [Option.bind_eq_some_iff] at e; obtain ⟨_, e1, e⟩ := e) | (injection e with e) | cases e1 | split at e1 | dsimp only at e1 | (rw [Option.map_eq_some_iff] at e1; obtain ⟨_, e2, e1⟩ := e1) | (rw [Option.bind_eq_some_iff] at e1; obtain ⟨_, e2, e1⟩ := e1) | (rename_i e; rw [Option.map_eq_some_iff] at e; obtain ⟨_, e1, e⟩ := e) | (rename_i e; rw [Option.bind_eq_some_iff] at e; obtain ⟨_, e1, e⟩ := e) | split
  | cons _ _ ih => unfold engTargets at e; (repeat' first
    | cases e | split at e | dsimp only at e | (rw [Option.map_eq_some_iff] at e; obtain ⟨_, e1, e⟩ := e)
    | (rw [Option.bind_eq_some_iff] at e; obtain ⟨_, e1, e⟩ := e)
    | (injection e with e)) <;> repeat' first | with_reducible assumption | (with_reducible refine ih (by assumption) ?_) | with_reducible exact EngAccess.wf_wait | with_reducible apply EngAccess.wf_err | intro _ | with_reducible apply HomeWf.ite | with_reducible apply HomeWf.foldl | with_reducible apply HomeWf.foldl2 | with_reducible apply HomeWf.getD | with_reducible apply HomeWf.elim | with_reducible apply HomeWf.foldl1 | (with_reducible refine HomeWf.foldl2e (by assumption) ?_ ?_) | (with_reducible refine HomeWf.foldl1e (by assumption) ?_ ?_) | with_reducible apply engAccess_keepsE | (with_reducible refine engAccess_keeps_ok (by assumption) ?_) | (with_reducible refine engAccess_keeps_fault (by assumption) ?_) | (with_reducible refine engAccess_keeps_later (by assumption) ?_) | with_reducible apply EngAccess.wf_fault | with_reducible apply EngAccess.wf_later | (unfold State.HomeWf; dsimp only; with_reducible apply HomeWf.mem) | cases e | split at e | dsimp only at e | (rw [Option.map_eq_some_iff] at e; obtain ⟨_, e1, e⟩ := e) | (rw [Option.bind_eq_some_iff] at e; obtain ⟨_, e1, e⟩ := e) | (injection e with e) | cases e1 | split at e1 | dsimp only at e1 | (rw [Option.map_eq_some_iff] at e1; obtain ⟨_, e2, e1⟩ := e1) | (rw [Option.bind_eq_some_iff] at e1; obtain ⟨_, e2, e1⟩ := e1) | (rename_i e; rw [Option.map_eq_some_iff] at e; obtain ⟨_, e1, e⟩ := e) | (rename_i e; rw [Option.bind_eq_some_iff] at e; obtain ⟨_, e1, e⟩ := e) | split

theorem engTargets_keeps_error {w : Who} {n : Nat} {l : List Int} {s : State} {ea : EngAccess} (e : engTargets w n l s = .error ea) (h : s.HomeWf) : ea.HomeWf := by
  induction l generalizing s with
  | nil => unfold engTargets at e; cases e
  | cons va r ih =>
    unfold engTargets at e
    split at e
    · rename_i h1
      split at e
      · cases e
      · rename_i h2; injection e with e; subst e; exact ih h2 (engAccess_keeps_ok h1 h)
    · injection e with e; subst e; exact engAccess_keepsE h

theorem engTargets_keepsF {x0 : Who} {x1 : Nat} {x2 : List ℤ} {s : State}  {st : Stop} {t : State} (e : engTargets x0 x1 x2 s = .error (.fault st t))
    (h : s.HomeWf) : t.HomeWf := engTargets_keeps_error e h

theorem engTargets_keepsL {x0 : Who} {x1 : Nat} {x2 : List ℤ} {s : State} {t : State} (e : engTargets x0 x1 x2 s = .error (.later t)) (h : s.HomeWf) : t.HomeWf := engTargets_keeps_error e h

theorem scatterTile_keeps_ok {s : State} {x1 : Nat} {x2 : Stream} {x3 : Ring} {t : State} (e : scatterTile s x1 x2 x3 = .ok t) (h : s.HomeWf) : t.HomeWf := by
  unfold scatterTile at e
  repeat' first
    | with_reducible assumption | cases e | split at e | dsimp only at e | intro _ | with_reducible apply HomeWf.ite
    | with_reducible apply HomeWf.foldl | (with_reducible refine engTargets_keeps_ok (by assumption) ?_)
    | (with_reducible refine engTargets_keepsF (by assumption) ?_) | (with_reducible refine engTargets_keepsL (by assumption) ?_)
    | (with_reducible refine engTargets_keeps_error (by assumption) ?_) | with_reducible apply putPlaces_keeps
    | with_reducible apply State.noteEngines_keeps | with_reducible apply State.bump_keeps | with_reducible apply putBits_keeps | split

theorem scatterTile_keeps_error {s : State} {x1 : Nat} {x2 : Stream} {x3 : Ring} {ea : EngAccess} (e : scatterTile s x1 x2 x3 = .error ea)
    (h : s.HomeWf) : ea.HomeWf := by
  unfold scatterTile at e
  repeat' first
    | with_reducible assumption | with_reducible exact EngAccess.wf_wait | with_reducible apply EngAccess.wf_err | intro _
    | with_reducible apply HomeWf.ite | with_reducible apply HomeWf.foldl | with_reducible apply HomeWf.getD | with_reducible apply HomeWf.elim
    | (with_reducible refine engTargets_keeps_ok (by assumption) ?_) | (with_reducible refine engTargets_keepsF (by assumption) ?_)
    | (with_reducible refine engTargets_keepsL (by assumption) ?_) | (with_reducible refine engTargets_keeps_error (by assumption) ?_)
    | with_reducible apply putPlaces_keeps | with_reducible apply State.noteEngines_keeps | with_reducible apply State.bump_keeps
    | with_reducible apply putBits_keeps | with_reducible apply EngAccess.wf_fault | with_reducible apply EngAccess.wf_later | cases e
    | split at e | dsimp only at e

theorem scatterTile_keepsF {s : State} {x1 : Nat} {x2 : Stream} {x3 : Ring}  {st : Stop} {t : State} (e : scatterTile s x1 x2 x3 = .error (.fault st t))
    (h : s.HomeWf) : t.HomeWf := scatterTile_keeps_error e h

theorem scatterTile_keepsL {s : State} {x1 : Nat} {x2 : Stream} {x3 : Ring} {t : State} (e : scatterTile s x1 x2 x3 = .error (.later t)) (h : s.HomeWf) : t.HomeWf := scatterTile_keeps_error e h

theorem cpyqBody_keeps {s : State} {x1 : Chord} {x2 x3 : Nat} {x4 : Lane} {x5 : Vals} {v1 : LaneRes} {t : State} (e : cpyqBody s x1 x2 x3 x4 x5 = some (v1, t))
    (h : s.HomeWf) : t.HomeWf := by
  unfold cpyqBody at e
  repeat' first | with_reducible assumption | cases e

theorem strmcBody_keeps {x0 : Nat} {s : State} {x2 : Chord} {x3 x4 : Nat} {x5 : Lane} {x6 : Vals} {v1 : LaneRes} {t : State} (e : strmcBody x0 s x2 x3 x4 x5 x6 = some (v1, t))
    (h : s.HomeWf) : t.HomeWf := by
  unfold strmcBody at e
  repeat' first | with_reducible assumption | cases e | split at e

theorem execStrmc_keeps {x0 : Flds} {s : State} {t : State} (e : execStrmc x0 s = .next t) (h : s.HomeWf) : t.HomeWf := by
  unfold execStrmc at e
  repeat' first
    | with_reducible assumption | cases e | (with_reducible refine State.perform_keeps (fun _ _ _ _ _ _ _ _ e _ => ?_) ?_)
    | (with_reducible refine strmcBody_keeps (by assumption) ?_)

theorem rputBody_keeps {x0 : Nat} {s : State} {x2 : Chord} {x3 x4 : Nat} {x5 : Lane} {x6 : Vals} {v1 : LaneRes} {t : State} (e : rputBody x0 s x2 x3 x4 x5 x6 = some (v1, t))
    (h : s.HomeWf) : t.HomeWf := by
  unfold rputBody at e
  repeat' first | with_reducible assumption | cases e | split at e | dsimp only at e

theorem execRput_keeps {x0 : Flds} {s : State} {t : State} (e : execRput x0 s = .next t) (h : s.HomeWf) : t.HomeWf := by
  unfold execRput at e
  repeat' first
    | with_reducible assumption | cases e | (with_reducible refine State.perform_keeps (fun _ _ _ _ _ _ _ _ e _ => ?_) ?_)
    | (with_reducible refine rputBody_keeps (by assumption) ?_)

theorem State.copyStartStep_keeps {s : State} {x1 : Nat} (h : s.HomeWf) : (State.copyStartStep s x1).HomeWf := by
  unfold State.copyStartStep
  repeat' first
    | with_reducible assumption | with_reducible apply HomeWf.ite | with_reducible apply State.setCopyEngine_keeps
    | (unfold State.HomeWf; dsimp only; with_reducible apply HomeWf.mem) | cases e | split at e | split

theorem State.endStream_keeps {s : State} {x1 : Nat} {x2 : Stream} {x3 : Bool} {x4 : Bool} (h : s.HomeWf) : (State.endStream s x1 x2 x3 x4).HomeWf := by
  unfold State.endStream
  repeat' first
    | with_reducible assumption | with_reducible apply HomeWf.ite | with_reducible apply State.forget_keeps
    | with_reducible apply State.modCore_keeps | with_reducible apply State.engToken_keeps
    | (unfold State.HomeWf; dsimp only; with_reducible apply HomeWf.mem)

theorem State.cancelStream_keeps {s : State} {x1 x2 x3 : Nat} (h : s.HomeWf) : (State.cancelStream s x1 x2 x3).HomeWf := by
  unfold State.cancelStream
  repeat' first
    | with_reducible assumption | with_reducible apply HomeWf.ite | with_reducible apply State.endStream_keeps | cases e | split at e | split

theorem rbindWord_keeps {x0 : Nat} {s : State} {x2 : Chord} {x3 : Word} {v1 : LaneRes} {t : State} (e : rbindWord x0 s x2 x3 = (v1, t)) (h : s.HomeWf) : t.HomeWf := by
  unfold rbindWord at e
  repeat' first
    | with_reducible assumption | cases e | split at e | with_reducible apply State.afterChordEffs_keeps | with_reducible apply chordEff_keeps_st
    | (with_reducible refine chordEff_keeps (by assumption) ?_)

theorem rbindWord_keeps_st {x0 : Nat} {s : State} {x2 : Chord} {x3 : Word} (h : s.HomeWf) : (rbindWord x0 s x2 x3).2.HomeWf := by
  rcases e : rbindWord x0 s x2 x3 with ⟨a, b⟩; exact rbindWord_keeps e h

theorem rstatBody_keeps {x0 : Nat} {s : State} {x2 : Chord} {x3 x4 : Nat} {x5 : Lane} {x6 : Vals} {v1 : LaneRes} {t : State} (e : rstatBody x0 s x2 x3 x4 x5 x6 = some (v1, t))
    (h : s.HomeWf) : t.HomeWf := by
  unfold rstatBody at e
  repeat' first | with_reducible assumption | cases e | split at e

theorem execRstat_keeps {x0 : Flds} {s : State} {t : State} (e : execRstat x0 s = .next t) (h : s.HomeWf) : t.HomeWf := by
  unfold execRstat at e
  repeat' first
    | with_reducible assumption | cases e | (with_reducible refine State.perform_keeps (fun _ _ _ _ _ _ _ _ e _ => ?_) ?_)
    | (with_reducible refine rstatBody_keeps (by assumption) ?_)

theorem rbindBody_keeps {x0 : Nat} {s : State} {x2 : Chord} {x3 x4 : Nat} {x5 : Lane} {x6 : Vals} {v1 : LaneRes} {t : State} (e : rbindBody x0 s x2 x3 x4 x5 x6 = some (v1, t))
    (h : s.HomeWf) : t.HomeWf := by
  unfold rbindBody at e
  repeat' first
    | with_reducible assumption | cases e | split at e | dsimp only at e | (injection e with e)
    | (with_reducible refine State.check_keeps_ok (by assumption) ?_) | (with_reducible refine State.check_keeps_trap (by assumption) ?_)
    | (with_reducible refine State.seek_keeps_later (by assumption) ?_) | with_reducible apply awaitRead_keeps_st
    | (with_reducible refine awaitRead_keeps (by assumption) ?_) | with_reducible apply State.forgetJob_keeps
    | (with_reducible refine readPlaces_keeps (by assumption) ?_) | with_reducible apply rbindWord_keeps_st
    | (with_reducible refine rbindWord_keeps (by assumption) ?_) | with_reducible apply State.bump_keeps
    | (unfold State.HomeWf; dsimp only; with_reducible apply HomeWf.mem)

theorem execRbind_keeps {x0 : Flds} {s : State} {t : State} (e : execRbind x0 s = .next t) (h : s.HomeWf) : t.HomeWf := by
  unfold execRbind at e
  repeat' first
    | with_reducible assumption | cases e | (with_reducible refine State.perform_keeps (fun _ _ _ _ _ _ _ _ e _ => ?_) ?_)
    | (with_reducible refine rbindBody_keeps (by assumption) ?_)

theorem radvBody_keeps {x0 : Bool} {x1 : Nat} {s : State} {x3 : Chord} {x4 x5 : Nat} {x6 : Lane} {x7 : Vals} {v1 : LaneRes} {t : State} (e : radvBody x0 x1 s x3 x4 x5 x6 x7 = some (v1, t))
    (h : s.HomeWf) : t.HomeWf := by
  unfold radvBody at e
  repeat' first
    | with_reducible assumption | cases e | split at e | dsimp only at e | (injection e with e) | with_reducible apply chordEff_keeps_st
    | (with_reducible refine chordEff_keeps (by assumption) ?_)

theorem execRadv_keeps {x0 : Bool} {x1 : Flds} {s : State} {t : State} (e : execRadv x0 x1 s = .next t) (h : s.HomeWf) : t.HomeWf := by
  unfold execRadv at e
  repeat' first
    | with_reducible assumption | cases e | (with_reducible refine State.perform_keeps (fun _ _ _ _ _ _ _ _ e _ => ?_) ?_)
    | (with_reducible refine radvBody_keeps (by assumption) ?_)

theorem nextTile_keeps_ok {s : State} {x1 : Nat} {x2 : Stream} {x3 : Ring} {t : State} (e : nextTile s x1 x2 x3 = .ok t) (h : s.HomeWf) : t.HomeWf := by
  unfold nextTile at e
  repeat' first
    | with_reducible assumption | cases e | split at e | (with_reducible refine scatterTile_keeps_ok (by assumption) ?_)
    | (with_reducible refine scatterTile_keepsF (by assumption) ?_) | (with_reducible refine scatterTile_keepsL (by assumption) ?_)
    | (with_reducible refine scatterTile_keeps_error (by assumption) ?_) | (with_reducible refine gatherTile_keeps_ok (by assumption) ?_)

theorem nextTile_keeps_error {s : State} {x1 : Nat} {x2 : Stream} {x3 : Ring} {ea : EngAccess} (e : nextTile s x1 x2 x3 = .error ea) (h : s.HomeWf) : ea.HomeWf := by
  unfold nextTile at e
  repeat' first
    | with_reducible assumption | cases e | split at e | (with_reducible refine scatterTile_keeps_ok (by assumption) ?_)
    | (with_reducible refine scatterTile_keepsF (by assumption) ?_) | (with_reducible refine scatterTile_keepsL (by assumption) ?_)
    | (with_reducible refine scatterTile_keeps_error (by assumption) ?_) | (with_reducible refine gatherTile_keeps_ok (by assumption) ?_)
    | (with_reducible refine gatherTile_keepsF (by assumption) ?_) | (with_reducible refine gatherTile_keepsL (by assumption) ?_)
    | (with_reducible refine gatherTile_keeps_error (by assumption) ?_)

theorem nextTile_keepsF {s : State} {x1 : Nat} {x2 : Stream} {x3 : Ring}  {st : Stop} {t : State} (e : nextTile s x1 x2 x3 = .error (.fault st t))
    (h : s.HomeWf) : t.HomeWf := nextTile_keeps_error e h

theorem nextTile_keepsL {s : State} {x1 : Nat} {x2 : Stream} {x3 : Ring} {t : State} (e : nextTile s x1 x2 x3 = .error (.later t)) (h : s.HomeWf) : t.HomeWf := nextTile_keeps_error e h

theorem State.streamEndStep_keeps {s : State} {x1 x2 : Nat} (h : s.HomeWf) : (State.streamEndStep s x1 x2).HomeWf := by
  unfold State.streamEndStep
  repeat' first
    | with_reducible assumption | with_reducible apply HomeWf.ite | with_reducible apply State.endStream_keeps | cases e | split at e | split

theorem State.finishCopy_keeps {s : State} {x1 : Nat} {x2 : Copy} {x3 : Nat} (h : s.HomeWf) : (State.finishCopy s x1 x2 x3).HomeWf := by
  unfold State.finishCopy
  repeat' first
    | with_reducible assumption | with_reducible apply HomeWf.ite | with_reducible apply State.setCopyEngine_keeps
    | with_reducible apply State.endCopy_keeps

theorem State.cancelCopy_keeps {s : State} {x1 : BitVec 12} {x2 : Word} (h : s.HomeWf) : (State.cancelCopy s x1 x2).HomeWf := by
  unfold State.cancelCopy
  repeat' first
    | with_reducible assumption | with_reducible apply HomeWf.ite | with_reducible apply State.finishCopy_keeps
    | with_reducible apply State.endCopy_keeps | (unfold State.HomeWf; dsimp only; with_reducible apply HomeWf.mem) | cases e | split at e
    | split

theorem strmBody_keeps {x0 : Bool} {x1 : StreamWord} {x2 : Nat} {s : State} {x4 : Chord} {x5 x6 : Nat} {x7 : Lane} {x8 : Vals} {v1 : LaneRes}
    {t : State} (e : strmBody x0 x1 x2 s x4 x5 x6 x7 x8 = some (v1, t)) (h : s.HomeWf) : t.HomeWf := by
  unfold strmBody at e
  repeat' first
    | with_reducible assumption | cases e | split at e | dsimp only at e | (injection e with e) | with_reducible apply State.afterChordEffs_keeps
    | with_reducible apply chordEff_keeps_st | (with_reducible refine chordEff_keeps (by assumption) ?_)

theorem cpyBody_keeps {x0 : CopyWord} {s : State} {x2 : Chord} {x3 x4 : Nat} {x5 : Lane} {x6 : Vals} {v1 : LaneRes} {t : State} (e : cpyBody x0 s x2 x3 x4 x5 x6 = some (v1, t))
    (h : s.HomeWf) : t.HomeWf := by
  unfold cpyBody at e
  repeat' first | with_reducible assumption | cases e | split at e | with_reducible apply State.setCopyEngine_keeps

theorem State.copyMixed_keeps {s : State} {x1 : Chord} {x2 : CopyWord} {x3 : Flds} {x4 : List (Nat × Lane × Vals)} (h : s.HomeWf) :
    (State.copyMixed s x1 x2 x3 x4).HomeWf := by
  unfold State.copyMixed
  repeat' first
    | with_reducible assumption | with_reducible apply HomeWf.ite | with_reducible apply State.setFocus_keeps
    | (with_reducible refine cpyBody_keeps (by assumption) ?_) | (unfold State.HomeWf; dsimp only; with_reducible apply HomeWf.mem) | cases e
    | split at e | split

theorem execCpyq_keeps {x0 : Flds} {s : State} {t : State} (e : execCpyq x0 s = .next t) (h : s.HomeWf) : t.HomeWf := by
  unfold execCpyq at e
  repeat' first | with_reducible assumption | cases e | (with_reducible refine State.perform_keeps (fun _ _ _ _ _ _ _ _ e _ => ?_) ?_)

theorem State.lockCopy_keeps {s : State} {x1 : Nat} {x2 : Copy} (h : s.HomeWf) : (State.lockCopy s x1 x2).HomeWf := by
  unfold State.lockCopy
  repeat' first | with_reducible assumption | (unfold State.HomeWf; dsimp only; with_reducible apply HomeWf.mem)

theorem State.popTile_keeps {s : State} {x1 : Nat} {x2 : Stream} {x3 : Ring} (h : s.HomeWf) : (State.popTile s x1 x2 x3).HomeWf := by
  unfold State.popTile
  repeat' first
    | with_reducible assumption | with_reducible apply HomeWf.ite | with_reducible apply State.modCore_keeps
    | with_reducible apply State.popRing_keeps

theorem State.streamStep_keeps {s : State} {x1 x2 : Nat} (h : s.HomeWf) : (State.streamStep s x1 x2).HomeWf := by
  unfold State.streamStep
  repeat' first
    | with_reducible assumption | with_reducible apply HomeWf.ite | with_reducible apply State.popTile_keeps
    | (with_reducible refine nextTile_keeps_ok (by assumption) ?_) | (with_reducible refine nextTile_keepsF (by assumption) ?_)
    | (with_reducible refine nextTile_keepsL (by assumption) ?_) | (with_reducible refine nextTile_keeps_error (by assumption) ?_)
    | with_reducible apply State.modCore_keeps | with_reducible apply State.engFault_keeps | cases e | split at e | split

theorem execStreamTile_keeps {x0 : BitVec 8} {x1 : Nat} {s : State} {t : State} (e : execStreamTile x0 x1 s = .next t) (h : s.HomeWf) : t.HomeWf := by
  unfold execStreamTile at e
  repeat' first | with_reducible assumption | cases e | with_reducible apply State.streamStep_keeps

theorem execStrmw_keeps {x0 : StreamWord} {x1 : Flds} {s : State} {t : State} (e : execStrmw x0 x1 s = .next t) (h : s.HomeWf) : t.HomeWf := by
  unfold execStrmw at e
  repeat' first
    | with_reducible assumption | cases e | (with_reducible refine State.perform_keeps (fun _ _ _ _ _ _ _ _ e _ => ?_) ?_)
    | (with_reducible refine strmBody_keeps (by assumption) ?_)

theorem execStrm_keeps {x0 : StreamWord} {x1 : Flds} {s : State} {t : State} (e : execStrm x0 x1 s = .next t) (h : s.HomeWf) : t.HomeWf := by
  unfold execStrm at e
  repeat' first
    | with_reducible assumption | cases e | (with_reducible refine State.perform_keeps (fun _ _ _ _ _ _ _ _ e _ => ?_) ?_)
    | (with_reducible refine strmBody_keeps (by assumption) ?_)

theorem strmqBody_keeps {x0 : Nat} {s : State} {x2 : Chord} {x3 x4 : Nat} {x5 : Lane} {x6 : Vals} {v1 : LaneRes} {t : State} (e : strmqBody x0 s x2 x3 x4 x5 x6 = some (v1, t))
    (h : s.HomeWf) : t.HomeWf := by
  unfold strmqBody at e
  repeat' first | with_reducible assumption | cases e | split at e

theorem State.streamErrorStep_keeps {s : State} {x1 x2 : Nat} (h : s.HomeWf) : (State.streamErrorStep s x1 x2).HomeWf := by
  unfold State.streamErrorStep
  repeat' first
    | with_reducible assumption | with_reducible apply HomeWf.ite | (with_reducible refine nextTile_keeps_ok (by assumption) ?_)
    | (with_reducible refine nextTile_keepsF (by assumption) ?_) | (with_reducible refine nextTile_keepsL (by assumption) ?_)
    | (with_reducible refine nextTile_keeps_error (by assumption) ?_) | with_reducible apply State.failStream_keeps
    | with_reducible apply State.denyIf_keeps | cases e | split at e | split

theorem execStreamError_keeps {x0 : BitVec 8} {x1 : Nat} {s : State} {t : State} (e : execStreamError x0 x1 s = .next t) (h : s.HomeWf) : t.HomeWf := by
  unfold execStreamError at e
  repeat' first | with_reducible assumption | cases e | with_reducible apply State.streamErrorStep_keeps

theorem execStrmq_keeps {x0 : Flds} {s : State} {t : State} (e : execStrmq x0 s = .next t) (h : s.HomeWf) : t.HomeWf := by
  unfold execStrmq at e
  repeat' first
    | with_reducible assumption | cases e | (with_reducible refine State.perform_keeps (fun _ _ _ _ _ _ _ _ e _ => ?_) ?_)
    | (with_reducible refine strmqBody_keeps (by assumption) ?_)

theorem State.resendPieces_keeps {s : State} {x1 : Nat} {x2 : Copy} (h : s.HomeWf) : (State.resendPieces s x1 x2).HomeWf := by
  unfold State.resendPieces
  repeat' first | with_reducible assumption | (unfold State.HomeWf; dsimp only; with_reducible apply HomeWf.mem)

theorem execRunb_keeps {x0 : Flds} {s : State} {t : State} (e : execRunb x0 s = .next t) (h : s.HomeWf) : t.HomeWf := by
  unfold execRunb at e
  repeat' first
    | with_reducible assumption | cases e | (with_reducible refine State.perform_keeps (fun _ _ _ _ _ _ _ _ e _ => ?_) ?_)
    | (with_reducible refine runbBody_keeps (by assumption) ?_)

theorem rwaitBody_keeps {x0 : Bool} {x1 : TokenDest} {x2 : Nat} {s : State} {x4 : Chord} {x5 x6 : Nat} {x7 : Lane} {x8 : Vals} {v1 : LaneRes}
    {t : State} (e : rwaitBody x0 x1 x2 s x4 x5 x6 x7 x8 = some (v1, t)) (h : s.HomeWf) : t.HomeWf := by
  unfold rwaitBody at e
  repeat' first
    | with_reducible assumption | cases e | split at e | dsimp only at e | (injection e with e) | with_reducible apply chordEff_keeps_st
    | (with_reducible refine chordEff_keeps (by assumption) ?_)

theorem execRwait_keeps {x0 : Bool} {x1 : TokenDest} {x2 : Flds} {s : State} {t : State} (e : execRwait x0 x1 x2 s = .next t) (h : s.HomeWf) : t.HomeWf := by
  unfold execRwait at e
  repeat' first
    | with_reducible assumption | cases e | (with_reducible refine State.perform_keeps (fun _ _ _ _ _ _ _ _ e _ => ?_) ?_)
    | (with_reducible refine rwaitBody_keeps (by assumption) ?_)

theorem moveElems_keeps2 {e : Nat} {c : Copy} {fuel t : Nat} {s u : State} {n : Nat} {o : Option EngAccess} (hm : moveElems e c fuel t s = (u, n, o))
 (h : s.HomeWf) : u.HomeWf ∧ ∀ x, o = some x → x.HomeWf := by
  induction fuel generalizing t s with
  | zero => unfold moveElems at hm; cases hm; exact ⟨h, fun _ h => by cases h⟩
  | succ f ih =>
    unfold moveElems at hm
    dsimp only at hm
    split at hm
    · rename_i pl s1 h1
      have hs1 := State.forgetJob_keeps (x1 := { die := if e < 16 then 0 else 4, ctx := c.ctx, act := c.act, kind := 4, job := copyOwner e c.seq + 2 ^ 64 * t }) (engAccess_keeps_ok h1 h)
      split at hm
      · split at hm
        · injection hm with a b
          injection b with b d
          subst a; subst d
          exact ⟨hs1, fun x hx => by injection hx with hx; subst hx; trivial⟩
        · exact ih hm (State.bump_keeps (State.newId_keeps_st hs1))
      · split at hm
        · rename_i h2
          exact ih hm (putPlaces_keeps (State.bump_keeps (engAccess_keeps_ok h2 hs1)))
        · rename_i h2
          injection hm with a b
          injection b with b d
          subst a; subst d
          have := engAccess_keeps_fault h2 hs1
          exact ⟨this, fun x hx => by injection hx with hx; subst hx; exact this⟩
        · injection hm with a b
          injection b with b d
          subst a; subst d
          exact ⟨hs1, fun x hx => by injection hx with hx; subst hx; exact engAccess_keepsE hs1⟩
    · rename_i h2
      injection hm with a b
      injection b with b d
      subst a; subst d
      have := engAccess_keeps_fault h2 h
      exact ⟨this, fun x hx => by injection hx with hx; subst hx; exact this⟩
    · rename_i h2
      injection hm with a b
      injection b with b d
      subst a; subst d
      have := engAccess_keeps_later h2 h
      exact ⟨this, fun x hx => by injection hx with hx; subst hx; exact this⟩
    · injection hm with a b
      injection b with b d
      subst a; subst d
      exact ⟨h, fun x hx => by injection hx with hx; subst hx; exact engAccess_keepsE h⟩

theorem moveElems_keeps {e : Nat} {c : Copy} {fuel t : Nat} {s u : State} {n : Nat} {o : Option EngAccess} (hm : moveElems e c fuel t s = (u, n, o))
 (h : s.HomeWf) : u.HomeWf := (moveElems_keeps2 hm h).1

theorem moveElems_keeps_st {e : Nat} {c : Copy} {fuel t : Nat} {s : State} (h : s.HomeWf) : (moveElems e c fuel t s).1.HomeWf := by
  rcases hm : moveElems e c fuel t s with ⟨a, b, d⟩; exact moveElems_keeps hm h

theorem moveElems_keepsE {e : Nat} {c : Copy} {fuel t : Nat} {s u : State} {n : Nat} {x : EngAccess} (hm : moveElems e c fuel t s = (u, n, some x))
 (h : s.HomeWf) : x.HomeWf := (moveElems_keeps2 hm h).2 _ rfl

theorem moveElems_keepsL {e : Nat} {c : Copy} {fuel t : Nat} {s u v : State} {n : Nat} (hm : moveElems e c fuel t s = (u, n, some (.later v)))
 (h : s.HomeWf) : v.HomeWf := (moveElems_keeps2 hm h).2 _ rfl

theorem moveElems_keepsF {e : Nat} {c : Copy} {fuel t : Nat} {s u v : State} {n : Nat} {st : Stop} (hm : moveElems e c fuel t s = (u, n, some (.fault st v)))
 (h : s.HomeWf) : v.HomeWf := (moveElems_keeps2 hm h).2 _ rfl

theorem State.copyEndStep_keeps {s : State} {x1 : Nat} (h : s.HomeWf) : (State.copyEndStep s x1).HomeWf := by
  unfold State.copyEndStep
  repeat' first
    | with_reducible assumption | with_reducible apply HomeWf.ite | with_reducible apply State.finishCopy_keeps
    | with_reducible apply State.resendPieces_keeps | with_reducible apply moveElems_keeps_st
    | (with_reducible refine moveElems_keeps (by assumption) ?_) | with_reducible apply State.engFault_keeps
    | with_reducible apply State.setCopyEngine_keeps | with_reducible apply State.denyIf_keeps
    | (unfold State.HomeWf; dsimp only; with_reducible apply HomeWf.mem) | cases e | split at e | split

theorem execStreamEnd_keeps {x0 : BitVec 8} {x1 : Nat} {s : State} {t : State} (e : execStreamEnd x0 x1 s = .next t) (h : s.HomeWf) : t.HomeWf := by
  unfold execStreamEnd at e
  repeat' first | with_reducible assumption | cases e | with_reducible apply State.streamEndStep_keeps

theorem execCopyEnd_keeps {x0 : BitVec 5} {s : State} {t : State} (e : execCopyEnd x0 s = .next t) (h : s.HomeWf) : t.HomeWf := by
  unfold execCopyEnd at e
  repeat' first | with_reducible assumption | cases e | with_reducible apply State.copyEndStep_keeps

theorem execCpy_keeps {x0 : CopyWord} {x1 : Flds} {s : State} {t : State} (e : execCpy x0 x1 s = .next t) (h : s.HomeWf) : t.HomeWf := by
  unfold execCpy at e
  repeat' first
    | with_reducible assumption | cases e | split at e | with_reducible apply State.copyMixed_keeps
    | (with_reducible refine State.perform_keeps (fun _ _ _ _ _ _ _ _ e _ => ?_) ?_) | (with_reducible refine cpyBody_keeps (by assumption) ?_)

theorem execCopyStart_keeps {x0 : BitVec 5} {s : State} {t : State} (e : execCopyStart x0 s = .next t) (h : s.HomeWf) : t.HomeWf := by
  unfold execCopyStart at e
  repeat' first | with_reducible assumption | cases e | with_reducible apply State.copyStartStep_keeps

theorem State.queueCopy_keeps {s : State} {x1 : Nat} {x2 : Copy} {t : State} (e : State.queueCopy s x1 x2 = some t) (h : s.HomeWf) : t.HomeWf := by
  unfold State.queueCopy at e
  repeat' first | with_reducible assumption | cases e | split at e | dsimp only at e | with_reducible apply State.setCopyEngine_keeps

/-- The form, of what a memory check answers. -/
def Checked.HomeWf : Checked → Prop
  | .ok _ s => s.HomeWf
  | .trap _ s => s.HomeWf
  | .wait => True

theorem checkAll_keepsC {core : Nat} {w : Who} {k : AccKind} {l : List (Word × Nat)} {s0 : State} (h0 : s0.HomeWf) : (checkAll core w k l s0).HomeWf := by
  unfold checkAll
  suffices H : ∀ (l : List (Word × Nat)) (a : Checked), a.HomeWf → (l.foldl (fun acc p => match acc with
    | .wait => .wait
    | .ok pl s => match s.check core w p.1 p.2 1 k true false with
      | .ok pl' s => .ok (pl ++ pl') s
      | r => r
    | .trap t s' => match s0.check core w p.1 p.2 1 k true false with
      | .trap t' s'' => if causeRank t' < causeRank t then .trap t' s'' else .trap t s'
      | _ => .trap t s') a).HomeWf from H l _ h0
  intro l
  induction l with
  | nil => intro a h; exact h
  | cons p r ih =>
    intro a h
    refine ih _ ?_
    cases a with
    | wait => exact trivial
    | ok pl s =>
      dsimp only
      cases e : s.check core w p.1 p.2 1 k true false with
      | wait => exact trivial
      | ok pl' s' => exact State.check_keeps_ok e h
      | trap t s' => exact State.check_keeps_trap e h
    | trap t s =>
      dsimp only
      cases e : s0.check core w p.1 p.2 1 k true false with
      | wait => exact h
      | ok pl' s' => exact h
      | trap t' s' => dsimp only; split
                      · exact State.check_keeps_trap e h0
                      · exact h

theorem checkAll_keeps_ok {core : Nat} {w : Who} {k : AccKind} {l : List (Word × Nat)} {s : State} {pl : List Place} {t : State}
 (e : checkAll core w k l s = .ok pl t) (h : s.HomeWf) : t.HomeWf := by
  have := checkAll_keepsC (core := core) (w := w) (k := k) (l := l) h; rw [e] at this; exact this

theorem checkAll_keeps_trap {core : Nat} {w : Who} {k : AccKind} {l : List (Word × Nat)} {s : State} {tr : Trap} {t : State}
 (e : checkAll core w k l s = .trap tr t) (h : s.HomeWf) : t.HomeWf := by
  have := checkAll_keepsC (core := core) (w := w) (k := k) (l := l) h; rw [e] at this; exact this

theorem afterCheck_keeps {s : State} {x1 : Chord} {x2 : Who} {x3 : AccKind} {x4 : List (Word × Nat)} {x5 : List Place → Eff} {v1 : LaneRes}
    {t : State} (e : afterCheck s x1 x2 x3 x4 x5 = some (v1, t)) (h : s.HomeWf) : t.HomeWf := by
  unfold afterCheck at e
  repeat' first
    | with_reducible assumption | cases e | split at e | dsimp only at e | (injection e with e)
    | (with_reducible refine checkAll_keeps_ok (by assumption) ?_) | (with_reducible refine checkAll_keeps_trap (by assumption) ?_)
    | with_reducible apply chordEff_keeps_st | (with_reducible refine chordEff_keeps (by assumption) ?_)

theorem mxstBody_keeps {w : EpiWord} {a : Nat} {s : State} {ch : Chord} {i l : Nat} {x : Lane} {v : Vals} {res : LaneRes} {t : State}
 (e : mxstBody w a s ch i l x v = some (res, t)) (h : s.HomeWf) : t.HomeWf := by
  unfold mxstBody at e
  split at e
  · cases e; exact h
  · dsimp only at e
    split at e
    · cases e; exact h
    · split at e
      · cases e; exact h
      · split at e
        · cases e
        · rename_i h1; cases e; exact checkAll_keeps_trap h1 h
        · rename_i h1; exact afterCheck_keeps e (checkAll_keeps_ok h1 h)

theorem mxstatBody_keeps {x0 : Nat} {s : State} {x2 : Chord} {x3 x4 : Nat} {x5 : Lane} {x6 : Vals} {v1 : LaneRes} {t : State} (e : mxstatBody x0 s x2 x3 x4 x5 x6 = some (v1, t))
    (h : s.HomeWf) : t.HomeWf := by
  unfold mxstatBody at e
  repeat' first | with_reducible assumption | cases e | split at e | dsimp only at e

theorem execMxstat_keeps {x0 : BitVec 2} {x1 : Flds} {s : State} {t : State} (e : execMxstat x0 x1 s = .next t) (h : s.HomeWf) : t.HomeWf := by
  unfold execMxstat at e
  repeat' first
    | with_reducible assumption | cases e | (with_reducible refine State.perform_keeps (fun _ _ _ _ _ _ _ _ e _ => ?_) ?_)
    | (with_reducible refine mxstatBody_keeps (by assumption) ?_)

theorem mxmuteBody_keeps {x0 : Nat} {s : State} {x2 : Chord} {x3 x4 : Nat} {x5 : Lane} {x6 : Vals} {v1 : LaneRes} {t : State} (e : mxmuteBody x0 s x2 x3 x4 x5 x6 = some (v1, t))
    (h : s.HomeWf) : t.HomeWf := by
  unfold mxmuteBody at e
  repeat' first
    | with_reducible assumption | cases e | split at e | dsimp only at e | (injection e with e) | with_reducible apply chordEff_keeps_st
    | (with_reducible refine chordEff_keeps (by assumption) ?_)

theorem execMxmute_keeps {x0 : BitVec 2} {x1 : Flds} {s : State} {t : State} (e : execMxmute x0 x1 s = .next t) (h : s.HomeWf) : t.HomeWf := by
  unfold execMxmute at e
  repeat' first
    | with_reducible assumption | cases e | (with_reducible refine State.perform_keeps (fun _ _ _ _ _ _ _ _ e _ => ?_) ?_)
    | (with_reducible refine mxmuteBody_keeps (by assumption) ?_)

theorem State.mxToken_keeps {s : State} {x1 : Nat} {x2 : CtlWord} {x3 : BitVec 32} {x4 : BitVec 32} {x5 : Bool} {x6 : Bool} {x7 : Bool} (h : s.HomeWf) :
    (State.mxToken s x1 x2 x3 x4 x5 x6 x7).HomeWf := by
  unfold State.mxToken
  repeat' first | with_reducible assumption | with_reducible apply HomeWf.ite | with_reducible apply State.engToken_keeps

theorem State.failFiring_keeps {s : State} {x1 : Nat} {x2 : MxOp} {x3 : Trap} {x4 : BitVec 32} (h : s.HomeWf) : (State.failFiring s x1 x2 x3 x4).HomeWf := by
  unfold State.failFiring
  repeat' first
    | with_reducible assumption | with_reducible apply HomeWf.ite | with_reducible apply State.modCore_keeps
    | with_reducible apply State.sendTrap_keeps | with_reducible apply State.mxToken_keeps
    | (unfold State.HomeWf; dsimp only; with_reducible apply HomeWf.mem) | cases e | split at e | split

theorem State.drainStart_keeps {s : State} {x1 : Nat} (h : s.HomeWf) : (State.drainStart s x1).HomeWf := by
  unfold State.drainStart
  repeat' first
    | with_reducible assumption | with_reducible apply HomeWf.ite | with_reducible apply State.modCore_keeps
    | with_reducible apply engAccess_keepsE | (with_reducible refine engAccess_keeps_ok (by assumption) ?_)
    | (with_reducible refine engAccess_keeps_fault (by assumption) ?_) | (with_reducible refine engAccess_keeps_later (by assumption) ?_)
    | with_reducible apply State.bump_keeps | with_reducible apply State.forgetJob_keeps | with_reducible apply State.engFault_keeps
    | with_reducible apply State.failFiring_keeps | with_reducible apply State.denyIf_keeps
    | (unfold State.HomeWf; dsimp only; with_reducible apply HomeWf.mem) | cases e | split at e | split

theorem execDrainStart_keeps {x0 : BitVec 8} {s : State} {t : State} (e : execDrainStart x0 s = .next t) (h : s.HomeWf) : t.HomeWf := by
  unfold execDrainStart at e
  repeat' first | with_reducible assumption | cases e | with_reducible apply State.drainStart_keeps

theorem State.firingStart_keeps {s : State} {x1 : Nat} (h : s.HomeWf) : (State.firingStart s x1).HomeWf := by
  unfold State.firingStart
  repeat' first
    | with_reducible assumption | with_reducible apply HomeWf.ite | with_reducible apply State.modCore_keeps
    | with_reducible apply State.failFiring_keeps | (unfold State.HomeWf; dsimp only; with_reducible apply HomeWf.mem) | cases e | split at e
    | split

theorem execFiringStart_keeps {x0 : BitVec 8} {s : State} {t : State} (e : execFiringStart x0 s = .next t) (h : s.HomeWf) : t.HomeWf := by
  unfold execFiringStart at e
  repeat' first | with_reducible assumption | cases e | with_reducible apply State.firingStart_keeps

theorem withBytes_keeps {s : State} {w : Who} {a : Word} {pl : List Place} {k : List Byte → State → Option (LaneRes × State)} {v : LaneRes}
    {t : State}
 (hk : ∀ b u v t, k b u = some (v, t) → u.HomeWf → t.HomeWf) (e : withBytes s w a pl k = some (v, t)) (h : s.HomeWf) : t.HomeWf := by
  unfold withBytes at e
  split at e
  · rename_i h1
    simp only [Option.some.injEq] at e
    exact awaitRead_keeps e (State.seek_keeps_later h1 h)
  · simp only [Option.some.injEq, Prod.mk.injEq] at e
    obtain ⟨_, rfl⟩ := e
    exact State.forgetJob_keeps h
  · split at e
    · simp only [Option.some.injEq, Prod.mk.injEq] at e
      obtain ⟨_, rfl⟩ := e
      exact State.forgetJob_keeps h
    · exact hk _ _ _ _ e (State.bump_keeps (State.enterPlaces_keeps h))

theorem mxrestBody_keeps {x0 : Nat} {s : State} {x2 : Chord} {x3 x4 : Nat} {x5 : Lane} {x6 : Vals} {v1 : LaneRes} {t : State} (e : mxrestBody x0 s x2 x3 x4 x5 x6 = some (v1, t))
    (h : s.HomeWf) : t.HomeWf := by
  unfold mxrestBody at e
  repeat' first
    | with_reducible assumption | with_reducible exact EngAccess.wf_wait | with_reducible apply EngAccess.wf_err | intro _
    | with_reducible apply HomeWf.ite | with_reducible apply HomeWf.foldl | with_reducible apply HomeWf.getD | with_reducible apply HomeWf.elim
    | (with_reducible refine State.check_keeps_ok (by assumption) ?_) | (with_reducible refine State.check_keeps_trap (by assumption) ?_)
    | (refine withBytes_keeps (fun _ _ _ _ e _ => ?_) (by assumption) ?_) | with_reducible apply State.forgetJob_keeps
    | with_reducible apply chordEff_keeps_st | (with_reducible refine chordEff_keeps (by assumption) ?_)
    | with_reducible apply EngAccess.wf_fault | with_reducible apply EngAccess.wf_later | cases e | split at e | dsimp only at e
    | (injection e with e)

theorem execMxrest_keeps {x0 : BitVec 2} {x1 : Flds} {s : State} {t : State} (e : execMxrest x0 x1 s = .next t) (h : s.HomeWf) : t.HomeWf := by
  unfold execMxrest at e
  repeat' first
    | with_reducible assumption | cases e | (with_reducible refine State.perform_keeps (fun _ _ _ _ _ _ _ _ e _ => ?_) ?_)
    | (with_reducible refine mxrestBody_keeps (by assumption) ?_)

theorem mxbindBody_keeps {x0 : Nat} {x1 : CtlWord} {x2 x3 x4 : Nat} {s : State} {x6 : Chord} {x7 x8 : Nat} {x9 : Lane} {x10 : Vals} {v1 : LaneRes}
    {t : State} (e : mxbindBody x0 x1 x2 x3 x4 s x6 x7 x8 x9 x10 = some (v1, t)) (h : s.HomeWf) : t.HomeWf := by
  unfold mxbindBody at e
  repeat' first
    | with_reducible assumption | cases e | split at e | dsimp only at e | (injection e with e) | with_reducible apply chordEff_keeps_st
    | (with_reducible refine chordEff_keeps (by assumption) ?_)

theorem State.drainEnd_keeps {s : State} {x1 : Nat} (h : s.HomeWf) : (State.drainEnd s x1).HomeWf := by
  unfold State.drainEnd
  repeat' first
    | with_reducible assumption | with_reducible apply HomeWf.ite | with_reducible apply State.modCore_keeps
    | with_reducible apply State.epiPush_keeps | (unfold State.HomeWf; dsimp only; with_reducible apply HomeWf.mem) | cases e | split at e
    | split

theorem mxsaveBody_keeps {n : Nat} {s : State} {ch : Chord} {i l : Nat} {x : Lane} {v : Vals} {res : LaneRes} {t : State}
 (e : mxsaveBody n s ch i l x v = some (res, t)) (h : s.HomeWf) : t.HomeWf := by
  unfold mxsaveBody at e
  split at e
  · cases e; exact h
  · dsimp only at e
    split at e
    · cases e; exact h
    · split at e
      · simp only [Option.some.injEq, Prod.mk.injEq] at e; obtain ⟨_, rfl⟩ := e; exact h
      · exact afterCheck_keeps e h

theorem execMxst_keeps {x0 : EpiWord} {x1 : Flds} {s : State} {t : State} (e : execMxst x0 x1 s = .next t) (h : s.HomeWf) : t.HomeWf := by
  unfold execMxst at e
  repeat' first
    | with_reducible assumption | cases e | (with_reducible refine State.perform_keeps (fun _ _ _ _ _ _ _ _ e _ => ?_) ?_)
    | (with_reducible refine mxstBody_keeps (by assumption) ?_)

theorem mxldBody_keeps {x0 : Nat} {s : State} {x2 : Chord} {x3 x4 : Nat} {x5 : Lane} {x6 : Vals} {v1 : LaneRes} {t : State} (e : mxldBody x0 s x2 x3 x4 x5 x6 = some (v1, t))
    (h : s.HomeWf) : t.HomeWf := by
  unfold mxldBody at e
  repeat' first | with_reducible assumption | cases e | split at e | dsimp only at e | (with_reducible refine afterCheck_keeps (by assumption) ?_)

theorem mxzBody_keeps {x0 : Nat} {s : State} {x2 : Chord} {x3 x4 : Nat} {x5 : Lane} {x6 : Vals} {v1 : LaneRes} {t : State} (e : mxzBody x0 s x2 x3 x4 x5 x6 = some (v1, t))
    (h : s.HomeWf) : t.HomeWf := by
  unfold mxzBody at e
  repeat' first
    | with_reducible assumption | cases e | split at e | dsimp only at e | (injection e with e) | with_reducible apply chordEff_keeps_st
    | (with_reducible refine chordEff_keeps (by assumption) ?_)

theorem execDrainEnd_keeps {x0 : BitVec 8} {s : State} {t : State} (e : execDrainEnd x0 s = .next t) (h : s.HomeWf) : t.HomeWf := by
  unfold execDrainEnd at e
  repeat' first | with_reducible assumption | cases e | with_reducible apply State.drainEnd_keeps

theorem execMxld_keeps {x0 : Flds} {s : State} {t : State} (e : execMxld x0 s = .next t) (h : s.HomeWf) : t.HomeWf := by
  unfold execMxld at e
  repeat' first
    | with_reducible assumption | cases e | (with_reducible refine State.perform_keeps (fun _ _ _ _ _ _ _ _ e _ => ?_) ?_)
    | (with_reducible refine mxldBody_keeps (by assumption) ?_)

theorem mxfireBody_keeps {x0 : CtlWord} {x1 x2 x3 : Nat} {s : State} {x5 : Chord} {x6 x7 : Nat} {x8 : Lane} {x9 : Vals} {v1 : LaneRes} {t : State}
    (e : mxfireBody x0 x1 x2 x3 s x5 x6 x7 x8 x9 = some (v1, t)) (h : s.HomeWf) : t.HomeWf := by
  unfold mxfireBody at e
  repeat' first
    | with_reducible assumption | cases e | split at e | dsimp only at e | (injection e with e) | with_reducible apply chordEff_keeps_st
    | (with_reducible refine chordEff_keeps (by assumption) ?_)

theorem execMxfire_keeps {x0 : CtlWord} {x1 : Flds} {s : State} {t : State} (e : execMxfire x0 x1 s = .next t) (h : s.HomeWf) : t.HomeWf := by
  unfold execMxfire at e
  repeat' first
    | with_reducible assumption | cases e | (with_reducible refine State.perform_keeps (fun _ _ _ _ _ _ _ _ e _ => ?_) ?_)
    | (with_reducible refine mxfireBody_keeps (by assumption) ?_)

theorem mxunbBody_keeps {x0 : Nat} {s : State} {x2 : Chord} {x3 x4 : Nat} {x5 : Lane} {x6 : Vals} {v1 : LaneRes} {t : State} (e : mxunbBody x0 s x2 x3 x4 x5 x6 = some (v1, t))
    (h : s.HomeWf) : t.HomeWf := by
  unfold mxunbBody at e
  repeat' first
    | with_reducible assumption | cases e | split at e | dsimp only at e | (injection e with e) | with_reducible apply chordEff_keeps_st
    | (with_reducible refine chordEff_keeps (by assumption) ?_)

theorem execMxunb_keeps {x0 : BitVec 2} {x1 : Flds} {s : State} {t : State} (e : execMxunb x0 x1 s = .next t) (h : s.HomeWf) : t.HomeWf := by
  unfold execMxunb at e
  repeat' first
    | with_reducible assumption | cases e | (with_reducible refine State.perform_keeps (fun _ _ _ _ _ _ _ _ e _ => ?_) ?_)
    | (with_reducible refine mxunbBody_keeps (by assumption) ?_)

theorem State.firingRetire_keeps {s : State} {x1 : Nat} (h : s.HomeWf) : (State.firingRetire s x1).HomeWf := by
  unfold State.firingRetire
  repeat' first
    | with_reducible assumption | intro _ | with_reducible apply HomeWf.ite | with_reducible apply HomeWf.foldl
    | with_reducible apply State.modCore_keeps | with_reducible apply State.popRing_keeps | with_reducible apply State.mxToken_keeps
    | (unfold State.HomeWf; dsimp only; with_reducible apply HomeWf.mem) | cases e | split at e | split

theorem execFiringRetire_keeps {x0 : BitVec 8} {s : State} {t : State} (e : execFiringRetire x0 s = .next t) (h : s.HomeWf) : t.HomeWf := by
  unfold execFiringRetire at e
  repeat' first | with_reducible assumption | cases e | with_reducible apply State.firingRetire_keeps

theorem execMxsave_keeps {x0 : BitVec 2} {x1 : Flds} {s : State} {t : State} (e : execMxsave x0 x1 s = .next t) (h : s.HomeWf) : t.HomeWf := by
  unfold execMxsave at e
  repeat' first
    | with_reducible assumption | cases e | (with_reducible refine State.perform_keeps (fun _ _ _ _ _ _ _ _ e _ => ?_) ?_)
    | (with_reducible refine mxsaveBody_keeps (by assumption) ?_)

theorem execStageComplete_keeps {x0 : BitVec 8} {x1 : BitVec 3} {x2 : BitVec 5} {s : State} {t : State} (e : execStageComplete x0 x1 x2 s = .next t)
    (h : s.HomeWf) : t.HomeWf := by
  unfold execStageComplete at e
  repeat' first | with_reducible assumption | with_reducible apply HomeWf.ite | with_reducible apply State.modCore_keeps | cases e

theorem execMxz_keeps {x0 : Flds} {s : State} {t : State} (e : execMxz x0 s = .next t) (h : s.HomeWf) : t.HomeWf := by
  unfold execMxz at e
  repeat' first
    | with_reducible assumption | cases e | (with_reducible refine State.perform_keeps (fun _ _ _ _ _ _ _ _ e _ => ?_) ?_)
    | (with_reducible refine mxzBody_keeps (by assumption) ?_)

theorem execMxbind_keeps {x0 : BitVec 2} {x1 : CtlWord} {x2 : Flds} {s : State} {t : State} (e : execMxbind x0 x1 x2 s = .next t) (h : s.HomeWf) : t.HomeWf := by
  unfold execMxbind at e
  repeat' first
    | with_reducible assumption | cases e | (with_reducible refine State.perform_keeps (fun _ _ _ _ _ _ _ _ e _ => ?_) ?_)
    | (with_reducible refine mxbindBody_keeps (by assumption) ?_)

theorem State.mutePass_keeps {s : State} {x1 x2 : Nat} (h : s.HomeWf) : (State.mutePass s x1 x2).HomeWf := by
  unfold State.mutePass
  repeat' first
    | with_reducible assumption | with_reducible apply HomeWf.ite | with_reducible apply State.modCore_keeps
    | with_reducible apply State.mxToken_keeps | (unfold State.HomeWf; dsimp only; with_reducible apply HomeWf.mem) | cases e | split at e
    | split

theorem execMutePassed_keeps {x0 : BitVec 8} {x1 : BitVec 2} {s : State} {t : State} (e : execMutePassed x0 x1 s = .next t) (h : s.HomeWf) : t.HomeWf := by
  unfold execMutePassed at e
  repeat' first | with_reducible assumption | cases e | with_reducible apply State.mutePass_keeps

theorem State.resave_keeps {x0 : SymReq} {x1 : List (Nat × Nat)} {s : State} (h : s.HomeWf) : (State.resave x0 x1 s).HomeWf := by
  unfold State.resave
  repeat' first | with_reducible assumption | with_reducible apply State.modCtx_keeps

theorem tilesOk_keeps_ok {s : State} {x1 : Chord} {x2 : Nat} {x3 : Lane} {x4 : AccKind} {x5 : List TileLoc} {pl : List Place} {t : State} (e : tilesOk s x1 x2 x3 x4 x5 = .ok pl t)
    (h : s.HomeWf) : t.HomeWf := by
  unfold tilesOk at e
  repeat' first | with_reducible assumption | (with_reducible refine checkAll_keeps_ok (by assumption) ?_)

theorem tilesOk_keeps_trap {s : State} {x1 : Chord} {x2 : Nat} {x3 : Lane} {x4 : AccKind} {x5 : List TileLoc} {tr : Trap} {t : State} (e : tilesOk s x1 x2 x3 x4 x5 = .trap tr t)
    (h : s.HomeWf) : t.HomeWf := by
  unfold tilesOk at e
  repeat' first
    | with_reducible assumption | (with_reducible refine checkAll_keeps_ok (by assumption) ?_)
    | (with_reducible refine checkAll_keeps_trap (by assumption) ?_)

theorem symEffect_keeps {s : State} {x1 : Chord} {x2 : Nat} {x3 : Lane} {x4 : AccKind} {x5 : List TileLoc} {x6 : Eff} {v1 : LaneRes} {t : State}
    (e : symEffect s x1 x2 x3 x4 x5 x6 = some (v1, t)) (h : s.HomeWf) : t.HomeWf := by
  unfold symEffect at e
  repeat' first
    | with_reducible assumption | cases e | split at e | (with_reducible refine tilesOk_keeps_ok (by assumption) ?_)
    | (with_reducible refine tilesOk_keeps_trap (by assumption) ?_)

theorem sympBody_keeps {x0 : StoreWord} {s : State} {x2 : Chord} {x3 x4 : Nat} {x5 : Lane} {x6 : Vals} {v1 : LaneRes} {t : State} (e : sympBody x0 s x2 x3 x4 x5 x6 = some (v1, t))
    (h : s.HomeWf) : t.HomeWf := by
  unfold sympBody at e
  repeat' first | with_reducible assumption | cases e | split at e | (with_reducible refine symEffect_keeps (by assumption) ?_)

theorem execSymp_keeps {x0 : StoreWord} {x1 : Flds} {s : State} {t : State} (e : execSymp x0 x1 s = .next t) (h : s.HomeWf) : t.HomeWf := by
  unfold execSymp at e
  repeat' first
    | with_reducible assumption | cases e | (with_reducible refine State.perform_keeps (fun _ _ _ _ _ _ _ _ e _ => ?_) ?_)
    | (with_reducible refine sympBody_keeps (by assumption) ?_)

theorem State.setSyms_keeps {s : State} {x1 : List SymReq} (h : s.HomeWf) : (State.setSyms s x1).HomeWf := by
  unfold State.setSyms
  repeat' first | with_reducible assumption | (unfold State.HomeWf; dsimp only; with_reducible apply HomeWf.mem)

theorem State.endSym_keeps {s : State} {x1 : Nat} {x2 : SymReq} (h : s.HomeWf) : (State.endSym s x1 x2).HomeWf := by
  unfold State.endSym
  repeat' first
    | with_reducible assumption | with_reducible apply State.forget_keeps | with_reducible apply State.setSyms_keeps
    | (unfold State.HomeWf; dsimp only; with_reducible apply HomeWf.mem)

theorem State.symOutcome_keeps {s : State} {x1 : SymReq} {x2 : BitVec 20} {x3 : BitVec 4} {x4 : Word} (h : s.HomeWf) : (State.symOutcome s x1 x2 x3 x4).HomeWf := by
  unfold State.symOutcome
  repeat' first
    | with_reducible assumption | intro _ | with_reducible apply HomeWf.ite | with_reducible apply HomeWf.foldl
    | with_reducible apply State.sendToken_keeps

theorem State.addAway_keeps {s : State} {x1 : Who} {x2 : BitVec 12} {x3 : Nat} {x4 : BitVec 8} {x5 : Bool} {x6 : Word} (h : s.HomeWf) :
    (State.addAway s x1 x2 x3 x4 x5 x6).HomeWf := by
  unfold State.addAway
  repeat' first
    | with_reducible assumption | with_reducible apply State.newId_keeps_st | (with_reducible refine State.newId_keeps (by assumption) ?_)
    | with_reducible apply State.sendAccess_keeps

theorem State.symCount_keeps {s : State} {x1 : Who} {x2 : Counter} {x3 : Nat} {x4 : Word} (h : s.HomeWf) : (State.symCount s x1 x2 x3 x4).HomeWf := by
  unfold State.symCount
  repeat' first
    | with_reducible assumption | with_reducible apply HomeWf.ite | with_reducible apply State.fillXlt_keeps
    | with_reducible apply State.denyIf_keeps | with_reducible apply State.addAway_keeps | with_reducible apply putPlaces_keeps
    | (unfold State.HomeWf; dsimp only; with_reducible apply HomeWf.mem) | cases e | split at e | split

theorem State.symLog_keeps {s : State} {x1 : SymReq} {x2 : List Nat} (h : s.HomeWf) : (State.symLog s x1 x2).HomeWf := by
  unfold State.symLog
  repeat' first | with_reducible assumption | with_reducible apply State.logChoice_keeps

theorem readTile_keeps_ok {s : State} {x1 : Nat} {x2 : Who} {x3 : TileLoc} {v1 : Tile} {t : State} (e : readTile s x1 x2 x3 = .ok (v1, t))
    (h : s.HomeWf) : t.HomeWf := by
  unfold readTile at e
  repeat' first
    | with_reducible assumption | cases e | split at e | dsimp only at e | (with_reducible refine engReads_keeps_ok (by assumption) ?_)
    | (with_reducible refine engReads_keepsF (by assumption) ?_) | (with_reducible refine engReads_keepsL (by assumption) ?_)
    | (with_reducible refine engReads_keeps_error (by assumption) ?_) | with_reducible apply State.bump_keeps

theorem readTile_keeps_error {s : State} {x1 : Nat} {x2 : Who} {x3 : TileLoc} {ea : EngAccess} (e : readTile s x1 x2 x3 = .error ea) (h : s.HomeWf) : ea.HomeWf := by
  unfold readTile at e
  repeat' first
    | with_reducible assumption | with_reducible exact EngAccess.wf_wait | with_reducible apply EngAccess.wf_err | intro _
    | with_reducible apply HomeWf.ite | with_reducible apply HomeWf.foldl | with_reducible apply HomeWf.getD | with_reducible apply HomeWf.elim
    | (with_reducible refine engReads_keeps_ok (by assumption) ?_) | (with_reducible refine engReads_keepsF (by assumption) ?_)
    | (with_reducible refine engReads_keepsL (by assumption) ?_) | (with_reducible refine engReads_keeps_error (by assumption) ?_)
    | with_reducible apply State.bump_keeps | with_reducible apply EngAccess.wf_fault | with_reducible apply EngAccess.wf_later | cases e
    | split at e | dsimp only at e

theorem readTile_keepsF {s : State} {x1 : Nat} {x2 : Who} {x3 : TileLoc}  {st : Stop} {t : State} (e : readTile s x1 x2 x3 = .error (.fault st t))
    (h : s.HomeWf) : t.HomeWf := readTile_keeps_error e h

theorem readTile_keepsL {s : State} {x1 : Nat} {x2 : Who} {x3 : TileLoc} {t : State} (e : readTile s x1 x2 x3 = .error (.later t)) (h : s.HomeWf) : t.HomeWf := readTile_keeps_error e h

theorem State.symStopped_keeps {s : State} {n : Nat} {q : SymReq} {e : EngAccess} (he : e.HomeWf) (h : s.HomeWf) : (s.symStopped n q e).HomeWf := by
  unfold State.symStopped
  split
  · exact State.engFault_keeps (State.setSyms_keeps he)
  · exact he
  · exact State.sendTrap_keeps (State.endSym_keeps (State.denyIf_keeps h))
  · exact h

theorem State.symBar_keeps_error {s : State} {x1 : SymReq} {x2 x3 : Nat} {x4 : Bool} {ea : EngAccess} (e : State.symBar s x1 x2 x3 x4 = some ea)
    (h : s.HomeWf) : ea.HomeWf := by
  unfold State.symBar at e
  repeat' first
    | with_reducible assumption | with_reducible exact EngAccess.wf_wait | with_reducible apply EngAccess.wf_err | intro _
    | with_reducible apply HomeWf.ite | with_reducible apply HomeWf.foldl | with_reducible apply HomeWf.getD | with_reducible apply HomeWf.elim
    | (with_reducible refine State.seek_keeps_later (by assumption) ?_) | with_reducible apply EngAccess.wf_fault
    | with_reducible apply EngAccess.wf_later | cases e | split at e | dsimp only at e

theorem State.symBar_keepsF {s : State} {x1 : SymReq} {x2 x3 : Nat} {x4 : Bool}  {st : Stop} {t : State} (e : State.symBar s x1 x2 x3 x4 = some (.fault st t))
    (h : s.HomeWf) : t.HomeWf := State.symBar_keeps_error e h

theorem State.symBar_keepsL {s : State} {x1 : SymReq} {x2 x3 : Nat} {x4 : Bool} {t : State} (e : State.symBar s x1 x2 x3 x4 = some (.later t))
    (h : s.HomeWf) : t.HomeWf := State.symBar_keeps_error e h

theorem State.symSeek_keeps {s : State} {x1 : SymReq} {x2 x3 : Nat} (h : s.HomeWf) : (State.symSeek s x1 x2 x3).HomeWf := by
  unfold State.symSeek
  repeat' first
    | with_reducible assumption | intro _ | with_reducible apply HomeWf.ite | with_reducible apply HomeWf.foldl
    | with_reducible apply State.fillXlt_keeps | with_reducible apply State.enterPlaces_keeps

theorem State.symEvent_keeps {s : State} {x1 : BitVec 12} {x2 : Nat} (h : s.HomeWf) : (State.symEvent s x1 x2).HomeWf := by
  unfold State.symEvent
  repeat' first | with_reducible assumption | with_reducible apply State.event_keeps

theorem State.entryBar_keeps_error {s : State} {q : SymReq} {va : Nat} {b : Bool} {ea : EngAccess} (e : s.entryBar q va b = some ea) (h : s.HomeWf) : ea.HomeWf := by
  unfold State.entryBar at e
  cases e1 : s.symBar q va 64 true with
  | none => rw [e1] at e; exact State.symBar_keeps_error e h
  | some x => rw [e1] at e; cases e; exact State.symBar_keeps_error e1 h

theorem State.entryBar_keepsF {s : State} {x1 : SymReq} {x2 : Nat} {x3 : Bool}  {st : Stop} {t : State} (e : State.entryBar s x1 x2 x3 = some (.fault st t))
    (h : s.HomeWf) : t.HomeWf := State.entryBar_keeps_error e h

theorem State.entryBar_keepsL {s : State} {x1 : SymReq} {x2 : Nat} {x3 : Bool} {t : State} (e : State.entryBar s x1 x2 x3 = some (.later t))
    (h : s.HomeWf) : t.HomeWf := State.entryBar_keeps_error e h

theorem State.symcStep_keeps {s : State} {x1 : Nat} (h : s.HomeWf) : (State.symcStep s x1).HomeWf := by
  unfold State.symcStep
  repeat' first
    | with_reducible assumption | with_reducible apply HomeWf.ite | with_reducible apply State.endSym_keeps
    | with_reducible apply State.symOutcome_keeps | with_reducible apply State.symCount_keeps | with_reducible apply State.symLog_keeps
    | (with_reducible refine readTile_keeps_ok (by assumption) ?_) | (with_reducible refine readTile_keepsF (by assumption) ?_)
    | (with_reducible refine readTile_keepsL (by assumption) ?_) | (with_reducible refine readTile_keeps_error (by assumption) ?_)
    | with_reducible apply State.symStopped_keeps | (with_reducible refine State.symBar_keepsF (by assumption) ?_)
    | (with_reducible refine State.symBar_keepsL (by assumption) ?_) | (with_reducible refine State.symBar_keeps_error (by assumption) ?_)
    | with_reducible apply State.symSeek_keeps | with_reducible apply State.symEvent_keeps
    | (with_reducible refine State.entryBar_keepsF (by assumption) ?_) | (with_reducible refine State.entryBar_keepsL (by assumption) ?_)
    | (with_reducible refine State.entryBar_keeps_error (by assumption) ?_) | (unfold State.HomeWf; dsimp only; with_reducible apply HomeWf.mem)
    | cases e | split at e | split

theorem symqBody_keeps {x0 : CounterWord} {s : State} {x2 : Chord} {x3 x4 : Nat} {x5 : Lane} {x6 : Vals} {v1 : LaneRes} {t : State} (e : symqBody x0 s x2 x3 x4 x5 x6 = some (v1, t))
    (h : s.HomeWf) : t.HomeWf := by
  unfold symqBody at e
  repeat' first
    | with_reducible assumption | cases e | split at e | dsimp only at e | with_reducible apply State.bump_keeps
    | with_reducible apply State.denyIf_keeps | with_reducible apply State.fillXlt_keeps
    | (with_reducible refine State.seek_keeps_later (by assumption) ?_) | with_reducible apply awaitRead_keeps_st
    | (with_reducible refine awaitRead_keeps (by assumption) ?_) | with_reducible apply State.forgetJob_keeps
    | with_reducible apply State.enterPlaces_keeps | (unfold State.HomeWf; dsimp only; with_reducible apply HomeWf.mem)

theorem execSymq_keeps {x0 : CounterWord} {x1 : Flds} {s : State} {t : State} (e : execSymq x0 x1 s = .next t) (h : s.HomeWf) : t.HomeWf := by
  unfold execSymq at e
  repeat' first
    | with_reducible assumption | cases e | (with_reducible refine State.perform_keeps (fun _ _ _ _ _ _ _ _ e _ => ?_) ?_)
    | (with_reducible refine symqBody_keeps (by assumption) ?_)

theorem scorePage_keeps_ok {w : Who} {q : List FVal} {list p : Nat} {s t : State} {v : Nat}
 (e : scorePage w q list p s = .ok (v, t)) (h : s.HomeWf) : t.HomeWf := by
  unfold scorePage at e
  split at e
  · rename_i h1
    dsimp only at e
    split at e
    · cases e
    · split at e
      · rename_i h2; simp only [Except.ok.injEq, Prod.mk.injEq] at e; obtain ⟨_, rfl⟩ := e; exact State.bump_keeps (engAccess_keeps_ok h2 (State.bump_keeps (engAccess_keeps_ok h1 h)))
      · cases e
  · cases e

theorem scorePage_keeps_error {w : Who} {q : List FVal} {list p : Nat} {s : State} {x : Nat × EngAccess}
 (e : scorePage w q list p s = .error x) (h : s.HomeWf) : x.2.HomeWf := by
  unfold scorePage at e
  split at e
  · rename_i h1
    dsimp only at e
    split at e
    · simp only [Except.error.injEq] at e; subst e; exact EngAccess.wf_err
    · split at e
      · cases e
      · simp only [Except.error.injEq] at e; subst e; dsimp only; with_reducible exact engAccess_keepsE (State.bump_keeps (engAccess_keeps_ok h1 h))
  · simp only [Except.error.injEq] at e; subst e; dsimp only; with_reducible exact engAccess_keepsE h

theorem scorePage_keepsF {x0 : Who} {x1 : List FVal} {x2 x3 : Nat} {s : State} {n0 : Nat} {st : Stop} {t : State} (e : scorePage x0 x1 x2 x3 s = .error (n0, (.fault st t)))
    (h : s.HomeWf) : t.HomeWf := scorePage_keeps_error e h

theorem scorePage_keepsL {x0 : Who} {x1 : List FVal} {x2 x3 : Nat} {s : State} {n0 : Nat} {t : State} (e : scorePage x0 x1 x2 x3 s = .error (n0, (.later t)))
    (h : s.HomeWf) : t.HomeWf := scorePage_keeps_error e h

theorem symkBody_keeps {s : State} {x1 : Chord} {x2 x3 : Nat} {x4 : Lane} {x5 : Vals} {v1 : LaneRes} {t : State} (e : symkBody s x1 x2 x3 x4 x5 = some (v1, t))
    (h : s.HomeWf) : t.HomeWf := by
  unfold symkBody at e
  repeat' first | with_reducible assumption | cases e | split at e

theorem execSymk_keeps {x0 : Flds} {s : State} {t : State} (e : execSymk x0 s = .next t) (h : s.HomeWf) : t.HomeWf := by
  unfold execSymk at e
  repeat' first
    | with_reducible assumption | cases e | (with_reducible refine State.perform_keeps (fun _ _ _ _ _ _ _ _ e _ => ?_) ?_)
    | (with_reducible refine symkBody_keeps (by assumption) ?_)

theorem execTopk_keeps {x0 : Flds} {s : State} {t : State} (e : execTopk x0 s = .next t) (h : s.HomeWf) : t.HomeWf := by
  unfold execTopk at e
  repeat' first | with_reducible assumption | cases e | with_reducible apply State.cross_keeps

theorem State.symToken_keeps {s : State} {x1 : SymReq} {x2 : Bool} {x3 : BitVec 24} {x4 : BitVec 4} {x5 : Word} {x6 : Nat} (h : s.HomeWf) :
    (State.symToken s x1 x2 x3 x4 x5 x6).HomeWf := by
  unfold State.symToken
  repeat' first | with_reducible assumption | with_reducible apply HomeWf.ite | with_reducible apply State.engToken_keeps

theorem State.sympStep_keeps {s : State} {x1 : Nat} (h : s.HomeWf) : (State.sympStep s x1).HomeWf := by
  unfold State.sympStep
  repeat' first
    | with_reducible assumption | with_reducible apply HomeWf.ite | with_reducible apply State.setSyms_keeps
    | with_reducible apply State.endSym_keeps | with_reducible apply State.symToken_keeps | with_reducible apply State.symLog_keeps
    | with_reducible apply State.vput_keeps | (with_reducible refine readTile_keeps_ok (by assumption) ?_)
    | (with_reducible refine readTile_keepsF (by assumption) ?_) | (with_reducible refine readTile_keepsL (by assumption) ?_)
    | (with_reducible refine readTile_keeps_error (by assumption) ?_) | with_reducible apply State.symStopped_keeps
    | with_reducible apply State.bump_keeps | (with_reducible refine State.symBar_keepsF (by assumption) ?_)
    | (with_reducible refine State.symBar_keepsL (by assumption) ?_) | (with_reducible refine State.symBar_keeps_error (by assumption) ?_)
    | with_reducible apply State.symSeek_keeps | with_reducible apply State.symEvent_keeps
    | (unfold State.HomeWf; dsimp only; with_reducible apply HomeWf.mem)
    | (simp only [Option.some.injEq, Except.ok.injEq, Except.error.injEq, Prod.mk.injEq, reduceCtorEq] at e) | (obtain ⟨rfl, rfl⟩ := e) | subst e
    | split at e | split

theorem execSympStore_keeps {x0 : Nat} {s : State} {t : State} (e : execSympStore x0 s = .next t) (h : s.HomeWf) : t.HomeWf := by
  unfold execSympStore at e
  repeat' first | with_reducible assumption | cases e | with_reducible apply State.sympStep_keeps

theorem State.endPsel_keeps {s : State} {x1 : Nat} {x2 : PselJob} {x3 : Bool} (h : s.HomeWf) : (State.endPsel s x1 x2 x3).HomeWf := by
  unfold State.endPsel
  repeat' first
    | with_reducible assumption | with_reducible apply HomeWf.ite | with_reducible apply State.forgetJob_keeps
    | with_reducible apply State.modCore_keeps | with_reducible apply State.countDiscard_keeps | with_reducible apply State.sendToken_keeps
    | (unfold State.HomeWf; dsimp only; with_reducible apply HomeWf.mem) | cases e | split at e | split

theorem symcBody_keeps {x0 : CompareWord} {s : State} {x2 : Chord} {x3 x4 : Nat} {x5 : Lane} {x6 : Vals} {v1 : LaneRes} {t : State} (e : symcBody x0 s x2 x3 x4 x5 x6 = some (v1, t))
    (h : s.HomeWf) : t.HomeWf := by
  unfold symcBody at e
  repeat' first | with_reducible assumption | cases e | split at e | (with_reducible refine symEffect_keeps (by assumption) ?_)

theorem execSymc_keeps {x0 : CompareWord} {x1 : Flds} {s : State} {t : State} (e : execSymc x0 x1 s = .next t) (h : s.HomeWf) : t.HomeWf := by
  unfold execSymc at e
  repeat' first
    | with_reducible assumption | cases e | (with_reducible refine State.perform_keeps (fun _ _ _ _ _ _ _ _ e _ => ?_) ?_)
    | (with_reducible refine symcBody_keeps (by assumption) ?_)

theorem replayTile_keeps_wrote {s : State} {x1 : SymReq} {x2 : Nat} {x3 : Tile} {x4 : TileLoc} {n0 : Nat} {t : State} (e : replayTile s x1 x2 x3 x4 = .wrote n0 t)
    (h : s.HomeWf) : t.HomeWf := by
  unfold replayTile at e
  repeat' first
    | with_reducible assumption | intro _ | with_reducible apply HomeWf.ite | with_reducible apply HomeWf.foldl
    | with_reducible apply State.resave_keeps | with_reducible apply State.modCore_keeps
    | (with_reducible refine engTargets_keeps_ok (by assumption) ?_) | (with_reducible refine engTargets_keepsF (by assumption) ?_)
    | (with_reducible refine engTargets_keepsL (by assumption) ?_) | (with_reducible refine engTargets_keeps_error (by assumption) ?_)
    | with_reducible apply putPlaces_keeps | cases e | split at e

theorem replayTile_keeps_error {s : State} {x1 : SymReq} {x2 : Nat} {x3 : Tile} {x4 : TileLoc} {ea : EngAccess} (e : replayTile s x1 x2 x3 x4 = .stop ea)
    (h : s.HomeWf) : ea.HomeWf := by
  unfold replayTile at e
  repeat' first
    | with_reducible assumption | cases e | split at e | with_reducible apply State.resave_keeps | with_reducible apply State.modCore_keeps
    | (with_reducible refine engTargets_keeps_ok (by assumption) ?_) | (with_reducible refine engTargets_keepsF (by assumption) ?_)
    | (with_reducible refine engTargets_keepsL (by assumption) ?_) | (with_reducible refine engTargets_keeps_error (by assumption) ?_)

theorem replayTile_keepsF {s : State} {x1 : SymReq} {x2 : Nat} {x3 : Tile} {x4 : TileLoc}  {st : Stop} {t : State} (e : replayTile s x1 x2 x3 x4 = .stop (.fault st t))
    (h : s.HomeWf) : t.HomeWf := replayTile_keeps_error e h

theorem replayTile_keepsL {s : State} {x1 : SymReq} {x2 : Nat} {x3 : Tile} {x4 : TileLoc} {t : State} (e : replayTile s x1 x2 x3 x4 = .stop (.later t))
    (h : s.HomeWf) : t.HomeWf := replayTile_keeps_error e h

theorem State.symrStep_keeps {s : State} {x1 : Nat} (h : s.HomeWf) : (State.symrStep s x1).HomeWf := by
  unfold State.symrStep
  repeat' first
    | with_reducible assumption | with_reducible apply HomeWf.ite | with_reducible apply State.setSyms_keeps
    | with_reducible apply State.endSym_keeps | with_reducible apply State.symToken_keeps | with_reducible apply State.symLog_keeps
    | (with_reducible refine State.symBar_keepsF (by assumption) ?_) | (with_reducible refine State.symBar_keepsL (by assumption) ?_)
    | (with_reducible refine State.symBar_keeps_error (by assumption) ?_) | with_reducible apply State.symStopped_keeps
    | with_reducible apply State.symSeek_keeps | with_reducible apply State.symEvent_keeps
    | (with_reducible refine State.entryBar_keepsF (by assumption) ?_) | (with_reducible refine State.entryBar_keepsL (by assumption) ?_)
    | (with_reducible refine State.entryBar_keeps_error (by assumption) ?_) | (with_reducible refine replayTile_keeps_wrote (by assumption) ?_)
    | (with_reducible refine replayTile_keepsF (by assumption) ?_) | (with_reducible refine replayTile_keepsL (by assumption) ?_)
    | (with_reducible refine replayTile_keeps_error (by assumption) ?_) | with_reducible apply State.symCount_keeps
    | (unfold State.HomeWf; dsimp only; with_reducible apply HomeWf.mem) | cases e | split at e | split

theorem execSymrReplay_keeps {x0 : Nat} {s : State} {t : State} (e : execSymrReplay x0 s = .next t) (h : s.HomeWf) : t.HomeWf := by
  unfold execSymrReplay at e
  repeat' first | with_reducible assumption | cases e | with_reducible apply State.symrStep_keeps

theorem execSymcCompare_keeps {x0 : Nat} {s : State} {t : State} (e : execSymcCompare x0 s = .next t) (h : s.HomeWf) : t.HomeWf := by
  unfold execSymcCompare at e
  repeat' first | with_reducible assumption | cases e | with_reducible apply State.symcStep_keeps

theorem scorePages_keeps_ok {w : Who} {q : List FVal} {list fuel p : Nat} {acc : List (Nat × Nat)} {s t : State} {v : List (Nat × Nat)}
 (e : scorePages w q list fuel p acc s = .ok (v, t)) (h : s.HomeWf) : t.HomeWf := by
  induction fuel generalizing p acc s with
  | zero => unfold scorePages at e; cases e; exact h
  | succ f ih =>
    unfold scorePages at e
    split at e
    · rename_i h1; exact ih e (scorePage_keeps_ok h1 h)
    · cases e

theorem scorePages_keeps_error {w : Who} {q : List FVal} {list fuel p : Nat} {acc : List (Nat × Nat)} {s : State} {n : Nat} {ea : EngAccess}
    {l : List (Nat × Nat)}
 (e : scorePages w q list fuel p acc s = .error (n, ea, l)) (h : s.HomeWf) : ea.HomeWf := by
  induction fuel generalizing p acc s with
  | zero => unfold scorePages at e; cases e
  | succ f ih =>
    unfold scorePages at e
    split at e
    · rename_i h1; exact ih e (scorePage_keeps_ok h1 h)
    · rename_i h1; simp only [Except.error.injEq, Prod.mk.injEq] at e; obtain ⟨-, rfl, -⟩ := e; exact scorePage_keeps_error h1 h

theorem scorePages_keepsF {x0 : Who} {x1 : List FVal} {x2 x3 x4 : Nat} {x5 : List (Nat × Nat)} {s : State} {n0 : Nat} {l0 : List (Nat × Nat)}
    {st : Stop} {t : State} (e : scorePages x0 x1 x2 x3 x4 x5 s = .error (n0, (.fault st t), l0)) (h : s.HomeWf) : t.HomeWf := scorePages_keeps_error e h

theorem scorePages_keepsL {x0 : Who} {x1 : List FVal} {x2 x3 x4 : Nat} {x5 : List (Nat × Nat)} {s : State} {n0 : Nat} {l0 : List (Nat × Nat)}
    {t : State} (e : scorePages x0 x1 x2 x3 x4 x5 s = .error (n0, (.later t), l0)) (h : s.HomeWf) : t.HomeWf := scorePages_keeps_error e h

theorem State.stopPsel_keeps {s : State} {n : Nat} {j : PselJob} {p : Nat} {e : EngAccess} {l : List (Nat × Nat)} (he : e.HomeWf) (h : s.HomeWf) :
    (s.stopPsel n j p e l).HomeWf := by
  unfold State.stopPsel
  split
  · exact State.engFault_keeps he
  · exact he
  · exact State.sendTrap_keeps (State.endPsel_keeps (State.denyIf_keeps h))
  · exact h

theorem State.pselStep_keeps {s : State} {n : Nat} (h : s.HomeWf) : (s.pselStep n).HomeWf := by
  unfold State.pselStep
  split
  · exact h
  · split
    · exact h
    · dsimp only
      split
      · rename_i h1
        have hs := State.bump_keeps (engAccess_keeps_ok h1 h)
        split
        · rename_i h2; exact State.stopPsel_keeps (scorePages_keeps_error h2 hs) h
        · rename_i h2
          have h3 := scorePages_keeps_ok h2 hs
          split
          · exact h3
          · exact State.endPsel_keeps (State.pushRing_keeps (State.modCore_keeps h3))
      · with_reducible exact State.stopPsel_keeps (engAccess_keepsE h) h

theorem symrBody_keeps {x0 : ReplayWord} {s : State} {x2 : Chord} {x3 x4 : Nat} {x5 : Lane} {x6 : Vals} {v1 : LaneRes} {t : State} (e : symrBody x0 s x2 x3 x4 x5 x6 = some (v1, t))
    (h : s.HomeWf) : t.HomeWf := by
  unfold symrBody at e
  repeat' first | with_reducible assumption | cases e | split at e | (with_reducible refine symEffect_keeps (by assumption) ?_)

theorem execSymr_keeps {x0 : ReplayWord} {x1 : Flds} {s : State} {t : State} (e : execSymr x0 x1 s = .next t) (h : s.HomeWf) : t.HomeWf := by
  unfold execSymr at e
  repeat' first
    | with_reducible assumption | cases e | (with_reducible refine State.perform_keeps (fun _ _ _ _ _ _ _ _ e _ => ?_) ?_)
    | (with_reducible refine symrBody_keeps (by assumption) ?_)

theorem pselBody_keeps {w : SelWord} {s : State} {ch : Chord} {i l : Nat} {x : Lane} {v : Vals} {res : LaneRes} {t : State}
 (e : pselBody w s ch i l x v = some (res, t)) (h : s.HomeWf) : t.HomeWf := by
  unfold pselBody at e
  dsimp only at e
  repeat' first
    | (simp only [Option.some.injEq, Prod.mk.injEq] at e; obtain ⟨_, rfl⟩ := e; exact h)
    | split at e

theorem symsBody_keeps {s : State} {x1 : Chord} {x2 x3 : Nat} {x4 : Lane} {x5 : Vals} {v1 : LaneRes} {t : State} (e : symsBody s x1 x2 x3 x4 x5 = some (v1, t))
    (h : s.HomeWf) : t.HomeWf := by
  unfold symsBody at e
  repeat' first | with_reducible assumption | cases e | split at e

theorem execSyms_keeps {x0 : Flds} {s : State} {t : State} (e : execSyms x0 s = .next t) (h : s.HomeWf) : t.HomeWf := by
  unfold execSyms at e
  repeat' first
    | with_reducible assumption | cases e | (with_reducible refine State.perform_keeps (fun _ _ _ _ _ _ _ _ e _ => ?_) ?_)
    | (with_reducible refine symsBody_keeps (by assumption) ?_)

theorem execPselSelect_keeps {x0 : Nat} {s : State} {t : State} (e : execPselSelect x0 s = .next t) (h : s.HomeWf) : t.HomeWf := by
  unfold execPselSelect at e
  repeat' first | with_reducible assumption | cases e | with_reducible apply State.pselStep_keeps

theorem execPsel_keeps {x0 : SelWord} {x1 : Flds} {s : State} {t : State} (e : execPsel x0 x1 s = .next t) (h : s.HomeWf) : t.HomeWf := by
  unfold execPsel at e
  repeat' first
    | with_reducible assumption | cases e | (with_reducible refine State.perform_keeps (fun _ _ _ _ _ _ _ _ e _ => ?_) ?_)
    | (with_reducible refine pselBody_keeps (by assumption) ?_)

theorem State.acceptToken_keeps {s : State} {x1 x2 : Nat} {x3 : Header} {x4 : Token} (h : s.HomeWf) : (State.acceptToken s x1 x2 x3 x4).HomeWf := by
  unfold State.acceptToken
  repeat' first
    | with_reducible assumption | with_reducible apply HomeWf.ite | with_reducible apply State.acquire_keeps
    | with_reducible apply State.setCore_keeps | with_reducible apply State.makeReady_keeps
    | (unfold State.HomeWf; dsimp only; with_reducible apply HomeWf.mem) | cases e | split at e | split

theorem State.divert_keeps {s : State} {x1 : Token} {x2 : Header} (h : s.HomeWf) : (State.divert s x1 x2).HomeWf := by
  unfold State.divert
  repeat' first | with_reducible assumption | with_reducible apply State.spillPut_keeps

theorem State.divertStep_keeps {s : State} {x1 x2 : Nat} (h : s.HomeWf) : (State.divertStep s x1 x2).HomeWf := by
  unfold State.divertStep
  repeat' first
    | with_reducible assumption | with_reducible apply HomeWf.ite | with_reducible apply State.divert_keeps
    | with_reducible apply State.modCore_keeps | cases e | split at e | split

theorem State.loadDesc_keeps {s : State} {x1 : BitVec 12} (h : s.HomeWf) : (State.loadDesc s x1).HomeWf := by
  unfold State.loadDesc
  repeat' first | with_reducible assumption | with_reducible apply HomeWf.ite | with_reducible apply State.modCtx_keeps

theorem State.appendStep_keeps {s : State} {x1 : Nat} (h : s.HomeWf) : (State.appendStep s x1).HomeWf := by
  unfold State.appendStep
  repeat' first
    | with_reducible assumption | with_reducible apply HomeWf.ite | with_reducible apply State.loadDesc_keeps
    | with_reducible apply State.protectionEvent_keeps | with_reducible apply State.countDiscard_keeps
    | with_reducible apply State.spillPut_keeps | (unfold State.HomeWf; dsimp only; with_reducible apply HomeWf.mem) | cases e | split at e
    | split

theorem evict_keeps {x0 x1 x2 : Nat} {s : State} (h : s.HomeWf) : (evict x0 x1 x2 s).HomeWf := by
  induction x2 generalizing x0 x1 s with
  | zero => unfold evict; repeat' first
    | with_reducible assumption | with_reducible exact EngAccess.wf_wait | with_reducible apply EngAccess.wf_err | intro _
    | with_reducible apply HomeWf.ite | with_reducible apply HomeWf.foldl | with_reducible apply HomeWf.foldl2 | with_reducible apply HomeWf.getD
    | with_reducible apply HomeWf.elim | with_reducible apply HomeWf.foldl1 | (with_reducible refine HomeWf.foldl2e (by assumption) ?_ ?_)
    | (with_reducible refine HomeWf.foldl1e (by assumption) ?_ ?_) | with_reducible apply State.pick_keeps_st
    | (with_reducible refine State.pick_keeps (by assumption) ?_) | with_reducible apply State.modCore_keeps
    | with_reducible apply EngAccess.wf_fault | with_reducible apply EngAccess.wf_later
    | (unfold State.HomeWf; dsimp only; with_reducible apply HomeWf.mem) | cases e | split at e | dsimp only at e
    | (rw [Option.map_eq_some_iff] at e; obtain ⟨_, e1, e⟩ := e) | (rw [Option.bind_eq_some_iff] at e; obtain ⟨_, e1, e⟩ := e)
    | (injection e with e) | cases e1 | split at e1 | dsimp only at e1 | (rw [Option.map_eq_some_iff] at e1; obtain ⟨_, e2, e1⟩ := e1)
    | (rw [Option.bind_eq_some_iff] at e1; obtain ⟨_, e2, e1⟩ := e1) | (rename_i e; rw [Option.map_eq_some_iff] at e; obtain ⟨_, e1, e⟩ := e)
    | (rename_i e; rw [Option.bind_eq_some_iff] at e; obtain ⟨_, e1, e⟩ := e) | split
  | succ _ ih => unfold evict; repeat' first
    | with_reducible assumption | with_reducible apply ih | with_reducible exact EngAccess.wf_wait | with_reducible apply EngAccess.wf_err
    | intro _ | with_reducible apply HomeWf.ite | with_reducible apply HomeWf.foldl | with_reducible apply HomeWf.foldl2
    | with_reducible apply HomeWf.getD | with_reducible apply HomeWf.elim | with_reducible apply HomeWf.foldl1
    | (with_reducible refine HomeWf.foldl2e (by assumption) ?_ ?_) | (with_reducible refine HomeWf.foldl1e (by assumption) ?_ ?_)
    | with_reducible apply State.pick_keeps_st | (with_reducible refine State.pick_keeps (by assumption) ?_)
    | with_reducible apply State.modCore_keeps | with_reducible apply EngAccess.wf_fault | with_reducible apply EngAccess.wf_later
    | (unfold State.HomeWf; dsimp only; with_reducible apply HomeWf.mem) | cases e | split at e | dsimp only at e
    | (rw [Option.map_eq_some_iff] at e; obtain ⟨_, e1, e⟩ := e) | (rw [Option.bind_eq_some_iff] at e; obtain ⟨_, e1, e⟩ := e)
    | (injection e with e) | cases e1 | split at e1 | dsimp only at e1 | (rw [Option.map_eq_some_iff] at e1; obtain ⟨_, e2, e1⟩ := e1)
    | (rw [Option.bind_eq_some_iff] at e1; obtain ⟨_, e2, e1⟩ := e1) | (rename_i e; rw [Option.map_eq_some_iff] at e; obtain ⟨_, e1, e⟩ := e)
    | (rename_i e; rw [Option.bind_eq_some_iff] at e; obtain ⟨_, e1, e⟩ := e) | split

theorem State.reject_keeps {s : State} {x1 : Nat} {x2 : Token} {x3 : Option Entry} {x4 : Trap} {x5 : optParam Bool Bool.false} (h : s.HomeWf) :
    (State.reject s x1 x2 x3 x4 x5).HomeWf := by
  unfold State.reject
  repeat' first
    | with_reducible assumption | with_reducible apply HomeWf.ite | with_reducible apply State.escalate_keeps
    | with_reducible apply State.sendTrap_keeps

theorem State.newEntry_keeps {s : State} {x1 : Nat} {x2 : Token} {x3 : Header} {x4 : Nat × Nat} {v1 : Nat} {t : State} (e : State.newEntry s x1 x2 x3 x4 = some (v1, t))
    (h : s.HomeWf) : t.HomeWf := by
  unfold State.newEntry at e
  repeat' first
    | with_reducible assumption | cases e | split at e | dsimp only at e | with_reducible apply State.pick_keeps_st
    | (with_reducible refine State.pick_keeps (by assumption) ?_) | with_reducible apply State.modCore_keeps
    | with_reducible apply State.freshAccs_keeps

theorem State.toFifo_keeps {s : State} {x1 : Nat} {x2 : Token} {x3 : Header} {x4 : Nat × Nat} (h : s.HomeWf) : (State.toFifo s x1 x2 x3 x4).HomeWf := by
  unfold State.toFifo
  repeat' first
    | with_reducible assumption | with_reducible apply HomeWf.ite | with_reducible apply State.modCore_keeps
    | with_reducible apply State.freshAccs_keeps | with_reducible apply State.divert_keeps

theorem State.matchTrap_keeps {s : State} {x1 : Nat} {x2 : Token} {x3 : Option Entry} {x4 : Header} {x5 : Nat × Nat} (h : s.HomeWf) :
    (State.matchTrap s x1 x2 x3 x4 x5).HomeWf := by
  unfold State.matchTrap
  repeat' first
    | with_reducible assumption | with_reducible apply HomeWf.ite | with_reducible apply State.reject_keeps
    | (with_reducible refine State.newEntry_keeps (by assumption) ?_) | with_reducible apply State.toFifo_keeps
    | with_reducible apply State.modCore_keeps | with_reducible apply State.makeReady_keeps
    | (unfold State.HomeWf; dsimp only; with_reducible apply HomeWf.mem) | cases e | split at e | split

theorem State.matchHeader_keeps {s : State} {x1 : Nat} {x2 : Token} {x3 : Option Entry} {x4 : Header} {x5 : Nat × Nat} (h : s.HomeWf) :
    (State.matchHeader s x1 x2 x3 x4 x5).HomeWf := by
  unfold State.matchHeader
  repeat' first
    | with_reducible assumption | with_reducible apply HomeWf.ite | with_reducible apply State.matchTrap_keeps
    | with_reducible apply State.reject_keeps | (with_reducible refine State.newEntry_keeps (by assumption) ?_)
    | with_reducible apply State.toFifo_keeps | with_reducible apply State.acceptToken_keeps | cases e | split at e | split

theorem State.matchToken_keeps {s : State} {x1 : Nat} {x2 : Token} {x3 : optParam (Option (Header × Nat × Nat)) Option.none} (h : s.HomeWf) :
    (State.matchToken s x1 x2 x3).HomeWf := by
  unfold State.matchToken
  repeat' first
    | with_reducible assumption | with_reducible apply HomeWf.ite | with_reducible apply State.countDiscard_keeps
    | with_reducible apply State.matchHeader_keeps | with_reducible apply State.reject_keeps | with_reducible apply State.modCore_keeps
    | (unfold State.HomeWf; dsimp only; with_reducible apply HomeWf.mem) | cases e | split at e | split

theorem examineAux_keeps {x0 x1 : Nat} {s : State} (h : s.HomeWf) : (examineAux x0 x1 s).HomeWf := by
  induction x1 generalizing x0 s with
  | zero => unfold examineAux; repeat' first
    | with_reducible assumption | with_reducible exact EngAccess.wf_wait | with_reducible apply EngAccess.wf_err | intro _
    | with_reducible apply HomeWf.ite | with_reducible apply HomeWf.foldl | with_reducible apply HomeWf.foldl2 | with_reducible apply HomeWf.getD
    | with_reducible apply HomeWf.elim | with_reducible apply HomeWf.foldl1 | (with_reducible refine HomeWf.foldl2e (by assumption) ?_ ?_)
    | (with_reducible refine HomeWf.foldl1e (by assumption) ?_ ?_) | with_reducible apply State.matchToken_keeps
    | with_reducible apply State.modCore_keeps | with_reducible apply EngAccess.wf_fault | with_reducible apply EngAccess.wf_later
    | (unfold State.HomeWf; dsimp only; with_reducible apply HomeWf.mem) | cases e | split at e | dsimp only at e
    | (rw [Option.map_eq_some_iff] at e; obtain ⟨_, e1, e⟩ := e) | (rw [Option.bind_eq_some_iff] at e; obtain ⟨_, e1, e⟩ := e)
    | (injection e with e) | cases e1 | split at e1 | dsimp only at e1 | (rw [Option.map_eq_some_iff] at e1; obtain ⟨_, e2, e1⟩ := e1)
    | (rw [Option.bind_eq_some_iff] at e1; obtain ⟨_, e2, e1⟩ := e1) | (rename_i e; rw [Option.map_eq_some_iff] at e; obtain ⟨_, e1, e⟩ := e)
    | (rename_i e; rw [Option.bind_eq_some_iff] at e; obtain ⟨_, e1, e⟩ := e) | split
  | succ _ ih => unfold examineAux; repeat' first
    | with_reducible assumption | with_reducible apply ih | with_reducible exact EngAccess.wf_wait | with_reducible apply EngAccess.wf_err
    | intro _ | with_reducible apply HomeWf.ite | with_reducible apply HomeWf.foldl | with_reducible apply HomeWf.foldl2
    | with_reducible apply HomeWf.getD | with_reducible apply HomeWf.elim | with_reducible apply HomeWf.foldl1
    | (with_reducible refine HomeWf.foldl2e (by assumption) ?_ ?_) | (with_reducible refine HomeWf.foldl1e (by assumption) ?_ ?_)
    | with_reducible apply State.matchToken_keeps | with_reducible apply State.modCore_keeps | with_reducible apply EngAccess.wf_fault
    | with_reducible apply EngAccess.wf_later | (unfold State.HomeWf; dsimp only; with_reducible apply HomeWf.mem) | cases e | split at e
    | dsimp only at e | (rw [Option.map_eq_some_iff] at e; obtain ⟨_, e1, e⟩ := e) | (rw [Option.bind_eq_some_iff] at e; obtain ⟨_, e1, e⟩ := e)
    | (injection e with e) | cases e1 | split at e1 | dsimp only at e1 | (rw [Option.map_eq_some_iff] at e1; obtain ⟨_, e2, e1⟩ := e1)
    | (rw [Option.bind_eq_some_iff] at e1; obtain ⟨_, e2, e1⟩ := e1) | (rename_i e; rw [Option.map_eq_some_iff] at e; obtain ⟨_, e1, e⟩ := e)
    | (rename_i e; rw [Option.bind_eq_some_iff] at e; obtain ⟨_, e1, e⟩ := e) | split

theorem State.examineFifo_keeps {s : State} {x1 : Nat} (h : s.HomeWf) : (State.examineFifo s x1).HomeWf := by
  unfold State.examineFifo
  repeat' first | with_reducible assumption | with_reducible apply examineAux_keeps

theorem execSpillAppend_keeps {x0 : Nat} {s : State} {t : State} (e : execSpillAppend x0 s = .next t) (h : s.HomeWf) : t.HomeWf := by
  unfold execSpillAppend at e
  repeat' first | with_reducible assumption | cases e | with_reducible apply State.appendStep_keeps

theorem advanceHead_keeps {x0 : BitVec 12} {x1 : Nat} {s : State} (h : s.HomeWf) : (advanceHead x0 x1 s).HomeWf := by
  induction x1 generalizing x0 s with
  | zero => unfold advanceHead; repeat' first
    | with_reducible assumption | with_reducible exact EngAccess.wf_wait | with_reducible apply EngAccess.wf_err | intro _
    | with_reducible apply HomeWf.ite | with_reducible apply HomeWf.foldl | with_reducible apply HomeWf.foldl2 | with_reducible apply HomeWf.getD
    | with_reducible apply HomeWf.elim | with_reducible apply HomeWf.foldl1 | (with_reducible refine HomeWf.foldl2e (by assumption) ?_ ?_)
    | (with_reducible refine HomeWf.foldl1e (by assumption) ?_ ?_) | with_reducible apply State.modCtx_keeps
    | with_reducible apply EngAccess.wf_fault | with_reducible apply EngAccess.wf_later
    | (unfold State.HomeWf; dsimp only; with_reducible apply HomeWf.mem) | cases e | split at e | dsimp only at e
    | (rw [Option.map_eq_some_iff] at e; obtain ⟨_, e1, e⟩ := e) | (rw [Option.bind_eq_some_iff] at e; obtain ⟨_, e1, e⟩ := e)
    | (injection e with e) | cases e1 | split at e1 | dsimp only at e1 | (rw [Option.map_eq_some_iff] at e1; obtain ⟨_, e2, e1⟩ := e1)
    | (rw [Option.bind_eq_some_iff] at e1; obtain ⟨_, e2, e1⟩ := e1) | (rename_i e; rw [Option.map_eq_some_iff] at e; obtain ⟨_, e1, e⟩ := e)
    | (rename_i e; rw [Option.bind_eq_some_iff] at e; obtain ⟨_, e1, e⟩ := e) | split
  | succ _ ih => unfold advanceHead; repeat' first
    | with_reducible assumption | with_reducible apply ih | with_reducible exact EngAccess.wf_wait | with_reducible apply EngAccess.wf_err
    | intro _ | with_reducible apply HomeWf.ite | with_reducible apply HomeWf.foldl | with_reducible apply HomeWf.foldl2
    | with_reducible apply HomeWf.getD | with_reducible apply HomeWf.elim | with_reducible apply HomeWf.foldl1
    | (with_reducible refine HomeWf.foldl2e (by assumption) ?_ ?_) | (with_reducible refine HomeWf.foldl1e (by assumption) ?_ ?_)
    | with_reducible apply State.modCtx_keeps | with_reducible apply EngAccess.wf_fault | with_reducible apply EngAccess.wf_later
    | (unfold State.HomeWf; dsimp only; with_reducible apply HomeWf.mem) | cases e | split at e | dsimp only at e
    | (rw [Option.map_eq_some_iff] at e; obtain ⟨_, e1, e⟩ := e) | (rw [Option.bind_eq_some_iff] at e; obtain ⟨_, e1, e⟩ := e)
    | (injection e with e) | cases e1 | split at e1 | dsimp only at e1 | (rw [Option.map_eq_some_iff] at e1; obtain ⟨_, e2, e1⟩ := e1)
    | (rw [Option.bind_eq_some_iff] at e1; obtain ⟨_, e2, e1⟩ := e1) | (rename_i e; rw [Option.map_eq_some_iff] at e; obtain ⟨_, e1, e⟩ := e)
    | (rename_i e; rw [Option.bind_eq_some_iff] at e; obtain ⟨_, e1, e⟩ := e) | split

theorem State.freeSlot_keeps {s : State} {x1 : BitVec 12} {x2 : Nat} (h : s.HomeWf) : (State.freeSlot s x1 x2).HomeWf := by
  unfold State.freeSlot
  repeat' first
    | with_reducible assumption | with_reducible apply State.aput_keeps | with_reducible apply refillSpill_keeps
    | with_reducible apply advanceHead_keeps

theorem State.reloadStep_keeps {s : State} {x1 : BitVec 12} {x2 : Nat} (h : s.HomeWf) : (State.reloadStep s x1 x2).HomeWf := by
  unfold State.reloadStep
  repeat' first
    | with_reducible assumption | with_reducible apply HomeWf.ite | with_reducible apply State.denyPages_keeps
    | with_reducible apply State.escalate_keeps | with_reducible apply State.freeSlot_keeps | with_reducible apply State.examineFifo_keeps
    | with_reducible apply State.matchToken_keeps | with_reducible apply State.slotError_keeps
    | (unfold State.HomeWf; dsimp only; with_reducible apply HomeWf.mem) | cases e | split at e | split

theorem execSpillReload_keeps {x0 : BitVec 12} {x1 : BitVec 8} {s : State} {t : State} (e : execSpillReload x0 x1 s = .next t) (h : s.HomeWf) : t.HomeWf := by
  unfold execSpillReload at e
  repeat' first | with_reducible assumption | cases e | with_reducible apply State.reloadStep_keeps

theorem State.enterPinned_keeps {s : State} {x1 : List Place} (h : s.HomeWf) : (State.enterPinned s x1).HomeWf := by
  unfold State.enterPinned
  repeat' first
    | with_reducible assumption | intro _ | with_reducible apply HomeWf.ite | with_reducible apply HomeWf.foldl
    | with_reducible apply State.l2Enter_keeps

theorem State.expiryStep_keeps {s : State} {x1 x2 : Nat} (h : s.HomeWf) : (State.expiryStep s x1 x2).HomeWf := by
  unfold State.expiryStep
  repeat' first | with_reducible assumption | with_reducible apply State.modCore_keeps

theorem State.parkLane_keeps {s : State} {x1 : Nat} {x2 : Chord} {x3 : Lane} {x4 : Trap} {x5 : Nat} {x6 : Bool} (h : s.HomeWf) :
    (State.parkLane s x1 x2 x3 x4 x5 x6).HomeWf := by
  unfold State.parkLane
  repeat' first
    | with_reducible assumption | with_reducible apply HomeWf.ite | with_reducible apply State.modCtx_keeps
    | with_reducible apply State.modCore_keeps | with_reducible apply State.takeTrap_keeps | with_reducible apply State.returnParked_keeps
    | (unfold State.HomeWf; dsimp only; with_reducible apply HomeWf.mem) | cases e | split at e | split

theorem State.voidChord_keeps {s : State} {x1 x2 : Nat} {x3 : Trap} {x4 : Bool} (h : s.HomeWf) : (State.voidChord s x1 x2 x3 x4).HomeWf := by
  unfold State.voidChord
  repeat' first
    | with_reducible assumption | intro _ | with_reducible apply HomeWf.ite | with_reducible apply HomeWf.foldl
    | with_reducible apply State.parkLane_keeps | with_reducible apply State.examineFifo_keeps | with_reducible apply State.delChord_keeps
    | (unfold State.HomeWf; dsimp only; with_reducible apply HomeWf.mem) | cases e | split at e | split

theorem State.grant_keeps {s : State} {x1 x2 x3 : Nat} {x4 : Bin} (h : s.HomeWf) : (State.grant s x1 x2 x3 x4).HomeWf := by
  unfold State.grant
  repeat' first
    | with_reducible assumption | with_reducible apply HomeWf.ite | with_reducible apply State.consumeLog_keeps
    | with_reducible apply State.recordChord_keeps | with_reducible apply State.modCore_keeps | with_reducible apply State.voidChord_keeps
    | (unfold State.HomeWf; dsimp only; with_reducible apply HomeWf.mem) | cases e | split at e | split

theorem State.dropFill_keeps {s : State} {x1 x2 : Nat} (h : s.HomeWf) : (State.dropFill s x1 x2).HomeWf := by
  unfold State.dropFill
  repeat' first | with_reducible assumption | with_reducible apply State.modCore_keeps

theorem State.rejectFill_keeps {s : State} {x1 : Nat} {x2 : BFill} {x3 : Trap} (h : s.HomeWf) : (State.rejectFill s x1 x2 x3).HomeWf := by
  unfold State.rejectFill
  repeat' first
    | with_reducible assumption | intro _ | with_reducible apply HomeWf.ite | with_reducible apply HomeWf.foldl
    | with_reducible apply State.matchToken_keeps | with_reducible apply State.reject_keeps

theorem State.failFill_keeps {s : State} {x1 : Nat} {x2 : BFill} {x3 : Trap} (h : s.HomeWf) : (State.failFill s x1 x2 x3).HomeWf := by
  unfold State.failFill
  repeat' first
    | with_reducible assumption | intro _ | with_reducible apply HomeWf.ite | with_reducible apply HomeWf.foldl
    | with_reducible apply State.rejectFill_keeps | with_reducible apply State.voidChord_keeps

theorem State.endFill_keeps {s : State} {x1 : Nat} {x2 : BFill} {x3 : Header} {x4 : List Word} (h : s.HomeWf) : (State.endFill s x1 x2 x3 x4).HomeWf := by
  unfold State.endFill
  repeat' first
    | with_reducible assumption | intro _ | with_reducible apply HomeWf.ite | with_reducible apply HomeWf.foldl
    | with_reducible apply evict_keeps | with_reducible apply State.modCore_keeps | with_reducible apply State.examineFifo_keeps
    | with_reducible apply State.matchToken_keeps

theorem State.refuseFill_keeps {s : State} {x1 : Nat} {x2 : BFill} {x3 : BitVec 16} {x4 : Bool} {x5 : Nat} (h : s.HomeWf) :
    (State.refuseFill s x1 x2 x3 x4 x5).HomeWf := by
  unfold State.refuseFill
  repeat' first
    | with_reducible assumption | intro _ | with_reducible apply HomeWf.ite | with_reducible apply HomeWf.foldl
    | with_reducible apply State.modCore_keeps | with_reducible apply State.voidChord_keeps | with_reducible apply State.examineFifo_keeps
    | with_reducible apply State.matchToken_keeps

theorem State.blockFillStep_keeps {s : State} {x1 x2 : Nat} (h : s.HomeWf) : (State.blockFillStep s x1 x2).HomeWf := by
  unfold State.blockFillStep
  repeat' first
    | with_reducible assumption | intro _ | with_reducible apply HomeWf.ite | with_reducible apply HomeWf.foldl
    | with_reducible apply State.voidChord_keeps | with_reducible apply State.engFault_keeps | with_reducible apply State.dropFill_keeps
    | with_reducible apply State.modCore_keeps | with_reducible apply State.failFill_keeps | with_reducible apply State.forgetJob_keeps
    | (with_reducible refine State.checkPages_keeps_ok (by assumption) ?_)
    | (with_reducible refine State.checkPages_keeps_trap (by assumption) ?_) | (with_reducible refine State.seek_keeps_later (by assumption) ?_)
    | with_reducible apply State.enterPinned_keeps | with_reducible apply State.bump_keeps | with_reducible apply State.endFill_keeps
    | with_reducible apply State.refuseFill_keeps | (unfold State.HomeWf; dsimp only; with_reducible apply HomeWf.mem) | cases e | split at e
    | split

theorem State.arrivalStep_keeps {s : State} {x1 : Nat} (h : s.HomeWf) : (State.arrivalStep s x1).HomeWf := by
  unfold State.arrivalStep
  repeat' first
    | with_reducible assumption | with_reducible apply HomeWf.ite | with_reducible apply State.loadDesc_keeps
    | with_reducible apply State.payAcks_keeps | with_reducible apply State.sendToken_keeps | with_reducible apply State.protectionEvent_keeps
    | with_reducible apply State.examineFifo_keeps | with_reducible apply State.matchToken_keeps
    | (unfold State.HomeWf; dsimp only; with_reducible apply HomeWf.mem) | cases e | split at e | split

theorem execTokenArrival_keeps {x0 : Nat} {s : State} {t : State} (e : execTokenArrival x0 s = .next t) (h : s.HomeWf) : t.HomeWf := by
  unfold execTokenArrival at e
  repeat' first | with_reducible assumption | cases e | with_reducible apply State.arrivalStep_keeps

theorem execBinSustainExpiry_keeps {x0 : BitVec 8} {x1 : BitVec 6} {s : State} {t : State} (e : execBinSustainExpiry x0 x1 s = .next t) (h : s.HomeWf) : t.HomeWf := by
  unfold execBinSustainExpiry at e
  repeat' first | with_reducible assumption | cases e | with_reducible apply State.expiryStep_keeps

theorem execBlockFill_keeps {x0 : BitVec 8} {x1 : Nat} {s : State} {t : State} (e : execBlockFill x0 x1 s = .next t) (h : s.HomeWf) : t.HomeWf := by
  unfold execBlockFill at e
  repeat' first | with_reducible assumption | cases e | with_reducible apply State.blockFillStep_keeps

theorem State.loseRound_keeps {s : State} {x1 x2 : Nat} {x3 : NMap Bin} {x4 : NMap Bin} (h : s.HomeWf) : (State.loseRound s x1 x2 x3 x4).HomeWf := by
  unfold State.loseRound
  repeat' first | with_reducible assumption | with_reducible apply State.modCore_keeps

theorem execFifoDivert_keeps {x0 : BitVec 8} {x1 : Nat} {s : State} {t : State} (e : execFifoDivert x0 x1 s = .next t) (h : s.HomeWf) : t.HomeWf := by
  unfold execFifoDivert at e
  repeat' first | with_reducible assumption | cases e | with_reducible apply State.divertStep_keeps

theorem State.roundStep_keeps {s : State} {x1 : Nat} (h : s.HomeWf) : (State.roundStep s x1).HomeWf := by
  unfold State.roundStep
  repeat' first
    | with_reducible assumption | with_reducible apply HomeWf.ite | with_reducible apply State.refreshBins_keeps
    | with_reducible apply State.grant_keeps | with_reducible apply State.loseRound_keeps
    | (unfold State.HomeWf; dsimp only; with_reducible apply HomeWf.mem) | cases e | split at e | split

theorem execArbitrationRound_keeps {x0 : BitVec 8} {s : State} {t : State} (e : execArbitrationRound x0 s = .next t) (h : s.HomeWf) : t.HomeWf := by
  unfold execArbitrationRound at e
  repeat' first | with_reducible assumption | cases e | with_reducible apply State.roundStep_keeps

theorem State.setHyp_keeps {s : State} {x1 : BitVec 12} {x2 : BitVec 8} {x3 : HypRec} (h : s.HomeWf) : (State.setHyp s x1 x2 x3).HomeWf := by
  unfold State.setHyp
  repeat' first | with_reducible assumption | with_reducible apply State.modCtx_keeps

theorem State.fork_keeps {s : State} {x1 : BitVec 12} {x2 : BitVec 8} {v1 : BitVec 8} {t : State} (e : State.fork s x1 x2 = some (v1, t)) (h : s.HomeWf) : t.HomeWf := by
  unfold State.fork at e
  repeat' first | with_reducible assumption | cases e | split at e | with_reducible apply State.setHyp_keeps

theorem forkLanes_keeps_st {f : Flds} {n : BitVec 12} {l : List (Nat × Lane × Vals)} {s : State} (h : s.HomeWf) : (forkLanes f n l s).2.HomeWf := by
  induction l generalizing s with
  | nil => exact h
  | cons p r ih =>
    unfold forkLanes
    split
    · split
      · exact ih (State.fork_keeps (by assumption) h)
      · exact ih h
    · exact ih h

theorem forkLanes_keeps {f : Flds} {n : BitVec 12} {l : List (Nat × Lane × Vals)} {s : State} {v : List (Nat × Option (BitVec 8))} {t : State}
 (e : forkLanes f n l s = (v, t)) (h : s.HomeWf) : t.HomeWf := by
  have := forkLanes_keeps_st (f := f) (n := n) (l := l) h
  rw [e] at this; exact this

theorem hresBody_keeps {x0 : Bool} {x1 : TokenDest} {s : State} {x3 : Chord} {x4 x5 : Nat} {x6 : Lane} {x7 : Vals} {v1 : LaneRes} {t : State}
    (e : hresBody x0 x1 s x3 x4 x5 x6 x7 = some (v1, t)) (h : s.HomeWf) : t.HomeWf := by
  unfold hresBody at e
  repeat' first | with_reducible assumption | cases e | split at e

theorem State.mapSpill_keeps {s : State} {x1 : BitVec 12} {x2 : Token → Option Token} (h : s.HomeWf) : (State.mapSpill s x1 x2).HomeWf := by
  unfold State.mapSpill
  repeat' first
    | with_reducible assumption | intro _ | with_reducible apply HomeWf.ite | with_reducible apply HomeWf.foldl
    | with_reducible apply State.aput_keeps | (unfold State.HomeWf; dsimp only; with_reducible apply HomeWf.mem) | cases e | split at e | split

theorem State.discardHids_keeps {s : State} {x1 : BitVec 12} {x2 : List (BitVec 8)} (h : s.HomeWf) : (State.discardHids s x1 x2).HomeWf := by
  unfold State.discardHids
  repeat' first
    | with_reducible assumption | intro _ | with_reducible apply HomeWf.ite | with_reducible apply HomeWf.foldl
    | with_reducible apply State.engSigLine_keeps | with_reducible apply State.modCore_keeps | with_reducible apply State.mapSpill_keeps
    | with_reducible apply State.modCtx_keeps | with_reducible apply State.examineFifo_keeps
    | (unfold State.HomeWf; dsimp only; with_reducible apply HomeWf.mem)

theorem hqryBody_keeps {s : State} {x1 : Chord} {x2 x3 : Nat} {x4 : Lane} {x5 : Vals} {v1 : LaneRes} {t : State} (e : hqryBody s x1 x2 x3 x4 x5 = some (v1, t))
    (h : s.HomeWf) : t.HomeWf := by
  unfold hqryBody at e
  repeat' first | with_reducible assumption | cases e

theorem execHqry_keeps {x0 : Flds} {s : State} {t : State} (e : execHqry x0 s = .next t) (h : s.HomeWf) : t.HomeWf := by
  unfold execHqry at e
  repeat' first | with_reducible assumption | cases e | (with_reducible refine State.perform_keeps (fun _ _ _ _ _ _ _ _ e _ => ?_) ?_)

theorem State.freeHids_keeps {s : State} {x1 : BitVec 12} {x2 : List (BitVec 8)} (h : s.HomeWf) : (State.freeHids s x1 x2).HomeWf := by
  unfold State.freeHids
  repeat' first | with_reducible assumption | with_reducible apply State.modCtx_keeps

theorem State.freeForks_keeps {s : State} {x1 : BitVec 12} {x2 : List (BitVec 8)} (h : s.HomeWf) : (State.freeForks s x1 x2).HomeWf := by
  unfold State.freeForks
  repeat' first
    | with_reducible assumption | with_reducible apply HomeWf.ite | with_reducible apply State.freeHids_keeps
    | (unfold State.HomeWf; dsimp only; with_reducible apply HomeWf.mem)

theorem State.mergeVersions_keeps {s : State} {x1 : BitVec 12} {x2 : BitVec 8} {x3 : BitVec 8} (h : s.HomeWf) : (State.mergeVersions s x1 x2 x3).HomeWf := by
  unfold State.mergeVersions
  repeat' first
    | with_reducible assumption | intro _ | with_reducible apply HomeWf.ite | with_reducible apply HomeWf.foldl
    | with_reducible apply State.engSigLine_keeps | with_reducible apply State.acceptLine_keeps | with_reducible apply State.setLine_keeps
    | with_reducible apply State.acceptVersion_keeps | (unfold State.HomeWf; dsimp only; with_reducible apply HomeWf.mem) | cases e | split at e
    | split

theorem State.confirmEnd_keeps {s : State} {x1 : BitVec 12} {x2 : BitVec 8} (h : s.HomeWf) : (State.confirmEnd s x1 x2).HomeWf := by
  unfold State.confirmEnd
  repeat' first
    | with_reducible assumption | intro _ | with_reducible apply HomeWf.ite | with_reducible apply HomeWf.foldl
    | with_reducible apply State.engSigLine_keeps | with_reducible apply State.mergeVersions_keeps | with_reducible apply State.mapSpill_keeps
    | with_reducible apply State.modCtx_keeps | with_reducible apply State.modCore_keeps | with_reducible apply State.sendToken_keeps
    | (unfold State.HomeWf; dsimp only; with_reducible apply HomeWf.mem)

theorem State.hresToken_keeps {s : State} {x1 : BitVec 12} {x2 : HypReq} {x3 : Bool} (h : s.HomeWf) : (State.hresToken s x1 x2 x3).HomeWf := by
  unfold State.hresToken
  repeat' first
    | with_reducible assumption | with_reducible apply HomeWf.ite | with_reducible apply State.countDiscard_keeps
    | with_reducible apply State.sendToken_keeps | (unfold State.HomeWf; dsimp only; with_reducible apply HomeWf.mem) | cases e | split at e
    | split

theorem State.sweepEnd_keeps {s : State} {x1 : BitVec 12} (h : s.HomeWf) : (State.sweepEnd s x1).HomeWf := by
  unfold State.sweepEnd
  repeat' first
    | with_reducible assumption | with_reducible apply HomeWf.ite | with_reducible apply State.freeHids_keeps
    | with_reducible apply State.confirmEnd_keeps | with_reducible apply State.modCtx_keeps | with_reducible apply State.hresToken_keeps
    | (unfold State.HomeWf; dsimp only; with_reducible apply HomeWf.mem) | cases e | split at e | split

theorem execSweepEnd_keeps {x0 : BitVec 12} {s : State} {t : State} (e : execSweepEnd x0 s = .next t) (h : s.HomeWf) : t.HomeWf := by
  unfold execSweepEnd at e
  repeat' first | with_reducible assumption | cases e | with_reducible apply State.sweepEnd_keeps

theorem hnoteBody_keeps {s : State} {x1 : Chord} {x2 x3 : Nat} {x4 : Lane} {x5 : Vals} {v1 : LaneRes} {t : State} (e : hnoteBody s x1 x2 x3 x4 x5 = some (v1, t))
    (h : s.HomeWf) : t.HomeWf := by
  unfold hnoteBody at e
  repeat' first | with_reducible assumption | cases e | split at e | dsimp only at e

theorem State.reserveStep_keeps {s : State} {c slot : Nat} (h : s.HomeWf) : (s.reserveStep c slot).HomeWf := by
  unfold State.reserveStep
  split
  · exact h
  · refine State.setChord_keeps (HomeWf.foldl2 (fun p w hp => ?_) h)
    split
    · rename_i h1
      split at h1
      · cases h1
      · exact State.reserve_keeps h1 hp
    · exact hp

theorem execSpeculativeReservation_keeps {x0 : BitVec 8} {x1 : BitVec 4} {s : State} {t : State} (e : execSpeculativeReservation x0 x1 s = .next t)
    (h : s.HomeWf) : t.HomeWf := by
  unfold execSpeculativeReservation at e
  repeat' first | with_reducible assumption | cases e | with_reducible apply State.reserveStep_keeps

theorem State.flushTagged_keeps {s : State} {n : BitVec 12} {ids : List (BitVec 8)} {t : State} (e : s.flushTagged n ids = some t) (h : s.HomeWf) :
    t.HomeWf := by
  unfold State.flushTagged at e
  refine HomeWf.foldlO e (fun s c t e hs => ?_) (fun s hs => ?_)
  · exact State.drainHome_keeps e (HomeWf.foldl (fun s l hs => State.flushLine_keeps hs) hs)
  · cases hs; exact h

theorem execHres_keeps {x0 : Bool} {x1 : TokenDest} {x2 : Flds} {s : State} {t : State} (e : execHres x0 x1 x2 s = .next t) (h : s.HomeWf) : t.HomeWf := by
  unfold execHres at e
  repeat' first
    | with_reducible assumption | cases e | (with_reducible refine State.perform_keeps (fun _ _ _ _ _ _ _ _ e _ => ?_) ?_)
    | (with_reducible refine hresBody_keeps (by assumption) ?_)

theorem State.hypRequest_keeps {s : State} {x1 : BitVec 12} (h : s.HomeWf) : (State.hypRequest s x1).HomeWf := by
  unfold State.hypRequest
  repeat' first
    | with_reducible assumption | with_reducible apply HomeWf.ite | with_reducible apply State.modCtx_keeps
    | with_reducible apply State.hresToken_keeps | (unfold State.HomeWf; dsimp only; with_reducible apply HomeWf.mem) | cases e | split at e
    | split

theorem execHypothesisRequest_keeps {x0 : BitVec 12} {s : State} {t : State} (e : execHypothesisRequest x0 s = .next t) (h : s.HomeWf) : t.HomeWf := by
  unfold execHypothesisRequest at e
  repeat' first | with_reducible assumption | cases e | with_reducible apply State.hypRequest_keeps

theorem State.phaseB_keeps {s : State} {x1 : BitVec 12} (h : s.HomeWf) : (State.phaseB s x1).HomeWf := by
  unfold State.phaseB
  repeat' first
    | with_reducible assumption | intro _ | with_reducible apply HomeWf.ite | with_reducible apply HomeWf.foldl
    | with_reducible apply State.modCtx_keeps | with_reducible apply State.settleWait_keeps | with_reducible apply State.discardHids_keeps
    | (with_reducible refine State.flushTagged_keeps (by assumption) ?_) | with_reducible apply State.engSigLine_keeps
    | (unfold State.HomeWf; dsimp only; with_reducible apply HomeWf.mem) | cases e | split at e | split

theorem execSweepPhaseB_keeps {x0 : BitVec 12} {s : State} {t : State} (e : execSweepPhaseB x0 s = .next t) (h : s.HomeWf) : t.HomeWf := by
  unfold execSweepPhaseB at e
  repeat' first | with_reducible assumption | cases e | with_reducible apply State.phaseB_keeps

theorem State.note_keeps {s : State} {x1 : BitVec 12} {x2 : BitVec 8} {x3 : BitVec 32} (h : s.HomeWf) : (State.note s x1 x2 x3).HomeWf := by
  unfold State.note
  repeat' first | with_reducible assumption | with_reducible apply HomeWf.ite | with_reducible apply State.setHyp_keeps | cases e | split at e | split

theorem execHfork_keeps {x0 : Flds} {s : State} {t : State} (e : execHfork x0 s = .next t) (h : s.HomeWf) : t.HomeWf := by
  unfold execHfork at e
  repeat' first
    | with_reducible assumption | cases e | split at e | dsimp only at e | with_reducible apply State.setFocus_keeps
    | (with_reducible refine State.fork_keeps (by assumption) ?_) | with_reducible apply forkLanes_keeps_st

theorem State.capacityStep_keeps {s : State} {x1 x2 : Nat} (h : s.HomeWf) : (State.capacityStep s x1 x2).HomeWf := by
  unfold State.capacityStep
  repeat' first
    | with_reducible assumption | with_reducible apply HomeWf.ite | with_reducible apply State.setChord_keeps
    | (unfold State.HomeWf; dsimp only; with_reducible apply HomeWf.mem) | cases e | split at e | split

theorem execHypothesisCapacity_keeps {x0 : BitVec 8} {x1 : BitVec 4} {s : State} {t : State} (e : execHypothesisCapacity x0 x1 s = .next t)
    (h : s.HomeWf) : t.HomeWf := by
  unfold execHypothesisCapacity at e
  repeat' first | with_reducible assumption | cases e | with_reducible apply State.capacityStep_keeps

theorem execHnote_keeps {x0 : Flds} {s : State} {t : State} (e : execHnote x0 s = .next t) (h : s.HomeWf) : t.HomeWf := by
  unfold execHnote at e
  repeat' first
    | with_reducible assumption | cases e | (with_reducible refine State.perform_keeps (fun _ _ _ _ _ _ _ _ e _ => ?_) ?_)
    | (with_reducible refine hnoteBody_keeps (by assumption) ?_)

end Sys2Proof.Machine
end

