-- ==== Sys2Proof/Laws/KeepsSteps.lean ====
section
/-! SUPPORT. The same for the loader, commit, the owner, the scheduler, faults, links, the host, security and management. -/

namespace Sys2Proof.Machine

set_option linter.unusedTactic false
set_option linter.unreachableTactic false

theorem State.callOff_keeps {s : State} {x1 : LReq} (h : s.HomeWf) : (State.callOff s x1).HomeWf := by
  unfold State.callOff
  repeat' first
    | with_reducible assumption | intro _ | with_reducible apply HomeWf.ite | with_reducible apply HomeWf.foldl
    | with_reducible apply State.tell_keeps | (unfold State.HomeWf; dsimp only; with_reducible apply HomeWf.mem) | cases e | split at e | split

theorem State.setQueue_keeps {s : State} {x1 : List LReq} (h : s.HomeWf) : (State.setQueue s x1).HomeWf := by
  unfold State.setQueue
  repeat' first | with_reducible assumption | (unfold State.HomeWf; dsimp only; with_reducible apply HomeWf.mem)

theorem State.setReq_keeps {s : State} {x1 : Nat} {x2 : LReq} (h : s.HomeWf) : (State.setReq s x1 x2).HomeWf := by
  unfold State.setReq
  repeat' first | with_reducible assumption | with_reducible apply State.setQueue_keeps

theorem State.askOthers_keeps {s : State} {x1 : Nat} {x2 : LReq} {x3 : BitVec 16} (h : s.HomeWf) : (State.askOthers s x1 x2 x3).HomeWf := by
  unfold State.askOthers
  repeat' first
    | with_reducible assumption | intro _ | with_reducible apply HomeWf.ite | with_reducible apply HomeWf.foldl
    | with_reducible apply State.tell_keeps | with_reducible apply State.setReq_keeps

theorem State.record_keeps {s : State} {x1 : Word} {x2 : BitVec 11} {x3 : Word} {x4 : Word} (h : s.HomeWf) : (State.record s x1 x2 x3 x4).HomeWf := by
  unfold State.record
  repeat' first | with_reducible assumption | (unfold State.HomeWf; dsimp only; with_reducible apply HomeWf.mem)

theorem State.dropReads_keeps {s : State} {x1 x2 : Nat} {x3 : Chord} (h : s.HomeWf) : (State.dropReads s x1 x2 x3).HomeWf := by
  unfold State.dropReads
  repeat' first | with_reducible assumption | with_reducible apply State.forget_keeps

theorem State.beginEnd_keeps {s : State} {x1 : Nat} {x2 : Act} (h : s.HomeWf) : (State.beginEnd s x1 x2).HomeWf := by
  unfold State.beginEnd
  repeat' first
    | with_reducible assumption | intro _ | with_reducible apply HomeWf.ite | with_reducible apply HomeWf.foldl
    | with_reducible apply State.setAct_keeps | with_reducible apply State.tell_keeps

theorem State.completeAct_keeps {s : State} {x1 : Nat} {x2 : Act} (h : s.HomeWf) : (State.completeAct s x1 x2).HomeWf := by
  unfold State.completeAct
  repeat' first
    | with_reducible assumption | with_reducible apply HomeWf.ite | with_reducible apply State.record_keeps
    | with_reducible apply State.engToken_keeps | with_reducible apply State.beginEnd_keeps | cases e | split at e | split

theorem State.credit_keeps {s : State} {x1 x2 : Nat} {x3 : Sig} (h : s.HomeWf) : (State.credit s x1 x2 x3).HomeWf := by
  unfold State.credit
  repeat' first
    | with_reducible assumption | with_reducible apply HomeWf.ite | with_reducible apply State.sendBack_keeps
    | with_reducible apply State.completeAct_keeps | with_reducible apply State.setAct_keeps
    | (unfold State.HomeWf; dsimp only; with_reducible apply HomeWf.mem) | cases e | split at e | split

theorem State.ackEnd_keeps {s : State} {x1 : RemoteReq} {x2 : BitVec 16} (h : s.HomeWf) : (State.ackEnd s x1 x2).HomeWf := by
  unfold State.ackEnd
  repeat' first
    | with_reducible assumption | with_reducible apply State.payAcks_keeps | (unfold State.HomeWf; dsimp only; with_reducible apply HomeWf.mem)

theorem State.endAcked_keeps {s : State} {x1 : BitVec 12} {x2 : BitVec 16} {x3 : BitVec 12} (h : s.HomeWf) : (State.endAcked s x1 x2 x3).HomeWf := by
  unfold State.endAcked
  repeat' first
    | with_reducible assumption | with_reducible apply State.modAct_keeps | (unfold State.HomeWf; dsimp only; with_reducible apply HomeWf.mem)

theorem State.renumber_keeps {s : State} {x1 : Nat} {x2 : LReq} (h : s.HomeWf) : (State.renumber s x1 x2).HomeWf := by
  unfold State.renumber
  repeat' first | with_reducible assumption | with_reducible apply State.callOff_keeps | with_reducible apply State.setReq_keeps

theorem State.placeAsked_keeps {s : State} {x1 : RemoteReq} {x2 : BitVec 16} (h : s.HomeWf) : (State.placeAsked s x1 x2).HomeWf := by
  unfold State.placeAsked
  repeat' first
    | with_reducible assumption | with_reducible apply HomeWf.ite | with_reducible apply State.tell_keeps
    | with_reducible apply State.renumber_keeps | with_reducible apply State.setQueue_keeps | cases e | split at e | split

theorem State.failLaunch_keeps {s : State} {x1 : LReq} {x2 : BitVec 8} (h : s.HomeWf) : (State.failLaunch s x1 x2).HomeWf := by
  unfold State.failLaunch
  repeat' first
    | with_reducible assumption | with_reducible apply HomeWf.ite | with_reducible apply State.tell_keeps
    | with_reducible apply State.event_keeps | with_reducible apply State.record_keeps | with_reducible apply State.engToken_keeps | cases e
    | split at e | split

theorem State.dropReq_keeps {s : State} {x1 : Nat} (h : s.HomeWf) : (State.dropReq s x1).HomeWf := by
  unfold State.dropReq
  repeat' first | with_reducible assumption | with_reducible apply State.setQueue_keeps

theorem State.tellTrap_keeps {s : State} {x1 : BitVec 12} (h : s.HomeWf) : (State.tellTrap s x1).HomeWf := by
  unfold State.tellTrap
  repeat' first
    | with_reducible assumption | intro _ | with_reducible apply HomeWf.ite | with_reducible apply HomeWf.foldl
    | with_reducible apply State.modCtx_keeps | with_reducible apply State.tell_keeps | with_reducible apply State.denyDomain_keeps

theorem State.placeTrap_keeps {s : State} {x1 : BitVec 12} (h : s.HomeWf) : (State.placeTrap s x1).HomeWf := by
  unfold State.placeTrap
  repeat' first | with_reducible assumption | with_reducible apply State.tellTrap_keeps | with_reducible apply State.modAct_keeps

theorem State.loaderWork_keeps {s : State} {x1 : RemoteReq} {x2 : Sig} (h : s.HomeWf) : (State.loaderWork s x1 x2).HomeWf := by
  unfold State.loaderWork
  repeat' first
    | with_reducible assumption | with_reducible apply HomeWf.ite | with_reducible apply State.credit_keeps
    | with_reducible apply State.setQueue_keeps | with_reducible apply State.beginEnd_keeps | with_reducible apply State.ackEnd_keeps
    | with_reducible apply State.endAcked_keeps | with_reducible apply State.placeAsked_keeps | with_reducible apply State.setReq_keeps
    | with_reducible apply State.renumber_keeps | with_reducible apply State.callOff_keeps | with_reducible apply State.failLaunch_keeps
    | with_reducible apply State.dropReq_keeps | with_reducible apply State.tell_keeps | with_reducible apply State.placeTrap_keeps
    | with_reducible apply State.modAct_keeps | with_reducible apply State.modCtx_keeps
    | (unfold State.HomeWf; dsimp only; with_reducible apply HomeWf.mem) | cases e | split at e | split

theorem State.cancelEffs_keeps {s : State} {x1 : BitVec 12} {x2 : List (Nat × Eff)} (h : s.HomeWf) : (State.cancelEffs s x1 x2).HomeWf := by
  unfold State.cancelEffs
  repeat' first
    | with_reducible assumption | intro _ | with_reducible apply HomeWf.ite | with_reducible apply HomeWf.foldl
    | with_reducible apply State.setCopyEngine_keeps | cases e | split at e | split

theorem State.giveBack_keeps {s : State} {x1 : Nat} {x2 : Chord} {x3 : Lane} (h : s.HomeWf) : (State.giveBack s x1 x2 x3).HomeWf := by
  unfold State.giveBack
  repeat' first
    | with_reducible assumption | with_reducible apply State.modCore_keeps | with_reducible apply State.freeForks_keeps
    | with_reducible apply State.cancelEffs_keeps

theorem State.dropChordEffs_keeps {s : State} {x1 : Chord} (h : s.HomeWf) : (State.dropChordEffs s x1).HomeWf := by
  unfold State.dropChordEffs
  repeat' first | with_reducible assumption | with_reducible apply State.freeForks_keeps | with_reducible apply State.cancelEffs_keeps

theorem State.discardChord_keeps {s : State} {x1 : Nat} {x2 : Chord} (h : s.HomeWf) : (State.discardChord s x1 x2).HomeWf := by
  unfold State.discardChord
  repeat' first
    | with_reducible assumption | intro _ | with_reducible apply HomeWf.ite | with_reducible apply HomeWf.foldl
    | with_reducible apply State.dropChordEffs_keeps | with_reducible apply State.giveBack_keeps

theorem State.dropReadsOf_keeps {s : State} {x1 : BitVec 12} {x2 : Nat} (h : s.HomeWf) : (State.dropReadsOf s x1 x2).HomeWf := by
  unfold State.dropReadsOf
  repeat' first | with_reducible assumption | with_reducible apply State.forget_keeps

theorem State.discardAct_keeps {s : State} {x1 : BitVec 12} {x2 : BitVec 16} (h : s.HomeWf) : (State.discardAct s x1 x2).HomeWf := by
  unfold State.discardAct
  repeat' first
    | with_reducible assumption | intro _ | with_reducible apply HomeWf.ite | with_reducible apply HomeWf.foldl
    | with_reducible apply State.dropReads_keeps | with_reducible apply State.discardChord_keeps | with_reducible apply State.modCore_keeps
    | with_reducible apply State.mapSpill_keeps | with_reducible apply State.modCtx_keeps | with_reducible apply State.dropReadsOf_keeps
    | with_reducible apply State.payAcks_keeps | with_reducible apply State.settleWait_keeps | with_reducible apply State.placeTrap_keeps
    | with_reducible apply State.examineFifo_keeps | (unfold State.HomeWf; dsimp only; with_reducible apply HomeWf.mem)

theorem State.goStep_keeps {s : State} {x1 : Nat} {x2 : LReq} {x3 : BitVec 16} {x4 : BitVec 32 × BitVec 4} (h : s.HomeWf) : (State.goStep s x1 x2 x3 x4).HomeWf := by
  unfold State.goStep
  repeat' first | with_reducible assumption | with_reducible apply State.sendToken_keeps | with_reducible apply State.dropReq_keeps

theorem State.setRoles_keeps {s : State} {x1 : Nat} {x2 : BitVec 64} {t : State} (e : State.setRoles s x1 x2 = some t) (h : s.HomeWf) : t.HomeWf := by
  unfold State.setRoles at e
  repeat' first
    | with_reducible assumption | cases e | split at e | dsimp only at e | (rw [Option.map_eq_some_iff] at e; obtain ⟨_, e1, e⟩ := e)
    | (injection e with e) | with_reducible apply State.modCore_keeps | with_reducible apply State.freshAccs_keeps
    | (with_reducible refine State.flushAll_keeps (by assumption) ?_)

theorem placeCores_keeps {key : Nat} {d : Desc} {i : Image} {l : List Nat} {s t : State} (e : placeCores key d i l s = some t) (h : s.HomeWf) : t.HomeWf := by
  induction l generalizing s with
  | nil => unfold placeCores at e; cases e; exact h
  | cons c r ih =>
    unfold placeCores at e
    dsimp only at e
    split at e
    · cases e
    · rename_i s1 h1
      have hs : s1.HomeWf := by
        split at h1
        · exact State.setRoles_keeps h1 h
        · cases h1; exact h
      split at e
      · cases e
      · exact ih e (State.setCore_keeps hs)

theorem State.placeStep_keeps {s : State} {x1 : Nat} {x2 : LReq} {x3 : BitVec 16} {x4 : Image} (h : s.HomeWf) : (State.placeStep s x1 x2 x3 x4).HomeWf := by
  unfold State.placeStep
  repeat' first
    | with_reducible assumption | intro _ | with_reducible apply HomeWf.ite | with_reducible apply HomeWf.foldl
    | with_reducible apply State.goStep_keeps | with_reducible apply State.callOff_keeps | with_reducible apply State.failLaunch_keeps
    | with_reducible apply State.dropReq_keeps | with_reducible apply State.askOthers_keeps
    | (with_reducible refine placeCores_keeps (by assumption) ?_) | with_reducible apply State.placeTrap_keeps
    | with_reducible apply State.setAct_keeps | with_reducible apply State.bump_keeps | with_reducible apply State.tell_keeps
    | with_reducible apply State.setReq_keeps | (unfold State.HomeWf; dsimp only; with_reducible apply HomeWf.mem) | cases e | split at e | split

theorem State.assign_keeps {s : State} {x1 : Nat} {x2 : LReq} {x3 : Image} (h : s.HomeWf) : (State.assign s x1 x2 x3).HomeWf := by
  unfold State.assign
  repeat' first
    | with_reducible assumption | with_reducible apply HomeWf.ite | with_reducible apply State.failLaunch_keeps
    | with_reducible apply State.dropReq_keeps | with_reducible apply State.modCtx_keeps | with_reducible apply State.setReq_keeps | cases e
    | split at e | split

theorem loaderBytes_keeps_ok {s : State} {x1 : BitVec 12} {x2 : BitVec 16} {x3 x4 : Nat} {v1 : List Byte} {t : State} (e : loaderBytes s x1 x2 x3 x4 = .ok (v1, t))
    (h : s.HomeWf) : t.HomeWf := by
  unfold loaderBytes at e
  repeat' first
    | with_reducible assumption | cases e | split at e | with_reducible apply engAccess_keepsE
    | (with_reducible refine engAccess_keeps_ok (by assumption) ?_)

theorem loaderBytes_keeps_error {s : State} {x1 : BitVec 12} {x2 : BitVec 16} {x3 x4 : Nat} {ea : EngAccess} (e : loaderBytes s x1 x2 x3 x4 = .error ea)
    (h : s.HomeWf) : ea.HomeWf := by
  unfold loaderBytes at e
  repeat' first | with_reducible assumption | cases e | split at e | with_reducible apply engAccess_keepsE

theorem loaderBytes_keepsF {s : State} {x1 : BitVec 12} {x2 : BitVec 16} {x3 x4 : Nat}  {st : Stop} {t : State} (e : loaderBytes s x1 x2 x3 x4 = .error (.fault st t))
    (h : s.HomeWf) : t.HomeWf := loaderBytes_keeps_error e h

theorem loaderBytes_keepsL {s : State} {x1 : BitVec 12} {x2 : BitVec 16} {x3 x4 : Nat} {t : State} (e : loaderBytes s x1 x2 x3 x4 = .error (.later t))
    (h : s.HomeWf) : t.HomeWf := loaderBytes_keeps_error e h

theorem readImage_keeps_ok {s : State} {x1 : BitVec 12} {x2 : BitVec 16} {x3 : Nat} {im : Image} {t : State} (e : readImage s x1 x2 x3 = .ok im t)
    (h : s.HomeWf) : t.HomeWf := by
  unfold readImage at e
  repeat' first
    | with_reducible assumption | cases e | split at e | dsimp only at e | (with_reducible refine loaderBytes_keeps_ok (by assumption) ?_)
    | (with_reducible refine loaderBytes_keepsF (by assumption) ?_) | (with_reducible refine loaderBytes_keepsL (by assumption) ?_)
    | (with_reducible refine loaderBytes_keeps_error (by assumption) ?_) | with_reducible apply State.bump_keeps

theorem readImage_keeps_refused {s : State} {x1 : BitVec 12} {x2 : BitVec 16} {x3 : Nat} {t : State} (e : readImage s x1 x2 x3 = .refused t)
    (h : s.HomeWf) : t.HomeWf := by
  unfold readImage at e
  repeat' first | with_reducible assumption | cases e | split at e | dsimp only at e | (with_reducible refine loaderBytes_keeps_ok (by assumption) ?_)

theorem readImage_keeps_error {s : State} {x1 : BitVec 12} {x2 : BitVec 16} {x3 : Nat} {ea : EngAccess} (e : readImage s x1 x2 x3 = .stop ea)
    (h : s.HomeWf) : ea.HomeWf := by
  unfold readImage at e
  repeat' first
    | with_reducible assumption | cases e | split at e | dsimp only at e | (with_reducible refine loaderBytes_keeps_ok (by assumption) ?_)
    | (with_reducible refine loaderBytes_keepsF (by assumption) ?_) | (with_reducible refine loaderBytes_keepsL (by assumption) ?_)
    | (with_reducible refine loaderBytes_keeps_error (by assumption) ?_)

theorem readImage_keepsF {s : State} {x1 : BitVec 12} {x2 : BitVec 16} {x3 : Nat}  {st : Stop} {t : State} (e : readImage s x1 x2 x3 = .stop (.fault st t))
    (h : s.HomeWf) : t.HomeWf := readImage_keeps_error e h

theorem readImage_keepsL {s : State} {x1 : BitVec 12} {x2 : BitVec 16} {x3 : Nat} {t : State} (e : readImage s x1 x2 x3 = .stop (.later t))
    (h : s.HomeWf) : t.HomeWf := readImage_keeps_error e h

theorem State.readDone_keeps {s : State} {x1 : BitVec 12} (h : s.HomeWf) : (State.readDone s x1).HomeWf := by
  unfold State.readDone
  repeat' first | with_reducible assumption | with_reducible apply State.forget_keeps

theorem State.stopLaunch_keeps {s : State} {i : Nat} {q : LReq} {e : EngAccess} (he : e.HomeWf) (h : s.HomeWf) : (s.stopLaunch i q e).HomeWf := by
  unfold State.stopLaunch
  dsimp only
  split
  · exact State.setReq_keeps he
  · exact State.failLaunch_keeps (State.dropReq_keeps (State.readDone_keeps (State.denyIf_keeps h)))
  · exact he
  · exact h

theorem State.keepImage_keeps {s : State} {x1 : Image} {t : State} (e : State.keepImage s x1 = some t) (h : s.HomeWf) : t.HomeWf := by
  unfold State.keepImage at e
  repeat' first
    | with_reducible assumption | cases e | split at e | dsimp only at e | with_reducible apply State.pick_keeps_st
    | (with_reducible refine State.pick_keeps (by assumption) ?_) | (unfold State.HomeWf; dsimp only; with_reducible apply HomeWf.mem)

theorem State.readStep_keeps {s : State} {x1 : Nat} {x2 : LReq} (h : s.HomeWf) : (State.readStep s x1 x2).HomeWf := by
  unfold State.readStep
  repeat' first
    | with_reducible assumption | with_reducible apply HomeWf.ite | with_reducible apply State.assign_keeps
    | (with_reducible refine readImage_keeps_ok (by assumption) ?_) | (with_reducible refine readImage_keeps_refused (by assumption) ?_)
    | (with_reducible refine readImage_keepsF (by assumption) ?_) | (with_reducible refine readImage_keepsL (by assumption) ?_)
    | (with_reducible refine readImage_keeps_error (by assumption) ?_) | with_reducible apply State.stopLaunch_keeps
    | with_reducible apply State.failLaunch_keeps | with_reducible apply State.dropReq_keeps | with_reducible apply State.readDone_keeps
    | (with_reducible refine State.keepImage_keeps (by assumption) ?_) | cases e | split at e | split

theorem State.readDesc_keeps {s : State} {x1 : Nat} {x2 : LReq} {x3 : Word} (h : s.HomeWf) : (State.readDesc s x1 x2 x3).HomeWf := by
  unfold State.readDesc
  repeat' first
    | with_reducible assumption | with_reducible apply HomeWf.ite | (with_reducible refine loaderBytes_keeps_ok (by assumption) ?_)
    | (with_reducible refine loaderBytes_keepsF (by assumption) ?_) | (with_reducible refine loaderBytes_keepsL (by assumption) ?_)
    | (with_reducible refine loaderBytes_keeps_error (by assumption) ?_) | with_reducible apply State.stopLaunch_keeps
    | with_reducible apply State.readDone_keeps | with_reducible apply State.bump_keeps | with_reducible apply State.setReq_keeps
    | with_reducible apply State.failLaunch_keeps | with_reducible apply State.dropReq_keeps
    | (unfold State.HomeWf; dsimp only; with_reducible apply HomeWf.mem) | cases e | split at e | split

theorem State.endStep_keeps {s : State} {x1 : BitVec 12} {x2 : BitVec 16} (h : s.HomeWf) : (State.endStep s x1 x2).HomeWf := by
  unfold State.endStep
  repeat' first
    | with_reducible assumption | with_reducible apply HomeWf.ite | with_reducible apply State.discardAct_keeps | cases e | split at e | split

theorem State.readTables_keeps {s : State} {x1 : Nat} {x2 : LReq} (h : s.HomeWf) : (State.readTables s x1 x2).HomeWf := by
  unfold State.readTables
  repeat' first
    | with_reducible assumption | with_reducible apply HomeWf.ite | (with_reducible refine loaderBytes_keeps_ok (by assumption) ?_)
    | (with_reducible refine loaderBytes_keepsF (by assumption) ?_) | (with_reducible refine loaderBytes_keepsL (by assumption) ?_)
    | (with_reducible refine loaderBytes_keeps_error (by assumption) ?_) | with_reducible apply State.stopLaunch_keeps
    | with_reducible apply State.failLaunch_keeps | with_reducible apply State.dropReq_keeps | with_reducible apply State.readDone_keeps
    | with_reducible apply State.bump_keeps | with_reducible apply State.setReq_keeps | cases e | split at e | split

theorem State.launchWork_keeps {s : State} {x1 : Nat} {x2 : LReq} (h : s.HomeWf) : (State.launchWork s x1 x2).HomeWf := by
  unfold State.launchWork
  repeat' first
    | with_reducible assumption | with_reducible apply HomeWf.ite | with_reducible apply State.loadDesc_keeps
    | with_reducible apply State.protectionEvent_keeps | with_reducible apply State.dropReq_keeps | with_reducible apply State.placeStep_keeps
    | with_reducible apply State.readStep_keeps | with_reducible apply State.readDesc_keeps | with_reducible apply State.readTables_keeps
    | cases e | split at e | split

theorem State.launchStep_keeps {s : State} {x1 : Nat} (h : s.HomeWf) : (State.launchStep s x1).HomeWf := by
  unfold State.launchStep
  repeat' first
    | with_reducible assumption | with_reducible apply HomeWf.ite | with_reducible apply State.settleWait_keeps
    | with_reducible apply State.launchWork_keeps | cases e | split at e | split

theorem State.loaderIn_keeps {s : State} {x1 : RemoteReq} {x2 : Sig} (h : s.HomeWf) : (State.loaderIn s x1 x2).HomeWf := by
  unfold State.loaderIn
  repeat' first | with_reducible assumption | with_reducible apply State.settleWait_keeps | with_reducible apply State.loaderWork_keeps

theorem State.failStopped_keeps {s : State} {x1 : Option Stop → Bool} (h : s.HomeWf) : (State.failStopped s x1).HomeWf := by
  unfold State.failStopped
  repeat' first
    | with_reducible assumption | intro _ | with_reducible apply HomeWf.ite | with_reducible apply HomeWf.foldl
    | with_reducible apply State.failLaunch_keeps | with_reducible apply State.setQueue_keeps

theorem execLaunchRequest_keeps {x0 : Nat} {s : State} {t : State} (e : execLaunchRequest x0 s = .next t) (h : s.HomeWf) : t.HomeWf := by
  unfold execLaunchRequest at e
  repeat' first | with_reducible assumption | cases e | with_reducible apply State.launchStep_keeps

theorem State.dropWith_keeps {s : State} {x1 : Nat} {x2 : Chord} {x3 : Lane} {x4 : Nat} {x5 : Trap} (h : s.HomeWf) : (State.dropWith s x1 x2 x3 x4 x5).HomeWf := by
  unfold State.dropWith
  repeat' first | with_reducible assumption | with_reducible apply State.sendTrap_keeps

theorem State.flushSettle_keeps {s : State} {x1 : Nat} {t : State} (e : State.flushSettle s x1 = some t) (h : s.HomeWf) : t.HomeWf := by
  unfold State.flushSettle at e
  repeat' first
    | with_reducible assumption | cases e | split at e | dsimp only at e | (rw [Option.bind_eq_some_iff] at e; obtain ⟨_, e1, e⟩ := e)
    | (injection e with e) | (with_reducible refine State.flushDirty_keeps (by assumption) ?_)
    | (with_reducible refine State.settle_keeps (by assumption) ?_)

theorem State.prepLazy_keeps {s : State} {x1 : Nat} {x2 : Scope} {x3 : Option Place} {v1 : Bool} {t : State} (e : State.prepLazy s x1 x2 x3 = some (t, v1))
    (h : s.HomeWf) : t.HomeWf := by
  unfold State.prepLazy at e
  repeat' first
    | with_reducible assumption | cases e | split at e | dsimp only at e | (rw [Option.map_eq_some_iff] at e; obtain ⟨_, e1, e⟩ := e)
    | (injection e with e) | (with_reducible refine State.flushSettle_keeps (by assumption) ?_)
    | (with_reducible refine State.settle_keeps (by assumption) ?_)

theorem State.prepare_keeps {s : State} {c : Nat} {n : BitVec 12} {act : BitVec 16} {ks : List Word} {e : Eff} {t : State} {b : Bool}
 (h0 : s.prepare c n act ks e = some (t, b)) (h : s.HomeWf) : t.HomeWf := by
  have full : ((s.flushSettle c).map fun s => (s, true)) = some (t, b) → t.HomeWf := by
    intro e1
    rw [Option.map_eq_some_iff] at e1
    obtain ⟨u, e1, e2⟩ := e1
    cases e2; exact State.flushSettle_keeps e1 h
  have clear : ∀ {u : State} {l : List Place}, u.HomeWf → ∀ {d : Bool}, ((u.clearOwn c l).map fun s => (s, d)) = some (t, b) → t.HomeWf := by
    intro u l hu d e1
    rw [Option.map_eq_some_iff] at e1
    obtain ⟨u, e1, e2⟩ := e1
    cases e2; exact State.clearOwn_keeps e1 hu
  have mx : ∀ {p : Bool} {l : List Place}, (if p then none else (s.clearOwn c l).map fun s => (s, false)) = some (t, b) → t.HomeWf := by
    intro p l e1
    split at e1
    · cases e1
    · exact clear h e1
  unfold State.prepare at h0
  dsimp only at h0
  split at h0
  all_goals first
    | exact full h0
    | exact clear h h0
    | exact mx h0
    | exact State.prepLazy_keeps h0 h
    | (cases h0; exact h)
    | (split at h0 <;> first | exact full h0 | (cases h0; done) | (cases h0; exact h))
    | (rw [Option.map_eq_some_iff] at h0; obtain ⟨u, e1, e2⟩ := h0; cases e2; exact State.complete_keeps e1 h)
    | (repeat' first | cases h0 | split at h0
       all_goals first | exact h | exact full h0)
    | skip
  rw [Option.bind_eq_some_iff] at h0
  obtain ⟨⟨u, d⟩, e1, e2⟩ := h0
  refine clear ?_ e2
  split at e1
  · exact State.prepLazy_keeps e1 h
  · cases e1; exact h

theorem State.mxSeek_keeps_later {s : State} {x1 : Nat} {x2 : Chord} {x3 : Nat} {x4 : Eff} {v0 : Who} {t : State} (e : State.mxSeek s x1 x2 x3 x4 = (.later t, v0))
    (h : s.HomeWf) : t.HomeWf := by
  unfold State.mxSeek at e
  repeat' first
    | with_reducible assumption | cases e | split at e | dsimp only at e | (with_reducible refine State.seek_keeps_later (by assumption) ?_)

theorem State.writeThrough_keeps {s : State} {x1 x2 : Nat} {x3 : List Byte} (h : s.HomeWf) : (State.writeThrough s x1 x2 x3).HomeWf := by
  unfold State.writeThrough
  repeat' first | with_reducible assumption | with_reducible apply State.retag_keeps | with_reducible apply State.modCore_keeps

theorem State.leaveFlag_keeps {s : State} {x1 : Nat} {x2 : BitVec 12} {x3 : List (Place × Byte)} {x4 : Scope} (h : s.HomeWf) :
    (State.leaveFlag s x1 x2 x3 x4).HomeWf := by
  unfold State.leaveFlag
  repeat' first
    | with_reducible assumption | with_reducible apply HomeWf.ite | with_reducible apply State.writeThrough_keeps
    | with_reducible apply State.modCore_keeps | with_reducible apply State.newId_keeps_st
    | (with_reducible refine State.newId_keeps (by assumption) ?_) | with_reducible apply State.sendAccess_keeps
    | with_reducible apply State.corePut_keeps | (unfold State.HomeWf; dsimp only; with_reducible apply HomeWf.mem) | cases e | split at e
    | split

theorem State.leaveToken_keeps {s : State} {x1 : Nat} {x2 : Token} (h : s.HomeWf) : (State.leaveToken s x1 x2).HomeWf := by
  unfold State.leaveToken
  repeat' first
    | with_reducible assumption | with_reducible apply HomeWf.ite | with_reducible apply State.modCore_keeps
    | with_reducible apply State.sendToken_keeps

theorem State.performCctl_keeps {s : State} {x1 : Nat} {x2 : CctlOp} {x3 : Nat} (h : s.HomeWf) : (State.performCctl s x1 x2 x3).HomeWf := by
  unfold State.performCctl
  repeat' first
    | with_reducible assumption | with_reducible apply HomeWf.ite | with_reducible apply State.writeBackLine_keeps
    | with_reducible apply State.dropLine_keeps | with_reducible apply State.flushLine_keeps | cases e | split at e | split

theorem State.lockWindow_keeps {s : State} {x1 : BitVec 12} {x2 : Nat} {x3 : Bool} {x4 : TileLoc} (h : s.HomeWf) : (State.lockWindow s x1 x2 x3 x4).HomeWf := by
  unfold State.lockWindow
  repeat' first
    | with_reducible assumption | with_reducible apply HomeWf.ite | (unfold State.HomeWf; dsimp only; with_reducible apply HomeWf.mem) | cases e
    | split at e | split

theorem State.askSym_keeps {s : State} {x1 : Nat} {x2 : Chord} {x3 : List (BitVec 32 × BitVec 8)} {x4 : SymKind} {x5 : Word} {x6 : Word} (h : s.HomeWf) :
    (State.askSym s x1 x2 x3 x4 x5 x6).HomeWf := by
  unfold State.askSym
  repeat' first
    | with_reducible assumption | with_reducible apply HomeWf.ite | with_reducible apply State.newId_keeps_st
    | (with_reducible refine State.newId_keeps (by assumption) ?_) | with_reducible apply State.lockWindow_keeps
    | (unfold State.HomeWf; dsimp only; with_reducible apply HomeWf.mem) | cases e | split at e | split

theorem State.dropEffect_keeps {s : State} {x1 : Nat} {x2 : Chord} {x3 : Lane} {x4 : Nat} {x5 : Eff} (h : s.HomeWf) : (State.dropEffect s x1 x2 x3 x4 x5).HomeWf := by
  unfold State.dropEffect
  repeat' first | with_reducible assumption | with_reducible apply State.dropWith_keeps

theorem State.performPsel_keeps {s : State} {x1 : Nat} {x2 : Chord} {x3 : Lane} {x4 : Nat} {x5 : Word} {x6 : Word} {x7 : Nat} {x8 : SelWord}
    (h : s.HomeWf) : (State.performPsel s x1 x2 x3 x4 x5 x6 x7 x8).HomeWf := by
  unfold State.performPsel
  repeat' first
    | with_reducible assumption | with_reducible apply HomeWf.ite | with_reducible apply State.dropEffect_keeps
    | with_reducible apply State.modCore_keeps | (unfold State.HomeWf; dsimp only; with_reducible apply HomeWf.mem)

theorem State.performRing_keeps {s : State} {x1 : Nat} {x2 : Chord} {x3 : Lane} {x4 : Nat} {x5 : Eff} (h : s.HomeWf) : (State.performRing s x1 x2 x3 x4 x5).HomeWf := by
  unfold State.performRing
  repeat' first
    | with_reducible assumption | with_reducible apply HomeWf.ite | with_reducible apply State.dropEffect_keeps
    | with_reducible apply State.chordEffect_keeps | cases e | split at e | split

theorem State.performEff_keeps {s : State} {x1 : Nat} {x2 : Chord} {x3 : Lane} {x4 : List (BitVec 32 × BitVec 8)} {x5 : Nat} {x6 : Eff} (h : s.HomeWf) :
    (State.performEff s x1 x2 x3 x4 x5 x6).HomeWf := by
  unfold State.performEff
  repeat' first
    | with_reducible assumption | with_reducible apply HomeWf.ite | with_reducible apply State.commitStore_keeps
    | with_reducible apply State.leaveFlag_keeps | with_reducible apply State.leaveUpdate_keeps | with_reducible apply State.leaveToken_keeps
    | with_reducible apply State.credit_keeps | with_reducible apply State.examineFifo_keeps | with_reducible apply State.tretParked_keeps
    | with_reducible apply State.killParked_keeps | with_reducible apply State.performCctl_keeps | with_reducible apply State.modCore_keeps
    | with_reducible apply State.lockCopy_keeps | with_reducible apply State.cancelCopy_keeps | with_reducible apply State.cancelStream_keeps
    | with_reducible apply State.askSym_keeps | with_reducible apply State.modCtx_keeps | with_reducible apply State.note_keeps
    | with_reducible apply State.performPsel_keeps | with_reducible apply State.performRing_keeps
    | (unfold State.HomeWf; dsimp only; with_reducible apply HomeWf.mem) | cases e | split at e | split

theorem State.noteRefusal_keeps {s : State} {x1 : Nat} {x2 : Chord} {x3 : Lane} {x4 : Nat} (h : s.HomeWf) : (State.noteRefusal s x1 x2 x3 x4).HomeWf := by
  unfold State.noteRefusal
  repeat' first | with_reducible assumption | (unfold State.HomeWf; dsimp only; with_reducible apply HomeWf.mem)

theorem State.finishLane_keeps {s : State} {x1 : Nat} {x2 : Lane} (h : s.HomeWf) : (State.finishLane s x1 x2).HomeWf := by
  unfold State.finishLane
  repeat' first | with_reducible assumption | with_reducible apply State.modCore_keeps | with_reducible apply State.examineFifo_keeps

theorem State.orphanLane_keeps {s : State} {x1 : Nat} {x2 : Chord} {x3 : Lane} (h : s.HomeWf) : (State.orphanLane s x1 x2 x3).HomeWf := by
  unfold State.orphanLane
  repeat' first
    | with_reducible assumption | with_reducible apply State.modCore_keeps | with_reducible apply State.giveBack_keeps
    | with_reducible apply State.examineFifo_keeps | with_reducible apply State.modCtx_keeps

theorem State.commitAct_keeps {s : State} {x1 : Nat} {x2 : Chord} {x3 : CommitAct} {v1 : List CommitAct} {t : State} (e : State.commitAct s x1 x2 x3 = some (t, v1))
    (h : s.HomeWf) : t.HomeWf := by
  unfold State.commitAct at e
  repeat' first
    | with_reducible assumption | cases e | split at e | dsimp only at e | (rw [Option.map_eq_some_iff] at e; obtain ⟨_, e1, e⟩ := e)
    | (injection e with e) | with_reducible apply HomeWf.ite | (with_reducible refine State.queueCopy_keeps (by assumption) ?_)
    | (with_reducible refine State.prepare_keeps (by assumption) ?_) | (with_reducible refine State.mxSeek_keeps_later (by assumption) ?_)
    | with_reducible apply State.dropWith_keeps | with_reducible apply State.forgetJob_keeps | with_reducible apply State.performEff_keeps
    | with_reducible apply State.enterPlaces_keeps | with_reducible apply State.noteRefusal_keeps | with_reducible apply State.commitStore_keeps
    | with_reducible apply State.hole_keeps | with_reducible apply State.finishLane_keeps | with_reducible apply State.orphanLane_keeps
    | with_reducible apply State.logPath_keeps | with_reducible apply State.symCount_keeps | with_reducible apply State.examineFifo_keeps
    | with_reducible apply State.parkLane_keeps | with_reducible apply State.giveBack_keeps

theorem commitRun_keeps {x0 : Nat} {x1 : Chord} {x2 : List CommitAct} {s : State} {v1 : List CommitAct} {t : State} (e : commitRun x0 x1 x2 s = (v1, t))
    (h : s.HomeWf) : t.HomeWf := by
  induction x2 generalizing x0 x1 s v1 t with
  | nil => unfold commitRun at e; (repeat' first
    | cases e | split at e | dsimp only at e | (rw [Option.map_eq_some_iff] at e; obtain ⟨_, e1, e⟩ := e)
    | (rw [Option.bind_eq_some_iff] at e; obtain ⟨_, e1, e⟩ := e)
    | (injection e with e)) <;> repeat' first | with_reducible assumption | with_reducible exact EngAccess.wf_wait | with_reducible apply EngAccess.wf_err | intro _ | with_reducible apply HomeWf.ite | with_reducible apply HomeWf.foldl | with_reducible apply HomeWf.foldl2 | with_reducible apply HomeWf.getD | with_reducible apply HomeWf.elim | with_reducible apply HomeWf.foldl1 | (with_reducible refine HomeWf.foldl2e (by assumption) ?_ ?_) | (with_reducible refine HomeWf.foldl1e (by assumption) ?_ ?_) | (with_reducible refine State.commitAct_keeps (by assumption) ?_) | with_reducible apply EngAccess.wf_fault | with_reducible apply EngAccess.wf_later | (unfold State.HomeWf; dsimp only; with_reducible apply HomeWf.mem) | cases e | split at e | dsimp only at e | (rw [Option.map_eq_some_iff] at e; obtain ⟨_, e1, e⟩ := e) | (rw [Option.bind_eq_some_iff] at e; obtain ⟨_, e1, e⟩ := e) | (injection e with e) | cases e1 | split at e1 | dsimp only at e1 | (rw [Option.map_eq_some_iff] at e1; obtain ⟨_, e2, e1⟩ := e1) | (rw [Option.bind_eq_some_iff] at e1; obtain ⟨_, e2, e1⟩ := e1) | (rename_i e; rw [Option.map_eq_some_iff] at e; obtain ⟨_, e1, e⟩ := e) | (rename_i e; rw [Option.bind_eq_some_iff] at e; obtain ⟨_, e1, e⟩ := e) | split
  | cons _ _ ih => unfold commitRun at e; (repeat' first
    | cases e | split at e | dsimp only at e | (rw [Option.map_eq_some_iff] at e; obtain ⟨_, e1, e⟩ := e)
    | (rw [Option.bind_eq_some_iff] at e; obtain ⟨_, e1, e⟩ := e)
    | (injection e with e)) <;> repeat' first | with_reducible assumption | (with_reducible refine ih (by assumption) ?_) | with_reducible exact EngAccess.wf_wait | with_reducible apply EngAccess.wf_err | intro _ | with_reducible apply HomeWf.ite | with_reducible apply HomeWf.foldl | with_reducible apply HomeWf.foldl2 | with_reducible apply HomeWf.getD | with_reducible apply HomeWf.elim | with_reducible apply HomeWf.foldl1 | (with_reducible refine HomeWf.foldl2e (by assumption) ?_ ?_) | (with_reducible refine HomeWf.foldl1e (by assumption) ?_ ?_) | (with_reducible refine State.commitAct_keeps (by assumption) ?_) | with_reducible apply EngAccess.wf_fault | with_reducible apply EngAccess.wf_later | (unfold State.HomeWf; dsimp only; with_reducible apply HomeWf.mem) | cases e | split at e | dsimp only at e | (rw [Option.map_eq_some_iff] at e; obtain ⟨_, e1, e⟩ := e) | (rw [Option.bind_eq_some_iff] at e; obtain ⟨_, e1, e⟩ := e) | (injection e with e) | cases e1 | split at e1 | dsimp only at e1 | (rw [Option.map_eq_some_iff] at e1; obtain ⟨_, e2, e1⟩ := e1) | (rw [Option.bind_eq_some_iff] at e1; obtain ⟨_, e2, e1⟩ := e1) | (rename_i e; rw [Option.map_eq_some_iff] at e; obtain ⟨_, e1, e⟩ := e) | (rename_i e; rw [Option.bind_eq_some_iff] at e; obtain ⟨_, e1, e⟩ := e) | split

theorem commitRun_keeps_st {x0 : Nat} {x1 : Chord} {x2 : List CommitAct} {s : State} (h : s.HomeWf) : (commitRun x0 x1 x2 s).2.HomeWf := by
  rcases e : commitRun x0 x1 x2 s with ⟨a, b⟩; exact commitRun_keeps e h

theorem State.commitOn_keeps {s : State} {x1 x2 : Nat} {x3 : Chord} {x4 : List CommitAct} (h : s.HomeWf) : (State.commitOn s x1 x2 x3 x4).HomeWf := by
  unfold State.commitOn
  repeat' first
    | with_reducible assumption | with_reducible apply HomeWf.ite | with_reducible apply commitRun_keeps_st
    | (with_reducible refine commitRun_keeps (by assumption) ?_) | with_reducible apply State.delChord_keeps
    | with_reducible apply State.modChord_keeps | cases e | split at e | split

theorem State.commitBegin_keeps {s : State} {x1 x2 : Nat} {x3 : Chord} (h : s.HomeWf) : (State.commitBegin s x1 x2 x3).HomeWf := by
  unfold State.commitBegin
  repeat' first
    | with_reducible assumption | with_reducible apply HomeWf.ite | with_reducible apply State.dropChordEffs_keeps
    | with_reducible apply State.commitOn_keeps | with_reducible apply State.modChord_keeps

theorem State.watchdogStep_keeps {s : State} {x1 x2 : Nat} (h : s.HomeWf) : (State.watchdogStep s x1 x2).HomeWf := by
  unfold State.watchdogStep
  repeat' first
    | with_reducible assumption | with_reducible apply HomeWf.ite | with_reducible apply State.voidChord_keeps
    | with_reducible apply State.commitBegin_keeps | with_reducible apply State.setChord_keeps
    | (unfold State.HomeWf; dsimp only; with_reducible apply HomeWf.mem) | cases e | split at e | split

theorem State.commitStep_keeps {s : State} {x1 x2 : Nat} (h : s.HomeWf) : (State.commitStep s x1 x2).HomeWf := by
  unfold State.commitStep
  repeat' first
    | with_reducible assumption | with_reducible apply HomeWf.ite | with_reducible apply State.commitOn_keeps
    | with_reducible apply State.commitBegin_keeps | cases e | split at e | split

theorem execWatchdog_keeps {x0 : BitVec 8} {x1 : BitVec 4} {s : State} {t : State} (e : execWatchdog x0 x1 s = .next t) (h : s.HomeWf) : t.HomeWf := by
  unfold execWatchdog at e
  repeat' first | with_reducible assumption | cases e | with_reducible apply State.watchdogStep_keeps

theorem execChordCommit_keeps {x0 : BitVec 8} {x1 : BitVec 4} {s : State} {t : State} (e : execChordCommit x0 x1 s = .next t) (h : s.HomeWf) : t.HomeWf := by
  unfold execChordCommit at e
  repeat' first | with_reducible assumption | cases e | with_reducible apply State.commitStep_keeps

theorem State.refuseWrite_keeps {s : State} (h : s.HomeWf) : (State.refuseWrite s).HomeWf := by
  unfold State.refuseWrite
  repeat' first | with_reducible assumption | (unfold State.HomeWf; dsimp only; with_reducible apply HomeWf.mem)

theorem State.ownerWrite_keeps {s : State} {x1 : Master} {x2 : State → State} (hf : ∀ s, s.HomeWf → (x2 s).HomeWf) (h : s.HomeWf) :
    (State.ownerWrite s x1 x2).HomeWf := by
  unfold State.ownerWrite
  repeat' first | with_reducible assumption | with_reducible apply hf | with_reducible apply HomeWf.ite | with_reducible apply State.refuseWrite_keeps

theorem State.abandonLane_keeps {s : State} {x1 : Nat} {x2 : Chord} {x3 : Lane} (h : s.HomeWf) : (State.abandonLane s x1 x2 x3).HomeWf := by
  unfold State.abandonLane
  repeat' first
    | with_reducible assumption | intro _ | with_reducible apply HomeWf.ite | with_reducible apply HomeWf.foldl
    | with_reducible apply State.hole_keeps | with_reducible apply State.orphanLane_keeps | with_reducible apply State.modCore_keeps
    | with_reducible apply State.giveBack_keeps

theorem State.abandonStep_keeps {s : State} {x1 x2 : Nat} (h : s.HomeWf) : (State.abandonStep s x1 x2).HomeWf := by
  unfold State.abandonStep
  repeat' first
    | with_reducible assumption | intro _ | with_reducible apply HomeWf.ite | with_reducible apply HomeWf.foldl
    | with_reducible apply State.abandonLane_keeps | with_reducible apply State.examineFifo_keeps | with_reducible apply State.delChord_keeps
    | with_reducible apply State.dropReads_keeps | with_reducible apply State.dropChordEffs_keeps
    | (unfold State.HomeWf; dsimp only; with_reducible apply HomeWf.mem) | cases e | split at e | split

theorem State.resumeCore_keeps {s : State} {x1 : BitVec 12} {x2 : BitVec 32} {x3 : Nat} (h : s.HomeWf) : (State.resumeCore s x1 x2 x3).HomeWf := by
  unfold State.resumeCore
  repeat' first
    | with_reducible assumption | intro _ | with_reducible apply HomeWf.ite | with_reducible apply HomeWf.foldl
    | with_reducible apply State.returnParked_keeps | with_reducible apply State.modCore_keeps | with_reducible apply State.examineFifo_keeps

theorem State.resumeCores_keeps {s : State} {x1 : BitVec 12} {x2 : BitVec 32} (h : s.HomeWf) : (State.resumeCores s x1 x2).HomeWf := by
  unfold State.resumeCores
  repeat' first
    | with_reducible assumption | intro _ | with_reducible apply HomeWf.ite | with_reducible apply HomeWf.foldl
    | with_reducible apply State.resumeCore_keeps

theorem State.openBlock_keeps {s : State} {x1 : BitVec 12} {x2 x3 : Nat} (h : s.HomeWf) : (State.openBlock s x1 x2 x3).HomeWf := by
  unfold State.openBlock
  repeat' first
    | with_reducible assumption | intro _ | with_reducible apply HomeWf.ite | with_reducible apply HomeWf.foldl
    | with_reducible apply State.aput_keeps | (unfold State.HomeWf; dsimp only; with_reducible apply HomeWf.mem) | cases e | split at e | split

theorem State.endLaunches_keeps {s : State} {x1 : BitVec 12} (h : s.HomeWf) : (State.endLaunches s x1).HomeWf := by
  unfold State.endLaunches
  repeat' first
    | with_reducible assumption | intro _ | with_reducible apply HomeWf.ite | with_reducible apply HomeWf.foldl
    | with_reducible apply State.setQueue_keeps | with_reducible apply State.callOff_keeps | with_reducible apply State.failLaunch_keeps

theorem State.endAct_keeps {s : State} {x1 : Nat} {x2 : Act} (h : s.HomeWf) : (State.endAct s x1 x2).HomeWf := by
  unfold State.endAct
  repeat' first
    | with_reducible assumption | with_reducible apply HomeWf.ite | with_reducible apply State.record_keeps
    | with_reducible apply State.beginEnd_keeps | cases e | split at e | split

theorem State.endDebug_keeps {s : State} {x1 : BitVec 12} (h : s.HomeWf) : (State.endDebug s x1).HomeWf := by
  unfold State.endDebug
  repeat' first | with_reducible assumption | (unfold State.HomeWf; dsimp only; with_reducible apply HomeWf.mem)

theorem State.commandDone_keeps {s : State} {x1 : BitVec 12} (h : s.HomeWf) : (State.commandDone s x1).HomeWf := by
  unfold State.commandDone
  repeat' first | with_reducible assumption | with_reducible apply HomeWf.ite | (unfold State.HomeWf; dsimp only; with_reducible apply HomeWf.mem)

theorem State.resumeEngines_keeps {s : State} {x1 : BitVec 12} {x2 : BitVec 32} (h : s.HomeWf) : (State.resumeEngines s x1 x2).HomeWf := by
  unfold State.resumeEngines
  repeat' first
    | with_reducible assumption | with_reducible apply State.modCtx_keeps | (unfold State.HomeWf; dsimp only; with_reducible apply HomeWf.mem)

theorem State.closeFault_keeps {s : State} {x1 : BitVec 32} (h : s.HomeWf) : (State.closeFault s x1).HomeWf := by
  unfold State.closeFault
  repeat' first | with_reducible assumption | (unfold State.HomeWf; dsimp only; with_reducible apply HomeWf.mem)

theorem State.resumeAway_keeps {s : State} {x1 : BitVec 12} (h : s.HomeWf) : (State.resumeAway s x1).HomeWf := by
  unfold State.resumeAway
  repeat' first
    | with_reducible assumption | intro _ | with_reducible apply HomeWf.ite | with_reducible apply HomeWf.foldl
    | with_reducible apply State.resumeEngines_keeps | with_reducible apply State.closeFault_keeps

theorem State.endCtx_keeps {s : State} {x1 : BitVec 12} (h : s.HomeWf) : (State.endCtx s x1).HomeWf := by
  unfold State.endCtx
  repeat' first
    | with_reducible assumption | with_reducible apply HomeWf.ite | with_reducible apply State.endDebug_keeps
    | with_reducible apply State.commandDone_keeps | with_reducible apply State.modCtx_keeps | with_reducible apply State.discardHids_keeps
    | with_reducible apply State.readDone_keeps | with_reducible apply State.resumeAway_keeps

theorem State.runCommand_keeps {s : State} {x1 : BitVec 12} (h : s.HomeWf) : (State.runCommand s x1).HomeWf := by
  unfold State.runCommand
  repeat' first | with_reducible assumption | (unfold State.HomeWf; dsimp only; with_reducible apply HomeWf.mem)

theorem State.cmdEnd_keeps {s : State} {x1 : BitVec 12} (h : s.HomeWf) : (State.cmdEnd s x1).HomeWf := by
  unfold State.cmdEnd
  repeat' first
    | with_reducible assumption | intro _ | with_reducible apply HomeWf.ite | with_reducible apply HomeWf.foldl
    | with_reducible apply State.modCtx_keeps | with_reducible apply State.endLaunches_keeps | with_reducible apply State.endAct_keeps
    | with_reducible apply State.endCtx_keeps | with_reducible apply State.runCommand_keeps

theorem State.denyDesc_keeps {s : State} {x1 : BitVec 12} (h : s.HomeWf) : (State.denyDesc s x1).HomeWf := by
  unfold State.denyDesc
  repeat' first | with_reducible assumption | with_reducible apply State.modCtx_keeps | with_reducible apply State.denyIf_keeps

theorem State.wrongState_keeps {s : State} (h : s.HomeWf) : (State.wrongState s).HomeWf := by
  unfold State.wrongState
  repeat' first | with_reducible assumption | (unfold State.HomeWf; dsimp only; with_reducible apply HomeWf.mem)

theorem State.cmdStop_keeps {s : State} {x1 : BitVec 12} (h : s.HomeWf) : (State.cmdStop s x1).HomeWf := by
  unfold State.cmdStop
  repeat' first
    | with_reducible assumption | with_reducible apply HomeWf.ite | with_reducible apply State.runCommand_keeps
    | with_reducible apply State.stopCtx_keeps | with_reducible apply State.wrongState_keeps | cases e | split at e | split

theorem State.stopStream_keeps {s : State} {x1 : Nat} {x2 : Stream} (h : s.HomeWf) : (State.stopStream s x1 x2).HomeWf := by
  unfold State.stopStream
  repeat' first
    | with_reducible assumption | with_reducible apply HomeWf.ite | with_reducible apply State.modCore_keeps
    | with_reducible apply State.popTile_keeps | cases e | split at e | split

theorem State.muteCtx_keeps {s : State} {x1 : BitVec 12} (h : s.HomeWf) : (State.muteCtx s x1).HomeWf := by
  unfold State.muteCtx
  repeat' first
    | with_reducible assumption | intro _ | with_reducible apply HomeWf.ite | with_reducible apply HomeWf.foldl
    | with_reducible apply State.stopStream_keeps | with_reducible apply State.modCore_keeps

theorem State.spillCore_keeps {s : State} {x1 : BitVec 12} {x2 : Nat} (h : s.HomeWf) : (State.spillCore s x1 x2).HomeWf := by
  unfold State.spillCore
  repeat' first
    | with_reducible assumption | intro _ | with_reducible apply HomeWf.ite | with_reducible apply HomeWf.foldl
    | with_reducible apply State.modCore_keeps | with_reducible apply State.divert_keeps

theorem State.saveCore_keeps {s : State} {x1 : BitVec 12} {x2 : Nat} {x3 : Bool} (h : s.HomeWf) : (State.saveCore s x1 x2 x3).HomeWf := by
  unfold State.saveCore
  repeat' first
    | with_reducible assumption | intro _ | with_reducible apply HomeWf.ite | with_reducible apply HomeWf.foldl
    | with_reducible apply State.modCore_keeps | with_reducible apply State.openBlock_keeps | with_reducible apply State.aput_keeps
    | with_reducible apply State.bump_keeps | with_reducible apply State.modCtx_keeps

theorem State.saveCtx_keeps {s : State} {n : BitVec 12} {t : State} (e : s.saveCtx n = some t) (h : s.HomeWf) : t.HomeWf := by
  unfold State.saveCtx at e
  dsimp only at e
  split at e
  · cases e
  · rename_i s1 h1
    have h0 : s1.HomeWf := by
      refine HomeWf.foldlO h1 (fun s c t e hs => State.flushDirty_keeps e hs) (fun s hs => ?_)
      cases hs; exact h
    simp only [Option.some.injEq] at e; subst e
    refine HomeWf.foldl (fun s c hs => State.examineFifo_keeps hs) (HomeWf.foldl (fun s c hs => State.saveCore_keeps hs) (State.forget_keeps (State.modCtx_keeps ?_)))
    split
    · exact h0
    · exact State.escalate_keeps h0

theorem State.saveStep_keeps {s : State} {x1 : BitVec 12} (h : s.HomeWf) : (State.saveStep s x1).HomeWf := by
  unfold State.saveStep
  repeat' first
    | with_reducible assumption | intro _ | with_reducible apply HomeWf.ite | with_reducible apply HomeWf.foldl
    | with_reducible apply State.modCtx_keeps | with_reducible apply State.muteCtx_keeps | with_reducible apply State.spillCore_keeps
    | (with_reducible refine State.saveCtx_keeps (by assumption) ?_) | (unfold State.HomeWf; dsimp only; with_reducible apply HomeWf.mem)
    | cases e | split at e | split

theorem execPreemptSave_keeps {x0 : BitVec 12} {s : State} {t : State} (e : execPreemptSave x0 s = .next t) (h : s.HomeWf) : t.HomeWf := by
  unfold execPreemptSave at e
  repeat' first | with_reducible assumption | cases e | with_reducible apply State.saveStep_keeps

theorem State.refuseRestore_keeps {s : State} {x1 : BitVec 12} {x2 : BitVec 8} {x3 : TrapRec} (h : s.HomeWf) : (State.refuseRestore s x1 x2 x3).HomeWf := by
  unfold State.refuseRestore
  repeat' first
    | with_reducible assumption | with_reducible apply HomeWf.ite | with_reducible apply State.endDebug_keeps
    | with_reducible apply State.modCtx_keeps | with_reducible apply State.escalate_keeps

theorem State.trapBlocked_keeps_ready {s : State} {n : BitVec 12} {e : EngAccess} {t : State} (e' : s.trapBlocked n e = .ready t) : t.HomeWf := by
  unfold State.trapBlocked at e'
  repeat' first | cases e' | split at e'

theorem State.trapBlocked_keeps_waits {s : State} {n : BitVec 12} {e : EngAccess} {t : State} (e' : s.trapBlocked n e = .waits t) (he : e.HomeWf)
 (h : s.HomeWf) : t.HomeWf := by
  unfold State.trapBlocked at e'
  split at e'
  · split at e'
    · cases e'
    · injection e' with e'; subst e'; exact State.modCtx_keeps he
  · cases e'; exact h
  · injection e' with e'; subst e'; exact he
  · cases e'
  · cases e'

theorem State.trapBlocked_keeps_fails {s : State} {n : BitVec 12} {e : EngAccess} {t : State} (e' : s.trapBlocked n e = .fails t) (h : s.HomeWf) : t.HomeWf := by
  unfold State.trapBlocked at e'
  split at e'
  · split at e'
    · injection e' with e'; subst e'; exact h
    · cases e'
  · cases e'
  · cases e'
  · injection e' with e'; subst e'; exact State.denyIf_keeps h
  · injection e' with e'; subst e'; exact h

theorem State.setUpTrap_keeps_ready {s : State} {n : BitVec 12} {t : State} (e : s.setUpTrap n = .ready t) (h : s.HomeWf) : t.HomeWf := by
  unfold State.setUpTrap at e
  dsimp only at e
  split at e
  · simp only [TrapSetup.ready.injEq] at e; subst e; exact State.modCtx_keeps h
  split at e
  · simp only [TrapSetup.ready.injEq] at e; subst e; exact State.placeTrap_keeps h
  · split at e
    · exact State.trapBlocked_keeps_ready e
    · cases e
    · rename_i h1
      have hs := readImage_keeps_ok h1 h
      split at e
      · cases e
      · exact State.trapBlocked_keeps_ready e
      · rename_i h2
        split at e
        · cases e
        · simp only [TrapSetup.ready.injEq] at e; subst e
          exact State.placeTrap_keeps (State.modCtx_keeps (State.setAct_keeps (State.readDone_keeps (State.bump_keeps (loaderBytes_keeps_ok h2 hs)))))

theorem State.setUpTrap_keeps_waits {s : State} {n : BitVec 12} {t : State} (e : s.setUpTrap n = .waits t) (h : s.HomeWf) : t.HomeWf := by
  unfold State.setUpTrap at e
  dsimp only at e
  split at e
  · simp only [reduceCtorEq] at e
  split at e
  · simp only [reduceCtorEq] at e
  · split at e
    · rename_i h1; exact State.trapBlocked_keeps_waits e (readImage_keeps_error h1 h) h
    · cases e
    · rename_i h1
      have hs := readImage_keeps_ok h1 h
      split at e
      · cases e
      · rename_i h2; exact State.trapBlocked_keeps_waits e (loaderBytes_keeps_error h2 hs) hs
      · split at e
        · cases e
        · simp only [reduceCtorEq] at e

theorem State.setUpTrap_keeps_fails {s : State} {n : BitVec 12} {t : State} (e : s.setUpTrap n = .fails t) (h : s.HomeWf) : t.HomeWf := by
  unfold State.setUpTrap at e
  dsimp only at e
  split at e
  · simp only [reduceCtorEq] at e
  split at e
  · simp only [reduceCtorEq] at e
  · split at e
    · exact State.trapBlocked_keeps_fails e h
    · rename_i h1; injection e with e; subst e; exact readImage_keeps_refused h1 h
    · rename_i h1
      have hs := readImage_keeps_ok h1 h
      split at e
      · injection e with e; subst e; exact hs
      · exact State.trapBlocked_keeps_fails e hs
      · rename_i h2
        split at e
        · injection e with e; subst e; exact loaderBytes_keeps_ok h2 hs
        · simp only [reduceCtorEq] at e

theorem State.restoreCore_keeps {s : State} {x1 : BitVec 12} {x2 : SavedCore} (h : s.HomeWf) : (State.restoreCore s x1 x2).HomeWf := by
  unfold State.restoreCore
  repeat' first | with_reducible assumption | with_reducible apply State.modCore_keeps | with_reducible apply State.bump_keeps

theorem State.unmuteCtx_keeps {s : State} {x1 : BitVec 12} (h : s.HomeWf) : (State.unmuteCtx s x1).HomeWf := by
  unfold State.unmuteCtx
  repeat' first
    | with_reducible assumption | intro _ | with_reducible apply HomeWf.ite | with_reducible apply HomeWf.foldl
    | with_reducible apply State.modCore_keeps

theorem State.restoreCounters_keeps {s : State} {x1 : BitVec 12} (h : s.HomeWf) : (State.restoreCounters s x1).HomeWf := by
  unfold State.restoreCounters
  repeat' first
    | with_reducible assumption | with_reducible apply HomeWf.ite | with_reducible apply State.modCtx_keeps
    | (unfold State.HomeWf; dsimp only; with_reducible apply HomeWf.mem) | cases e | split at e | split

theorem State.restoreStep_keeps {s : State} {x1 : BitVec 12} (h : s.HomeWf) : (State.restoreStep s x1).HomeWf := by
  unfold State.restoreStep
  repeat' first
    | with_reducible assumption | intro _ | with_reducible apply HomeWf.ite | with_reducible apply HomeWf.foldl
    | with_reducible apply State.resumeAway_keeps | with_reducible apply State.refuseRestore_keeps | with_reducible apply State.denyPages_keeps
    | (with_reducible refine State.setUpTrap_keeps_ready (by assumption) ?_)
    | (with_reducible refine State.setUpTrap_keeps_waits (by assumption) ?_)
    | (with_reducible refine State.setUpTrap_keeps_fails (by assumption) ?_) | with_reducible apply State.readDone_keeps
    | with_reducible apply State.restoreCore_keeps | with_reducible apply State.unmuteCtx_keeps
    | with_reducible apply State.restoreCounters_keeps | with_reducible apply State.modCtx_keeps | with_reducible apply State.resumeCores_keeps
    | (unfold State.HomeWf; dsimp only; with_reducible apply HomeWf.mem) | cases e | split at e | split

theorem execContextRestore_keeps {x0 : BitVec 12} {s : State} {t : State} (e : execContextRestore x0 s = .next t) (h : s.HomeWf) : t.HomeWf := by
  unfold execContextRestore at e
  repeat' first | with_reducible assumption | cases e | with_reducible apply State.restoreStep_keeps

theorem State.preemptStep_keeps {s : State} {x1 : BitVec 12} (h : s.HomeWf) : (State.preemptStep s x1).HomeWf := by
  unfold State.preemptStep
  repeat' first | with_reducible assumption | with_reducible apply HomeWf.ite | with_reducible apply State.modCtx_keeps

theorem execPreemptBegin_keeps {x0 : BitVec 12} {s : State} {t : State} (e : execPreemptBegin x0 s = .next t) (h : s.HomeWf) : t.HomeWf := by
  unfold execPreemptBegin at e
  repeat' first | with_reducible assumption | cases e | with_reducible apply State.preemptStep_keeps

theorem State.cmdResume_keeps {s : State} {x1 : BitVec 12} (h : s.HomeWf) : (State.cmdResume s x1).HomeWf := by
  unfold State.cmdResume
  repeat' first
    | with_reducible assumption | with_reducible apply HomeWf.ite | with_reducible apply State.modCtx_keeps
    | with_reducible apply State.wrongState_keeps

theorem State.noteWaiting_keeps {s : State} (h : s.HomeWf) : (State.noteWaiting s).HomeWf := by
  unfold State.noteWaiting
  repeat' first
    | with_reducible assumption | intro _ | with_reducible apply HomeWf.ite | with_reducible apply HomeWf.foldl
    | with_reducible apply State.modCtx_keeps

theorem State.beginLeave_keeps {s : State} {x1 : BitVec 12} (h : s.HomeWf) : (State.beginLeave s x1).HomeWf := by
  unfold State.beginLeave
  repeat' first | with_reducible assumption | with_reducible apply State.modCtx_keeps

theorem State.relaySpill_keeps {s : State} {x1 : BitVec 12} {x2 : Desc} (h : s.HomeWf) : (State.relaySpill s x1 x2).HomeWf := by
  unfold State.relaySpill
  repeat' first
    | with_reducible assumption | intro _ | with_reducible apply HomeWf.ite | with_reducible apply HomeWf.foldl
    | with_reducible apply State.modCtx_keeps | with_reducible apply refillSpill_keeps | with_reducible apply State.aput_keeps

theorem State.beginDebug_keeps {s : State} {x1 : BitVec 12} (h : s.HomeWf) : (State.beginDebug s x1).HomeWf := by
  unfold State.beginDebug
  repeat' first | with_reducible assumption | with_reducible apply HomeWf.ite | (unfold State.HomeWf; dsimp only; with_reducible apply HomeWf.mem)

theorem State.readSyms_keeps {s : State} {x1 : BitVec 12} {x2 : Nat} (h : s.HomeWf) : (State.readSyms s x1 x2).HomeWf := by
  unfold State.readSyms
  repeat' first
    | with_reducible assumption | with_reducible exact EngAccess.wf_wait | with_reducible apply EngAccess.wf_err | intro _
    | with_reducible apply HomeWf.ite | with_reducible apply HomeWf.foldl | with_reducible apply HomeWf.foldl2 | with_reducible apply HomeWf.getD
    | with_reducible apply HomeWf.elim | with_reducible apply HomeWf.foldl1 | (with_reducible refine HomeWf.foldl2e (by assumption) ?_ ?_)
    | (with_reducible refine HomeWf.foldl1e (by assumption) ?_ ?_) | with_reducible apply State.event_keeps
    | with_reducible apply State.modCtx_keeps | with_reducible apply State.denyPages_keeps | with_reducible apply EngAccess.wf_fault
    | with_reducible apply EngAccess.wf_later | (unfold State.HomeWf; dsimp only; with_reducible apply HomeWf.mem) | cases e | split at e
    | dsimp only at e | (injection e with e) | cases e1 | split at e1 | dsimp only at e1 | split

theorem State.grantSlot_keeps {s : State} {x1 : BitVec 12} (h : s.HomeWf) : (State.grantSlot s x1).HomeWf := by
  unfold State.grantSlot
  repeat' first
    | with_reducible assumption | intro _ | with_reducible apply HomeWf.ite | with_reducible apply HomeWf.foldl
    | with_reducible apply State.modCtx_keeps | with_reducible apply State.denyDesc_keeps | with_reducible apply State.relaySpill_keeps
    | with_reducible apply State.beginDebug_keeps | with_reducible apply State.escalate_keeps | with_reducible apply State.readSyms_keeps

theorem State.decideStep_keeps {s : State} (h : s.HomeWf) : (State.decideStep s).HomeWf := by
  unfold State.decideStep
  repeat' first
    | with_reducible assumption | with_reducible apply HomeWf.ite | with_reducible apply State.noteWaiting_keeps
    | with_reducible apply State.beginLeave_keeps | with_reducible apply State.grantSlot_keeps
    | (unfold State.HomeWf; dsimp only; with_reducible apply HomeWf.mem) | cases e | split at e | split

theorem execResidencyDecision_keeps {s : State} {t : State} (e : execResidencyDecision s = .next t) (h : s.HomeWf) : t.HomeWf := by
  unfold execResidencyDecision at e
  repeat' first | with_reducible assumption | cases e | with_reducible apply State.decideStep_keeps

theorem State.ctxCommand_keeps {s : State} {x1 : Master} {x2 : State → State} (hf : ∀ s, s.HomeWf → (x2 s).HomeWf) (h : s.HomeWf) :
    (State.ctxCommand s x1 x2).HomeWf := by
  unfold State.ctxCommand
  repeat' first
    | with_reducible assumption | with_reducible apply hf | with_reducible apply HomeWf.ite
    | (with_reducible refine State.ownerWrite_keeps (fun _ _ => ?_) ?_) | (unfold State.HomeWf; dsimp only; with_reducible apply HomeWf.mem)

theorem execCtxEnd_keeps {x0 : Master} {x1 : BitVec 12} {s : State} {t : State} (e : execCtxEnd x0 x1 s = .next t) (h : s.HomeWf) : t.HomeWf := by
  unfold execCtxEnd at e
  repeat' first
    | with_reducible assumption | cases e | (with_reducible refine State.ctxCommand_keeps (fun _ _ => ?_) ?_)
    | with_reducible apply State.cmdEnd_keeps

theorem State.cmdPreempt_keeps {s : State} {x1 : BitVec 12} (h : s.HomeWf) : (State.cmdPreempt s x1).HomeWf := by
  unfold State.cmdPreempt
  repeat' first
    | with_reducible assumption | with_reducible apply HomeWf.ite | with_reducible apply State.runCommand_keeps
    | with_reducible apply State.modCtx_keeps | with_reducible apply State.beginLeave_keeps | with_reducible apply State.wrongState_keeps

theorem State.cmdReload_keeps {s : State} {x1 : BitVec 12} (h : s.HomeWf) : (State.cmdReload s x1).HomeWf := by
  unfold State.cmdReload
  repeat' first
    | with_reducible assumption | with_reducible apply HomeWf.ite | with_reducible apply State.stopCtx_keeps
    | with_reducible apply State.denyDesc_keeps | with_reducible apply State.readSyms_keeps | with_reducible apply State.wrongState_keeps
    | (unfold State.HomeWf; dsimp only; with_reducible apply HomeWf.mem)

theorem State.savedStep_keeps {s : State} {x1 : BitVec 12} (h : s.HomeWf) : (State.savedStep s x1).HomeWf := by
  unfold State.savedStep
  repeat' first
    | with_reducible assumption | with_reducible apply HomeWf.ite | with_reducible apply State.modCtx_keeps
    | with_reducible apply State.endDebug_keeps | with_reducible apply State.commandDone_keeps

theorem execCtxReload_keeps {x0 : Master} {x1 : BitVec 12} {s : State} {t : State} (e : execCtxReload x0 x1 s = .next t) (h : s.HomeWf) : t.HomeWf := by
  unfold execCtxReload at e
  repeat' first
    | with_reducible assumption | cases e | (with_reducible refine State.ctxCommand_keeps (fun _ _ => ?_) ?_)
    | with_reducible apply State.cmdReload_keeps

theorem execPreemptSaveComplete_keeps {x0 : BitVec 12} {s : State} {t : State} (e : execPreemptSaveComplete x0 s = .next t) (h : s.HomeWf) : t.HomeWf := by
  unfold execPreemptSaveComplete at e
  repeat' first | with_reducible assumption | cases e | with_reducible apply State.savedStep_keeps

theorem execCtxStop_keeps {x0 : Master} {x1 : BitVec 12} {s : State} {t : State} (e : execCtxStop x0 x1 s = .next t) (h : s.HomeWf) : t.HomeWf := by
  unfold execCtxStop at e
  repeat' first
    | with_reducible assumption | cases e | (with_reducible refine State.ctxCommand_keeps (fun _ _ => ?_) ?_)
    | with_reducible apply State.cmdStop_keeps

theorem execCtxResume_keeps {x0 : Master} {x1 : BitVec 12} {s : State} {t : State} (e : execCtxResume x0 x1 s = .next t) (h : s.HomeWf) : t.HomeWf := by
  unfold execCtxResume at e
  repeat' first
    | with_reducible assumption | cases e | (with_reducible refine State.ctxCommand_keeps (fun _ _ => ?_) ?_)
    | with_reducible apply State.cmdResume_keeps

theorem execPreemptChordAbandon_keeps {x0 : BitVec 8} {x1 : BitVec 4} {s : State} {t : State} (e : execPreemptChordAbandon x0 x1 s = .next t)
    (h : s.HomeWf) : t.HomeWf := by
  unfold execPreemptChordAbandon at e
  repeat' first | with_reducible assumption | cases e | with_reducible apply State.abandonStep_keeps

theorem State.endOrderStep_keeps {s : State} {x1 : BitVec 12} {x2 : BitVec 16} (h : s.HomeWf) : (State.endOrderStep s x1 x2).HomeWf := by
  unfold State.endOrderStep
  repeat' first
    | with_reducible assumption | with_reducible apply HomeWf.ite | with_reducible apply State.endStep_keeps
    | with_reducible apply State.endCtx_keeps

theorem execEndOrder_keeps {x0 : BitVec 12} {x1 : BitVec 16} {s : State} {t : State} (e : execEndOrder x0 x1 s = .next t) (h : s.HomeWf) : t.HomeWf := by
  unfold execEndOrder at e
  repeat' first | with_reducible assumption | cases e | with_reducible apply State.endOrderStep_keeps

theorem execCtxPreempt_keeps {x0 : Master} {x1 : BitVec 12} {s : State} {t : State} (e : execCtxPreempt x0 x1 s = .next t) (h : s.HomeWf) : t.HomeWf := by
  unfold execCtxPreempt at e
  repeat' first
    | with_reducible assumption | cases e | (with_reducible refine State.ctxCommand_keeps (fun _ _ => ?_) ?_)
    | with_reducible apply State.cmdPreempt_keeps

theorem State.resumeFault_keeps {s : State} {x1 : BitVec 32} (h : s.HomeWf) : (State.resumeFault s x1).HomeWf := by
  unfold State.resumeFault
  repeat' first
    | with_reducible assumption | with_reducible apply HomeWf.ite | with_reducible apply State.resumeCores_keeps
    | with_reducible apply State.resumeEngines_keeps | with_reducible apply State.closeFault_keeps | with_reducible apply State.modCtx_keeps
    | with_reducible apply State.settleWait_keeps | (unfold State.HomeWf; dsimp only; with_reducible apply HomeWf.mem) | cases e | split at e
    | split

theorem execFaultResume_keeps {x0 : Master} {x1 : BitVec 32} {s : State} {t : State} (e : execFaultResume x0 x1 s = .next t) (h : s.HomeWf) : t.HomeWf := by
  unfold execFaultResume at e
  repeat' first
    | with_reducible assumption | cases e | (with_reducible refine State.ownerWrite_keeps (fun _ _ => ?_) ?_)
    | with_reducible apply State.resumeFault_keeps

theorem State.dropXlt_keeps {s : State} {x1 : BitVec 12 → Nat → Nat → Bool} (h : s.HomeWf) : (State.dropXlt s x1).HomeWf := by
  unfold State.dropXlt
  repeat' first | with_reducible assumption | (unfold State.HomeWf; dsimp only; with_reducible apply HomeWf.mem)

theorem State.refuseEntry_keeps {s : State} {x1 : Nat} {x2 : BitVec 12} {x3 : Entry} {x4 : Stop} (h : s.HomeWf) : (State.refuseEntry s x1 x2 x3 x4).HomeWf := by
  unfold State.refuseEntry
  repeat' first | with_reducible assumption | with_reducible apply State.sendTrap_keeps

theorem State.refuseDrain_keeps {s : State} {x1 x2 : Nat} (h : s.HomeWf) : (State.refuseDrain s x1 x2).HomeWf := by
  unfold State.refuseDrain
  repeat' first
    | with_reducible assumption | with_reducible apply HomeWf.ite | with_reducible apply State.failFiring_keeps
    | (unfold State.HomeWf; dsimp only; with_reducible apply HomeWf.mem) | cases e | split at e | split

theorem State.refuseCore_keeps {s : State} {x1 : BitVec 12} {x2 : BitVec 32} {x3 : Nat} (h : s.HomeWf) : (State.refuseCore s x1 x2 x3).HomeWf := by
  unfold State.refuseCore
  repeat' first
    | with_reducible assumption | intro _ | with_reducible apply HomeWf.ite | with_reducible apply HomeWf.foldl
    | with_reducible apply State.modCore_keeps | with_reducible apply State.refuseEntry_keeps | with_reducible apply State.failStream_keeps
    | with_reducible apply State.rejectFill_keeps | with_reducible apply State.examineFifo_keeps | with_reducible apply State.refuseDrain_keeps
    | cases e | split at e | split

theorem State.invalEnd_keeps {s : State} (h : s.HomeWf) : s.invalEnd.HomeWf := by
  unfold State.invalEnd
  split
  · exact h
  · dsimp only
    split
    · exact h
    · split
      · exact h
      · rename_i h1
        split at h1
        · have hs := HomeWf.foldlO (f := fun s c => s.flushAll c) h1 (fun s c t e hs => State.flushAll_keeps e hs)
            (fun s hs => by cases hs; exact h)
          exact hs
        · cases h1; exact h

theorem State.beginInval_keeps {s : State} {x1 : Nat} {x2 : BitVec 12} {x3 : BitVec 12 → Nat → Nat → Bool} (h : s.HomeWf) :
    (State.beginInval s x1 x2 x3).HomeWf := by
  unfold State.beginInval
  repeat' first
    | with_reducible assumption | with_reducible apply State.dropXlt_keeps | (unfold State.HomeWf; dsimp only; with_reducible apply HomeWf.mem)

theorem State.invalCommand_keeps {s : State} {x1 : Nat} {x2 : BitVec 12} {x3 x4 : Nat} (h : s.HomeWf) : (State.invalCommand s x1 x2 x3 x4).HomeWf := by
  unfold State.invalCommand
  repeat' first
    | with_reducible assumption | with_reducible apply HomeWf.ite | with_reducible apply State.beginInval_keeps
    | (unfold State.HomeWf; dsimp only; with_reducible apply HomeWf.mem)

theorem execInvalidateRange_keeps {x0 : Master} {x1 : BitVec 12} {x2 : BitVec 2} {x3 : BitVec 16} {s : State} {t : State} (e : execInvalidateRange x0 x1 x2 x3 s = .next t)
    (h : s.HomeWf) : t.HomeWf := by
  unfold execInvalidateRange at e
  repeat' first
    | with_reducible assumption | cases e | (with_reducible refine State.ownerWrite_keeps (fun _ _ => ?_) ?_)
    | with_reducible apply State.invalCommand_keeps

theorem State.walkStep_keeps {s : State} {x1 : Nat} {x2 : BitVec 12} {x3 : Nat} (h : s.HomeWf) : (State.walkStep s x1 x2 x3).HomeWf := by
  unfold State.walkStep
  repeat' first | with_reducible assumption | with_reducible apply State.fillXlt_keeps

theorem State.refuseSaved_keeps {s : State} {x1 : BitVec 12} {x2 : BitVec 32} (h : s.HomeWf) : (State.refuseSaved s x1 x2).HomeWf := by
  unfold State.refuseSaved
  repeat' first
    | with_reducible assumption | intro _ | with_reducible apply HomeWf.ite | with_reducible apply HomeWf.foldl
    | with_reducible apply State.modCtx_keeps | with_reducible apply State.modCore_keeps | with_reducible apply State.refuseEntry_keeps

theorem State.refuseEngines_keeps {s : State} {x1 : BitVec 12} {x2 : BitVec 32} (h : s.HomeWf) : (State.refuseEngines s x1 x2).HomeWf := by
  unfold State.refuseEngines
  repeat' first
    | with_reducible assumption | with_reducible exact EngAccess.wf_wait | with_reducible apply EngAccess.wf_err | intro _
    | with_reducible apply HomeWf.ite | with_reducible apply HomeWf.foldl | with_reducible apply HomeWf.getD | with_reducible apply HomeWf.elim
    | with_reducible apply State.finishCopy_keeps | with_reducible apply State.symStopped_keeps | with_reducible apply State.stopPsel_keeps
    | with_reducible apply State.modCtx_keeps | with_reducible apply State.failStopped_keeps | with_reducible apply EngAccess.wf_fault
    | with_reducible apply EngAccess.wf_later | cases e | split at e | dsimp only at e | (injection e with e) | cases e1 | split at e1
    | dsimp only at e1 | split

theorem State.refuseFault_keeps {s : State} {x1 : BitVec 32} (h : s.HomeWf) : (State.refuseFault s x1).HomeWf := by
  unfold State.refuseFault
  repeat' first
    | with_reducible assumption | intro _ | with_reducible apply HomeWf.ite | with_reducible apply HomeWf.foldl
    | with_reducible apply State.refuseSaved_keeps | with_reducible apply State.refuseEngines_keeps | with_reducible apply State.closeFault_keeps
    | with_reducible apply State.settleWait_keeps | with_reducible apply State.refuseCore_keeps
    | (unfold State.HomeWf; dsimp only; with_reducible apply HomeWf.mem) | cases e | split at e | split

theorem execInvalidationEnd_keeps {s : State} {t : State} (e : execInvalidationEnd s = .next t) (h : s.HomeWf) : t.HomeWf := by
  unfold execInvalidationEnd at e
  repeat' first | with_reducible assumption | cases e | with_reducible apply State.invalEnd_keeps

theorem execInvalidateContext_keeps {x0 : Master} {x1 : BitVec 12} {s : State} {t : State} (e : execInvalidateContext x0 x1 s = .next t) (h : s.HomeWf) : t.HomeWf := by
  unfold execInvalidateContext at e
  repeat' first
    | with_reducible assumption | cases e | (with_reducible refine State.ownerWrite_keeps (fun _ _ => ?_) ?_)
    | with_reducible apply State.invalCommand_keeps

theorem execFaultRefuse_keeps {x0 : Master} {x1 : BitVec 32} {s : State} {t : State} (e : execFaultRefuse x0 x1 s = .next t) (h : s.HomeWf) : t.HomeWf := by
  unfold execFaultRefuse at e
  repeat' first
    | with_reducible assumption | cases e | (with_reducible refine State.ownerWrite_keeps (fun _ _ => ?_) ?_)
    | with_reducible apply State.refuseFault_keeps

theorem execInvalidateAll_keeps {x0 : Master} {s : State} {t : State} (e : execInvalidateAll x0 s = .next t) (h : s.HomeWf) : t.HomeWf := by
  unfold execInvalidateAll at e
  repeat' first
    | with_reducible assumption | cases e | (with_reducible refine State.ownerWrite_keeps (fun _ _ => ?_) ?_)
    | with_reducible apply State.invalCommand_keeps

theorem execTranslationWalk_keeps {x0 : BitVec 8} {x1 : BitVec 12} {x2 : BitVec 57} {s : State} {t : State} (e : execTranslationWalk x0 x1 x2 s = .next t)
    (h : s.HomeWf) : t.HomeWf := by
  unfold execTranslationWalk at e
  repeat' first | with_reducible assumption | cases e | with_reducible apply State.walkStep_keeps

theorem State.setPort_keeps {s : State} {x1 : Nat} {x2 : Port} (h : s.HomeWf) : (State.setPort s x1 x2).HomeWf := by
  unfold State.setPort
  repeat' first | with_reducible assumption | (unfold State.HomeWf; dsimp only; with_reducible apply HomeWf.mem)

theorem State.sendNak_keeps {s : State} {x1 : Nat} (h : s.HomeWf) : (State.sendNak s x1).HomeWf := by
  unfold State.sendNak
  repeat' first | with_reducible assumption | with_reducible apply State.emit_keeps | with_reducible apply State.setPort_keeps

theorem State.protocolError_keeps {s : State} {x1 : Nat} (h : s.HomeWf) : (State.protocolError s x1).HomeWf := by
  unfold State.protocolError
  repeat' first
    | with_reducible assumption | with_reducible apply HomeWf.ite | with_reducible apply State.setPort_keeps
    | with_reducible apply State.linkEvent_keeps

theorem State.sendTime_keeps {s : State} {x1 : Option Nat} (h : s.HomeWf) : (State.sendTime s x1).HomeWf := by
  unfold State.sendTime
  repeat' first
    | with_reducible assumption | intro _ | with_reducible apply HomeWf.ite | with_reducible apply HomeWf.foldl
    | with_reducible apply State.emit_keeps | (unfold State.HomeWf; dsimp only; with_reducible apply HomeWf.mem)

theorem State.timeStep_keeps {s : State} {x1 : Option Nat} {x2 : BitVec 64} (h : s.HomeWf) : (State.timeStep s x1 x2).HomeWf := by
  unfold State.timeStep
  repeat' first
    | with_reducible assumption | with_reducible apply HomeWf.ite | with_reducible apply State.bump_keeps
    | with_reducible apply State.sendTime_keeps | (unfold State.HomeWf; dsimp only; with_reducible apply HomeWf.mem)

theorem State.tokenIn_keeps {s : State} {x1 : Nat} {x2 : Token} (h : s.HomeWf) : (State.tokenIn s x1 x2).HomeWf := by
  unfold State.tokenIn
  repeat' first
    | with_reducible assumption | with_reducible apply HomeWf.ite | with_reducible apply State.loadDesc_keeps
    | with_reducible apply State.protocolError_keeps | with_reducible apply State.protectionEvent_keeps
    | with_reducible apply State.denyDomain_keeps | (unfold State.HomeWf; dsimp only; with_reducible apply HomeWf.mem)

theorem State.forward_keeps {s : State} {x1 : Nat} {x2 : BitVec 12} {x3 : Bool} {x4 x5 x6 x7 : Nat} {x8 : List Byte} (h : s.HomeWf) :
    (State.forward s x1 x2 x3 x4 x5 x6 x7 x8).HomeWf := by
  unfold State.forward
  repeat' first
    | with_reducible assumption | with_reducible apply HomeWf.ite | with_reducible apply State.protocolError_keeps
    | with_reducible apply State.putPort_keeps | (unfold State.HomeWf; dsimp only; with_reducible apply HomeWf.mem) | cases e | split at e
    | split

theorem State.accessIn_keeps {s : State} {x1 : Nat} {x2 : RemoteReq} (h : s.HomeWf) : (State.accessIn s x1 x2).HomeWf := by
  unfold State.accessIn
  repeat' first
    | with_reducible assumption | with_reducible apply HomeWf.ite | with_reducible apply State.loadDesc_keeps
    | with_reducible apply State.protectionEvent_keeps | with_reducible apply State.protocolError_keeps
    | with_reducible apply State.denyDomain_keeps | (unfold State.HomeWf; dsimp only; with_reducible apply HomeWf.mem)

theorem State.packetIn_keeps {s : State} {x1 x2 x3 : Nat} {x4 : List Byte} (h : s.HomeWf) : (State.packetIn s x1 x2 x3 x4).HomeWf := by
  unfold State.packetIn
  repeat' first
    | with_reducible assumption | with_reducible apply HomeWf.ite | with_reducible apply State.protocolError_keeps
    | with_reducible apply State.timeStep_keeps | with_reducible apply State.tokenIn_keeps | with_reducible apply State.loadDesc_keeps
    | with_reducible apply State.forward_keeps | with_reducible apply State.accessIn_keeps

theorem takePackets_keeps {x0 x1 : Nat} {s : State} (h : s.HomeWf) : (takePackets x0 x1 s).HomeWf := by
  induction x1 generalizing x0 s with
  | zero => unfold takePackets; repeat' first
    | with_reducible assumption | with_reducible exact EngAccess.wf_wait | with_reducible apply EngAccess.wf_err | intro _
    | with_reducible apply HomeWf.ite | with_reducible apply HomeWf.foldl | with_reducible apply HomeWf.foldl2 | with_reducible apply HomeWf.getD
    | with_reducible apply HomeWf.elim | with_reducible apply HomeWf.foldl1 | (with_reducible refine HomeWf.foldl2e (by assumption) ?_ ?_)
    | (with_reducible refine HomeWf.foldl1e (by assumption) ?_ ?_) | with_reducible apply State.setPort_keeps
    | with_reducible apply State.packetIn_keeps | with_reducible apply EngAccess.wf_fault | with_reducible apply EngAccess.wf_later
    | (unfold State.HomeWf; dsimp only; with_reducible apply HomeWf.mem) | cases e | split at e | dsimp only at e
    | (rw [Option.map_eq_some_iff] at e; obtain ⟨_, e1, e⟩ := e) | (rw [Option.bind_eq_some_iff] at e; obtain ⟨_, e1, e⟩ := e)
    | (injection e with e) | cases e1 | split at e1 | dsimp only at e1 | (rw [Option.map_eq_some_iff] at e1; obtain ⟨_, e2, e1⟩ := e1)
    | (rw [Option.bind_eq_some_iff] at e1; obtain ⟨_, e2, e1⟩ := e1) | (rename_i e; rw [Option.map_eq_some_iff] at e; obtain ⟨_, e1, e⟩ := e)
    | (rename_i e; rw [Option.bind_eq_some_iff] at e; obtain ⟨_, e1, e⟩ := e) | split
  | succ _ ih => unfold takePackets; repeat' first
    | with_reducible assumption | with_reducible apply ih | with_reducible exact EngAccess.wf_wait | with_reducible apply EngAccess.wf_err
    | intro _ | with_reducible apply HomeWf.ite | with_reducible apply HomeWf.foldl | with_reducible apply HomeWf.foldl2
    | with_reducible apply HomeWf.getD | with_reducible apply HomeWf.elim | with_reducible apply HomeWf.foldl1
    | (with_reducible refine HomeWf.foldl2e (by assumption) ?_ ?_) | (with_reducible refine HomeWf.foldl1e (by assumption) ?_ ?_)
    | with_reducible apply State.setPort_keeps | with_reducible apply State.packetIn_keeps | with_reducible apply EngAccess.wf_fault
    | with_reducible apply EngAccess.wf_later | (unfold State.HomeWf; dsimp only; with_reducible apply HomeWf.mem) | cases e | split at e
    | dsimp only at e | (rw [Option.map_eq_some_iff] at e; obtain ⟨_, e1, e⟩ := e) | (rw [Option.bind_eq_some_iff] at e; obtain ⟨_, e1, e⟩ := e)
    | (injection e with e) | cases e1 | split at e1 | dsimp only at e1 | (rw [Option.map_eq_some_iff] at e1; obtain ⟨_, e2, e1⟩ := e1)
    | (rw [Option.bind_eq_some_iff] at e1; obtain ⟨_, e2, e1⟩ := e1) | (rename_i e; rw [Option.map_eq_some_iff] at e; obtain ⟨_, e1, e⟩ := e)
    | (rename_i e; rw [Option.bind_eq_some_iff] at e; obtain ⟨_, e1, e⟩ := e) | split

theorem State.ackFlit_keeps {s : State} {x1 : Nat} {x2 : BitVec 12} (h : s.HomeWf) : (State.ackFlit s x1 x2).HomeWf := by
  unfold State.ackFlit
  repeat' first
    | with_reducible assumption | with_reducible apply HomeWf.ite | with_reducible apply State.pump_keeps
    | with_reducible apply State.setPort_keeps

theorem State.countError_keeps {s : State} {x1 : Nat} (h : s.HomeWf) : (State.countError s x1).HomeWf := by
  unfold State.countError
  repeat' first
    | with_reducible assumption | with_reducible apply HomeWf.ite | with_reducible apply State.event_keeps
    | (unfold State.HomeWf; dsimp only; with_reducible apply HomeWf.mem)

theorem State.countErrors_keeps {s : State} {x1 x2 : Nat} (h : s.HomeWf) : (State.countErrors s x1 x2).HomeWf := by
  unfold State.countErrors
  repeat' first
    | with_reducible assumption | intro _ | with_reducible apply HomeWf.ite | with_reducible apply HomeWf.foldl
    | with_reducible apply State.countError_keeps

theorem State.nakFlit_keeps {s : State} {x1 : Nat} {x2 : BitVec 12} (h : s.HomeWf) : (State.nakFlit s x1 x2).HomeWf := by
  unfold State.nakFlit
  repeat' first
    | with_reducible assumption | with_reducible apply HomeWf.ite | with_reducible apply State.countErrors_keeps
    | with_reducible apply State.emitRun_keeps | with_reducible apply State.setPort_keeps

theorem State.flitStep_keeps {s : State} {x1 : Nat} {x2 : List Byte} (h : s.HomeWf) : (State.flitStep s x1 x2).HomeWf := by
  unfold State.flitStep
  repeat' first
    | with_reducible assumption | with_reducible apply HomeWf.ite | with_reducible apply State.sendNak_keeps
    | with_reducible apply State.emit_keeps | with_reducible apply State.setPort_keeps | with_reducible apply takePackets_keeps
    | with_reducible apply State.ackFlit_keeps | with_reducible apply State.nakFlit_keeps | with_reducible apply State.timeStep_keeps
    | (unfold State.HomeWf; dsimp only; with_reducible apply HomeWf.mem) | cases e | split at e | split

theorem execFlitReceive_keeps {x0 : BitVec 6} {x1 : List Byte} {s : State} {t : State} (e : execFlitReceive x0 x1 s = .next t) (h : s.HomeWf) : t.HomeWf := by
  unfold execFlitReceive at e
  repeat' first | with_reducible assumption | cases e | with_reducible apply State.flitStep_keeps

theorem State.timeSendStep_keeps {s : State} (h : s.HomeWf) : (State.timeSendStep s).HomeWf := by
  unfold State.timeSendStep
  repeat' first | with_reducible assumption | with_reducible apply HomeWf.ite | with_reducible apply State.sendTime_keeps

theorem State.loseClaims_keeps {s : State} {x1 : BitVec 12} (h : s.HomeWf) : (State.loseClaims s x1).HomeWf := by
  unfold State.loseClaims
  repeat' first
    | with_reducible assumption | intro _ | with_reducible apply HomeWf.ite | with_reducible apply HomeWf.foldl
    | with_reducible apply State.endClaim_keeps

theorem State.resendOut_keeps {s : State} {x1 : Nat} {x2 : List OutPkt} (h : s.HomeWf) : (State.resendOut s x1 x2).HomeWf := by
  unfold State.resendOut
  repeat' first
    | with_reducible assumption | intro _ | with_reducible apply HomeWf.ite | with_reducible apply HomeWf.foldl
    | with_reducible apply State.sendToken_keeps | with_reducible apply State.sendBack_keeps | with_reducible apply State.sendPacket_keeps_st
    | (with_reducible refine State.sendPacket_keeps (by assumption) ?_) | with_reducible apply State.putPort_keeps
    | with_reducible apply State.protocolError_keeps | cases e | split at e | split

theorem State.sendDrained_keeps {s : State} {x1 : RemoteReq} {x2 : Sig} (h : s.HomeWf) : (State.sendDrained s x1 x2).HomeWf := by
  unfold State.sendDrained
  repeat' first | with_reducible assumption | with_reducible apply State.sendBack_keeps

theorem State.dropRequest_keeps {s : State} {x1 : Nat} (h : s.HomeWf) : (State.dropRequest s x1).HomeWf := by
  unfold State.dropRequest
  repeat' first | with_reducible assumption | (unfold State.HomeWf; dsimp only; with_reducible apply HomeWf.mem)

theorem State.resendRelease_keeps {s : State} {x1 : Request} {t : State} (e : State.resendRelease s x1 = some t) (h : s.HomeWf) : t.HomeWf := by
  unfold State.resendRelease at e
  repeat' first
    | with_reducible assumption | cases e | split at e | dsimp only at e | (rw [Option.map_eq_some_iff] at e; obtain ⟨_, e1, e⟩ := e)
    | (injection e with e) | with_reducible apply State.sendBack_keeps | (with_reducible refine State.flushSettle_keeps (by assumption) ?_)

theorem State.acked_keeps {s : State} {x1 x2 : Nat} (h : s.HomeWf) : (State.acked s x1 x2).HomeWf := by
  unfold State.acked
  repeat' first | with_reducible assumption | with_reducible apply State.modCore_keeps

theorem State.failRequest_keeps {s : State} {x1 : Request} {x2 : Word → Trap} (h : s.HomeWf) : (State.failRequest s x1 x2).HomeWf := by
  unfold State.failRequest
  repeat' first
    | with_reducible assumption | with_reducible apply HomeWf.ite | with_reducible apply State.dropRequest_keeps
    | with_reducible apply State.acked_keeps | with_reducible apply State.claimFail_keeps | with_reducible apply State.setChord_keeps
    | with_reducible apply State.readAnswered_keeps | (unfold State.HomeWf; dsimp only; with_reducible apply HomeWf.mem) | cases e | split at e
    | split

theorem State.refuseEngine_keeps {s : State} {x1 x2 : Nat} (h : s.HomeWf) : (State.refuseEngine s x1 x2).HomeWf := by
  unfold State.refuseEngine
  repeat' first
    | with_reducible assumption | with_reducible exact EngAccess.wf_wait | with_reducible apply EngAccess.wf_err | intro _
    | with_reducible apply HomeWf.ite | with_reducible apply HomeWf.foldl | with_reducible apply HomeWf.getD | with_reducible apply HomeWf.elim
    | with_reducible apply State.finishCopy_keeps | with_reducible apply State.failStream_keeps | with_reducible apply State.symStopped_keeps
    | with_reducible apply EngAccess.wf_fault | with_reducible apply EngAccess.wf_later
    | (unfold State.HomeWf; dsimp only; with_reducible apply HomeWf.mem) | cases e | split at e | dsimp only at e | (injection e with e)
    | cases e1 | split at e1 | dsimp only at e1 | split

theorem State.refuseRequest_keeps {s : State} {x1 : Request} (h : s.HomeWf) : (State.refuseRequest s x1).HomeWf := by
  unfold State.refuseRequest
  repeat' first
    | with_reducible assumption | with_reducible apply HomeWf.ite | with_reducible apply State.failRequest_keeps
    | with_reducible apply State.sendTrap_keeps | with_reducible apply State.refuseEngine_keeps
    | (unfold State.HomeWf; dsimp only; with_reducible apply HomeWf.mem) | cases e | split at e | split

theorem State.sendCount_keeps {s : State} {x1 : UEnt} {x2 : BitVec 12} {x3 : Nat} {x4 : Option Nat} (h : s.HomeWf) : (State.sendCount s x1 x2 x3 x4).HomeWf := by
  unfold State.sendCount
  repeat' first
    | with_reducible assumption | with_reducible apply State.newId_keeps_st | (with_reducible refine State.newId_keeps (by assumption) ?_)
    | with_reducible apply State.sendAccess_keeps | with_reducible apply State.modCore_keeps

theorem State.answered_keeps {s : State} {x1 : Request} {x2 : List Byte} {x3 : Bool} {x4 : Sig} {t : State} (e : State.answered s x1 x2 x3 x4 = some t)
    (h : s.HomeWf) : t.HomeWf := by
  unfold State.answered at e
  repeat' first
    | with_reducible assumption | cases e | split at e | dsimp only at e | (rw [Option.map_eq_some_iff] at e; obtain ⟨_, e1, e⟩ := e)
    | (injection e with e) | with_reducible apply HomeWf.ite | with_reducible apply State.dropRequest_keeps
    | with_reducible apply State.sigLine_keeps | with_reducible apply State.answer_keeps | with_reducible apply State.acked_keeps
    | with_reducible apply State.sendCount_keeps | with_reducible apply State.claimBad_keeps
    | (with_reducible refine State.claimOn_keeps (by assumption) ?_) | with_reducible apply State.engSigLine_keeps
    | with_reducible apply State.readAnswered_keeps | (unfold State.HomeWf; dsimp only; with_reducible apply HomeWf.mem) | split

theorem State.performRemote_keeps {s : State} {x1 : RemoteReq} {t : State} (e : State.performRemote s x1 = some t) (h : s.HomeWf) : t.HomeWf := by
  unfold State.performRemote at e
  repeat' first
    | with_reducible assumption | cases e | split at e | dsimp only at e | (rw [Option.map_eq_some_iff] at e; obtain ⟨_, e1, e⟩ := e)
    | (injection e with e) | with_reducible apply State.sendAnswer_keeps | with_reducible apply State.deny_keeps
    | with_reducible apply State.l2Enter_keeps | (with_reducible refine State.farReach_keeps (by assumption) ?_)
    | with_reducible apply State.modSlice_keeps | with_reducible apply State.sendDrained_keeps
    | (with_reducible refine State.flushDirty_keeps (by assumption) ?_) | with_reducible apply State.ackTo_keeps
    | with_reducible apply State.endClaim_keeps | with_reducible apply State.loaderIn_keeps
    | (with_reducible refine State.resendRelease_keeps (by assumption) ?_) | with_reducible apply State.acked_keeps
    | with_reducible apply State.refuseRequest_keeps | (with_reducible refine State.answered_keeps (by assumption) ?_)
    | (unfold State.HomeWf; dsimp only; with_reducible apply HomeWf.mem)

theorem State.takeRemote_keeps {s : State} {l r v : List RemoteReq} {t : State} (e : State.takeRemote s l r = some (t, v))
 (h : s.HomeWf) : t.HomeWf := by
  induction r generalizing l with
  | nil => unfold State.takeRemote at e; cases e
  | cons q r ih =>
    unfold State.takeRemote at e
    split at e
    · exact ih e
    · split at e
      · rename_i h1; cases e; exact State.performRemote_keeps h1 h
      · exact ih e

theorem State.remoteStep_keeps {s : State} (h : s.HomeWf) : (State.remoteStep s).HomeWf := by
  unfold State.remoteStep
  repeat' first
    | with_reducible assumption | with_reducible apply HomeWf.ite | (with_reducible refine State.takeRemote_keeps (by assumption) ?_)
    | (unfold State.HomeWf; dsimp only; with_reducible apply HomeWf.mem) | cases e | split at e | split

theorem execRemoteAccess_keeps {s : State} {t : State} (e : execRemoteAccess s = .next t) (h : s.HomeWf) : t.HomeWf := by
  unfold execRemoteAccess at e
  repeat' first | with_reducible assumption | cases e | with_reducible apply State.remoteStep_keeps

theorem State.ethernetStep_keeps {s : State} {x1 x2 x3 : Nat} {x4 : Bool} {x5 : BitVec 64} {x6 : List Byte} (h : s.HomeWf) :
    (State.ethernetStep s x1 x2 x3 x4 x5 x6).HomeWf := by
  unfold State.ethernetStep
  repeat' first
    | with_reducible assumption | with_reducible apply HomeWf.ite | with_reducible apply State.acceptBytes_keeps
    | (unfold State.HomeWf; dsimp only; with_reducible apply HomeWf.mem) | cases e | split at e | split

theorem execEthernetPacket_keeps {x0 : BitVec 2} {x1 : Bool} {x2 : PieceHead} {x3 : List Byte} {s : State} {t : State} (e : execEthernetPacket x0 x1 x2 x3 s = .next t)
    (h : s.HomeWf) : t.HomeWf := by
  unfold execEthernetPacket at e
  repeat' first | with_reducible assumption | cases e | with_reducible apply State.ethernetStep_keeps

theorem State.retrainStep_keeps {s : State} {x1 : Nat} (h : s.HomeWf) : (State.retrainStep s x1).HomeWf := by
  unfold State.retrainStep
  repeat' first | with_reducible assumption | with_reducible apply HomeWf.ite | with_reducible apply State.setPort_keeps

theorem execPortRetrain_keeps {x0 : BitVec 6} {s : State} {t : State} (e : execPortRetrain x0 s = .next t) (h : s.HomeWf) : t.HomeWf := by
  unfold execPortRetrain at e
  repeat' first | with_reducible assumption | cases e | with_reducible apply State.retrainStep_keeps

theorem State.modPort_keeps {s : State} {x1 : Nat} {x2 : Port → Port} (h : s.HomeWf) : (State.modPort s x1 x2).HomeWf := by
  unfold State.modPort
  repeat' first | with_reducible assumption | with_reducible apply State.setPort_keeps

theorem State.retrainEnd_keeps {s : State} {x1 : Nat} {x2 : Bool} (h : s.HomeWf) : (State.retrainEnd s x1 x2).HomeWf := by
  unfold State.retrainEnd
  repeat' first
    | with_reducible assumption | with_reducible apply HomeWf.ite | with_reducible apply State.pump_keeps
    | with_reducible apply State.countErrors_keeps | with_reducible apply State.emitRun_keeps | with_reducible apply State.setPort_keeps
    | with_reducible apply State.resendOut_keeps | with_reducible apply State.linkEvent_keeps | with_reducible apply State.bump_keeps

theorem State.routeLost_keeps {s : State} {x1 : BitVec 12} (h : s.HomeWf) : (State.routeLost s x1).HomeWf := by
  unfold State.routeLost
  repeat' first
    | with_reducible assumption | intro _ | with_reducible apply HomeWf.ite | with_reducible apply HomeWf.foldl
    | with_reducible apply State.loseClaims_keeps | with_reducible apply State.failRequest_keeps | with_reducible apply State.escalate_keeps
    | (unfold State.HomeWf; dsimp only; with_reducible apply HomeWf.mem)

theorem execTimeFlit_keeps {x0 : BitVec 64} {s : State} {t : State} (e : execTimeFlit x0 s = .next t) (h : s.HomeWf) : t.HomeWf := by
  unfold execTimeFlit at e
  repeat' first | with_reducible assumption | with_reducible apply HomeWf.ite | with_reducible apply State.timeStep_keeps | cases e

theorem execNegativeAcknowledge_keeps {x0 : BitVec 6} {x1 : BitVec 12} {s : State} {t : State} (e : execNegativeAcknowledge x0 x1 s = .next t)
    (h : s.HomeWf) : t.HomeWf := by
  unfold execNegativeAcknowledge at e
  repeat' first | with_reducible assumption | with_reducible apply HomeWf.ite | with_reducible apply State.nakFlit_keeps | cases e

theorem execTimeFlitSend_keeps {s : State} {t : State} (e : execTimeFlitSend s = .next t) (h : s.HomeWf) : t.HomeWf := by
  unfold execTimeFlitSend at e
  repeat' first | with_reducible assumption | cases e | with_reducible apply State.timeSendStep_keeps

theorem State.timeLostStep_keeps {s : State} (h : s.HomeWf) : (State.timeLostStep s).HomeWf := by
  unfold State.timeLostStep
  repeat' first
    | with_reducible assumption | with_reducible apply HomeWf.ite | with_reducible apply State.event_keeps
    | (unfold State.HomeWf; dsimp only; with_reducible apply HomeWf.mem)

theorem drainSpill_keeps {p n : BitVec 12} {f i : Nat} {s : State} (h : s.HomeWf) : (drainSpill p n f i s).HomeWf := by
  induction f generalizing i s with
  | zero => exact h
  | succ f ih =>
    unfold drainSpill
    dsimp only
    split
    · exact h
    · split
      · refine ih (State.freeSlot_keeps ?_)
        split
        · exact State.escalate_keeps h
        · split
          · exact State.countDiscard_keeps h
          · split
            · exact State.sendToken_keeps h
            · exact State.slotError_keeps h
      · exact ih (State.denyPages_keeps h)

theorem State.routeReturn_keeps {s : State} {x1 : BitVec 12} (h : s.HomeWf) : (State.routeReturn s x1).HomeWf := by
  unfold State.routeReturn
  repeat' first
    | with_reducible assumption | intro _ | with_reducible apply HomeWf.ite | with_reducible apply HomeWf.foldl
    | with_reducible apply State.sendLate_keeps | with_reducible apply State.sendToken_keeps | with_reducible apply State.payAcks_keeps
    | with_reducible apply drainSpill_keeps | with_reducible apply State.modCtx_keeps | with_reducible apply State.settleWait_keeps
    | with_reducible apply State.countDiscard_keeps | (unfold State.HomeWf; dsimp only; with_reducible apply HomeWf.mem)

theorem execRetrainEnd_keeps {x0 : BitVec 6} {x1 : Bool} {s : State} {t : State} (e : execRetrainEnd x0 x1 s = .next t) (h : s.HomeWf) : t.HomeWf := by
  unfold execRetrainEnd at e
  repeat' first | with_reducible assumption | cases e | with_reducible apply State.retrainEnd_keeps

theorem execDomainTimeLost_keeps {s : State} {t : State} (e : execDomainTimeLost s = .next t) (h : s.HomeWf) : t.HomeWf := by
  unfold execDomainTimeLost at e
  repeat' first | with_reducible assumption | cases e | with_reducible apply State.timeLostStep_keeps

theorem State.pass_keeps {s : State} {x1 : Nat} (h : s.HomeWf) : (State.pass s x1).HomeWf := by
  unfold State.pass
  repeat' first | with_reducible assumption | with_reducible apply HomeWf.ite | (unfold State.HomeWf; dsimp only; with_reducible apply HomeWf.mem)

theorem execRouteReturn_keeps {x0 : BitVec 12} {s : State} {t : State} (e : execRouteReturn x0 s = .next t) (h : s.HomeWf) : t.HomeWf := by
  unfold execRouteReturn at e
  repeat' first | with_reducible assumption | cases e | with_reducible apply State.routeReturn_keeps

theorem execRouteLost_keeps {x0 : BitVec 12} {s : State} {t : State} (e : execRouteLost x0 s = .next t) (h : s.HomeWf) : t.HomeWf := by
  unfold execRouteLost at e
  repeat' first | with_reducible assumption | cases e | with_reducible apply State.routeLost_keeps

theorem State.hostAnswered_keeps {s : State} {x1 : Request} {x2 : List Byte} {x3 : Bool} (h : s.HomeWf) : (State.hostAnswered s x1 x2 x3).HomeWf := by
  unfold State.hostAnswered
  repeat' first
    | with_reducible assumption | with_reducible exact EngAccess.wf_wait | with_reducible apply EngAccess.wf_err | intro _
    | with_reducible apply HomeWf.ite | with_reducible apply HomeWf.foldl | with_reducible apply HomeWf.getD | with_reducible apply HomeWf.elim
    | (with_reducible refine State.answered_keeps (by assumption) ?_)

theorem State.casEnd_keeps {s : State} {x1 : CasLoop} {x2 : Word} {x3 : Bool} (h : s.HomeWf) : (State.casEnd s x1 x2 x3).HomeWf := by
  unfold State.casEnd
  repeat' first
    | with_reducible assumption | with_reducible apply HomeWf.ite | with_reducible apply State.hostAnswered_keeps
    | (unfold State.HomeWf; dsimp only; with_reducible apply HomeWf.mem) | cases e | split at e | split

theorem State.casTurn_keeps {s : State} {x1 : CasLoop} {x2 : Word} (h : s.HomeWf) : (State.casTurn s x1 x2).HomeWf := by
  unfold State.casTurn
  repeat' first | with_reducible assumption | (unfold State.HomeWf; dsimp only; with_reducible apply HomeWf.mem)

theorem State.casStep_keeps {s : State} {x1 : Nat} {x2 : Word} (h : s.HomeWf) : (State.casStep s x1 x2).HomeWf := by
  unfold State.casStep
  repeat' first
    | with_reducible assumption | with_reducible apply HomeWf.ite | with_reducible apply State.casEnd_keeps
    | with_reducible apply State.casTurn_keeps | cases e | split at e | split

theorem State.claimStep_keeps {s : State} {x1 : Master} (h : s.HomeWf) : (State.claimStep s x1).HomeWf := by
  unfold State.claimStep
  repeat' first | with_reducible assumption | with_reducible apply HomeWf.ite | (unfold State.HomeWf; dsimp only; with_reducible apply HomeWf.mem)

theorem execHostClaim_keeps {x0 : Master} {s : State} {t : State} (e : execHostClaim x0 s = .next t) (h : s.HomeWf) : t.HomeWf := by
  unfold execHostClaim at e
  repeat' first | with_reducible assumption | cases e | with_reducible apply State.claimStep_keeps

theorem State.msix_keeps {s : State} {x1 : BitVec 11} (h : s.HomeWf) : (State.msix s x1).HomeWf := by
  unfold State.msix
  repeat' first | with_reducible assumption | with_reducible apply HomeWf.ite | (unfold State.HomeWf; dsimp only; with_reducible apply HomeWf.mem)

theorem State.dropIngress_keeps {s : State} {x1 : Nat} (h : s.HomeWf) : (State.dropIngress s x1).HomeWf := by
  unfold State.dropIngress
  repeat' first
    | with_reducible assumption | with_reducible apply State.event_keeps | (unfold State.HomeWf; dsimp only; with_reducible apply HomeWf.mem)

theorem State.deliverIngress_keeps {s : State} {x1 : BitVec 11} {x2 : Token} (h : s.HomeWf) : (State.deliverIngress s x1 x2).HomeWf := by
  unfold State.deliverIngress
  repeat' first
    | with_reducible assumption | with_reducible apply HomeWf.ite | with_reducible apply State.setQueue_keeps
    | with_reducible apply State.sendToken_keeps | with_reducible apply State.loadDesc_keeps | with_reducible apply State.countDiscard_keeps
    | with_reducible apply State.protectionEvent_keeps | cases e | split at e | split

theorem State.portOut_keeps {s : State} {x1 : Nat} (h : s.HomeWf) : (State.portOut s x1).HomeWf := by
  unfold State.portOut
  repeat' first
    | with_reducible assumption | with_reducible apply HomeWf.ite | with_reducible apply State.deliverIngress_keeps
    | (unfold State.HomeWf; dsimp only; with_reducible apply HomeWf.mem) | cases e | split at e | split

theorem State.ingressStep_keeps {s : State} {x1 x2 : Nat} {x3 : List Byte} (h : s.HomeWf) : (State.ingressStep s x1 x2 x3).HomeWf := by
  unfold State.ingressStep
  repeat' first
    | with_reducible assumption | with_reducible apply HomeWf.ite | with_reducible apply State.refuseWrite_keeps
    | with_reducible apply State.dropIngress_keeps | with_reducible apply State.loadDesc_keeps | with_reducible apply State.deny_keeps
    | with_reducible apply State.recordToken_keeps | with_reducible apply State.portOut_keeps
    | (unfold State.HomeWf; dsimp only; with_reducible apply HomeWf.mem)

theorem execIngressWrite_keeps {x0 : BitVec 8} {x1 : BitVec 12} {x2 : List Byte} {s : State} {t : State} (e : execIngressWrite x0 x1 x2 s = .next t)
    (h : s.HomeWf) : t.HomeWf := by
  unfold execIngressWrite at e
  repeat' first | with_reducible assumption | cases e | with_reducible apply State.ingressStep_keeps

theorem State.eventStep_keeps {s : State} (h : s.HomeWf) : (State.eventStep s).HomeWf := by
  unfold State.eventStep
  repeat' first
    | with_reducible assumption | with_reducible apply HomeWf.ite | with_reducible apply State.acceptBytes_keeps
    | with_reducible apply State.admitEvent_keeps | with_reducible apply State.msix_keeps
    | (unfold State.HomeWf; dsimp only; with_reducible apply HomeWf.mem) | cases e | split at e | split

theorem State.eventsOut_keeps {s : State} (h : s.HomeWf) : (State.eventsOut s).HomeWf := by
  unfold State.eventsOut
  repeat' first
    | with_reducible assumption | intro _ | with_reducible apply HomeWf.ite | with_reducible apply HomeWf.foldl
    | with_reducible apply State.eventStep_keeps

theorem State.handoverStep_keeps {s : State} (h : s.HomeWf) : (State.handoverStep s).HomeWf := by
  unfold State.handoverStep
  repeat' first
    | with_reducible assumption | with_reducible apply HomeWf.ite | with_reducible apply State.eventsOut_keeps
    | with_reducible apply State.event_keeps | (unfold State.HomeWf; dsimp only; with_reducible apply HomeWf.mem) | cases e | split at e | split

theorem execHandoverEffect_keeps {s : State} {t : State} (e : execHandoverEffect s = .next t) (h : s.HomeWf) : t.HomeWf := by
  unfold execHandoverEffect at e
  repeat' first | with_reducible assumption | cases e | with_reducible apply State.handoverStep_keeps

theorem State.recordStep_keeps {s : State} (h : s.HomeWf) : (State.recordStep s).HomeWf := by
  unfold State.recordStep
  repeat' first
    | with_reducible assumption | with_reducible apply HomeWf.ite | with_reducible apply State.msix_keeps
    | (unfold State.HomeWf; dsimp only; with_reducible apply HomeWf.mem) | cases e | split at e | split

theorem State.bar2Load_keeps {s : State} {x1 x2 : Nat} (h : s.HomeWf) : (State.bar2Load s x1 x2).HomeWf := by
  unfold State.bar2Load
  repeat' first
    | with_reducible assumption | intro _ | with_reducible apply HomeWf.ite | with_reducible apply HomeWf.foldl
    | with_reducible apply State.deny_keeps | with_reducible apply State.l2Enter_keeps | with_reducible apply State.bump_keeps
    | (unfold State.HomeWf; dsimp only; with_reducible apply HomeWf.mem)

theorem execBar2Read_keeps {x0 x1 : Nat} {s : State} {t : State} (e : execBar2Read x0 x1 s = .next t) (h : s.HomeWf) : t.HomeWf := by
  unfold execBar2Read at e
  repeat' first | with_reducible assumption | cases e | with_reducible apply State.bar2Load_keeps

theorem State.setEvctl_keeps {s : State} {x1 : Word} (h : s.HomeWf) : (State.setEvctl s x1).HomeWf := by
  unfold State.setEvctl
  repeat' first | with_reducible assumption | (unfold State.HomeWf; dsimp only; with_reducible apply HomeWf.mem)

theorem execHostEvctlWrite_keeps {x0 : Master} {x1 : Word} {s : State} {t : State} (e : execHostEvctlWrite x0 x1 s = .next t) (h : s.HomeWf) : t.HomeWf := by
  unfold execHostEvctlWrite at e
  repeat' first
    | with_reducible assumption | cases e | (with_reducible refine State.ownerWrite_keeps (fun _ _ => ?_) ?_)
    | with_reducible apply State.setEvctl_keeps

theorem State.setHandover_keeps {s : State} {x1 : Word} (h : s.HomeWf) : (State.setHandover s x1).HomeWf := by
  unfold State.setHandover
  repeat' first | with_reducible assumption | with_reducible apply HomeWf.ite | (unfold State.HomeWf; dsimp only; with_reducible apply HomeWf.mem)

theorem execHostHandover_keeps {x0 : Master} {x1 : Word} {s : State} {t : State} (e : execHostHandover x0 x1 s = .next t) (h : s.HomeWf) : t.HomeWf := by
  unfold execHostHandover at e
  repeat' first
    | with_reducible assumption | cases e | (with_reducible refine State.ownerWrite_keeps (fun _ _ => ?_) ?_)
    | with_reducible apply State.setHandover_keeps

theorem State.peersetStep_keeps {s : State} {x1 : Master} {x2 : BitVec 12} (h : s.HomeWf) : (State.peersetStep s x1 x2).HomeWf := by
  unfold State.peersetStep
  repeat' first
    | with_reducible assumption | with_reducible apply HomeWf.ite | with_reducible apply State.refuseWrite_keeps
    | (unfold State.HomeWf; dsimp only; with_reducible apply HomeWf.mem)

theorem execHostPeerset_keeps {x0 : Master} {x1 : BitVec 12} {s : State} {t : State} (e : execHostPeerset x0 x1 s = .next t) (h : s.HomeWf) : t.HomeWf := by
  unfold execHostPeerset at e
  repeat' first | with_reducible assumption | cases e | with_reducible apply State.peersetStep_keeps

theorem State.hostSig_keeps {s : State} {x1 : Nat} (h : s.HomeWf) : (State.hostSig s x1).HomeWf := by
  unfold State.hostSig
  repeat' first | with_reducible assumption | (unfold State.HomeWf; dsimp only; with_reducible apply HomeWf.mem)

theorem State.bar2Store_keeps {s : State} {x1 : Nat} {x2 : List Byte} (h : s.HomeWf) : (State.bar2Store s x1 x2).HomeWf := by
  unfold State.bar2Store
  repeat' first
    | with_reducible assumption | intro _ | with_reducible apply HomeWf.ite | with_reducible apply HomeWf.foldl
    | with_reducible apply State.refuseWrite_keeps | with_reducible apply State.deny_keeps | with_reducible apply State.acceptBytes_keeps
    | with_reducible apply State.hostSig_keeps

theorem execBar2Write_keeps {x0 : Nat} {x1 : List Byte} {s : State} {t : State} (e : execBar2Write x0 x1 s = .next t) (h : s.HomeWf) : t.HomeWf := by
  unfold execBar2Write at e
  repeat' first | with_reducible assumption | cases e | with_reducible apply State.bar2Store_keeps

theorem State.setEvtail_keeps {s : State} {x1 : Word} (h : s.HomeWf) : (State.setEvtail s x1).HomeWf := by
  unfold State.setEvtail
  repeat' first | with_reducible assumption | (unfold State.HomeWf; dsimp only; with_reducible apply HomeWf.mem)

theorem execHostEvtailWrite_keeps {x0 : Master} {x1 : Word} {s : State} {t : State} (e : execHostEvtailWrite x0 x1 s = .next t) (h : s.HomeWf) : t.HomeWf := by
  unfold execHostEvtailWrite at e
  repeat' first
    | with_reducible assumption | cases e | (with_reducible refine State.ownerWrite_keeps (fun _ _ => ?_) ?_)
    | with_reducible apply State.setEvtail_keeps

theorem State.portsOut_keeps {s : State} (h : s.HomeWf) : (State.portsOut s).HomeWf := by
  unfold State.portsOut
  repeat' first
    | with_reducible assumption | intro _ | with_reducible apply HomeWf.ite | with_reducible apply HomeWf.foldl
    | with_reducible apply State.portOut_keeps

theorem execCompletionRecord_keeps {s : State} {t : State} (e : execCompletionRecord s = .next t) (h : s.HomeWf) : t.HomeWf := by
  unfold execCompletionRecord at e
  repeat' first | with_reducible assumption | cases e | with_reducible apply State.recordStep_keeps

theorem State.tick_keeps {s : State} {x1 : Nat} (h : s.HomeWf) : (State.tick s x1).HomeWf := by
  unfold State.tick
  repeat' first | with_reducible assumption | with_reducible apply State.portsOut_keeps | with_reducible apply State.pass_keeps

theorem execEventWrite_keeps {s : State} {t : State} (e : execEventWrite s = .next t) (h : s.HomeWf) : t.HomeWf := by
  unfold execEventWrite at e
  repeat' first | with_reducible assumption | cases e | with_reducible apply State.eventStep_keeps

theorem execHostCasResponse_keeps {x0 : Nat} {x1 : Word} {s : State} {t : State} (e : execHostCasResponse x0 x1 s = .next t) (h : s.HomeWf) : t.HomeWf := by
  unfold execHostCasResponse at e
  repeat' first | with_reducible assumption | cases e | with_reducible apply State.casStep_keeps

theorem State.completionStep_keeps {s : State} {x1 : Nat} {x2 : HostAnswer} (h : s.HomeWf) : (State.completionStep s x1 x2).HomeWf := by
  unfold State.completionStep
  repeat' first
    | with_reducible assumption | with_reducible apply HomeWf.ite | with_reducible apply State.casStep_keeps
    | with_reducible apply State.casTurn_keeps | with_reducible apply State.casEnd_keeps | with_reducible apply State.hostAnswered_keeps
    | cases e | split at e | split

theorem execHostCompletion_keeps {x0 : Nat} {x1 : HostAnswer} {s : State} {t : State} (e : execHostCompletion x0 x1 s = .next t) (h : s.HomeWf) : t.HomeWf := by
  unfold execHostCompletion at e
  repeat' first | with_reducible assumption | cases e | with_reducible apply State.completionStep_keeps

theorem State.msixWrite_keeps {s : State} {x1 : Nat} {x2 : Word} (h : s.HomeWf) : (State.msixWrite s x1 x2).HomeWf := by
  unfold State.msixWrite
  repeat' first
    | with_reducible assumption | with_reducible apply HomeWf.ite | with_reducible apply State.msix_keeps
    | (unfold State.HomeWf; dsimp only; with_reducible apply HomeWf.mem)

theorem State.loadKey_keeps {s : State} {x1 : Word} (h : s.HomeWf) : (State.loadKey s x1).HomeWf := by
  unfold State.loadKey
  repeat' first | with_reducible assumption | with_reducible apply HomeWf.ite | (unfold State.HomeWf; dsimp only; with_reducible apply HomeWf.mem)

theorem State.endReport_keeps {s : State} (h : s.HomeWf) : (State.endReport s).HomeWf := by
  unfold State.endReport
  repeat' first
    | with_reducible assumption | with_reducible apply HomeWf.ite | (unfold State.HomeWf; dsimp only; with_reducible apply HomeWf.mem) | cases e
    | split at e | split

theorem execAttestationDone_keeps {s : State} {t : State} (e : execAttestationDone s = .next t) (h : s.HomeWf) : t.HomeWf := by
  unfold execAttestationDone at e
  repeat' first | with_reducible assumption | cases e | with_reducible apply State.endReport_keeps

theorem State.askReport_keeps {s : State} (h : s.HomeWf) : (State.askReport s).HomeWf := by
  unfold State.askReport
  repeat' first | with_reducible assumption | with_reducible apply HomeWf.ite | (unfold State.HomeWf; dsimp only; with_reducible apply HomeWf.mem)

theorem execAttestationRequest_keeps {x0 : Master} {s : State} {t : State} (e : execAttestationRequest x0 s = .next t) (h : s.HomeWf) : t.HomeWf := by
  unfold execAttestationRequest at e
  repeat' first
    | with_reducible assumption | cases e | (with_reducible refine State.ownerWrite_keeps (fun _ _ => ?_) ?_)
    | with_reducible apply State.askReport_keeps

theorem State.resetAll_keeps {s : State} (_ : s.HomeWf) : s.resetAll.HomeWf := by
  show Memory.wf ({} : Homes).mem = true
  decide

theorem execReset_keeps {s : State} {t : State} (e : execReset s = .next t) (h : s.HomeWf) : t.HomeWf := by
  unfold execReset at e
  repeat' first | with_reducible assumption | cases e | with_reducible apply State.resetAll_keeps

theorem State.endBoot_keeps {s : State} (h : s.HomeWf) : (State.endBoot s).HomeWf := by
  unfold State.endBoot
  repeat' first
    | with_reducible assumption | with_reducible apply HomeWf.ite | with_reducible apply State.reset_keeps
    | (unfold State.HomeWf; dsimp only; with_reducible apply HomeWf.mem)

theorem State.setLock_keeps {s : State} {x1 : Word} (h : s.HomeWf) : (State.setLock s x1).HomeWf := by
  unfold State.setLock
  repeat' first | with_reducible assumption | with_reducible apply HomeWf.ite | (unfold State.HomeWf; dsimp only; with_reducible apply HomeWf.mem)

theorem State.afterBoot_keeps {s : State} {m : Master} (h : s.HomeWf) : (s.afterBoot m).HomeWf :=
  State.ownerWrite_keeps (fun _ h => h) h

theorem State.stage_keeps {s : State} {x1 : Master} {x2 : Nat} {x3 : List Byte} (h : s.HomeWf) : (State.stage s x1 x2 x3).HomeWf := by
  unfold State.stage
  repeat' first
    | with_reducible assumption | with_reducible apply HomeWf.ite | with_reducible apply State.afterBoot_keeps
    | (unfold State.HomeWf; dsimp only; with_reducible apply HomeWf.mem)

theorem execKeyLoad_keeps {x0 : Master} {x1 : Word} {s : State} {t : State} (e : execKeyLoad x0 x1 s = .next t) (h : s.HomeWf) : t.HomeWf := by
  unfold execKeyLoad at e
  repeat' first
    | with_reducible assumption | cases e | (with_reducible refine State.ownerWrite_keeps (fun _ _ => ?_) ?_)
    | with_reducible apply State.loadKey_keeps

theorem State.startBoot_keeps {s : State} {x1 : Master} (h : s.HomeWf) : (State.startBoot s x1).HomeWf := by
  unfold State.startBoot
  repeat' first
    | with_reducible assumption | with_reducible apply HomeWf.ite | with_reducible apply State.afterBoot_keeps
    | (unfold State.HomeWf; dsimp only; with_reducible apply HomeWf.mem)

theorem execBootStart_keeps {x0 : Master} {s : State} {t : State} (e : execBootStart x0 s = .next t) (h : s.HomeWf) : t.HomeWf := by
  unfold execBootStart at e
  repeat' first | with_reducible assumption | cases e | with_reducible apply State.startBoot_keeps

theorem execStagingWrite_keeps {x0 : Master} {x1 : Nat} {x2 : List Byte} {s : State} {t : State} (e : execStagingWrite x0 x1 x2 s = .next t)
    (h : s.HomeWf) : t.HomeWf := by
  unfold execStagingWrite at e
  repeat' first | with_reducible assumption | cases e | with_reducible apply State.stage_keeps

theorem execSecLock_keeps {x0 : Master} {x1 : Word} {s : State} {t : State} (e : execSecLock x0 x1 s = .next t) (h : s.HomeWf) : t.HomeWf := by
  unfold execSecLock at e
  repeat' first
    | with_reducible assumption | cases e | (with_reducible refine State.ownerWrite_keeps (fun _ _ => ?_) ?_)
    | with_reducible apply State.setLock_keeps

theorem State.tripStep_keeps {s : State} {x1 : Bool} {x2 : Nat} (h : s.HomeWf) : (State.tripStep s x1 x2).HomeWf := by
  unfold State.tripStep
  repeat' first
    | with_reducible assumption | with_reducible apply HomeWf.ite | with_reducible apply State.resetAll_keeps
    | with_reducible apply State.eventStep_keeps | with_reducible apply State.event_keeps

theorem execTrip_keeps {x0 : Bool} {x1 : BitVec 8} {s : State} {t : State} (e : execTrip x0 x1 s = .next t) (h : s.HomeWf) : t.HomeWf := by
  unfold execTrip at e
  repeat' first | with_reducible assumption | cases e | with_reducible apply State.tripStep_keeps

theorem execBootComplete_keeps {s : State} {t : State} (e : execBootComplete s = .next t) (h : s.HomeWf) : t.HomeWf := by
  unfold execBootComplete at e
  repeat' first | with_reducible assumption | cases e | with_reducible apply State.endBoot_keeps

theorem State.memRead_keeps {s : State} {x1 : Master} {v1 : Word} {t : State} (e : State.memRead s x1 = (v1, t)) (h : s.HomeWf) : t.HomeWf := by
  unfold State.memRead at e
  repeat' first
    | with_reducible assumption | with_reducible apply HomeWf.ite | with_reducible apply State.l2Enter_keeps
    | (unfold State.HomeWf; dsimp only; with_reducible apply HomeWf.mem) | cases e | split at e

theorem State.memRead_keeps_st {s : State} {x1 : Master} (h : s.HomeWf) : (State.memRead s x1).2.HomeWf := by
  rcases e : State.memRead s x1 with ⟨a, b⟩; exact State.memRead_keeps e h

theorem State.answerMaster_keeps {s : State} {x1 : Master} {x2 : Word} (h : s.HomeWf) : (State.answerMaster s x1 x2).HomeWf := by
  unfold State.answerMaster
  repeat' first
    | with_reducible assumption | with_reducible apply HomeWf.ite | (unfold State.HomeWf; dsimp only; with_reducible apply HomeWf.mem) | cases e
    | split at e | split

theorem State.memdataReadStep_keeps {s : State} {x1 : Master} (h : s.HomeWf) : (State.memdataReadStep s x1).HomeWf := by
  unfold State.memdataReadStep
  repeat' first
    | with_reducible assumption | with_reducible apply State.memRead_keeps_st | (with_reducible refine State.memRead_keeps (by assumption) ?_)
    | with_reducible apply State.bump_keeps | with_reducible apply State.answerMaster_keeps

theorem execMemdataRead_keeps {x0 : Master} {s : State} {t : State} (e : execMemdataRead x0 s = .next t) (h : s.HomeWf) : t.HomeWf := by
  unfold execMemdataRead at e
  repeat' first | with_reducible assumption | cases e | with_reducible apply State.memdataReadStep_keeps

theorem State.injectStep_keeps {s : State} (h : s.HomeWf) : (State.injectStep s).HomeWf := by
  unfold State.injectStep
  repeat' first
    | with_reducible assumption | with_reducible apply HomeWf.ite | with_reducible apply State.replayStop_keeps
    | with_reducible apply State.deliverIngress_keeps | with_reducible apply State.consumeLog_keeps
    | (unfold State.HomeWf; dsimp only; with_reducible apply HomeWf.mem) | cases e | split at e | split

theorem execReplayInject_keeps {s : State} {t : State} (e : execReplayInject s = .next t) (h : s.HomeWf) : t.HomeWf := by
  unfold execReplayInject at e
  repeat' first | with_reducible assumption | cases e | with_reducible apply State.injectStep_keeps

theorem State.throttleStep_keeps {s : State} {x1 : BitVec 4} {x2 : BitVec 8} (h : s.HomeWf) : (State.throttleStep s x1 x2).HomeWf := by
  unfold State.throttleStep
  repeat' first
    | with_reducible assumption | with_reducible apply HomeWf.ite | with_reducible apply State.event_keeps
    | (unfold State.HomeWf; dsimp only; with_reducible apply HomeWf.mem)

theorem State.memWrite_keeps {s : State} {x1 : Word} (h : s.HomeWf) : (State.memWrite s x1).HomeWf := by
  unfold State.memWrite
  repeat' first
    | with_reducible assumption | with_reducible apply State.acceptBytes_keeps
    | (unfold State.HomeWf; dsimp only; with_reducible apply HomeWf.mem)

theorem State.temperatureStep_keeps {s : State} {x1 : BitVec 4} {x2 : BitVec 8} (h : s.HomeWf) : (State.temperatureStep s x1 x2).HomeWf := by
  unfold State.temperatureStep
  repeat' first
    | with_reducible assumption | with_reducible apply HomeWf.ite | with_reducible apply State.event_keeps
    | (unfold State.HomeWf; dsimp only; with_reducible apply HomeWf.mem)

theorem execHbmThrottle_keeps {x0 : BitVec 4} {x1 : BitVec 8} {s : State} {t : State} (e : execHbmThrottle x0 x1 s = .next t) (h : s.HomeWf) : t.HomeWf := by
  unfold execHbmThrottle at e
  repeat' first | with_reducible assumption | cases e | with_reducible apply State.throttleStep_keeps

theorem State.badLoad_keeps {s : State} {x1 x2 x3 : Nat} (h : s.HomeWf) : (State.badLoad s x1 x2 x3).HomeWf := by
  unfold State.badLoad
  repeat' first
    | with_reducible assumption | with_reducible apply HomeWf.ite | with_reducible apply State.setChord_keeps | cases e | split at e | split

theorem State.badAt_keeps {s : State} {x1 : EccWhere} (h : s.HomeWf) : (State.badAt s x1).HomeWf := by
  unfold State.badAt
  repeat' first
    | with_reducible assumption | with_reducible apply HomeWf.ite | with_reducible apply State.badLoad_keeps
    | with_reducible apply State.modCore_keeps | with_reducible apply State.failFill_keeps | with_reducible apply State.dropFill_keeps
    | with_reducible apply State.setLine_keeps | with_reducible apply State.escalate_keeps
    | (unfold State.HomeWf; dsimp only; with_reducible apply HomeWf.mem) | cases e | split at e | split

theorem State.eccStep_keeps {s : State} {x1 : Nat} {x2 : Option EccWhere} (h : s.HomeWf) : (State.eccStep s x1 x2).HomeWf := by
  unfold State.eccStep
  repeat' first
    | with_reducible assumption | with_reducible apply HomeWf.ite | with_reducible apply State.countError_keeps
    | with_reducible apply State.badAt_keeps | cases e | split at e | split

theorem State.powerStep_keeps {s : State} {x1 : BitVec 12} (h : s.HomeWf) : (State.powerStep s x1).HomeWf := by
  unfold State.powerStep
  repeat' first
    | with_reducible assumption | with_reducible apply HomeWf.ite | with_reducible apply State.event_keeps
    | (unfold State.HomeWf; dsimp only; with_reducible apply HomeWf.mem)

theorem execPowerCap_keeps {x0 : BitVec 12} {s : State} {t : State} (e : execPowerCap x0 s = .next t) (h : s.HomeWf) : t.HomeWf := by
  unfold execPowerCap at e
  repeat' first | with_reducible assumption | cases e | with_reducible apply State.powerStep_keeps

theorem execTemperatureWarning_keeps {x0 : BitVec 4} {x1 : BitVec 8} {s : State} {t : State} (e : execTemperatureWarning x0 x1 s = .next t)
    (h : s.HomeWf) : t.HomeWf := by
  unfold execTemperatureWarning at e
  repeat' first | with_reducible assumption | cases e | with_reducible apply State.temperatureStep_keeps

theorem State.replayTimeoutStep_keeps {s : State} {x1 : Nat} (h : s.HomeWf) : (State.replayTimeoutStep s x1).HomeWf := by
  unfold State.replayTimeoutStep
  repeat' first
    | with_reducible assumption | with_reducible apply HomeWf.ite | with_reducible apply State.replayStop_keeps
    | (unfold State.HomeWf; dsimp only; with_reducible apply HomeWf.mem) | cases e | split at e | split

theorem State.coolStep_keeps {s : State} {x1 : Master} {x2 : Byte} (h : s.HomeWf) : (State.coolStep s x1 x2).HomeWf := by
  unfold State.coolStep
  repeat' first
    | with_reducible assumption | with_reducible apply HomeWf.ite | with_reducible apply State.event_keeps
    | with_reducible apply State.refuseWrite_keeps

theorem execMgmtCool_keeps {x0 : Master} {x1 : Byte} {s : State} {t : State} (e : execMgmtCool x0 x1 s = .next t) (h : s.HomeWf) : t.HomeWf := by
  unfold execMgmtCool at e
  repeat' first | with_reducible assumption | cases e | with_reducible apply State.coolStep_keeps

theorem execEccError_keeps {x0 : BitVec 3} {x1 : Option EccWhere} {s : State} {t : State} (e : execEccError x0 x1 s = .next t) (h : s.HomeWf) : t.HomeWf := by
  unfold execEccError at e
  repeat' first | with_reducible assumption | cases e | with_reducible apply State.eccStep_keeps

theorem execReplayTimeout_keeps {x0 : BitVec 8} {s : State} {t : State} (e : execReplayTimeout x0 s = .next t) (h : s.HomeWf) : t.HomeWf := by
  unfold execReplayTimeout at e
  repeat' first | with_reducible assumption | cases e | with_reducible apply State.replayTimeoutStep_keeps

theorem execMemdataWrite_keeps {x0 : Master} {x1 : Word} {s : State} {t : State} (e : execMemdataWrite x0 x1 s = .next t) (h : s.HomeWf) : t.HomeWf := by
  unfold execMemdataWrite at e
  repeat' first
    | with_reducible assumption | cases e | (with_reducible refine State.ownerWrite_keeps (fun _ _ => ?_) ?_)
    | with_reducible apply State.memWrite_keeps

theorem State.setCtxCmd_keeps {s : State} {x1 : Word} (h : s.HomeWf) : (State.setCtxCmd s x1).HomeWf := by
  unfold State.setCtxCmd
  repeat' first
    | with_reducible assumption | with_reducible apply HomeWf.ite | with_reducible apply State.cmdPreempt_keeps
    | with_reducible apply State.cmdStop_keeps | with_reducible apply State.cmdResume_keeps | with_reducible apply State.cmdEnd_keeps
    | with_reducible apply State.cmdReload_keeps | (unfold State.HomeWf; dsimp only; with_reducible apply HomeWf.mem) | cases e | split at e
    | split

theorem State.setHost_keeps {s : State} {x1 : Nat} {x2 : Word} (h : s.HomeWf) : (State.setHost s x1 x2).HomeWf := by
  unfold State.setHost
  repeat' first
    | with_reducible assumption | with_reducible apply HomeWf.ite | with_reducible apply State.setHandover_keeps
    | with_reducible apply State.setEvctl_keeps | with_reducible apply State.setEvtail_keeps
    | (unfold State.HomeWf; dsimp only; with_reducible apply HomeWf.mem) | cases e | split at e | split

theorem State.setFault_keeps {s : State} {x1 : Word} (h : s.HomeWf) : (State.setFault s x1).HomeWf := by
  unfold State.setFault
  repeat' first
    | with_reducible assumption | with_reducible apply HomeWf.ite | with_reducible apply State.resumeFault_keeps
    | with_reducible apply State.refuseFault_keeps | cases e | split at e | split

theorem State.setRegion_keeps {s : State} {x1 : Nat} {x2 : Region → Region} (h : s.HomeWf) : (State.setRegion s x1 x2).HomeWf := by
  unfold State.setRegion
  repeat' first | with_reducible assumption | (unfold State.HomeWf; dsimp only; with_reducible apply HomeWf.mem)

theorem State.setWorld_keeps {s : State} {x1 : Nat} {x2 : Word} (h : s.HomeWf) : (State.setWorld s x1 x2).HomeWf := by
  unfold State.setWorld
  repeat' first
    | with_reducible assumption | with_reducible apply HomeWf.ite | with_reducible apply State.setRegion_keeps
    | (unfold State.HomeWf; dsimp only; with_reducible apply HomeWf.mem)

theorem State.setSec_keeps {s : State} {x1 : Nat} {x2 : Word} (h : s.HomeWf) : (State.setSec s x1 x2).HomeWf := by
  unfold State.setSec
  repeat' first
    | with_reducible assumption | with_reducible apply HomeWf.ite | with_reducible apply State.setLock_keeps
    | with_reducible apply State.loadKey_keeps | with_reducible apply State.askReport_keeps | with_reducible apply State.setWorld_keeps
    | (unfold State.HomeWf; dsimp only; with_reducible apply HomeWf.mem)

theorem State.setPkgId_keeps {s : State} {x1 : Word} (h : s.HomeWf) : (State.setPkgId s x1).HomeWf := by
  unfold State.setPkgId
  repeat' first | with_reducible assumption | with_reducible apply HomeWf.ite | (unfold State.HomeWf; dsimp only; with_reducible apply HomeWf.mem)

theorem State.setThresh_keeps {s : State} {x1 : Nat} {x2 : Word} (h : s.HomeWf) : (State.setThresh s x1 x2).HomeWf := by
  unfold State.setThresh
  repeat' first | with_reducible assumption | (unfold State.HomeWf; dsimp only; with_reducible apply HomeWf.mem)

theorem State.setMgmt_keeps {s : State} {x1 : Nat} {x2 : Word} (h : s.HomeWf) : (State.setMgmt s x1 x2).HomeWf := by
  unfold State.setMgmt
  repeat' first
    | with_reducible assumption | with_reducible apply HomeWf.ite | with_reducible apply State.memWrite_keeps
    | with_reducible apply State.setPkgId_keeps | with_reducible apply State.setThresh_keeps
    | (unfold State.HomeWf; dsimp only; with_reducible apply HomeWf.mem) | cases e | split at e | split

theorem State.setRoute_keeps {s : State} {x1 : Nat} {x2 : Bool} {x3 : Word} (h : s.HomeWf) : (State.setRoute s x1 x2 x3).HomeWf := by
  unfold State.setRoute
  repeat' first
    | with_reducible assumption | intro _ | with_reducible apply HomeWf.ite | with_reducible apply HomeWf.foldl
    | with_reducible apply State.tellTrap_keeps | (unfold State.HomeWf; dsimp only; with_reducible apply HomeWf.mem)

theorem State.regSet_keeps {s : State} {x1 : Nat} {x2 : Word} (h : s.HomeWf) : (State.regSet s x1 x2).HomeWf := by
  unfold State.regSet
  repeat' first
    | with_reducible assumption | with_reducible apply HomeWf.ite | with_reducible apply State.msixWrite_keeps
    | with_reducible apply State.setHost_keeps | with_reducible apply State.setCtxCmd_keeps | with_reducible apply State.invalCommand_keeps
    | with_reducible apply State.setFault_keeps | with_reducible apply State.setSec_keeps | with_reducible apply State.setMgmt_keeps
    | with_reducible apply State.setRoute_keeps | (unfold State.HomeWf; dsimp only; with_reducible apply HomeWf.mem)

theorem State.regWrite_keeps {s : State} {x1 : Master} {x2 : Nat} {x3 : Word} (h : s.HomeWf) : (State.regWrite s x1 x2 x3).HomeWf := by
  unfold State.regWrite
  repeat' first
    | with_reducible assumption | with_reducible apply HomeWf.ite | with_reducible apply State.stage_keeps
    | with_reducible apply State.startBoot_keeps | with_reducible apply State.afterBoot_keeps | with_reducible apply State.claimStep_keeps
    | with_reducible apply State.peersetStep_keeps | with_reducible apply State.coolStep_keeps
    | (with_reducible refine State.ownerWrite_keeps (fun _ _ => ?_) ?_) | with_reducible apply State.regSet_keeps

theorem State.i3cAnswer_keeps {s : State} (h : s.HomeWf) : (State.i3cAnswer s).HomeWf := by
  unfold State.i3cAnswer
  repeat' first | with_reducible assumption | (unfold State.HomeWf; dsimp only; with_reducible apply HomeWf.mem)

theorem State.i3cStep_keeps {s : State} {x1 : List Byte} (h : s.HomeWf) : (State.i3cStep s x1).HomeWf := by
  unfold State.i3cStep
  repeat' first
    | with_reducible assumption | with_reducible apply HomeWf.ite | with_reducible apply State.i3cAnswer_keeps
    | with_reducible apply State.memRead_keeps_st | (with_reducible refine State.memRead_keeps (by assumption) ?_)
    | with_reducible apply State.regWrite_keeps | (unfold State.HomeWf; dsimp only; with_reducible apply HomeWf.mem) | cases e | split at e
    | split

theorem execI3cAccess_keeps {x0 : List Byte} {s : State} {t : State} (e : execI3cAccess x0 s = .next t) (h : s.HomeWf) : t.HomeWf := by
  unfold execI3cAccess at e
  repeat' first | with_reducible assumption | cases e | with_reducible apply State.i3cStep_keeps

theorem execRegisterWrite_keeps {x0 : Master} {x1 : Nat} {x2 : Word} {s : State} {t : State} (e : execRegisterWrite x0 x1 x2 s = .next t) (h : s.HomeWf) : t.HomeWf := by
  unfold execRegisterWrite at e
  repeat' first | with_reducible assumption | cases e | with_reducible apply State.regWrite_keeps

theorem State.popMove_keeps {s : State} (h : s.HomeWf) : (State.popMove s).HomeWf := by
  unfold State.popMove
  repeat' first | with_reducible assumption | (unfold State.HomeWf; dsimp only; with_reducible apply HomeWf.mem)

theorem State.setFocusAt_keeps {s : State} {x1 x2 : Nat} (h : s.HomeWf) : (State.setFocusAt s x1 x2).HomeWf := by
  unfold State.setFocusAt
  repeat' first | with_reducible assumption | (unfold State.HomeWf; dsimp only; with_reducible apply HomeWf.mem)

theorem State.noteIssue_keeps {s : State} {x1 x2 : Nat} {x3 : Instr} (h : s.HomeWf) : (State.noteIssue s x1 x2 x3).HomeWf := by
  unfold State.noteIssue
  repeat' first | with_reducible assumption | with_reducible apply State.modChord_keeps

end Sys2Proof.Machine
end

