-- ==== Sys2Proof/Laws/State.lean ====
section
/-! SUPPORT. What each named update of the state leaves alone and what it sets, field by field, so that no later proof unfolds
a record update. -/

namespace Sys2Proof.Machine

variable (s : State)

set_option Elab.async false

/-! ### setCore -/

@[simp] theorem State.setCore_flow (c : Nat) (k : Core) : (s.setCore c k).flow = s.flow := rfl
@[simp] theorem State.setCore_sec (c : Nat) (k : Core) : (s.setCore c k).sec = s.sec := rfl
@[simp] theorem State.setCore_host (c : Nat) (k : Core) : (s.setCore c k).host = s.host := rfl
@[simp] theorem State.setCore_ctxRegs (c : Nat) (k : Core) : (s.setCore c k).ctxRegs = s.ctxRegs := rfl
@[simp] theorem State.setCore_ctxs (c : Nat) (k : Core) : (s.setCore c k).ctxs = s.ctxs := rfl
@[simp] theorem State.setCore_acts (c : Nat) (k : Core) : (s.setCore c k).acts = s.acts := rfl
@[simp] theorem State.setCore_loader (c : Nat) (k : Core) : (s.setCore c k).loader = s.loader := rfl
@[simp] theorem State.setCore_xlt (c : Nat) (k : Core) : (s.setCore c k).xlt = s.xlt := rfl
@[simp] theorem State.setCore_homes (c : Nat) (k : Core) : (s.setCore c k).homes = s.homes := rfl
@[simp] theorem State.setCore_eng (c : Nat) (k : Core) : (s.setCore c k).eng = s.eng := rfl
@[simp] theorem State.setCore_links (c : Nat) (k : Core) : (s.setCore c k).links = s.links := rfl
@[simp] theorem State.setCore_reqs (c : Nat) (k : Core) : (s.setCore c k).reqs = s.reqs := rfl
@[simp] theorem State.setCore_net (c : Nat) (k : Core) : (s.setCore c k).net = s.net := rfl
@[simp] theorem State.setCore_mgmt (c : Nat) (k : Core) : (s.setCore c k).mgmt = s.mgmt := rfl
@[simp] theorem State.setCore_dbg (c : Nat) (k : Core) : (s.setCore c k).dbg = s.dbg := rfl
@[simp] theorem State.setCore_pkg (c : Nat) (k : Core) : (s.setCore c k).pkg = s.pkg := rfl
@[simp] theorem State.setCore_ownersPart (c : Nat) (k : Core) : (s.setCore c k).ownersPart = s.ownersPart := rfl

/-! ### modCore -/

@[simp] theorem State.modCore_flow (c : Nat) (f : Core → Core) : (s.modCore c f).flow = s.flow := rfl
@[simp] theorem State.modCore_sec (c : Nat) (f : Core → Core) : (s.modCore c f).sec = s.sec := rfl
@[simp] theorem State.modCore_host (c : Nat) (f : Core → Core) : (s.modCore c f).host = s.host := rfl
@[simp] theorem State.modCore_ctxRegs (c : Nat) (f : Core → Core) : (s.modCore c f).ctxRegs = s.ctxRegs := rfl
@[simp] theorem State.modCore_ctxs (c : Nat) (f : Core → Core) : (s.modCore c f).ctxs = s.ctxs := rfl
@[simp] theorem State.modCore_acts (c : Nat) (f : Core → Core) : (s.modCore c f).acts = s.acts := rfl
@[simp] theorem State.modCore_loader (c : Nat) (f : Core → Core) : (s.modCore c f).loader = s.loader := rfl
@[simp] theorem State.modCore_xlt (c : Nat) (f : Core → Core) : (s.modCore c f).xlt = s.xlt := rfl
@[simp] theorem State.modCore_homes (c : Nat) (f : Core → Core) : (s.modCore c f).homes = s.homes := rfl
@[simp] theorem State.modCore_eng (c : Nat) (f : Core → Core) : (s.modCore c f).eng = s.eng := rfl
@[simp] theorem State.modCore_links (c : Nat) (f : Core → Core) : (s.modCore c f).links = s.links := rfl
@[simp] theorem State.modCore_reqs (c : Nat) (f : Core → Core) : (s.modCore c f).reqs = s.reqs := rfl
@[simp] theorem State.modCore_net (c : Nat) (f : Core → Core) : (s.modCore c f).net = s.net := rfl
@[simp] theorem State.modCore_mgmt (c : Nat) (f : Core → Core) : (s.modCore c f).mgmt = s.mgmt := rfl
@[simp] theorem State.modCore_dbg (c : Nat) (f : Core → Core) : (s.modCore c f).dbg = s.dbg := rfl
@[simp] theorem State.modCore_pkg (c : Nat) (f : Core → Core) : (s.modCore c f).pkg = s.pkg := rfl
@[simp] theorem State.modCore_ownersPart (c : Nat) (f : Core → Core) : (s.modCore c f).ownersPart = s.ownersPart := rfl

/-! ### setChord -/

@[simp] theorem State.setChord_flow (c i : Nat) (ch : Chord) : (s.setChord c i ch).flow = s.flow := rfl
@[simp] theorem State.setChord_sec (c i : Nat) (ch : Chord) : (s.setChord c i ch).sec = s.sec := rfl
@[simp] theorem State.setChord_host (c i : Nat) (ch : Chord) : (s.setChord c i ch).host = s.host := rfl
@[simp] theorem State.setChord_ctxRegs (c i : Nat) (ch : Chord) : (s.setChord c i ch).ctxRegs = s.ctxRegs := rfl
@[simp] theorem State.setChord_ctxs (c i : Nat) (ch : Chord) : (s.setChord c i ch).ctxs = s.ctxs := rfl
@[simp] theorem State.setChord_acts (c i : Nat) (ch : Chord) : (s.setChord c i ch).acts = s.acts := rfl
@[simp] theorem State.setChord_loader (c i : Nat) (ch : Chord) : (s.setChord c i ch).loader = s.loader := rfl
@[simp] theorem State.setChord_xlt (c i : Nat) (ch : Chord) : (s.setChord c i ch).xlt = s.xlt := rfl
@[simp] theorem State.setChord_homes (c i : Nat) (ch : Chord) : (s.setChord c i ch).homes = s.homes := rfl
@[simp] theorem State.setChord_eng (c i : Nat) (ch : Chord) : (s.setChord c i ch).eng = s.eng := rfl
@[simp] theorem State.setChord_links (c i : Nat) (ch : Chord) : (s.setChord c i ch).links = s.links := rfl
@[simp] theorem State.setChord_reqs (c i : Nat) (ch : Chord) : (s.setChord c i ch).reqs = s.reqs := rfl
@[simp] theorem State.setChord_net (c i : Nat) (ch : Chord) : (s.setChord c i ch).net = s.net := rfl
@[simp] theorem State.setChord_mgmt (c i : Nat) (ch : Chord) : (s.setChord c i ch).mgmt = s.mgmt := rfl
@[simp] theorem State.setChord_dbg (c i : Nat) (ch : Chord) : (s.setChord c i ch).dbg = s.dbg := rfl
@[simp] theorem State.setChord_pkg (c i : Nat) (ch : Chord) : (s.setChord c i ch).pkg = s.pkg := rfl
@[simp] theorem State.setChord_ownersPart (c i : Nat) (ch : Chord) : (s.setChord c i ch).ownersPart = s.ownersPart := rfl

/-! ### delChord -/

@[simp] theorem State.delChord_flow (c i : Nat) : (s.delChord c i).flow = s.flow := rfl
@[simp] theorem State.delChord_sec (c i : Nat) : (s.delChord c i).sec = s.sec := rfl
@[simp] theorem State.delChord_host (c i : Nat) : (s.delChord c i).host = s.host := rfl
@[simp] theorem State.delChord_ctxRegs (c i : Nat) : (s.delChord c i).ctxRegs = s.ctxRegs := rfl
@[simp] theorem State.delChord_ctxs (c i : Nat) : (s.delChord c i).ctxs = s.ctxs := rfl
@[simp] theorem State.delChord_acts (c i : Nat) : (s.delChord c i).acts = s.acts := rfl
@[simp] theorem State.delChord_loader (c i : Nat) : (s.delChord c i).loader = s.loader := rfl
@[simp] theorem State.delChord_xlt (c i : Nat) : (s.delChord c i).xlt = s.xlt := rfl
@[simp] theorem State.delChord_homes (c i : Nat) : (s.delChord c i).homes = s.homes := rfl
@[simp] theorem State.delChord_eng (c i : Nat) : (s.delChord c i).eng = s.eng := rfl
@[simp] theorem State.delChord_links (c i : Nat) : (s.delChord c i).links = s.links := rfl
@[simp] theorem State.delChord_reqs (c i : Nat) : (s.delChord c i).reqs = s.reqs := rfl
@[simp] theorem State.delChord_net (c i : Nat) : (s.delChord c i).net = s.net := rfl
@[simp] theorem State.delChord_mgmt (c i : Nat) : (s.delChord c i).mgmt = s.mgmt := rfl
@[simp] theorem State.delChord_dbg (c i : Nat) : (s.delChord c i).dbg = s.dbg := rfl
@[simp] theorem State.delChord_pkg (c i : Nat) : (s.delChord c i).pkg = s.pkg := rfl
@[simp] theorem State.delChord_ownersPart (c i : Nat) : (s.delChord c i).ownersPart = s.ownersPart := rfl

/-! ### setCtx -/

@[simp] theorem State.setCtx_flow (n : BitVec 12) (x : Ctx) : (s.setCtx n x).flow = s.flow := rfl
@[simp] theorem State.setCtx_sec (n : BitVec 12) (x : Ctx) : (s.setCtx n x).sec = s.sec := rfl
@[simp] theorem State.setCtx_host (n : BitVec 12) (x : Ctx) : (s.setCtx n x).host = s.host := rfl
@[simp] theorem State.setCtx_ctxRegs (n : BitVec 12) (x : Ctx) : (s.setCtx n x).ctxRegs = s.ctxRegs := rfl
@[simp] theorem State.setCtx_acts (n : BitVec 12) (x : Ctx) : (s.setCtx n x).acts = s.acts := rfl
@[simp] theorem State.setCtx_loader (n : BitVec 12) (x : Ctx) : (s.setCtx n x).loader = s.loader := rfl
@[simp] theorem State.setCtx_xlt (n : BitVec 12) (x : Ctx) : (s.setCtx n x).xlt = s.xlt := rfl
@[simp] theorem State.setCtx_cores (n : BitVec 12) (x : Ctx) : (s.setCtx n x).cores = s.cores := rfl
@[simp] theorem State.setCtx_homes (n : BitVec 12) (x : Ctx) : (s.setCtx n x).homes = s.homes := rfl
@[simp] theorem State.setCtx_eng (n : BitVec 12) (x : Ctx) : (s.setCtx n x).eng = s.eng := rfl
@[simp] theorem State.setCtx_links (n : BitVec 12) (x : Ctx) : (s.setCtx n x).links = s.links := rfl
@[simp] theorem State.setCtx_reqs (n : BitVec 12) (x : Ctx) : (s.setCtx n x).reqs = s.reqs := rfl
@[simp] theorem State.setCtx_net (n : BitVec 12) (x : Ctx) : (s.setCtx n x).net = s.net := rfl
@[simp] theorem State.setCtx_mgmt (n : BitVec 12) (x : Ctx) : (s.setCtx n x).mgmt = s.mgmt := rfl
@[simp] theorem State.setCtx_dbg (n : BitVec 12) (x : Ctx) : (s.setCtx n x).dbg = s.dbg := rfl
@[simp] theorem State.setCtx_pkg (n : BitVec 12) (x : Ctx) : (s.setCtx n x).pkg = s.pkg := rfl
@[simp] theorem State.setCtx_ownersPart (n : BitVec 12) (x : Ctx) : (s.setCtx n x).ownersPart = s.ownersPart := rfl

/-! ### modCtx -/

@[simp] theorem State.modCtx_flow (n : BitVec 12) (f : Ctx → Ctx) : (s.modCtx n f).flow = s.flow := rfl
@[simp] theorem State.modCtx_sec (n : BitVec 12) (f : Ctx → Ctx) : (s.modCtx n f).sec = s.sec := rfl
@[simp] theorem State.modCtx_host (n : BitVec 12) (f : Ctx → Ctx) : (s.modCtx n f).host = s.host := rfl
@[simp] theorem State.modCtx_ctxRegs (n : BitVec 12) (f : Ctx → Ctx) : (s.modCtx n f).ctxRegs = s.ctxRegs := rfl
@[simp] theorem State.modCtx_acts (n : BitVec 12) (f : Ctx → Ctx) : (s.modCtx n f).acts = s.acts := rfl
@[simp] theorem State.modCtx_loader (n : BitVec 12) (f : Ctx → Ctx) : (s.modCtx n f).loader = s.loader := rfl
@[simp] theorem State.modCtx_xlt (n : BitVec 12) (f : Ctx → Ctx) : (s.modCtx n f).xlt = s.xlt := rfl
@[simp] theorem State.modCtx_cores (n : BitVec 12) (f : Ctx → Ctx) : (s.modCtx n f).cores = s.cores := rfl
@[simp] theorem State.modCtx_homes (n : BitVec 12) (f : Ctx → Ctx) : (s.modCtx n f).homes = s.homes := rfl
@[simp] theorem State.modCtx_eng (n : BitVec 12) (f : Ctx → Ctx) : (s.modCtx n f).eng = s.eng := rfl
@[simp] theorem State.modCtx_links (n : BitVec 12) (f : Ctx → Ctx) : (s.modCtx n f).links = s.links := rfl
@[simp] theorem State.modCtx_reqs (n : BitVec 12) (f : Ctx → Ctx) : (s.modCtx n f).reqs = s.reqs := rfl
@[simp] theorem State.modCtx_net (n : BitVec 12) (f : Ctx → Ctx) : (s.modCtx n f).net = s.net := rfl
@[simp] theorem State.modCtx_mgmt (n : BitVec 12) (f : Ctx → Ctx) : (s.modCtx n f).mgmt = s.mgmt := rfl
@[simp] theorem State.modCtx_dbg (n : BitVec 12) (f : Ctx → Ctx) : (s.modCtx n f).dbg = s.dbg := rfl
@[simp] theorem State.modCtx_pkg (n : BitVec 12) (f : Ctx → Ctx) : (s.modCtx n f).pkg = s.pkg := rfl
@[simp] theorem State.modCtx_ownersPart (n : BitVec 12) (f : Ctx → Ctx) : (s.modCtx n f).ownersPart = s.ownersPart := rfl

/-! ### setAct -/

@[simp] theorem State.setAct_flow (k : Nat) (a : Act) : (s.setAct k a).flow = s.flow := rfl
@[simp] theorem State.setAct_sec (k : Nat) (a : Act) : (s.setAct k a).sec = s.sec := rfl
@[simp] theorem State.setAct_host (k : Nat) (a : Act) : (s.setAct k a).host = s.host := rfl
@[simp] theorem State.setAct_ctxRegs (k : Nat) (a : Act) : (s.setAct k a).ctxRegs = s.ctxRegs := rfl
@[simp] theorem State.setAct_ctxs (k : Nat) (a : Act) : (s.setAct k a).ctxs = s.ctxs := rfl
@[simp] theorem State.setAct_loader (k : Nat) (a : Act) : (s.setAct k a).loader = s.loader := rfl
@[simp] theorem State.setAct_xlt (k : Nat) (a : Act) : (s.setAct k a).xlt = s.xlt := rfl
@[simp] theorem State.setAct_cores (k : Nat) (a : Act) : (s.setAct k a).cores = s.cores := rfl
@[simp] theorem State.setAct_homes (k : Nat) (a : Act) : (s.setAct k a).homes = s.homes := rfl
@[simp] theorem State.setAct_eng (k : Nat) (a : Act) : (s.setAct k a).eng = s.eng := rfl
@[simp] theorem State.setAct_links (k : Nat) (a : Act) : (s.setAct k a).links = s.links := rfl
@[simp] theorem State.setAct_reqs (k : Nat) (a : Act) : (s.setAct k a).reqs = s.reqs := rfl
@[simp] theorem State.setAct_net (k : Nat) (a : Act) : (s.setAct k a).net = s.net := rfl
@[simp] theorem State.setAct_mgmt (k : Nat) (a : Act) : (s.setAct k a).mgmt = s.mgmt := rfl
@[simp] theorem State.setAct_dbg (k : Nat) (a : Act) : (s.setAct k a).dbg = s.dbg := rfl
@[simp] theorem State.setAct_pkg (k : Nat) (a : Act) : (s.setAct k a).pkg = s.pkg := rfl
@[simp] theorem State.setAct_ownersPart (k : Nat) (a : Act) : (s.setAct k a).ownersPart = s.ownersPart := rfl

/-! ### setSlice -/

@[simp] theorem State.setSlice_flow (n : Nat) (x : Slice) : (s.setSlice n x).flow = s.flow := rfl
@[simp] theorem State.setSlice_sec (n : Nat) (x : Slice) : (s.setSlice n x).sec = s.sec := rfl
@[simp] theorem State.setSlice_host (n : Nat) (x : Slice) : (s.setSlice n x).host = s.host := rfl
@[simp] theorem State.setSlice_ctxRegs (n : Nat) (x : Slice) : (s.setSlice n x).ctxRegs = s.ctxRegs := rfl
@[simp] theorem State.setSlice_ctxs (n : Nat) (x : Slice) : (s.setSlice n x).ctxs = s.ctxs := rfl
@[simp] theorem State.setSlice_acts (n : Nat) (x : Slice) : (s.setSlice n x).acts = s.acts := rfl
@[simp] theorem State.setSlice_loader (n : Nat) (x : Slice) : (s.setSlice n x).loader = s.loader := rfl
@[simp] theorem State.setSlice_xlt (n : Nat) (x : Slice) : (s.setSlice n x).xlt = s.xlt := rfl
@[simp] theorem State.setSlice_cores (n : Nat) (x : Slice) : (s.setSlice n x).cores = s.cores := rfl
@[simp] theorem State.setSlice_eng (n : Nat) (x : Slice) : (s.setSlice n x).eng = s.eng := rfl
@[simp] theorem State.setSlice_links (n : Nat) (x : Slice) : (s.setSlice n x).links = s.links := rfl
@[simp] theorem State.setSlice_reqs (n : Nat) (x : Slice) : (s.setSlice n x).reqs = s.reqs := rfl
@[simp] theorem State.setSlice_net (n : Nat) (x : Slice) : (s.setSlice n x).net = s.net := rfl
@[simp] theorem State.setSlice_mgmt (n : Nat) (x : Slice) : (s.setSlice n x).mgmt = s.mgmt := rfl
@[simp] theorem State.setSlice_dbg (n : Nat) (x : Slice) : (s.setSlice n x).dbg = s.dbg := rfl
@[simp] theorem State.setSlice_mem (n : Nat) (x : Slice) : (s.setSlice n x).homes.mem = s.homes.mem := rfl
@[simp] theorem State.setSlice_pkg (n : Nat) (x : Slice) : (s.setSlice n x).pkg = s.pkg := rfl
@[simp] theorem State.setSlice_ownersPart (n : Nat) (x : Slice) : (s.setSlice n x).ownersPart = s.ownersPart := rfl

/-! ### modSlice -/

@[simp] theorem State.modSlice_flow (n : Nat) (f : Slice → Slice) : (s.modSlice n f).flow = s.flow := rfl
@[simp] theorem State.modSlice_sec (n : Nat) (f : Slice → Slice) : (s.modSlice n f).sec = s.sec := rfl
@[simp] theorem State.modSlice_host (n : Nat) (f : Slice → Slice) : (s.modSlice n f).host = s.host := rfl
@[simp] theorem State.modSlice_ctxRegs (n : Nat) (f : Slice → Slice) : (s.modSlice n f).ctxRegs = s.ctxRegs := rfl
@[simp] theorem State.modSlice_ctxs (n : Nat) (f : Slice → Slice) : (s.modSlice n f).ctxs = s.ctxs := rfl
@[simp] theorem State.modSlice_acts (n : Nat) (f : Slice → Slice) : (s.modSlice n f).acts = s.acts := rfl
@[simp] theorem State.modSlice_loader (n : Nat) (f : Slice → Slice) : (s.modSlice n f).loader = s.loader := rfl
@[simp] theorem State.modSlice_xlt (n : Nat) (f : Slice → Slice) : (s.modSlice n f).xlt = s.xlt := rfl
@[simp] theorem State.modSlice_cores (n : Nat) (f : Slice → Slice) : (s.modSlice n f).cores = s.cores := rfl
@[simp] theorem State.modSlice_eng (n : Nat) (f : Slice → Slice) : (s.modSlice n f).eng = s.eng := rfl
@[simp] theorem State.modSlice_links (n : Nat) (f : Slice → Slice) : (s.modSlice n f).links = s.links := rfl
@[simp] theorem State.modSlice_reqs (n : Nat) (f : Slice → Slice) : (s.modSlice n f).reqs = s.reqs := rfl
@[simp] theorem State.modSlice_net (n : Nat) (f : Slice → Slice) : (s.modSlice n f).net = s.net := rfl
@[simp] theorem State.modSlice_mgmt (n : Nat) (f : Slice → Slice) : (s.modSlice n f).mgmt = s.mgmt := rfl
@[simp] theorem State.modSlice_dbg (n : Nat) (f : Slice → Slice) : (s.modSlice n f).dbg = s.dbg := rfl
@[simp] theorem State.modSlice_mem (n : Nat) (f : Slice → Slice) : (s.modSlice n f).homes.mem = s.homes.mem := rfl
@[simp] theorem State.modSlice_pkg (n : Nat) (f : Slice → Slice) : (s.modSlice n f).pkg = s.pkg := rfl
@[simp] theorem State.modSlice_ownersPart (n : Nat) (f : Slice → Slice) : (s.modSlice n f).ownersPart = s.ownersPart := rfl

/-! ### setLine -/

@[simp] theorem State.setLine_flow (l : Nat) (x : LineMeta) : (s.setLine l x).flow = s.flow := rfl
@[simp] theorem State.setLine_sec (l : Nat) (x : LineMeta) : (s.setLine l x).sec = s.sec := rfl
@[simp] theorem State.setLine_host (l : Nat) (x : LineMeta) : (s.setLine l x).host = s.host := rfl
@[simp] theorem State.setLine_ctxRegs (l : Nat) (x : LineMeta) : (s.setLine l x).ctxRegs = s.ctxRegs := rfl
@[simp] theorem State.setLine_ctxs (l : Nat) (x : LineMeta) : (s.setLine l x).ctxs = s.ctxs := rfl
@[simp] theorem State.setLine_acts (l : Nat) (x : LineMeta) : (s.setLine l x).acts = s.acts := rfl
@[simp] theorem State.setLine_loader (l : Nat) (x : LineMeta) : (s.setLine l x).loader = s.loader := rfl
@[simp] theorem State.setLine_xlt (l : Nat) (x : LineMeta) : (s.setLine l x).xlt = s.xlt := rfl
@[simp] theorem State.setLine_cores (l : Nat) (x : LineMeta) : (s.setLine l x).cores = s.cores := rfl
@[simp] theorem State.setLine_eng (l : Nat) (x : LineMeta) : (s.setLine l x).eng = s.eng := rfl
@[simp] theorem State.setLine_links (l : Nat) (x : LineMeta) : (s.setLine l x).links = s.links := rfl
@[simp] theorem State.setLine_reqs (l : Nat) (x : LineMeta) : (s.setLine l x).reqs = s.reqs := rfl
@[simp] theorem State.setLine_net (l : Nat) (x : LineMeta) : (s.setLine l x).net = s.net := rfl
@[simp] theorem State.setLine_mgmt (l : Nat) (x : LineMeta) : (s.setLine l x).mgmt = s.mgmt := rfl
@[simp] theorem State.setLine_dbg (l : Nat) (x : LineMeta) : (s.setLine l x).dbg = s.dbg := rfl
@[simp] theorem State.setLine_mem (l : Nat) (x : LineMeta) : (s.setLine l x).homes.mem = s.homes.mem := rfl
@[simp] theorem State.setLine_pkg (l : Nat) (x : LineMeta) : (s.setLine l x).pkg = s.pkg := rfl
@[simp] theorem State.setLine_ownersPart (l : Nat) (x : LineMeta) : (s.setLine l x).ownersPart = s.ownersPart := rfl

/-! ### setFocus -/

@[simp] theorem State.setFocus_flow (ch : Chord) : (s.setFocus ch).flow = s.flow := rfl
@[simp] theorem State.setFocus_sec (ch : Chord) : (s.setFocus ch).sec = s.sec := rfl
@[simp] theorem State.setFocus_host (ch : Chord) : (s.setFocus ch).host = s.host := rfl
@[simp] theorem State.setFocus_ctxRegs (ch : Chord) : (s.setFocus ch).ctxRegs = s.ctxRegs := rfl
@[simp] theorem State.setFocus_ctxs (ch : Chord) : (s.setFocus ch).ctxs = s.ctxs := rfl
@[simp] theorem State.setFocus_acts (ch : Chord) : (s.setFocus ch).acts = s.acts := rfl
@[simp] theorem State.setFocus_loader (ch : Chord) : (s.setFocus ch).loader = s.loader := rfl
@[simp] theorem State.setFocus_xlt (ch : Chord) : (s.setFocus ch).xlt = s.xlt := rfl
@[simp] theorem State.setFocus_homes (ch : Chord) : (s.setFocus ch).homes = s.homes := rfl
@[simp] theorem State.setFocus_eng (ch : Chord) : (s.setFocus ch).eng = s.eng := rfl
@[simp] theorem State.setFocus_links (ch : Chord) : (s.setFocus ch).links = s.links := rfl
@[simp] theorem State.setFocus_reqs (ch : Chord) : (s.setFocus ch).reqs = s.reqs := rfl
@[simp] theorem State.setFocus_net (ch : Chord) : (s.setFocus ch).net = s.net := rfl
@[simp] theorem State.setFocus_mgmt (ch : Chord) : (s.setFocus ch).mgmt = s.mgmt := rfl
@[simp] theorem State.setFocus_dbg (ch : Chord) : (s.setFocus ch).dbg = s.dbg := rfl
@[simp] theorem State.setFocus_pkg (ch : Chord) : (s.setFocus ch).pkg = s.pkg := rfl
@[simp] theorem State.setFocus_ownersPart (ch : Chord) : (s.setFocus ch).ownersPart = s.ownersPart := rfl

/-! ### setFocusAt -/

@[simp] theorem State.setFocusAt_sec (c i : Nat) : (s.setFocusAt c i).sec = s.sec := rfl
@[simp] theorem State.setFocusAt_host (c i : Nat) : (s.setFocusAt c i).host = s.host := rfl
@[simp] theorem State.setFocusAt_ctxRegs (c i : Nat) : (s.setFocusAt c i).ctxRegs = s.ctxRegs := rfl
@[simp] theorem State.setFocusAt_ctxs (c i : Nat) : (s.setFocusAt c i).ctxs = s.ctxs := rfl
@[simp] theorem State.setFocusAt_acts (c i : Nat) : (s.setFocusAt c i).acts = s.acts := rfl
@[simp] theorem State.setFocusAt_loader (c i : Nat) : (s.setFocusAt c i).loader = s.loader := rfl
@[simp] theorem State.setFocusAt_xlt (c i : Nat) : (s.setFocusAt c i).xlt = s.xlt := rfl
@[simp] theorem State.setFocusAt_cores (c i : Nat) : (s.setFocusAt c i).cores = s.cores := rfl
@[simp] theorem State.setFocusAt_homes (c i : Nat) : (s.setFocusAt c i).homes = s.homes := rfl
@[simp] theorem State.setFocusAt_eng (c i : Nat) : (s.setFocusAt c i).eng = s.eng := rfl
@[simp] theorem State.setFocusAt_links (c i : Nat) : (s.setFocusAt c i).links = s.links := rfl
@[simp] theorem State.setFocusAt_reqs (c i : Nat) : (s.setFocusAt c i).reqs = s.reqs := rfl
@[simp] theorem State.setFocusAt_net (c i : Nat) : (s.setFocusAt c i).net = s.net := rfl
@[simp] theorem State.setFocusAt_mgmt (c i : Nat) : (s.setFocusAt c i).mgmt = s.mgmt := rfl
@[simp] theorem State.setFocusAt_dbg (c i : Nat) : (s.setFocusAt c i).dbg = s.dbg := rfl
@[simp] theorem State.setFocusAt_pkg (c i : Nat) : (s.setFocusAt c i).pkg = s.pkg := rfl
@[simp] theorem State.setFocusAt_ownersPart (c i : Nat) : (s.setFocusAt c i).ownersPart = s.ownersPart := rfl

/-! ### popMove -/

@[simp] theorem State.popMove_sec : (s.popMove).sec = s.sec := rfl
@[simp] theorem State.popMove_host : (s.popMove).host = s.host := rfl
@[simp] theorem State.popMove_ctxRegs : (s.popMove).ctxRegs = s.ctxRegs := rfl
@[simp] theorem State.popMove_ctxs : (s.popMove).ctxs = s.ctxs := rfl
@[simp] theorem State.popMove_acts : (s.popMove).acts = s.acts := rfl
@[simp] theorem State.popMove_loader : (s.popMove).loader = s.loader := rfl
@[simp] theorem State.popMove_xlt : (s.popMove).xlt = s.xlt := rfl
@[simp] theorem State.popMove_cores : (s.popMove).cores = s.cores := rfl
@[simp] theorem State.popMove_homes : (s.popMove).homes = s.homes := rfl
@[simp] theorem State.popMove_eng : (s.popMove).eng = s.eng := rfl
@[simp] theorem State.popMove_links : (s.popMove).links = s.links := rfl
@[simp] theorem State.popMove_reqs : (s.popMove).reqs = s.reqs := rfl
@[simp] theorem State.popMove_net : (s.popMove).net = s.net := rfl
@[simp] theorem State.popMove_mgmt : (s.popMove).mgmt = s.mgmt := rfl
@[simp] theorem State.popMove_dbg : (s.popMove).dbg = s.dbg := rfl
@[simp] theorem State.popMove_pkg : (s.popMove).pkg = s.pkg := rfl
@[simp] theorem State.popMove_ownersPart : (s.popMove).ownersPart = s.ownersPart := rfl

/-! ### bump -/

@[simp] theorem State.bump_sec : (s.bump).sec = s.sec := rfl
@[simp] theorem State.bump_host : (s.bump).host = s.host := rfl
@[simp] theorem State.bump_ctxRegs : (s.bump).ctxRegs = s.ctxRegs := rfl
@[simp] theorem State.bump_ctxs : (s.bump).ctxs = s.ctxs := rfl
@[simp] theorem State.bump_acts : (s.bump).acts = s.acts := rfl
@[simp] theorem State.bump_loader : (s.bump).loader = s.loader := rfl
@[simp] theorem State.bump_xlt : (s.bump).xlt = s.xlt := rfl
@[simp] theorem State.bump_cores : (s.bump).cores = s.cores := rfl
@[simp] theorem State.bump_homes : (s.bump).homes = s.homes := rfl
@[simp] theorem State.bump_eng : (s.bump).eng = s.eng := rfl
@[simp] theorem State.bump_links : (s.bump).links = s.links := rfl
@[simp] theorem State.bump_reqs : (s.bump).reqs = s.reqs := rfl
@[simp] theorem State.bump_net : (s.bump).net = s.net := rfl
@[simp] theorem State.bump_mgmt : (s.bump).mgmt = s.mgmt := rfl
@[simp] theorem State.bump_dbg : (s.bump).dbg = s.dbg := rfl
@[simp] theorem State.bump_pkg : (s.bump).pkg = s.pkg := rfl
@[simp] theorem State.bump_ownersPart : (s.bump).ownersPart = s.ownersPart := rfl

/-! ### setPort -/

@[simp] theorem State.setPort_flow (q : Nat) (x : Port) : (s.setPort q x).flow = s.flow := rfl
@[simp] theorem State.setPort_sec (q : Nat) (x : Port) : (s.setPort q x).sec = s.sec := rfl
@[simp] theorem State.setPort_host (q : Nat) (x : Port) : (s.setPort q x).host = s.host := rfl
@[simp] theorem State.setPort_ctxRegs (q : Nat) (x : Port) : (s.setPort q x).ctxRegs = s.ctxRegs := rfl
@[simp] theorem State.setPort_ctxs (q : Nat) (x : Port) : (s.setPort q x).ctxs = s.ctxs := rfl
@[simp] theorem State.setPort_acts (q : Nat) (x : Port) : (s.setPort q x).acts = s.acts := rfl
@[simp] theorem State.setPort_loader (q : Nat) (x : Port) : (s.setPort q x).loader = s.loader := rfl
@[simp] theorem State.setPort_xlt (q : Nat) (x : Port) : (s.setPort q x).xlt = s.xlt := rfl
@[simp] theorem State.setPort_cores (q : Nat) (x : Port) : (s.setPort q x).cores = s.cores := rfl
@[simp] theorem State.setPort_homes (q : Nat) (x : Port) : (s.setPort q x).homes = s.homes := rfl
@[simp] theorem State.setPort_eng (q : Nat) (x : Port) : (s.setPort q x).eng = s.eng := rfl
@[simp] theorem State.setPort_reqs (q : Nat) (x : Port) : (s.setPort q x).reqs = s.reqs := rfl
@[simp] theorem State.setPort_net (q : Nat) (x : Port) : (s.setPort q x).net = s.net := rfl
@[simp] theorem State.setPort_mgmt (q : Nat) (x : Port) : (s.setPort q x).mgmt = s.mgmt := rfl
@[simp] theorem State.setPort_dbg (q : Nat) (x : Port) : (s.setPort q x).dbg = s.dbg := rfl

@[simp] theorem State.setPort_ownersPart (q : Nat) (x : Port) : (s.setPort q x).ownersPart = s.ownersPart := rfl
@[simp] theorem State.newId_ownersPart : s.newId.2.ownersPart = s.ownersPart := rfl
@[simp] theorem State.newId_cores : s.newId.2.cores = s.cores := rfl
@[simp] theorem State.newId_homes : s.newId.2.homes = s.homes := rfl

/-! ### forget -/

@[simp] theorem State.forget_flow (p : AgentRead → Bool) : (s.forget p).flow = s.flow := rfl
@[simp] theorem State.forget_sec (p : AgentRead → Bool) : (s.forget p).sec = s.sec := rfl
@[simp] theorem State.forget_host (p : AgentRead → Bool) : (s.forget p).host = s.host := rfl
@[simp] theorem State.forget_ctxRegs (p : AgentRead → Bool) : (s.forget p).ctxRegs = s.ctxRegs := rfl
@[simp] theorem State.forget_ctxs (p : AgentRead → Bool) : (s.forget p).ctxs = s.ctxs := rfl
@[simp] theorem State.forget_acts (p : AgentRead → Bool) : (s.forget p).acts = s.acts := rfl
@[simp] theorem State.forget_loader (p : AgentRead → Bool) : (s.forget p).loader = s.loader := rfl
@[simp] theorem State.forget_xlt (p : AgentRead → Bool) : (s.forget p).xlt = s.xlt := rfl
@[simp] theorem State.forget_cores (p : AgentRead → Bool) : (s.forget p).cores = s.cores := rfl
@[simp] theorem State.forget_homes (p : AgentRead → Bool) : (s.forget p).homes = s.homes := rfl
@[simp] theorem State.forget_links (p : AgentRead → Bool) : (s.forget p).links = s.links := rfl
@[simp] theorem State.forget_reqs (p : AgentRead → Bool) : (s.forget p).reqs = s.reqs := rfl
@[simp] theorem State.forget_net (p : AgentRead → Bool) : (s.forget p).net = s.net := rfl
@[simp] theorem State.forget_mgmt (p : AgentRead → Bool) : (s.forget p).mgmt = s.mgmt := rfl
@[simp] theorem State.forget_dbg (p : AgentRead → Bool) : (s.forget p).dbg = s.dbg := rfl
@[simp] theorem State.forget_pkg (p : AgentRead → Bool) : (s.forget p).pkg = s.pkg := rfl
@[simp] theorem State.forget_ownersPart (p : AgentRead → Bool) : (s.forget p).ownersPart = s.ownersPart := rfl

/-! ### forgetJob -/

@[simp] theorem State.forgetJob_flow (w : Who) : (s.forgetJob w).flow = s.flow := rfl
@[simp] theorem State.forgetJob_sec (w : Who) : (s.forgetJob w).sec = s.sec := rfl
@[simp] theorem State.forgetJob_host (w : Who) : (s.forgetJob w).host = s.host := rfl
@[simp] theorem State.forgetJob_ctxRegs (w : Who) : (s.forgetJob w).ctxRegs = s.ctxRegs := rfl
@[simp] theorem State.forgetJob_ctxs (w : Who) : (s.forgetJob w).ctxs = s.ctxs := rfl
@[simp] theorem State.forgetJob_acts (w : Who) : (s.forgetJob w).acts = s.acts := rfl
@[simp] theorem State.forgetJob_loader (w : Who) : (s.forgetJob w).loader = s.loader := rfl
@[simp] theorem State.forgetJob_xlt (w : Who) : (s.forgetJob w).xlt = s.xlt := rfl
@[simp] theorem State.forgetJob_cores (w : Who) : (s.forgetJob w).cores = s.cores := rfl
@[simp] theorem State.forgetJob_homes (w : Who) : (s.forgetJob w).homes = s.homes := rfl
@[simp] theorem State.forgetJob_links (w : Who) : (s.forgetJob w).links = s.links := rfl
@[simp] theorem State.forgetJob_reqs (w : Who) : (s.forgetJob w).reqs = s.reqs := rfl
@[simp] theorem State.forgetJob_net (w : Who) : (s.forgetJob w).net = s.net := rfl
@[simp] theorem State.forgetJob_mgmt (w : Who) : (s.forgetJob w).mgmt = s.mgmt := rfl
@[simp] theorem State.forgetJob_dbg (w : Who) : (s.forgetJob w).dbg = s.dbg := rfl
@[simp] theorem State.forgetJob_pkg (w : Who) : (s.forgetJob w).pkg = s.pkg := rfl
@[simp] theorem State.forgetJob_ownersPart (w : Who) : (s.forgetJob w).ownersPart = s.ownersPart := rfl

/-! ### What reads find -/

theorem State.core_setCore (c d : Nat) (k : Core) : (s.setCore c k).core d = if d = c then k else s.core d := by
  simp only [State.core, State.setCore, nget_nput]; split <;> rfl
@[simp] theorem State.core_setCore_same (c : Nat) (k : Core) : (s.setCore c k).core c = k := by simp [State.core_setCore]
@[simp] theorem State.core_modCore_same (c : Nat) (f : Core → Core) : (s.modCore c f).core c = f (s.core c) := by
  simp [State.modCore]
theorem State.core_modCore_other {c d : Nat} (f : Core → Core) (h : d ≠ c) : (s.modCore c f).core d = s.core d := by
  simp [State.modCore, State.core_setCore, h]
@[simp] theorem State.chord_setChord_same (c i : Nat) (ch : Chord) : (s.setChord c i ch).chord? c i = some ch := by
  simp [State.chord?, State.setChord]

theorem State.ctx_setCtx (n m : BitVec 12) (x : Ctx) : (s.setCtx n x).ctx m = if m = n then x else s.ctx m := by
  simp only [State.ctx, State.setCtx, nget_nput, BitVec.toNat_inj]; split <;> rfl
@[simp] theorem State.ctx_setCtx_same (n : BitVec 12) (x : Ctx) : (s.setCtx n x).ctx n = x := by simp [State.ctx_setCtx]
@[simp] theorem State.ctx_modCtx_same (n : BitVec 12) (f : Ctx → Ctx) : (s.modCtx n f).ctx n = f (s.ctx n) := by simp [State.modCtx]
theorem State.ctx_modCtx_other {n m : BitVec 12} (f : Ctx → Ctx) (h : m ≠ n) : (s.modCtx n f).ctx m = s.ctx m := by
  simp [State.modCtx, State.ctx_setCtx, h]

@[simp] theorem State.act_setAct_same (k : Nat) (a : Act) : (s.setAct k a).act? k = some a := by simp [State.act?, State.setAct]
theorem State.act_setAct_other {k j : Nat} (a : Act) (h : j ≠ k) : (s.setAct k a).act? j = s.act? j := by
  simp [State.act?, State.setAct, nget_nput, h]

theorem State.slice_setSlice (n m : Nat) (x : Slice) : (s.setSlice n x).slice m = if m = n then x else s.slice m := by
  simp only [State.slice, State.setSlice, nget_nput]; split <;> rfl
@[simp] theorem State.slice_setSlice_same (n : Nat) (x : Slice) : (s.setSlice n x).slice n = x := by simp [State.slice_setSlice]
@[simp] theorem State.slice_modSlice_same (n : Nat) (f : Slice → Slice) : (s.modSlice n f).slice n = f (s.slice n) := by
  simp [State.modSlice]

theorem State.line_setLine (l m : Nat) (x : LineMeta) : (s.setLine l x).line m = if m = l then x else s.line m := by
  simp only [State.line, State.setLine, nget_nput]; split <;> rfl
@[simp] theorem State.line_setLine_same (l : Nat) (x : LineMeta) : (s.setLine l x).line l = x := by simp [State.line_setLine]

@[simp] theorem State.port_setPort_same (q : Nat) (x : Port) : (s.setPort q x).port q = x := by simp [State.port, State.setPort]

/-- A step over a move that is not an instruction's or an agent's lets time pass. -/
theorem step_nil (h : s.flow.agenda = []) : step s = .next (s.tick 1) := by simp only [step, h]
theorem step_tick {n : Nat} {r : List Move} (h : s.flow.agenda = .tick n :: r) : step s = .next (s.popMove.tick n) := by
  simp only [step, h]
theorem step_issue {c i : Nat} {r : List Move} (h : s.flow.agenda = .issue c i :: r) : step s = issue s.popMove c i := by
  simp only [step, h]

end Sys2Proof.Machine
end

