-- ==== Sys2Proof/Tests/Slice0.lean ====
section
/-! SUPPORT. Tests of the model: ill-formed terms that WellFormed refuses, words written out field by field from the
encoding chapter that decode to the instructions they stand for, and, for the statements that have hypotheses, states and
operands that meet them. -/

namespace Sys2Proof.Tests

open Sys2Proof Sys2Proof.Machine

set_option Elab.async false

/-! ### Fields and words -/

/-- An instruction word from its fields, in the order of R16. -/
def word (opc : BitVec 10) (u : BitVec 1) (p : BitVec 2) (m : BitVec 3) (t0 t1 : BitVec 9) (a b c : BitVec 10) : Word :=
  opc ++ u ++ p ++ m ++ t0 ++ t1 ++ a ++ b ++ c

/-- Fields that read i0, i1 and i2 and deliver to slot A of index 1. -/
def y3 : Flds := { u := false, p := .always, t0 := some ⟨1, .a⟩, t1 := none, a := .port 0, b := .port 1, c := .port 2 }
def y2 : Flds := { y3 with c := .link }
def y1 : Flds := { y2 with b := .link }
def y0 : Flds := { y1 with a := .link }
def n3 : Flds := { y3 with t0 := none }
def n2 : Flds := { y2 with t0 := none }
def n1 : Flds := { y1 with t0 := none }
def n0 : Flds := { y0 with t0 := none }

/-- The words of the fields y3 to n0, by opcode and M. -/
def wy3 (opc : BitVec 10) (m : BitVec 3) : Word := word opc 0 0 m 0x004 0x1FF 0x100 0x101 0x102
def wy2 (opc : BitVec 10) (m : BitVec 3) : Word := word opc 0 0 m 0x004 0x1FF 0x100 0x101 0x000
def wy1 (opc : BitVec 10) (m : BitVec 3) : Word := word opc 0 0 m 0x004 0x1FF 0x100 0x000 0x000
def wy0 (opc : BitVec 10) (m : BitVec 3) : Word := word opc 0 0 m 0x004 0x1FF 0x000 0x000 0x000
def wn3 (opc : BitVec 10) (m : BitVec 3) : Word := word opc 0 0 m 0x1FF 0x1FF 0x100 0x101 0x102
def wn2 (opc : BitVec 10) (m : BitVec 3) : Word := word opc 0 0 m 0x1FF 0x1FF 0x100 0x101 0x000
def wn1 (opc : BitVec 10) (m : BitVec 3) : Word := word opc 0 0 m 0x1FF 0x1FF 0x100 0x000 0x000
def wn0 (opc : BitVec 10) (m : BitVec 3) : Word := word opc 0 0 m 0x1FF 0x1FF 0x000 0x000 0x000
def wr (opc : BitVec 10) (m : BitVec 3) (t0 : BitVec 9) (a b c : BitVec 10) : Word := word opc 1 0 m t0 0x1FF a b c

/-- Whether each list of words decodes to its instruction alone. -/
def reads (l : List (List Word × Instr)) : Bool := l.all fun p => decide (decodeWords p.1 = .ok (p.2, []))

/-! ### Decoding: a word of every instruction (R25 to R28, R38 to R45) -/

theorem test_decode_integer : reads [
    ([wy2 0x000 0], .add .i32 y2), ([wy2 0x001 1], .sub .n32 y2), ([wy2 0x002 2], .adds .i64 y2), ([wy2 0x003 3], .subs .n64 y2),
    ([wy2 0x004 3], .mul .n64 y2), ([wy2 0x005 2], .mulh .i64 y2), ([wy3 0x006 0], .mad .i32 y3), ([wy2 0x007 2], .div .i64 y2),
    ([wy2 0x008 2], .rem .i64 y2), ([wy2 0x009 2], .min .i64 y2), ([wy2 0x00A 2], .max .i64 y2), ([wy1 0x00B 2], .abs .i64 y1),
    ([wy1 0x00C 2], .neg .i64 y1), ([wy2 0x010 3], .and .n64 y2), ([wy2 0x011 3], .andn .n64 y2), ([wy2 0x012 3], .or .n64 y2),
    ([wy2 0x013 3], .xor .n64 y2), ([wy1 0x014 3], .not .n64 y1), ([wy2 0x018 3], .shl .n64 y2), ([wy2 0x019 3], .shr .n64 y2),
    ([wy2 0x01A 3], .sar .n64 y2), ([wy2 0x01B 3], .rot .n64 y2), ([wy1 0x020 3], .popc .n64 y1), ([wy1 0x021 3], .clz .n64 y1),
    ([wy1 0x022 3], .ctz .n64 y1), ([wy1 0x023 3], .brev .n64 y1), ([wy2 0x024 3], .bfx .n64 y2), ([wy3 0x025 3], .bfi .n64 y3),
    ([wy3 0x028 3], .sel .n64 y3), ([wy1 0x029 3], .mov .n64 y1), ([wy3 0x02A 5], .idx 5 y3)] = true := by decide +kernel

theorem test_decode_compare : reads [
    ([wy2 0x030 2], .cmp .eq .i64 y2), ([wy2 0x031 2], .cmp .ne .i64 y2), ([wy2 0x032 2], .cmp .lt .i64 y2),
    ([wy2 0x033 2], .cmp .le .i64 y2), ([wy2 0x034 2], .cmp .gt .i64 y2), ([wy2 0x035 2], .cmp .ge .i64 y2),
    ([(0x03C#10 ++ 1#1 ++ 0#2 ++ 1#3 ++ 0x004#9 ++ 0#7 ++ 0x80000001#32 : Word)], .imm true { u := true, t0 := some ⟨1, .a⟩, imm := 0x80000001 }),
    ([(0x03D#10 ++ 0#1 ++ 0#2 ++ 0#3 ++ 0x1FF#9 ++ 0#7 ++ 0x00000007#32 : Word)], .immh { u := false, t0 := none, imm := 7 })] = true := by decide +kernel

theorem test_decode_float : reads [
    ([wy2 0x080 4], .fadd .f32 .rne y2), ([wy2 0x081 1], .fsub .f64 .rz y2), ([wy2 0x082 6], .fmul .f32 .ru y2),
    ([wy3 0x083 3], .ffma .f64 .rd y3), ([wy2 0x084 4], .fmin .f32 y2), ([wy2 0x085 0], .fmax .f64 y2), ([wy1 0x086 4], .fabs .f32 y1),
    ([wy1 0x087 0], .fneg .f64 y1), ([wy2 0x088 4], .fdiv .f32 .rne y2), ([wy1 0x089 0], .fsqrt .f64 .rne y1), ([wy1 0x08A 4], .frcp .f32 y1),
    ([wy1 0x08B 4], .frsq .f32 y1), ([wy1 0x08C 4], .fex2 .f32 y1), ([wy1 0x08D 4], .flg2 .f32 y1), ([wy1 0x08E 4], .fsin .f32 y1),
    ([wy1 0x08F 4], .fcos .f32 y1), ([wy1 0x090 4], .ftanh .f32 y1), ([wy1 0x091 5], .frnd .f32 .rz y1), ([wy2 0x092 4], .fscl .f32 .rne y2),
    ([wy1 0x093 4], .fcls .f32 y1), ([wy2 0x098 4], .fcmp .eq .f32 y2), ([wy2 0x09B 0], .fcmp .le .f64 y2), ([wy2 0x09E 4], .fcmp .un .f32 y2),
    ([wy2 0x09F 4], .fcmp .or .f32 y2), ([wy1 0x0A6 3], .icvt false .f32 .i64 .rd y1), ([wy1 0x0A8 1], .icvt true .f64 .i32 .rz y1),
    ([wy1 0x0C1 2], .fcvt .f64 .f32 false .ru y1), ([wy1 0x0CC 4], .fcvt .f32 .e4m3 true .rne y1), ([wy1 0x0D1 0], .fcvt .f16 .f32 false .rne y1)]
    = true := by decide +kernel

/-- A token destination: block 4, port 2, own tag. -/
def dest (r : Route) (rel own : Bool) : TokenDest := { dblock := 4, dport := 2, route := r, rel, ownTag := own }
def wdest (route : BitVec 2) (rel own : BitVec 1) : Word := 0x00000004#32 ++ 2#4 ++ route ++ rel ++ own ++ 0#24

theorem test_decode_token : reads [
    ([wn3 0x100 0, wdest 1 1 0], .send (dest .core true false) n3), ([wy1 0x101 0, wdest 2 0 0], .spawn (dest .spread false false) y1),
    ([wn2 0x102 0, (0x000004#24 ++ 2#4 ++ 1#1 ++ 0#3 ++ 9#8 ++ 3#8 ++ 5#8 ++ 7#8 : Word)],
      .launch { cblock := 4, cport := 2, cen := true, ccount := 9, pcount := 3, pfirst := 5, entry := 7 } n2),
    ([wn1 0x103 0], .doneCredit n1), ([wy2 0x108 3], .shfl .xor y2), ([wy2 0x109 0], .bcst y2), ([wy1 0x10A 2], .vote .ballot y1),
    ([wy1 0x10C 0], .mtch y1), ([wy1 0x110 2], .prfx (.int .add .i64) y1), ([wy1 0x115 1], .prfx (.int .xor .n32) y1),
    ([wy1 0x116 4], .prfx (.fadd .f32 .rne) y1), ([wy1 0x11A 2], .redu (.int .max .i64) y1), ([wy1 0x11E 1], .redu (.fadd .f64 .rz) y1),
    ([wy0 0x120 0, 0x1100], .srd .bankrole y0), ([wy0 0x120 0, 0x0005], .srd .step y0),
    ([word 0x121 1 0 0 0x1FF 0x1FF 0x100 0 0, 0x1100], .swr .bankrole { n1 with u := true }),
    ([wn0 0x128 0], .nop n0), ([wn1 0x130 0], .trap n1), ([wn0 0x131 0], .brk n0), ([wn1 0x132 0], .tret n1), ([wn1 0x133 0], .kill n1)]
    = true := by decide +kernel

theorem test_decode_memory : reads [
    ([wy2 0x200 7], .ld .i32 y2), ([wy2 0x206 3], .ldAcq .pkg .w64 y2), ([wn2 0x208 0], .st .n8 n2), ([wn3 0x208 4], .st .w128 n3),
    ([wn2 0x20F 3], .stRel .sys .w64 n2), ([wn2 0x210 3, wdest 2 0 1], .ldt .w64 (dest .spread false true) n2),
    ([wy3 0x218 3, 0x000A#64], .atom .w64 { ord := .none, scope := .core, op := .cas } y3),
    ([wy2 0x218 2, 0xB00B#64], .atom .n32 { ord := .rel, scope := .sys, op := .fadd } y2),
    ([wn2 0x219 7, 0x12#64], .upd .i32 { ord := true, op := .smin } n2), ([wn0 0x221 0], .fence .die n0), ([wn1 0x224 1], .pref .l2 n1),
    ([wn1 0x225 2], .cctl .wbinv n1), ([wn2 0x226 0], .bcinv n2), ([wy1 0x228 0], .frma y1), ([wn1 0x229 0], .frmf n1),
    ([wy2 0x22C 3, 3#64], .cmpk .w64 { offw := true, offen := true } y2)] = true := by decide +kernel

/-- Uniform fields, for the instructions whose U must be 1. -/
def r0 : Flds := { n0 with u := true }

theorem test_decode_ring : reads [
    ([wr 0x280 0 0x004 0x305 0x101 0], .rbind { y2 with u := true, a := .imm 5 }), ([wr 0x281 0 0x1FF 0x31F 0 0], .runb { r0 with a := .imm 31 }),
    ([word 0x282 0 0 0 0x004 0x1FF 0x305 0x101 0], .rget { y2 with a := .imm 5 }),
    ([word 0x283 0 0 0 0x1FF 0x1FF 0x305 0x101 0x102], .rput { n3 with a := .imm 5 }),
    ([wr 0x284 1 0x1FF 0x305 0x301 0], .radv true { r0 with a := .imm 5, b := .imm 1 }),
    ([wr 0x285 0 0x1FF 0x305 0x301 0, wdest 2 0 1], .rwait false (dest .spread false true) { r0 with a := .imm 5, b := .imm 1 }),
    ([word 0x286 0 0 0 0x004 0x1FF 0x305 0 0], .rstat { y0 with a := .imm 5 }),
    ([wr 0x290 0 0x1FF 0x305 0x101 0, 0x0000000428000073#64], .strm { cblock := 4, cport := 2, cen := true, pat := 7, handle := 3 }
      { r0 with a := .imm 5, b := .port 1 }),
    ([wr 0x291 0 0x1FF 0x305 0x101 0, 0x0000000428000073#64], .strmw { cblock := 4, cport := 2, cen := true, pat := 7, handle := 3 }
      { r0 with a := .imm 5, b := .port 1 }),
    ([word 0x292 0 0 0 0x004 0x1FF 0x30F 0 0], .strmq { y0 with a := .imm 15 }), ([wr 0x293 0 0x1FF 0x30F 0 0], .strmc { r0 with a := .imm 15 }),
    ([wy2 0x2A0 0, 0x00000004280000F7#64], .cpy { cblock := 4, cport := 2, cen := true, desc := 247 } y2),
    ([wy1 0x2A1 0], .cpyq y1), ([wn1 0x2A2 0], .cpyc n1)] = true := by decide +kernel

/-- A control word: block 4, port 2, a token, constants from 9, XF32 into FP32 with A transposed. -/
def ctl : CtlWord := { cblock := 4, cport := 2, cen := true, opk := 9, mring := 0, nm1 := 0, spm := 0, tb := false, ta := true, rnd := .rne, afmt := 1, cls := 1 }
def wctl : Word := 4#24 ++ 2#4 ++ 1#1 ++ 0#6 ++ 9#8 ++ 0#5 ++ 0#5 ++ 0#3 ++ 0#1 ++ 1#1 ++ 0#2 ++ 1#2 ++ 1#2

theorem test_decode_matrix : reads [
    ([wr 0x300 3 0x1FF 0x301 0x302 0x307, wctl], .mxbind 3 ctl { r0 with a := .imm 1, b := .imm 2, c := .imm 7 }),
    ([wr 0x301 2 0x1FF 0 0 0], .mxunb 2 r0),
    ([wr 0x302 0 0x1FF 0x301 0x302 0x307, wctl], .mxfire ctl { r0 with a := .imm 1, b := .imm 2, c := .imm 7 }),
    ([wr 0x303 0 0x1FF 0x307 0 0], .mxz { r0 with a := .imm 7 }), ([wr 0x304 0 0x1FF 0x307 0x101 0], .mxld { r0 with a := .imm 7, b := .port 1 }),
    ([wr 0x305 0 0x1FF 0x307 0x101 0, (0#38 ++ 8#8 ++ 1#1 ++ 2#2 ++ 1#1 ++ 0#1 ++ 1#1 ++ 3#2 ++ 4#4 ++ 0#5 ++ 0#1 : Word)],
      .mxst { ek := 8, clr := true, act := 2, scale := true, bias := false, sat := true, round := .rd, dfmt := 4, dring := 0, dkind := false }
        { r0 with a := .imm 7, b := .port 1 }),
    ([wr 0x306 1 0x1FF 0 0 0], .mxmute 1 r0), ([wy0 0x307 3], .mxstat 3 y0), ([wr 0x308 0 0x1FF 0x100 0 0], .mxsave 0 { r0 with a := .port 0 }),
    ([wr 0x309 3 0x1FF 0x100 0 0], .mxrest 3 { r0 with a := .port 0 })] = true := by decide +kernel

theorem test_decode_sympathy : reads [
    ([wy2 0x380 0], .symk y2),
    ([wn2 0x381 0, (4#20 ++ 2#4 ++ 5#20 ++ 3#4 ++ 0#7 ++ 1#1 ++ 6#8 : Word)],
      .symc { hblock := 4, hport := 2, mblock := 5, mport := 3, src := true, sel := 6 } n2),
    ([wn2 0x382 0, (4#24 ++ 2#4 ++ 1#1 ++ 0#17 ++ 1#1 ++ 0#1 ++ 9#8 ++ 6#8 : Word)],
      .symr { cblock := 4, cport := 2, cen := true, fen := true, dsrc := false, flopk := 9, dsel := 6 } n2),
    ([wn3 0x383 0, (4#24 ++ 2#4 ++ 1#1 ++ 0#17 ++ 1#1 ++ 0#1 ++ 9#8 ++ 6#8 : Word)],
      .symp { cblock := 4, cport := 2, cen := true, isrc := true, isel := 9, osrc := false, osel := 6 } n3),
    ([wr 0x384 0 0x1FF 0 0 0], .syms r0), ([wy0 0x385 0, 0x73#64], .symq { counter := .bytes, cls := 7 } y0), ([wy0 0x386 0], .hfork y0),
    ([wn1 0x387 1, wdest 0 0 1], .hres true (dest .same false true) n1), ([wy1 0x388 0], .hqry y1), ([wn2 0x389 0], .hnote n2),
    ([wn3 0x38A 0, (4#24 ++ 2#4 ++ 1#1 ++ 0#7 ++ 0x10000#20 ++ 0#3 ++ 5#5 : Word)],
      .psel { cblock := 4, cport := 2, cen := true, npages := 0x10000, ring := 5 } n3), ([wy3 0x38B 0], .topk y3)] = true := by decide +kernel

/-- Words that no instruction has, with the reasons of R31: an unassigned opcode, a reserved M, P 11, U against the column, a slot
not read and not empty, a ring beyond 31, a missing extension word, reserved bits of one, a register without a number, and a
target of an instruction without a value. -/
theorem test_decode_refuses : ([([wy2 0x00D 0], 0x10), ([wy2 0x000 4], 0x11), ([word 0x000 0 3 0 0x004 0x1FF 0x100 0x101 0], 0x12),
    ([word 0x128 1 0 0 0x1FF 0x1FF 0 0 0], 0x13), ([wy2 0x029 3], 0x25), ([wr 0x281 0 0x1FF 0x320 0 0], 0x27), ([wn2 0x210 3], 0x28),
    ([wn2 0x210 3, wdest 2 0 1 + 1], 0x25), ([wy0 0x120 0, 7], 0x25), ([wy2 0x208 3], 0x29)].all fun p =>
      decide (decodeWords p.1 = .error p.2)) = true := by decide +kernel

/-! ### WellFormed refuses: one term for each check -/

/-- Whether each instruction is ill-formed. -/
def bad (l : List Instr) : Bool := l.all fun i => !i.WellFormed

/-- Whether each instruction is well-formed. -/
def good (l : List Instr) : Bool := l.all fun i => i.WellFormed

/-- An FCVT of a format to itself, or between narrow ones; an exact one that saturates or rounds; LD.acq.128, ST.rel.n32, LDT.128. -/
theorem test_wf_modifier : bad [.fcvt .f32 .f32 false .rne y1, .fcvt .f16 .bf16 false .rne y1, .fcvt .f16 .f32 true .rne y1,
    .fcvt .f32 .f64 false .rz y1, .ldAcq .pkg .w128 y2, .stRel .die .n32 n2, .ldt .w128 (dest .same false true) n2] = true := by decide

/-- Destination words of SPAWN, LDT, RWAIT and HRES outside what they take. -/
theorem test_wf_destination : bad [.spawn (dest .same false true) y1, .spawn (dest .pkg false false) { y3 with b := .link }, .spawn (dest .same true false) y1,
    .ldt .w64 (dest .core false true) n2, .ldt .w64 (dest .same false false) n2, .rwait true (dest .same true true) { r0 with a := .imm 5, b := .imm 1 },
    .hres true (dest .pkg false true) n1] = true := by decide

/-- Other extension words: a launch's parameters past k255, SWR of a lane's value, a scope without an order, FADD.i32, an
acquiring posted ATOM, a copy descriptor past k255, FLOPK with FEN 0. -/
theorem test_wf_extension : bad [.launch { cblock := 0, cport := 0, cen := false, ccount := 0, pcount := 200, pfirst := 57, entry := 0 } n2,
    .swr .lane { n1 with u := true }, .atom .w64 { ord := .none, scope := .die, op := .add } y2,
    .atom .i32 { ord := .none, scope := .core, op := .fadd } y2, .atom .w64 { ord := .ar, scope := .core, op := .add } n2,
    .cpy { cblock := 0, cport := 0, cen := false, desc := 248 } y2,
    .symr { cblock := 0, cport := 0, cen := false, fen := false, dsrc := false, flopk := 1, dsel := 0 } n2] = true := by decide

/-- A predicate where C is data; U where it must be 0 or 1; slots unread and not empty; a ring operand that is no immediate, or
beyond 31, an accumulator beyond 7; a target of an instruction that yields nothing. -/
theorem test_wf_slots : bad [.mad .i32 { y3 with p := .whenTrue }, .fence .sys { n0 with p := .whenFalse }, .send (dest .same false true) { n1 with u := true },
    .mxunb 0 n0, .mov .i32 y2, .add .i32 y3, .runb { r0 with a := .port 0 }, .runb { r0 with a := .imm 32 }, .mxz { r0 with a := .imm 8 },
    .st .w64 y2, .nop y0] = true := by decide

/-- And their nearest neighbours are well-formed. -/
theorem test_wf_accepts : good [.fcvt .f32 .f16 true .rz y1, .ldAcq .pkg .i32 y2, .stRel .die .w64 n2, .ldt .w64 (dest .spread false true) n2,
    .spawn (dest .core false false) { y3 with b := .link }, .launch { cblock := 0, cport := 0, cen := false, ccount := 0, pcount := 199, pfirst := 57, entry := 0 } n2,
    .atom .w64 { ord := .rel, scope := .sys, op := .add } n2, .cpy { cblock := 0, cport := 0, cen := false, desc := 247 } y2,
    .add .i32 { y3 with p := .whenTrue }, .runb { r0 with a := .imm 31 }, .mxz { r0 with a := .imm 7 }] = true := by decide

/-! ### A small machine, for the witnesses of the statements -/

/-- The one page of context 1: 64 KiB of package memory at 0x20000, cacheable, readable, writable and executable. -/
def leaf : Leaf := { ctx := 1, base := 0x10000, size := 0x10000, w0 := 0x200DF, w1 := 0 }

/-- A page of host memory, and one of package 2's. -/
def hostLeaf : Leaf := { ctx := 1, base := 0x20000, size := 0x10000, w0 := 0x5019F, w1 := 0 }
def farLeaf : Leaf := { ctx := 1, base := 0x30000, size := 0x10000, w0 := 0x6009F, w1 := 0x200 }

def lane (ports : List Word) (h : BitVec 8 := 0) : Lane := { tag := 7, hid := h, hid0 := h, frame := 0, ports }

def chord (ports : List Word) (h : BitVec 8 := 0) : Chord :=
  { ctx := 1, act := 1, dblock := 0x40, va := 0x1400, img := some (default, [0, 0]), lanes := [(0, lane ports h)] }

/-- An activation of context 1 whose image of 4 KiB stands at 0x1000, placed on core 0. -/
def image (n : Nat) : Act :=
  { ctx := 1, act := BitVec.ofNat 16 n, image := 0x1000, size := 0x1000, consts := [], pkgs := [(0, [0])], plan := [] }

def desc : Desc := { valid := true, share := 1, frameB := 1, wdog := 1, timage := 0x5000, spill := 0x10000, spillN := 4096,
                     domain := 0x1F000 }

/-- Context 1 resident with activation 1 and its trap activation, admitted to packages 0 and 2; core 0 with a FRAME, a RING and a CACHE bank. -/
def base : State :=
  { ctxs := [(1, { st := .resident, desc })]
    acts := [(65537, image 1), (131071, { image 0xFFFF with trap := true })]
    cores := [(0, { roles := 0xFFFFFFFFFFE4, utlb := [leaf, hostLeaf, farLeaf] })]
    xlt := { leaves := (List.range 16).map fun i => (i, [leaf, hostLeaf, farLeaf]) }
    homes := { mem := [(0x2F000, 5)] } }

/-- The same with a chord of one lane at the focus. -/
def world (ports : List Word) (h : BitVec 8 := 0) : State := base.setChord 0 0 (chord ports h)

/-- Fields whose operands are i0, i1 and i2. -/
def f0 : Flds := y3
def w1 : State := world [0x10000, 0, 3]
def c1 : Chord := chord [0x10000, 0, 3]
def l1 : Lane := lane [0x10000, 0, 3]

/-- O5 to O36: an instruction of any shape is ready in a chord of one lane when none of its operands is a link. -/
theorem witness_ready (sh : Shape) (f : Flds) (ha : f.a ≠ .link) (hb : f.b ≠ .link) (hc : f.c ≠ .link) :
    ∃ v, w1.ready sh f c1 [(0, l1, v)] := by
  have sel : ∀ sl x, x ≠ Sel.link → ∃ v, selVal c1 [] 0 sl 0 l1 x = some v := by
    intro sl x hx; cases x <;> first | exact ⟨_, rfl⟩ | exact absurd rfl hx
  obtain ⟨a, ha⟩ := sel .a _ ha
  obtain ⟨b, hb⟩ := sel .b _ hb
  obtain ⟨c, hc⟩ := sel .c _ hc
  have hl : ∃ v, laneVals sh f c1 [] 0 0 l1 = some v := by
    unfold laneVals; simp only [ha, hb, hc]
    cases sh.rdA <;> cases sh.rdB <;> cases sh.readsC f <;> exact ⟨_, rfl⟩
  obtain ⟨v, hv⟩ := hl
  refine ⟨v, rfl, rfl, ?_⟩
  show gather sh f c1 [] 0 [(0, l1)] = _
  simp only [gather, hv]

/-- O15 to O36: what an instruction that gives a value of its operands does in its lanes. -/
theorem witness_gives (sh : Shape) (f : Flds) (g : State → Chord → Nat → Lane → Vals → LaneRes) (ch : Chord) :
    ∀ ls s, ∃ out, Lanes sh f (gives g ch) ls s out s
  | [], s => ⟨[], rfl, rfl⟩
  | (l, x, v) :: r, s => by
    by_cases h : selects f v = true
    · obtain ⟨out, ho⟩ := witness_gives sh f g ch r s
      exact ⟨_, _, s, out, by rw [if_pos h]; exact ⟨rfl, rfl⟩, by rw [ite_self]; exact ho, rfl⟩
    · obtain ⟨out, ho⟩ := witness_gives sh f g ch r s
      exact ⟨_, _, s, out, by rw [if_neg h]; exact ⟨rfl, rfl⟩, by rw [ite_self]; exact ho, rfl⟩

/-- O15 to O36: where one selected lane does what an instruction says, its lanes do. -/
theorem witness_lane {sh : Shape} {f : Flds} {one : InLane} {l : Nat} {x : Lane} {v : Vals} {s s1 : State} {res : LaneRes}
    (hs : selects f v = true) (h : one s l x v res s1) : ∃ s', Lanes sh f one [(l, x, v)] s [(l, res)] s' :=
  ⟨_, res, s1, [], by rw [if_pos hs]; exact h, ⟨rfl, rfl⟩, rfl⟩

theorem witness_selected (v : Vals) : selects f0 v = true := rfl

/-- O15 to O36: lanes under different HIDs, and under one. -/
theorem witness_mixed : ({ c1 with lanes := [(0, lane [] 1), (31, lane [] 2)] } : Chord).mixedHids = true ∧ c1.mixedHids = false := by decide

/-! #### Tokens (O15) -/

theorem witness_sends_same : SendsTo w1 c1 l1 (dest .same false true) 7 0 0 0 := by
  refine ⟨?_, ?_, ?_⟩ <;> decide +kernel
theorem witness_sends_core : SendsTo w1 c1 l1 (dest .core false true) 7 0 0 0 := by
  refine ⟨?_, ?_, ?_, ?_, ?_⟩ <;> decide +kernel
theorem witness_sends_spread : SendsTo w1 c1 l1 (dest .spread false true) 7 0 0 0 := by
  refine ⟨?_, ?_, ?_⟩ <;> decide +kernel
theorem witness_sends_pkg : SendsTo w1 c1 l1 (dest .pkg false true) 7 0 0 0 := by
  refine ⟨?_, ?_, ?_, ?_, .inl ?_, ?_⟩ <;> decide +kernel

/-- O15, O17: a block outside the image, a core outside the placement, a package the context may not reach, and one that a lane under a
HID names beside its own. -/
theorem witness_stops : SendStops w1 c1 l1 { dest .same false true with dblock := 0xFFFFFF } 0 { cause := 0x08 } ∧
    SendStops w1 c1 l1 (dest .core false true) 256 { cause := 0x08 } ∧ SendStops w1 c1 l1 (dest .core false true) 1 { cause := 0x08 } ∧
    SendStops w1 c1 l1 (dest .pkg false true) 4096 { cause := 0x08 } ∧
    SendStops { w1 with homes := { mem := [(0x2F000, 5)] } } c1 (lane [] 1) (dest .pkg false true) 2 { cause := 0x0F } := by
  refine ⟨⟨?_, rfl⟩, ⟨.inl ?_, rfl⟩, ⟨.inr (.inl ?_), rfl⟩, .inl ⟨.inl (.inl ?_), rfl⟩, .inr ⟨?_, ⟨?_, ?_⟩, rfl⟩⟩ <;> decide +kernel

/-- LAUNCH from the lowest aligned address of window 0 and from its highest; from window 1, off 16 bytes, and under a HID. -/
theorem witness_launch : (0x1000000000000000 : Word).extractLsb' 60 4 ≠ 0 ∧ (8 : Word).extractLsb' 0 4 ≠ 0 ∧ (lane [] 1).hid ≠ 0 ∧ [(0 : Word), 0x0FFFFFFFFFFFFFF0].all (fun a => a.extractLsb' 60 4 == 0 && a.extractLsb' 0 4 == 0 && l1.hid == 0) = true := by
  decide +kernel

/-! #### Memory (O17 to O25) -/

/-- A passed access has a place for each byte, in the package, on the host, on package 2 and in a frame. -/
def placed (a : Word) (n align : Nat) (k : AccKind) (p : List Place → Bool) : Bool :=
  match w1.access c1 l1 a n align k false false with
  | .ok pl _ => pl.length == n && p pl
  | _ => false

theorem witness_access : [AccKind.read, .write, .rw, .exec].all (fun k =>
    placed 0x1FFF8 8 8 k (fun pl => pl.head? == some (.home 0x2FFF8 true 0)) &&
    (k == .exec || placed 0x20000 8 1 k (fun pl => pl.head? == some (.host 0x50000)) &&
      placed 0x3FFFF 1 1 k (fun pl => pl.head? == some (.remote 2 0x6FFFF 0 false)))) = true := by decide +kernel

/-- O25: an address on either side of each bound of R153, a misaligned one, and a store outside window 0 and an atomic under a HID. -/
theorem witness_accessOrder : windowOk 0 false 0x01FFFFFFFFFFFFF8 8 = true ∧ windowOk 0 false 0x01FFFFFFFFFFFFF9 8 = false ∧
    windowOk 0 true 0x1000000000000000 8 = false ∧ windowOk 0 false 0x1000000000000000 8 = true ∧ (0x10001 : Word).toNat % 8 ≠ 0 ∧
    (laneWho w1 c1 0 (lane [] 1) 1).hid ≠ 0 ∧ AccKind.write.writes = true ∧ (0x2000000000020000 : Word).toNat / 2 ^ 60 ≠ 0 := by decide +kernel

theorem checked_ok {c : Checked} (h : (match c with | .ok .. => true | _ => false) = true) : ∃ pl s, c = .ok pl s := by
  cases c <;> simp_all

/-- O17, O26: whatever bytes a load has, there is what it hands on. -/
theorem witness_handsOn (s : State) (ch : Chord) (x : Lane) (fin : Fin) (pl : List Place) (got : List (Option Byte)) (ea : Word) (acq : Bool) :
    ∃ res s1, HandsOn s ch x fin pl got ea acq res s1 := by
  by_cases h : (∀ b ∈ overlay x pl got, b ≠ none) ∧ acq = false
  · exact ⟨_, _, fun _ _ => ⟨rfl, rfl⟩, fun h' => h'.elim (fun ⟨b, hb, he⟩ => absurd he (h.1 b hb)) (fun ha => by simp [h.2] at ha)⟩
  · exact ⟨_, _, fun h1 h2 => absurd ⟨h1, h2⟩ h, fun _ => ⟨rfl, rfl⟩⟩

/-- O17: a load whose access passes and whose bytes are there does what Loads says. -/
theorem witness_loads {s : State} {ch : Chord} {x : Lane} {fin : Fin} {ea : Word} {pl : List Place} {s2 : State}
    (h : s.access ch x ea fin.bytes (if fin.bytes = 16 then 16 else 1) .read false false = .ok pl s2)
    (hr : (readPlaces s2.flow.focusCore ch.ctx x.hid pl s2).isSome = true) : ∃ res s1, Loads s ch x fin ea res s1 := by
  obtain ⟨⟨⟨got, b⟩, s3⟩, hg⟩ := Option.isSome_iff_exists.mp hr
  unfold Loads; rw [h]
  cases b with
  | true => exact ⟨_, _, got, true, s3, hg, fun _ => ⟨rfl, rfl⟩, fun h => by simp at h⟩
  | false =>
    obtain ⟨res, s1, hh⟩ := witness_handsOn s3 ch x fin pl got ea false
    exact ⟨res, s1, got, false, s3, hg, fun h => by simp at h, fun _ => hh⟩

/-- The bytes of an access are there, or will be asked for; its lines can be let go, and the core's writes land. -/
def served (a : Word) (n : Nat) (k : AccKind) : Bool :=
  match w1.access c1 l1 a n n k true true with
  | .ok pl s => (readPlaces 0 1 0 pl s).isSome && (s.clearOwn 0 pl).isSome && (s.settle 0).isSome && (s.flushDirty 0).isSome && (s.core 0).acks.isEmpty
  | _ => false

/-- O17 to O20, O23: package memory, the host and package 2, at the last address of a page where the access is as wide as the page allows. -/
theorem witness_served : (served 0x1FFF0 16 .read && served 0x1FFFC 4 .rw && served 0x20000 8 .rw && served 0x3FFF8 8 .rw) = true := by decide +kernel

/-- Package 2's bytes from an address on, asked for by an agent: what it has so far, and the same with an answer to all it has asked. -/
def sought (s : State) (who : Who) (a n : Nat) : Sought := s.seek who ((List.range n).filterMap fun k => s.placeBy who (a + k))
def told (s : State) (a : ReadAns) : State := { s with eng := { s.eng with reads := s.eng.reads.map fun r => { r with ans := some a } } }

/-- Whether an agent's read of bytes of package 2 asks for them, and ends with the answer, a trap or the bytes. -/
def asks (s : State) (who : Who) (a n : Nat) : Bool :=
  match sought s who a n with
  | .later u => (match sought (told u (.trap { cause := 0x11 })) who a n with | .fails _ => true | _ => false) &&
      match sought (told u (.bytes (List.replicate n 1))) who a n with | .got _ => true | _ => false
  | _ => false

/-- O26, O31, O34: a lane's read of a descriptor, of a save area's header and of a counter that lie in package 2. -/
theorem witness_asks : (asks w1 (laneWho w1 c1 0 l1 0) 0x3FFF0 8 && asks w1 (laneWho w1 c1 0 l1 0) 0x3FF80 64) = true ∧
    (match w1.access c1 l1 0x3FFF0 8 16 .read true false with | .ok pl _ => pl.all (·.away) | _ => false) = true ∧
    (match sought w1 (laneWho w1 c1 0 l1 0) 0x10000 8 with | .got gl => gl.all fun p => !engPoison w1 p | _ => false) = true := by decide +kernel

/-- O18, O19: an operation that no host path carries, and operations that one does, natively and by the loop. -/
theorem witness_hostPath : hostAtomicFault { w1 with host := { w1.host with atomCap := 0 } } .add .w64 = some 2 ∧ hostAtomicFault w1 .rdovf .n32 = some 1 ∧
    hostAtomicFault { w1 with host := { w1.host with atomCap := 0x3F } } .add .w64 = none ∧
    hostPath { w1 with host := { w1.host with atomCap := 0x3F } } .add .w64 = some true ∧
    hostPath { w1 with host := { w1.host with atomCap := 0x20 } } .xor .w64 = some false := by decide +kernel

/-- O20: a line to prefetch or clean, and an address that names none; ranges inside window 0 and past its end. -/
theorem witness_hints : hintPlace w1 c1 0x1FFFF = some (0x2FFFF, true, 0) ∧ hintPlace w1 c1 0x20000 = none ∧
    (0x01FFFFFFFFFFFFFF : Word).toNat + (1 : Word).toNat ≤ 2 ^ 57 ∧ ¬((0x0200000000000000 : Word).toNat + (1 : Word).toNat ≤ 2 ^ 57) ∧
    (w1.complete 0 .sys).isSome = true ∧ (w1.core 0).acks = [] := by decide +kernel

/-- O21: handles of the first frame, of a frame without an allocation and of no frame. (The runs of free frames are O22's.) -/
theorem witness_handles : handleFrame (frameHandle 0 0) = some (0, 0) ∧ handleFrame (frameHandle 255 32767) = some (255, 32767) ∧
    handleFrame 0x1000000000000001 = none := by decide +kernel

/-- O21, O22: a core of one FRAME bank, of which one frame is in use, has a run of 64 free frames; one without a FRAME bank has none. -/
theorem witness_runs : (({ roles := 0xFFFFFFFFFFE4, allocs := [{ id := 1, ctx := 1, act := 1, first := 0, count := 1 }] } : Core).frameFree 0 = false) ∧
    ({ roles := 0xFFFFFFFFFFE4 } : Core).frames = 1024 ∧ (List.range 64).all (({ roles := 0xFFFFFFFFFFE4 } : Core).frameFree) = true ∧
    ({ roles := 0xFFFFFFFFFFFF } : Core).freeRuns 1 = [] := by decide +kernel

/-- O23: a lane whose header lies at the last 32 bytes of a page of the package, or of package 2; its claim is the chord's first, or one
that was still to be made. -/
theorem witness_compaction : ([0x1FFE0, 0x3FFE0].all fun b => c1.claimQ.isNone &&
      match cmpkLanes c1 f0 [(0, l1, { a := 5, b })] w1 with
      | some (cs, s) => (s.claimNext (c1.putChecked f0 cs) { offw := false, offen := false } .w64 f0 (cmpkGroups cs)).isSome &&
        (s.claimNext { c1 with claimQ := some (cmpkGroups cs) } { offw := false, offen := false } .w64 f0 (cmpkGroups cs)).isSome
      | none => false) = true ∧
    (match w1.access c1 l1 0x1FFE0 32 32 .rw true true with
      | .ok pl s => (pl.head? == some (.home 0x2FFE0 true 0)) && (s.newId.2.clearOwn 0 pl).isSome
      | _ => false) = true ∧
    (match w1.access c1 l1 0x3FFE0 32 32 .rw true true with
      | .ok pl _ => (match pl.head? with | some (.remote 2 _ _ _) => true | _ => false)
      | _ => false) = true := by decide +kernel

/-- O24: two lanes at the last position before BOUND, and past it. -/
theorem witness_claims : (claimLanes 0 c1 0 { offw := false, offen := false } .w64 { count := 1, bound := 2, rowbase := 0, data := 0x10000, offs := 0 }
    0x1FFE0 (.host 0) [{ lane := 0, tag := 7 }, { lane := 31, tag := 8 }] 1 w1).isSome = true := by decide +kernel

/-! #### Rings, streams and copies (O26 to O29) -/

/-- Core 0 with rings 0 to 2 planned, ring 0 bound, of depth 4 and FP32, with one slot filled, and ring 1 empty. -/
def ring0 : Ring := { actKey := 65537, num := 0, desc := { depth := 4, fmt := 1 }, first := 1, banks := 1, tail := 1 }
def kRing : Core :=
  { roles := 0xFFFFFFFFFFE4, utlb := [leaf], plans := (List.range 3).map fun n => { actKey := 65537, num := n, first := 1, banks := 1 }
    rings := [ring0, { ring0 with num := 1, tail := 0 }] }
def wRing : State := { w1 with cores := [(0, { kRing with chords := [(0, c1)] })] }

/-- O26 to O34: a chord effect at execution always has an outcome. -/
theorem witness_chordEffect (s : State) (ch : Chord) (e : Eff) (v : Word) : ∃ res s1, ChordEffect s ch e v res s1 := by
  by_cases h : ∀ p ∈ ch.lanes, p.2.hid = 0
  · generalize hb : effBreach ((s.afterChordEffs s.flow.focusCore ch (s.consts ch)).core s.flow.focusCore) ch.key (s.consts ch) e = o
    cases o with
    | none => exact ⟨_, _, rfl, fun ⟨p, hp, hn⟩ => absurd (h p hp) hn, fun _ => by rw [hb]⟩
    | some t => exact ⟨_, _, rfl, fun ⟨p, hp, hn⟩ => absurd (h p hp) hn, fun _ => by rw [hb]⟩
  · refine ⟨_, _, rfl, fun _ => rfl, fun h' => absurd h' h⟩

/-- O26, O27: each chord effect on rings is buffered somewhere, at the bound of what its rule allows. -/
theorem witness_ringEffects : ([.rbind 2 { depth := 2, fmt := 1 }, .runb 1, .radv true 0 3, .radv false 0 1, .rwait true 0 4 (dest .same false true),
    .rwait false 0 1 (dest .same false true)].all fun e => (effBreach kRing 65537 [] e).isNone) = true ∧
    ([.rbind 0 {}, .rbind 3 {}, .radv true 0 4, .radv false 0 2, .rwait true 0 5 (dest .same false true), .rwait false 0 0 (dest .same false true)].all
      fun e => (effBreach kRing 65537 [] e).isSome) = true := by decide +kernel

/-- O26: the first and the last element of a slot, and one past it; an element that is uncorrectable. -/
theorem witness_positions : posOf ring0 0 1 = .ok (0, 0) ∧ posOf ring0 1023 1 = .ok (1023, 0) ∧ posOf ring0 1024 1 = .error (protAt 0x44 0) ∧
    posOf ring0 0x10000 1 = .error (protAt 0x44 0) ∧ (kRing.boundRing 65537 0).toOption.isSome = true ∧ RingDesc.ofWord 0x102000000#64 = some { depth := 2, fmt := 1 } ∧
    RingDesc.ofWord 0x101000000#64 = none ∧ ({ kRing with bad := [ring0.slotAddr 0] } : Core).badElem ring0 0 0 = true ∧
    kRing.badElem ring0 0 0 = false := by decide +kernel

/-- O28: elements of 4 and of 64 bits in memories in canonical form. -/
theorem witness_elements : Memory.wf [] = true ∧ Memory.wf [(5, 1), (6, 255)] = true ∧ Memory.wf [(6, 1), (5, 1)] = false ∧ 4 ∈ [4, 8, 16, 32, 64] := by decide

/-- O29: a base at the top of window 0, misaligned and past it; a copy of 4 bytes by a chosen engine. -/
theorem witness_streams : (0x01FFFFFFFFFFFFFC : Word).toNat < 2 ^ 57 ∧ (0x01FFFFFFFFFFFFFC : Word).toNat % max 1 (32 / 8) = 0 ∧
    (0x01FFFFFFFFFFFFFE : Word).toNat % max 1 (32 / 8) ≠ 0 ∧ 2 ^ 57 ≤ (0x0200000000000000 : Word).toNat ∧ w1.chooseEngine 1 = some 0 ∧
    (copyOf w1 [0xFF, 0x40000000001, 0x10000000000, 0x10000000000, 0x10000000000, 1, 0, 0, 0] 1 1 0 7 0x10000 0x11000
      { cblock := 0, cport := 0, cen := false, desc := 0 }).toOption.isSome = true := by decide +kernel

/-! #### The matrix engine (O30 to O33) -/

def bind0 : Binding := { actKey := 65537, w := ctl, k0 := 1, k1 := 0, a := 0, b := 1, acc := 2, tag := 7 }

/-- Core 0 with ring 1 filled too and slot 0 bound to rings 0 and 1 and accumulator 2; slot 1 is muted; accumulator 3 is free. -/
def kMx : Core :=
  { kRing with
    rings := [{ ring0 with cons := .matrix }, { ring0 with num := 1, cons := .matrix }, { ring0 with num := 2, tail := 0, desc := { depth := 2, fmt := 1 } }]
    mxe := { slots := [(0, bind0), (1, { bind0 with acc := 4, state := .muted })], accs := [(2, { owner := some 65537, bind := some 0 })] } }

/-- O30, O31, O33: each chord effect on the matrix engine is buffered somewhere, and refused somewhere. -/
theorem witness_matrixEffects :
    ([.mxbind 3 0 1 7 ctl 1 0, .mxfire 0 1 0 { ctl with opk := 0 }].all fun e =>
      (effBreach { kMx with rings := [ring0, { ring0 with num := 1 }] } 65537 [] e).isNone) = true ∧
    ([.mxunb 0, .mxz 3, .mxld 3 0x10000, .mxmute 1, .mxsave 1 0x10000].all fun e => (effBreach kMx 65537 [] e).isNone) = true ∧
    ([.mxunb 2, .mxz 2, .mxld 2 0x10000, .mxmute 3, .mxsave 0 0x10000, .mxbind 0 0 1 7 ctl 1 0].all fun e => (effBreach kMx 65537 [] e).isSome) = true := by
  decide +kernel

/-- O31: the tile of an FP32 accumulator at the last aligned address of a page that holds it; addresses that are not aligned. -/
theorem witness_matrixMemory : (match checkAll 0 (laneWho w1 c1 0 l1 0) .read [(0x1F000, 1024 * AccFmt.bytes .fp32)] w1 with | .ok .. => true | _ => false) = true ∧
    (match checkAll 0 (laneWho w1 c1 0 l1 1) .write [(0x1E000, saveLen .fp32)] w1 with | .ok .. => true | _ => false) = true ∧
    (match w1.check 0 (laneWho w1 c1 0 l1 0) 0x1FF80 64 1 .read true false with | .ok pl s => !pl.any (engPoison s) | _ => false) = true ∧
    (0x1F040 : Word).toNat % 128 ≠ 0 ∧ hasHid c1 = false ∧ hasHid (chord [] 1) = true := by decide +kernel

/-- O32: a binding and an accumulator at the bounds of their fields. -/
theorem witness_save : (31 < 32) ∧ (7 < 8) ∧ 1 ≤ ({} : Acc).vr ∧ ({} : Acc).vr ≤ 32 ∧ ({} : Acc).kt < 2 ^ 16 ∧ bind0.k0.toNat < 2 ^ 32 ∧
    (List.replicate 1024 (2 ^ 32 - 1)).length = 1024 ∧ (List.replicate 1024 (2 ^ 32 - 1)).all (fun e => e < 2 ^ (8 * AccFmt.bytes .fp32)) = true := by decide +kernel

/-! #### Sympathy, hypotheses and selection (O34 to O37) -/

def cls0 : SymClass := { cls := 0, maxAge := 4, ways := 1, keep := 0, setl := 0, first := 0, dir := 0x18000 }

/-- Context 1 with a key class, and HIDs 1 and 2, of which 2 is a child of 1. -/
def ctxSym : Ctx :=
  { st := .resident, desc := { desc with symtab := 0x10000 }, syms := [cls0], region := 0x14000,
    hyps := [(1, { state := 1, parent := 0, depth := 1 }), (2, { state := 1, parent := 1, depth := 2 })] }
def wSym : State := { wRing with ctxs := [(1, ctxSym)] }

/-- O34: keys of a class there is and of one there is not, tile operands on a ring and in a window, a threshold and a NaN. -/
theorem witness_sympathy : keyBad wSym 1 0 = none ∧ keyBad wSym 1 0x10000000 = some (protAt 0x64 0) ∧ keyBad wSym 1 0x8000000000000000 = some (protAt 0x60 0) ∧
    (tileLoc wSym c1 false 0 0 false).toOption.isSome = true ∧ (tileLoc wSym c1 false 0 2 true).toOption.isSome = true ∧
    (tileLoc wSym c1 false 0 1 false).toOption = none ∧ (threshold 0x3F800000).isSome = true ∧ threshold 0x7FC00000 = none ∧
    (match tilesOk wSym c1 0 l1 .read [.ring { depth := 4, fmt := 1 } 0 0 32 32] with | .ok .. => true | _ => false) = true ∧
    (w1.ctx 1).desc.symtab = 0 ∧ (wSym.ctx 1).desc.symtab = 0x10000 ∧
    ((List.range 8).filterMap fun k => wSym.placeBy (laneWho wSym c1 0 l1 0) (counterVa 0x10000 .hits 0 + k)).length = 8 ∧
    ((List.range 8).filterMap fun k => wSym.placeBy (laneWho wSym c1 0 l1 0) (counterVa 0x50000 .hits 31 + k)).length < 8 := by decide +kernel

/-- O36, O37: a HID to resolve and to refute, one to note, the next free HID, and none at depth 15. -/
theorem witness_hypotheses : wSym.resOk 1 true 2 1 = true ∧ wSym.resOk 1 false 2 1 = true ∧ wSym.resOk 1 true 2 2 = false ∧ wSym.hypState 1 1 = 1 ∧
    wSym.isAncestor 1 1 2 = true ∧ (wSym.fork 1 2).map (·.1) = some 3 ∧
    ({ wSym with ctxs := [(1, { ctxSym with hyps := [(1, { state := 1, depth := 15 })] })] } : State).fork 1 1 = none := by decide +kernel

/-! #### Stepping, delivery and float corners (O1 to O15) -/

/-- O1: a chord that stands at a word of its block, with one granted earlier that is ready, or with none; an agent's step that is due, and
nothing due. -/
theorem witness_order : (let early := probeChord [0x0003027FD00C0400, 0] 0
    let s := ({ w1 with flow := { cycle := 5 } } : State).withFetchWord 64 0x0003027FD00C0400
    let i : Instr := .add .n64 { u := false, p := .always, t0 := some ⟨1, .a⟩, t1 := none, a := .port 0, b := .imm 1, c := .link }
    (s.setChord 0 1 early).popMove.mayGo exec 0 0 i = false ∧ s.popMove.mayGo exec 0 0 i = true) := by decide +kernel
theorem witness_step : (match w1.withFetchWord 64 0x0003027FD00C0400 with
      | s => s.flow.agenda == [.issue 0 0] && match s.chord? 0 0 with
        | some ch => (match ch.img with | some (_, ws) => decide (ch.pc < ws.length) && (decodeWords (ws.drop ch.pc)).toOption.isSome | none => false)
        | none => false) = true ∧ encode .epochAdvance = [] ∧ w1.flow.agenda = [] := by decide +kernel

/-- O3, O4: the instructions the decoding tests name are well-formed and have their words. -/
theorem witness_encode : ([Instr.add .i32 y2, .send (dest .core true false) n3, .imm true { u := true, t0 := none, imm := 1 }].all fun i =>
    i.isIsa && i.WellFormed && (decodeWord i.word0 i.extWord == .ok i)) = true := by decide +kernel

/-- O7: shift counts, fields and bit positions at their bounds. -/
theorem witness_bits : 31 < intBits .i32 ∧ 63 < intBits .n64 ∧ (clzVal .i32 1).toNat < intBits .i32 ∧ (ctzVal .n64 0).toNat = intBits .n64 ∧
    min ((0x0140 : Word).toNat / 256 % 256) (intBits .n64 - (0x40 : Word).toNat % 256) = 0 ∧
    min ((0x013F : Word).toNat / 256 % 256) (intBits .n64 - (0x3F : Word).toNat % 256) = 1 := by decide +kernel

/-- O9, O10: a chord of two lanes of which a predicate selects one; an ADD there goes on. -/
theorem witness_delivery : selects { f0 with p := .whenTrue } { c := 1 } = true ∧ selects { f0 with p := .whenFalse } { c := 1 } = false ∧
    (match exec (.add .i64 { f0 with c := .link }) w1 with | .next t => t.focus.map (·.pc) == some 1 | _ => false) = true := by decide +kernel

/-- O13: a NaN and values that are none, of each format. -/
theorem witness_nan : (decodeFmt (fmtOfTy .f32) 0x7FC00000).isNaN = true ∧ (decodeFmt (fmtOfTy .f32) 0x7F800000).isNaN = false ∧
    (decodeFmt (fmtOfTy .f64) 0x7FF0000000000001).isNaN = true ∧ (decodeFmt (fmtOfTy .f64) 0x8000000000000000).isNaN = false := by decide +kernel

/-! #### Matching, traps and commit (O38 to O43) -/

def tok : Token := { tag := 7, dblock := 0x40, ctx := 1, act := 1, payload := 5 }

/-- The block of the assembly chapter's example. -/
def addWords : List Word := [0x2004027FD0040400, 0x4000FFFFC0000000, 0x0000000409000000]
def addHdr : Header := decHeader 0x1821 0x9F
def addImage : List Host.Cell := mputs [] 0x20000 (([0x1821, 0x9F] ++ addWords).flatMap bytesOfWord)
def addBlock : CBlock := { ctx := 1, act := 1, va := 0x1400, hdr := addHdr, words := addWords }

/-- O38: tokens for a context that is resident, away and unknown; a token 4,096 cycles in the FIFO; one spilled for core 0. -/
theorem witness_tokens :
    (let s : State := { base with net := [tok, { tok with ctx := 5 }] }
     ((s.loadDesc 1).ctx 1).desc.valid = true ∧ ((s.loadDesc 1).ctx 1).matches_ = true ∧ ((s.loadDesc 5).ctx 5).desc.valid = false ∧
     tok.dpkg = s.pkg ∧ ({ tok with dpkg := 2 } : Token).dpkg ≠ s.pkg) ∧
    (let s : State := { base with net := [tok], ctxs := [(1, { st := .saved, desc })], acts := [] }
     ((s.loadDesc 1).ctx 1).desc.valid = true ∧ ((s.loadDesc 1).ctx 1).matches_ = false ∧ (s.loadDesc 1).act? (actKey 1 1) = none) ∧
    (let s : State := { base with net := [tok], ctxs := [(1, { st := .saved, desc })], acts := [(65537, { image 1 with pkgs := [] })] }
     ((s.loadDesc 1).act? (actKey 1 1)).isSome = true ∧ (s.loadDesc 1).placement (actKey 1 1) (s.loadDesc 1).pkg = []) ∧
    (let s : State := { base with homes := { mem := [(0x20012, 1), (0x20014, 1)] }, ctxs := [(1, { st := .resident, desc, spillTail := 1 })] }
     (s.ctx 1).matches_ = true ∧ (s.core 0).fifo = [] ∧ (s.core 0).freeFrame = some 0 ∧ s.spillFor 1 0 = some 0 ∧ s.slotOk 1 0 = true ∧
     s.slotBad 1 0 = false ∧ s.spillStuck 1 = false ∧ ({ s with homes := { lines := [(0x400, { poison := true })] } } : State).slotBad 1 0 = true ∧
     ({ s with homes := { mem := mputs [] 0x20000 (List.replicate 32 0xFF) } } : State).slotOk 1 0 = false) := by decide +kernel

/-- O38: a block image that is whole, and one that is not (VERSION 0). -/
theorem witness_fill : (let s : State := { base with homes := { mem := addImage } }
    let who : Who := { core := some 0, die := 0, ctx := 1, act := 1, kind := 2 }
    (match s.checkPages who 0x10000 16 .exec with
      | .ok pl s1 => wordOfBytes (pl.map (engByte s1)) == 0x1821 && wordOfBytes ((pl.map (engByte s1)).drop 8) == 0x9F &&
        (match s1.checkPages who 0x10010 24 .exec with
          | .ok pw s2 => (pl ++ pw).all (fun p => !engPoison (s2.bump.enterPinned (pl ++ pw)) p) && wordsOfBytes 3 (pw.map (engByte s1)) == addWords
          | _ => false)
      | _ => false) = true) ∧ (validate 0x1821 0x9F addWords).toOption.isSome = true ∧ (validate 0x1820 0x9F addWords) = .error 0x01FF := by decide +kernel

/-- A ready instance in frame 0 whose one reference stands in bin 63. -/
def inst : Entry := { ctx := 1, act := 1, dblock := 0x40, tag := 7, hid := 0, frame := 0, filled := 3, state := .ready, hdr := addHdr }
def bin0 : Bin := { ctx := 1, act := 1, dblock := 0x40, refs := [{ frame := 0, readyAt := 0 }], hdr := addHdr }
def kMatch : Core := { roles := 0xFFFFFFFFFFE4, utlb := [leaf], entries := [inst], bins := [(63, bin0)], cache := [addBlock] }
def wMatch (cycle : Nat) : State := { base with cores := [(0, kMatch)], flow := { cycle } }

/-- O38: a bin's sustain timer at its last cycle and before it, and the round it wins. -/
theorem witness_round : (wMatch 64).firable 0 bin0 = true ∧ (wMatch 63).firable 0 bin0 = false ∧ bin0.fires = false ∧ ((wMatch 64).ctx 1).fires = true ∧
    (let s := (wMatch 64).refreshBins 0
     let fs := (s.core 0).bins.filter fun p => p.2.fires && !(s.lanesOf 0 p.2).isEmpty
     (wMatch 64).gated 0 = false ∧ (fs.filter fun p => s.binFits 0 p.2) = fs ∧ (s.roundBin 0 fs fs).map (·.1) = some 63 ∧
     ((List.range 16).find? fun i => (nget (s.core 0).chords i).isNone) = some 0) := by decide +kernel

/-- O39: the first token of an instance, and each row of R191 for one that is there: a port outside EXPECT, a filled port, a HID on
another branch, one on the same. -/
theorem witness_rows : (base.act? (actKey 1 1)).isSome = true ∧ base.placement (actKey 1 1) base.pkg ≠ [] ∧ base.hypState 1 0 ≠ 3 ∧
    ({ kMatch with entries := [] } : Core).cached? 1 1 ((image 1).blockVa 0x40) = some addBlock ∧ addHdr.expect.getLsbD 0 = true ∧ addHdr.expect.getLsbD 1 = true ∧
    addHdr.expect.getLsbD 2 = false ∧ (inst.filled.getLsbD 0 = true) ∧ ({ inst with filled := 1 } : Entry).filled.getLsbD 1 = false ∧
    (({ base with cores := [(0, { kMatch with roles := 0xFFFFFFFFFFFF })] } : State).newEntry 0 tok addHdr (0, 1)) = none ∧
    (let s : State := { base with ctxs := [(1, { st := .resident, desc, hyps := [(1, { state := 1, depth := 1 }), (2, { state := 1, depth := 1 })] })] }
     s.isAncestor 1 1 2 = false ∧ s.isAncestor 1 2 1 = false ∧ s.isAncestor 1 0 1 = true) := by decide +kernel

/-- O39: a core with free frames makes the entry, whichever of them it takes. -/
theorem witness_newEntry : ∃ frame s1, ({ base with cores := [(0, { kMatch with entries := [] })] } : State).newEntry 0 tok addHdr (0, 1) = some (frame, s1) := by
  have hw : ({ base with cores := [(0, { kMatch with entries := [] })] } : State).wayFree 0 tok = true := by decide +kernel
  have hf : (({ base with cores := [(0, { kMatch with entries := [] })] } : State).core 0).frames = 1024 := by decide +kernel
  have ha : (List.range 1024).all ({ kMatch with entries := [] } : Core).frameFree = true := by decide +kernel
  unfold State.newEntry
  simp only [hw, hf, State.pick]
  cases h : (List.range 1024).find? _ with
  | some i => exact ⟨_, _, rfl⟩
  | none =>
    rw [List.find?_eq_none] at h
    have := h 0 (by simp)
    rw [List.all_eq_true] at ha
    exact absurd (ha _ (List.mem_range.mpr (Nat.mod_lt _ (by omega)))) this

/-- O39: an entry of the token's identity, with and without its block; an i0 that takes one arrival, and one that takes more. -/
theorem witness_found : ([kMatch, { kMatch with cache := [] }].all fun k =>
      (k.entries.find? fun e => e.ctx == tok.ctx && e.act == tok.act && e.dblock == tok.dblock && e.tag == tok.tag) == some inst) = true ∧
    inst.hdr.accum = 0 ∧ inst.target = none ∧ ({ addHdr with accum := 1, scount := 1 } : Header).scount = 1 ∧
    ¬(({ addHdr with accum := 1, scount := 2 } : Header).accum = 0 ∨ (addHdr.dcount = true ∧ inst.target = some 1) ∨
      (addHdr.dcount = false ∧ ({ addHdr with accum := 1, scount := 2 } : Header).scount = 1)) := by decide +kernel

/-- O39: counted ports: a header that takes its count from the first token, a payload that is a count and one that is not. -/
theorem witness_counted : (decHeader 0x8000381000000811#64 0).dcount = true ∧ ¬((0 : Word).toNat ≠ 0 ∧ (0 : Word).toNat < 65536) ∧
    ((0xFFFF : Word).toNat ≠ 0 ∧ (0xFFFF : Word).toNat < 65536) ∧ ¬((0x10000 : Word).toNat < 65536) := by decide +kernel

/-- O40, O41: an instance to park, a trap graph to tell, event queues with room and full, and instances parked, marked refuted and not
parked. -/
theorem witness_traps : (base.ctx 1).desc.timage ≠ 0 ∧ (base.act? (actKey 1 0xFFFF)).isSome = true ∧ (wMatch 0).core 0 = kMatch ∧ kMatch.entry? 0 = some inst ∧
    inst.act ≠ 0xFFFF ∧ base.host.evQueue.length < 256 ∧ 256 ≤ (List.replicate 256 ({ typ := 6 } : Event)).length ∧ ([InstState.parked none true false, .parked (some { id := 1 }) false true, .ready, .firing, .waiting].all fun st =>
      (({ kMatch with entries := [{ inst with state := st }] } : Core).entry? 0).map (·.state) == some st) = true := by decide +kernel

/-- O42, O43: a chord that has run to its end, one whose watchdog is due, a HID refuted, and a doomed lane. -/
theorem witness_commit : (let ch : Chord := { c1 with pc := 2 }
    ch.todo = none ∧ ch.img = some (default, [0, 0]) ∧ [0, 0].length ≤ ch.pc ∧ ch.waits = [] ∧ ch.specs = []) ∧
    (base.ctx 1).fires = true ∧ (base.ctx 1).desc.wdog ≠ 0 ∧ (base.ctx 1).desc.wdog * 65536 ≤ 65536 - c1.granted ∧
    ({ base with ctxs := [(1, { ctxSym with hyps := [(1, { state := 3 })] })] } : State).hypState 1 1 = 3 ∧ base.hypState 1 0 ≠ 3 ∧
    leadLane w1 c1 = some 0 ∧ c1.img.isSome = true ∧ (w1.chord? 0 0).map (·.todo) = some none ∧
    ((w1.setChord 0 0 { c1 with todo := some [] }).chord? 0 0).map (·.todo) = some (some []) ∧
    ((w1.setChord 0 0 { c1 with img := none }).chord? 0 0).map (·.img) = some none := by decide +kernel

/-! #### Homes and the update unit (O44 to O48) -/

/-- The small machine with core 0 as given, and with slice 0 as given. -/
def wCore (k : Core) : State := { base with cores := [(0, k)] }
def wSlice (sl : Slice) : State := base.setSlice 0 sl

def dirty1 : L1Line := { line := 0x300, valid := 1, dirty := 1, data := 7 }

/-- O44: domain time past an epoch; a write and a flag release at the head of a core's queue, with room for the releaser and, under a
record of four others, without; its dirty lines can be written back. -/
theorem witness_writes : ({ base with links := { base.links with dtime := 16384 } } : State).epoch <
      ({ base with links := { base.links with dtime := 16384 } } : State).links.dtime.toNat / 16384 ∧
    (let s := wCore { homeQ := [.write 0x2FF80 0 1 7 1 0 false] }
     s.opInFlight (lineOf 0x2FF80) = false ∧ (s.core 0).homeQ = [.write 0x2FF80 0 1 7 1 0 false] ∧ s.queuedUpdate 0 (homeSlice (lineOf 0x2FF80)) = false ∧ s.heldOn (lineOf 0x2FF80) = false ∧
     s.heldAt (.core 0) (homeSlice (lineOf 0x2FF80)) = false ∧
     ((s.modSlice (homeSlice (lineOf 0x2FF80)) fun sl => { sl with
       heldWr := [{ line := 1, op := .write 0x80 0 1 7 1 0 false, by_ := .core 0 }] }).heldAt (.core 0) (homeSlice (lineOf 0x2FF80))) = true) ∧
    (let s := wCore { homeQ := [.flag 0 0 7 true true], l1 := [dirty1] }
     s.writeWaits 0 (.flag 0 0 7 true true) = false ∧ (s.addReleaser (lineOf 0) 0 0).1 = true) ∧
    (wCore { homeQ := [] }).writeWaits 0 (.flag 0 0 7 false false) = false ∧
    (let s0 := (wCore { l1 := [dirty1] }).setSlice 0 { recs := [(0, { pending := [(0, 1), (0, 2), (0, 3), (0, 4)] })] }
     s0.writeWaits 0 (.flag 0 0 7 true true) = false ∧ (s0.addReleaser (lineOf 0) 0 0).1 = false ∧ (s0.flushDirty 0).isSome = true) := by decide +kernel

/-- O44: flag reads waiting, drain orders made and answered, an acquisition with nothing left to wait for, fills kept and not. -/
theorem witness_acquires : (let s := wSlice { acqQ := [{ pa := 0, slot := 0, len := 8, ctx := 1, hid := 0, reply := none }] }
      (s.slice (0 : BitVec 7).toNat).acqQ.length = 1 ∧ ((s.flushLine 0 0).drainHome 0).isSome = true) ∧
    (let s := wSlice { acqs := [{ line := 0, value := [], reply := none, orders := [(0, 0), (0, 1)] }] }
     ((s.slice 0).drainOrders[1]?).map (fun p => (p.1, p.2.1 == s.pkg)) = some (0, true) ∧ (s.flushDirty 1).isSome = true) ∧
    (let s := wSlice { acqs := [{ line := 0, value := [], reply := none, answers := [((0, 0), 1)] }] }
     ((s.slice 0).drainAnswers[0]?) = some (0, 0, (0, 0), 1)) ∧
    (let a : Acq := { line := 0, value := [5], reply := some { core := 0, slot := 0, wait := 0 } }
     ((wSlice { acqs := [a] }).slice 0).acqs[0]? = some a ∧ a.orders = [] ∧ a.sent = [] ∧ a.answers = []) ∧
    (let f : Fill := { line := 0x400, slot := 0, ctx := 1, hid := 0 }
     let s := wCore { roles := 0xFFFFFFFFFFE4, fills := [f, { f with keep := false }] }
     (s.core 0).l1 = [] ∧ (s.core 0).homeQ = [] ∧ (s.core 0).fills[0]? = some f ∧ (s.core 0).fills[1]? = some { f with keep := false } ∧ s.heldBack 0 = false ∧ 0 < (s.core 0).banks 2) := by
  decide +kernel

/-- O45: a UPD and an ATOM of an earlier cycle wait for a line of slice 0; each is an operation that can end. -/
def upd0 : UEnt := { pa := 0, size := .w64, isUpd := true }
theorem witness_updates : (let s := { wSlice { window := [upd0, { upd0 with pa := 8 }] } with flow := { cycle := 1 } }
      let b := batchOf s.cycle 0 (s.slice 0).window
      homeSlice 0 = 0 ∧ b ≠ [] ∧ nget (s.slice 0).ops 0 = none ∧ (s.slice 0).heldWr = [] ∧
      ((s.logBatch (waitingOn s.cycle 0 (s.slice 0).window) b).bind fun p => clearCopies 0 (batchCores s.pkg p.2) p.1).isSome = true) ∧
    (let u : UEnt := { upd0 with isUpd := false, pkg := 2, far := true }
     u.far = true ∧ ({ upd0 with isUpd := false } : UEnt).far = false) ∧
    (let s := wSlice { ops := [(0, { batch := [{ upd0 with isUpd := false }] })] }
     (s.applyLast 0 (s.opLine 0 0) { upd0 with isUpd := false }).isSome = true) := by decide +kernel

/-- O47: memory in canonical form, and lines below, at and past its end. -/
theorem witness_home : Memory.wf base.homes.mem = true ∧ 0 * 128 < Config.memBytes ∧ (Config.memBytes / 128 - 1) * 128 < Config.memBytes ∧
    Config.memBytes ≤ (Config.memBytes / 128) * 128 := by decide +kernel

/-- O48: memories in canonical form that read the same, a byte beside the one written, and both sides of a range. -/
theorem witness_memory : Memory.wf ([] : List Host.Cell) = true ∧ Memory.wf [(5, 1)] = true ∧ (4 : Nat) ≠ 5 ∧
    (let bs : List Byte := [1, 2]; 4 < 5 ∧ 5 + bs.length ≤ 7) := by decide

/-- O49: the machine after reset, and one whose next step runs an ADD. -/
theorem witness_keeps : Memory.wf State.reset.homes.mem = true ∧ (∃ t, step State.reset = .next t) ∧
    (let s := w1.withFetchWord 64 0x0003027FD00C0400
     Memory.wf s.homes.mem = true ∧ (match step s with
       | .next _ => true
       | _ => false) = true) := ⟨by decide, ⟨_, rfl⟩, by decide +kernel⟩

/-! #### Links (O50) -/

def req (what : Nat) : RemoteReq :=
  { what, srcPkg := 2, srcCore := 0, ctx := 1, id := 1, pa := 0x2F000, len := 8, key := 0, data := 0, cmp := 0, size := .w64, op := .add, ord := false,
    sync := .none }

def port1 : Port := { out := [{ pkt := .token {}, secure := false, src := 0, t := 0, bytes := List.replicate 300 0 }], sent := 1, resends := [(0, 16)] }
def wPort (x : Port) : State := { base with links := { base.links with ports := [(1, x)] } }

/-- O50: a read, a write and an atomic of another package, one that must wait, and what may pass it and may not; a port with flits unacknowledged and one sent 16 times, one that retrains for the
second and for the third time; domain time's source, and a package that follows it. -/
theorem witness_links : ([0, 1, 2, 3, 4, 13].all fun w => (base.performRemote (req w)).isSome && State.accessesHere (req w)) = true ∧ base.heldOn 0 = false ∧ port1.sent = 1 ∧ base.opInFlight (lineOf 0x2F000) = false ∧
    ((wPort port1).port 1).state = .up ∧ ((0 : BitVec 12) - port1.sendSeq).toNat < port1.sent ∧ (∃ p ∈ port1.resends, 16 ≤ p.2) ∧
    ((wPort { port1 with state := .retraining, retrains := 1 }).port 1).retrains < 2 ∧
    2 ≤ ((wPort { port1 with state := .retraining, retrains := 2 }).port 1).retrains ∧
    base.egress 0 2 false 0 0 = none ∧
    ({ base with links := { base.links with routes := [(2, { valid := true, ports := 2 })] } } : State).egress 0 2 false 0 0 ≠ none ∧
    (let s : State := { base with links := { base.links with src := true }, sec := { base.sec with bootState := 2 }, flow := { cycle := 65536 } }
     s.links.lastSent + 65536 ≤ s.cycle) ∧
    (let s : State := { base with sec := { base.sec with bootState := 2 }, flow := { cycle := 262144 } }
     s.links.src = false ∧ s.links.timeLost = false ∧ s.links.lastFlit + 262144 ≤ s.cycle) ∧
    (base.opInFlight (lineOf (req 1).pa) = false ∧ (base.modSlice (homeSlice (lineOf 0x2F000)) fun sl =>
      { sl with ops := [(lineOf 0x2F000, { batch := [] })] }).opInFlight (lineOf 0x2F000) = true) ∧
    (let s := base.modSlice (homeSlice (lineOf 0x2F000)) fun sl => { sl with inq := [{ pa := 0x2F000, size := .w64, pkg := 2, remote := some 1 }] }
     (s.performRemote (req 1)).isNone = true ∧ (s.performRemote { req 1 with srcCore := 1 }).isSome = true ∧ State.behind { req 1 with srcCore := 1 } (req 1) = false ∧
     State.behind (req 1) (req 0) = true ∧ State.accessesHere (req 1) = true ∧ State.accessesHere { req 1 with what := 14 } = false) ∧
    base.secBreach false 0x2F000 0 = false ∧ base.secBreach true 0x2F000 0 = true ∧ base.heldAt (.far 2 0) 0 = false ∧ base.queuedFar 2 0 0 = false ∧
    (wSlice { inq := [{ pa := 0, size := .w64, pkg := 2, remote := some 1 }] }).queuedFar 2 0 0 = true ∧
    base.sameInterval = false ∧ ({ base with links := { base.links with timeTaken := some 65536 }, flow := { cycle := 65537 } } : State).sameInterval = true ∧
    ({ base with sec := { base.sec with bootState := 2 } } : State).booted = true ∧
    base.regionWorld 0 = false ∧ base.links.dtime.toNat < (1 : Word).toNat ∧ (0 : Word).toNat ≤ base.links.dtime.toNat := by decide +kernel

/-- A whole flit of a type and number with a body of zeros. -/
def flit (typ seq : Nat) : List Byte :=
  let b := bytesOfNat 2 (seq * 16 + typ * 4) ++ List.replicate 246 0
  b ++ bytesOfWord (crc64 b)

theorem hdr_low (n : Nat) (r : List Byte) : natOfBytes ((bytesOfNat 2 (4 * n) ++ r).take 2) % 4 = 0 := by
  simp only [bytesOfNat, List.cons_append, List.nil_append, List.take_succ_cons, List.take_zero, natOfBytes, BitVec.toNat_ofNat]
  omega

theorem flit_good (typ seq : Nat) : (Flit.ofBytes (flit typ seq)).good = true := by
  have hw : ∀ c : Word, wordOfBytes (bytesOfWord c) = c := by 
    intro c
    apply BitVec.eq_of_getLsbD_eq
    intro i hi
    simp [wordOfBytes, bytesOfWord, List.range, List.range.loop]
    interval_cases i <;> simp
  have hl : (bytesOfNat 2 (seq * 16 + typ * 4) ++ List.replicate 246 (0 : Byte)).length = 248 := by
    rw [List.length_append, List.length_replicate]; rfl
  unfold Flit.ofBytes flit
  simp only [List.take_left' hl, List.drop_left' hl, hw]
  rw [List.length_append, hl, beq_self_eq_true, Bool.and_true, show seq * 16 + typ * 4 = 4 * (seq * 4 + typ) by omega, List.append_assoc, hdr_low]
  rfl

/-- O50: a flit of each type, of the expected number, before it and after it, and a broken one. -/
theorem witness_flits : ([0, 1, 2, 3].all fun t => (Flit.ofBytes (flit t 5)).typ == t) = true ∧
    (Flit.ofBytes (flit 0 5)).seq = 5 ∧ 2048 ≤ ((5 : BitVec 12) - 6).toNat ∧ ((5 : BitVec 12) - 3000).toNat < 2048 ∧ 1 ≤ ((5 : BitVec 12) - 4).toNat ∧
    (Flit.ofBytes [1]).good = false := by decide +kernel

/-! #### Engines (O51) -/

def str0 : Stream :=
  { actKey := 65537, handle := 0, ctx := 1, act := 1, out := false, ring := 1, base := 0x10000, dims := List.replicate 4 { count := 1, stride := 4 },
    w := default, tag := 7 }

/-- The core of kMx with both rings of slot 0 staged, a stream into ring 1 and accumulator 2 as given. -/
def kEng (a : Acc) : Core :=
  { kMx with
    streams := [str0]
    mxe := { kMx.mxe with accs := [(2, { a with owner := some 65537, bind := some 0 })], staged := [{ cand := 0, ring := 0 }, { cand := 0, ring := 1 }] } }

def wEng : State := { base with cores := [(0, { kRing with streams := [str0] })] }

/-- O51: a stream whose next tile moves, one whose tile lies in no page, or in package 2, and one that is done. -/
theorem witness_streamTile :
    ((wEng.core 0).streams[0]? = some str0 ∧ (wEng.core 0).ring? 65537 1 = some { ring0 with num := 1, tail := 0 } ∧
      streamReady (wEng.core 0) str0 { ring0 with num := 1, tail := 0 } = true ∧ wEng.streamsRun 1 = true) ∧
    (nextTile wEng 0 str0 { ring0 with num := 1, tail := 0 }).toOption.isSome = true ∧
    (match nextTile wEng 0 { str0 with base := 0x30000 } { ring0 with num := 1, tail := 0 } with | .error (.later _) => true | _ => false) = true ∧
    (match nextTile wEng 0 { str0 with base := 0x200000 } { ring0 with num := 1, tail := 0 } with | .error (.fault _ _) => true | _ => false) = true ∧
    (match nextTile wEng 0 { str0 with base := 0x0200000000000000 } { ring0 with num := 1, tail := 0 } with | .error (.err _ _) => true | _ => false) = true ∧
    wEng.streamDone 0 { str0 with tiles := 1 } = true := by decide +kernel

def copy0 : Copy :=
  { seq := 1, core := 0, ctx := 1, act := 1, tag := 7, src := 0x10000, dst := 0x11000, sfmt := 1, dfmt := 1, round := .rne, sat := false, remote := none,
    dims := [{ count := 2, stride := 4 }], dstStr := [4], w := default }

/-- O51: a copy whose elements are written, one of package 2's bytes, and one that runs past window 0. -/
theorem witness_copy : copyTotal copy0 = 2 ∧ copyTotal { copy0 with written := 2 } ≤ 2 ∧
    (match moveElems 0 { copy0 with src := 0x30000 } 2 0 base with | (_, 0, some (.later _)) => true | _ => false) = true ∧
    (match moveElems 0 { copy0 with dst := 0x0200000000000000 } 2 0 base with | (_, 0, some (.err _ _)) => true | _ => false) = true := by decide +kernel

/-- O51: a stream and a copy all of whose writes are acknowledged, and with one that is not. -/
theorem witness_writes_out : wEng.streamOut 0 str0 = false ∧ base.copyOut 0 copy0 = false ∧
    (let s := { wEng with reqs := [{ id := 3, pkg := some 2, ctx := 1, what := .engine 32 (streamOwner 0 65537 0) }] }
     s.streamOut 0 { str0 with used := [32] } = true) := by decide +kernel

/-- O51: a candidate whose ring can be staged, a firing that is first in order, one that a check ends, and one of the MXFIRE queue. -/
theorem witness_firing : kMx.stageable 0 1 = true ∧ ({ base with cores := [(0, kEng {})] } : State).mxFirable 0 0 = true ∧
    (match (kEng {}).mxe.cand 0 with | some o => (firingBad (kEng {}) o).isNone && (firingBad { kEng {} with
      rings := [{ ring0 with desc := { depth := 4, fmt := 1, scaled := true, sring := 1 } }, { ring0 with num := 1 }],
      mxe := { (kEng {}).mxe with staged := [{ cand := 0, ring := 0 }, { cand := 0, ring := 1, info := { seq := 5 } }] } } o).isSome | none => false) = true ∧
    ((kEng {}).mxe.slots.all fun p => decide (p.1 < 4)) = true ∧ nget (kEng {}).mxe.slots 0 = some bind0 ∧
    ({ (kEng {}).mxe with last := 3, firing := [{ cand := 0 }, { cand := 4 }] } : Mxe).firing = [{ cand := 0 }, { cand := 4 }] ∧
    ({ (kEng {}).mxe with queue := [{ actKey := 65537, w := ctl, a := 0, b := 1, acc := 3, tag := 7 }] } : Mxe).cand 4 ≠ none := by decide +kernel

/-- O51: a slot whose accumulator is due to drain into a ring with room, in the order of slots; a mute that passes. -/
theorem witness_drain :
    (let k := kEng { live := true, kt := 9, elems := List.replicate 1024 0 }
     let k := { k with mxe := { k.mxe with slots := [(0, { bind0 with k0 := 0x10001, k1 := 4 })] } }
     k.drainable 0 = true ∧ k.mxe.drain = none ∧ (decEpi 4).bias = false) ∧
    (let who : Who := { die := 0, ctx := 1, act := 1, kind := 8 }
     (match engAccess base who 0x10000 128 .read with | .ok .. => true | _ => false) &&
     (match engAccess base who 0x30000 128 .read with | .later .. => true | _ => false) &&
     (match engAccess base who 0x200000 128 .read with | .fault .. => true | _ => false)) = true ∧
    ({ kMx.mxe with slots := [(1, { bind0 with muting := true })] } : Mxe).mutePassed 1 = true := by decide +kernel

/-! #### The scheduler and the loader (O52) -/

/-- Contexts 1 and 2, resident and saved with a token it waits for; context 2 has the higher priority. -/
def wTwo (one two : Ctx) : State :=
  { base with ctxs := [(1, one), (2, two)], links := { base.links with pkgValid := true }, ctxRegs := { base.ctxRegs with tabBase := 0x40000 } }
def waits2 : Ctx := { st := .saved, desc := { desc with prio := 1 }, overflow := [{ tok with ctx := 2 }] }
def busy1 : Ctx := { st := .resident, desc, idleSince := 0, trapFrom := some (0x5000, 0, 0) }

/-- O52: a context that takes a free slot; sixteen resident, of which one begins to leave for it. -/
theorem witness_residency :
    (let s := (wTwo busy1 waits2).noteWaiting
     s.nextCtx = some 2 ∧ s.idleCtx = none ∧ s.slotsTaken < 16 ∧ s.links.pkgValid = true) ∧
    (let s := { wTwo busy1 waits2 with ctxs := (2, waits2) :: (List.range 16).map fun i => (i + 16, busy1) }.noteWaiting
     s.nextCtx = some 2 ∧ s.leaving = false ∧ s.idleCtx = none ∧ 16 ≤ s.slotsTaken ∧ s.displaced 2 = some 16) := by decide +kernel

/-- O52: a context at each step of a pre-emption, a chord that has run on for 16,384 cycles, and one that is restored. -/
theorem witness_preemption : ([1, 3, 4, 5].all fun p =>
      let s := wTwo { busy1 with st := .leaving, phase := p } waits2
      (s.ctx 1).st == .leaving && (s.ctx 1).phase == p && s.chordsGone 1 && s.quiet 1 && (s.saveCtx 1).isSome) = true ∧
    (let s := { (wTwo { busy1 with st := .leaving, phase := 1 } waits2).setChord 0 0 c1 with flow := { cycle := 16384 } }
     (s.chord? 0 0).map (·.todo) = some none ∧ (s.ctx c1.ctx).phaseAt + 16384 ≤ s.cycle) ∧
    (let x : SavedCore := { core := 0, entries := [], refs := [], fixed := [], occasion := 1 }
     let s := wTwo { busy1 with restoring := true, saved := [x] } waits2
     (s.ctx 1).trapStop = none ∧ s.blockGood 1 x = false ∧
     (match (wTwo { busy1 with restoring := true } waits2).setUpTrap 1 with | .ready _ => true | _ => false) = true ∧
     (match (wTwo { busy1 with restoring := true, trapFrom := none, trapRefused := true } waits2).setUpTrap 1 with | .fails _ => true | _ => false) = true) := by decide +kernel

/-- The launch descriptor of image 0x1000 with one placement entry (core 0 of package 0) at 0x10040, and the entry. -/
def launchMem : List Host.Cell :=
  mputs (mputs [] 0x20000 (bytesOfWord 0x1000 ++ bytesOfWord 0x100010000 ++ bytesOfWord 0x10100 ++ bytesOfWord 0x10040)) 0x20050 [1]
def lreq : LReq :=
  { ctx := 1, image := 0x1000, entry := 0, payload := 0, params := [], count := 1, launcher := none, notify := none, host := some (0x10000, 0), stage := 0 }

/-- O52: a launch that has its number and whose one package is this one, with cores that meet its image. -/
theorem witness_placement :
    (let img : Image := { ctx := 1, va := 0x1000, entries := [(0x40, 0)] }
     let q := { lreq with num := some 2, placement := [(0, [0])], stage := 2 }
     let s := State.loadDesc { base with loader := { queue := [q], images := [img] } } 1
     s.loaded? 1 q.image.toNat = some img ∧ q.from_ = none ∧ q.phase = 0 ∧ q.answers = [] ∧ s.coreSecure 0 = (s.ctx 1).desc.secure ∧
     (s.ctx 1).st = .resident ∧ (s.ctx 1).restoring = false ∧ s.ownCores (s.ctx 1).desc img [0] = some [0] ∧
     (placeCores (actKey 1 2) (s.ctx 1).desc img [0] s).isSome = true) := by decide +kernel

/-- O52: a launch that reads its descriptor, one that reads its tables, one that is numbered, and one whose activation has ended. -/
theorem witness_launches :
    (let s := { base with homes := { mem := launchMem }, loader := { queue := [lreq], images := [{ ctx := 1, va := 0x1000, entries := [(0x40, 0)] }] } }
     ((s.loadDesc 1).ctx 1).desc.valid = true ∧
     (match loaderBytes (s.loadDesc 1) 1 0 0x10000 64 with
       | .ok (bs, _) => (lreq.ofDesc bs).isSome
       | _ => false) = true ∧
     (match loaderBytes (s.loadDesc 1) 1 0 0x10040 48 with
       | .ok (bs, _) => (placementOf bs 1) == some [(0, [0])]
       | _ => false) = true ∧
     (match s.loaded? 1 0x1000 with | some img => img.entries[0]? == some (0x40, 0) && (s.nextNumber 1).isSome | none => false) = true) ∧
    (let s := { base with acts := [(65537, { image 1 with ending := true })] }
     (s.act? (actKey 1 1)).map (·.ending) = some true ∧ (∀ p ∈ s.cores, p.2.committing 1 1 = false) ∧ (s.discardAct 1 1).ctxRegs.cmd ≠ some 1) := by
  decide +kernel

/-- O52, O54 to O57: the owner after the boot, and a package whose command runs. -/
theorem witness_owner : (let s := { base with sec := { base.sec with bootState := 2 }, host := { base.host with owner := 1 } }
      s.owned .host = true ∧ s.owned .bmc = false ∧ s.ctxRegs.busy = false ∧ s.xlt.busy = false) ∧
    ([CtxState.absent, .resident, .leaving, .saved, .stopped].all fun st => ((wTwo { busy1 with st } waits2).ctx 1).st == st) = true ∧
    (let s := { base with host := { base.host with owner := 1 }, ctxRegs := { base.ctxRegs with busy := true } }
     s.owned .host = true) := by decide +kernel

/-! #### Hypotheses, sympathy and selection (O53) -/

def hreq (refute : Bool) : HypReq := { ctx := 1, refute, target := 1, hid := 1, tag := 7, act := 1, core := 0, d := dest .same false true }

/-- O53: a resolution that passes its check and one that does not, and a sweep whose phase A has ended and whose lines can be written. -/
theorem witness_sweeps : (let s := { wSym with ctxs := [(1, { ctxSym with hypQ := [hreq false] })] }
      (s.ctx 1).fires = true ∧ (s.ctx 1).sweep = none ∧ s.resOk 1 false 1 1 = false ∧ s.resOk 1 false 1 0 = true ∧ s.resOk 1 true 1 0 = true) ∧
    (let s := { base with ctxs := [(1, { ctxSym with sweep := some { req := hreq false, ids := [1] } })] }
     s.phaseADone 1 [1] = true ∧ s.mergeable 1 1 = true ∧ (s.flushTagged 1 [1]).isSome = true) ∧
    (let ch := { c1 with specs := [{ line := 0x400, lane := 0, hid := 1, addr := 0, since := 0, idx := 0 }] }
     let s := base.setChord 0 0 ch
     (s.chord? 0 0).map (·.specs.length) = some 1 ∧ (s.reserve 1 1 0x400).isSome = true) := by decide +kernel

/-- A context with a sympathy class of INT8 windows, whose directory holds an entry of key 0 made at step 1 with generation 3. -/
def tile0 : TileLoc := .window 0x10000 { count := 1, stride := 1 } { count := 1, stride := 1 } 8 false
def symMem : List Host.Cell := mputs (mputs [] 0x24000 (List.replicate 12 0 ++ [8, 1, 1, 8, 1, 1])) 0x28000 [0, 0, 0, 0, 1, 0, 0, 0, 3, 0, 0, 0, 1]
def sreq (kind : SymKind) (handle : Word) : SymReq := { core := 0, ctx := 1, act := 1, lanes := [(7, 0)], handle, step := 2, kind }
def wComp (kind : SymKind) (handle : Word) : State :=
  { base with ctxs := [(1, { ctxSym with slotL := 3 })], homes := { mem := symMem }, eng := { syms := [sreq kind handle] } }
def wcmp : CompareWord := { hblock := 1, hport := 0, mblock := 2, mport := 0, src := true, sel := 0 }
def wsto : StoreWord := { cblock := 1, cport := 0, cen := true, isrc := true, isel := 0, osrc := true, osel := 0 }
def wrep : ReplayWord := { cblock := 1, cport := 0, cen := true, fen := true, dsrc := true, flopk := 0, dsel := 0 }

/-- O53: a SYMC that finds an entry which passes, and one that finds none; a SYMP; a SYMR of the entry's generation; and requests
that have ended. -/
theorem witness_comparator :
    (let q := sreq (.symc wcmp tile0) 0
     let s := wComp (.symc wcmp tile0) 0
     s.symFirst 0 = true ∧ s.countsOpen (symWho s q) .hits (keyClass q.handle) 24 = true ∧ s.symPlace q = some (cls0, 0, 0) ∧
     s.symBar q (dirVa cls0 0) 128 true = none ∧ (s.symBar q 0x3FF80 128 true).isSome = true ∧
     s.entryBar q (slotVa (s.ctx 1) 0) false = none ∧ (s.entryBar q 0x3FF00 false).isSome = true ∧
     (match readTile s 0 (symWho s q) tile0 with | .ok (_, u) => u.symPlace q == some (cls0, 0, 0) | _ => false) = true ∧
     (match (s.symSeek q (dirVa cls0 0) 128).symDir q cls0 0 with
       | some recs => symNewest recs 0 2 cls0.maxAge == some 0 && (symNewest recs 0 1 cls0.maxAge).isNone
       | none => false) = true ∧
     (match s.symEntry q (slotVa (s.ctx 1) 0) false, readTile s 0 (symWho s q) tile0 with
       | some e, .ok (x, _) => symCompare 0 x e == some none
       | _, _ => false) = true ∧
     ([(0x2400D, 2, none), (0x24040, 5, some (some 0))].all fun (p : Nat × Byte × Option (Option Nat)) =>
       let s := { s with homes := { mem := mput symMem p.1 p.2.1 } }
       match s.symEntry q (slotVa (s.ctx 1) 0) false, readTile s 0 (symWho s q) tile0 with
       | some e, .ok (x, _) => symCompare 0 x e == p.2.2
       | _, _ => false) = true) ∧
    (let q := sreq (.symr wrep tile0) 3
     let s := wComp (.symr wrep tile0) 3
     s.symFirst 0 = true ∧ s.countsOpen (symWho s q) .bytes 0 16 = true ∧ s.symPlace q = some (cls0, 0, 0) ∧
     (match s.symEntry q (slotVa (s.ctx 1) 0) true with
       | some t => (match replayTile s q (s.symEngine q) t tile0 with | .wrote .. => true | _ => false)
       | none => false) = true) ∧
    (let q := sreq (.symp wsto tile0 tile0) 0
     let s := wComp (.symp wsto tile0 tile0) 0
     s.symFirst 0 = true ∧ s.symPlace q = some (cls0, 0, 0) ∧ s.writesOut (s.symEngine q) 0 = false ∧ q.due = none ∧
     s.symBar q (slotVa (s.ctx 1) 0) 128 false = none ∧ (s.symPlaces q (slotVa (s.ctx 1) 0) 128).all (·.isSome) = true ∧
     ({ q with due := some (dirVa cls0 0, List.replicate 16 1, 0, 1) } : SymReq).due.isSome = true ∧
     ({ s with reqs := [{ id := 3, pkg := some 2, ctx := 1, what := .engine (s.symEngine q) 0 }] } : State).writesOut (s.symEngine q) 0 = true ∧
     s.entryBar q (slotVa (s.ctx 1) 0) true = none ∧
     (match readTile s 0 (symWho s q) tile0 with
       | .ok (a, _) => decide (entryLen a a ≤ 2 ^ 12) && (s.symBytes q (slotVa (s.ctx 1) 0) (entryLen a a)).isSome
       | _ => false) = true) := by decide +kernel

set_option maxRecDepth 2000 in
/-- O53: a selection of one page out of one, into ring 0. -/
theorem witness_selection :
    (let who : Who := { die := 0, ctx := 1, act := 1, kind := 6 }
     let s := { base with homes := { mem := mputs [] 0x20001 [0, 1] } }
     match engAccess s who 0x10400 512 .read with
     | .ok pl u => (scorePages who ((List.range 128).map fun i => decodeFmt .fp32 (bytesAt (pl.map (engByte u)) (4 * i) 4)) 0x10000 1 0 [] u.bump).toOption.isSome
     | _ => false) = true := by decide +kernel

/-! #### Translation, the host, security and management (O54 to O57) -/

/-- O54: an open fault of a context that is on its cores and of one that is away; ranges of every unit and of none; an invalidation
that has ended. -/
theorem witness_translation : (let s := { wTwo busy1 waits2 with xlt := { base.xlt with faults := [{ id := 1, ctx := 1, page := 0 }, { id := 2, ctx := 2, page := 0 }] } }
      (s.xlt.faults.find? fun x => x.id == 1) = some { id := 1, ctx := 1, page := 0 } ∧ s.here 1 = true ∧ s.here 2 = false ∧
      (s.ctx 2).st = .saved ∧ ((s.ctx 1).resumes.contains 1) = false ∧
      ((s.modCtx 2 fun x => { x with resumes := [2] }).ctx 2).resumes.contains 2 = true ∧
      (s.modCtx 1 fun x => { x with restoring := true }).here 1 = false ∧ s.here 5 = false ∧ (s.ctx 5).st = .absent) ∧
    (0 : BitVec 2) ≠ 3 ∧ (1 : BitVec 16) ≠ 0 ∧
    (let v : Inval := { op := 1, ctx := 1, began := 0, upTo := 0, chords := [], marked := true }
     let s := { base with xlt := { base.xlt with busy := true, inval := some v } }
     s.invalMark v = v ∧ s.invalDone v = true ∧ s.invalDone { v with marked := false, chords := [(0, 0)] } = false ∧ ((nkeys s.cores).foldl (fun (acc : Option State) c => acc.bind fun s => s.flushAll c) (some s)).isSome = true) := by decide +kernel

/-- The package after the boot, owned by its host, with ingress page 5 of context 1. -/
def wHost : State :=
  { base with
    sec := { base.sec with bootState := 2 }
    host := { base.host with owner := 1, evEn := true, ingress := [(5, { en := true, ctx := 1 })], evQueue := [{ typ := 6 }],
                             records := [{ addr := 0, words := [0], vec := 0 }],
                             cas := [{ id := 9, word := 0, off := 0, size := .w64, op := .xor, x := 1, c := 0, old := 5, started := true }] }
    reqs := [{ id := 3, pkg := none, ctx := 1, what := .ack 0 none }] }

/-- O55: a write to an ingress page that becomes a token, one to a page that is not enabled, an event and a record to write, a turn of
a compare-and-swap that finds what it expects, a request the host answers, and a handover. -/
theorem witness_host : wHost.owned .host = true ∧ (wHost.ingress 5).en = true ∧ wHost.replaying 1 = false ∧ ((wHost.loadDesc 1).ctx 1).desc.secure = false ∧
    (wHost.ingress 6).en = false ∧ (List.replicate 32 (0 : Byte)).length = 32 ∧ wHost.regionWorld 0 = false ∧
    (wHost.ingress 5).fifo = [] ∧ wHost.heldFrom .host = false ∧ wHost.host.handover = none ∧ Master.code wHost .bmc ≠ 0 ∧
    ((wHost.reqs.map fun q => match q.what with | .claim .. => false | _ => true) = [true]) ∧ wHost.spillStuck 1 = false ∧ wHost.host.bar2 - 1 + [(0 : Byte)].length ≤ wHost.host.bar2 ∧
    (wHost.reqs.map (·.what)) = [.ack 0 none] ∧
    (wHost.host.evHead - wHost.host.evTail).toNat ≠ wHost.evEntries ∧ wHost.host.evLocal = false ∧
    ((wHost.host.cas.find? fun x => x.id == 9 && x.started).map (·.old)) = some 5 ∧
    ((wHost.reqs.find? fun q => q.id == 3 && q.pkg.isNone).map (·.id)) = some 3 ∧ (∀ x ∈ wHost.host.cas, x.id ≠ 3) ∧
    (let s := { base with sec := { base.sec with bootState := 2 } }; s.host.owner = 0) ∧
    ((0x3FFFF8 : Nat) % 8 = 0 ∧ 0x3FFFF8 < 0x400000 ∧ 0x3FFFF8 ∉ [0x200000, 0x10010, 0x10008, 0x300018] ∧ 0x800000 % 8 = 0) := by decide +kernel

/-- O56: the staging window's last byte; a staged image that fails its check; a secure slot and one that is not. -/
theorem witness_security : base.sec.bootState = 0 ∧ 4194303 + [(0 : Byte)].length ≤ 4194304 ∧
    ({ base with sec := { base.sec with bootState := 1 } } : State).bootFault ≠ 0 ∧
    ({ wHost with sec := { wHost.sec with lock := true, keys := [(0, { world := true })] } } : State).keySlot 0 = { world := true } ∧
    (wHost.keySlot 1).world = false ∧ (0x80000001 : Word).getLsbD 31 = true ∧ 110 ≤ (110 : BitVec 8).toNat ∧ 105 ≤ (105 : BitVec 8).toNat := by decide +kernel

/-- O57: no context leaves; a memory address at the end of its range; logged entries that a replay meets. -/
theorem witness_management : (∀ n ∈ base.knownCtxs, (base.ctx n).st ≠ .leaving) ∧ (0 : Nat) < 2 ^ 32 ∧ 0xFFFFFFF8 % 8 = 0 ∧ (2 ^ 64 - 1 : Nat) < 2 ^ 64 ∧
    (let s := { base with homes := { mem := [(0, 1), (32, 2)] }, dbg := { base.dbg with active := [(1, 2)], recSize := 2 }, flow := { cycle := 1048576 } }
     s.dbg.active = [(1, 2)] ∧ s.replayCtx = some 1 ∧ s.checked 1 = true ∧
     ({ s with homes := {} } : State).nextLog (fun _ => true) = none ∧ (s.nextLog fun e => e.kind == 1).isSome = true ∧ (s.nextChord 0).isSome = true ∧ (s.ctx 1).since + 1048576 ≤ s.cycle) := by decide +kernel

/-! #### Programs (O58, O59) -/

/-- O58, O59: instructions of a program that answer a next state in the small machine: one that only writes registers, one that loads
while the core has no write on its way and no dirty byte, and one that takes its trap. -/
theorem witness_programs : ([Instr.add .i64 { f0 with c := .link }, .ld .w64 { f0 with c := .link }, .trap { f0 with c := .link }].all fun i =>
      !isEvent i && match exec i w1 with | .next _ => true | _ => false) = true ∧
    (w1.core w1.flow.focusCore).homeQ = [] ∧ ∀ l ∈ (w1.core w1.flow.focusCore).l1, l.dirty = 0 := by decide +kernel

end Sys2Proof.Tests
end

/-! SUPPORT. The encodings: words and bytes decode to the instruction that encodes to them, and only they do (O2, O3, O4). -/

namespace Sys2Proof

/-! ### What the encodings' own checks say (R20, R24, R31) -/

/-- The opcode map has a row for exactly the instructions that have the fields of an F0, F2 or F3 word. -/
theorem Instr.shape_isSome (i : Instr) : i.shape.isSome = i.flds.isSome := by
  cases i <;> rfl

/-- Only an extension word can break the rules that an instruction's description has for one. -/
theorem Instr.extOk_of_extWord_none {i : Instr} (h : i.extWord = none) : i.extOk = true := by
  unfold Instr.extOk
  split
  case h_10 => rfl
  all_goals simp [Instr.extWord] at h

/-! ### The opcode map builds instructions of the word's own fields (R16, R36 to R45) -/

/-- What a row of the opcode map may build: an instruction with the word's own fields, or one of the F1 form. -/
def Built.KeepsFields : Built → Prop
  | .unassigned | .badM => True
  | .f0 mk => ∀ f, (mk f).flds = some f
  | .f1 mk => ∀ f, (mk f).flds = none ∧ (mk f).isIsa = true
  | .f3 mk => ∀ x f, (mk x f).flds = some f

namespace Built

@[simp] theorem keepsFields_unassigned : unassigned.KeepsFields := trivial
@[simp] theorem keepsFields_badM : badM.KeepsFields := trivial
@[simp] theorem keepsFields_f0 {mk : Flds → Instr} : (f0 mk).KeepsFields ↔ ∀ f, (mk f).flds = some f := Iff.rfl
@[simp] theorem keepsFields_f1 {mk : ImmFlds → Instr} :
    (f1 mk).KeepsFields ↔ ∀ f, (mk f).flds = none ∧ (mk f).isIsa = true := Iff.rfl
@[simp] theorem keepsFields_f3 {mk : Word → Flds → Instr} : (f3 mk).KeepsFields ↔ ∀ x f, (mk x f).flds = some f := Iff.rfl

variable {m : BitVec 3}

@[simp] theorem keepsFields_m0 {b : Built} : (m0 m b).KeepsFields ↔ (m = 0 → b.KeepsFields) := by
  unfold m0; split <;> simp_all

@[simp] theorem keepsFields_ofFT {mk : FTy → Rnd → Flds → Instr} : (ofFT m mk).KeepsFields ↔
    ∀ f, (mk (decFTy (m.extractLsb' 2 1)) (decRnd (m.extractLsb' 0 2)) f).flds = some f := Iff.rfl

@[simp] theorem keepsFields_ofTy {mk : IntTy → Flds → Instr} :
    (ofTy m mk).KeepsFields ↔ ∀ t, decTy m = some t → ∀ f, (mk t f).flds = some f := by
  unfold ofTy; cases decTy m <;> simp

@[simp] theorem keepsFields_ofFN {mk : FTy → Flds → Instr} :
    (ofFN m mk).KeepsFields ↔ ∀ t, decFN m = some t → ∀ f, (mk t f).flds = some f := by
  unfold ofFN; cases decFN m <;> simp

@[simp] theorem keepsFields_ofFlag {mk : Bool → Built} :
    (ofFlag m mk).KeepsFields ↔ ∀ b, decFlagM m = some b → (mk b).KeepsFields := by
  unfold ofFlag; cases decFlagM m <;> simp

@[simp] theorem keepsFields_ofSlot {mk : BitVec 2 → Built} :
    (ofSlot m mk).KeepsFields ↔ ∀ s, decSlotM m = some s → (mk s).KeepsFields := by
  unfold ofSlot; cases decSlotM m <;> simp

@[simp] theorem keepsFields_ofAt {mk : AtSize → Built} :
    (ofAt m mk).KeepsFields ↔ ∀ s, decAtSize m = some s → (mk s).KeepsFields := by
  unfold ofAt; cases decAtSize m <;> simp

@[simp] theorem keepsFields_ofSt {mk : StSize → Built} :
    (ofSt m mk).KeepsFields ↔ ∀ s, decStSize m = some s → (mk s).KeepsFields := by
  unfold ofSt; cases decStSize m <;> simp

end Built

theorem buildCvt_keepsFields (n : Nat) (m : BitVec 3) : (buildCvt n m).KeepsFields := by
  unfold buildCvt
  repeat' split
  all_goals simp [Instr.flds]

theorem buildIcvt_keepsFields (n : Nat) (m : BitVec 3) : (buildIcvt n m).KeepsFields := by
  unfold buildIcvt
  split <;> simp [Instr.flds]

theorem buildLow_keepsFields (opc : Nat) (m : BitVec 3) : (buildLow opc m).KeepsFields := by
  unfold buildLow
  repeat' split
  all_goals simp [Instr.flds, Instr.isIsa]

theorem buildHigh_keepsFields (opc : Nat) (m : BitVec 3) : (buildHigh opc m).KeepsFields := by
  unfold buildHigh
  repeat' split
  all_goals simp [Instr.flds]

theorem build_keepsFields (opc : Nat) (m : BitVec 3) : (build opc m).KeepsFields := by
  unfold build
  split_ifs
  · exact buildLow_keepsFields _ _
  · exact buildIcvt_keepsFields _ _
  · trivial
  · exact buildCvt_keepsFields _ _
  · exact buildLow_keepsFields _ _
  · exact buildHigh_keepsFields _ _

/-- What a word is read as, before its own rules are checked, has the fields of the word or is of the F1 form. -/
theorem flds_of_candidate {w : Word} {x : Option Word} {i : Instr} (h : candidate w x = .ok i) :
    i.flds = some (unpackWord w) ∨ i.flds = none ∧ i.isIsa = true := by
  have hb := build_keepsFields (bits w 54 10).toNat (bits w 48 3)
  unfold candidate at h
  split at h
  · cases h
  · cases h
  · next mk he =>
      cases h
      exact .inl ((he ▸ hb) _)
  · next mk he =>
      cases h
      exact .inr ((he ▸ hb) _)
  · next mk he =>
      cases h
      exact .inl ((he ▸ hb) _ _)

theorem ownReason_eq_none {w : Word} {x : Option Word} {i : Instr} :
    ownReason w x i = none ↔ ∀ p ∈ ownBreaches w x i, p.1 = false := by
  simp [ownReason]

theorem decodeWord_ok {w : Word} {x : Option Word} {i : Instr} :
    decodeWord w x = .ok i ↔ candidate w x = .ok i ∧ ownReason w x i = none := by
  unfold decodeWord
  constructor
  · intro h
    split at h
    · cases h
    · split at h
      · cases h
      · cases h; exact ⟨‹_›, ‹_›⟩
  · rintro ⟨hc, hr⟩
    simp only [hc, hr]

/-- An instruction that breaks neither 0x25 nor 0x28 by its extension word is followed by the word it encodes (R24, R31). -/
theorem Instr.ext_of_noBreach {i : Instr} {x : Option Word}
    (h25 : x.isSome = true → i.extOk = false ∨ i.extWord.getD 0 ≠ x.getD 0 → i.extWord = none)
    (h28 : i.extWord.isSome = true → x.isSome = true) :
    i.extOk = true ∧ (i.extWord.isSome = true → i.extWord = x) := by
  cases he : i.extWord with
  | none => exact ⟨Instr.extOk_of_extWord_none he, by simp⟩
  | some e =>
    obtain ⟨y, rfl⟩ := Option.isSome_iff_exists.1 (h28 (by simp [he]))
    simpa [he, not_or] using h25

/-- What it means that a word read as F0, F2 or F3 breaks no rule of R31 by itself. -/
theorem unbroken_of_flds {w : Word} {x : Option Word} {i : Instr} {sh : Shape} (hf : i.flds = some (unpackWord w))
    (hs : i.shape = some sh) (hr : ownReason w x i = none) :
    i.mOk = true ∧ (bits w 51 2 ≠ 3 ∧ sh.pOk (unpackWord w) = true) ∧ sh.uOk (unpackWord w).u = true ∧
    (badTarget (bits w 39 9) = false ∧ badTarget (bits w 30 9) = false) ∧
    ((sh.slotsOk (unpackWord w) = true ∧
        (i.word0 ≠ w → bits w 51 2 ≠ 3 → badTarget (bits w 39 9) = false → badTarget (bits w 30 9) = true)) ∧
      (x.isSome = true → i.extOk = false ∨ i.extWord.getD 0 ≠ x.getD 0 → i.extWord = none)) ∧
    sh.staticOk (unpackWord w) = true ∧ (i.extWord.isSome = true → x.isSome = true) ∧ sh.targetsOk (unpackWord w) = true := by
  simpa [ownReason_eq_none, ownBreaches, hf, hs] using hr

/-- What it means that a word read as F1 breaks no rule of R31 by itself. -/
theorem unbroken_of_noFlds {w : Word} {x : Option Word} {i : Instr} (hf : i.flds = none) (hr : ownReason w x i = none) :
    i.mOk = true ∧ (bits w 51 2 ≠ 3 ∧ bits w 51 2 = 0) ∧ badTarget (bits w 39 9) = false ∧
    ((i.word0 ≠ w → bits w 51 2 ≠ 3 → badTarget (bits w 39 9) = true) ∧
      (x.isSome = true → i.extOk = false ∨ i.extWord.getD 0 ≠ x.getD 0 → i.extWord = none)) ∧
    (i.extWord.isSome = true → x.isSome = true) := by
  simpa [ownReason_eq_none, ownBreaches, hf] using hr

/-- Where no reason applies to a word read as F0, F2 or F3, its instruction is well-formed and the words are its own. -/
theorem wellFormed_of_flds {w : Word} {x : Option Word} {i : Instr} (hf : i.flds = some (unpackWord w))
    (hr : ownReason w x i = none) : i.WellFormed = true ∧ i.word0 = w ∧ (i.extWord.isSome = true → i.extWord = x) := by
  obtain ⟨sh, hs⟩ := Option.isSome_iff_exists.1 (i.shape_isSome.trans (congrArg Option.isSome hf))
  obtain ⟨hm, ⟨hp3, hp⟩, hu, ⟨ht0, ht1⟩, ⟨⟨hsl, hw⟩, h25⟩, hst, h28, ht⟩ := unbroken_of_flds hf hs hr
  obtain ⟨he, hx⟩ := Instr.ext_of_noBreach h25 h28
  refine ⟨by simp [Instr.WellFormed, hf, hs, hm, he, hp, hu, hsl, hst, ht], ?_, hx⟩
  by_contra hne
  exact absurd (hw hne hp3 ht0) (by simp [ht1])

/-- Where no reason applies to a word read as F1, its instruction is well-formed and the words are its own. -/
theorem wellFormed_of_noFlds {w : Word} {x : Option Word} {i : Instr} (hf : i.flds = none)
    (hr : ownReason w x i = none) : i.WellFormed = true ∧ i.word0 = w ∧ (i.extWord.isSome = true → i.extWord = x) := by
  obtain ⟨hm, ⟨hp3, -⟩, ht0, ⟨hw, h25⟩, h28⟩ := unbroken_of_noFlds hf hr
  obtain ⟨he, hx⟩ := Instr.ext_of_noBreach h25 h28
  refine ⟨by simp [Instr.WellFormed, hf, hm, he], ?_, hx⟩
  by_contra hne
  exact absurd (hw hne hp3) (by simp [ht0])

theorem Instr.isIsa_of_flds {i : Instr} {f : Flds} (hf : i.flds = some f) : i.isIsa = true := by
  unfold Instr.isIsa
  split <;> simp [hf]

/-- Settles O4: every opcode builds an instruction of the word's own fields, and the checks of R31 that let it pass are
those of well-formedness and of the words encoded again. -/
theorem encodeDecode : Obligations.EncodeDecode := by
  intro w x i h
  obtain ⟨hc, hr⟩ := decodeWord_ok.1 h
  rcases flds_of_candidate hc with hf | ⟨hf, hi⟩
  · exact ⟨Instr.isIsa_of_flds hf, wellFormed_of_flds hf hr⟩
  · exact ⟨hi, wellFormed_of_noFlds hf hr⟩

/-! ### Words and instructions as bytes (R12) -/

/-- Bit 8 k + j of a word is bit j of its byte k. -/
theorem getLsbD_wordOfBytes (l : List Byte) {i : Nat} (hi : i < 64) :
    (wordOfBytes l).getLsbD i = (l[i / 8]?.getD 0).getLsbD (i % 8) := by
  induction l generalizing i with
  | nil => simp [wordOfBytes]
  | cons b r ih =>
    have hc : wordOfBytes (b :: r) = (wordOfBytes r <<< 8) ||| b.setWidth 64 := rfl
    rw [hc]
    by_cases h8 : i < 8
    · simp [h8, hi, Nat.div_eq_of_lt h8, Nat.mod_eq_of_lt h8]
    · have hd : i / 8 = (i - 8) / 8 + 1 := by omega
      have hm : i % 8 = (i - 8) % 8 := by omega
      have ht := ih (i := i - 8) (by omega)
      simp only [BitVec.getLsbD_or, BitVec.getLsbD_shiftLeft, BitVec.getLsbD_setWidth, BitVec.getLsbD_of_ge b i (by omega),
        hd, hm, ht]
      simp [h8, hi]

@[simp] theorem length_bytesOfWord (w : Word) : (bytesOfWord w).length = 8 := by simp [bytesOfWord]

@[simp] theorem wordOfBytes_bytesOfWord (w : Word) : wordOfBytes (bytesOfWord w) = w := by
  apply BitVec.eq_of_getLsbD_eq
  intro i hi
  have h8 : i / 8 < 8 := by omega
  have hm : i % 8 < 8 := by omega
  have hs : 8 * (i / 8) + i % 8 = i := by omega
  simp [getLsbD_wordOfBytes _ hi, bytesOfWord, h8, hm, hs]

/-! ### Every instruction decodes from its own words -/

open Laws.Encode in
/-- The laws of the encodings put together: an agent's step is no instruction of Isaef. -/
theorem decodeWords_encode (i : Instr) : Laws.Encode.Statement i := by
  cases i with
  | add ty f => exact add ty f
  | sub ty f => exact sub ty f
  | adds ty f => exact adds ty f
  | subs ty f => exact subs ty f
  | mul ty f => exact mul ty f
  | mulh ty f => exact mulh ty f
  | mad ty f => exact mad ty f
  | div ty f => exact div ty f
  | rem ty f => exact rem ty f
  | min ty f => exact min ty f
  | max ty f => exact max ty f
  | abs ty f => exact abs ty f
  | neg ty f => exact neg ty f
  | and ty f => exact and ty f
  | andn ty f => exact andn ty f
  | or ty f => exact or ty f
  | xor ty f => exact xor ty f
  | not ty f => exact not ty f
  | shl ty f => exact shl ty f
  | shr ty f => exact shr ty f
  | sar ty f => exact sar ty f
  | rot ty f => exact rot ty f
  | popc ty f => exact popc ty f
  | clz ty f => exact clz ty f
  | ctz ty f => exact ctz ty f
  | brev ty f => exact brev ty f
  | bfx ty f => exact bfx ty f
  | bfi ty f => exact bfi ty f
  | sel ty f => exact sel ty f
  | mov ty f => exact mov ty f
  | idx sh f => exact idx sh f
  | cmp cond ty f => exact cmp cond ty f
  | imm zx f => exact imm zx f
  | immh f => exact immh f
  | fadd ft r f => exact fadd ft r f
  | fsub ft r f => exact fsub ft r f
  | fmul ft r f => exact fmul ft r f
  | ffma ft r f => exact ffma ft r f
  | fmin ft f => exact fmin ft f
  | fmax ft f => exact fmax ft f
  | fabs ft f => exact fabs ft f
  | fneg ft f => exact fneg ft f
  | fdiv ft r f => exact fdiv ft r f
  | fsqrt ft r f => exact fsqrt ft r f
  | frcp ft f => exact frcp ft f
  | frsq ft f => exact frsq ft f
  | fex2 ft f => exact fex2 ft f
  | flg2 ft f => exact flg2 ft f
  | fsin ft f => exact fsin ft f
  | fcos ft f => exact fcos ft f
  | ftanh ft f => exact ftanh ft f
  | frnd ft r f => exact frnd ft r f
  | fscl ft r f => exact fscl ft r f
  | fcls ft f => exact fcls ft f
  | fcmp cond ft f => exact fcmp cond ft f
  | icvt toInt ft ty r f => exact icvt toInt ft ty r f
  | fcvt src dst sat r f => exact fcvt src dst sat r f
  | send d f => exact send d f
  | spawn d f => exact spawn d f
  | launch w f => exact launch w f
  | doneCredit f => exact doneCredit f
  | shfl op f => exact shfl op f
  | bcst f => exact bcst f
  | vote op f => exact vote op f
  | mtch f => exact mtch f
  | prfx op f => exact prfx op f
  | redu op f => exact redu op f
  | srd r f => exact srd r f
  | swr r f => exact swr r f
  | nop f => exact nop f
  | trap f => exact trap f
  | brk f => exact brk f
  | tret f => exact tret f
  | kill f => exact kill f
  | ld sz f => exact ld sz f
  | ldAcq sc sz f => exact ldAcq sc sz f
  | st sz f => exact st sz f
  | stRel sc sz f => exact stRel sc sz f
  | ldt sz d f => exact ldt sz d f
  | atom sz w f => exact atom sz w f
  | upd sz w f => exact upd sz w f
  | fence sc f => exact fence sc f
  | pref l f => exact pref l f
  | cctl op f => exact cctl op f
  | bcinv f => exact bcinv f
  | frma f => exact frma f
  | frmf f => exact frmf f
  | cmpk sz w f => exact cmpk sz w f
  | rbind f => exact rbind f
  | runb f => exact runb f
  | rget f => exact rget f
  | rput f => exact rput f
  | radv tail f => exact radv tail f
  | rwait free d f => exact rwait free d f
  | rstat f => exact rstat f
  | strm w f => exact strm w f
  | strmw w f => exact strmw w f
  | strmq f => exact strmq f
  | strmc f => exact strmc f
  | cpy w f => exact cpy w f
  | cpyq f => exact cpyq f
  | cpyc f => exact cpyc f
  | mxbind slot w f => exact mxbind slot w f
  | mxunb slot f => exact mxunb slot f
  | mxfire w f => exact mxfire w f
  | mxz f => exact mxz f
  | mxld f => exact mxld f
  | mxst w f => exact mxst w f
  | mxmute slot f => exact mxmute slot f
  | mxstat slot f => exact mxstat slot f
  | mxsave slot f => exact mxsave slot f
  | mxrest slot f => exact mxrest slot f
  | symk f => exact symk f
  | symc w f => exact symc w f
  | symr w f => exact symr w f
  | symp w f => exact symp w f
  | syms f => exact syms f
  | symq w f => exact symq w f
  | hfork f => exact hfork f
  | hres refute d f => exact hres refute d f
  | hqry f => exact hqry f
  | hnote f => exact hnote f
  | psel w f => exact psel w f
  | topk f => exact topk f
  | _ => exact fun h => absurd h (by simp [Instr.isIsa, Instr.flds])

/-- The word after an instruction's first one, if eight more bytes follow in the block image. -/
def nextWord (b : List Byte) : Option Word := if 8 ≤ b.length then some (wordOfBytes (b.take 8)) else none

@[simp] theorem nextWord_bytesOfWord (w : Word) (b : List Byte) : nextWord (bytesOfWord w ++ b) = some w := by
  simp [nextWord]

/-- Decoding bytes is decoding the first word with the word after it. -/
theorem decode_bytesOfWord {w : Word} {b : List Byte} {i : Instr} (h : decodeWord w (nextWord b) = .ok i) :
    decode (bytesOfWord w ++ b) = .ok (i, b.drop (8 * (i.len - 1))) := by
  have h16 : 16 ≤ 8 + b.length ↔ 8 ≤ b.length := by omega
  have hlen : 8 * i.len = (bytesOfWord w).length + 8 * (i.len - 1) := by
    unfold Instr.len
    split <;> simp
  unfold nextWord at h
  simp [decode, h16, h, hlen, List.drop_append]

theorem decodeWord_of_decodeWords {w : Word} {ws rest : List Word} {i : Instr}
    (h : decodeWords (w :: ws) = .ok (i, rest)) : decodeWord w ws.head? = .ok i := by
  rw [decodeWords] at h
  split at h
  · cases h
  · cases h; assumption

/-- Settles O3: every encoding decodes from its own words, and a word's eight bytes are read back as that word. -/
theorem decodeEncode : Obligations.DecodeEncode := by
  intro i hi hw rest
  have hl := decodeWords_encode i hi hw (nextWord rest).toList
  simp only [encode, hi, if_true] at hl ⊢
  have hd := decodeWord_of_decodeWords hl
  cases he : i.extWord with
  | none =>
    have h1 : decodeWord i.word0 (nextWord rest) = .ok i := by simpa [he] using hd
    simp [decode_bytesOfWord h1, Instr.len, he]
  | some e =>
    have h1 : decodeWord i.word0 (nextWord (bytesOfWord e ++ rest)) = .ok i := by simpa [he] using hd
    simp [decode_bytesOfWord h1, Instr.len, he]

/-- Settles O2, by evaluating the decoder on each word. -/
theorem decodedWords : Obligations.DecodedWords := by
  unfold Obligations.DecodedWords
  decide +kernel

end Sys2Proof

/-! SUPPORT. A step runs the decoded instruction (O1), and what an instruction of the ALU kind delivers and leaves alone
(O9, O10). -/

namespace Sys2Proof.Machine

/-! ### One step of the machine (R12, R202, assumption log 1) -/

@[simp] theorem State.popMove_core (s : State) (c : Nat) : s.popMove.core c = s.core c := rfl
@[simp] theorem State.popMove_chord (s : State) (c slot : Nat) : s.popMove.chord? c slot = s.chord? c slot := rfl

/-- A chord whose words decode at its next index stands at that instruction. -/
theorem Chord.fetch_of_decodeWords {ch : Chord} {h : Header} {ws rest : List Word} {i : Instr} (himg : ch.img = some (h, ws))
    (hpc : ch.pc < ws.length) (hd : decodeWords (ws.drop ch.pc) = .ok (i, rest)) : ch.fetch = .instr i := by
  simp [Chord.fetch, himg, hd, Nat.not_le.2 hpc]

theorem issue_of_fetch {s : State} {c slot : Nat} {i : Instr} (h : s.fetch c slot = .instr i) : issue s c slot =
    if s.mayGo exec c slot i then exec i ((s.noteIssue c slot i).setFocusAt c slot) else .next s := by
  simp only [issue, h]

/-- A chord that no chord of its core was granted before may go, whatever the others stand at (R202). -/
theorem State.mayGo_of_first {run : Instr → State → Answer} {s : State} {c slot : Nat} {ch : Chord} (i : Instr)
    (hc : s.chord? c slot = some ch) (hfirst : ∀ p ∈ (s.core c).chords, p.1 = slot ∨ ch.granted ≤ p.2.granted) :
    s.mayGo run c slot i = true := by
  simp only [State.mayGo, hc, List.all_eq_true]
  intro p hp
  rcases hfirst p hp with h | h <;> simp [h]

theorem step_event (s : State) {r : List Move} {i : Instr} (h : s.flow.agenda = .event i :: r) :
    step s = if isEvent i then exec i s.popMove else .next s.popMove := by
  simp only [step, h]

theorem isEvent_iff (i : Instr) : isEvent i = true ↔ encode i = [] := List.isEmpty_iff

/-- Settles O1: a step over an issue is `issue`, which runs what the chord's words decode to. -/
theorem stepRunsDecoded : Obligations.StepRunsDecoded := by
  refine ⟨?issues, ?event, ?program, fun s r n => step_tick s, step_nil⟩
  case issues =>
    intro s c slot r ch h ws rest i hag hch himg hpc hd runs
    have hf : s.popMove.fetch c slot = .instr i := by
      simp only [State.fetch, State.popMove_chord, hch, Chord.fetch_of_decodeWords himg hpc hd]
    have hstep : step s = if s.popMove.mayGo exec c slot i then runs else .next s.popMove := by
      rw [step_issue s hag, issue_of_fetch hf]
    refine ⟨fun hm => ?_, fun hm => ?_, fun hfirst => ?_⟩
    · simp [hstep, hm]
    · simp [hstep, hm]
    · simp [hstep, State.mayGo_of_first i (s := s.popMove) hch hfirst]
  case event =>
    intro s r i hag he
    simp [step_event s hag, (isEvent_iff i).2 he]
  case program =>
    intro s r i hag he
    simp [step_event s hag, isEvent_iff, he]

/-! ### Delivering a value to a lane (R17, R21) -/

/-- A lane's outcome that is only a value is delivered to both targets; nothing is buffered. -/
theorem Chord.put_val (ch : Chord) (f : Flds) (i l : Nat) (w : Word) :
    ch.put f i l (.val w) = ((ch.modLane l id).deliver f.t0 l w).deliver f.t1 l w := by
  simp only [Chord.put, LaneRes.val, List.map_nil, List.append_nil, Bool.or_false, Option.map_none, Option.toList_none]
  rfl

/-- A uniform outcome that is only a value is put in every lane of the chord. -/
theorem Chord.putAll_val (ch : Chord) (f : Flds) (i : Nat) (w : Word) :
    ch.putAll f i (.val w) = (nkeys ch.lanes).foldl (fun c l => c.put f i l (.val w)) ch := by
  simp only [Chord.putAll, LaneRes.val, List.map_nil, List.append_nil, Option.map_none, Option.toList_none]

/-- Under U = 0 every lane is put the result of its own operands (R21). -/
theorem Chord.alu_lanewise (ch : Chord) (sh : Shape) {f : Flds} (op : Vals → Word) (ls : List (Nat × Lane × Vals)) (hu : f.u = false) :
    ch.alu sh f op ls =
      ls.foldl (fun c p => c.put f c.pc p.1 (.val (if selects f p.2.2 then op p.2.2 else passed sh p.2.2))) ch := by
  simp [Chord.alu, hu]

/-- Under U = 1 every lane is put the result of the lowest lane's operands (R205). -/
theorem Chord.alu_uniform (ch : Chord) (sh : Shape) {f : Flds} (op : Vals → Word) (l : Nat) (x : Lane) (v : Vals)
    (r : List (Nat × Lane × Vals)) (hu : f.u = true) :
    ch.alu sh f op ((l, x, v) :: r) =
      (nkeys (ch.checked f ((l, x, v) :: r)).lanes).foldl (fun c k => c.put f (ch.checked f ((l, x, v) :: r)).pc k
        (.val (if selects f v then op v else passed sh v))) (ch.checked f ((l, x, v) :: r)) := by
  simp only [Chord.alu, hu, if_true, Chord.putAll_val, Chord.checked, Bool.true_and]

/-! ### What a slot of a lane holds -/

@[simp] theorem Chord.linkVal_modLane (ch : Chord) (k : Nat) (g : Lane → Lane) (i : Nat) (sl : Slot) (l : Nat) :
    (ch.modLane k g).linkVal i sl l = ch.linkVal i sl l := by
  unfold Chord.modLane; split <;> rfl

theorem Chord.linkVal_deliver (ch : Chord) (t' : Option Target) (k : Nat) (w : Word) (t : Target) (l : Nat) :
    (ch.deliver t' k w).linkVal t.idx.toNat t.slot l = if t' = some t ∧ k = l then some w else ch.linkVal t.idx.toNat t.slot l := by
  rcases t' with _ | ⟨i, sl⟩
  · simp [Chord.deliver]
  · obtain ⟨j, sl'⟩ := t
    by_cases h : (i = j ∧ sl = sl') ∧ k = l <;>
      simp [Chord.deliver, Chord.linkVal, h, BitVec.toNat_inj]

theorem Chord.linkVal_put_val (ch : Chord) {f : Flds} (i k : Nat) (w : Word) {t : Target} (ht : f.t0 = some t ∨ f.t1 = some t) (l : Nat) :
    (ch.put f i k (.val w)).linkVal t.idx.toNat t.slot l = if k = l then some w else ch.linkVal t.idx.toNat t.slot l := by
  simp only [Chord.put_val, Chord.linkVal_deliver, Chord.linkVal_modLane]
  rcases ht with ht | ht <;> by_cases hk : k = l <;> simp [ht, hk]

/-- Values put one after another: the last one put in a lane is there, so the common one where all that reach it agree. -/
theorem Chord.linkVal_foldl_put {α : Type} {f : Flds} {t : Target} (ht : f.t0 = some t ∨ f.t1 = some t) (i : Chord → Nat)
    (key : α → Nat) (g : α → Word) {l : Nat} {w : Word} (ch : Chord) (ls : List α) (hmem : ∃ p ∈ ls, key p = l)
    (hall : ∀ p ∈ ls, key p = l → g p = w) :
    (ls.foldl (fun c p => c.put f (i c) (key p) (.val (g p))) ch).linkVal t.idx.toNat t.slot l = some w := by
  induction ls using List.reverseRecOn with
  | nil => simp at hmem
  | append_singleton ls q ih =>
    rw [List.foldl_concat, Chord.linkVal_put_val _ _ _ _ ht]
    by_cases hq : key q = l
    · rw [if_pos hq, hall q (by simp) hq]
    · rw [if_neg hq]
      refine ih ?_ fun p hp => hall p (by simp [hp])
      obtain ⟨p, hp, hl⟩ := hmem
      rcases List.mem_append.1 hp with hp | hp
      · exact ⟨p, hp, hl⟩
      · exact absurd hl (by simpa [List.mem_singleton.1 hp] using hq)

/-- Settles O9: an instruction of the ALU kind puts values in lanes one after another, and those that reach a lane agree. -/
theorem deliveryInLanes : Obligations.DeliveryInLanes := by
  intro ch sh f op ls l x v t ht
  refine ⟨fun hu hmem hall => ?_, fun hu hhead k hk => ?_⟩
  · rw [Chord.alu_lanewise _ _ _ _ hu]
    exact Chord.linkVal_foldl_put ht Chord.pc (·.1) (fun p => if selects f p.2.2 then op p.2.2 else passed sh p.2.2) ch ls
      ⟨_, hmem, rfl⟩ fun q hq hl => by rw [hall q hq hl]
  · obtain ⟨r, rfl⟩ := List.head?_eq_some_iff.1 hhead
    rw [Chord.alu_uniform _ _ _ _ _ _ _ hu]
    exact Chord.linkVal_foldl_put ht (fun _ => _) id (fun _ => if selects f v then op v else passed sh v) _ _
      ⟨k, hk, rfl⟩ fun _ _ _ => rfl

/-! ### What a delivery leaves of the chord (R100) -/

theorem Lane.doomBy_eq (x : Lane) (t : Trap) (i : Nat) : x.doomBy t i = { x with doom := (x.doomBy t i).doom } := by
  unfold Lane.doomBy; split <;> rfl

/-- A chord that differs from another in its links and in dooms of its lanes alone; in no doom unless `dooms` is set. -/
structure Chord.OnlyDelivers (dooms : Bool) (ch ch' : Chord) : Prop where
  rest : ch' = { ch with links := ch'.links, lanes := ch'.lanes }
  present : ∀ l, (nget ch'.lanes l).isSome = (nget ch.lanes l).isSome
  lane : ∀ l x, nget ch.lanes l = some x → ∃ x', nget ch'.lanes l = some x' ∧ x' = { x with doom := x'.doom } ∧
    (dooms = false → x'.doom = x.doom)

namespace Chord.OnlyDelivers

variable {dooms : Bool} {ch ch' ch'' : Chord}

theorem refl (dooms : Bool) (ch : Chord) : ch.OnlyDelivers dooms ch := ⟨rfl, fun _ => rfl, fun _ x h => ⟨x, h, rfl, fun _ => rfl⟩⟩

theorem trans (h : ch.OnlyDelivers dooms ch') (h' : ch'.OnlyDelivers dooms ch'') : ch.OnlyDelivers dooms ch'' where
  rest := by rw [h'.rest]; rw [h.rest]
  present l := (h'.present l).trans (h.present l)
  lane l x hx := by
    obtain ⟨x', hx', he, hd⟩ := h.lane l x hx
    obtain ⟨x'', hx'', he', hd'⟩ := h'.lane l x' hx'
    exact ⟨x'', hx'', by rw [he']; rw [he], fun hf => (hd' hf).trans (hd hf)⟩

theorem foldl {α : Type} {g : Chord → α → Chord} (hg : ∀ c p, Chord.OnlyDelivers dooms c (g c p)) (ls : List α) (ch : Chord) :
    ch.OnlyDelivers dooms (ls.foldl g ch) := by
  induction ls generalizing ch with
  | nil => exact refl _ _
  | cons p r ih => exact (hg ch p).trans (ih _)

theorem modLane (ch : Chord) (k : Nat) {g : Lane → Lane} (hg : ∀ x, g x = { x with doom := (g x).doom })
    (hd : dooms = false → ∀ x, (g x).doom = x.doom) : ch.OnlyDelivers dooms (ch.modLane k g) := by
  unfold Chord.modLane
  cases hk : nget ch.lanes k with
  | none => exact refl _ _
  | some y =>
    refine ⟨rfl, fun l => ?_, fun l x hx => ?_⟩
    · by_cases hl : l = k
      · subst hl; simp [hk]
      · simp [nget_nput_other _ _ hl]
    · by_cases hl : l = k
      · subst hl
        obtain rfl : y = x := Option.some.inj (hk.symm.trans hx)
        exact ⟨g y, by simp, hg y, fun h => hd h y⟩
      · exact ⟨x, by simp [nget_nput_other _ _ hl, hx], rfl, fun _ => rfl⟩

theorem deliver (ch : Chord) (t : Option Target) (l : Nat) (w : Word) : ch.OnlyDelivers dooms (ch.deliver t l w) := by
  cases t with
  | none => exact refl _ _
  | some t => exact ⟨rfl, fun _ => rfl, fun _ x h => ⟨x, h, rfl, fun _ => rfl⟩⟩

theorem put_val (ch : Chord) (f : Flds) (i l : Nat) (w : Word) : ch.OnlyDelivers dooms (ch.put f i l (.val w)) := by
  rw [Chord.put_val]
  exact ((modLane ch l (fun _ => rfl) fun _ _ => rfl).trans (deliver _ _ _ _)).trans (deliver _ _ _ _)

theorem checkUniform (ch : Chord) (i : Nat) (v : Vals) (ls : List (Nat × Lane × Vals)) :
    ch.OnlyDelivers true (ch.checkUniform i v ls) := by
  refine foldl (fun c p => ?_) ls ch
  split
  · exact modLane c p.1 (fun x => x.doomBy_eq _ _) (by simp)
  · exact refl _ _

theorem checked (ch : Chord) (f : Flds) (ls : List (Nat × Lane × Vals)) : ch.OnlyDelivers f.u (ch.checked f ls) := by
  unfold Chord.checked
  split
  · exact refl _ _
  · split
    · next h =>
        have hu : f.u = true := (Bool.and_eq_true_iff.1 h).1
        rw [hu]
        exact checkUniform _ _ _ _
    · exact refl _ _

theorem alu (ch : Chord) (sh : Shape) (f : Flds) (op : Vals → Word) (ls : List (Nat × Lane × Vals)) :
    ch.OnlyDelivers f.u (ch.alu sh f op ls) := by
  cases hu : f.u with
  | false =>
    rw [Chord.alu_lanewise _ _ _ _ hu]
    exact foldl (fun c p => put_val c _ _ _ _) _ _
  | true =>
    rcases ls with _ | ⟨⟨l, x, v⟩, r⟩
    · simpa [Chord.alu] using refl _ _
    · rw [Chord.alu_uniform _ _ _ _ _ _ _ hu]
      exact (hu ▸ checked ch f _).trans (foldl (fun c k => put_val c _ _ _ _) _ _)

end Chord.OnlyDelivers

theorem State.chord_setChord_other (s : State) {c slot c' slot' : Nat} (ch : Chord) (h : (c', slot') ≠ (c, slot)) :
    (s.setChord c slot ch).chord? c' slot' = s.chord? c' slot' := by
  simp only [State.chord?, State.setChord, State.modCore, State.core_setCore]
  split
  · next hc =>
    subst hc
    exact nget_nput_other _ _ fun hs => h (by rw [hs])
  · rfl

/-- Settles O10: each part of a delivery changes the links and dooms of its chord alone, and the chord is put back in its slot. -/
theorem deliveryFrame : Obligations.DeliveryFrame := by
  intro i sh f op hdel s ch ls t hready hexec
  obtain rfl : s.setFocus ((ch.alu sh f op ls).next 1) = t := by simpa using (hdel s ch ls hready).symm.trans hexec
  have ha := Chord.OnlyDelivers.alu ch sh f op ls
  refine ⟨⟨_, rfl, ?_, ha.present, ha.lane⟩, fun c slot hne => s.chord_setChord_other _ hne, fun a => by simp⟩
  have hpc : (ch.alu sh f op ls).pc = ch.pc := by rw [ha.rest]
  unfold Chord.next
  rw [hpc]
  exact congrArg (fun c : Chord => { c with pc := ch.pc + 1 }) ha.rest

end Sys2Proof.Machine

/-! SUPPORT. Elements of a ring slot read back what was written (O28). -/

namespace Sys2Proof.Machine

/-! ### Bytes of a memory in canonical form after a run of writes (assumption log 9) -/

theorem mget_mputs {m : List Host.Cell} (h : Memory.wf m = true) (a : Nat) (bs : List Byte) (b : Nat) :
    mget (mputs m a bs) b = if a ≤ b then bs.getD (b - a) (mget m b) else mget m b := by
  induction bs generalizing m a with
  | nil => simp [mputs]
  | cons x r ih =>
    rw [mputs, ih (wf_mput h a x), mget_mput h]
    rcases Nat.lt_trichotomy b a with hb | rfl | hb
    · rw [if_neg (by omega), if_neg (by omega), if_neg (by omega)]
    · simp
    · obtain ⟨d, rfl⟩ := Nat.exists_eq_add_of_lt hb
      rw [if_pos (by omega : a + 1 ≤ a + d + 1), if_pos hb.le, if_neg hb.ne', show a + d + 1 - a = d + 1 by omega,
        show a + d + 1 - (a + 1) = d by omega, List.getD_cons_succ]

theorem mget_mputs_outside {m : List Host.Cell} (h : Memory.wf m = true) {a b : Nat} {bs : List Byte} (hb : b < a ∨ a + bs.length ≤ b) :
    mget (mputs m a bs) b = mget m b := by
  rw [mget_mputs h]
  split
  · exact List.getD_eq_default _ _ (by omega)
  · rfl

theorem mgets_mputs_same {m : List Host.Cell} (h : Memory.wf m = true) (a : Nat) (bs : List Byte) :
    mgets (mputs m a bs) a bs.length = bs := by
  refine List.ext_getElem (by simp [mgets]) fun i _ hi => ?_
  simp [mgets, mget_mputs h, hi]

theorem mgets_mputs_apart {m : List Host.Cell} (h : Memory.wf m = true) {a b n : Nat} {bs : List Byte} (hb : b + n ≤ a ∨ a + bs.length ≤ b) :
    mgets (mputs m a bs) b n = mgets m b n :=
  List.map_congr_left fun i hi => mget_mputs_outside h (by have := List.mem_range.1 hi; omega)

/-! ### A number's low bytes -/

@[simp] theorem length_bytesOfNat (n x : Nat) : (bytesOfNat n x).length = n := by
  induction n generalizing x with
  | zero => rfl
  | succ n ih => simp [bytesOfNat, ih]

theorem natOfBytes_bytesOfNat (n x : Nat) : natOfBytes (bytesOfNat n x) = x % 2 ^ (8 * n) := by
  induction n generalizing x with
  | zero => simp [bytesOfNat, natOfBytes, Nat.mod_one]
  | succ n ih =>
    rw [bytesOfNat, natOfBytes, ih, BitVec.toNat_ofNat, show 8 * (n + 1) = 8 + 8 * n by ring, pow_add, Nat.mod_mul]
    rfl

/-! ### The two codes of a byte of 4-bit elements (R73) -/

/-- The code of 4 bits of a byte: the low one at 0, the high one at 1. -/
def nibble (b : Byte) (i : Nat) : Nat := b.toNat / 16 ^ i % 16

/-- A byte with one of its two codes replaced. -/
def withNibble (b : Byte) (i code : Nat) : Byte :=
  BitVec.ofNat 8 ((if i = 0 then code % 16 else b.toNat % 16) + 16 * (if i = 1 then code % 16 else b.toNat / 16))

theorem toNat_withNibble (b : Byte) (i code : Nat) : (withNibble b i code).toNat =
    (if i = 0 then code % 16 else b.toNat % 16) + 16 * (if i = 1 then code % 16 else b.toNat / 16) := by
  have hb := b.isLt
  rw [withNibble, BitVec.toNat_ofNat]
  split <;> split <;> omega

theorem nibble_withNibble (b : Byte) {i j : Nat} (code : Nat) (hi : i < 2) (hj : j < 2) :
    nibble (withNibble b i code) j = if j = i then code % 16 else nibble b j := by
  have hb := b.isLt
  rw [nibble, nibble, toNat_withNibble]
  interval_cases i <;> interval_cases j <;> simp <;> omega

/-! ### An element's write and its read (R263, R343) -/

theorem readElem_four (m : List Host.Cell) (addr e : Nat) : readElem m addr 4 e = nibble (mget m (addr + e / 2)) (e % 2) := rfl

theorem readElem_bytes (m : List Host.Cell) (addr n e : Nat) : readElem m addr (8 * n) e = natOfBytes (mgets m (addr + e * n) n) := by
  rw [readElem, if_neg (by omega), Nat.mul_div_cancel_left _ (by decide)]

theorem Core.writeElem_four (k : Core) (addr e code : Nat) : k.writeElem addr 4 e code =
    { k with sram := mput k.sram (addr + e / 2) (withNibble (mget k.sram (addr + e / 2)) (e % 2) code) } := rfl

theorem Core.writeElem_bytes (k : Core) (addr n e code : Nat) :
    k.writeElem addr (8 * n) e code = k.putSram (addr + e * n) (bytesOfNat n code) := by
  rw [Core.writeElem, if_neg (by omega), Nat.mul_div_cancel_left _ (by decide)]

/-- The widths of R73: half a byte, or whole bytes. -/
theorem four_or_bytes_of_width {w : Nat} (hw : w ∈ [4, 8, 16, 32, 64]) : w = 4 ∨ ∃ n, 0 < n ∧ w = 8 * n := by
  simp only [List.mem_cons, List.not_mem_nil, or_false] at hw
  rcases hw with rfl | hw
  · exact .inl rfl
  · exact .inr ⟨w / 8, by omega, by omega⟩

/-- The elements of whole bytes do not overlap. -/
theorem mul_add_le_or_of_ne {e e' : Nat} (n : Nat) (h : e' ≠ e) : e' * n + n ≤ e * n ∨ e * n + n ≤ e' * n := by
  rw [← Nat.succ_mul, ← Nat.succ_mul]
  exact (Nat.lt_or_gt_of_ne h).imp (Nat.mul_le_mul_right n) (Nat.mul_le_mul_right n)

/-- Before the first or past the last byte of an element of whole bytes. -/
theorem outside_bytes_iff {n : Nat} (hn : 0 < n) (addr e a : Nat) :
    (a < addr + e * (8 * n) / 8 ∨ addr + (e * (8 * n) + 8 * n - 1) / 8 < a) ↔ (a < addr + e * n ∨ addr + e * n + n ≤ a) := by
  rw [Nat.mul_left_comm]
  omega

theorem readElem_writeElem_four (k : Core) (addr e e' code : Nat) (h : Memory.wf k.sram = true) :
    readElem (k.writeElem addr 4 e code).sram addr 4 e' = if e' = e then code % 2 ^ 4 else readElem k.sram addr 4 e' := by
  rw [Core.writeElem_four, readElem_four, readElem_four, mget_mput h]
  by_cases hbyte : addr + e' / 2 = addr + e / 2
  · rw [if_pos hbyte, nibble_withNibble _ _ (by omega) (by omega), hbyte]
    exact ite_congr (propext ⟨fun _ => by omega, fun he => by rw [he]⟩) (fun _ => rfl) fun _ => rfl
  · rw [if_neg hbyte, if_neg (by rintro rfl; exact hbyte rfl)]

theorem readElem_writeElem_bytes (k : Core) (addr n e e' code : Nat) (h : Memory.wf k.sram = true) :
    readElem (k.writeElem addr (8 * n) e code).sram addr (8 * n) e' =
      if e' = e then code % 2 ^ (8 * n) else readElem k.sram addr (8 * n) e' := by
  rw [Core.writeElem_bytes, readElem_bytes, readElem_bytes, Core.putSram]
  have hlen := length_bytesOfNat n code
  split
  · next he =>
    have hsame := mgets_mputs_same h (addr + e * n) (bytesOfNat n code)
    rw [hlen] at hsame
    rw [he, hsame, natOfBytes_bytesOfNat]
  · next he =>
    rw [mgets_mputs_apart h (by have := mul_add_le_or_of_ne n he; omega)]

theorem wf_writeElem {k : Core} (h : Memory.wf k.sram = true) (addr w e code : Nat) : Memory.wf (k.writeElem addr w e code).sram = true := by
  unfold Core.writeElem
  split
  · exact wf_mput h _ _
  · exact wf_mputs h _ _

/-- A write of an element changes a core in its SRAM and in which of its bytes are uncorrectable alone. -/
theorem Core.writeElem_rest (k : Core) (addr w e code : Nat) : k.writeElem addr w e code =
    { k with sram := (k.writeElem addr w e code).sram, bad := (k.writeElem addr w e code).bad } := by
  unfold Core.writeElem
  split <;> rfl

theorem mget_writeElem_outside {k : Core} (h : Memory.wf k.sram = true) {addr w e code a : Nat} (hw : w ∈ [4, 8, 16, 32, 64])
    (ha : a < addr + e * w / 8 ∨ addr + (e * w + w - 1) / 8 < a) : mget (k.writeElem addr w e code).sram a = mget k.sram a := by
  rcases four_or_bytes_of_width hw with rfl | ⟨n, hn, rfl⟩
  · rw [Core.writeElem_four, mget_mput h, if_neg (by omega)]
  · rw [Core.writeElem_bytes]
    exact mget_mputs_outside h (by rwa [length_bytesOfNat, ← outside_bytes_iff hn])

/-- The bytes written whole are good again, the half-written one stays as it was (assumption log 43). -/
theorem mem_bad_writeElem (k : Core) {addr w e code a : Nat} (hw : w ∈ [4, 8, 16, 32, 64]) : a ∈ (k.writeElem addr w e code).bad ↔
    a ∈ k.bad ∧ (w = 4 ∨ a < addr + e * w / 8 ∨ addr + (e * w + w - 1) / 8 < a) := by
  rcases four_or_bytes_of_width hw with rfl | ⟨n, hn, rfl⟩
  · simp [Core.writeElem_four]
  · have hne : 8 * n ≠ 4 := by omega
    simp [Core.writeElem_bytes, Core.putSram, outside_bytes_iff hn, hne]

/-- Settles O28: by width, one code of a byte is replaced, or the element's bytes are put, which the bytes of other elements are apart from. -/
theorem ringElements : Obligations.RingElements := by
  intro k addr w e e' code h hw
  refine ⟨?_, wf_writeElem h addr w e code, fun a ha => mget_writeElem_outside h hw ha, fun a => mem_bad_writeElem k hw,
    k.writeElem_rest addr w e code⟩
  rcases four_or_bytes_of_width hw with rfl | ⟨n, -, rfl⟩
  · exact readElem_writeElem_four k addr e e' code h
  · exact readElem_writeElem_bytes k addr n e e' code h

end Sys2Proof.Machine

/-! SUPPORT. Integer instructions deliver their results (O5, O6). -/

namespace Sys2Proof.Machine

/-! ### Instructions of the ALU kind execute (R17, R109) -/

/-- An instruction of the ALU kind that is ready delivers. -/
theorem State.alu_of_ready {s : State} {sh : Shape} {f : Flds} {ch : Chord} {ls : List (Nat × Lane × Vals)}
    (h : s.ready sh f ch ls) (op : Vals → Word) : s.alu sh f op = s.setFocus ((ch.alu sh f op ls).next 1) := by
  obtain ⟨hfocus, hissue, hgather⟩ := h
  simp only [State.alu, hfocus, hissue, if_true, hgather]

/-- An instruction whose meaning is the ALU's, with `op` as its result, delivers `op` of its operands. -/
theorem Delivers.of_alu {i : Instr} {sh : Shape} {f : Flds} {op : Vals → Word} (h : ∀ s, exec i s = .next (s.alu sh f op)) :
    Delivers i sh f op := fun s _ _ hready => by rw [h, State.alu_of_ready hready]

/-- Settles O5: each of these is the ALU's with the exact result, wrapped or saturated, as its operation. -/
theorem integerArithmetic : Obligations.IntegerArithmetic := by
  intro ty f
  and_intros
  all_goals exact .of_alu fun _ => rfl

/-- IDX scales its index by a power of two (R111). -/
theorem idxVal_eq (sh : BitVec 3) (a b c : Word) : idxVal sh a b c = a + b * BitVec.ofNat 64 (2 ^ sh.toNat) + c := by
  rw [idxVal, BitVec.shiftLeft_eq_mul_twoPow,
    show BitVec.twoPow 64 sh.toNat = BitVec.ofNat 64 (2 ^ sh.toNat) from BitVec.eq_of_toNat_eq (by simp)]

/-- IMMH puts its immediate above 32 zero bits (R109). -/
theorem immhVal_eq (v : BitVec 32) : immhVal v = v ++ (0 : BitVec 32) := by
  refine BitVec.eq_of_getLsbD_eq fun i hi => ?_
  simp only [immhVal, BitVec.getLsbD_shiftLeft, BitVec.getLsbD_setWidth, BitVec.getLsbD_append]
  by_cases h : i < 32
  · simp [h]
  · simp [h, hi, show i - 32 < 64 by omega]

theorem State.aluImm_of_mayIssue {s : State} {ch : Chord} (hfocus : s.focus = some ch) (hissue : ch.mayIssue = true) (f : ImmFlds)
    (v : Word) : s.aluImm f v = s.setFocus (((nkeys ch.lanes).foldl (fun c l => c.deliver f.t0 l v) ch).next 1) := by
  simp only [State.aluImm, hfocus, hissue, if_true]

/-- Settles O6: each is the ALU's with its result as the operation, where IDX multiplies for its shift and IMMH appends for its own. -/
theorem integerLogic : Obligations.IntegerLogic := by
  refine ⟨fun ty f => ?alu, fun s ch f zx hfocus hissue => ⟨?imm, ?immh⟩⟩
  case alu =>
    simp only [← idxVal_eq]
    and_intros
    all_goals intros; exact .of_alu fun _ => rfl
  case imm => exact congrArg _ (State.aluImm_of_mayIssue hfocus hissue f _)
  case immh =>
    rw [← immhVal_eq]
    exact congrArg _ (State.aluImm_of_mayIssue hfocus hissue f _)

end Sys2Proof.Machine

/-! SUPPORT. Exact results over bit patterns (O8). -/

namespace Sys2Proof.Machine

/-! ### Exact results as patterns of n bits -/

section
variable {n : Nat} (x y : BitVec n)

theorem ofInt_toNat_tdiv : BitVec.ofInt n ((x.toNat : Int).tdiv y.toNat) = x / y := by
  rw [← Int.ofNat_tdiv, BitVec.ofInt_natCast, ← BitVec.toNat_udiv, BitVec.ofNat_toNat, BitVec.setWidth_eq]

theorem ofInt_toNat_tmod : BitVec.ofInt n ((x.toNat : Int).tmod y.toNat) = x % y := by
  rw [← Int.ofNat_tmod, BitVec.ofInt_natCast, ← BitVec.toNat_umod, BitVec.ofNat_toNat, BitVec.setWidth_eq]

theorem ofInt_toInt_tdiv : BitVec.ofInt n (x.toInt.tdiv y.toInt) = x.sdiv y :=
  BitVec.eq_of_toInt_eq (by rw [BitVec.toInt_ofInt, BitVec.toInt_sdiv])

theorem ofInt_toInt_tmod : BitVec.ofInt n (x.toInt.tmod y.toInt) = x.srem y := by
  rw [← BitVec.toInt_srem, BitVec.ofInt_toInt]

theorem ofInt_sub (r t : Int) : BitVec.ofInt n (r - t) = BitVec.ofInt n r - BitVec.ofInt n t := by
  rw [Int.sub_eq_add_neg, BitVec.ofInt_add, BitVec.ofInt_neg, BitVec.sub_eq_add_neg]

theorem toInt_eq_zero_iff : x.toInt = 0 ↔ x = 0 := by rw [← BitVec.toInt_inj]; simp

theorem natCast_toNat_eq_zero_iff : (x.toNat : Int) = 0 ↔ x = 0 := by rw [← BitVec.toNat_inj]; simp

end

/-! ### A type's words, and its divisors (R95, R102) -/

theorem setWidth_ofInt_64 (r : Int) : (BitVec.ofInt 64 r).setWidth 32 = BitVec.ofInt 32 r := by
  apply BitVec.eq_of_toNat_eq
  simp only [BitVec.toNat_setWidth, BitVec.toNat_ofInt]
  omega

@[simp] theorem intWrap_i32 (r : Int) : intWrap .i32 r = (BitVec.ofInt 32 r).signExtend 64 := by rw [← setWidth_ofInt_64]; rfl
@[simp] theorem intWrap_n32 (r : Int) : intWrap .n32 r = (BitVec.ofInt 32 r).setWidth 64 := by rw [← setWidth_ofInt_64]; rfl
@[simp] theorem intWrap_i64 (r : Int) : intWrap .i64 r = BitVec.ofInt 64 r := rfl
@[simp] theorem intWrap_n64 (r : Int) : intWrap .n64 r = BitVec.ofInt 64 r := rfl

@[simp] theorem intRead_i32 (w : Word) : intRead .i32 w = (w.setWidth 32).toInt := rfl
@[simp] theorem intRead_n32 (w : Word) : intRead .n32 w = ((w.setWidth 32).toNat : Int) := rfl
@[simp] theorem intRead_i64 (w : Word) : intRead .i64 w = w.toInt := rfl
@[simp] theorem intRead_n64 (w : Word) : intRead .n64 w = (w.toNat : Int) := rfl

theorem divVal'_of_ne_zero {ty : IntTy} {b : Word} (a : Word) (h : intRead ty b ≠ 0) :
    divVal' ty a b = intWrap ty ((intRead ty a).tdiv (intRead ty b)) := if_neg h

theorem remVal_of_ne_zero {ty : IntTy} {b : Word} (a : Word) (h : intRead ty b ≠ 0) :
    remVal ty a b = intWrap ty ((intRead ty a).tmod (intRead ty b)) := if_neg h

theorem divVal'_of_eq_zero {ty : IntTy} {b : Word} (a : Word) (h : intRead ty b = 0) :
    divVal' ty a b = intOut ty (BitVec.allOnes 64) := if_pos h

theorem remVal_of_eq_zero {ty : IntTy} {b : Word} (a : Word) (h : intRead ty b = 0) : remVal ty a b = intOut ty a := if_pos h

/-- A divisor is zero as a type reads it when its pattern of the type's width is. -/
theorem intRead_32_eq_zero_iff {ty : IntTy} (h : intBits ty = 32) (b : Word) : intRead ty b = 0 ↔ b.setWidth 32 = 0 := by
  cases ty
  case i32 => exact toInt_eq_zero_iff _
  case n32 => exact natCast_toNat_eq_zero_iff _
  all_goals cases h

theorem intRead_64_eq_zero_iff {ty : IntTy} (h : intBits ty = 64) (b : Word) : intRead ty b = 0 ↔ b = 0 := by
  cases ty
  case i64 => exact toInt_eq_zero_iff _
  case n64 => exact natCast_toNat_eq_zero_iff _
  all_goals cases h

/-- Settles O8: the type's wrap is the pattern of the exact result, and each operation on patterns is that of the integers they read as. -/
theorem divisionPatterns : Obligations.DivisionPatterns := by
  intro a b x y
  refine ⟨?ring64, fun hb => ?div64, ?zero64, ?ring32, fun hy => ?div32, fun hy => ?zero32⟩
  case ring64 => simp [addVal, subVal, mulVal, BitVec.ofInt_add, ofInt_sub, BitVec.ofInt_mul]
  case ring32 =>
    simp only [addVal, subVal, mulVal, intWrap_i32, intWrap_n32, intRead_i32, intRead_n32, BitVec.ofInt_add, ofInt_sub,
      BitVec.ofInt_mul, BitVec.ofInt_toInt, BitVec.ofInt_natCast, BitVec.ofNat_toNat, BitVec.setWidth_eq, x, y, and_self]
  case div64 =>
    have hne {ty : IntTy} (h : intBits ty = 64) : intRead ty b ≠ 0 := (intRead_64_eq_zero_iff h b).not.2 hb
    rw [divVal'_of_ne_zero a (hne rfl), remVal_of_ne_zero a (hne rfl), divVal'_of_ne_zero a (hne rfl), remVal_of_ne_zero a (hne rfl)]
    exact ⟨ofInt_toNat_tdiv a b, ofInt_toNat_tmod a b, ofInt_toInt_tdiv a b, ofInt_toInt_tmod a b⟩
  case div32 =>
    have hne {ty : IntTy} (h : intBits ty = 32) : intRead ty b ≠ 0 := (intRead_32_eq_zero_iff h b).not.2 hy
    rw [divVal'_of_ne_zero a (hne rfl), remVal_of_ne_zero a (hne rfl), divVal'_of_ne_zero a (hne rfl), remVal_of_ne_zero a (hne rfl)]
    simp only [intWrap_i32, intWrap_n32, intRead_i32, intRead_n32, ofInt_toNat_tdiv, ofInt_toNat_tmod, ofInt_toInt_tdiv,
      ofInt_toInt_tmod, x, y, and_self]
  case zero64 =>
    exact ⟨divVal'_of_eq_zero a rfl, divVal'_of_eq_zero a rfl, remVal_of_eq_zero a rfl, remVal_of_eq_zero a rfl⟩
  case zero32 =>
    have h0 {ty : IntTy} (h : intBits ty = 32) : intRead ty b = 0 := (intRead_32_eq_zero_iff h b).2 hy
    exact ⟨divVal'_of_eq_zero a (h0 rfl), divVal'_of_eq_zero a (h0 rfl), remVal_of_eq_zero a (h0 rfl), remVal_of_eq_zero a (h0 rfl)⟩

end Sys2Proof.Machine

/-! SUPPORT. The results of shifts, counts and bit fields, bit by bit (O7). -/

namespace Sys2Proof.Machine

/-! ### The bits of a type's words (R95) -/

theorem intBits_pos (ty : IntTy) : 0 < intBits ty := by cases ty <;> decide
theorem intBits_le (ty : IntTy) : intBits ty ≤ 64 := by cases ty <;> decide

/-- A sign-extended cut of a word repeats the cut's top bit. -/
theorem getLsbD_signExtend_setWidth {n i : Nat} (w : Word) (hn : 0 < n) (hi : i < 64) :
    ((w.setWidth n).signExtend 64).getLsbD i = w.getLsbD (min i (n - 1)) := by
  rw [BitVec.getLsbD_signExtend, BitVec.msb_eq_getLsbD_last]
  by_cases h : i < n
  · simp [h, hi, show min i (n - 1) = i by omega]
  · simp [h, hi, hn, show min i (n - 1) = n - 1 by omega]

theorem intOut_eq (ty : IntTy) (w : Word) : intOut ty w =
    if intSigned ty then (w.setWidth (intBits ty)).signExtend 64 else (w.setWidth (intBits ty)).setWidth 64 := by
  cases ty
  case i32 | n32 => rfl
  case i64 => exact (BitVec.signExtend_eq w).symm
  case n64 => exact (BitVec.setWidth_eq w).symm

theorem getLsbD_intOut {ty : IntTy} {i : Nat} (w : Word) (h : i < intBits ty) : (intOut ty w).getLsbD i = w.getLsbD i := by
  have hi : i < 64 := h.trans_le (intBits_le ty)
  rw [intOut_eq]
  split
  · rw [getLsbD_signExtend_setWidth w (intBits_pos ty) hi, min_eq_left (by omega)]
  · simp [h, hi]

@[simp] theorem intOut_idem (ty : IntTy) (w : Word) : intOut ty (intOut ty w) = intOut ty w := by
  have hlow : (intOut ty w).setWidth (intBits ty) = w.setWidth (intBits ty) :=
    BitVec.eq_of_getLsbD_eq fun i hi => by simp [hi, getLsbD_intOut w hi]
  rw [intOut_eq, hlow, ← intOut_eq]

@[simp] theorem intOut_zero (ty : IntTy) : intOut ty 0#64 = 0#64 := by cases ty <;> decide

/-! ### Shifts (R104) -/

theorem getLsbD_shlVal {ty : IntTy} {i : Nat} (a b : Word) (h : i < intBits ty) :
    (shlVal ty a b).getLsbD i = (decide (b.toNat ≤ i) && a.getLsbD (i - b.toNat)) := by
  unfold shlVal
  split
  · simp [show ¬b.toNat ≤ i by omega]
  · rw [getLsbD_intOut _ h, BitVec.getLsbD_shiftLeft]
    by_cases hb : b.toNat ≤ i <;> simp [h.trans_le (intBits_le ty), hb, Nat.lt_of_not_le]

theorem getLsbD_shrVal {ty : IntTy} {i : Nat} (a b : Word) (h : i < intBits ty) :
    (shrVal ty a b).getLsbD i = (decide (i + b.toNat < intBits ty) && a.getLsbD (i + b.toNat)) := by
  have hn := intBits_le ty
  unfold shrVal
  split
  · simp [show ¬i + b.toNat < intBits ty by omega]
  · rw [getLsbD_intOut _ h, BitVec.getLsbD_ushiftRight, BitVec.getLsbD_setWidth, BitVec.getLsbD_setWidth, Nat.add_comm]
    by_cases hb : i + b.toNat < intBits ty
    · simp [hb, hb.trans_le hn]
    · simp [hb]

theorem getLsbD_sarVal {ty : IntTy} {i : Nat} (a b : Word) (h : i < intBits ty) :
    (sarVal ty a b).getLsbD i = a.getLsbD (min (i + b.toNat) (intBits ty - 1)) := by
  have hn := intBits_le ty
  have hpos := intBits_pos ty
  have hi : ¬64 ≤ i := by omega
  rw [sarVal, getLsbD_intOut _ h, BitVec.getLsbD_sshiftRight, BitVec.msb_eq_getLsbD_last, decide_eq_false hi, Bool.not_false, Bool.true_and]
  split <;> exact (getLsbD_signExtend_setWidth a hpos (by omega)).trans (congrArg a.getLsbD (by omega))

theorem getLsbD_rotVal {ty : IntTy} {i : Nat} (a b : Word) (h : i < intBits ty) :
    (rotVal ty a b).getLsbD i = a.getLsbD ((i + intBits ty - b.toNat % intBits ty) % intBits ty) := by
  have hr : b.toNat % intBits ty < intBits ty := Nat.mod_lt _ (intBits_pos ty)
  have hi : i < 64 := h.trans_le (intBits_le ty)
  rw [rotVal, getLsbD_intOut _ h, BitVec.getLsbD_setWidth, BitVec.getLsbD_rotateLeft_of_le hr]
  generalize b.toNat % intBits ty = r at hr ⊢
  by_cases hir : i < r
  · rw [Nat.mod_eq_of_lt (by omega), show i + intBits ty - r = intBits ty - r + i by omega]
    simp [hir, hi, show intBits ty - r + i < intBits ty by omega]
  · rw [show i + intBits ty - r = i - r + intBits ty by omega, Nat.add_mod_right, Nat.mod_eq_of_lt (by omega)]
    simp [hir, h, hi, show i - r < intBits ty by omega]

theorem intOut_shlVal (ty : IntTy) (a b : Word) : intOut ty (shlVal ty a b) = shlVal ty a b := by
  unfold shlVal; split <;> simp

theorem intOut_shrVal (ty : IntTy) (a b : Word) : intOut ty (shrVal ty a b) = shrVal ty a b := by
  unfold shrVal; split <;> simp

/-! ### Counts and reversal (R105) -/

@[simp] theorem length_lowBits (n : Nat) (w : Word) : (lowBits n w).length = n := by simp [lowBits]

@[simp] theorem getElem_lowBits {n i : Nat} (w : Word) (h : i < (lowBits n w).length) : (lowBits n w)[i] = w.getLsbD i := by simp [lowBits]

theorem getElem_reverse_lowBits {n i : Nat} (w : Word) (h : i < (lowBits n w).reverse.length) :
    (lowBits n w).reverse[i] = w.getLsbD (n - 1 - i) := by simp

/-- The leading zeros of a list of bits reach to its first 1. -/
theorem length_takeWhile_not (l : List Bool) : (l.takeWhile (!·)).length = l.findIdx id := by
  rw [List.takeWhile_eq_take_findIdx_not, List.length_take, min_eq_left List.findIdx_le_length]
  exact congrArg (List.findIdx · l) (funext Bool.not_not)

theorem toNat_ofNat_of_le_intBits (ty : IntTy) {k : Nat} (h : k ≤ intBits ty) : (BitVec.ofNat 64 k).toNat = k := by
  have hn := intBits_le ty
  rw [BitVec.toNat_ofNat, Nat.mod_eq_of_lt (by omega)]

theorem toNat_leadingZeros {ty : IntTy} {l : List Bool} (h : l.length = intBits ty) :
    (BitVec.ofNat 64 (l.takeWhile (!·)).length).toNat = l.findIdx id := by
  rw [length_takeWhile_not, toNat_ofNat_of_le_intBits ty (h ▸ List.findIdx_le_length)]

theorem toNat_ctzVal (ty : IntTy) (a : Word) : (ctzVal ty a).toNat = (lowBits (intBits ty) a).findIdx id :=
  toNat_leadingZeros (length_lowBits _ a)

theorem toNat_clzVal (ty : IntTy) (a : Word) : (clzVal ty a).toNat = (lowBits (intBits ty) a).reverse.findIdx id :=
  toNat_leadingZeros (ty := ty) (by simp)

theorem toNat_ctzVal_le (ty : IntTy) (a : Word) : (ctzVal ty a).toNat ≤ intBits ty :=
  toNat_ctzVal ty a ▸ List.findIdx_le_length.trans_eq (by simp)

theorem toNat_clzVal_le (ty : IntTy) (a : Word) : (clzVal ty a).toNat ≤ intBits ty :=
  toNat_clzVal ty a ▸ List.findIdx_le_length.trans_eq (by simp)

theorem getLsbD_below_ctzVal {ty : IntTy} {a : Word} {i : Nat} (h : i < (ctzVal ty a).toNat) : a.getLsbD i = false := by
  rw [toNat_ctzVal] at h
  simpa using List.not_of_lt_findIdx h

theorem getLsbD_ctzVal {ty : IntTy} {a : Word} (h : (ctzVal ty a).toNat < intBits ty) : a.getLsbD (ctzVal ty a).toNat = true := by
  rw [toNat_ctzVal] at h ⊢
  rw [← getElem_lowBits a (by simpa using h)]
  exact List.findIdx_getElem (p := id)

theorem getLsbD_above_clzVal {ty : IntTy} {a : Word} {i : Nat} (hlow : intBits ty - (clzVal ty a).toNat ≤ i) (h : i < intBits ty) :
    a.getLsbD i = false := by
  rw [toNat_clzVal] at hlow
  have hlt : intBits ty - 1 - i < (lowBits (intBits ty) a).reverse.findIdx id := by omega
  have hbit := List.not_of_lt_findIdx hlt
  rwa [getElem_reverse_lowBits, Nat.sub_sub_self (Nat.le_sub_one_of_lt h)] at hbit

theorem getLsbD_clzVal {ty : IntTy} {a : Word} (h : (clzVal ty a).toNat < intBits ty) :
    a.getLsbD (intBits ty - 1 - (clzVal ty a).toNat) = true := by
  rw [toNat_clzVal] at h ⊢
  rw [← getElem_reverse_lowBits a (by simpa using h)]
  exact List.findIdx_getElem (p := id)

theorem toNat_popcVal (ty : IntTy) (a : Word) :
    (popcVal ty a).toNat = ((List.range (intBits ty)).filter fun i => a.getLsbD i).length := by
  have hle : (lowBits (intBits ty) a).countP id ≤ intBits ty := by simpa using List.countP_le_length (p := id) (l := lowBits (intBits ty) a)
  rw [popcVal, toNat_ofNat_of_le_intBits ty hle, lowBits, List.countP_map, List.countP_eq_length_filter]
  rfl

theorem getLsbD_wordOfBits (l : List Bool) {i : Nat} (hi : i < 64) : (wordOfBits l).getLsbD i = l.getD i false := by
  induction l generalizing i with
  | nil => simp [wordOfBits]
  | cons x r ih =>
    have hcons : wordOfBits (x :: r) = (wordOfBits r <<< 1) ||| (if x then 1 else 0) := rfl
    rw [hcons, BitVec.getLsbD_or, BitVec.getLsbD_shiftLeft]
    cases i with
    | zero => cases x <;> simp
    | succ i => cases x <;> simp [ih (show i < 64 by omega), hi]

theorem getLsbD_brevVal {ty : IntTy} {i : Nat} (a : Word) (h : i < intBits ty) :
    (brevVal ty a).getLsbD i = a.getLsbD (intBits ty - 1 - i) := by
  rw [brevVal, getLsbD_intOut _ h, getLsbD_wordOfBits _ (h.trans_le (intBits_le ty))]
  simp [h]

/-! ### Bit fields (R106) -/

/-- The length w of the field that `fieldOf` gives, cut at bit n − 1. -/
def fieldLen (ty : IntTy) (b : Word) : Nat := min (b.toNat / 256 % 256) (intBits ty - b.toNat % 256)

theorem fieldOf_eq_none {ty : IntTy} {b : Word} (h : fieldLen ty b = 0) : fieldOf ty b = none := by
  unfold fieldLen at h
  exact if_pos (by omega)

theorem fieldOf_eq_some {ty : IntTy} {b : Word} (h : fieldLen ty b ≠ 0) : fieldOf ty b = some (b.toNat % 256, fieldLen ty b) := by
  have hcut : ¬(intBits ty ≤ b.toNat % 256 ∨ b.toNat / 256 % 256 = 0) := by unfold fieldLen at h; omega
  exact if_neg hcut

theorem bfxVal_of_fieldLen_zero {ty : IntTy} {b : Word} (a : Word) (h : fieldLen ty b = 0) : bfxVal ty a b = 0 := by
  simp only [bfxVal, fieldOf_eq_none h]

theorem bfiVal_of_fieldLen_zero {ty : IntTy} {b : Word} (a c : Word) (h : fieldLen ty b = 0) : bfiVal ty a b c = intOut ty a := by
  simp only [bfiVal, fieldOf_eq_none h]

theorem getLsbD_bfxVal {ty : IntTy} {b : Word} {i : Nat} (a : Word) (hf : fieldLen ty b ≠ 0) (h : i < intBits ty) :
    (bfxVal ty a b).getLsbD i =
      if i < fieldLen ty b then a.getLsbD (b.toNat % 256 + i) else intSigned ty && a.getLsbD (b.toNat % 256 + fieldLen ty b - 1) := by
  have hi : i < 64 := h.trans_le (intBits_le ty)
  simp only [bfxVal, fieldOf_eq_some hf]
  rw [getLsbD_intOut _ h]
  generalize fieldLen ty b = w at hf
  cases hs : intSigned ty
  · simp [hi]
  · simp only [if_true, getLsbD_signExtend_setWidth _ (Nat.pos_of_ne_zero hf) hi, BitVec.getLsbD_ushiftRight, Bool.true_and]
    split
    · rw [min_eq_left (by omega)]
    · rw [min_eq_right (by omega), Nat.add_sub_assoc (by omega)]

/-- The mask of BFI has its 1s in the field. -/
theorem getLsbD_fieldMask (w p : Nat) {i : Nat} (hi : i < 64) :
    ((BitVec.allOnes w).setWidth 64 <<< p : Word).getLsbD i = decide (p ≤ i ∧ i < p + w) := by
  rw [BitVec.getLsbD_shiftLeft, BitVec.getLsbD_setWidth, BitVec.getLsbD_allOnes, Bool.eq_iff_iff]
  simp only [Bool.and_eq_true, Bool.not_eq_true', decide_eq_true_eq, decide_eq_false_iff_not]
  omega

theorem getLsbD_bfiVal {ty : IntTy} {b : Word} {i : Nat} (a c : Word) (hf : fieldLen ty b ≠ 0) (h : i < intBits ty) :
    (bfiVal ty a b c).getLsbD i =
      if b.toNat % 256 ≤ i ∧ i < b.toNat % 256 + fieldLen ty b then c.getLsbD (i - b.toNat % 256) else a.getLsbD i := by
  have hi : i < 64 := h.trans_le (intBits_le ty)
  simp only [bfiVal, fieldOf_eq_some hf]
  rw [getLsbD_intOut _ h]
  generalize fieldLen ty b = w
  generalize b.toNat % 256 = p
  rw [BitVec.getLsbD_or, BitVec.getLsbD_and, BitVec.getLsbD_and, BitVec.getLsbD_not, getLsbD_fieldMask w p hi, BitVec.getLsbD_shiftLeft]
  by_cases hin : p ≤ i ∧ i < p + w
  · simp [hin, hi, Nat.not_lt.2 hin.1]
  · simp [hin, hi]

theorem intOut_bfxVal (ty : IntTy) (a b : Word) : intOut ty (bfxVal ty a b) = bfxVal ty a b := by
  unfold bfxVal; split <;> simp

theorem intOut_bfiVal (ty : IntTy) (a b c : Word) : intOut ty (bfiVal ty a b c) = bfiVal ty a b c := by
  unfold bfiVal; split <;> simp

/-- Settles O7: the ALU delivers these results, and each bit of a result is found through the operation that made it, below bit n alone. -/
theorem shiftAndCountBits : Obligations.ShiftAndCountBits := by
  refine ⟨fun ty f => ?delivers, fun ty a b c => ?bits⟩
  case delivers =>
    and_intros
    all_goals exact .of_alu fun _ => rfl
  case bits =>
    exact ⟨fun i hi => ⟨getLsbD_shlVal a b hi, getLsbD_shrVal a b hi, getLsbD_sarVal a b hi, getLsbD_rotVal a b hi⟩,
      intOut_shlVal ty a b, intOut_shrVal ty a b, intOut_idem ty _, intOut_idem ty _,
      toNat_clzVal_le ty a, toNat_ctzVal_le ty a, fun _ => getLsbD_above_clzVal, getLsbD_clzVal,
      fun _ => getLsbD_below_ctzVal, getLsbD_ctzVal, fun _ => getLsbD_brevVal a, toNat_popcVal ty a,
      intOut_idem ty _, intOut_bfxVal ty a b, intOut_bfiVal ty a b c,
      fun hw => ⟨bfxVal_of_fieldLen_zero a hw, bfiVal_of_fieldLen_zero a c hw⟩,
      fun i hi hw => ⟨getLsbD_bfxVal a hw hi, getLsbD_bfiVal a c hw hi⟩⟩

end Sys2Proof.Machine

/-! SUPPORT. Floating-point instructions and conversions deliver their results (O11, O12), and what the operations on a sign do to
an operand's bits (O13). -/

namespace Sys2Proof.Machine

/-! ### The sign bit (R120) -/

/-- Adding 2^k flips bit k and leaves the bits below it. -/
theorem testBit_two_pow_add {k i : Nat} (a : Nat) (h : i ≤ k) :
    (2 ^ k + a).testBit i = if i = k then !a.testBit i else a.testBit i := by
  split
  · next hik => rw [hik, Nat.testBit_two_pow_add_eq]
  · next hik => rw [Nat.testBit_two_pow_add_gt (by omega)]

theorem fsign_of_isNaN {x : FVal} (h : x.isNaN = true) (flip : Bool) (f : SFmt) (a : Nat) : fsign flip f x a = f.canonNaN := if_pos h

/-- FABS keeps the bits below the top one. -/
theorem testBit_fsign_false {f : SFmt} {x : FVal} (a : Nat) {i : Nat} (h : x.isNaN = false) (hi : i < f.width) :
    (fsign false f x a).testBit i = (decide (i ≠ f.width - 1) && a.testBit i) := by
  have hcut : fsign false f x a = a % 2 ^ (f.width - 1) := by simp [fsign, h]
  rw [hcut, Nat.testBit_mod_two_pow]
  congr 2
  exact propext ⟨by omega, by omega⟩

/-- FNEG takes the top bit's weight away where it is there and adds it where it is not, which flips that bit alone. -/
theorem testBit_fsign_true {f : SFmt} {x : FVal} (a : Nat) {i : Nat} (h : x.isNaN = false) (hi : i < f.width) :
    (fsign true f x a).testBit i = if i = f.width - 1 then !a.testBit i else a.testBit i := by
  have hle : i ≤ f.width - 1 := by omega
  have hflip : fsign true f x a = if 2 ^ (f.width - 1) ≤ a then a - 2 ^ (f.width - 1) else a + 2 ^ (f.width - 1) := by simp [fsign, h]
  rw [hflip]
  split
  · next htop =>
    obtain ⟨b, rfl⟩ := Nat.exists_eq_add_of_le htop
    rw [Nat.add_sub_cancel_left, testBit_two_pow_add b hle]
    split
    · rw [Bool.not_not]
    · rfl
  · rw [Nat.add_comm, testBit_two_pow_add a hle]

/-! ### The lesser and the greater operand (R119) -/

theorem fminmax_of_isNaN_left {x y : FVal} (hx : x.isNaN = true) (hy : y.isNaN = false) (isMax : Bool) (f : SFmt) (a b : Nat) :
    fminmax isMax f x y a b = b := by simp [fminmax, hx, hy]

theorem fminmax_of_isNaN_right {x y : FVal} (hx : x.isNaN = false) (hy : y.isNaN = true) (isMax : Bool) (f : SFmt) (a b : Nat) :
    fminmax isMax f x y a b = a := by simp [fminmax, hx, hy]

/-- Zeros compare equal, so their signs alone order them. -/
theorem flt_zeros (n1 n2 : Bool) (e1 e2 : Int) : flt (.fin n1 0 e1) (.fin n2 0 e2) = (n1 && !n2) := by
  have hcmp : FVal.cmp (.fin n1 0 e1) (.fin n2 0 e2) = .eq := by simp [FVal.cmp, FVal.units]
  rw [flt, hcmp]
  cases n1 <;> cases n2 <;> rfl

/-- Of +0 and −0 FMIN chooses −0, and of −0 and +0 FMAX chooses +0. -/
theorem fminmax_zeros (isMax : Bool) (f : SFmt) (e1 e2 : Int) (a b : Nat) :
    fminmax isMax f (.fin isMax 0 e1) (.fin (!isMax) 0 e2) a b = b := by
  cases isMax <;> simp [fminmax, FVal.isNaN, flt_zeros]

theorem decodeFmt_plus_zero (ft : FTy) : decodeFmt (fmtOfTy ft) 0 = .fin false 0 (fmtOfTy ft).qmin := by cases ft <;> rfl

theorem decodeFmt_minus_zero (ft : FTy) :
    decodeFmt (fmtOfTy ft) (2 ^ ((fmtOfTy ft).width - 1)) = .fin true 0 (fmtOfTy ft).qmin := by cases ft <;> rfl

/-- Settles O13: FABS cuts the top bit off and FNEG flips it; FMIN and FMAX look at NaNs first, and two zeros compare by their signs. -/
theorem floatSigns : Obligations.FloatSigns := by
  intro ft w t n a x
  refine ⟨fun hx i hi => ?bits, fun hx => ⟨?absNaN, ?negNaN, fun y b hy => ?otherOperand⟩, ?minOfZeros, ?maxOfZeros⟩
  case bits => exact ⟨testBit_fsign_false a hx hi, testBit_fsign_true a hx hi⟩
  case absNaN => exact fsign_of_isNaN hx false t a
  case negNaN => exact fsign_of_isNaN hx true t a
  case otherOperand =>
    exact ⟨fminmax_of_isNaN_left hx hy false t a b, fminmax_of_isNaN_left hx hy true t a b,
      fminmax_of_isNaN_right hy hx false t b a, fminmax_of_isNaN_right hy hx true t b a⟩
  case minOfZeros =>
    rw [decodeFmt_plus_zero, decodeFmt_minus_zero]
    exact fminmax_zeros false t _ _ _ _
  case maxOfZeros =>
    rw [decodeFmt_plus_zero, decodeFmt_minus_zero]
    exact fminmax_zeros true t _ _ _ _

/-! ### Deliveries (R115 to R130) -/

/-- Settles O11: each of these is the ALU's with its rounded result, or the operand it chooses, as its operation. -/
theorem floatArithmetic : Obligations.FloatArithmetic := by
  intro ft r f t
  and_intros
  all_goals exact .of_alu fun _ => rfl

/-- Settles O12: each of these is the ALU's with its result as the operation; ICVT takes the branch of its direction. -/
theorem floatConversions : Obligations.FloatConversions := by
  intro ft r f
  refine ⟨?frcp, ?frsq, ?fex2, ?flg2, ?fsin, ?fcos, ?ftanh, ?fcls, fun c => ?fcmp, fun ty => ⟨?toInt, ?ofInt⟩, fun src dst sat => ?fcvt⟩
  all_goals exact .of_alu fun _ => rfl

end Sys2Proof.Machine

/-! SUPPORT. What the operations that execute a program's instructions leave alone (O58, O59): one relation between the state
before and after, and one lemma per operation that says it holds. -/

namespace Sys2Proof.Machine

/-! ### The relation -/

/-- What an instruction may do before its chord commits, beyond what every instruction may. -/
structure Uses where
  /-- It makes hypotheses (R353). -/
  forks : Bool := false
  /-- It takes frames from the heap and clears them (R174). -/
  allots : Bool := false
  /-- Lines may enter and leave the L2 for it (R255). -/
  caches : Bool := false
  /-- The core's earlier writes may land first (R162, R210, R214). -/
  lands : Bool := false

/-- The parts of a core that no instruction changes before its chord commits. -/
def Core.spared (k : Core) : Core :=
  { entries := k.entries, fifo := k.fifo, bins := k.bins, roles := k.roles, rings := k.rings, streams := k.streams, mxe := k.mxe }

/-- The same with its chords and its memory of frames and slots. -/
def Core.held (k : Core) : Core := { k.spared with chords := k.chords, sram := k.sram, allocs := k.allocs }

/-- The same with what it has written and no home has accepted. -/
def Core.still (k : Core) : Core := { k.held with homeQ := k.homeQ, l1 := k.l1 }

theorem Core.of_held_eq {k k' : Core} (h : k'.held = k.held) :
    k'.spared = k.spared ∧ k'.chords = k.chords ∧ k'.sram = k.sram ∧ k'.allocs = k.allocs :=
  ⟨(congrArg Core.spared h :), (congrArg Core.chords h :), (congrArg Core.sram h :), (congrArg Core.allocs h :)⟩

theorem Core.of_still_eq {k k' : Core} (h : k'.still = k.still) : k'.held = k.held ∧ k'.homeQ = k.homeQ ∧ k'.l1 = k.l1 :=
  ⟨(congrArg Core.held h :), (congrArg Core.homeQ h :), (congrArg Core.l1 h :)⟩

/-- The core has no write on its way to a home and no dirty byte in its L1. -/
def State.Clean (s : State) (c : Nat) : Prop := (s.core c).homeQ = [] ∧ ∀ l ∈ (s.core c).l1, l.dirty = 0

/-- Everything but package memory that an instruction leaves as it was. -/
structure State.Frame (u : Uses) (s t : State) : Prop where
  owners : t.ownersPart = s.ownersPart
  acts : t.acts = s.acts
  net : t.net = s.net
  ctxs : u.forks = false → t.ctxs = s.ctxs
  focusCore : t.flow.focusCore = s.flow.focusCore
  focusSlot : t.flow.focusSlot = s.flow.focusSlot
  chords : ∀ c slot, (c, slot) ≠ (s.flow.focusCore, s.flow.focusSlot) → t.chord? c slot = s.chord? c slot
  cores : ∀ c, (t.core c).spared = (s.core c).spared
  heap : u.allots = false → ∀ c, (t.core c).sram = (s.core c).sram ∧ (t.core c).allocs = (s.core c).allocs

/-- Package memory is as it was, but for which lines the L2 holds. -/
structure State.SameMem (caches : Bool) (s t : State) : Prop where
  mem : t.homes.mem = s.homes.mem
  opens : t.homes.opens = s.homes.opens
  marks : ∀ l, (t.line l).poison = (s.line l).poison ∧ (t.line l).sticky = (s.line l).sticky
  lines : caches = false → t.homes.lines = s.homes.lines

/-- What an instruction of a core leaves as it was: the frame, and package memory, if nothing of the core's own is left to land where
the instruction lets its writes land. -/
structure State.Spares (u : Uses) (c : Nat) (s t : State) : Prop extends State.Frame u s t where
  clean : s.Clean c → t.Clean c
  memory : (u.lands = true → s.Clean c) → s.SameMem u.caches t

/-- What no update of the homes alone, nor of what the relation does not speak of, changes. -/
def State.outer (s : State) : State :=
  { s.ownersPart with acts := s.acts, net := s.net, ctxs := s.ctxs, cores := s.cores
                      flow := { focusCore := s.flow.focusCore, focusSlot := s.flow.focusSlot } }

/-- The part of the homes that the relation speaks of. -/
def Homes.kept (h : Homes) : Homes := { mem := h.mem, opens := h.opens, lines := h.lines }

section
variable {u v : Uses} {c : Nat} {s t w : State} {b : Bool}

namespace State.SameMem

theorem refl (b : Bool) (s : State) : s.SameMem b s := ⟨rfl, rfl, fun _ => ⟨rfl, rfl⟩, fun _ => rfl⟩

theorem trans (h : s.SameMem b t) (h' : t.SameMem b w) : s.SameMem b w where
  mem := h'.mem.trans h.mem
  opens := h'.opens.trans h.opens
  marks l := ⟨(h'.marks l).1.trans (h.marks l).1, (h'.marks l).2.trans (h.marks l).2⟩
  lines hb := (h'.lines hb).trans (h.lines hb)

theorem of_kept (h : t.homes.kept = s.homes.kept) : s.SameMem b t := by
  have hlines : t.homes.lines = s.homes.lines := (congrArg Homes.lines h :)
  exact ⟨(congrArg Homes.mem h :), (congrArg Homes.opens h :), fun l => by simp [State.line, hlines], fun _ => hlines⟩

end State.SameMem

namespace State.Frame

theorem refl (u : Uses) (s : State) : s.Frame u s :=
  ⟨rfl, rfl, rfl, fun _ => rfl, rfl, rfl, fun _ _ _ => rfl, fun _ => rfl, fun _ _ => ⟨rfl, rfl⟩⟩

theorem trans (h : s.Frame u t) (h' : t.Frame u w) : s.Frame u w where
  owners := h'.owners.trans h.owners
  acts := h'.acts.trans h.acts
  net := h'.net.trans h.net
  ctxs hf := (h'.ctxs hf).trans (h.ctxs hf)
  focusCore := h'.focusCore.trans h.focusCore
  focusSlot := h'.focusSlot.trans h.focusSlot
  chords c slot hne := (h'.chords c slot (by rwa [h.focusCore, h.focusSlot])).trans (h.chords c slot hne)
  cores c := (h'.cores c).trans (h.cores c)
  heap ha c := ⟨((h'.heap ha c).1).trans (h.heap ha c).1, ((h'.heap ha c).2).trans (h.heap ha c).2⟩

theorem mono (h : s.Frame u t) (hf : u.forks = true → v.forks = true) (ha : u.allots = true → v.allots = true) : s.Frame v t :=
  { h with
    ctxs := fun hv => h.ctxs (Bool.eq_false_iff.2 fun hu => by simp [hf hu] at hv)
    heap := fun hv => h.heap (Bool.eq_false_iff.2 fun hu => by simp [ha hu] at hv) }

/-- An update of nothing that the frame is about. -/
theorem of_outer (h : t.outer = s.outer) : s.Frame u t := by
  have hcores : t.cores = s.cores := (congrArg State.cores h :)
  exact {
    owners := (congrArg State.ownersPart h :)
    acts := (congrArg State.acts h :)
    net := (congrArg State.net h :)
    ctxs := fun _ => (congrArg State.ctxs h :)
    focusCore := (congrArg (fun s : State => s.flow.focusCore) h :)
    focusSlot := (congrArg (fun s : State => s.flow.focusSlot) h :)
    chords := fun c slot _ => by simp only [State.chord?, State.core, hcores]
    cores := fun c => by simp only [State.core, hcores]
    heap := fun _ c => by simp only [State.core, hcores, and_self] }

/-- An update of one core that keeps what the frame is about. -/
theorem modCore (s : State) (d : Nat) {f : Core → Core} (h : (f (s.core d)).held = (s.core d).held) : s.Frame u (s.modCore d f) where
  owners := rfl
  acts := rfl
  net := rfl
  ctxs _ := rfl
  focusCore := rfl
  focusSlot := rfl
  chords c slot _ := by
    by_cases hc : c = d
    · subst hc; simp [State.chord?, (Core.of_held_eq h).2.1]
    · simp [State.chord?, State.core_modCore_other _ _ hc]
  cores c := by
    by_cases hc : c = d
    · subst hc; simp [(Core.of_held_eq h).1]
    · simp [State.core_modCore_other _ _ hc]
  heap _ c := by
    by_cases hc : c = d
    · subst hc; simp [(Core.of_held_eq h).2.2]
    · simp [State.core_modCore_other _ _ hc]

/-- Putting the chord at the focus back. -/
theorem setFocus (s : State) (ch : Chord) : s.Frame u (s.setFocus ch) where
  owners := rfl
  acts := rfl
  net := rfl
  ctxs _ := rfl
  focusCore := rfl
  focusSlot := rfl
  chords c slot hne := s.chord_setChord_other ch hne
  cores c := by
    simp only [State.setFocus, State.setChord, State.modCore, State.core_setCore]
    split
    · next hc => subst hc; rfl
    · rfl
  heap _ c := by
    simp only [State.setFocus, State.setChord, State.modCore, State.core_setCore]
    split
    · next hc => subst hc; exact ⟨rfl, rfl⟩
    · exact ⟨rfl, rfl⟩

theorem foldl {α : Type} {f : State → α → State} (hf : ∀ s x, State.Frame u s (f s x)) (l : List α) (s : State) : s.Frame u (l.foldl f s) := by
  induction l generalizing s with
  | nil => exact refl u s
  | cons x r ih => exact (hf s x).trans (ih _)

end State.Frame

namespace State.Spares

theorem refl (u : Uses) (c : Nat) (s : State) : s.Spares u c s :=
  { State.Frame.refl u s with clean := id, memory := fun _ => .refl _ s }

theorem trans (h : s.Spares u c t) (h' : t.Spares u c w) : s.Spares u c w :=
  { h.toFrame.trans h'.toFrame with
    clean := h'.clean ∘ h.clean
    memory := fun hl => (h.memory hl).trans (h'.memory fun hu => h.clean (hl hu)) }

/-- An update of nothing that the relation is about. -/
theorem of_outer (h : t.outer = s.outer) (hm : t.homes.kept = s.homes.kept) : s.Spares u c t := by
  have hcores : t.cores = s.cores := (congrArg State.cores h :)
  exact { State.Frame.of_outer h with
    clean := by simp only [State.Clean, State.core, hcores, imp_self]
    memory := fun _ => .of_kept hm }

/-- An update of one core that keeps what the relation is about. -/
theorem modCore (s : State) (d : Nat) {f : Core → Core} (h : (f (s.core d)).still = (s.core d).still) :
    s.Spares u c (s.modCore d f) :=
  { State.Frame.modCore s d (Core.of_still_eq h).1 with
    clean := by
      by_cases hc : c = d
      · subst hc
        simp only [State.Clean, State.core_modCore_same, (Core.of_still_eq h).2, imp_self]
      · simp only [State.Clean, State.core_modCore_other _ _ hc, imp_self]
    memory := fun _ => .of_kept rfl }

theorem setFocus (s : State) (ch : Chord) : s.Spares u c (s.setFocus ch) :=
  { State.Frame.setFocus s ch with
    clean := by
      simp only [State.Clean, State.setFocus, State.setChord, State.modCore, State.core_setCore]
      split
      · next hc => subst hc; exact id
      · exact id
    memory := fun _ => .of_kept rfl }

theorem foldl {α : Type} {f : State → α → State} (hf : ∀ s x, State.Spares u c s (f s x)) (l : List α) (s : State) :
    s.Spares u c (l.foldl f s) := by
  induction l generalizing s with
  | nil => exact refl u c s
  | cons x r ih => exact (hf s x).trans (ih _)

end State.Spares

/-- Asking for bytes beyond the package spares everything. -/
theorem State.AsksOnly.spares (h : s.AsksOnly t) : s.Spares u c t := by
  obtain ⟨he, ho⟩ := h
  rw [he] at ho ⊢
  exact .of_outer (congrArg (fun o : State => { o with acts := s.acts, net := s.net, ctxs := s.ctxs, cores := s.cores
                                                       flow := { focusCore := s.flow.focusCore, focusSlot := s.flow.focusSlot } }) ho) rfl

end

end Sys2Proof.Machine

namespace Sys2Proof.Machine

variable {u : Uses} {c : Nat} {s t : State}

namespace State

/-! ### Numbers, events and refusals (R411, R421) -/

theorem newId_spares (s : State) : s.Spares u c s.newId.2 := .of_outer rfl rfl
theorem bump_spares (s : State) : s.Spares u c s.bump := .of_outer rfl rfl
theorem pick_spares (s : State) (n : Nat) : s.Spares u c (s.pick n).2 := .of_outer rfl rfl
theorem forgetJob_spares (s : State) (w : Who) : s.Spares u c (s.forgetJob w) := .of_outer rfl rfl
theorem deny_spares (s : State) : s.Spares u c s.deny := .of_outer rfl rfl
theorem modSlice_spares (s : State) (n : Nat) (f : Slice → Slice) : s.Spares u c (s.modSlice n f) := .of_outer rfl rfl
theorem sendHost_spares (s : State) (n : BitVec 12) (id : Nat) (o : HostOut) (what : Pending) : s.Spares u c (s.sendHost n id o what) :=
  .of_outer rfl rfl

theorem event_spares (s : State) (e : Event) : s.Spares u c (s.event e) := by
  unfold State.event
  dsimp only
  repeat' split
  all_goals exact .of_outer rfl rfl

theorem denyIf_spares (s : State) (b : Bool) : s.Spares u c (s.denyIf b) := by
  unfold State.denyIf
  split
  · exact s.deny_spares
  · exact .refl u c s

theorem denyRoute_spares (s : State) (n : BitVec 12) (d : TokenDest) (dest : Word) : s.Spares u c (s.denyRoute n d dest) := by
  unfold State.denyRoute
  split
  · exact s.denyIf_spares _
  · exact .refl u c s

/-! ### Translation and the checks of an access (R154 to R159, R388 to R398) -/

theorem cachePut_spares {α : Type} [DecidableEq α] (s : State) (cap : Nat) (l : List α) (x : α) : s.Spares u c (s.cachePut cap l x).2 := by
  unfold State.cachePut
  split
  · exact .refl u c s
  · split
    · exact .refl u c s
    · exact s.pick_spares cap

theorem cachePath_spares (path : List NonLeaf) {p : List NonLeaf × State} (hp : s.Spares u c p.2) :
    s.Spares u c (path.foldl (fun (p : List NonLeaf × State) e => State.cachePut p.2 Config.sliceNonLeaves p.1 e) p).2 :=
  List.foldlRecOn (motive := fun p : List NonLeaf × State => s.Spares u c p.2) path _ hp
    fun _ hp _ _ => hp.trans (cachePut_spares _ _ _ _)

theorem setCaches_spares (s : State) (ls : NMap (List Leaf)) (ns : NMap (List NonLeaf)) :
    s.Spares u c { s with xlt := { s.xlt with leaves := ls, nonLeaves := ns } } := .of_outer rfl rfl

theorem fillXlt_spares (s : State) (w : Who) (va : Nat) : s.Spares u c (s.fillXlt w va) := by
  unfold State.fillXlt
  dsimp only
  split
  · split
    · exact (s.cachePut_spares _ _ _).trans (.modCore _ _ rfl)
    · exact .refl u c s
  · split
    · next path _ =>
      split
      · refine Spares.trans ?_ (Spares.modCore _ _ rfl)
        refine Spares.trans ?_ (cachePut_spares _ _ _ _)
        refine Spares.trans ?_ (setCaches_spares _ _ _)
        exact cachePath_spares path.reverse (s.cachePut_spares _ _ _)
      · refine Spares.trans ?_ (setCaches_spares _ _ _)
        exact cachePath_spares path.reverse (s.cachePut_spares _ _ _)
    · exact .refl u c s

theorem openFault_spares {w : Who} {va : Nat} {id : BitVec 32} (h : s.openFault w va = some (id, t)) : s.Spares u c t := by
  unfold State.openFault at h
  dsimp only at h
  split at h
  · cases h
    exact .refl u c s
  · split at h
    · cases h
    · cases h
      refine Spares.trans ?_ (event_spares _ _)
      exact .of_outer rfl rfl

end State

/-- The state that checks leave spares what it must. -/
def Checked.Spares (u : Uses) (c : Nat) (s : State) : Checked → Prop
  | .ok _ t => s.Spares u c t
  | .trap _ t => s.Spares u c t
  | .wait => True

namespace State

theorem checkPages_spares (s : State) (w : Who) (a n : Nat) (k : AccKind) : (s.checkPages w a n k).Spares u c s := by
  unfold State.checkPages
  dsimp only
  split
  · exact Spares.refl u c s
  · split
    · split
      · next h => exact openFault_spares h
      · trivial
    · split
      · exact Spares.refl u c s
      · split
        · split
          · exact s.deny_spares
          · exact Spares.refl u c s
        · split
          · exact Spares.refl u c s
          · exact Spares.foldl (fun s p => s.fillXlt_spares w p) _ s

theorem check_spares (s : State) (core : Nat) (w : Who) (a : Word) (n align : Nat) (k : AccKind) (only0 atomic : Bool) :
    (s.check core w a n align k only0 atomic).Spares u c s := by
  have hpages := s.checkPages_spares (u := u) (c := c) w a.toNat n k
  unfold State.check
  split
  · exact Spares.refl u c s
  · split
    · exact Spares.refl u c s
    · split
      · exact Spares.refl u c s
      · split
        · split
          · next h =>
            rw [h] at hpages
            split <;> exact hpages
          · exact hpages
        · dsimp only
          split <;> exact Spares.refl u c s

variable {core : Nat} {w : Who} {a : Word} {n align : Nat} {k : AccKind} {only0 atomic : Bool} {pl : List Place} {tr : Trap}

theorem check_ok_spares (h : s.check core w a n align k only0 atomic = .ok pl t) : s.Spares u c t := by
  have := s.check_spares (u := u) (c := c) core w a n align k only0 atomic
  rwa [h] at this

theorem check_trap_spares (h : s.check core w a n align k only0 atomic = .trap tr t) : s.Spares u c t := by
  have := s.check_spares (u := u) (c := c) core w a n align k only0 atomic
  rwa [h] at this

/-! ### Lines in the L2 (R255, R256, R383) -/

theorem setLine_spares (hu : u.caches = true) (s : State) {l : Nat} {x : LineMeta} (hp : x.poison = (s.line l).poison)
    (hs : x.sticky = (s.line l).sticky) : s.Spares u c (s.setLine l x) :=
  { State.Frame.of_outer (t := s.setLine l x) rfl with
    clean := id
    memory := fun _ =>
      { mem := rfl
        opens := rfl
        marks := fun m => by
          rw [State.line_setLine]
          split
          · next hm => subst hm; exact ⟨hp, hs⟩
          · exact ⟨rfl, rfl⟩
        lines := by simp [hu] } }

theorem l2Leave_spares (hu : u.caches = true) (s : State) (line : Nat) : s.Spares u c (s.l2Leave line) := by
  unfold State.l2Leave
  refine s.setLine_spares hu ?_ ?_ <;> (split <;> rfl)

theorem l2Room_spares (hu : u.caches = true) (s : State) (pins : List Nat) (line : Nat) : s.Spares u c (s.l2Room pins line) := by
  unfold State.l2Room
  dsimp only
  split
  · exact .refl u c s
  · split
    · exact (s.pick_spares _).trans (l2Leave_spares hu _ _)
    · exact s.pick_spares _

theorem l2Enter_spares (hu : u.caches = true) (s : State) (pins : List Nat) (slot : BitVec 8) (line : Nat) :
    s.Spares u c (s.l2Enter pins slot line) := by
  unfold State.l2Enter
  split
  · exact .refl u c s
  · exact (s.l2Room_spares hu _ _).trans (setLine_spares hu _ rfl rfl)

theorem enterPlaces_spares (hu : u.caches = true) (s : State) (pl : List Place) : s.Spares u c (s.enterPlaces pl) := by
  refine .foldl (fun s p => ?_) pl s
  split
  · exact s.l2Enter_spares hu _ _ _
  · exact .refl u c s

theorem reserve_spares (hu : u.caches = true) {n : BitVec 12} {h : BitVec 8} {line : Nat} (hr : s.reserve n h line = some t) :
    s.Spares u c t := by
  unfold State.reserve at hr
  split at hr
  · cases hr
    exact .refl u c s
  · split at hr
    · cases hr
      exact (s.l2Room_spares hu _ _).trans (.of_outer rfl rfl)
    · cases hr

theorem reserveAll_spares (hu : u.caches = true) (s : State) (ch : Chord) (i l : Nat) (x : Lane) (ea : Word) (pl : List Place) :
    s.Spares u c (s.reserveAll ch i l x ea pl).2 := by
  unfold State.reserveAll
  split
  · exact .refl u c s
  · generalize (pl.filterMap placeLine).eraseDups = lines
    refine List.foldlRecOn (motive := fun p : List SpecWait × State => s.Spares u c p.2) lines _ (.refl u c s) fun p hp line _ => ?_
    split
    · next h => exact hp.trans (reserve_spares hu h)
    · exact hp

end State
end Sys2Proof.Machine

namespace Sys2Proof.Machine

variable {u : Uses} {c : Nat} {s t : State}

/-! ### Writes that land at their homes (R210, R221, R225, R259): what they leave alone beside memory -/

theorem Core.still_orSig (k : Core) (e : Nat) (x : Sig) : (k.orSig e x).still = k.still := by
  unfold Core.orSig
  split <;> rfl

namespace State

theorem l2Enter_frame (s : State) (pins : List Nat) (slot : BitVec 8) (line : Nat) : s.Frame u (s.l2Enter pins slot line) :=
  (s.l2Enter_spares (u := { caches := true }) (c := 0) rfl pins slot line).toFrame.mono nofun nofun

theorem sigLine_spares (s : State) (d : Nat) (p : BitVec 12) (line : Nat) : s.Spares u c (s.sigLine d p line) :=
  .modCore s d (Core.still_orSig _ _ _)

theorem signBy_frame (s : State) (w : Writer) (line : Nat) : s.Frame u (s.signBy w line) := by
  unfold State.signBy
  split
  · exact (s.sigLine_spares (c := 0) _ _ _).toFrame
  all_goals exact .of_outer rfl

theorem acceptLine_frame (s : State) (slot : BitVec 8) (line : Nat) (mask : Mask) (data : Line) :
    s.Frame u (s.acceptLine slot line mask data) := by
  unfold State.acceptLine
  split
  · exact .refl u s
  · exact (s.l2Enter_frame [] slot line).trans (.of_outer rfl)

theorem performWrite_frame (s : State) (w : Writer) (op : HomeOp) : s.Frame u (s.performWrite w op) := by
  unfold State.performWrite
  split
  · refine Frame.trans ?_ (signBy_frame _ _ _)
    split
    · exact s.acceptLine_frame _ _ _ _
    · exact .of_outer rfl
  all_goals exact .refl u s

theorem homeWrite_frame (s : State) (w : Writer) (op : HomeOp) : s.Frame u (s.homeWrite w op) := by
  unfold State.homeWrite
  split
  · dsimp only
    split
    · exact .of_outer rfl
    · exact s.performWrite_frame w _
  all_goals exact .refl u s

theorem acceptBytes_frame (s : State) (slot : BitVec 8) (pa : Nat) (bytes : List Byte) (w : Writer) :
    s.Frame u (s.acceptBytes slot pa bytes w) :=
  .foldl (fun s _ => s.homeWrite_frame w _) _ s

theorem acceptFlag_frame (s : State) (d pa : Nat) (slot : BitVec 8) (data : BitVec 64) (cached : Bool) :
    s.Frame u (s.acceptFlag d pa slot data cached) := by
  have hbytes := s.acceptBytes_frame (u := u) slot pa (bytesOfWord data) .other
  unfold State.acceptFlag
  dsimp only
  split
  · exact hbytes
  · exact hbytes.trans (sigLine_spares (c := 0) _ _ _ _).toFrame

theorem addReleaser_frame (s : State) (line : Nat) (p : BitVec 12) (d : BitVec 8) : s.Frame u (s.addReleaser line p d).2 := by
  unfold State.addReleaser
  dsimp only
  repeat' split
  all_goals exact .of_outer rfl

theorem performHomeOp_frame {d : Nat} {op : HomeOp} (h : s.performHomeOp d op = some t) : s.Frame u t := by
  unfold State.performHomeOp at h
  split at h
  · split at h <;> cases h
    exact s.homeWrite_frame _ _
  · split at h
    · cases h
    · split at h
      · cases h
        exact s.acceptFlag_frame _ _ _ _ _
      · split at h
        next pa _ _ _ _ _ _ _ ok s1 hadd =>
        have hrel := s.addReleaser_frame (u := u) (lineOf pa) s.pkg (BitVec.ofNat 8 d)
        rw [hadd] at hrel
        split at h <;> cases h
        exact hrel.trans (acceptFlag_frame _ _ _ _ _ _)
  · split at h <;> cases h
    exact .of_outer rfl

end State

theorem drainAux_frame {d : Nat} {l : List HomeOp} (h : drainAux d l s = some t) : s.Frame u t := by
  induction l generalizing s with
  | nil => cases h; exact .refl u _
  | cons op r ih =>
    unfold drainAux at h
    split at h
    · cases h
    · split at h
      · cases h
      · next s1 hp => exact (State.performHomeOp_frame hp).trans ((State.Frame.modCore s1 d rfl).trans (ih h))

namespace State

theorem drainHome_frame {d : Nat} (h : s.drainHome d = some t) : s.Frame u t := by
  unfold State.drainHome at h
  split at h
  · cases h
  · exact drainAux_frame h

theorem writeBackLine_frame (s : State) (d : Nat) (l : L1Line) : s.Frame u (s.writeBackLine d l) := by
  unfold State.writeBackLine
  split
  · exact .refl u s
  · exact .modCore s d rfl

/-! ### A core with nothing of its own to land (R212) -/

/-- Where nothing of the core's own is left to land, nothing lands. -/
theorem drainHome_of_clean (hc : s.Clean c) (h : s.drainHome c = some t) : t = s := by
  simp only [State.drainHome, hc.1, drainAux] at h
  split at h <;> cases h
  rfl

theorem writeBackLine_of_clean (hc : s.Clean c) {l : L1Line} (hl : l ∈ (s.core c).l1) : s.writeBackLine c l = s :=
  if_pos (hc.2 l hl)

theorem flushDirty_of_clean (hc : s.Clean c) (h : s.flushDirty c = some t) : t = s := by
  have hfold : (s.core c).l1.foldl (fun s l => s.writeBackLine c l) s = s :=
    List.foldlRecOn (motive := (· = s)) _ _ rfl fun _ he _ hl => by rw [he, writeBackLine_of_clean hc hl]
  rw [State.flushDirty, hfold] at h
  exact drainHome_of_clean hc h

/-- What changes nothing where nothing is left to land spares what it must, in an instruction that lets writes land. -/
theorem Spares.of_clean (hu : u.lands = true) (hf : s.Frame u t) (h : s.Clean c → t = s) : s.Spares u c t :=
  { hf with
    clean := fun hc => (h hc).symm ▸ hc
    memory := fun hl => (h (hl hu)).symm ▸ .refl _ s }

theorem drainHome_spares (hu : u.lands = true) (h : s.drainHome c = some t) : s.Spares u c t :=
  .of_clean hu (drainHome_frame h) fun hc => drainHome_of_clean hc h

theorem flushDirty_spares (hu : u.lands = true) (h : s.flushDirty c = some t) : s.Spares u c t :=
  .of_clean hu ((Frame.foldl (fun s l => s.writeBackLine_frame c l) _ s).trans (drainHome_frame h)) fun hc => flushDirty_of_clean hc h

/-! ### The L1 (R212, R213, R254, R381) -/

/-- An update of the core's L1 and its queue to the homes alone, after which a clean core is clean. -/
theorem Spares.of_l1 (s : State) {f : Core → Core} (h : (f (s.core c)).held = (s.core c).held)
    (hc : s.Clean c → (f (s.core c)).homeQ = [] ∧ ∀ l ∈ (f (s.core c)).l1, l.dirty = 0) : s.Spares u c (s.modCore c f) :=
  { State.Frame.modCore s c h with
    clean := by simpa only [State.Clean, State.core_modCore_same] using hc
    memory := fun _ => .of_kept rfl }

theorem dropLine_spares (s : State) (line : Nat) : s.Spares u c (s.dropLine c line) :=
  .of_l1 s rfl fun hc => ⟨hc.1, fun l hl => hc.2 l (List.mem_filter.1 hl).1⟩

theorem writeBackLine_spares (s : State) {l : L1Line} (hl : l ∈ (s.core c).l1) : s.Spares u c (s.writeBackLine c l) := by
  by_cases hd : l.dirty = 0
  · rw [State.writeBackLine, if_pos hd]
    exact .refl u c s
  · rw [State.writeBackLine, if_neg hd]
    exact .of_l1 s rfl fun hc => absurd (hc.2 l hl) hd

theorem flushLine_spares (s : State) (line : Nat) : s.Spares u c (s.flushLine c line) := by
  unfold State.flushLine
  split
  · next h => exact (s.writeBackLine_spares (List.mem_of_find?_eq_some h)).trans (dropLine_spares _ _)
  · exact .refl u c s

theorem retag_spares (s : State) (n : BitVec 12) (h : BitVec 8) (line : Nat) : s.Spares u c (s.retag c n h line) := by
  unfold State.retag
  split
  · split
    · exact .refl u c s
    · exact s.flushLine_spares line
  · exact .refl u c s

theorem l1Room_spares (s : State) (line : Nat) : s.Spares u c (s.l1Room c line) := by
  unfold State.l1Room
  dsimp only
  split
  · exact .refl u c s
  · split
    · exact (s.pick_spares _).trans (flushLine_spares _ _)
    · exact s.pick_spares _

theorem fillLine_spares (hu : u.caches = true) (s : State) (slot : BitVec 8) (n : BitVec 12) (h : BitVec 8) (line : Nat) :
    s.Spares u c (s.fillLine c slot n h line) := by
  have henter := s.l2Enter_spares (c := c) hu [] slot line
  unfold State.fillLine
  dsimp only
  refine { henter.toFrame.trans (Frame.modCore _ c rfl) with
    clean := fun hc => ?_
    memory := fun hu => (henter.memory hu).trans (.of_kept rfl) }
  obtain ⟨hq, hl⟩ := henter.clean hc
  simp only [State.Clean, State.core_modCore_same]
  refine ⟨hq, fun l hm => ?_⟩
  rcases List.mem_append.1 hm with hm | hm
  · exact hl l (List.mem_filter.1 hm).1
  · rw [List.mem_singleton.1 hm]
    cases hfind : (s.core c).l1.find? fun x => x.line == line with
    | none => rfl
    | some old => exact hc.2 old (List.mem_of_find?_eq_some hfind)

theorem l1Byte_spares (hu : u.caches = true) (hl : u.lands = true) {slot : BitVec 8} {n : BitVec 12} {h : BitVec 8} {pa : Nat}
    {b : Byte × Bool} (hb : s.l1Byte c slot n h pa = some (b, t)) : s.Spares u c t := by
  have hretag := s.retag_spares (u := u) (c := c) n h (lineOf pa)
  have hfetch {s1 s2 : State} (h1 : (s.retag c n h (lineOf pa)).drainHome c = some s1)
      (h2 : (if (s1.core c).l1.any (fun x => x.line == lineOf pa) then s1 else s1.l1Room c (lineOf pa)).drainHome c = some s2)
      (m : BitVec 12) : s.Spares u c (s2.fillLine c slot m h (lineOf pa)) := by
    have hroom : s1.Spares u c (if (s1.core c).l1.any (fun x => x.line == lineOf pa) then s1 else s1.l1Room c (lineOf pa)) := by
      split
      · exact .refl u c s1
      · exact s1.l1Room_spares _
    exact (hretag.trans (drainHome_spares hl h1)).trans ((hroom.trans (drainHome_spares hl h2)).trans (fillLine_spares hu s2 _ _ _ _))
  unfold State.l1Byte at hb
  dsimp only at hb
  split at hb
  · split at hb
    · cases hb
      exact hretag
    · split at hb
      · cases hb
      · next h1 =>
        split at hb <;> cases hb
        next h2 => exact hfetch h1 h2 _
  · split at hb
    · cases hb
    · next h1 =>
      split at hb <;> cases hb
      next h2 => exact hfetch h1 h2 _

end State
end Sys2Proof.Machine

namespace Sys2Proof.Machine

variable {u : Uses} {c : Nat} {s t : State}

/-! ### Reading places (R155, R156, R158) -/

theorem fillPlaces_spares (hu : u.caches = true) (hl : u.lands = true) {n : BitVec 12} {h : BitVec 8} {pl : List Place}
    (hf : fillPlaces c n h pl s = some t) : s.Spares u c t := by
  induction pl generalizing s with
  | nil => cases hf; exact .refl u c _
  | cons p r ih =>
    unfold fillPlaces at hf
    split at hf
    · cases hf
      exact .refl u c _
    · next heq =>
      cases heq
      obtain ⟨x, hx, hr⟩ := Option.bind_eq_some_iff.1 hf
      exact (State.l1Byte_spares hu hl hx).trans (ih hr)
    · next heq =>
      cases heq
      exact ih hf

theorem readEach_spares (hu : u.caches = true) (hl : u.lands = true) {n : BitVec 12} {h : BitVec 8} {pl : List Place}
    {v : List (Option Byte) × Bool} (hr : readEach c n h pl s = some (v, t)) : s.Spares u c t := by
  induction pl generalizing s v with
  | nil => cases hr; exact .refl u c _
  | cons p r ih =>
    unfold readEach at hr
    dsimp only at hr
    split at hr
    · cases hr
    · next s1 hone =>
      have hs1 : s.Spares u c s1 := by
        split at hone
        · obtain ⟨x, hx, he⟩ := Option.map_eq_some_iff.1 hone
          cases he
          exact State.l1Byte_spares hu hl hx
        · obtain ⟨x, hx, he⟩ := Option.map_eq_some_iff.1 hone
          cases he
          exact (State.drainHome_spares hl hx).trans (State.enterPlaces_spares hu _ _)
        all_goals
          cases hone
          exact .refl u c s
      split at hr <;> cases hr
      next hrest => exact hs1.trans (ih hrest)

theorem readPlaces_spares (hu : u.caches = true) (hl : u.lands = true) {n : BitVec 12} {h : BitVec 8} {pl : List Place}
    {v : List (Option Byte) × Bool} (hr : readPlaces c n h pl s = some (v, t)) : s.Spares u c t := by
  obtain ⟨s1, hf, he⟩ := Option.bind_eq_some_iff.1 hr
  exact (fillPlaces_spares hu hl hf).trans (readEach_spares hu hl he)

namespace State

theorem seek_later_spares {w : Who} {pl : List Place} (h : s.seek w pl = .later t) : s.Spares u c t := (seek_asksOnly h).spares

theorem sendAccess_spares (s : State) (d : BitVec 12) (a : Nat) (q : RemoteReq) (w : Pending) : s.Spares u c (s.sendAccess d a q w) :=
  (s.sendAccess_asksOnly d a q w).spares

/-! ### Loads (R160, R162, R163) -/

theorem askRun_spares (s : State) (ch : Chord) (who : ReplyTo) (what : Nat) (r : Nat × Nat × Place) :
    s.Spares u c (s.askRun ch who what r) := by
  unfold State.askRun
  split
  · exact s.newId_spares.trans (sendAccess_spares _ _ _ _ _)
  · exact s.newId_spares.trans (sendHost_spares _ _ _ _ _)
  · exact .refl u c s

theorem finishLoad_spares (s : State) (ch : Chord) (x : Lane) (fin : Fin) (pl : List Place) (raw : List (Option Byte)) (ea : Word)
    (acquire : Bool) : s.Spares u c (s.finishLoad ch x fin pl raw ea acquire).2 := by
  unfold State.finishLoad
  dsimp only
  split
  · exact .refl u c s
  · exact s.newId_spares.trans (.foldl (fun s r => s.askRun_spares ch _ _ r) _ _)

theorem clearOwn_spares (hl : u.lands = true) {pl : List Place} (h : s.clearOwn c pl = some t) : s.Spares u c t := by
  refine Spares.trans (.foldl (fun s p => ?_) pl s) (drainHome_spares hl h)
  split
  · exact s.flushLine_spares _
  · exact .refl u c s

theorem settle_spares (hl : u.lands = true) (h : s.settle c = some t) : s.Spares u c t := by
  obtain ⟨s1, hd, he⟩ := Option.bind_eq_some_iff.1 h
  split at he <;> cases he
  exact Spares.trans (.foldl (fun s i => s.modSlice_spares i _) _ s) (drainHome_spares hl hd)

theorem complete_spares (hl : u.lands = true) {sc : Scope} (h : s.complete c sc = some t) : s.Spares u c t := by
  unfold State.complete at h
  split at h
  · cases h
    exact .refl u c s
  · obtain ⟨s1, hf, hs⟩ := Option.bind_eq_some_iff.1 h
    exact (flushDirty_spares hl hf).trans (settle_spares hl hs)

end State

theorem awaitRead_spares (s : State) (w : Who) : s.Spares u c (awaitRead s w).2 := s.newId_spares

theorem loadBytes_spares (hu : u.caches = true) (hl : u.lands = true) {fin : Fin} {ch : Chord} {i : Nat} {x : Lane} {ea : Word} {r : LaneRes}
    (h : loadBytes fin s ch i x ea = some (r, t)) : s.Spares u s.flow.focusCore t := by
  unfold loadBytes at h
  dsimp only at h
  split at h
  · cases h
  · next hc =>
    cases h
    exact State.check_trap_spares hc
  · next hc =>
    have hcheck := State.check_ok_spares (u := u) (c := s.flow.focusCore) hc
    rw [hcheck.focusCore] at h
    split at h
    · cases h
    · next hr =>
      have hread := hcheck.trans (readPlaces_spares hu hl hr)
      split at h
      · cases h
        exact hread
      · obtain rfl : (State.finishLoad _ ch x fin _ _ ea false).2 = t := congrArg Prod.snd (Option.some.inj h)
        exact hread.trans (State.finishLoad_spares _ _ _ _ _ _ _ _)

/-! ### Instructions in a lane, and in all of them (R132, R205) -/

/-- What a body does in a lane spares what an instruction of these uses must. -/
def Body.Spares (u : Uses) (body : Body) : Prop :=
  ∀ ⦃s : State⦄ ⦃ch : Chord⦄ ⦃i l : Nat⦄ ⦃x : Lane⦄ ⦃v : Vals⦄ ⦃r : LaneRes⦄ ⦃t : State⦄,
    body s ch i l x v = some (r, t) → s.Spares u s.flow.focusCore t

/-- A body that answers the state it is given. -/
def Body.Still (body : Body) : Prop :=
  ∀ ⦃s : State⦄ ⦃ch : Chord⦄ ⦃i l : Nat⦄ ⦃x : Lane⦄ ⦃v : Vals⦄ ⦃r : LaneRes⦄ ⦃t : State⦄, body s ch i l x v = some (r, t) → t = s

theorem Body.Still.spares {body : Body} (h : body.Still) : body.Spares u := fun s _ _ _ _ _ _ _ hb => by
  rw [h hb]
  exact .refl u _ s

theorem runLanes_spares {sh : Shape} {f : Flds} {ch : Chord} {i : Nat} {body : Body} (hb : body.Spares u) {ls : List (Nat × Lane × Vals)}
    {out : List (Nat × LaneRes)} (h : runLanes sh f ch i body ls s = some (out, t)) : s.Spares u s.flow.focusCore t := by
  induction ls generalizing s out with
  | nil => cases h; exact .refl u _ _
  | cons p r ih =>
    obtain ⟨l, x, v⟩ := p
    unfold runLanes at h
    dsimp only at h
    split at h
    · cases h
    · next res s1 hone =>
      have hs1 : s.Spares u s.flow.focusCore s1 := by
        split at hone
        · exact hb hone
        · cases hone
          exact .refl u _ s
      have hs2 : s.Spares u s.flow.focusCore (if res.trap.isSome && x.doom.isSome then s else s1) := by
        split
        · exact .refl u _ s
        · exact hs1
      split at h <;> cases h
      next hrest => exact hs2.trans (hs2.focusCore ▸ ih hrest)

namespace State

theorem perform_spares {body : Body} (hb : body.Spares u) (s : State) (sh : Shape) (f : Flds) (len : Nat) (mem : Bool) :
    s.Spares u s.flow.focusCore (s.perform sh f len mem body) := by
  have hput (ch : Chord) : s.Spares u s.flow.focusCore (s.setFocus ch) := .setFocus s ch
  unfold State.perform
  split
  · exact .refl u _ s
  · split
    · split
      · exact .refl u _ s
      · exact hput _
      · next l x v r _ =>
        dsimp only
        generalize (if (f.u && _) = true then _ else (_ : Chord)) = ch
        split
        · split
          · split
            · exact .refl u _ s
            · next hone =>
              split
              · exact hput _
              · exact (hb hone).trans (.setFocus _ _)
          · exact hput _
        · split
          · exact .refl u _ s
          · next hrun => exact (runLanes_spares hb hrun).trans (.setFocus _ _)
    · exact .refl u _ s

theorem alu_spares (s : State) (sh : Shape) (f : Flds) (op : Vals → Word) : s.Spares u c (s.alu sh f op) := by
  unfold State.alu
  split
  · exact .refl u c s
  · split
    · split
      · exact .refl u c s
      · exact .setFocus s _
    · exact .refl u c s

theorem aluImm_spares (s : State) (f : ImmFlds) (v : Word) : s.Spares u c (s.aluImm f v) := by
  unfold State.aluImm
  split
  · exact .refl u c s
  · split
    · exact .setFocus s _
    · exact .refl u c s

theorem cross_spares (s : State) (sh : Shape) (f : Flds) (op : List (Nat × Vals) → Nat → Vals → Word) : s.Spares u c (s.cross sh f op) := by
  unfold State.cross
  split
  · exact .refl u c s
  · split
    · split
      · exact .refl u c s
      · exact .setFocus s _
    · exact .refl u c s

end State
end Sys2Proof.Machine

namespace Sys2Proof.Machine

variable {u : Uses} {c : Nat} {s t : State}

/-! ### Bodies that answer the state they are given -/

theorem chordEff_state (s : State) (ch : Chord) (e : Eff) (v : Word) : (chordEff s ch e v).2 = s := by
  unfold chordEff
  split
  · rfl
  · dsimp only
    split <;> rfl

/-- A body that buffers a chord effect (R266). -/
theorem Body.still_chordEff {e : Chord → State → Vals → Eff} {w : Word} :
    Body.Still fun s ch _ _ _ v => some (chordEff s ch (e ch s v) w) := by
  rintro s ch i l x v r t h
  have ht := congrArg Prod.snd (Option.some.inj h)
  rw [chordEff_state] at ht
  exact ht.symm

/-- A body that answers one result. -/
theorem Body.still_result {res : State → Chord → Nat → Nat → Lane → Vals → LaneRes} :
    Body.Still fun s ch i l x v => some (res s ch i l x v, s) := by
  rintro s ch i l x v r t ⟨⟩
  rfl

theorem launchBody_still (w : LaunchWord) : (launchBody w).Still := by
  intro s ch i l x v r t h
  unfold launchBody at h
  repeat' split at h
  all_goals cases h; rfl

theorem serveBody_still (kill : Bool) : (serveBody kill).Still := by
  intro s ch i l x v r t h
  unfold serveBody at h
  split at h <;> cases h <;> rfl

theorem cctlBody_still (op : CctlOp) : (cctlBody op).Still := by
  intro s ch i l x v r t h
  unfold cctlBody at h
  split at h <;> cases h <;> rfl

theorem bcinvBody_still : bcinvBody.Still := by
  intro s ch i l x v r t h
  unfold bcinvBody at h
  repeat' split at h
  all_goals cases h; rfl

theorem frmfBody_still : frmfBody.Still := by
  intro s ch i l x v r t h
  unfold frmfBody at h
  repeat' split at h
  all_goals cases h; rfl

theorem rgetBody_still (ring : Nat) : (rgetBody ring).Still := by
  intro s ch i l x v r t h
  unfold rgetBody at h
  dsimp only at h
  repeat' split at h
  all_goals cases h; rfl

theorem rputBody_still (ring : Nat) : (rputBody ring).Still := by
  intro s ch i l x v r t h
  unfold rputBody at h
  dsimp only at h
  repeat' split at h
  all_goals cases h; rfl

theorem rstatBody_still (ring : Nat) : (rstatBody ring).Still := by
  intro s ch i l x v r t h
  unfold rstatBody at h
  split at h <;> cases h <;> rfl

theorem strmBody_still (out : Bool) (w : StreamWord) (ring : Nat) : (strmBody out w ring).Still := by
  intro s ch i l x v r t h
  unfold strmBody at h
  extract_lets width at h
  split at h
  · cases h; rfl
  · split at h
    · cases h; rfl
    · split at h
      · cases h; rfl
      · exact Body.still_chordEff (e := fun _ _ v => .strm out ring v.b w) (i := i) (l := l) (x := x) h

theorem strmqBody_still (n : Nat) : (strmqBody n).Still := by
  intro s ch i l x v r t h
  unfold strmqBody at h
  split at h <;> cases h <;> rfl

theorem strmcBody_still (n : Nat) : (strmcBody n).Still := by
  intro s ch i l x v r t h
  unfold strmcBody at h
  split at h <;> cases h <;> rfl

theorem mxstatBody_still (slot : Nat) : (mxstatBody slot).Still := by
  intro s ch i l x v r t h
  unfold mxstatBody at h
  dsimp only at h
  split at h <;> cases h <;> rfl

theorem symkBody_still : symkBody.Still := by
  intro s ch i l x v r t h
  unfold symkBody at h
  split at h <;> cases h <;> rfl

theorem symsBody_still : symsBody.Still := by
  intro s ch i l x v r t h
  unfold symsBody at h
  split at h <;> cases h <;> rfl

theorem pselBody_still (w : SelWord) : (pselBody w).Still := by
  intro s ch i l x v r t h
  unfold pselBody at h
  dsimp only at h
  repeat' split at h
  all_goals cases h; rfl

theorem hresBody_still (refute : Bool) (d : TokenDest) : (hresBody refute d).Still := by
  intro s ch i l x v r t h
  unfold hresBody at h
  split at h <;> cases h <;> rfl

theorem hnoteBody_still : hnoteBody.Still := by
  intro s ch i l x v r t h
  unfold hnoteBody at h
  dsimp only at h
  split at h <;> cases h <;> rfl

/-! ### Tokens and spawns (R135, R138) -/

theorem sendBody_spares (d : TokenDest) : (sendBody d).Spares u := by
  intro s ch i l x v r t h
  unfold sendBody at h
  dsimp only at h
  split at h <;> cases h
  · exact s.denyRoute_spares _ _ _
  · exact .refl u _ s

theorem spawnBody_spares {d : TokenDest} {ch : Chord} {i l : Nat} {x : Lane} {v : Vals} {r : LaneRes}
    (h : spawnBody d s ch i l x v = some (r, t)) : s.Spares u c t := by
  have hctr : s.Spares u c (s.modCore s.flow.focusCore fun k =>
      { k with spawn := nput k.spawn ch.key (s.spawnCtr s.flow.focusCore ch.key + 1) }) := .modCore s _ rfl
  unfold spawnBody at h
  dsimp only at h
  split at h <;> cases h
  · exact hctr.trans (State.denyRoute_spares _ _ _ _)
  · exact hctr

theorem spawnLanes_spares {sh : Shape} {f : Flds} {d : TokenDest} {ch : Chord} (ls : List (Nat × Lane × Vals)) (s : State) :
    s.Spares u c (spawnLanes sh f d ch ls s).2 := by
  induction ls generalizing s with
  | nil => exact .refl u c s
  | cons p r ih =>
    obtain ⟨l, x, v⟩ := p
    have hone : s.Spares u c (if selects f v then (spawnBody d s ch ch.pc l x v).getD (.val 0, s) else (.val (passed sh v), s)).2 := by
      split
      · cases hb : spawnBody d s ch ch.pc l x v with
        | none => exact .refl u c s
        | some q => exact spawnBody_spares hb
      · exact .refl u c s
    exact hone.trans (ih _)

/-! ### Memory (R160 to R175) -/

theorem ldBody_spares (hu : u.caches = true) (hl : u.lands = true) (sz : Size) : (ldBody sz).Spares u := fun _ _ _ _ _ _ _ _ h =>
  loadBytes_spares hu hl h

theorem ldtBody_spares (hu : u.caches = true) (hl : u.lands = true) (sz : Size) (d : TokenDest) : (ldtBody sz d).Spares u := by
  intro s ch i l x v r t h
  unfold ldtBody at h
  split at h
  · cases h
  · next hload =>
    have hs := loadBytes_spares hu hl hload
    split at h
    · cases h
      exact hs
    · split at h <;> cases h <;> exact hs

theorem ldAcqBody_spares (hu : u.caches = true) (hl : u.lands = true) (sc : Scope) (sz : Size) : (ldAcqBody sc sz).Spares u := by
  intro s ch i l x v r t h
  unfold ldAcqBody at h
  dsimp only at h
  split at h
  · cases h
  · next hc => cases h; exact State.check_trap_spares hc
  · next hc =>
    have hcheck := State.check_ok_spares (u := u) (c := s.flow.focusCore) hc
    split at h
    · cases h
    · next hclear =>
      have hs := hcheck.trans (State.clearOwn_spares hl hclear)
      split at h
      · split at h
        · split at h
          · cases h
            exact hs.trans (State.enterPlaces_spares hu _ _)
          · obtain rfl := congrArg Prod.snd (Option.some.inj h)
            exact (hs.trans (State.enterPlaces_spares hu _ _)).trans (State.finishLoad_spares _ _ _ _ _ _ _ _)
        · cases h
          exact (hs.trans (State.newId_spares _)).trans (State.modSlice_spares _ _ _)
      · cases h
        exact hs.trans (State.finishLoad_spares _ _ _ _ _ _ _ _)

theorem stBody_spares (hu : u.caches = true) (sz : StSize) : (stBody sz).Spares u := by
  intro s ch i l x v r t h
  unfold stBody at h
  dsimp only at h
  split at h
  · cases h
  · next hc => cases h; exact State.check_trap_spares hc
  · next hc =>
    cases h
    exact (State.check_ok_spares hc).trans (State.reserveAll_spares hu _ _ _ _ _ _ _)

theorem stRelBody_spares (sc : Scope) (sz : StSize) : (stRelBody sc sz).Spares u := by
  intro s ch i l x v r t h
  unfold stRelBody at h
  dsimp only at h
  split at h
  · cases h
  · next hc => cases h; exact State.check_trap_spares hc
  · next hc => cases h; exact State.check_ok_spares hc

theorem sendAtomic_spares (hl : u.lands = true) {ch : Chord} {sz : AtSize} {w : AtomWord} {ea x y : Word} {pl : List Place} {r : LaneRes}
    (h : s.sendAtomic ch sz w ea x y pl = some (r, t)) : s.Spares u s.flow.focusCore t := by
  unfold State.sendAtomic at h
  extract_lets k rel order acq ready at h
  split at h
  · cases h
  · next s1 hready =>
    obtain ⟨s0, h0, h1⟩ := Option.bind_eq_some_iff.1 hready
    have hs0 : s.Spares u k s0 := by
      unfold ready at h0
      split at h0
      · split at h0
        · split at h0
          · obtain ⟨s2, hf, hset⟩ := Option.bind_eq_some_iff.1 h0
            exact (State.flushDirty_spares hl hf).trans (State.settle_spares hl hset)
          · cases h0
        · split at h0
          · cases h0
            exact .refl u k s
          · split at h0
            · cases h0
            · exact State.settle_spares hl h0
      · cases h0
        exact .refl u k s
    have hs := (hs0.trans (State.clearOwn_spares hl h1)).trans s1.newId_spares
    have hatoms (s : State) (id : Nat) : s.Spares u k (s.modCore k fun y => { y with atoms := y.atoms ++ [id] }) := .modCore s k rfl
    dsimp only at h
    split at h
    · cases h
      exact hs.trans (State.modSlice_spares _ _ _)
    · cases h
      exact ((hs.trans (State.newId_spares _)).trans (hatoms _ _)).trans (State.sendAccess_spares _ _ _ _ _)
    · have hid := hs.trans (State.newId_spares _)
      split at h <;> cases h
      · exact (hid.trans (hatoms _ _)).trans (State.sendHost_spares _ _ _ _ _)
      · exact (hid.trans (hatoms _ _)).trans (.of_outer rfl rfl)
    · cases h
      exact hs

theorem atomBody_spares (hl : u.lands = true) (sz : AtSize) (w : AtomWord) (posted : Bool) : (atomBody sz w posted).Spares u := by
  intro s ch i l x v r t h
  unfold atomBody at h
  dsimp only at h
  split at h
  · cases h
  · next hc => cases h; exact State.check_trap_spares hc
  · next hc =>
    have hs := State.check_ok_spares (u := u) (c := s.flow.focusCore) hc
    split at h
    · cases h
      exact hs
    · split at h
      · split at h <;> cases h <;> exact hs
      · exact hs.trans (hs.focusCore ▸ sendAtomic_spares hl h)

theorem updBody_spares (sz : AtSize) (w : UpdWord) : (updBody sz w).Spares u := by
  intro s ch i l x v r t h
  unfold updBody at h
  dsimp only at h
  split at h
  · cases h
  · next hc => cases h; exact State.check_trap_spares hc
  · next hc =>
    split at h <;> cases h <;> exact State.check_ok_spares hc

theorem fenceBody_spares (hl : u.lands = true) (sc : Scope) : (fenceBody sc).Spares u := by
  intro s ch i l x v r t h
  unfold fenceBody at h
  dsimp only at h
  split at h
  · cases h
  · next hd =>
    have hs := State.complete_spares hl hd
    split at h <;> cases h
    · exact hs.trans (State.newId_spares _)
    · exact hs

theorem prefBody_spares (lv : PrefLevel) : (prefBody lv).Spares u := by
  intro s ch i l x v r t h
  unfold prefBody at h
  split at h <;> cases h
  · exact .modCore s _ rfl
  · exact .refl u _ s

end Sys2Proof.Machine

namespace Sys2Proof.Machine

variable {u : Uses} {c : Nat} {s t : State}

/-! ### Bytes read at their homes (R238, R307, R352) -/

theorem withBytes_spares (hu : u.caches = true) {w : Who} {a : Word} {pl : List Place} {k : List Byte → State → Option (LaneRes × State)}
    {r : LaneRes} (hk : ∀ bs s r t, k bs s = some (r, t) → s.Spares u c t) (h : withBytes s w a pl k = some (r, t)) : s.Spares u c t := by
  unfold withBytes at h
  split at h
  · next hl =>
    obtain rfl : (awaitRead _ w).2 = t := congrArg Prod.snd (Option.some.inj h)
    exact (State.seek_later_spares hl).trans (awaitRead_spares _ _)
  · cases h
    exact s.forgetJob_spares _
  · split at h
    · cases h
      exact s.forgetJob_spares _
    · exact ((s.enterPlaces_spares hu _).trans (State.bump_spares _)).trans (hk _ _ _ _ h)

theorem rbindWord_state (ring : Nat) (s : State) (ch : Chord) (w : Word) : (rbindWord ring s ch w).2 = s := by
  unfold rbindWord
  split
  · rfl
  · exact chordEff_state _ _ _ _

theorem rbindBody_spares (hu : u.caches = true) (hl : u.lands = true) (ring : Nat) : (rbindBody ring).Spares u := by
  intro s ch i l x v r t h
  unfold rbindBody at h
  dsimp only at h
  split at h
  · cases h
    exact .refl u _ s
  · split at h
    · cases h
    · next hc => cases h; exact State.check_trap_spares hc
    · next hc =>
      have hs := State.check_ok_spares (u := u) (c := s.flow.focusCore) hc
      split at h
      · next hseek =>
        obtain rfl := congrArg Prod.snd (Option.some.inj h)
        exact (hs.trans (State.seek_later_spares hseek)).trans (awaitRead_spares _ _)
      · cases h
        exact hs.trans (State.forgetJob_spares _ _)
      · split at h
        · cases h
        · next hread =>
          have hr := (hs.trans (hs.focusCore ▸ readPlaces_spares hu hl hread)).trans (State.forgetJob_spares _ (laneWho s ch i x 0))
          split at h
          · cases h
            exact hr
          · obtain rfl := congrArg Prod.snd (Option.some.inj h)
            rw [rbindWord_state]
            exact hr.trans (State.bump_spares _)

theorem symqBody_spares (hu : u.caches = true) (w : CounterWord) : (symqBody w).Spares u := by
  intro s ch i l x v r t h
  unfold symqBody at h
  dsimp only at h
  split at h
  · cases h
    exact s.bump_spares
  · split at h
    · cases h
      exact (s.denyIf_spares _).trans (State.bump_spares _)
    · have hfill := s.fillXlt_spares (u := u) (c := s.flow.focusCore) (laneWho s ch i x 0)
        (counterVa (s.ctx ch.ctx).desc.symtab.toNat w.counter w.cls.toNat)
      split at h
      · next hseek =>
        obtain rfl := congrArg Prod.snd (Option.some.inj h)
        exact (hfill.trans (State.seek_later_spares hseek)).trans (awaitRead_spares _ _)
      · cases h
        exact (hfill.trans (State.forgetJob_spares _ _)).trans (State.bump_spares _)
      · split at h <;> cases h
        · exact hfill.trans (State.bump_spares _)
        · exact ((hfill.trans (State.forgetJob_spares _ _)).trans (State.enterPlaces_spares hu _ _)).trans (State.bump_spares _)

/-! ### Checks of a chord's memory (R286, R346) -/

theorem checkAll_spares (core : Nat) (w : Who) (k : AccKind) (l : List (Word × Nat)) (s : State) : (checkAll core w k l s).Spares u c s := by
  refine List.foldlRecOn (motive := fun r : Checked => r.Spares u c s) l _ (State.Spares.refl u c s) fun acc hacc p _ => ?_
  split
  · trivial
  · next s1 =>
    have hs : s.Spares u c s1 := hacc
    have hcheck := s1.check_spares (u := u) (c := c) core w p.1 p.2 1 k true false
    split
    · next hc => exact hs.trans (State.check_ok_spares hc)
    · next hne =>
      cases hc : s1.check core w p.1 p.2 1 k true false with
      | ok pl t => exact absurd hc (hne pl t)
      | wait => trivial
      | trap tr t => exact hs.trans (State.check_trap_spares hc)
  · split
    · next hc =>
      split
      · exact State.check_trap_spares hc
      · exact hacc
    · exact hacc

theorem checkAll_ok_spares {core : Nat} {w : Who} {k : AccKind} {l : List (Word × Nat)} {pl : List Place} (h : checkAll core w k l s = .ok pl t) :
    s.Spares u c t := by
  have := checkAll_spares (u := u) (c := c) core w k l s
  rwa [h] at this

theorem checkAll_trap_spares {core : Nat} {w : Who} {k : AccKind} {l : List (Word × Nat)} {tr : Trap} (h : checkAll core w k l s = .trap tr t) :
    s.Spares u c t := by
  have := checkAll_spares (u := u) (c := c) core w k l s
  rwa [h] at this

theorem afterCheck_spares {ch : Chord} {w : Who} {k : AccKind} {l : List (Word × Nat)} {e : List Place → Eff} {r : LaneRes}
    (h : afterCheck s ch w k l e = some (r, t)) : s.Spares u c t := by
  unfold afterCheck at h
  split at h
  · cases h
  · next hc => cases h; exact checkAll_trap_spares hc
  · next hc =>
    obtain rfl := congrArg Prod.snd (Option.some.inj h)
    rw [chordEff_state]
    exact checkAll_ok_spares hc

theorem mxldBody_spares (acc : Nat) : (mxldBody acc).Spares u := by
  intro s ch i l x v r t h
  unfold mxldBody at h
  split at h
  · cases h; exact .refl u _ s
  · split at h
    · cases h; exact .refl u _ s
    · dsimp only at h
      split at h
      · cases h; exact .refl u _ s
      · exact afterCheck_spares h

theorem mxstBody_spares (w : EpiWord) (acc : Nat) : (mxstBody w acc).Spares u := by
  intro s ch i l x v r t h
  unfold mxstBody at h
  split at h
  · cases h; exact .refl u _ s
  · dsimp only at h
    split at h
    · cases h; exact .refl u _ s
    · split at h
      · cases h; exact .refl u _ s
      · split at h
        · cases h
        · next hc => cases h; exact checkAll_trap_spares hc
        · next hc => exact (checkAll_ok_spares hc).trans (afterCheck_spares h)

theorem mxsaveBody_spares (slot : Nat) : (mxsaveBody slot).Spares u := by
  intro s ch i l x v r t h
  unfold mxsaveBody at h
  split at h
  · cases h; exact .refl u _ s
  · dsimp only at h
    split at h
    · cases h; exact .refl u _ s
    · split at h
      · cases h; exact .refl u _ s
      · exact afterCheck_spares h

theorem mxrestBody_spares (hu : u.caches = true) (slot : Nat) : (mxrestBody slot).Spares u := by
  intro s ch i l x v r t h
  unfold mxrestBody at h
  split at h
  · cases h; exact .refl u _ s
  · split at h
    · cases h; exact .refl u _ s
    · dsimp only at h
      split at h
      · cases h
      · next hc => cases h; exact State.check_trap_spares hc
      · next hc =>
        refine (State.check_ok_spares hc).trans (withBytes_spares hu (fun hd s r t h => ?_) h)
        split at h
        · cases h; exact s.forgetJob_spares _
        · split at h
          · cases h
          · next hc => cases h; exact State.check_trap_spares hc
          · next hc =>
            refine (State.check_ok_spares hc).trans (withBytes_spares hu (fun el s r t h => ?_) h)
            obtain rfl := congrArg Prod.snd (Option.some.inj h)
            rw [chordEff_state]
            exact s.forgetJob_spares _

theorem symEffect_spares {ch : Chord} {i : Nat} {x : Lane} {k : AccKind} {l : List TileLoc} {e : Eff} {r : LaneRes}
    (h : symEffect s ch i x k l e = some (r, t)) : s.Spares u c t := by
  unfold symEffect tilesOk at h
  split at h
  · cases h; exact .refl u c _
  · dsimp only at h
    split at h
    · cases h
    · next hc => cases h; exact checkAll_trap_spares hc
    · next hc => cases h; exact checkAll_ok_spares hc

theorem symcBody_spares (w : CompareWord) : (symcBody w).Spares u := by
  intro s ch i l x v r t h
  unfold symcBody at h
  split at h
  · cases h; exact .refl u _ s
  · split at h
    · cases h; exact .refl u _ s
    · exact symEffect_spares h

theorem sympBody_spares (w : StoreWord) : (sympBody w).Spares u := by
  intro s ch i l x v r t h
  unfold sympBody at h
  split at h
  · cases h; exact .refl u _ s
  · split at h
    · cases h; exact .refl u _ s
    · split at h
      · cases h; exact .refl u _ s
      · exact symEffect_spares h

theorem symrBody_spares (w : ReplayWord) : (symrBody w).Spares u := by
  intro s ch i l x v r t h
  unfold symrBody at h
  split at h
  · cases h; exact .refl u _ s
  · split at h
    · cases h; exact .refl u _ s
    · exact symEffect_spares h

/-! ### Frames, copies and hypotheses (R174, R280, R353) -/

theorem Core.zeroFrames_spared (k : Core) (j n : Nat) : (k.zeroFrames j n).spared = k.spared ∧ (k.zeroFrames j n).chords = k.chords ∧
    (k.zeroFrames j n).homeQ = k.homeQ ∧ (k.zeroFrames j n).l1 = k.l1 :=
  List.foldlRecOn (motive := fun m : Core => m.spared = k.spared ∧ m.chords = k.chords ∧ m.homeQ = k.homeQ ∧ m.l1 = k.l1)
    (List.range n) _ ⟨rfl, rfl, rfl, rfl⟩ fun _ h _ _ => h

/-- Taking frames from a core's heap. -/
theorem State.Spares.allot (hu : u.allots = true) (s : State) (d : Nat) {f : Core → Core}
    (h : (f (s.core d)).spared = (s.core d).spared ∧ (f (s.core d)).chords = (s.core d).chords ∧
      (f (s.core d)).homeQ = (s.core d).homeQ ∧ (f (s.core d)).l1 = (s.core d).l1) : s.Spares u c (s.modCore d f) where
  owners := rfl
  acts := rfl
  net := rfl
  ctxs _ := rfl
  focusCore := rfl
  focusSlot := rfl
  chords e slot _ := by
    by_cases he : e = d
    · subst he; simp [State.chord?, h.2.1]
    · simp [State.chord?, State.core_modCore_other _ _ he]
  cores e := by
    by_cases he : e = d
    · subst he; simp [h.1]
    · simp [State.core_modCore_other _ _ he]
  heap hn := by simp [hu] at hn
  clean := by
    by_cases hc : c = d
    · subst hc; simp only [State.Clean, State.core_modCore_same, h, imp_self]
    · simp only [State.Clean, State.core_modCore_other _ _ hc, imp_self]
  memory _ := .of_kept rfl

theorem frmaBody_spares (hu : u.allots = true) : frmaBody.Spares u := by
  intro s ch i l x v r t h
  unfold frmaBody at h
  dsimp only at h
  split at h
  · cases h; exact .refl u _ s
  · split at h <;> cases h
    · exact .refl u _ s
    · exact ((s.pick_spares _).trans (State.newId_spares _)).trans (.allot hu _ _ (Core.zeroFrames_spared _ _ _))

theorem setCopyEngine_spares (s : State) (e : Nat) (x : CopyEngine) : s.Spares u c (s.setCopyEngine e x) := .of_outer rfl rfl

theorem cpyBody_spares (w : CopyWord) : (cpyBody w).Spares u := by
  intro s ch i l x v r t h
  unfold cpyBody at h
  split at h
  · cases h; exact .refl u _ s
  · split at h
    · cases h; exact .refl u _ s
    · split at h
      · cases h; exact .refl u _ s
      · split at h
        · cases h; exact .refl u _ s
        · split at h <;> cases h
          · exact .refl u _ s
          · exact setCopyEngine_spares s _ _

theorem copyMixed_spares (s : State) (ch : Chord) (w : CopyWord) (f : Flds) (ls : List (Nat × Lane × Vals)) :
    s.Spares u s.flow.focusCore (s.copyMixed ch w f ls) := by
  unfold State.copyMixed
  split
  · exact .setFocus s _
  · dsimp only
    generalize (if ch.ucheck = true then _ else (_ : Chord)) = ch
    split
    · split
      · exact .refl u _ s
      · next hb => exact (cpyBody_spares w hb).trans (.setFocus _ _)
    · exact .setFocus s _

theorem fork_spares (hu : u.forks = true) {n : BitVec 12} {h child : BitVec 8} (hf : s.fork n h = some (child, t)) : s.Spares u c t := by
  unfold State.fork at hf
  split at hf
  · cases hf
  · split at hf <;> cases hf
    exact {
      owners := rfl
      acts := rfl
      net := rfl
      ctxs := by simp [hu]
      focusCore := rfl
      focusSlot := rfl
      chords := fun _ _ _ => rfl
      cores := fun _ => rfl
      heap := fun _ _ => ⟨rfl, rfl⟩
      clean := id
      memory := fun _ => .of_kept rfl }

theorem forkLanes_spares (hu : u.forks = true) (f : Flds) (n : BitVec 12) (ls : List (Nat × Lane × Vals)) (s : State) :
    s.Spares u c (forkLanes f n ls s).2 := by
  induction ls generalizing s with
  | nil => exact .refl u c s
  | cons p r ih =>
    obtain ⟨l, x, v⟩ := p
    unfold forkLanes
    split
    · split
      · next hf => exact (fork_spares hu hf).trans (ih _)
      · exact ih s
    · exact ih s

end Sys2Proof.Machine

namespace Sys2Proof.Machine

variable {u : Uses} {c : Nat} {s t : State}

/-! ### Claims (R176 to R178) -/

theorem claimLanes_spares {core : Nat} {ch : Chord} {i : Nat} {w : CmpkWord} {sz : AtSize} {h : CmpkHdr} {addr : Word} {holes : Place}
    {ls : List ClaimLane} {q : Nat} {out : List (Nat × Claimed)} {q' : Nat}
    (hc : claimLanes core ch i w sz h addr holes ls q s = some (out, q', t)) : s.Spares u c t := by
  induction ls generalizing q s out with
  | nil => cases hc; exact .refl u c _
  | cons l r ih =>
    have hgo {one : Claimed} {q1 : Nat} {s1 : State}
        (hm : (match claimLanes core ch i w sz h addr holes r q1 s1 with
          | none => none
          | some (rest, q'', s) => some ((l.lane, one) :: rest, q'', s)) = some (out, q', t)) : s1.Spares u c t := by
      split at hm
      · cases hm
      · next hrest => cases hm; exact ih hrest
    unfold claimLanes at hc
    dsimp only at hc
    generalize (if w.offw = true then 4 else 2) = width at hc
    split at hc
    · exact hgo hc
    · split at hc
      · exact hgo hc
      · split at hc
        · cases hc
        · next hk => exact (State.check_trap_spares hk).trans (hgo hc)
        · next hk =>
          have hs := State.check_ok_spares (u := u) (c := c) hk
          split at hc
          · split at hc
            · cases hc
            · next hk => exact (hs.trans (State.check_trap_spares hk)).trans (hgo hc)
            · next hk => exact (hs.trans (State.check_ok_spares hk)).trans (hgo hc)
          · exact hs.trans (hgo hc)

theorem cmpkLanes_spares {ch : Chord} {f : Flds} {ls : List (Nat × Lane × Vals)} {out : List (Nat × CmpkLane)}
    (h : cmpkLanes ch f ls s = some (out, t)) : s.Spares u c t := by
  induction ls generalizing s out with
  | nil => cases h; exact .refl u c _
  | cons p r ih =>
    obtain ⟨l, x, v⟩ := p
    unfold cmpkLanes at h
    dsimp only at h
    split at h
    · cases h
    · next s1 hone =>
      have hs1 : s.Spares u c s1 := by
        split at hone
        · cases hone; exact .refl u c _
        · split at hone
          · cases hone; exact .refl u c _
          · split at hone
            · cases hone
            · next hk => cases hone; exact State.check_trap_spares hk
            · next hk => cases hone; exact State.check_ok_spares hk
      split at h
      · cases h
      · next hrest => cases h; exact hs1.trans (ih hrest)

theorem sendClaim_spares (hl : u.lands = true) {ch : Chord} {w : CmpkWord} {sz : AtSize} {f : Flds} {a : Word} {pl : List Place}
    {ls : List ClaimLane} {ch' : Chord} (h : s.sendClaim ch w sz f a pl ls = some (ch', t)) : s.Spares u s.flow.focusCore t := by
  have hatoms (x : State) (d id : Nat) : x.Spares u s.flow.focusCore (x.modCore d fun y => { y with atoms := y.atoms ++ [id] }) :=
    .modCore x d rfl
  have hacks (x : State) (d id : Nat) : x.Spares u s.flow.focusCore (x.modCore d fun y => { y with acks := y.acks ++ [id] }) :=
    .modCore x d rfl
  have hs := s.newId_spares (u := u) (c := s.flow.focusCore)
  unfold State.sendClaim at h
  dsimp only at h
  split at h
  · obtain ⟨s1, hclear, he⟩ := Option.map_eq_some_iff.1 h
    cases he
    exact (hs.trans (State.clearOwn_spares (c := s.flow.focusCore) hl hclear)).trans (State.modSlice_spares _ _ _)
  · cases h
    exact ((hs.trans (State.newId_spares _)).trans (hatoms _ _ _)).trans (State.sendAccess_spares _ _ _ _ _)
  · obtain ⟨r, hr, he⟩ := Option.map_eq_some_iff.1 h
    cases he
    have hr' : s.newId.2.bump.Spares u s.flow.focusCore r.2.2 := claimLanes_spares hr
    have hbefore := ((hs.trans (State.bump_spares _)).trans hr').trans (State.newId_spares _)
    exact (hbefore.trans (hacks _ _ _)).trans (State.sendHost_spares _ _ _ _ _)
  · cases h
    exact hs

theorem claimNext_spares (hl : u.lands = true) {ch : Chord} {w : CmpkWord} {sz : AtSize} {f : Flds}
    {q : List (Word × List Place × List ClaimLane)} {ch' : Chord} (h : s.claimNext ch w sz f q = some (ch', t)) :
    s.Spares u s.flow.focusCore t := by
  unfold State.claimNext at h
  split at h
  · cases h; exact .refl u _ _
  · dsimp only at h
    obtain ⟨p, hp, he⟩ := Option.map_eq_some_iff.1 h
    cases he
    split at hp
    · cases hp; exact .refl u _ _
    · exact sendClaim_spares hl hp

/-! ### Every instruction -/

/-- What an instruction may do before its chord commits. -/
def usesOf : Instr → Uses
  | .hfork .. => { forks := true }
  | .frma .. => { allots := true }
  | .ld .. | .ldt .. | .ldAcq .. | .rbind .. => { caches := true, lands := true }
  | .st .. | .mxrest .. | .symq .. => { caches := true }
  | .atom .. | .cmpk .. | .fence .. => { lands := true }
  | _ => {}

section

/-- What the state that an instruction answers spares. -/
theorem spares_of_next {t' : State} (hs : s.Spares u c t') (h : (.next t' : Answer) = .next t) : s.Spares u c t := by
  cases h
  exact hs

theorem execSpawn_spares {d : TokenDest} {f : Flds} (h : execSpawn d f s = .next t) : s.Spares u c t := by
  unfold execSpawn at h
  split at h
  · cases h; exact .refl u c _
  · split at h
    · split at h
      · cases h; exact .refl u c _
      · cases h
        exact (spawnLanes_spares _ s).trans (.setFocus _ _)
    · cases h; exact .refl u c _

theorem execCmpk_spares (hl : u.lands = true) {sz : AtSize} {w : CmpkWord} {f : Flds} (h : execCmpk sz w f s = .next t) :
    s.Spares u s.flow.focusCore t := by
  unfold execCmpk at h
  split at h
  · cases h; exact .refl u _ _
  · split at h
    · split at h
      · split at h
        · cases h; exact .refl u _ _
        · next hn => cases h; exact (claimNext_spares hl hn).trans (.setFocus _ _)
      · split at h
        · cases h; exact .refl u _ _
        · split at h
          · cases h; exact .refl u _ _
          · next hlanes =>
            have hs := cmpkLanes_spares (u := u) (c := s.flow.focusCore) hlanes
            split at h
            · cases h; exact .refl u _ _
            · next hn =>
              cases h
              exact (hs.trans (hs.focusCore ▸ claimNext_spares hl hn)).trans (.setFocus _ _)
    · cases h; exact .refl u _ _

theorem execCpy_spares {w : CopyWord} {f : Flds} (h : execCpy w f s = .next t) : s.Spares u s.flow.focusCore t := by
  unfold execCpy at h
  split at h
  · cases h; exact .refl u _ _
  · split at h
    · split at h
      · cases h; exact .refl u _ _
      · cases h; exact copyMixed_spares s _ _ _ _
    · cases h; exact s.perform_spares (cpyBody_spares w) _ _ _ _

theorem execHfork_spares (hu : u.forks = true) {f : Flds} (h : execHfork f s = .next t) : s.Spares u c t := by
  unfold execHfork at h
  split at h
  · cases h; exact .refl u c _
  · split at h
    · split at h
      · cases h; exact .refl u c _
      · dsimp only at h
        split at h
        · split at h
          · cases h; exact .setFocus s _
          · split at h
            · split at h
              · cases h; exact .setFocus s _
              · next hf => cases h; exact (fork_spares hu hf).trans (.setFocus _ _)
            · cases h; exact .setFocus s _
        · cases h; exact (forkLanes_spares hu f _ _ s).trans (.setFocus _ _)
    · cases h; exact .refl u c _

end

end Sys2Proof.Machine

namespace Sys2Proof.Machine

variable {u : Uses} {c : Nat} {s t : State}

/-- An instruction of a program is not an agent's step: it spares what its uses must. -/
theorem exec_spares {i : Instr} (hi : isEvent i = false) (h : exec i s = .next t) : s.Spares (usesOf i) s.flow.focusCore t := by
  cases i with
  | add | sub | adds | subs | mul | mulh | mad | div | rem | min | max | abs | neg | and | andn | or | xor | not | shl | shr | sar | rot
  | popc | clz | ctz | brev | bfx | bfi | sel | mov | idx | cmp | fadd | fsub | fmul | ffma | fmin | fmax | fabs | fneg | fdiv | fsqrt
  | frcp | frsq | fex2 | flg2 | fsin | fcos | ftanh | frnd | fscl | fcls | fcmp | icvt | fcvt => exact spares_of_next (s.alu_spares _ _ _) h
  | imm | immh => exact spares_of_next (s.aluImm_spares _ _) h
  | shfl | bcst | vote | mtch | prfx | redu | topk => exact spares_of_next (s.cross_spares _ _ _) h
  | send d => exact spares_of_next (s.perform_spares (sendBody_spares d) _ _ _ _) h
  | spawn => exact execSpawn_spares h
  | launch w => exact spares_of_next (s.perform_spares (launchBody_still w).spares _ _ _ _) h
  | doneCredit | srd | swr | nop | trap | brk | cpyq | cpyc | hqry => exact spares_of_next (s.perform_spares Body.still_result.spares _ _ _ _) h
  | tret | kill => exact spares_of_next (s.perform_spares (serveBody_still _).spares _ _ _ _) h
  | ld sz => exact spares_of_next (s.perform_spares (ldBody_spares rfl rfl sz) _ _ _ _) h
  | ldAcq sc sz => exact spares_of_next (s.perform_spares (ldAcqBody_spares rfl rfl sc sz) _ _ _ _) h
  | st sz => exact spares_of_next (s.perform_spares (stBody_spares rfl sz) _ _ _ _) h
  | stRel sc sz => exact spares_of_next (s.perform_spares (stRelBody_spares sc sz) _ _ _ _) h
  | ldt sz d => exact spares_of_next (s.perform_spares (ldtBody_spares rfl rfl sz d) _ _ _ _) h
  | atom sz w => exact spares_of_next (s.perform_spares (atomBody_spares rfl sz w _) _ _ _ _) h
  | upd sz w => exact spares_of_next (s.perform_spares (updBody_spares sz w) _ _ _ _) h
  | fence sc => exact spares_of_next (s.perform_spares (fenceBody_spares rfl sc) _ _ _ _) h
  | pref l => exact spares_of_next (s.perform_spares (prefBody_spares l) _ _ _ _) h
  | cctl op => exact spares_of_next (s.perform_spares (cctlBody_still op).spares _ _ _ _) h
  | bcinv => exact spares_of_next (s.perform_spares bcinvBody_still.spares _ _ _ _) h
  | frma => exact spares_of_next (s.perform_spares (frmaBody_spares rfl) _ _ _ _) h
  | frmf => exact spares_of_next (s.perform_spares frmfBody_still.spares _ _ _ _) h
  | cmpk => exact execCmpk_spares rfl h
  | rbind => exact spares_of_next (s.perform_spares (rbindBody_spares rfl rfl _) _ _ _ _) h
  | runb | radv | rwait | mxbind | mxunb | mxfire | mxz | mxmute =>
    exact spares_of_next (s.perform_spares Body.still_chordEff.spares _ _ _ _) h
  | rget => exact spares_of_next (s.perform_spares (rgetBody_still _).spares _ _ _ _) h
  | rput => exact spares_of_next (s.perform_spares (rputBody_still _).spares _ _ _ _) h
  | rstat => exact spares_of_next (s.perform_spares (rstatBody_still _).spares _ _ _ _) h
  | strm w | strmw w => exact spares_of_next (s.perform_spares (strmBody_still _ w _).spares _ _ _ _) h
  | strmq => exact spares_of_next (s.perform_spares (strmqBody_still _).spares _ _ _ _) h
  | strmc => exact spares_of_next (s.perform_spares (strmcBody_still _).spares _ _ _ _) h
  | cpy => exact execCpy_spares h
  | mxld => exact spares_of_next (s.perform_spares (mxldBody_spares _) _ _ _ _) h
  | mxst w => exact spares_of_next (s.perform_spares (mxstBody_spares w _) _ _ _ _) h
  | mxstat => exact spares_of_next (s.perform_spares (mxstatBody_still _).spares _ _ _ _) h
  | mxsave => exact spares_of_next (s.perform_spares (mxsaveBody_spares _) _ _ _ _) h
  | mxrest => exact spares_of_next (s.perform_spares (mxrestBody_spares rfl _) _ _ _ _) h
  | symk => exact spares_of_next (s.perform_spares symkBody_still.spares _ _ _ _) h
  | symc w => exact spares_of_next (s.perform_spares (symcBody_spares w) _ _ _ _) h
  | symr w => exact spares_of_next (s.perform_spares (symrBody_spares w) _ _ _ _) h
  | symp w => exact spares_of_next (s.perform_spares (sympBody_spares w) _ _ _ _) h
  | syms => exact spares_of_next (s.perform_spares symsBody_still.spares _ _ _ _) h
  | symq w => exact spares_of_next (s.perform_spares (symqBody_spares rfl w) _ _ _ _) h
  | hfork => exact execHfork_spares rfl h
  | hres refute d => exact spares_of_next (s.perform_spares (hresBody_still refute d).spares _ _ _ _) h
  | hnote => exact spares_of_next (s.perform_spares hnoteBody_still.spares _ _ _ _) h
  | psel w => exact spares_of_next (s.perform_spares (pselBody_still w).spares _ _ _ _) h
  | _ => cases hi


end Sys2Proof.Machine

namespace Sys2Proof.Machine

variable {s t : State}

/-! ### The bytes at a home (R424, R425) -/

/-- The owner's part holds the keys. -/
theorem State.keySlot_of_ownersPart (h : t.ownersPart = s.ownersPart) (n : BitVec 8) : t.keySlot n = s.keySlot n :=
  (congrArg (fun x : State => x.keySlot n) h :)

/-- A byte reads at its home as the same package memory, keys and lines give it. -/
theorem State.homeByte_of_same (hm : t.homes.mem = s.homes.mem) (ho : t.homes.opens = s.homes.opens) (hl : t.homes.lines = s.homes.lines)
    (hk : ∀ n, t.keySlot n = s.keySlot n) (slot : BitVec 8) (a : Nat) : t.homeByte slot a = s.homeByte slot a := by
  have hline (l : Nat) : t.line l = s.line l := by simp only [State.line, hl]
  have hgarbled : t.garbled slot (lineOf a) = s.garbled slot (lineOf a) := by simp only [State.garbled, State.wrongKey, hline, hk]
  simp only [State.homeByte, hline, hgarbled, hk, ho, hm]

/-- A byte that an earlier boot left makes its line such a line. -/
theorem State.rawLine_of_find {a : Nat} {r : OpenRange} (h : (s.homes.opens.find? fun r => decide (r.lo ≤ a) && decide (a < r.hi)) = some r)
    (hr : r.raw = true) : s.rawLine (lineOf a) = true := by
  have hin := List.find?_some h
  simp only [Bool.and_eq_true, decide_eq_true_eq] at hin
  refine List.any_eq_true.2 ⟨r, List.mem_of_find?_eq_some h, ?_⟩
  have hlo : r.lo < lineOf a * 128 + 128 := by unfold lineOf; omega
  have hhi : lineOf a * 128 < r.hi := by unfold lineOf; omega
  simp only [hr, hlo, hhi, decide_true, Bool.and_self]

/-- Where a line's bytes are good under a key and none is of an earlier boot, a byte reads as memory holds it, whatever the L2 holds. -/
theorem State.homeByte_of_good {slot : BitVec 8} {a : Nat} (hm : t.homes.mem = s.homes.mem) (ho : t.homes.opens = s.homes.opens)
    (hs : s.garbled slot (lineOf a) = false) (ht : t.garbled slot (lineOf a) = false) (hraw : s.rawLine (lineOf a) = false) :
    t.homeByte slot a = s.homeByte slot a := by
  unfold State.homeByte
  dsimp only
  rw [hs, ht, hm, ho, if_neg Bool.false_ne_true, if_neg Bool.false_ne_true]
  cases hfind : s.homes.opens.find? fun r => decide (r.lo ≤ a) && decide (a < r.hi) with
  | none => rfl
  | some r =>
    have : r.raw = false := by
      by_contra hr
      rw [rawLine_of_find hfind (by simpa using hr)] at hraw
      cases hraw
    simp only [this, Bool.false_eq_true, if_false]

/-! ### The two statements -/

/-- Settles O58: what an instruction spares holds the owner's part (`exec_spares`). -/
theorem programsLeaveRegisters : Obligations.ProgramsLeaveRegisters := fun _ _ _ hi h => (exec_spares hi h).owners

theorem usesOf_forks {i : Instr} (hi : ∀ f, i ≠ .hfork f) : (usesOf i).forks = false := by
  cases i with
  | hfork f => exact absurd rfl (hi f)
  | _ => rfl

theorem usesOf_allots {i : Instr} (hi : ∀ f, i ≠ .frma f) : (usesOf i).allots = false := by
  cases i with
  | frma f => exact absurd rfl (hi f)
  | _ => rfl

/-- Settles O59: the parts of the relation that every instruction keeps (`exec_spares`), with what the bytes at the homes make of the lines
that the L2 holds. -/
theorem programsFrame : Obligations.ProgramsFrame := by
  intro i s t hi h
  have hs := exec_spares hi h
  have hkeys := State.keySlot_of_ownersPart hs.owners
  refine ⟨hs.acts, hs.net, hs.chords, fun c => ?_, fun hf => hs.ctxs (usesOf_forks hf), fun ha => hs.heap (usesOf_allots ha), fun hclean => ?_⟩
  · have hc := hs.cores c
    exact ⟨(congrArg Core.entries hc :), (congrArg Core.fifo hc :), (congrArg Core.bins hc :), (congrArg Core.roles hc :),
      (congrArg Core.rings hc :), (congrArg Core.streams hc :), (congrArg Core.mxe hc :)⟩
  · have hmem := hs.memory fun hl => by
      cases i with
      | ld | ldt | ldAcq | atom | cmpk | fence | rbind => exact hclean
      | _ => cases hl
    refine ⟨hmem.mem, hmem.opens, hmem.marks, fun slot a => State.homeByte_of_good hmem.mem hmem.opens, ?_⟩
    have hlines (hc : (usesOf i).caches = false) :
        t.homes.lines = s.homes.lines ∧ ∀ slot a, t.homeByte slot a = s.homeByte slot a :=
      ⟨hmem.lines hc, State.homeByte_of_same hmem.mem hmem.opens (hmem.lines hc) hkeys⟩
    cases i with
    | ld | ldt | ldAcq | rbind | st | mxrest | symq => trivial
    | _ => exact hlines rfl

end Sys2Proof.Machine

/-! SUPPORT. Token, cross-lane and system instructions (O14, O15, O16). -/

namespace Sys2Proof.Machine

/-- An instruction whose meaning is an exchange between the lanes, with `op` as its result. -/
theorem Exchanges.of_cross {i : Instr} {sh : Shape} {f : Flds} {op : List (Nat × Vals) → Nat → Vals → Word}
    (h : ∀ s, exec i s = .next (s.cross sh f op)) : Exchanges i sh f op := by
  rintro s ch ls ⟨hfocus, hissue, hgather⟩
  simp only [h, State.cross, hfocus, hissue, if_true, hgather]

/-- Settles O14: each of these is an exchange between the lanes, with the value of its rule as its operation. -/
theorem crossLane : Obligations.CrossLane := by
  intro f
  refine ⟨fun op => ?shfl, ?bcst, fun op => ?vote, ?mtch, fun op => ?prfx, fun op => ?redu, ?topk⟩
  all_goals exact .of_cross fun _ => rfl

/-- An instruction that is performed and whose body gives a value of the state, the lane and its operands. -/
theorem CarriesOut.of_gives {i : Instr} {sh : Shape} {f : Flds} {len : Nat} {body : Body}
    {g : State → Chord → Nat → Lane → Vals → LaneRes} (he : ∀ s, exec i s = .next (s.perform sh f len false body))
    (hb : ∀ s ch l x v, body s ch ch.pc l x v = some (g s ch l x v, s)) : CarriesOut i sh f len false (gives g) :=
  carriesOut_of_body he <| by
    rintro ch s l x v res s1 ⟨rfl, rfl⟩
    exact hb _ ch l x v

/-- TRET and KILL in a lane: the effect of a handle that names a parked entry, or a trap (R151). -/
theorem serveBody_eq (kill : Bool) (s : State) (ch : Chord) (i l : Nat) (x : Lane) (v : Vals) :
    serveBody kill s ch i l x v = some ((match s.parkedHandle ch.ctx v.a with
      | some (c, j) => { effs := [if kill then .kill c j else .tret c j] }
      | none => .trapped { cause := 0x08 }), s) := by
  unfold serveBody
  cases s.parkedHandle ch.ctx v.a <;> rfl

/-- Settles O16: each of these is its body performed, and the body gives the value, the effect or the trap of its rule. -/
theorem systemInstructions : Obligations.SystemInstructions := by
  refine ⟨fun r f => ?srd, fun r f => ?swr, fun f => ?nop, fun f => ?trap, fun f => ?brk, fun f => ?tret, fun f => ?kill⟩
  case srd | swr | nop | trap | brk => exact .of_gives (fun _ => rfl) fun _ _ _ _ _ => rfl
  case tret => exact .of_gives (fun _ => rfl) fun s ch l x v => serveBody_eq false s ch ch.pc l x v
  case kill => exact .of_gives (fun _ => rfl) fun s ch l x v => serveBody_eq true s ch ch.pc l x v

/-- The state in which an activation's spawn counter on the core has advanced (R138). -/
def State.spawned (s : State) (ch : Chord) : State :=
  s.modCore s.flow.focusCore fun k => { k with spawn := nput k.spawn ch.key (s.spawnCtr s.flow.focusCore ch.key + 1) }

/-- The fresh tag of a SPAWN (R138). -/
def State.spawnTag (s : State) (ch : Chord) : BitVec 32 :=
  BitVec.ofNat 32 (0x80000000 + s.flow.focusCore * 2 ^ 23 + (s.spawnCtr s.flow.focusCore ch.key).toNat)

/-- SPAWN in a lane, with the counter advanced before the token's route is looked for. -/
theorem spawnBody_eq (d : TokenDest) (s : State) (ch : Chord) (i l : Nat) (x : Lane) (v : Vals) :
    spawnBody d s ch i l x v =
      match routeToken (s.spawned ch) ch (s.spawned ch).flow.focusCore x d (s.spawnTag ch) v.a v.c with
      | .error t => some ({ v0 := some ((s.spawnTag ch).setWidth 64), v1 := some ((s.spawnTag ch).setWidth 64), trap := some t },
          (s.spawned ch).denyRoute ch.ctx d v.c)
      | .ok t => some ({ v0 := some ((s.spawnTag ch).setWidth 64), v1 := some ((s.spawnTag ch).setWidth 64), effs := [.send t d.rel] },
          s.spawned ch) := rfl

/-- Settles O15: a token goes where `SendsTo` says or is stopped as `SendStops` says (`send_eq`, `stops_eq`), whatever the instruction does
with it; launches and credits are bodies without other cases. -/
theorem tokensSent : Obligations.TokensSent := by
  refine ⟨fun d f => ?send, fun d f s ch ls out s1 hready hlanes => ?spawn, fun w f => ?launch, fun f => ?done⟩
  case send =>
    refine carriesOut_of_body (fun _ => rfl) fun ch s l x v res s1 h => ?_
    unfold sendBody
    rcases h with ⟨rfl, pkg, core, hto, rfl⟩ | ⟨rfl, t, hstop, rfl⟩
    · simp only [send_eq hto, LaneRes.eff]
    · simp only [stops_eq hstop]
  case spawn =>
    obtain ⟨hfocus, hissue, hgather⟩ := hready
    have hspawn : spawnLanes (spawnShape d) f d ch ls s = (out, s1) := by
      refine spawnLanes_eq (fun s l x v res s1 h => ?_) ls s out s1 hlanes
      rw [spawnBody_eq]
      rcases h with ⟨rfl, pkg, core, hto, rfl⟩ | ⟨rfl, t, hstop, rfl⟩
      · have hto : SendsTo (s.spawned ch) ch x d (s.spawnTag ch) v.c pkg core := hto
        rw [send_eq hto]
        rfl
      · have hstop : SendStops (s.spawned ch) ch x d v.c t := hstop
        rw [stops_eq hstop]
        rfl
    change execSpawn d f s = _
    simp only [execSpawn, hfocus, hissue, if_true, hgather, hspawn, State.handedOn]
  case launch =>
    refine carriesOut_of_body (fun _ => rfl) fun ch s l x v res s1 h => ?_
    obtain ⟨rfl, h⟩ := h
    unfold launchBody
    split <;> rename_i hw
    · rw [if_pos hw] at h; rw [h]; rfl
    · rw [if_neg hw] at h
      split <;> rename_i ha
      · rw [if_pos ha] at h; rw [h]; rfl
      · rw [if_neg ha] at h
        split <;> rename_i hh
        · rw [if_pos hh] at h; rw [h]
        · rw [if_neg hh] at h; rw [h]
  case done => exact .of_gives (fun _ => rfl) fun _ _ _ _ _ => rfl

end Sys2Proof.Machine

/-! SUPPORT. What the exchanges give where every lane is visible, and the ranks of TOPK (O35). -/

namespace Sys2Proof.Machine

/-! ### The lanes of a full chord -/

section
variable (g : Nat → Vals)

/-- The lanes 0 to 31 with their operands. -/
def fullLanes : List (Nat × Vals) := (List.range 32).map fun j => (j, g j)

theorem fromLane_fullLanes {j : Nat} (hj : j < 32) (own : Word) : fromLane (fullLanes g) j own = (g j).a := by
  have hfind : (List.range 32).find? (fun i => i == j) = some j :=
    List.find?_range_eq_some.2 ⟨beq_self_eq_true j, List.mem_range.2 hj, fun i hi => by simp [hi.ne]⟩
  have hlane : (fullLanes g).find? (fun p => p.1 == j) = some (j, g j) := by
    rw [fullLanes, List.find?_map]
    exact congrArg (Option.map _) hfind
  simp only [fromLane, hlane]

theorem xor_lane_lt {l j : Nat} (hl : l < 32) (hj : j < 32) : l ^^^ j < 32 := Nat.xor_lt_two_pow (n := 5) hl hj

end

/-! ### The order of values (R79, R359) -/

/-- What a value that is not NaN stands for, with the infinities at the ends. -/
def FVal.extended : FVal → WithBot (WithTop ℚ)
  | .nan => ⊥
  | .inf true => ⊥
  | .inf false => ((⊤ : WithTop ℚ) : WithBot (WithTop ℚ))
  | .fin n m e => (((if n then -(m : ℚ) else m) * (2 : ℚ) ^ e : ℚ) : WithTop ℚ)

theorem FVal.units_mul {n : Bool} {m : Nat} {e e0 : Int} (h : e0 ≤ e) :
    ((FVal.units e0 (.fin n m e) : Int) : ℚ) * (2 : ℚ) ^ e0 = (if n then -(m : ℚ) else m) * (2 : ℚ) ^ e := by
  have hpow : (2 : ℚ) ^ (e - e0).toNat * (2 : ℚ) ^ e0 = (2 : ℚ) ^ e := by
    rw [← zpow_natCast, ← zpow_add₀ two_ne_zero, Int.toNat_of_nonneg (by omega), sub_add_cancel]
  cases n <;> simp [FVal.units, mul_assoc, hpow]

/-- Comparing two values is comparing what they stand for. -/
theorem FVal.cmp_eq_compare {x y : FVal} (hx : x.isNaN = false) (hy : y.isNaN = false) : FVal.cmp x y = compare x.extended y.extended := by
  cases x with
  | nan => cases hx
  | inf n =>
    cases y with
    | nan => cases hy
    | inf n' =>
      have hbot : (⊥ : WithBot (WithTop ℚ)) < ((⊤ : WithTop ℚ) : WithBot (WithTop ℚ)) := WithBot.bot_lt_coe _
      cases n <;> cases n'
      · exact (compare_eq_iff_eq.2 rfl).symm
      · exact (compare_gt_iff_gt.2 hbot).symm
      · exact (compare_lt_iff_lt.2 hbot).symm
      · exact (compare_eq_iff_eq.2 rfl).symm
    | fin n' m e =>
      cases n
      · exact (compare_gt_iff_gt.2 (WithBot.coe_lt_coe.2 (WithTop.coe_lt_top _))).symm
      · exact (compare_lt_iff_lt.2 (WithBot.bot_lt_coe _)).symm
  | fin n m e =>
    cases y with
    | nan => cases hy
    | inf n' =>
      cases n'
      · exact (compare_lt_iff_lt.2 (WithBot.coe_lt_coe.2 (WithTop.coe_lt_top _))).symm
      · exact (compare_gt_iff_gt.2 (WithBot.bot_lt_coe _)).symm
    | fin n' m' e' =>
      have hmono : StrictMono fun i : Int => (i : ℚ) * (2 : ℚ) ^ min e e' := fun i j hij =>
        mul_lt_mul_of_pos_right (by exact_mod_cast hij) (by positivity)
      have hcoe : StrictMono fun q : ℚ => ((q : WithTop ℚ) : WithBot (WithTop ℚ)) := fun p q hpq =>
        WithBot.coe_lt_coe.2 (WithTop.coe_lt_coe.2 hpq)
      have hcompare (i j : Int) : compare i j =
          compare (((i * (2 : ℚ) ^ min e e' : ℚ) : WithTop ℚ) : WithBot (WithTop ℚ)) ((j * (2 : ℚ) ^ min e e' : ℚ) : WithTop ℚ) :=
        (compare_iff _ _).2 ((hcoe.comp hmono).compares.1 ((compare_iff _ _).1 rfl))
      rw [FVal.cmp, hcompare]
      · simp only [FVal.exp, FVal.units_mul (min_le_left e e'), FVal.units_mul (min_le_right e e'), FVal.extended]
      all_goals simp

/-! ### Ranks (R359) -/

/-- What a candidate of TOPK is ranked by: a NaN last, then the score downwards, then the index, then the lane. -/
def topKey (p : Nat × Vals) : Bool ×ₗ (WithBot (WithTop ℚ))ᵒᵈ ×ₗ ℕ ×ₗ ℕ :=
  let x := decodeFmt .fp32 (p.2.a.toNat % 2 ^ 32)
  toLex (x.isNaN, toLex (OrderDual.toDual x.extended, toLex (p.2.b.toNat % 2 ^ 32, p.1)))

theorem FVal.eq_nan_of_isNaN {x : FVal} (h : x.isNaN = true) : x = .nan := by
  cases x with
  | nan => rfl
  | _ => cases h

/-- A candidate ranks before another if its key is the lesser. -/
theorem topBefore_iff (p q : Nat × Vals) : topBefore p q = true ↔ topKey p < topKey q := by
  simp only [topKey, Prod.Lex.toLex_lt_toLex, OrderDual.toDual_lt_toDual, OrderDual.toDual_inj]
  unfold topBefore
  dsimp only
  generalize decodeFmt .fp32 (p.2.a.toNat % 2 ^ 32) = x
  generalize decodeFmt .fp32 (q.2.a.toNat % 2 ^ 32) = y
  cases hx : x.isNaN with
  | true =>
    cases hy : y.isNaN with
    | true => simp [FVal.eq_nan_of_isNaN hx, FVal.eq_nan_of_isNaN hy]
    | false => simp
  | false =>
    cases hy : y.isNaN with
    | true => simp
    | false =>
      rw [FVal.cmp_eq_compare hx hy]
      rcases lt_trichotomy x.extended y.extended with hlt | heq | hgt
      · simp [compare_lt_iff_lt.2 hlt, hlt.not_gt, hlt.ne]
      · simp [heq]
      · simp [compare_gt_iff_gt.2 hgt, hgt]

/-- Among as many different keys as there are positions, each position has the key that so many are less than. -/
theorem exists_rank {K : Type} [LinearOrder K] {n l : Nat} {k : Nat → K} (hk : Function.Injective k) (hl : l < n) :
    ∃ j < n, ((Finset.range n).filter fun i => k i < k j).card = l := by
  have hmaps : Set.MapsTo (fun j => ((Finset.range n).filter fun i => k i < k j).card) (Finset.range n) (Finset.range n) := fun j hj => by
    have hsub : ((Finset.range n).filter fun i => k i < k j) ⊂ Finset.range n :=
      Finset.filter_ssubset.2 ⟨j, hj, lt_irrefl _⟩
    simpa using Finset.card_lt_card hsub
  have hmono {i j : Nat} (hi : i < n) (hij : k i < k j) :
      ((Finset.range n).filter fun x => k x < k i).card < ((Finset.range n).filter fun x => k x < k j).card := by
    refine Finset.card_lt_card ⟨fun x hx => ?_, fun hsub => ?_⟩
    · simp only [Finset.mem_filter] at hx ⊢
      exact ⟨hx.1, hx.2.trans hij⟩
    · have := hsub (Finset.mem_filter.2 ⟨Finset.mem_range.2 hi, hij⟩)
      exact lt_irrefl _ (Finset.mem_filter.1 this).2
  have hinj : Set.InjOn (fun j => ((Finset.range n).filter fun i => k i < k j).card) (Finset.range n) := fun i hi j hj h => by
    rcases lt_trichotomy (k i) (k j) with hlt | heq | hgt
    · exact absurd h (hmono (by simpa using hi) hlt).ne
    · exact hk heq
    · exact absurd h (hmono (by simpa using hj) hgt).ne'
  obtain ⟨j, hj, hrank⟩ := Finset.surjOn_of_injOn_of_card_le _ hmaps hinj le_rfl (Finset.mem_coe.2 (Finset.mem_range.2 hl))
  exact ⟨j, by simpa using hj, hrank⟩

/-- How many of the full lanes rank before a candidate. -/
theorem length_topBefore (g : Nat → Vals) (p : Nat × Vals) :
    ((fullLanes g).filter fun q => topBefore q p).length = ((List.range 32).filter fun i => topBefore (i, g i) p).length := by
  rw [fullLanes, List.filter_map, List.length_map]
  rfl

/-- Each rank below 32 has a candidate among the full lanes, and TOPK finds one. -/
theorem topRank_fullLanes (g : Nat → Vals) {l : Nat} (hl : l < 32) :
    ∃ j < 32, ((List.range 32).filter fun i => topBefore (i, g i) (j, g j)).length = l ∧ topRank (fullLanes g) l = some (j, g j) := by
  have hinj : Function.Injective fun j => topKey (j, g j) := fun i j h => by
    simpa [topKey] using congrArg (fun k => (ofLex (ofLex (ofLex k).2).2).2) h
  obtain ⟨j, hj, hcard⟩ := exists_rank hinj hl
  have hrank : ((List.range 32).filter fun i => topBefore (i, g i) (j, g j)).length = l := by
    simp only [← topBefore_iff] at hcard
    rw [← hcard, Finset.card_def, Finset.filter_val, Finset.range_val, Multiset.range, Multiset.filter_coe, Multiset.coe_card]
    simp only [Bool.decide_eq_true]
  cases hfind : topRank (fullLanes g) l with
  | none =>
    have := List.find?_eq_none.1 hfind (j, g j) (List.mem_map_of_mem (List.mem_range.2 hj))
    simp only [length_topBefore, hrank, beq_self_eq_true, not_true] at this
  | some p =>
    obtain ⟨i, hi, rfl⟩ := List.mem_map.1 (List.mem_of_find?_eq_some hfind)
    refine ⟨i, List.mem_range.1 hi, ?_, rfl⟩
    have := List.find?_some hfind
    rwa [length_topBefore, beq_iff_eq] at this

theorem topkVal_word (a b : Word) : BitVec.ofNat 64 (b.toNat % 2 ^ 32 * 2 ^ 32 + a.toNat % 2 ^ 32) = b.setWidth 32 ++ a.setWidth 32 := by
  refine BitVec.eq_of_toNat_eq ?_
  rw [BitVec.toNat_append, ← Nat.shiftLeft_add_eq_or_of_lt (BitVec.isLt _), Nat.shiftLeft_eq]
  simp
  omega

/-- Settles O35: the lanes' values are found by number (`fromLane_fullLanes`), and TOPK finds the candidate of each rank
(`topRank_fullLanes`), since the candidates are linearly ordered (`topBefore_iff`). -/
theorem laneExchanges : Obligations.LaneExchanges := by
  intro a b k l hl vis v tops top
  have hvis {j : Nat} (hj : j < 32) (own : Word) : fromLane vis j own = a j := fromLane_fullLanes (fun j => { a := a j, b := k }) hj own
  refine ⟨?idx, ?up, ?down, ?xor, ?bcst, ?any, fun hkl => ?rest, fun hkl => ?ranked⟩
  case idx => exact ite_congr rfl (fun hk => hvis hk _) fun _ => rfl
  case up => exact ite_congr rfl (fun hk => hvis (by omega) _) fun _ => rfl
  case down => exact ite_congr rfl (fun hk => hvis hk _) fun _ => rfl
  case xor => exact ite_congr rfl (fun hk => hvis (xor_lane_lt hl hk) _) fun _ => rfl
  case bcst => exact ite_congr rfl (fun hk => hvis hk _) fun _ => rfl
  case any => simp only [voteVal, boolWord, vis, List.any_map, Function.comp_def]
  case rest =>
    have hlt : ¬l < min (min k.toNat 32) 32 := by omega
    exact if_neg hlt
  case ranked =>
    obtain ⟨j, hj, hrank, htop⟩ := topRank_fullLanes (fun j => { a := a j, b := b j, c := k }) hl
    have hlt : l < min (min k.toNat 32) 32 := by omega
    refine ⟨j, hj, hrank, (if_pos hlt).trans ?_⟩
    rw [show topRank tops l = _ from htop]
    exact topkVal_word (a j) (b j)

end Sys2Proof.Machine

/-! SUPPORT. Taking a trap (O40). -/

namespace Sys2Proof.Machine

/-! ### Entries of the matching store (R183) -/

theorem Core.entry?_freeEntry (k : Core) (frame : Nat) : (k.freeEntry frame).entry? frame = none := by
  simp [Core.entry?, Core.freeEntry]

/-- An entry put behind the others, in place of the one of its frame. -/
def Core.reenter (k : Core) (frame : Nat) (e : Entry) : Core := { k.freeEntry frame with entries := (k.freeEntry frame).entries ++ [e] }

theorem Core.frame_of_entry? {k : Core} {frame : Nat} {e : Entry} (h : k.entry? frame = some e) : e.frame = frame := by
  simpa using List.find?_some h

theorem Core.entry?_reenter {k : Core} {frame : Nat} {e : Entry} (h : e.frame = frame) : (k.reenter frame e).entry? frame = some e := by
  have hfree := k.entry?_freeEntry frame
  simp only [Core.entry?] at hfree
  simp [Core.entry?, Core.reenter, List.find?_append, hfree, h]

/-! ### Events and escalations (R341, R411, R412) -/

/-- The event of TYPE 1 of an escalation (R341). -/
def State.escalation (s : State) (n : BitVec 12) (reason : BitVec 8) (r : TrapRec) : Event :=
  { typ := 1, sub := reason, ctx := n, act := r.act, byCtx := true, vec := (s.ctx n).desc.evec,
    words := [0, 0, 0] ++ (List.range 4).map fun i => r.pack.extractLsb' (64 * i) 64 }

theorem State.stopCtx_evec (s : State) (n : BitVec 12) : ((s.stopCtx n).ctx n).desc.evec = (s.ctx n).desc.evec := by
  rw [State.stopCtx, State.ctx_modCtx_same]
  split <;> rfl

theorem State.escalate_of_room {s : State} (h : s.evFull = false) (n : BitVec 12) (reason : BitVec 8) (r : TrapRec) :
    s.escalate n reason r = { s.stopCtx n with host := { s.host with evQueue := s.host.evQueue ++ [s.escalation n reason r] } } := by
  have hroom : (s.stopCtx n).evFull = false := h
  simp only [State.escalate, h, Bool.false_eq_true, if_false, State.event, hroom, Bool.not_false, if_true, State.stopCtx_evec, State.escalation]
  rfl

theorem State.escalate_of_full {s : State} (h : s.evFull = true) (n : BitVec 12) (reason : BitVec 8) (r : TrapRec) :
    s.escalate n reason r = { s with host := { s.host with evWait := s.host.evWait ++ [s.escalation n reason r] } } := by
  simp only [State.escalate, h, if_true, State.event, Bool.not_true, Bool.false_eq_true, if_false, State.escalation]
  rfl

/-- An escalation leaves the cores, the homes and the network alone. -/
theorem State.escalate_leaves (s : State) (n : BitVec 12) (reason : BitVec 8) (r : TrapRec) :
    (s.escalate n reason r).cores = s.cores ∧ (s.escalate n reason r).homes = s.homes ∧ (s.escalate n reason r).net = s.net := by
  cases h : s.evFull with
  | false => rw [s.escalate_of_room h]; exact ⟨rfl, rfl, rfl⟩
  | true => rw [s.escalate_of_full h]; exact ⟨rfl, rfl, rfl⟩

theorem State.evFull_iff (s : State) : s.evFull = true ↔ 256 ≤ s.host.evQueue.length := decide_eq_true_iff

/-! ### Where a trap's record goes (R337, R341) -/

/-- The trap token of a record (R337, R338). -/
def State.trapToken (s : State) (c : Nat) (n : BitVec 12) (handle : Word) (a : Act) (r : TrapRec) : Token :=
  { payload := handle, tag := (s.ctx n).trapCtr, dblock := a.entry.1, dpkg := s.pkg, dcore := BitVec.ofNat 8 c, ctx := n, act := 0xFFFF,
    port := a.entry.2, trapf := true, spkg := s.pkg, score := BitVec.ofNat 8 c, skind := 0, tail := r.pack }

section
variable {s : State} {c : Nat} {n : BitVec 12} {handle : Word} {trapBlk : Bool} {r : TrapRec}

theorem State.sendTrap_of_graph {a : Act} (hblk : trapBlk = false) (hact : r.act ≠ 0xFFFF) (himage : (s.ctx n).desc.timage ≠ 0)
    (ha : s.act? (actKey n 0xFFFF) = some a) : s.sendTrap c n handle trapBlk r =
      { s.modCtx n (fun x => { x with trapCtr := x.trapCtr + 1 }) with net := s.net ++ [s.trapToken c n handle a r] } := by
  simp only [State.sendTrap, hblk, beq_eq_false_iff_ne.2 hact, Bool.or_self, Bool.false_eq_true, if_false, himage, ha]
  rfl

theorem State.sendTrap_of_handler (h : trapBlk = true ∨ r.act = 0xFFFF) : s.sendTrap c n handle trapBlk r = s.escalate n 1 r := by
  have : (trapBlk || r.act == 0xFFFF) = true := by simpa using h
  simp only [State.sendTrap, this, if_true]

theorem State.sendTrap_of_no_graph (hblk : trapBlk = false) (hact : r.act ≠ 0xFFFF)
    (h : (s.ctx n).desc.timage = 0 ∨ s.act? (actKey n 0xFFFF) = none) :
    s.sendTrap c n handle trapBlk r = s.escalate n (if (s.ctx n).desc.timage = 0 then 3 else 1) r := by
  simp only [State.sendTrap, hblk, beq_eq_false_iff_ne.2 hact, Bool.or_self, Bool.false_eq_true, if_false]
  by_cases himage : (s.ctx n).desc.timage = 0
  · simp only [himage, if_true]
  · simp only [himage, if_false, h.resolve_left himage]

theorem State.sendTrap_leaves : (s.sendTrap c n handle trapBlk r).cores = s.cores ∧ (s.sendTrap c n handle trapBlk r).homes = s.homes := by
  by_cases hhandler : trapBlk = true ∨ r.act = 0xFFFF
  · rw [State.sendTrap_of_handler hhandler]
    exact ⟨(s.escalate_leaves _ _ _).1, (s.escalate_leaves _ _ _).2.1⟩
  · obtain ⟨hblk, hact⟩ := not_or.1 hhandler
    have hblk := Bool.eq_false_iff.2 hblk
    by_cases hgraph : (s.ctx n).desc.timage = 0 ∨ s.act? (actKey n 0xFFFF) = none
    · rw [State.sendTrap_of_no_graph hblk hact hgraph]
      exact ⟨(s.escalate_leaves _ _ _).1, (s.escalate_leaves _ _ _).2.1⟩
    · obtain ⟨himage, hnone⟩ := not_or.1 hgraph
      obtain ⟨a, ha⟩ := Option.ne_none_iff_exists'.1 hnone
      rw [State.sendTrap_of_graph hblk hact himage ha]
      exact ⟨rfl, rfl⟩

end

/-! ### Taking a trap -/

/-- The entry that a trap parks. -/
def Entry.parkedBy (e : Entry) (t : Trap) (told : Bool) (index : Nat) (atomf : Bool) : Entry :=
  { e with state := .parked (t.fault.map fun id => { id, addr := t.addr }) told false, trapIdx := BitVec.ofNat 8 index, atomf }

/-- The state in which a trap has parked an entry. -/
def State.parkedBy (s : State) (c frame : Nat) (e : Entry) (t : Trap) (trapBlk : Bool) (index : Nat) (atomf : Bool) : State :=
  s.modCore c fun k => k.reenter frame (e.parkedBy t (t.fault.isNone && s.trapSent e.ctx e.act trapBlk) index atomf)

/-- What the owner is told when a trap's record is escalated, and what becomes of the context (R341, R412). -/
structure State.Tells (s u : State) (n : BitVec 12) (reason : BitVec 8) (r : TrapRec) : Prop where
  net : u.net = s.net
  room : s.host.evQueue.length < 256 → u.host = { s.host with evQueue := s.host.evQueue ++ [s.escalation n reason r] } ∧
    u.ctx n = (s.stopCtx n).ctx n
  full : 256 ≤ s.host.evQueue.length → u.host = { s.host with evWait := s.host.evWait ++ [s.escalation n reason r] } ∧ u.ctxs = s.ctxs

theorem State.escalate_tells (s : State) (n : BitVec 12) (reason : BitVec 8) (r : TrapRec) : s.Tells (s.escalate n reason r) n reason r where
  net := (s.escalate_leaves n reason r).2.2
  room hroom := by
    rw [s.escalate_of_room (Bool.eq_false_iff.2 fun h => absurd (s.evFull_iff.1 h) (by omega))]
    exact ⟨rfl, rfl⟩
  full hfull := by
    rw [s.escalate_of_full (s.evFull_iff.2 hfull)]
    exact ⟨rfl, rfl⟩

section
variable {s : State} {c frame : Nat} {e : Entry} {t : Trap} {index : Nat} {atomf trapBlk : Bool}

/-- The entry is parked, and the record goes where a trap's goes, or that of a page fault. -/
theorem State.takeTrap_of_entry (h : (s.core c).entry? frame = some e) :
    s.takeTrap c frame trapBlk t index atomf =
      let parked := s.parkedBy c frame e t trapBlk index atomf
      let r := t.record e.act e.tag e.dblock e.hid index atomf
      if t.fault.isNone then parked.sendTrap c e.ctx (frameHandle c frame) trapBlk r
      else if trapBlk || e.act == 0xFFFF then parked.escalate e.ctx 1 r
      else parked := by
  simp only [State.takeTrap, h]
  rfl

/-- A trap parks the entry of its frame, whatever becomes of the record (R132). -/
theorem State.takeTrap_parks (h : (s.core c).entry? frame = some e) :
    let u := s.takeTrap c frame trapBlk t index atomf
    u.cores = (s.parkedBy c frame e t trapBlk index atomf).cores ∧ u.homes = s.homes := by
  dsimp only
  rw [State.takeTrap_of_entry h]
  dsimp only
  split
  · exact State.sendTrap_leaves
  · split
    · exact ⟨(State.escalate_leaves _ _ _ _).1, (State.escalate_leaves _ _ _ _).2.1⟩
    · exact ⟨rfl, rfl⟩

/-- From a trap-handler block, from the trap activation, or where there is no trap graph, the record is escalated, with its reason (R341). -/
theorem State.takeTrap_escalates (h : (s.core c).entry? frame = some e)
    (hwhy : (trapBlk = true ∨ e.act = 0xFFFF) ∨
      t.fault = none ∧ ((s.ctx e.ctx).desc.timage = 0 ∨ s.act? (actKey e.ctx 0xFFFF) = none)) :
    ∃ reason : BitVec 8, ((trapBlk = true ∨ e.act = 0xFFFF) → reason = 1) ∧
      (¬(trapBlk = true ∨ e.act = 0xFFFF) → reason = if (s.ctx e.ctx).desc.timage = 0 then 3 else 1) ∧
      s.takeTrap c frame trapBlk t index atomf =
        (s.parkedBy c frame e t trapBlk index atomf).escalate e.ctx reason (t.record e.act e.tag e.dblock e.hid index atomf) := by
  rw [State.takeTrap_of_entry h]
  by_cases hthere : trapBlk = true ∨ e.act = 0xFFFF
  · refine ⟨1, fun _ => rfl, fun hn => absurd hthere hn, ?_⟩
    have hb : (trapBlk || e.act == 0xFFFF) = true := by simpa using hthere
    dsimp only
    rw [if_pos hb, State.sendTrap_of_handler hthere]
    exact ite_self _
  · obtain ⟨hfault, hgraph⟩ := hwhy.resolve_left hthere
    obtain ⟨hblk, hact⟩ := not_or.1 hthere
    refine ⟨_, fun ht => absurd ht hthere, fun _ => rfl, ?_⟩
    rw [hfault]
    exact State.sendTrap_of_no_graph (s := s.parkedBy c frame e t trapBlk index atomf) (Bool.eq_false_iff.2 hblk) hact hgraph

end

/-- Settles O40: the entry is parked, whatever becomes of the record (`takeTrap_parks`); the record goes to the trap graph
(`sendTrap_of_graph`) or to the owner (`takeTrap_escalates`, `escalate_tells`), and a page fault's goes nowhere but for the escalation. -/
theorem trapsAreTaken : Obligations.TrapsAreTaken := by
  intro s c frame e t index atomf trapBlk hentry u r
  obtain ⟨hcores, hhomes⟩ : u.cores = _ ∧ u.homes = s.homes := State.takeTrap_parks hentry
  have hcore : u.core c = (s.core c).reenter frame (e.parkedBy t (t.fault.isNone && s.trapSent e.ctx e.act trapBlk) index atomf) := by
    rw [State.core, hcores]
    exact s.core_modCore_same c _
  refine ⟨⟨_, ?entry, rfl⟩, ?sram, hhomes, fun hfault hthere => ?fault, fun hfault a hblk hact himage ha => ?sent, fun hwhy => ?told⟩
  case entry =>
    have hframe : e.frame = frame := Core.frame_of_entry? hentry
    rw [hcore]
    exact Core.entry?_reenter hframe
  case sram => rw [hcore]; rfl
  case fault =>
    obtain ⟨hblk, hact⟩ := not_or.1 hthere
    have hu : u = s.parkedBy c frame e t trapBlk index atomf := by
      refine (State.takeTrap_of_entry hentry).trans ?_
      rw [if_neg (by simpa using hfault), if_neg (by simpa using ⟨Bool.eq_false_iff.2 hblk, hact⟩)]
    rw [hu]
    exact ⟨rfl, rfl, rfl⟩
  case sent =>
    have hu : u = _ := (State.takeTrap_of_entry hentry).trans <| (if_pos (by simp [hfault])).trans
      (State.sendTrap_of_graph (s := s.parkedBy c frame e t trapBlk index atomf) hblk hact himage ha)
    rw [hu]
    refine ⟨⟨_, rfl, rfl, rfl, rfl, rfl, rfl, rfl, rfl, rfl, rfl, rfl⟩, ?_⟩
    exact congrArg Ctx.trapCtr (State.ctx_modCtx_same (s.parkedBy c frame e t trapBlk index atomf) e.ctx fun x => { x with trapCtr := x.trapCtr + 1 })
  case told =>
    obtain ⟨reason, hthere, hnot, hu⟩ := State.takeTrap_escalates (index := index) (atomf := atomf) hentry hwhy
    have htells := (s.parkedBy c frame e t trapBlk index atomf).escalate_tells e.ctx reason r
    rw [show State.escalate _ _ _ r = u from hu.symm] at htells
    refine ⟨htells.net, s.escalation e.ctx reason r, rfl, hthere, hnot, rfl, rfl, rfl, rfl, rfl, fun hroom => ?_, htells.full⟩
    obtain ⟨hhost, hctx⟩ := htells.room hroom
    refine ⟨hhost, hctx.trans ((State.ctx_modCtx_same _ _ _).trans ?_)⟩
    rfl

end Sys2Proof.Machine

/-! SUPPORT. The return from a trap (O41). -/

namespace Sys2Proof.Machine

/-- A table whose values are changed one by one. -/
theorem nget_map {α β : Type} (g : α → β) (m : NMap α) (j : Nat) : nget (m.map fun p => (p.1, g p.2)) j = (nget m j).map g := by
  induction m with
  | nil => rfl
  | cons p r ih =>
    simp only [List.map_cons, nget, ih]
    split <;> rfl

theorem Core.entry?_modEntry {k : Core} {frame : Nat} {e : Entry} {f : Entry → Entry} (h : k.entry? frame = some e)
    (hf : ∀ e, (f e).frame = e.frame) : (k.modEntry frame f).entry? frame = some (f e) := by
  have hp : (fun e : Entry => e.frame == frame) ∘ (fun e => if e.frame = frame then f e else e) = fun e => e.frame == frame := by
    funext x
    dsimp only [Function.comp]
    split
    · rw [hf]
    · rfl
  rw [Core.entry?] at h
  rw [Core.entry?, Core.modEntry, List.find?_map, hp, h, Option.map_some, if_pos (by simpa using List.find?_some h)]

/-! ### Placing a reference (R198) -/

/-- Where a reference is placed in a core: in a bin of its own identity, in a free bin, or in the queue of references; and nowhere else. -/
structure Core.Placed (k u : Core) (q : QRef) : Prop where
  entries : u.entries = k.entries
  sram : u.sram = k.sram
  place : (∃ n b', nget u.bins n = some b' ∧ b'.ctx = q.ctx ∧ b'.act = q.act ∧ b'.dblock = q.dblock ∧ u.binQ = k.binQ ∧
      (b'.refs = [q.ref] ∧ nget k.bins n = none ∨ ∃ b, (n, b) ∈ k.bins ∧ b'.refs = insertBy Ref.readyAt q.ref b.refs) ∧
      ∀ m, m ≠ n → (nget u.bins m).map Bin.refs = (nget k.bins m).map Bin.refs) ∨
    u.binQ = insertBy (fun r => r.ref.readyAt) q k.binQ ∧ ∀ m, (nget u.bins m).map Bin.refs = (nget k.bins m).map Bin.refs

theorem Core.placed_placeRef (k : Core) (q : QRef) : k.Placed (k.placeRef q) q := by
  unfold Core.placeRef
  dsimp only
  split
  · next n b hfind =>
    have hb := List.find?_some hfind
    simp only [Bool.and_eq_true, beq_iff_eq, decide_eq_true_eq] at hb
    obtain ⟨⟨⟨hctx, hact⟩, hdblock⟩, -⟩ := hb
    exact ⟨rfl, rfl, .inl ⟨n, _, nget_nput_same _ _ _, hctx, hact, hdblock, rfl, .inr ⟨b, List.mem_of_find?_eq_some hfind, rfl⟩,
      fun m hm => by rw [nget_nput_other _ _ hm]⟩⟩
  · split
    · next n hfree =>
      have hnone : nget k.bins n = none := by simpa using List.find?_some hfree
      exact ⟨rfl, rfl, .inl ⟨n, _, nget_nput_same _ _ _, rfl, rfl, rfl, rfl, .inl ⟨rfl, hnone⟩,
        fun m hm => by rw [nget_nput_other _ _ hm]⟩⟩
    · exact ⟨rfl, rfl, .inr ⟨rfl, fun m => rfl⟩⟩

/-- A bin as it stands keeps its identity and its references. -/
theorem State.refreshBin_keeps (s : State) (c : Nat) (b : Bin) :
    (s.refreshBin c b).ctx = b.ctx ∧ (s.refreshBin c b).act = b.act ∧ (s.refreshBin c b).dblock = b.dblock ∧ (s.refreshBin c b).refs = b.refs := by
  unfold State.refreshBin
  repeat' split
  all_goals exact ⟨rfl, rfl, rfl, rfl⟩

theorem State.core_refreshBins (s : State) (c : Nat) :
    (s.refreshBins c).core c = { s.core c with bins := (s.core c).bins.map fun p => (p.1, s.refreshBin c p.2) } := s.core_modCore_same c _

/-- Looking at the bins of a core as they stand moves no reference. -/
theorem Core.Placed.refresh {k : Core} {q : QRef} {s : State} {c : Nat} (h : k.Placed (s.core c) q) : k.Placed ((s.refreshBins c).core c) q := by
  have hrefs (m : Nat) : (nget ((s.refreshBins c).core c).bins m).map Bin.refs = (nget (s.core c).bins m).map Bin.refs := by
    rw [State.core_refreshBins, nget_map, Option.map_map]
    exact congrArg (fun f => (nget (s.core c).bins m).map f) (funext fun b => (s.refreshBin_keeps c b).2.2.2)
  refine ⟨h.entries ▸ ?_, h.sram ▸ ?_, ?_⟩
  · rw [State.core_refreshBins]
  · rw [State.core_refreshBins]
  · have hq : ((s.refreshBins c).core c).binQ = (s.core c).binQ := by rw [State.core_refreshBins]
    rcases h.place with ⟨n, b', hn, hctx, hact, hdblock, hbinQ, hb, hother⟩ | ⟨hbinQ, hother⟩
    · obtain ⟨kctx, kact, kdblock, krefs⟩ := s.refreshBin_keeps c b'
      refine .inl ⟨n, s.refreshBin c b', ?_, kctx.trans hctx, kact.trans hact, kdblock.trans hdblock, hq.trans hbinQ, ?_,
        fun m hm => (hrefs m).trans (hother m hm)⟩
      · rw [State.core_refreshBins, nget_map, hn]; rfl
      · rwa [krefs]
    · exact .inr ⟨hq.trans hbinQ, fun m => (hrefs m).trans (hother m)⟩

/-! ### Making an entry ready (R196) -/

/-- An entry that becomes ready. -/
def Entry.readied (e : Entry) (t : Nat) : Entry := { e with state := .ready, readyAt := t }

/-- The reference to an entry that becomes ready. -/
def Entry.qref (e : Entry) (frame t : Nat) : QRef := { ctx := e.ctx, act := e.act, dblock := e.dblock, ref := { frame, readyAt := t }, hdr := e.hdr }

/-- The core with the entry of a frame in the ready state, before its reference is placed. -/
def Core.readied (k : Core) (frame t : Nat) : Core := { k.modEntry frame fun e => e.readied t with lastReady := t }

/-- An entry made ready has its reference placed, and nothing goes out. -/
theorem State.makeReady_placed {s : State} {c frame : Nat} {e : Entry} (h : (s.core c).entry? frame = some e) :
    ((s.core c).readied frame (s.readyTime c)).Placed ((s.makeReady c frame).core c) (e.qref frame (s.readyTime c)) ∧
      (s.makeReady c frame).net = s.net := by
  refine ⟨Core.Placed.refresh ?_, rfl⟩
  rw [State.core_modCore_same, h]
  exact Core.placed_placeRef _ _

/-- The entry of a frame made ready. -/
theorem State.entry?_makeReady {s : State} {c frame : Nat} {e : Entry} (h : (s.core c).entry? frame = some e) :
    ((s.makeReady c frame).core c).entry? frame = some (e.readied (s.readyTime c)) := by
  rw [Core.entry?, (State.makeReady_placed h).1.entries]
  exact Core.entry?_modEntry h fun _ => rfl

/-! ### TRET and KILL of a parked entry (R151, R386, R389) -/

section
variable {s : State} {c frame : Nat} {e : Entry} {stop : Option Stop} {told refuted : Bool}

theorem State.returnParked_of_parked (h : (s.core c).entry? frame = some e) (he : e.state = .parked stop told false) :
    s.returnParked c frame = s.makeReady c frame := by
  simp only [State.returnParked, h, he]

theorem State.returnParked_of_refuted (h : (s.core c).entry? frame = some e) (he : e.state = .parked stop told true) :
    s.returnParked c frame = s.modCore c fun k => k.freeEntry frame := by
  simp only [State.returnParked, h, he]

theorem State.killParked_of_parked (h : (s.core c).entry? frame = some e) (he : e.state = .parked stop told refuted) :
    s.killParked c frame = s.modCore c fun k => k.freeEntry frame := by
  simp only [State.killParked, h, he]

theorem State.entry?_free (s : State) (c frame : Nat) : ((s.modCore c fun k => k.freeEntry frame).core c).entry? frame = none := by
  rw [State.core_modCore_same]
  exact Core.entry?_freeEntry _ _

/-- An entry that is not parked is left alone. -/
theorem State.serve_of_not_parked (h : (s.core c).entry? frame = some e) (he : e.state = .ready ∨ e.state = .firing ∨ e.state = .waiting) :
    s.returnParked c frame = s ∧ s.killParked c frame = s ∧ s.tretParked c frame = s := by
  rcases he with he | he | he <;> simp only [State.returnParked, State.killParked, State.tretParked, h, he, and_self]

end

/-- Settles O41: the return of an entry that is not marked refuted makes it ready (`entry?_makeReady`, `makeReady_placed`), one marked
refuted and one that is killed is taken out (`entry?_free`), and TRET looks at the fault first. -/
theorem returnsFromTraps : Obligations.ReturnsFromTraps := by
  intro s c frame e stop told h
  refine ⟨fun he => ?ready, fun he => ?refuted, fun he => ?killed, State.serve_of_not_parked h, fun f told r he => ?fault, fun told r he => ?tret⟩
  case ready =>
    rw [State.returnParked_of_parked h he]
    obtain ⟨hplaced, hnet⟩ := State.makeReady_placed h
    refine ⟨⟨_, State.entry?_makeReady h, rfl, rfl, rfl, rfl, rfl, rfl, rfl, le_max_left _ _, ?_⟩, hplaced.sram, hnet⟩
    rcases hplaced.place with hbin | ⟨hqueue, hother⟩
    · exact .inl hbin
    · exact .inr ⟨_, rfl, rfl, rfl, rfl, hqueue, hother⟩
  case refuted => rw [State.returnParked_of_refuted h he, State.entry?_free]
  case killed => rcases he with he | he <;> rw [State.killParked_of_parked h he, State.entry?_free]
  case fault => simp only [State.tretParked, h, he]
  case tret => simp only [State.tretParked, h, he]

end Sys2Proof.Machine

/-! SUPPORT. The order of a lane's commit (O43). -/

namespace Sys2Proof.Machine

section
variable {α : Type} (key : α → Nat)

theorem insertBy_eq_orderedInsert (x : α) (l : List α) : insertBy key x l = l.orderedInsert (fun a b => key a < key b) x := by
  induction l with
  | nil => rfl
  | cons y r ih => rw [insertBy, List.orderedInsert, ih]

theorem insertBy_perm (x : α) (l : List α) : (insertBy key x l).Perm (x :: l) := by
  rw [insertBy_eq_orderedInsert]
  exact List.perm_orderedInsert _ x l

theorem insertBy_pairwise (x : α) {l : List α} (h : l.Pairwise fun a b => key a ≤ key b) :
    (insertBy key x l).Pairwise fun a b => key a ≤ key b := by
  induction l with
  | nil => exact List.pairwise_singleton _ x
  | cons y r ih =>
    obtain ⟨hy, hr⟩ := List.pairwise_cons.1 h
    unfold insertBy
    split
    · next hlt =>
      refine List.pairwise_cons.2 ⟨fun z hz => ?_, h⟩
      rcases List.mem_cons.1 hz with rfl | hz
      · exact hlt.le
      · exact hlt.le.trans (hy z hz)
    · next hge =>
      refine List.pairwise_cons.2 ⟨fun z hz => ?_, ih hr⟩
      rcases List.mem_cons.1 ((insertBy_perm key x r).mem_iff.1 hz) with rfl | hz
      · exact not_lt.1 hge
      · exact hy z hz

/-- Sorting by a key arranges the elements in its order, each as often as before. -/
theorem sortBy_spec (l : List α) : (sortBy key l).Pairwise (fun a b => key a ≤ key b) ∧ (sortBy key l).Perm l := by
  suffices h : ∀ acc : List α, acc.Pairwise (fun a b => key a ≤ key b) →
      (l.foldl (fun acc x => insertBy key x acc) acc).Pairwise (fun a b => key a ≤ key b) ∧
      (l.foldl (fun acc x => insertBy key x acc) acc).Perm (acc ++ l) from h [] .nil
  induction l with
  | nil => exact fun acc hacc => ⟨hacc, by rw [List.append_nil]; exact .refl acc⟩
  | cons x r ih =>
    intro acc hacc
    obtain ⟨hsorted, hperm⟩ := ih _ (insertBy_pairwise key x hacc)
    exact ⟨hsorted, hperm.trans (((insertBy_perm key x acc).append_right r).trans List.perm_middle.symm)⟩

end

/-- Settles O43: a lane's acts follow its fate, and those of a lane that commits are its effects and elements sorted by index. -/
theorem commitOrder : Obligations.CommitOrder := by
  intro s ch l x
  refine ⟨fun hrefuted => ?_, fun hlive hdoom => ?_, fun hlive hdoom => ?_⟩
  · have hfate : fateOf s ch x = .orphan := if_pos hrefuted
    simp only [laneActs, hfate]
  · have hfate : fateOf s ch x = .voided := (if_neg hlive).trans (if_pos (Option.isSome_iff_ne_none.2 hdoom))
    simp only [laneActs, hfate]
  · have hfate : fateOf s ch x = .commits := (if_neg hlive).trans (if_neg (by simp [hdoom]))
    obtain ⟨hsorted, hperm⟩ := sortBy_spec (·.1) (x.effs.map (fun e => (e.1, CommitAct.eff l e.1 e.2 false)) ++
      x.claims.map (fun k => (k.idx, CommitAct.elem l k)) ++
      (if leadLane s ch = some l then ch.effs.map fun e => (e.1, CommitAct.eff (32 + l) e.1 e.2 false) else []))
    exact ⟨_, by simp only [laneActs, hfate], hsorted, hperm⟩

end Sys2Proof.Machine

/-! SUPPORT. Runs of free frames and what clearing them leaves (O22). -/

namespace Sys2Proof.Machine

/-- A cleared range of a byte memory reads zero, and every other byte as before. -/
theorem mget_mclear (m : List Host.Cell) (lo hi a : Nat) :
    mget (mclear m lo hi) a = if lo ≤ a ∧ a < hi then 0 else mget m a := by
  induction m with
  | nil => exact (ite_self _).symm
  | cons p r ih =>
    obtain ⟨b, v⟩ := p
    unfold mclear at ih ⊢
    by_cases hb : b < lo ∨ hi ≤ b
    · rw [List.filter_cons_of_pos (by simpa using hb), mget, mget, ih]
      split
      · next heq => rw [if_neg (by omega)]
      · rfl
    · rw [List.filter_cons_of_neg (by simpa using hb), ih, mget]
      split
      · rfl
      · rw [if_neg (by omega)]

theorem Core.mem_freeRuns {k : Core} {n j : Nat} :
    j ∈ k.freeRuns n ↔ j + n ≤ k.frames ∧ ∀ i, i < n → k.frameFree (j + i) = true := by
  simp only [Core.freeRuns, List.mem_filter, List.mem_range, List.all_eq_true]
  exact and_congr_left' (by omega)

/-- Clearing a list of frames clears their spans, one after the other. -/
theorem mget_foldl_zeroSram (k : Core) (start : Nat → Nat) (l : List Nat) (a : Nat) :
    mget (l.foldl (fun (m : Core) i => m.zeroSram (start i) (start i + 128)) k).sram a =
      if l.any (fun i => decide (start i ≤ a ∧ a < start i + 128)) = true then 0 else mget k.sram a := by
  induction l generalizing k with
  | nil => rfl
  | cons i r ih =>
    rw [List.foldl_cons, ih, Core.zeroSram, mget_mclear, List.any_cons]
    by_cases hi : start i ≤ a ∧ a < start i + 128
    · simp [hi]
    · simp [hi]

/-- Settles O22: the candidates by the definition of a free run, the cleared bytes frame by frame. -/
theorem frameRuns : Obligations.FrameRuns := fun k n j _ =>
  ⟨Core.mem_freeRuns, mget_foldl_zeroSram k (fun i => k.frameAddr (j + i)) (List.range n)⟩

end Sys2Proof.Machine

/-! SUPPORT. The positions that a claim hands out (O24). -/

namespace Sys2Proof.Machine

/-- What a lane takes that is offered a position: the position where it is below the bound, so that the next lane is offered the one
after it, or a trap, which leaves the position to the next lane (R178). -/
def Claimed.Takes (one : Claimed) (bound q next : Nat) : Prop :=
  (∃ k, one = .at_ q k ∧ next = q + 1 ∧ q < bound) ∨ ∃ t, one = .trap t ∧ next = q

/-- The first lane of a claim takes what it is offered, and the others are offered what follows. -/
theorem claimLanes_cons {core : Nat} {ch : Chord} {i : Nat} {w : CmpkWord} {sz : AtSize} {h : CmpkHdr} {addr : Word} {holes : Place}
    {l : ClaimLane} {r : List ClaimLane} {q q' : Nat} {s s' : State} {out : List (Nat × Claimed)}
    (hc : claimLanes core ch i w sz h addr holes (l :: r) q s = some (out, q', s')) :
    ∃ one q1 s1 rest, one.Takes h.bound q q1 ∧ claimLanes core ch i w sz h addr holes r q1 s1 = some (rest, q', s') ∧
      out = (l.lane, one) :: rest := by
  have hgo {one : Claimed} {q1 : Nat} {s1 : State} (hone : one.Takes h.bound q q1)
      (hm : (match claimLanes core ch i w sz h addr holes r q1 s1 with
        | none => none
        | some (rest, q'', s) => some ((l.lane, one) :: rest, q'', s)) = some (out, q', s')) :
      ∃ one q1 s1 rest, one.Takes h.bound q q1 ∧ claimLanes core ch i w sz h addr holes r q1 s1 = some (rest, q', s') ∧
        out = (l.lane, one) :: rest := by
    split at hm
    · cases hm
    · next hrest => cases hm; exact ⟨_, _, _, _, hone, hrest, rfl⟩
  unfold claimLanes at hc
  dsimp only at hc
  generalize (if w.offw = true then 4 else 2) = width at hc
  split at hc
  · exact hgo (.inr ⟨_, rfl, rfl⟩) hc
  · split at hc
    · exact hgo (.inr ⟨_, rfl, rfl⟩) hc
    · next hq =>
      have hq : q < h.bound := Nat.not_le.1 hq
      split at hc
      · cases hc
      · exact hgo (.inr ⟨_, rfl, rfl⟩) hc
      · split at hc
        · split at hc
          · cases hc
          · exact hgo (.inr ⟨_, rfl, rfl⟩) hc
          · exact hgo (.inl ⟨_, rfl, rfl, hq⟩) hc
        · exact hgo (.inl ⟨_, rfl, rfl, hq⟩) hc

/-- Settles O24, by induction on the lanes: each takes the position it is offered or leaves it to the next. -/
theorem claimPositions : Obligations.ClaimPositions := by
  intro core ch i w sz h addr holes ls
  induction ls with
  | nil =>
    rintro q s rs q' s' hc
    cases hc
    exact ⟨rfl, le_rfl, by simp, fun hlt => absurd hlt (lt_irrefl q)⟩
  | cons l r ih =>
    intro q s rs q' s' hc
    obtain ⟨one, q1, s1, rest, ⟨k, rfl, rfl, hbound⟩ | ⟨t, rfl, rfl⟩, hrest, rfl⟩ := claimLanes_cons hc
    all_goals obtain ⟨hlanes, hle, hpos, hlast⟩ := ih _ _ _ _ _ hrest
    · have hrange : List.range' q (q' - q) = q :: List.range' (q + 1) (q' - (q + 1)) := by
        rw [show q' - q = q' - (q + 1) + 1 by omega, List.range'_succ]
      exact ⟨congrArg (l.lane :: ·) hlanes, by omega, by rw [hrange, ← hpos]; rfl, fun _ => by
        rcases hle.eq_or_lt with rfl | hlt
        · exact hbound
        · exact hlast hlt⟩
    · exact ⟨congrArg (l.lane :: ·) hlanes, hle, hpos, hlast⟩

end Sys2Proof.Machine

/-! SUPPORT. The order of the checks of an access, and what a passed one leaves alone (O25). -/

namespace Sys2Proof.Machine

/-- Nothing but the cached translations and the count of free choices has changed (R395, assumption log 11). -/
structure State.CachesOnly (s t : State) : Prop where
  rest : t = { s with cores := t.cores, flow := { s.flow with freeCtr := t.flow.freeCtr },
                      xlt := { s.xlt with leaves := t.xlt.leaves, nonLeaves := t.xlt.nonLeaves } }
  cores : ∀ c, { t.core c with utlb := [] } = { s.core c with utlb := [] }

namespace State.CachesOnly

variable {s t u : State}

theorem refl (s : State) : s.CachesOnly s := ⟨rfl, fun _ => rfl⟩

theorem trans (h : s.CachesOnly t) (h' : t.CachesOnly u) : s.CachesOnly u where
  rest := by rw [h'.rest, h.rest]
  cores c := (h'.cores c).trans (h.cores c)

theorem foldl {α : Type} {f : State → α → State} (hf : ∀ s x, State.CachesOnly s (f s x)) (l : List α) (s : State) :
    s.CachesOnly (l.foldl f s) := by
  induction l generalizing s with
  | nil => exact refl s
  | cons x r ih => exact (hf s x).trans (ih _)

/-- A core's micro-TLB is replaced. -/
theorem setUtlb (s : State) (c : Nat) (l : List Leaf) : s.CachesOnly (s.modCore c fun k => { k with utlb := l }) where
  rest := rfl
  cores d := by
    by_cases hd : d = c
    · subst hd; simp
    · rw [State.core_modCore_other _ _ hd]

/-- The translation slices are replaced. -/
theorem setSlices (s : State) (ls : NMap (List Leaf)) (ns : NMap (List NonLeaf)) :
    s.CachesOnly { s with xlt := { s.xlt with leaves := ls, nonLeaves := ns } } := ⟨rfl, fun _ => rfl⟩

theorem cachePut {α : Type} [DecidableEq α] (s : State) (cap : Nat) (l : List α) (x : α) : s.CachesOnly (s.cachePut cap l x).2 := by
  unfold State.cachePut
  split
  · exact refl s
  · split
    · exact refl s
    · exact ⟨rfl, fun _ => rfl⟩

theorem cachePath (path : List NonLeaf) {p : List NonLeaf × State} (hp : s.CachesOnly p.2) :
    s.CachesOnly (path.foldl (fun (p : List NonLeaf × State) e => State.cachePut p.2 Config.sliceNonLeaves p.1 e) p).2 :=
  List.foldlRecOn (motive := fun p : List NonLeaf × State => s.CachesOnly p.2) path _ hp fun _ hp _ _ => hp.trans (cachePut _ _ _ _)

theorem fillXlt (s : State) (w : Who) (va : Nat) : s.CachesOnly (s.fillXlt w va) := by
  unfold State.fillXlt
  dsimp only
  split
  · split
    · exact (cachePut s _ _ _).trans (setUtlb _ _ _)
    · exact refl s
  · split
    · next path _ =>
      split
      · refine trans ?_ (setUtlb _ _ _)
        refine trans ?_ (cachePut _ _ _ _)
        refine trans ?_ (setSlices _ _ _)
        exact cachePath path.reverse (cachePut s _ _ _)
      · refine trans ?_ (setSlices _ _ _)
        exact cachePath path.reverse (cachePut s _ _ _)
    · exact refl s

end State.CachesOnly

namespace State

variable {s t : State} {core : Nat} {w : Who} {a : Word} {n align : Nat} {k : AccKind} {only0 atomic : Bool} {pl : List Place}

/-- Pages that pass their checks give every byte its place. -/
theorem checkPages_ok {va : Nat} (h : s.checkPages w va n k = .ok pl t) : pl.length = n ∧ s.CachesOnly t := by
  unfold State.checkPages at h
  dsimp only at h
  split at h
  · cases h
  · split at h
    · split at h <;> cases h
    · split at h
      · cases h
      · split at h
        · cases h
        · split at h
          · cases h
          · cases h
            exact ⟨by simp, .foldl (fun s p => .fillXlt s w p) _ s⟩

theorem check_of_window (h : windowOk core only0 a n = false) : s.check core w a n align k only0 atomic = .trap (trapWindow a) s :=
  if_pos (by simp [h])

theorem check_of_misaligned (hw : windowOk core only0 a n = true) (ha : a.toNat % align ≠ 0) :
    s.check core w a n align k only0 atomic = .trap (trapAlign a) s :=
  (if_neg (by simp [hw])).trans (if_pos (by simp [ha]))

theorem check_of_speculative (hw : windowOk core only0 a n = true) (ha : a.toNat % align = 0) (hh : w.hid ≠ 0)
    (hs : atomic = true ∨ k.writes = true ∧ a.toNat / 2 ^ 60 ≠ 0) : s.check core w a n align k only0 atomic = .trap (trapSpec a) s :=
  (if_neg (by simp [hw])).trans <| (if_neg (by simp [ha])).trans <| if_pos <| by
    simp only [Bool.and_eq_true, Bool.or_eq_true, bne_iff_ne]
    exact ⟨hh, hs⟩

/-- An access that passes lies in its window, is aligned, and has a place for every byte. -/
theorem check_ok (h : s.check core w a n align k only0 atomic = .ok pl t) :
    windowOk core only0 a n = true ∧ a.toNat % align = 0 ∧ pl.length = n ∧ s.CachesOnly t := by
  have hw : windowOk core only0 a n = true := by
    by_contra hw
    rw [check_of_window (Bool.eq_false_iff.2 hw)] at h
    cases h
  have ha : a.toNat % align = 0 := by
    by_contra ha
    rw [check_of_misaligned hw ha] at h
    cases h
  refine ⟨hw, ha, ?_⟩
  rw [State.check, if_neg (by simp [hw]), if_neg (by simp [ha])] at h
  split at h
  · cases h
  · split at h
    · split at h
      · next hp =>
        split at h <;> cases h
        exact checkPages_ok hp
      · next hp => exact absurd h (hp _ _)
    · dsimp only at h
      split at h
      · next hall =>
        cases h
        refine ⟨(List.reduceOption_length_eq_iff.2 (List.all_eq_true.1 hall)).trans ?_, .refl s⟩
        simp [byteAddrs]
      · cases h

end State

/-- Settles O25: each check stops what it catches before the next is made, and what passes them all is `State.check_ok`. -/
theorem accessOrder : Obligations.AccessOrder := by
  intro s core w a n align k only0 atomic
  refine ⟨State.check_of_window, State.check_of_misaligned, State.check_of_speculative, fun pl t h => ?_⟩
  obtain ⟨hw, ha, hlen, hrest, hcores⟩ := State.check_ok h
  exact ⟨hw, ha, hlen, hrest, hcores⟩

end Sys2Proof.Machine

/-! SUPPORT. What the atomic operations leave in a location (O46). -/

namespace Sys2Proof.Machine

/-! ### Codes of a rounded value (R85) -/

theorem SFmt.prec_pos (f : SFmt) : 0 < f.prec := by cases f <;> decide

/-- A rounded magnitude below 2^(E + prec) has an exponent field of at most E's, and one more where it rounds up to a power of two. -/
theorem roundMag_le (f : SFmt) (mode : Rnd) (neg : Bool) {m : Nat} {e E : Int} (sticky : Bool) (hE : f.qmin ≤ E)
    (hm : (Nat.log2 m : Int) + e < E + f.prec) :
    roundMag f mode neg m e sticky ≤ ((E - f.qmin).toNat + 2) * 2 ^ (f.prec - 1) := by
  unfold roundMag
  split
  · exact Nat.zero_le _
  extract_lets q k lo rem half n
  have hp := f.prec_pos
  have hlt : m < 2 ^ (Nat.log2 m + 1) := Nat.lt_log2_self
  have hlo : lo < 2 ^ f.prec := by
    unfold lo
    split
    · refine Nat.div_lt_of_lt_mul (hlt.trans_le ?_)
      rw [← pow_add]
      exact Nat.pow_le_pow_right two_pos (by omega)
    · calc m * 2 ^ (e - q).toNat
        _ < 2 ^ (Nat.log2 m + 1) * 2 ^ (e - q).toNat := Nat.mul_lt_mul_of_pos_right hlt (Nat.two_pow_pos _)
        _ = 2 ^ (Nat.log2 m + 1 + (e - q).toNat) := (pow_add ..).symm
        _ ≤ 2 ^ f.prec := Nat.pow_le_pow_right two_pos (by omega)
  have hn : n ≤ 2 ^ f.prec := by
    unfold n
    split <;> omega
  have hdouble : 2 ^ f.prec = 2 * 2 ^ (f.prec - 1) := (mul_pow_sub_one hp.ne' 2).symm
  calc n + (q - f.qmin).toNat * 2 ^ (f.prec - 1)
    _ ≤ 2 * 2 ^ (f.prec - 1) + (E - f.qmin).toNat * 2 ^ (f.prec - 1) :=
      Nat.add_le_add (hdouble ▸ hn) (Nat.mul_le_mul_right _ (by omega))
    _ = ((E - f.qmin).toNat + 2) * 2 ^ (f.prec - 1) := by ring

/-- A magnitude no greater than M·2^E, with M below 2^p, lies below 2^(E + p). -/
theorem log2_add_lt_of_cmpMag {m M p : Nat} {e E : Int} (hm : m ≠ 0) (hM : M < 2 ^ p) (h : cmpMag m e M E ≠ .gt) :
    (Nat.log2 m : Int) + e < E + p := by
  have hle : m * 2 ^ (e - min e E).toNat ≤ M * 2 ^ (E - min e E).toNat := by
    simpa only [cmpMag, ne_eq, compare_gt_iff_gt, not_lt] using h
  have hpow : 2 ^ (Nat.log2 m + (e - min e E).toNat) < 2 ^ (p + (E - min e E).toNat) :=
    calc 2 ^ (Nat.log2 m + (e - min e E).toNat)
      _ = 2 ^ Nat.log2 m * 2 ^ (e - min e E).toNat := pow_add ..
      _ ≤ m * 2 ^ (e - min e E).toNat := Nat.mul_le_mul_right _ (Nat.log2_self_le hm)
      _ ≤ M * 2 ^ (E - min e E).toNat := hle
      _ < 2 ^ p * 2 ^ (E - min e E).toNat := Nat.mul_lt_mul_of_pos_right hM (Nat.two_pow_pos _)
      _ = 2 ^ (p + (E - min e E).toNat) := (pow_add ..).symm
  have := (Nat.pow_lt_pow_iff_right (by decide)).1 hpow
  omega

theorem overflowCode_fp32_lt (neg sat : Bool) : overflowCode .fp32 neg sat < 2 ^ 32 := by revert neg sat; decide

/-- Rounding to FP32 gives a 32-bit code. -/
theorem roundXF_fp32_lt (v : FVal) (mode : Rnd) (sat : Bool) : roundXF v .fp32 mode sat < 2 ^ 32 := by
  cases v with
  | nan => exact (by decide : SFmt.fp32.canonNaN < 2 ^ 32)
  | inf neg => exact overflowCode_fp32_lt neg sat
  | fin neg m e =>
    unfold roundXF roundXFs
    dsimp -zeta only
    extract_lets sgn above
    have hsgn : sgn ≤ 2 ^ 31 := by unfold sgn; cases neg <;> decide
    split
    · split
      · exact Nat.add_lt_add_of_le_of_lt hsgn (by decide : SFmt.fp32.maxCode < 2 ^ 31)
      · exact overflowCode_fp32_lt neg sat
    · next habove =>
      have hmag : roundMag .fp32 mode neg m e false < 2 ^ 31 := by
        by_cases hm : m = 0
        · simp [roundMag, hm]
        · have hcmp : cmpMag m e SFmt.fp32.maxM SFmt.fp32.maxE ≠ .gt := fun h => habove (by simp only [above, h])
          have hle := roundMag_le .fp32 mode neg false (E := SFmt.fp32.maxE) (by decide) (log2_add_lt_of_cmpMag hm (by decide) hcmp)
          exact hle.trans_lt (by decide)
      exact Nat.add_lt_add_of_le_of_lt hsgn hmag

/-! ### The lesser and the greater of two patterns -/

section
variable {n : Nat} (x y : BitVec n)

theorem ofInt_min_toNat : BitVec.ofInt n (min (x.toNat : Int) y.toNat) = if x ≤ y then x else y := by
  rw [min_def]
  simp only [Int.ofNat_le, BitVec.le_def]
  split <;> simp

theorem ofInt_max_toNat : BitVec.ofInt n (max (x.toNat : Int) y.toNat) = if x ≤ y then y else x := by
  rw [max_def]
  simp only [Int.ofNat_le, BitVec.le_def]
  split <;> simp

theorem ofInt_min_toInt : BitVec.ofInt n (min x.toInt y.toInt) = if x.sle y then x else y := by
  rw [min_def]
  simp only [BitVec.sle_iff_toInt_le]
  split <;> simp

theorem ofInt_max_toInt : BitVec.ofInt n (max x.toInt y.toInt) = if x.sle y then y else x := by
  rw [max_def]
  simp only [BitVec.sle_iff_toInt_le]
  split <;> simp

end

/-! ### Words of 32 bits (R165) -/

theorem intOut_n32_intWrap_n32 (r : Int) : intOut .n32 (intWrap .n32 r) = (BitVec.ofInt 32 r).setWidth 64 := by
  rw [intWrap, intOut_idem, ← intWrap, intWrap_n32]

theorem setWidth_signExtend_self {n k : Nat} (h : n ≤ k) (x : BitVec n) : (x.signExtend k).setWidth n = x :=
  BitVec.eq_of_getLsbD_eq fun i hi => by
    rw [BitVec.getLsbD_setWidth, BitVec.getLsbD_signExtend]
    simp [hi, hi.trans_le h]

theorem intOut_n32_intWrap_i32 (r : Int) : intOut .n32 (intWrap .i32 r) = (BitVec.ofInt 32 r).setWidth 64 := by
  rw [intWrap_i32]
  exact congrArg (BitVec.setWidth 64) (setWidth_signExtend_self (by decide) _)

theorem toNat_up_lt (w : BitVec 32) : (w.setWidth 64 : Word).toNat < 2 ^ 32 := by
  rw [BitVec.toNat_setWidth_of_le (by decide)]
  exact w.isLt

/-! ### The saturating add (R165) -/

theorem toInt_ofInt_satS (r : Int) {n : Nat} (hn : 0 < n) : (BitVec.ofInt n (satS r n)).toInt = satS r n := by
  have hpow : (0 : Int) < 2 ^ (n - 1) := by positivity
  refine BitVec.toInt_ofInt_eq_self hn (le_max_left _ _) (max_lt ?_ ?_) <;> omega

theorem toNat_ofInt_satU (r : Int) (n : Nat) : ((BitVec.ofInt n (satU r n)).toNat : Int) = satU r n := by
  have hpow : (0 : Int) < 2 ^ n := by positivity
  have h0 : 0 ≤ satU r n := le_max_left _ _
  have hlt : satU r n < 2 ^ n := max_lt hpow (by omega)
  rw [BitVec.toNat_ofInt, Nat.cast_pow, Nat.cast_ofNat, Int.emod_eq_of_lt h0 hlt, Int.toNat_of_nonneg h0]

/-- The signed clamp of an exact sum: the end of the range that it leaves, or the sum itself (R88). -/
theorem satS_eq (r : Int) (n : Nat) :
    satS r n = if r < -2 ^ (n - 1) then -2 ^ (n - 1) else if 2 ^ (n - 1) ≤ r then 2 ^ (n - 1) - 1 else r := by
  have hpow : (0 : Int) < 2 ^ (n - 1) := by positivity
  unfold satS
  split
  · omega
  · split <;> omega

theorem satU_eq {r : Int} (n : Nat) (h : 0 ≤ r) : satU r n = if 2 ^ n ≤ r then 2 ^ n - 1 else r := by
  have hpow : (0 : Int) < 2 ^ n := by positivity
  unfold satU
  split <;> omega

/-- A clamped signed sum as a pattern, and whether the clamp changed it. -/
theorem ofInt_satS_add {n : Nat} (y z : BitVec n) :
    (BitVec.ofInt n (satS (y.toInt + z.toInt) n), satS (y.toInt + z.toInt) n != y.toInt + z.toInt) =
      if y.toInt + z.toInt < -2 ^ (n - 1) then (BitVec.ofInt n (-2 ^ (n - 1)), true)
      else if 2 ^ (n - 1) ≤ y.toInt + z.toInt then (BitVec.ofInt n (2 ^ (n - 1) - 1), true) else (y + z, false) := by
  rw [satS_eq]
  split
  · next h => rw [bne_iff_ne.2 (by omega)]
  · split
    · next h => rw [bne_iff_ne.2 (by omega)]
    · rw [bne_self_eq_false, BitVec.ofInt_add, BitVec.ofInt_toInt, BitVec.ofInt_toInt]

theorem ofInt_satU_add {n : Nat} (y z : BitVec n) :
    (BitVec.ofInt n (satU (y.toNat + z.toNat : Nat) n), satU (y.toNat + z.toNat : Nat) n != (y.toNat + z.toNat : Nat)) =
      if 2 ^ n ≤ y.toNat + z.toNat then (BitVec.ofInt n (2 ^ n - 1), true) else (y + z, false) := by
  have hcast : (2 : Int) ^ n = (2 ^ n : Nat) := by push_cast; rfl
  rw [satU_eq n (Int.natCast_nonneg _), hcast]
  simp only [Int.ofNat_le]
  split
  · next h => rw [bne_iff_ne.2 (by omega)]
  · rw [bne_self_eq_false, BitVec.ofInt_natCast, BitVec.ofNat_add, BitVec.ofNat_toNat, BitVec.ofNat_toNat, BitVec.setWidth_eq,
      BitVec.setWidth_eq]

theorem atomNew_adds_w64 (m x c : Word) : atomNew .adds .w64 m x c =
    if m.toInt + x.toInt < -2 ^ 63 then (0x8000000000000000, true)
    else if 2 ^ 63 ≤ m.toInt + x.toInt then (0x7FFFFFFFFFFFFFFF, true) else (m + x, false) := by
  change (_, (BitVec.ofInt 64 (satS (m.toInt + x.toInt) 64)).toInt != _) = _
  rw [toInt_ofInt_satS _ (by decide)]
  exact ofInt_satS_add m x

/-! ### The operations on 32-bit locations (R165) -/

/-- What an operation on a 32-bit location leaves, from the low halves of the location, the operand and the comparand. -/
def atomHalf (op : AtomOp) (sz : AtSize) (y z d : BitVec 32) : Word × Bool :=
  match op, sz with
  | .add, _ => ((y + z).setWidth 64, false)
  | .adds, .n32 => if 2 ^ 32 ≤ y.toNat + z.toNat then ((0xFFFFFFFF : BitVec 32).setWidth 64, true) else ((y + z).setWidth 64, false)
  | .adds, _ => if y.toInt + z.toInt < -2 ^ 31 then ((0x80000000 : BitVec 32).setWidth 64, true)
    else if 2 ^ 31 ≤ y.toInt + z.toInt then ((0x7FFFFFFF : BitVec 32).setWidth 64, true) else ((y + z).setWidth 64, false)
  | .smin, _ => ((if y.sle z then y else z).setWidth 64, false)
  | .smax, _ => ((if y.sle z then z else y).setWidth 64, false)
  | .umin, _ => ((if y ≤ z then y else z).setWidth 64, false)
  | .umax, _ => ((if y ≤ z then z else y).setWidth 64, false)
  | .and, _ => ((y &&& z).setWidth 64, false)
  | .or, _ => ((y ||| z).setWidth 64, false)
  | .xor, _ => ((y ^^^ z).setWidth 64, false)
  | .swap, _ => (z.setWidth 64, false)
  | .cas, _ => ((if y = d then z else y).setWidth 64, false)
  | .fadd, _ =>
    (BitVec.ofNat 64 (roundXF (FVal.add .rne (decodeFmt .fp32 y.toNat) (decodeFmt .fp32 z.toNat)) .fp32 .rne), false)
  | .rdovf, _ => (y.setWidth 64, false)

theorem atomHalf_lt (op : AtomOp) (sz : AtSize) (y z d : BitVec 32) : (atomHalf op sz y z d).1.toNat < 2 ^ 32 := by
  cases op
  case adds =>
    cases sz <;> simp only [atomHalf]
    case n32 => split <;> exact toNat_up_lt _
    all_goals
      split
      · exact toNat_up_lt _
      · split <;> exact toNat_up_lt _
  case fadd => exact (BitVec.toNat_ofNat ..).trans_lt ((Nat.mod_le _ _).trans_lt (roundXF_fp32_lt _ _ _))
  all_goals exact toNat_up_lt _

/-- But for the saturating add, no operation tells the two 32-bit sizes apart. -/
theorem atomNew_i32 {op : AtomOp} (h : op ≠ .adds) (m x c : Word) : atomNew op .i32 m x c = atomNew op .n32 m x c := by
  cases op
  case adds => exact absurd rfl h
  all_goals rfl

theorem atomHalf_i32 {op : AtomOp} (h : op ≠ .adds) (y z d : BitVec 32) : atomHalf op .i32 y z d = atomHalf op .n32 y z d := by
  cases op
  case adds => exact absurd rfl h
  all_goals rfl

theorem intOut_n32 (w : Word) : intOut .n32 w = (w.setWidth 32).setWidth 64 := rfl

theorem setWidth_up_inj {y z : BitVec 32} : (y.setWidth 64 : Word) = z.setWidth 64 ↔ y = z :=
  ⟨fun h => by simpa using congrArg (BitVec.setWidth 32) h, congrArg _⟩

theorem atomNew_n32 {op : AtomOp} (h : op ≠ .adds) (m x c : Word) :
    atomNew op .n32 m x c = atomHalf op .n32 (m.setWidth 32) (x.setWidth 32) (c.setWidth 32) := by
  unfold atomNew atomHalf
  cases op
  case adds => exact absurd rfl h
  case add | and | or | xor => simp [intOut_n32, BitVec.setWidth_add]
  case swap | rdovf => rfl
  case cas =>
    simp only [intOut_n32, setWidth_up_inj]
    split <;> rfl
  case umin => simp only [intOut_n32_intWrap_n32, intRead_n32, ofInt_min_toNat]
  case umax => simp only [intOut_n32_intWrap_n32, intRead_n32, ofInt_max_toNat]
  case smin => simp only [intOut_n32_intWrap_i32, intRead_i32, ofInt_min_toInt]
  case smax => simp only [intOut_n32_intWrap_i32, intRead_i32, ofInt_max_toInt]
  case fadd =>
    have hlow (w : Word) : (intOut .n32 w).toNat = (w.setWidth 32).toNat := BitVec.toNat_setWidth_of_le (by decide)
    rw [← hlow, ← hlow]
    rfl

theorem atomNew_adds_i32 (m x c : Word) :
    atomNew .adds .i32 m x c = atomHalf .adds .i32 (m.setWidth 32) (x.setWidth 32) (c.setWidth 32) := by
  change (intOut .n32 (intWrap .i32 _), intRead .i32 (intWrap .i32 _) != _) = _
  rw [intOut_n32_intWrap_i32, intWrap_i32, intRead_i32, setWidth_signExtend_self (by decide)]
  change (_, (BitVec.ofInt 32 (satS _ 32)).toInt != _) = _
  rw [toInt_ofInt_satS _ (by decide)]
  refine (congrArg (Prod.map (BitVec.setWidth 64) id) (ofInt_satS_add (m.setWidth 32) (x.setWidth 32))).trans ?_
  unfold atomHalf
  split
  · rfl
  · split <;> rfl

theorem atomNew_adds_n32 (m x c : Word) :
    atomNew .adds .n32 m x c = atomHalf .adds .n32 (m.setWidth 32) (x.setWidth 32) (c.setWidth 32) := by
  change (intOut .n32 (intWrap .n32 _), intRead .n32 (intWrap .n32 _) != _) = _
  rw [intOut_n32_intWrap_n32, intWrap_n32, intRead_n32, BitVec.setWidth_setWidth_of_le _ (by decide), BitVec.setWidth_eq]
  change (_, ((BitVec.ofInt 32 (satU _ 32)).toNat : Int) != _) = _
  rw [toNat_ofInt_satU]
  refine (congrArg (Prod.map (BitVec.setWidth 64) id) (ofInt_satU_add (m.setWidth 32) (x.setWidth 32))).trans ?_
  unfold atomHalf
  split <;> rfl

/-- An operation on a 32-bit location works on the low halves alone. -/
theorem atomNew_half (op : AtomOp) {sz : AtSize} (h : sz ≠ .w64) (m x c : Word) :
    atomNew op sz m x c = atomHalf op sz (m.setWidth 32) (x.setWidth 32) (c.setWidth 32) := by
  by_cases hop : op = .adds
  · subst hop
    cases sz with
    | n32 => exact atomNew_adds_n32 m x c
    | i32 => exact atomNew_adds_i32 m x c
    | w64 => exact absurd rfl h
  · cases sz with
    | n32 => exact atomNew_n32 hop m x c
    | i32 => rw [atomNew_i32 hop, atomHalf_i32 hop, atomNew_n32 hop]
    | w64 => exact absurd rfl h

/-- Settles O46: over 64 bits by the patterns of the exact results, over 32 bits by `atomNew_half`. -/
theorem atomicResults : Obligations.AtomicResults := by
  intro m x c
  refine ⟨rfl, rfl, rfl, rfl, rfl, rfl, rfl, ?umin, ?umax, ?smin, ?smax, atomNew_adds_w64 m x c, fun op sz h => ⟨?bound, ?low⟩, rfl,
    fun sz h => ?half, atomNew_half .adds (by decide) m x c, atomNew_half .adds (by decide) m x c⟩
  case umin => exact congrArg (·, false) (ofInt_min_toNat m x)
  case umax => exact congrArg (·, false) (ofInt_max_toNat m x)
  case smin => exact congrArg (·, false) (ofInt_min_toInt m x)
  case smax => exact congrArg (·, false) (ofInt_max_toInt m x)
  case bound => rw [atomNew_half op h]; exact atomHalf_lt ..
  case low => simp only [atomNew_half op h, BitVec.setWidth_setWidth_of_le _ (by decide : 32 ≤ 64), BitVec.setWidth_eq]
  case half =>
    and_intros
    all_goals exact atomNew_half _ h m x c

end Sys2Proof.Machine

/-! SUPPORT. Memory instructions at execution (O17, O18, O20, O21). -/

namespace Sys2Proof.Machine

/-! ### What follows the checks of an access (R157) -/

/-- The outcome after checks is the trap that they answer, or what the access does at its places. -/
theorem Checked.thenDo_cases {c : Checked} {eff : List Place → State → LaneRes → State → Prop} {res : LaneRes} {s1 : State}
    (h : c.thenDo eff res s1) : (∃ t, c = .trap t s1 ∧ res = .trapped t) ∨ ∃ pl s2, c = .ok pl s2 ∧ eff pl s2 res s1 := by
  cases c with
  | wait => exact h.elim
  | trap t s' => obtain ⟨rfl, rfl⟩ := h; exact .inl ⟨t, rfl, rfl⟩
  | ok pl s2 => exact .inr ⟨pl, s2, rfl, h⟩

/-- The checks of an access that reads. -/
theorem access_r {s : State} {ch : Chord} {x : Lane} {a : Word} {n al : Nat} {o at_ : Bool} : s.access ch x a n al .read o at_ =
  s.check s.flow.focusCore (laneWho s ch ch.pc x 0) a n al .read o at_ := rfl

/-! ### Loads (R160 to R163) -/

/-- Settles O17: a load's bytes are `loads_eq`'s, what it hands on is `handsOn_eq`'s, and an LDT's token goes as `send_eq` and `stops_eq`
say. -/
theorem loadInstructions : Obligations.LoadInstructions := by
  refine ⟨fun sz f => ?ld, fun sz d f => ?ldt, fun sc sz f => ?acq⟩
  case ld => exact carriesOut_of_body (fun _ => rfl) fun _ _ _ _ _ _ _ h => loads_eq h
  case ldt =>
    refine carriesOut_of_body (fun _ => rfl) fun ch s l x v res s1 h => ?_
    obtain ⟨r, hload, htrap, hsend⟩ := h
    simp only [ldtBody, loads_eq hload]
    by_cases ht : r.trap.isSome = true
    · rw [if_pos ht, htrap ht]
    · rw [if_neg ht]
      rcases hsend (by simpa using ht) with ⟨pkg, core, hto, rfl⟩ | ⟨t, hstop, rfl⟩
      · simp only [send_eq hto]
      · simp only [stops_eq hstop]
  case acq =>
    refine carriesOut_of_body (fun _ => rfl) fun ch s l x v res s1 h => ?_
    unfold ldAcqBody
    dsimp only at h ⊢
    rw [← access_r]
    obtain ⟨t, hc, rfl⟩ | ⟨pl, s2, hc, s3, hclear, h⟩ := Checked.thenDo_cases h
    · rw [hc]
    · rw [hc]
      dsimp only
      rw [hclear]
      rcases pl with _ | ⟨⟨pa, cache, slot⟩ | _ | _ | _ | _, r⟩
      case cons.home =>
        dsimp only at h ⊢
        by_cases hsc : sc = .core
        · rw [if_pos hsc] at h
          rw [if_pos (by simpa using hsc)]
          split at h
          · next hbad =>
            obtain ⟨rfl, rfl⟩ := h
            rw [if_pos hbad]
            rfl
          · next hbad => rw [if_neg hbad, handsOn_eq h]
        · rw [if_neg hsc] at h
          obtain ⟨rfl, rfl⟩ := h
          rw [if_neg (by simpa using hsc)]
          rfl
      all_goals
        obtain ⟨r, hands, rfl⟩ := h
        exact congrArg (fun r => some (r.1.ordered true, r.2)) (handsOn_eq hands)

/-! ### Stores, posted atomics and updates (R161 to R169) -/

/-- Settles O18: each checks its access, and a passed one is buffered as its rule says. -/
theorem stores : Obligations.Stores := by
  refine ⟨fun sz f => ?st, fun sc sz f => ?stRel, fun sz w f ht0 ht1 => ?atom, fun sz w f => ?upd⟩
  case st =>
    refine carriesOut_of_body (fun _ => rfl) fun ch s l x v res s1 h => ?_
    unfold stBody
    dsimp only
    rw [← access_w rfl]
    obtain ⟨t, hc, rfl⟩ | ⟨pl, s2, hc, rfl, rfl, -⟩ := Checked.thenDo_cases h <;> rw [hc]
  case stRel =>
    refine carriesOut_of_body (fun _ => rfl) fun ch s l x v res s1 h => ?_
    unfold stRelBody
    dsimp only
    rw [← access_w rfl]
    obtain ⟨t, hc, rfl⟩ | ⟨pl, s2, hc, rfl, rfl⟩ := Checked.thenDo_cases h <;> rw [hc]
  case atom =>
    refine carriesOut_of_body (body := atomBody sz w true) (fun s => ?_) fun ch s l x v res s1 h => ?_
    · change execAtom sz w f s = _
      simp only [execAtom, ht0, ht1, Option.isNone_none, Bool.and_self]
    · unfold atomBody
      dsimp only
      rw [← access_w rfl]
      obtain ⟨t, hc, rfl⟩ | ⟨pl, s2, hc, rfl, p, r, rfl, h⟩ := Checked.thenDo_cases h <;> rw [hc]
      dsimp only
      cases p
      case host => cases hfault : hostAtomicFault s1 w.op sz <;> simp only [hfault] at h <;> rw [h] <;> rfl
      all_goals exact congrArg (fun res => some (res, s1)) h.symm
  case upd =>
    refine carriesOut_of_body (fun _ => rfl) fun ch s l x v res s1 h => ?_
    unfold updBody
    dsimp only
    rw [← access_w rfl]
    obtain ⟨t, hc, rfl⟩ | ⟨pl, s2, hc, rfl, p, r, rfl, h⟩ := Checked.thenDo_cases h <;> rw [hc]
    cases p <;> exact congrArg (fun res => some (res, s1)) h.symm

/-! ### Fences, hints and cache control (R170 to R173) -/

/-- Settles O20: FENCE is decided by what is outstanding, PREF by its place and level, and the others give an effect or nothing. -/
theorem fencesAndHints : Obligations.FencesAndHints := by
  refine ⟨fun sc f => ?fence, fun lv f => ?pref, fun op f => ?cctl, fun f => ?bcinv⟩
  case fence =>
    refine carriesOut_of_body (fun _ => rfl) fun ch s l x v res s1 h => ?_
    obtain ⟨s2, hcomplete, h⟩ := h
    simp only [fenceBody, hcomplete]
    by_cases hacks : sc = .sys ∧ (s2.core s2.flow.focusCore).acks ≠ []
    · rw [if_pos hacks] at h
      obtain ⟨rfl, rfl⟩ := h
      rw [if_pos (by simpa using hacks)]
    · rw [if_neg hacks] at h
      obtain ⟨rfl, rfl⟩ := h
      rw [if_neg (by simpa using hacks)]
  case pref =>
    refine carriesOut_of_body (fun _ => rfl) fun ch s l x v res s1 h => ?_
    obtain ⟨rfl, h⟩ := h
    unfold prefBody
    generalize hintPlace s ch v.a = place at h ⊢
    rcases lv, place with ⟨_ | _, _ | ⟨pa, _ | _, slot⟩⟩ <;> subst h <;> rfl
  case cctl =>
    refine .of_gives (fun _ => rfl) fun s ch l x v => ?_
    unfold cctlBody
    cases hintPlace s ch v.a <;> rfl
  case bcinv =>
    refine .of_gives (fun _ => rfl) fun s ch l x v => ?_
    unfold bcinvBody
    split
    · rfl
    · split <;> rfl

/-! ### The frame heap (R174, R175) -/

/-- Settles O21: FRMA by whether there is a run of free frames, FRMF by whether its handle names an allocation. -/
theorem frameHeap : Obligations.FrameHeap := by
  refine ⟨fun f => ?frma, fun f => ?frmf⟩
  case frma =>
    refine carriesOut_of_body (fun _ => rfl) fun ch s l x v res s1 h => ?_
    obtain ⟨hnone, hsome⟩ := h
    unfold frmaBody
    dsimp only
    split
    · next hn =>
      obtain ⟨rfl, rfl⟩ := hnone (by omega)
      rfl
    · next hn =>
      by_cases hruns : (s.core s.flow.focusCore).freeRuns v.a.toNat = []
      · obtain ⟨rfl, rfl⟩ := hnone (.inr (.inr hruns))
        rw [if_pos (List.isEmpty_iff.2 hruns)]
      · obtain ⟨r, rs, hcons⟩ := List.exists_cons_of_ne_nil hruns
        obtain ⟨j, -, rfl, rfl, rfl⟩ := hsome (by omega) (by omega) r rs hcons
        rw [if_neg (List.isEmpty_iff.not.2 hruns)]
        rfl
  case frmf =>
    refine .of_gives (fun _ => rfl) fun s ch l x v => ?_
    unfold frmfBody
    rcases handleFrame v.a with _ | ⟨c, j⟩
    · rfl
    · dsimp only
      cases (s.core c).allocs.find? fun a => a.ctx == ch.ctx && a.first == j <;> rfl

end Sys2Proof.Machine

/-! SUPPORT. Returning atomics (O19). -/

namespace Sys2Proof.Machine

section
variable {sz : AtSize} {w : AtomWord} {posted : Bool} {s s2 : State} {ch : Chord} {l : Nat} {x : Lane} {v : Vals} {p : Place}
  {r : List Place}

theorem atomBody_trap {t : Trap} (hc : s.access ch x v.a (atBytes sz) (atBytes sz) .rw true true = .trap t s2) :
    atomBody sz w posted s ch ch.pc l x v = some (.trapped t, s2) := by
  unfold atomBody
  dsimp only
  rw [← access_w rfl, hc]

/-- An atomic on host memory that no path carries traps (R414). -/
theorem atomBody_hostFault {a : Nat} {reason : BitVec 8}
    (hc : s.access ch x v.a (atBytes sz) (atBytes sz) .rw true true = .ok (.host a :: r) s2)
    (hfault : hostAtomicFault s2 w.op sz = some reason) :
    atomBody sz w posted s ch ch.pc l x v = some (.trapped (trapHostAtomic reason v.a), s2) := by
  unfold atomBody
  dsimp only
  rw [← access_w rfl, hc]
  dsimp only
  rw [hfault]

/-- An atomic that returns a value leaves at once where its checks pass and a path carries it. -/
theorem atomBody_returning (hc : s.access ch x v.a (atBytes sz) (atBytes sz) .rw true true = .ok (p :: r) s2)
    (hpath : ∀ a reason, p = .host a → hostAtomicFault s2 w.op sz = some reason → False) :
    atomBody sz w false s ch ch.pc l x v = s2.sendAtomic ch sz w v.a v.b v.c (p :: r) := by
  unfold atomBody
  dsimp only
  rw [← access_w rfl, hc]
  cases p
  case host a =>
    cases hfault : hostAtomicFault s2 w.op sz with
    | none => simp only [hfault]; rfl
    | some reason => exact (hpath a reason rfl hfault).elim
  all_goals rfl

end

/-- Settles O19: what a release asks for lands first, then the core's copies go, then the operation leaves for its place's home. -/
theorem atomics : Obligations.Atomics := by
  intro sz w f hret
  refine carriesOut_of_body (body := atomBody sz w false) (fun s => ?_) fun ch s l x v res s1 h => ?_
  · have hposted : (f.t0.isNone && f.t1.isNone) = false := by
      simpa only [Bool.and_eq_false_iff, Option.isNone_eq_false_iff, Option.isSome_iff_ne_none] using hret
    change execAtom sz w f s = _
    simp only [execAtom, hposted]
  obtain ⟨t, hc, rfl⟩ | ⟨_ | ⟨p, r⟩, s2, hc, hdone⟩ := Checked.thenDo_cases h
  · exact atomBody_trap hc
  · exact hdone.elim
  clear h
  dsimp only at hdone
  split at hdone
  · next a reason hfault =>
    obtain ⟨rfl, rfl⟩ := hdone
    exact atomBody_hostFault hc hfault
  · next p _ _ hpath =>
    obtain ⟨s3, s4, hclear, hplain, hrelease, rfl, hsent⟩ := hdone
    rw [atomBody_returning hc fun a reason hp hf => hpath a reason hp hf]
    unfold State.sendAtomic
    extract_lets k rel order acq ready
    have hready : ready = some s3 := by
      clear hsent
      unfold ready
      by_cases hrel : w.ord = .rel ∨ w.ord = .ar
      · rw [if_pos (by simpa [rel] using hrel)]
        have hlands := hrelease hrel
        clear hrelease
        cases p
        case host =>
          obtain ⟨hacks, s5, hflush, hsettle⟩ := hlands
          simp [k, hacks, hflush, hsettle]
        all_goals
          dsimp only at hlands ⊢
          split at hlands
          · next hcore => rw [if_pos (by simpa using hcore), hlands]
          · next hcore =>
            obtain ⟨hacks, hsettle⟩ := hlands
            rw [if_neg (by simpa using hcore), if_neg (by simpa using hacks), hsettle]
      · rw [if_neg (by simpa [rel] using hrel), hplain hrel]
    rw [hready, Option.bind_some, hclear]
    clear hrelease
    cases p <;> dsimp only at hsent ⊢
    case home => rw [hsent]; rfl
    case sram | given => rw [hsent]
    case remote => rw [hsent]; simp only [beq_iff_eq]; rfl
    case host =>
      split at hsent
      · next hdirect => rw [if_pos hdirect, hsent]; rfl
      · next hloop => rw [if_neg hloop, hsent]; rfl

end Sys2Proof.Machine

/-! SUPPORT. Compaction at execution (O23). -/

namespace Sys2Proof.Machine

section
variable {sz : AtSize} {w : CmpkWord} {f : Flds} {s s1 s2 : State} {ch ch2 : Chord}

/-- A CMPK that is ready checks its headers, delivers what they answer, and makes its first claim. -/
theorem exec_cmpk_first {ls : List (Nat × Lane × Vals)} {cs : List (Nat × CmpkLane)} (hready : s.ready (.bin .n) f ch ls)
    (hq : ch.claimQ = none) (hlanes : cmpkLanes ch f ls s = some (cs, s1))
    (hnext : s1.claimNext (ch.putChecked f cs) w sz f (cmpkGroups cs) = some (ch2, s2)) :
    exec (.cmpk sz w f) s = .next (s2.setFocus ch2) := by
  obtain ⟨hfocus, hissue, hgather⟩ := hready
  change execCmpk sz w f s = _
  simp only [execCmpk, hfocus, hissue, if_true, hq, hgather, hlanes, hnext]

/-- Each later claim is made once the one before has been answered. -/
theorem exec_cmpk_later {q : List (Word × List Place × List ClaimLane)} (hfocus : s.focus = some ch) (hissue : ch.mayIssue = true)
    (hq : ch.claimQ = some q) (hnext : s.claimNext ch w sz f q = some (ch2, s2)) :
    exec (.cmpk sz w f) s = .next (s2.setFocus ch2) := by
  change execCmpk sz w f s = _
  simp only [execCmpk, hfocus, hissue, if_true, hq, hnext]

/-- The operands gathered are those of the lanes, in their order. -/
theorem gather_lanes {sh : Shape} {consts : List Word} {i : Nat} {lanes : NMap Lane} {ls : List (Nat × Lane × Vals)}
    (h : gather sh f ch consts i lanes = some ls) : lanes = ls.map fun p => (p.1, p.2.1) := by
  induction lanes generalizing ls with
  | nil => cases h; rfl
  | cons p r ih =>
    obtain ⟨l, x⟩ := p
    unfold gather at h
    split at h
    · next hrest => cases h; rw [ih hrest]; rfl
    · cases h

/-- A selected lane that is not doomed, and whose header passes its checks, takes part in the claim on it. -/
theorem cmpkLanes_one {l : Nat} {x : Lane} {v : Vals} {pl : List Place} (hsel : selects f v = true) (hdoom : x.doom = none)
    (hc : s.access ch x v.b 32 32 .write true true = .ok pl s1) :
    cmpkLanes ch f [(l, x, v)] s = some ([(l, .takes v.b pl { lane := l, tag := x.tag, data := v.a })], s1) := by
  rw [access_w rfl] at hc
  simp only [cmpkLanes, hsel, hdoom, hc]
  rfl

/-- The one claim of a CMPK whose only lane is not doomed is sent, and the chord goes on. -/
theorem claimNext_one {l : ClaimLane} {x : Lane} {a : Word} {pl : List Place} (hlane : nget ch.lanes l.lane = some x) (hdoom : x.doom = none) :
    s.claimNext ch w sz f [(a, pl, [l])] =
      (s.sendClaim ch w sz f a pl [l]).map fun p => ({ p.1.next 2 with claimQ := none }, p.2) := by
  simp [State.claimNext, hlane, hdoom]

end

/-- Settles O23: the first claim and the later ones by `exec_cmpk_first` and `exec_cmpk_later`, and the only lane's claim is that of
`sendClaim` at its header's home. -/
theorem compaction : Obligations.Compaction := by
  refine ⟨fun _ _ _ _ _ _ _ _ _ _ => exec_cmpk_first, fun _ _ _ _ _ _ _ _ => exec_cmpk_later,
    fun sz w f s ch l x v pl s1 r hready hq hsel hdoom hc => ?_⟩
  obtain ⟨hfocus, hissue, hgather⟩ := hready
  have hlane : nget ch.lanes l = some x := by rw [gather_lanes hgather]; exact if_pos rfl
  extract_lets c id who after u
  have hexec {p : Chord × State} (hsent : s1.sendClaim ch w sz f v.b pl [{ lane := l, tag := x.tag, data := v.a }] = some p) :
      exec (.cmpk sz w f) s = .next (p.2.setFocus { p.1.next 2 with claimQ := none }) := by
    refine exec_cmpk_first ⟨hfocus, hissue, hgather⟩ hq (cmpkLanes_one hsel hdoom hc) ?_
    change s1.claimNext ch w sz f [(v.b, pl, [_])] = _
    rw [claimNext_one hlane hdoom, hsent]
    rfl
  have hafter : { after with claimQ := none } = after := by
    cases ch
    cases hq
    rfl
  refine ⟨?home, ?remote⟩
  case home =>
    rintro pa cache slot s2 rfl hclear
    rw [← hafter]
    refine hexec (p := (_, _)) ?_
    simp only [State.sendClaim]
    rw [hclear]
    rfl
  case remote =>
    rintro pkg pa key sec rfl
    refine ⟨{ (default : RemoteReq) with
      what := 13, srcPkg := id.2.newId.2.pkg, srcCore := BitVec.ofNat 8 c, ctx := ch.ctx, id := id.2.newId.1, pa, len := 32, key, sec },
      rfl, rfl, rfl, rfl, rfl, rfl, rfl, rfl, rfl, ?_⟩
    rw [← hafter]
    exact hexec (p := (_, _)) rfl

end Sys2Proof.Machine

/-! SUPPORT. The update unit (O45). -/

namespace Sys2Proof.Machine

/-! ### Sorting what is in order -/

section
variable {α : Type} {key : α → Nat}

theorem insertBy_of_forall_le {x : α} {l : List α} (h : ∀ y ∈ l, key y ≤ key x) : insertBy key x l = l ++ [x] := by
  induction l with
  | nil => rfl
  | cons y r ih =>
    rw [insertBy, if_neg (Nat.not_lt.2 (h y List.mem_cons_self)), ih fun z hz => h z (List.mem_cons_of_mem y hz), List.cons_append]

theorem sortBy_of_pairwise {l : List α} (h : l.Pairwise fun a b => key a ≤ key b) : sortBy key l = l := by
  suffices hfold : ∀ acc : List α, (acc ++ l).Pairwise (fun a b => key a ≤ key b) →
      l.foldl (fun acc x => insertBy key x acc) acc = acc ++ l from hfold [] h
  clear h
  induction l with
  | nil => exact fun acc _ => (List.append_nil acc).symm
  | cons x r ih =>
    intro acc hacc
    have hx : ∀ y ∈ acc, key y ≤ key x := fun y hy => (List.pairwise_append.1 hacc).2.2 y hy x List.mem_cons_self
    rw [List.foldl_cons, insertBy_of_forall_le hx, ih _ (by rwa [List.append_assoc]), List.append_assoc]
    rfl

end

theorem pairwise_zipIdx {α : Type} (l : List α) (n : Nat) : (l.zipIdx n).Pairwise fun a b => a.2 ≤ b.2 := by
  have h := List.pairwise_le_range' (s := n) (n := l.length)
  rw [← List.zipIdx_map_snd n l] at h
  exact List.pairwise_map.1 h

/-! ### The groups of a batch (R169, R258) -/

theorem atBytes_pos (sz : AtSize) : 0 < atBytes sz := by cases sz <;> decide

/-- Entries that all ask for order stand singly, in their order of arrival. -/
theorem updGroups_of_ordered {us : List UEnt} (h : ∀ u ∈ us, u.ord = true) : updGroups us = us.map fun u => [u] := by
  have hordered {p : UEnt × Nat} (hp : p ∈ us.zipIdx) :
      (us.any fun v => v.ord && decide (v.pa < p.1.pa + atBytes p.1.size) && decide (p.1.pa < v.pa + atBytes v.size)) = true := by
    have hu := List.fst_mem_of_mem_zipIdx hp
    have := atBytes_pos p.1.size
    exact List.any_eq_true.2 ⟨p.1, hu, by simp [h _ hu, this]⟩
  unfold updGroups
  extract_lets ordered singles first
  have hnone : us.zipIdx.filter (fun p => !ordered p.1) = [] := List.filter_eq_nil_iff.2 fun p hp => by simp [ordered, hordered hp]
  have hall : us.zipIdx.filter (fun p => ordered p.1) = us.zipIdx := List.filter_eq_self.2 fun p hp => hordered hp
  have hsorted : (us.zipIdx.map fun p => [p]).Pairwise fun a b => first a ≤ first b := List.pairwise_map.2 (pairwise_zipIdx us 0)
  unfold singles
  rw [hnone, hall, groupUpds, List.nil_append, sortBy_of_pairwise hsorted, List.map_map]
  conv_rhs => rw [← List.zipIdx_map_fst 0 us, List.map_map]
  rfl

/-- One entry is a group of its own, whether it asks for order or not. -/
theorem updGroups_singleton (u : UEnt) : updGroups [u] = [[u]] := by
  cases hord : u.ord with
  | true => exact updGroups_of_ordered (by simpa using hord)
  | false => simp [updGroups, hord, groupUpds, sortBy, insertBy]

theorem State.batchLine_singleton (s : State) (line : Nat) {u : UEnt} (h : u.isUpd = true) :
    s.batchLine line [u] = (s.opLine line u.slot).applyGroup [u] := by
  simp [State.batchLine, h, updGroups_singleton]

/-! ### An operation on a line (R257 to R259) -/

section
variable {s : State} {i line : Nat}

/-- An operation starts once its batch is known and the cores it takes entries of have let the line go. -/
theorem State.startOp_eq {u : UEnt} {r b : List UEnt} {s1 s2 : State} (hfree : nget (s.slice i).ops line = none)
    (hhome : homeSlice line = i) (hheld : ∀ h ∈ (s.slice i).heldWr, h.line ≠ line)
    (hbatch : batchOf s.cycle line (s.slice i).window = u :: r)
    (hlog : s.logBatch (waitingOn s.cycle line (s.slice i).window) (u :: r) = some (s1, b))
    (hclear : clearCopies line (batchCores s.pkg b) s1 = some s2) :
    s.startOp i line = (s2.l2Enter [] u.slot line).modSlice i fun sl =>
      { sl with window := dropBatch sl.window b, ops := nput sl.ops line { batch := b } } := by
  have hheld : ((s.slice i).heldWr.any fun h => h.line == line) = false := by simpa using hheld
  simp only [State.startOp, hfree, hhome, hheld, hbatch, hlog, Option.bind_some, hclear, Option.map_some]
  simp

variable {op : Operation}

/-- A batch of UPDs alone ends with its line written back. -/
theorem State.endOp_upds {u : UEnt} {r : List UEnt} (hop : nget (s.slice i).ops line = some op) (hb : op.batch = u :: r)
    (hupd : ∀ v ∈ op.batch, v.isUpd = true) :
    s.endOp i line = ((s.closeOp i line op.batch).putOpLine line u.slot (s.batchLine line op.batch)).releaseHeld i := by
  have hlast : (op.batch.find? fun u => !u.isUpd) = none := List.find?_eq_none.2 fun v hv => by simp [hupd v hv]
  simp only [State.endOp, hop, hlast]
  rw [hb]

/-- An atomic or a claim of this package that ends a batch is applied last. -/
theorem State.endOp_near {u : UEnt} {s2 : State} (hop : nget (s.slice i).ops line = some op)
    (hlast : (op.batch.find? fun u => !u.isUpd) = some u) (hnear : u.far = false)
    (happly : (s.closeOp i line op.batch).applyLast line (s.batchLine line op.batch) u = some s2) :
    s.endOp i line = s2.releaseHeld i := by
  simp [State.endOp, hop, hlast, hnear, happly]

/-- A claim of another package first sends it the header. -/
theorem State.endOp_far {u : UEnt} (hop : nget (s.slice i).ops line = some op)
    (hlast : (op.batch.find? fun u => !u.isUpd) = some u) (hfar : u.far = true) (hsent : op.sent = false) :
    s.endOp i line = s.sendHeader i line op (s.batchLine line op.batch) u := by
  simp [State.endOp, hop, hlast, hfar, hsent]

end

/-- Settles O45: the unit's steps by what starts and ends an operation, and the batch's groups by `updGroups_of_ordered`. -/
theorem updateSteps : Obligations.UpdateSteps :=
  ⟨fun _ _ => rfl,
    fun _ _ _ _ _ _ _ _ hfree hhome hheld hbatch hlog hclear =>
      congrArg _ (State.startOp_eq hfree hhome hheld hbatch hlog hclear),
    fun _ _ _ _ hop => ⟨fun _ _ hb hupd => congrArg _ (State.endOp_upds hop hb hupd), fun _ hlast =>
      ⟨fun hnear _ happly => congrArg _ (State.endOp_near hop hlast hnear happly),
        fun hfar hsent => congrArg _ (State.endOp_far hop hlast hfar hsent)⟩⟩,
    fun s line _ h => s.batchLine_singleton line h,
    fun _ => updGroups_of_ordered⟩

end Sys2Proof.Machine

/-! SUPPORT. The rows of the matching table (O39). -/

namespace Sys2Proof.Machine

/-- A count is valid exactly where it is not 0 and fits in 16 bits (R193). -/
theorem countOk_iff (w : Word) : countOk w = true ↔ w.toNat ≠ 0 ∧ w.toNat < 65536 := by
  simp only [countOk, Bool.and_eq_true, beq_iff_eq, bne_iff_ne]
  omega

/-- Port i0 of an instance that is there takes one arrival only (R192). -/
theorem ordinary_some_iff (h : Header) (e : Entry) : ordinary h (some e) = true ↔
    h.accum = 0 ∨ (h.dcount = true ∧ e.target = some 1) ∨ (h.dcount = false ∧ h.scount = 1) := by
  have hscount : h.scount.toNat = 1 ↔ h.scount = 1 := by rw [← BitVec.toNat_inj]; rfl
  cases hd : h.dcount <;> simp [ordinary, hd, hscount]

section
variable {s : State} {c : Nat} {t : Token} {a : Act} {h : Header} {room : Nat × Nat}

/-- A token of a live activation placed here, under a HID not refuted, meets its instance (R207). -/
theorem State.matchToken_there {e : Entry} (hact : s.act? (actKey t.ctx t.act) = some a)
    (hplace : s.placement (actKey t.ctx t.act) s.pkg ≠ []) (hlive : s.hypState t.ctx t.hid ≠ 3)
    (hfound : (s.core c).entries.find? (fun e => e.ctx == t.ctx && e.act == t.act && e.dblock == t.dblock && e.tag == t.tag) = some e) :
    s.matchToken c t = s.matchHeader c t (some e) e.hdr e.room := by
  simp only [State.matchToken, hact, List.isEmpty_iff, hplace, hlive, hfound, if_false]

/-- A token without an instance is matched by the header of its block, where the core holds it (R189). -/
theorem State.matchToken_new {b : CBlock} (hact : s.act? (actKey t.ctx t.act) = some a)
    (hplace : s.placement (actKey t.ctx t.act) s.pkg ≠ []) (hlive : s.hypState t.ctx t.hid ≠ 3)
    (hfound : (s.core c).entries.find? (fun e => e.ctx == t.ctx && e.act == t.act && e.dblock == t.dblock && e.tag == t.tag) = none)
    (hcached : (s.core c).cached? t.ctx t.act (a.blockVa t.dblock) = some b) :
    s.matchToken c t = s.matchHeader c t none b.hdr (roomOf b.hdr b.words) := by
  simp only [State.matchToken, hact, List.isEmpty_iff, hplace, hlive, hfound, hcached, if_false]

/-- The rows of a token whose instance is not there, in order (R189, R193). -/
theorem State.matchHeader_new (htrap : t.trapf = false) : s.matchHeader c t none h room =
    if h.expect.getLsbD t.port.toNat = false then s.reject c t none (trapCollision t 1)
    else if (h.dcount = true ∧ t.port.toNat = 0) ∧ ¬(t.payload.toNat ≠ 0 ∧ t.payload.toNat < 65536) then s.reject c t none (trapCount t 0 0)
    else (s.newEntry c t h room).elim (s.toFifo c t h room) fun p => p.2.acceptToken c p.1 h t := by
  simp only [State.matchHeader, htrap, Bool.not_eq_true', Bool.and_eq_true, beq_iff_eq, ← countOk_iff, Bool.not_eq_true, Bool.false_eq_true,
    if_false]
  cases s.newEntry c t h room <;> rfl

/-- The rows of a token whose instance is there, in order (R190 to R193). -/
theorem State.matchHeader_there {e : Entry} (htrap : t.trapf = false) : s.matchHeader c t (some e) h room =
    if h.expect.getLsbD t.port.toNat = false then s.reject c t (some e) (trapCollision t 1)
    else if e.filled.getLsbD t.port.toNat = true then s.reject c t (some e) (trapCollision t
      (if t.port.toNat = 0 ∧ ¬(h.accum = 0 ∨ (h.dcount = true ∧ e.target = some 1) ∨ (h.dcount = false ∧ h.scount = 1)) then 2 else 0))
    else if s.isAncestor t.ctx t.hid e.hid = false ∧ s.isAncestor t.ctx e.hid t.hid = false then s.reject c t (some e) (trapMismatch t e.hid)
    else if (h.dcount = true ∧ t.port.toNat = 0) ∧
        ¬((t.payload.toNat ≠ 0 ∧ t.payload.toNat < 65536) ∧ ∀ n, e.target = some n → n = t.payload.toNat) then
      s.reject c t (some e) (trapCount t (if e.target.isSome then 1 else 0) (e.target.getD 0))
    else s.acceptToken c e.frame h t := by
  simp only [← ordinary_some_iff, ← countOk_iff]
  cases htarget : e.target <;> simp [State.matchHeader, htrap, htarget, imp_iff_not_or]

end

/-- Settles O39: the token meets its instance (`matchToken_there`) or its block's header (`matchToken_new`), and the rows are those of
`matchHeader_there` and `matchHeader_new`. -/
theorem tokenRows : Obligations.TokenRows := by
  intro s c t a hact hplace hlive htrap p whole found
  refine ⟨fun b hfound hcached => ?new, fun e hfound => ?there⟩
  case new =>
    rw [State.matchToken_new hact hplace hlive hfound hcached, State.matchHeader_new htrap]
    refine ⟨fun hport => if_pos hport, fun hport hcounted hnot => ?_, fun hport hgood frame s1 hentry => ?_, fun hport hgood hentry => ?_⟩ <;>
      rw [if_neg (ne_false_of_eq_true hport)]
    · rw [if_pos ⟨hcounted, hnot⟩]
      simp only [trapCount, Nat.zero_mul, Nat.add_zero]
    · rw [if_neg fun hbad => hbad.2 (hgood hbad.1), hentry]
      rfl
    · rw [if_neg fun hbad => hbad.2 (hgood hbad.1), hentry]
      rfl
  case there =>
    rw [State.matchToken_there hact hplace hlive hfound, State.matchHeader_there htrap]
    refine ⟨fun hport => if_pos hport, fun hport hfilled hone => ?_, fun hport hfilled hp hmany => ?_, fun hport hfree hdown hup => ?_,
      fun hport hfree hchain => ?_⟩ <;> rw [if_neg (ne_false_of_eq_true hport)]
    · rw [if_pos hfilled, if_neg fun hmany => hone.elim (· hmany.1) hmany.2]
      rfl
    · rw [if_pos hfilled, if_pos ⟨hp, hmany⟩]
      rfl
    · rw [if_neg (ne_true_of_eq_false hfree), if_pos ⟨hdown, hup⟩]
      rfl
    · rw [if_neg (ne_true_of_eq_false hfree),
        if_neg fun hapart => hchain.elim (ne_true_of_eq_false hapart.1) (ne_true_of_eq_false hapart.2)]
      exact ⟨fun hcounted hnot => if_pos ⟨hcounted, hnot⟩, fun hgood => if_neg fun hbad => hbad.2 (hgood hbad.1)⟩

end Sys2Proof.Machine

/-! SUPPORT. The commit of a chord and the watchdog (O42). -/

namespace Sys2Proof.Machine

theorem mem_nkeys_of_nget {α : Type} {m : NMap α} {k : Nat} {v : α} (h : nget m k = some v) : k ∈ nkeys m := by
  induction m with
  | nil => cases h
  | cons p r ih =>
    unfold nget at h
    split at h
    · next hk => exact List.mem_cons.2 (.inl hk.symm)
    · exact List.mem_cons_of_mem _ (ih h)

@[simp] theorem Chord.pc_modLane (ch : Chord) (l : Nat) (g : Lane → Lane) : (ch.modLane l g).pc = ch.pc := by
  unfold Chord.modLane
  split <;> rfl

theorem Chord.nget_modLane (ch : Chord) (k l : Nat) (g : Lane → Lane) :
    nget (ch.modLane k g).lanes l = if l = k then (nget ch.lanes l).map g else nget ch.lanes l := by
  unfold Chord.modLane
  split
  · next x hk =>
    rw [nget_nput]
    split
    · next hl => rw [hl, hk]; rfl
    · rfl
  · next hk =>
    split
    · next hl => rw [hl, hk]; rfl
    · rfl

theorem Lane.doom_doomBy (x : Lane) (t : Trap) (i : Nat) : (x.doomBy t i).doom = if x.doom.isSome then x.doom else some (t, i) := by
  unfold Lane.doomBy
  split <;> simp_all

/-- A lane that is doomed raises no second trap (R132). -/
theorem Lane.doomBy_doomBy (x : Lane) (t : Trap) (i : Nat) : (x.doomBy t i).doomBy t i = x.doomBy t i := by
  cases h : x.doom <;> simp [Lane.doomBy, h]

/-- Dooming lanes one after the other dooms each of them by the same trap at the same index. -/
theorem Chord.nget_foldl_doomBy (t : Trap) (l : Nat) (ls : List Nat) (ch : Chord) :
    nget (ls.foldl (fun ch l => ch.modLane l fun x => x.doomBy t ch.pc) ch).lanes l =
      if l ∈ ls then (nget ch.lanes l).map (·.doomBy t ch.pc) else nget ch.lanes l := by
  induction ls generalizing ch with
  | nil => rfl
  | cons k r ih =>
    rw [List.foldl_cons, ih, Chord.pc_modLane, Chord.nget_modLane]
    by_cases hk : l = k
    · simp [hk, Function.comp_def, Lane.doomBy_doomBy]
    · simp [hk]

section
variable {s : State} {c slot : Nat} {ch : Chord}

/-- A chord that is abandoned has every lane doomed. -/
theorem Chord.nget_abandon {l : Nat} {x : Lane} (h : nget ch.lanes l = some x) (t : Trap) :
    nget (ch.abandon t).lanes l = some (x.doomBy t ch.pc) := by
  rw [Chord.abandon, Chord.nget_foldl_doomBy, if_pos (mem_nkeys_of_nget h)]
  exact congrArg (Option.map _) h

theorem State.commitStep_on {todo : List CommitAct} (hch : s.chord? c slot = some ch) (htodo : ch.todo = some todo) :
    s.commitStep c slot = s.commitOn c slot ch todo := by
  simp only [State.commitStep, hch, htodo]

theorem Chord.done_of_end {h : Header} {ws : List Word} (himg : ch.img = some (h, ws)) (hpc : ws.length ≤ ch.pc) (hwaits : ch.waits = [])
    (hspecs : ch.specs = []) : ch.done = true := by
  simp [Chord.done, himg, hpc, hwaits, hspecs]

theorem State.commitStep_begin (hch : s.chord? c slot = some ch) (htodo : ch.todo = none) (hdone : ch.done = true) :
    s.commitStep c slot = s.commitBegin c slot ch := by
  simp only [State.commitStep, hch, htodo, hdone, if_true]

/-- The watchdog of a chord that was held too long (R342). -/
theorem State.watchdogStep_held (hch : s.chord? c slot = some ch) (htodo : ch.todo = none) (hfires : (s.ctx ch.ctx).fires = true)
    (hwdog : (s.ctx ch.ctx).desc.wdog ≠ 0) (hheld : (s.ctx ch.ctx).desc.wdog * 65536 ≤ s.cycle - ch.granted) :
    s.watchdogStep c slot =
      (let t : Trap := { cause := 0x14, aux := BitVec.ofNat 63 ((s.cycle - ch.granted) % 2 ^ 32) }
      if ch.img.isNone then s.voidChord c slot t false
      else (s.setChord c slot (ch.abandon t)).commitBegin c slot (ch.abandon t)) := by
  simp only [State.watchdogStep, hch]
  exact if_pos (by simp [htodo, hfires, hwdog, Config.slice64k, hheld])

end

/-- Settles O42: a commit begins or goes on by what is left of it (`commitStep_begin`, `commitStep_on`), the watchdog abandons a chord held
too long (`watchdogStep_held`), and abandoning dooms every lane that is not doomed yet (`nget_abandon`). -/
theorem commitSteps : Obligations.CommitSteps := by
  intro s core slot ch hch
  refine ⟨fun todo htodo => ?on, fun htodo => ?last, fun htodo h ws himg hpc hwaits hspecs => ?begins,
    fun htodo hfires hwdog hheld => ⟨fun himg => ?voided, fun himg => ⟨?abandoned, fun l x hx => ?doomed⟩⟩⟩
  case on => exact congrArg _ (State.commitStep_on hch htodo)
  case last => exact congrArg _ (State.commitStep_on hch htodo)
  case begins => exact congrArg _ (State.commitStep_begin hch htodo (Chord.done_of_end himg hpc hwaits hspecs))
  case voided => exact congrArg _ ((State.watchdogStep_held hch htodo hfires hwdog hheld).trans (if_pos (by rw [himg]; rfl)))
  case abandoned => exact congrArg _ ((State.watchdogStep_held hch htodo hfires hwdog hheld).trans (if_neg (by simpa using himg)))
  case doomed => exact ⟨_, Chord.nget_abandon hx _, x.doom_doomBy _ _⟩

end Sys2Proof.Machine

/-! SUPPORT. The registers before the boot has completed (O60). -/

namespace Sys2Proof.Machine

theorem State.ownerWrite_of_not_live {s : State} (h : s.registersLive = false) (m : Master) (f : State → State) : s.ownerWrite m f = s := by
  simp [State.ownerWrite, h]

theorem State.claimStep_of_not_live {s : State} (h : s.registersLive = false) (m : Master) : s.claimStep m = s := by
  simp [State.claimStep, h]

theorem registersLive_reset : State.reset.registersLive = false := rfl

/-- A core at reset holds nothing, its frames are free, and it serves the world of its own bit. -/
theorem core_reset (c : Nat) :
    (State.reset.core c).entries = [] ∧ (State.reset.core c).fifo = [] ∧ (State.reset.core c).chords = [] ∧ (State.reset.core c).sram = [] ∧
      (∀ j, (State.reset.core c).frameFree j = true) ∧ State.reset.coreSecure c = State.reset.sec.coreWorld.getLsbD c :=
  ⟨rfl, rfl, rfl, rfl, fun _ => rfl, rfl⟩

/-- Settles O60: what is stated of a register is its reset value, and no write is taken before the boot (`registersLive_reset`). -/
theorem resetState : Obligations.ResetState := by
  refine ⟨rfl, rfl, rfl, rfl, rfl, rfl, rfl, rfl, rfl, rfl, rfl, rfl, rfl, rfl, rfl, rfl, rfl, rfl, fun _ => rfl, fun _ => rfl, rfl, rfl,
    fun _ => rfl, core_reset, rfl, rfl, rfl, rfl, rfl, rfl, memsWf_reset, fun _ => rfl, fun m v n => ⟨?ends, ?evctl, ?claim⟩⟩
  case ends => exact congrArg Host.Outcome.next (State.ownerWrite_of_not_live registersLive_reset _ _)
  case evctl => exact congrArg Host.Outcome.next (State.ownerWrite_of_not_live registersLive_reset _ _)
  case claim => exact congrArg Host.Outcome.next (State.claimStep_of_not_live registersLive_reset _)

end Sys2Proof.Machine

/-! SUPPORT. Instructions whose lanes buffer chord effects, streams and copies (O29). -/

namespace Sys2Proof.Machine

section
variable {s s1 : State} {ch : Chord} {sh : Shape} {f : Flds} {ls : List (Nat × Lane × Vals)} {len : Nat} {mem : Bool} {body : Body}
  {l : Nat} {x : Lane} {v : Vals} {r : List (Nat × Lane × Vals)} {res : LaneRes}

/-! ### Lanes under a hypothesis (R266) -/

theorem Chord.anySpeculative_iff : (ch.lanes.any fun p => p.2.hid != 0) = true ↔ ∃ p ∈ ch.lanes, p.2.hid ≠ 0 := by
  simp only [List.any_eq_true, bne_iff_ne]

theorem Chord.not_anySpeculative_iff : (¬∃ p ∈ ch.lanes, p.2.hid ≠ 0) ↔ ∀ p ∈ ch.lanes, p.2.hid = 0 := by
  simp only [not_exists, not_and, not_not]

/-- A chord effect that `ChordEffect` describes is what `chordEff` answers. -/
theorem chordEff_eq {e : Eff} {w : Word} (h : ChordEffect s ch e w res s1) : chordEff s ch e w = (res, s1) := by
  obtain ⟨rfl, hspec, hplain⟩ := h
  by_cases hhid : ∃ p ∈ ch.lanes, p.2.hid ≠ 0
  · rw [chordEff, if_pos (Chord.anySpeculative_iff.2 hhid), hspec hhid]
  · replace hplain := hplain (Chord.not_anySpeculative_iff.1 hhid)
    rw [chordEff, if_neg (mt Chord.anySpeculative_iff.1 hhid)]
    dsimp only
    generalize effBreach _ _ _ _ = breach at hplain ⊢
    cases breach <;> rw [hplain]

/-! ### An instruction performed at one state (R205) -/

/-- Under U = 0 a performed instruction hands on its lanes' outcomes. -/
theorem State.perform_lanes {out : List (Nat × LaneRes)} (hready : s.ready sh f ch ls) (hu : f.u = false)
    (hrun : runLanes sh f ch ch.pc body ls s = some (out, s1)) : s.perform sh f len mem body = s1.handedOn ch f len out := by
  obtain ⟨hfocus, hissue, hgather⟩ := hready
  cases ls with
  | nil =>
    obtain ⟨rfl, rfl⟩ := Prod.mk.inj (Option.some.inj hrun)
    simp only [State.perform, hfocus, hissue, if_true, hgather]
    rfl
  | cons p r => simp [State.perform, hfocus, hissue, hgather, hu, hrun, State.handedOn]

/-- Under U = 1 a performed instruction, whatever its lanes' HIDs, runs once from the lowest lane's operands. -/
theorem State.perform_uniform (hready : s.ready sh f ch ((l, x, v) :: r)) (hu : f.u = true) (hsel : selects f v = true)
    (hbody : body s (ch.checked f ((l, x, v) :: r)) (ch.checked f ((l, x, v) :: r)).pc l x v = some (res, s1)) :
    s.perform sh f len false body = (if res.trap.isSome && ((l, x, v) :: r).all (fun p => p.2.1.doom.isSome) then s else s1).setFocus
      (((ch.checked f ((l, x, v) :: r)).putAll f (ch.checked f ((l, x, v) :: r)).pc res).next len) := by
  obtain ⟨hfocus, hissue, hgather⟩ := hready
  rw [Chord.checked] at hbody ⊢
  simp only [State.perform, hfocus, hissue, if_true, hgather]
  rw [if_pos (by simp [hu]), if_pos hsel, hbody]

/-- Under U = 1 one that the lowest lane's predicate does not select passes that lane's value on to every lane (R21). -/
theorem State.perform_unselected (hready : s.ready sh f ch ((l, x, v) :: r)) (hu : f.u = true) (hsel : selects f v = false) :
    s.perform sh f len false body = s.setFocus
      (((ch.checked f ((l, x, v) :: r)).putAll f (ch.checked f ((l, x, v) :: r)).pc (.val (passed sh v))).next len) := by
  obtain ⟨hfocus, hissue, hgather⟩ := hready
  rw [Chord.checked]
  simp only [State.perform, hfocus, hissue, if_true, hgather]
  rw [if_pos (by simp [hu]), if_neg (by simp [hsel])]

/-! ### The uniformity check (R205) -/

theorem Chord.checked_of_lanewise (hu : f.u = false) : ch.checked f ls = ch := by
  unfold Chord.checked
  split
  · rfl
  · exact if_neg (by simp [hu])

theorem Chord.checked_of_uniform (hu : f.u = true) :
    ch.checked f ((l, x, v) :: r) = if ch.ucheck then ch.checkUniform ch.pc v ((l, x, v) :: r) else ch := by
  simp only [Chord.checked, hu, Bool.true_and]

/-! ### Copies (R280) -/

variable {w : CopyWord}

/-- A CPY under U = 0, or over lanes of one HID, is performed as other instructions are. -/
theorem exec_cpy_performed (hfocus : s.focus = some ch) (h : f.u = false ∨ ch.mixedHids = false) :
    exec (.cpy w f) s = .next (s.perform .bin f 2 false (cpyBody w)) := by
  change execCpy w f s = _
  simp only [execCpy, hfocus]
  exact if_neg (by rcases h with h | h <;> simp [h])

/-- A uniform CPY over lanes of different HIDs makes one copy (R205, R266). -/
theorem exec_cpy_mixed (hready : s.ready .bin f ch ls) (hu : f.u = true) (hmixed : ch.mixedHids = true) :
    exec (.cpy w f) s = .next (s.copyMixed ch w f ls) := by
  obtain ⟨hfocus, hissue, hgather⟩ := hready
  change execCpy w f s = _
  simp only [execCpy, hfocus, hu, hmixed, hissue, hgather, Bool.and_self, if_true]

theorem State.copyMixed_unselected (hu : f.u = true) (hsel : selects f v = false) : s.copyMixed ch w f ((l, x, v) :: r) =
    s.setFocus (((ch.checked f ((l, x, v) :: r)).putAll f (ch.checked f ((l, x, v) :: r)).pc (.val (passed .bin v))).next 2) := by
  rw [Chord.checked_of_uniform hu]
  exact if_neg (by simp [hsel])

/-- The one copy of a uniform CPY: each lane under a hypothesis traps where the copy's addresses are in the window, and every other lane has
the copy's outcome. -/
theorem State.copyMixed_selected {c : Chord} (hu : f.u = true) (hc : ch.checked f ((l, x, v) :: r) = c) (hsel : selects f v = true)
    (hbody : cpyBody w s c c.pc l { x with hid := 0 } v = some (res, s1)) : s.copyMixed ch w f ((l, x, v) :: r) =
      (let out := c.lanes.foldl (fun k p => k.put f c.pc p.1 (if p.2.hid ≠ 0 ∧ ¬(2 ^ 57 ≤ v.a.toNat ∨ 2 ^ 57 ≤ v.b.toNat) then
        .trapped { cause := 0x0F } else { v0 := res.v0, v1 := res.v1, trap := res.trap })) c
      s1.setFocus (Chord.next { out with effs := out.effs ++ res.effs.map fun e => (c.pc, e) } 2)) := by
  have hinside (h : BitVec 8) : (decide (v.a.toNat < 2 ^ 57) && decide (v.b.toNat < 2 ^ 57) && h != 0) = true ↔
      h ≠ 0 ∧ ¬(2 ^ 57 ≤ v.a.toNat ∨ 2 ^ 57 ≤ v.b.toNat) := by
    simp only [Bool.and_eq_true, decide_eq_true_eq, bne_iff_ne, not_or, not_le, and_comm]
  rw [Chord.checked_of_uniform hu] at hc
  simp only [State.copyMixed, hc, hsel, if_true, hbody, hinside]

/-- A uniform CPY that the lowest lane's predicate does not select, over lanes of any HIDs. -/
theorem exec_cpy_unselected (hready : s.ready .bin f ch ((l, x, v) :: r)) (hu : f.u = true) (hsel : selects f v = false) :
    exec (.cpy w f) s = .next (s.setFocus
      (((ch.checked f ((l, x, v) :: r)).putAll f (ch.checked f ((l, x, v) :: r)).pc (.val (passed .bin v))).next 2)) := by
  cases hmixed : ch.mixedHids with
  | false => rw [exec_cpy_performed hready.1 (.inr hmixed), State.perform_unselected hready hu hsel]
  | true => rw [exec_cpy_mixed hready hu hmixed, State.copyMixed_unselected hu hsel]

end

/-! ### Streams (R275) -/

section
variable {out : Bool} {w : StreamWord} {ring i l : Nat} {s s1 : State} {ch : Chord} {x : Lane} {v : Vals} {res : LaneRes}

/-- The base of a stream lies in the window and is aligned to the elements of the ring as the chord's earlier effects leave it. -/
def State.baseFits (s : State) (ch : Chord) (ring : Nat) (b : Word) : Prop :=
  b.toNat < 2 ^ 57 ∧ b.toNat % max 1 ((((s.afterChordEffs s.flow.focusCore ch (s.consts ch)).core s.flow.focusCore).ring? ch.key ring).elim 8
    (fun r => r.desc.width) / 8) = 0

/-- STRM and STRMW in a lane. -/
theorem strmBody_eq : strmBody out w ring s ch i l x v =
    if ch.lanes.any fun p => p.2.hid != 0 then some (.trapped { cause := 0x0F }, s)
    else if 2 ^ 57 ≤ v.b.toNat then some (.trapped (trapWindow v.b), s)
    else if v.b.toNat % max 1 ((((s.afterChordEffs s.flow.focusCore ch (s.consts ch)).core s.flow.focusCore).ring? ch.key ring).elim 8
      (fun r => r.desc.width) / 8) ≠ 0 then some (.trapped (trapAlign v.b), s)
    else some (chordEff s ch (.strm out ring v.b w) 0) := by
  unfold strmBody
  cases ((s.afterChordEffs s.flow.focusCore ch (s.consts ch)).core s.flow.focusCore).ring? ch.key ring <;> rfl

/-- With a base that fits, or under a hypothesis, the start of the stream is a chord effect. -/
theorem strmBody_effect (hfits : s.baseFits ch ring v.b ∨ ∃ p ∈ ch.lanes, p.2.hid ≠ 0)
    (h : ChordEffect s ch (.strm out ring v.b w) 0 res s1) : strmBody out w ring s ch i l x v = some (res, s1) := by
  rw [strmBody_eq]
  by_cases hspec : ∃ p ∈ ch.lanes, p.2.hid ≠ 0
  · obtain ⟨rfl, htrap, -⟩ := h
    rw [if_pos (Chord.anySpeculative_iff.2 hspec), htrap hspec]
  · obtain ⟨hwindow, halign⟩ := hfits.resolve_right hspec
    rw [if_neg (mt Chord.anySpeculative_iff.1 hspec), if_neg (not_le.2 hwindow), if_neg (not_not.2 halign), chordEff_eq h]

/-- A base that does not fit traps by the window first. -/
theorem strmBody_breach (h : ¬(s.baseFits ch ring v.b ∨ ∃ p ∈ ch.lanes, p.2.hid ≠ 0)) : strmBody out w ring s ch i l x v =
    some (.trapped { cause := if 2 ^ 57 ≤ v.b.toNat then 0x05 else 0x06, addr := v.b }, s) := by
  obtain ⟨hfits, hspec⟩ := not_or.1 h
  rw [strmBody_eq, if_neg (mt Chord.anySpeculative_iff.1 hspec)]
  by_cases hwindow : 2 ^ 57 ≤ v.b.toNat
  · rw [if_pos hwindow, if_pos hwindow]
    rfl
  · rw [if_neg hwindow, if_neg hwindow, if_pos fun halign => hfits ⟨not_le.1 hwindow, halign⟩]
    rfl

end

/-- Settles O29: a stream's start by `strmBody_effect` and `strmBody_breach`; a CPY is performed as other instructions are, unless it is
uniform over lanes of different HIDs, where `copyMixed_selected` gives the one copy. -/
theorem streamInstructions : Obligations.StreamInstructions := by
  refine ⟨fun out w f => ?strm, fun f => ?strmq, fun f => ?strmc, fun w f s ch ls hready => ?cpy, fun f => ?cpyq, fun f => ?cpyc⟩
  case strm =>
    refine carriesOut_of_body (body := strmBody out w (immNat f.a)) (fun _ => by cases out <;> rfl) fun ch s l x v res s1 h => ?_
    by_cases hfits : s.baseFits ch (immNat f.a) v.b ∨ ∃ p ∈ ch.lanes, p.2.hid ≠ 0
    · exact strmBody_effect hfits ((if_pos hfits).mp h)
    · obtain ⟨rfl, rfl⟩ := (if_neg hfits).mp h
      exact strmBody_breach hfits
  case strmq =>
    refine .of_gives (fun _ => rfl) fun s ch l x v => ?_
    unfold strmqBody
    cases (s.core s.flow.focusCore).namedStream ch.key (immNat f.a) <;> rfl
  case strmc =>
    refine carriesOut_of_body (fun _ => rfl) fun ch s l x v res s1 h => ?_
    obtain ⟨rfl, hspec, hplain⟩ := h
    unfold strmcBody
    by_cases hhid : ∃ p ∈ ch.lanes, p.2.hid ≠ 0
    · rw [if_pos (Chord.anySpeculative_iff.2 hhid), hspec hhid]
    · rw [if_neg (mt Chord.anySpeculative_iff.1 hhid), hplain (Chord.not_anySpeculative_iff.1 hhid)]
  case cpy =>
    intro one ch'
    have hone : ∀ c s l x v res s1, one c s l x v res s1 → cpyBody w s c c.pc l x v = some (res, s1) := by
      intro c s l x v res s1 h
      dsimp only [one] at h
      unfold cpyBody
      split_ifs at h ⊢ with hsrc hdst hhid
      · rw [h.1, h.2]; rfl
      · rw [h.1, h.2]; rfl
      · rw [h.1, h.2]
      generalize copyOf s _ _ _ _ _ _ _ _ = asked at h ⊢
      generalize s.chooseEngine c.ctx = engine at h ⊢
      rcases asked with t | copy
      · rw [h.1, h.2]
      · cases engine <;> obtain ⟨rfl, rfl⟩ := h <;> rfl
    refine ⟨fun hu out s1 hlanes => ?lanes, fun hu l x v r hls => ?_⟩
    case lanes =>
      have hch : ch' = ch := Chord.checked_of_lanewise hu
      rw [hch] at hlanes ⊢
      rw [exec_cpy_performed hready.1 (.inl hu), State.perform_lanes hready hu (runLanes_of_lanes (hone ch) _ _ _ _ hlanes)]
    subst hls
    refine ⟨exec_cpy_unselected hready hu, fun hsel hmixed res s1 h => ?alike, fun hsel hmixed res s1 h => ?mixed⟩
    case alike =>
      rw [exec_cpy_performed hready.1 (.inr hmixed), State.perform_uniform hready hu hsel (hone ch' s l x v res s1 h)]
    case mixed =>
      exact (exec_cpy_mixed hready hu hmixed).trans (congrArg _ (State.copyMixed_selected hu rfl hsel (hone ch' s l _ v res s1 h)))
  case cpyq => exact .of_gives (fun _ => rfl) fun _ _ _ _ _ => rfl
  case cpyc => exact .of_gives (fun _ => rfl) fun _ _ _ _ _ => rfl

end Sys2Proof.Machine

/-! SUPPORT. Hypotheses at execution (O36). -/

namespace Sys2Proof.Machine

/-- An instruction for which U falls away over lanes of different HIDs, and whose body gives a value of the state, the lane and its
operands (R206). -/
theorem CarriesOut.of_givesMem {i : Instr} {sh : Shape} {f : Flds} {len : Nat} {body : Body}
    {g : State → Chord → Nat → Lane → Vals → LaneRes} (he : ∀ s, exec i s = .next (s.perform sh f len true body))
    (hb : ∀ s ch l x v, body s ch ch.pc l x v = some (g s ch l x v, s)) : CarriesOut i sh f len true (gives g) :=
  carriesOut_of_body he <| by
    rintro ch s l x v res s1 ⟨rfl, rfl⟩
    exact hb _ ch l x v

/-- Settles O36: HFORK by whether one child serves every lane, and the others by their checks. -/
theorem hypothesisInstructions : Obligations.HypothesisInstructions := by
  refine ⟨fun f s ch ls hready => ⟨fun h => ?lanes, fun h l x v r hls => ?uniform⟩, fun refute d f => ?hres, fun f => ?hqry, fun f => ?hnote⟩
  case lanes =>
    obtain ⟨hfocus, hissue, hgather⟩ := hready
    change execHfork f s = _
    simp only [execHfork, hfocus, hissue, hgather, if_true]
    exact if_neg (by rcases h with h | h <;> simp [h])
  case uniform =>
    obtain ⟨hfocus, hissue, hgather⟩ := hready
    obtain ⟨hu, hmixed⟩ := h
    subst hls
    change execHfork f s = _
    rw [Chord.checked_of_uniform hu]
    simp only [execHfork, hfocus, hissue, hgather, if_true]
    exact if_pos (by simp [hu, hmixed])
  case hres =>
    refine .of_givesMem (fun _ => rfl) fun s ch l x v => ?_
    unfold hresBody
    simp only [bits, Bool.not_eq_true]
    split <;> rfl
  case hqry => exact .of_givesMem (fun _ => rfl) fun _ _ _ _ _ => rfl
  case hnote =>
    refine .of_givesMem (fun _ => rfl) fun s ch l x v => ?_
    unfold hnoteBody
    simp only [bits, Bool.not_eq_true]
    split <;> rfl

end Sys2Proof.Machine

/-! SUPPORT. The steps of matching, block fills, bins and rounds (O38). -/

namespace Sys2Proof.Machine

/-! ### Tokens on the network (R189, R195, R335) -/

section
variable {s : State} {n : Nat} {t : Token}

/-- The state in which a token has been taken off the network and its context's descriptor read. -/
def State.taken (s : State) (n : Nat) (t : Token) : State := State.loadDesc { s with net := ldrop s.net n } t.ctx

/-- A token that arrives (R189, R335). -/
theorem State.arrivalStep_eq (ht : s.net[n]? = some t) : s.arrivalStep n =
    if t.dpkg ≠ s.pkg then ((s.taken n t).sendToken t).payAcks
    else if ((s.taken n t).ctx t.ctx).desc.valid = false then (s.taken n t).protectionEvent 1 t.ctx t.spkg
    else if ((s.taken n t).ctx t.ctx).matches_ = true then ((s.taken n t).matchToken t.dcore.toNat t).examineFifo t.dcore.toNat
    else s := by
  simp only [State.arrivalStep, ht, Bool.not_eq_true']
  rfl

/-- A token for a context that is away (R195, R335). -/
theorem State.appendStep_eq (ht : s.net[n]? = some t) : s.appendStep n =
    if t.dpkg ≠ s.pkg then s
    else if ((s.taken n t).ctx t.ctx).desc.valid = false then (s.taken n t).protectionEvent 1 t.ctx t.spkg
    else if ((s.taken n t).ctx t.ctx).matches_ = true then s
    else if (s.taken n t).act? (actKey t.ctx t.act) ≠ none ∧ (s.taken n t).placement (actKey t.ctx t.act) (s.taken n t).pkg = [] then
      (s.taken n t).countDiscard t.ctx
    else if (s.taken n t).spillStuck t.ctx = true then s
    else (s.taken n t).spillPut t := by
  simp only [State.appendStep, ht, Bool.not_eq_true', ← State.taken.eq_1]
  cases (s.taken n t).act? (actKey t.ctx t.act) <;> simp

end

/-- A token spilled towards a core that can take it is looked at first: bad data stops its context, a broken packet is discarded, and any
other token is matched (R195, R343). -/
theorem State.reloadStep_found {s : State} {n : BitVec 12} {core : BitVec 8} {i : Nat} (hmatches : (s.ctx n).matches_ = true)
    (hfifo : (s.core core.toNat).fifo = []) (hframe : (s.core core.toNat).freeFrame ≠ none) (hslot : s.spillFor n core.toNat = some i) :
    s.reloadStep n core.toNat =
      if s.slotBad n i = true then (s.freeSlot n i).escalate n 6 {}
      else if s.slotOk n i = true then ((s.freeSlot n i).matchToken core.toNat
        { s.spillAt n i with skind := 7, score := 0xFF, cntf := false, dcore := core }).examineFifo core.toNat
      else (s.freeSlot n i).slotError := by
  simp only [State.reloadStep, hslot, BitVec.ofNat_toNat, BitVec.setWidth_eq]
  exact if_neg (by simp [hmatches, hfifo, hframe])

/-! ### Block fills (R33, R260) -/

/-- A fill that has read its header and its whole image, all of it good, caches the block or records its refusal. -/
theorem State.blockFillStep_read {s s1 s2 s3 : State} {c n len : Nat} {f : BFill} {pl hp pw wp : List Place} {who : Who} {lo hi : Word}
    {ws : List Word} (hf : (s.core c).bfills[n]? = some f) (hstop : f.stop = none)
    (hwho : { core := some c, die := dieOf c, ctx := f.ctx, act := f.act, kind := 2, job := c + 256 * f.va } = who)
    (hpages : s.checkPages who f.va 16 .exec = .ok pl s1) (hseek : s1.seek who pl = .got hp)
    (hlo : wordOfBytes (hp.map (engByte s1)) = lo) (hhi : wordOfBytes ((hp.map (engByte s1)).drop 8) = hi) (hlen : 8 * (decHeader lo hi).n = len)
    (hwords : s1.checkPages who (f.va + 16) len .exec = .ok pw s2) (hread : s2.seek who pw = .got wp)
    (hs3 : (s2.bump.enterPinned (pl ++ pw)).forgetJob who = s3) (hgood : ∀ p ∈ pl ++ pw, engPoison s3 p = false)
    (hws : wordsOfBytes (len / 8) (wp.map (engByte s1)) = ws) :
    (∀ b, validate lo hi ws = .ok b → s.blockFillStep c n = (s3.dropFill c n).endFill c f b.hdr ws) ∧
    (∀ syn, validate lo hi ws = .error syn →
      s.blockFillStep c n = (s3.dropFill c n).refuseFill c f syn (decHeader lo hi).trapblk (16 + len)) := by
  have hpoison : (pl ++ pw).any (engPoison s3) = false := List.any_eq_false.2 fun p hp => ne_true_of_eq_false (hgood p hp)
  simp only [State.blockFillStep, hf, hstop, Option.isSome_none, Bool.false_eq_true, if_false, hwho, hpages, hseek, hlo, hhi, hlen, hwords,
    hread, hs3, hpoison, hws]
  exact ⟨fun b hvalid => by rw [hvalid], fun syn hvalid => by rw [hvalid]⟩

/-! ### Bins (R197) -/

/-- A bin that becomes firable starts with no losses and no credit. -/
theorem State.refreshBin_of_firable {s : State} {c : Nat} {b : Bin} (hfires : (s.ctx b.ctx).fires = true) (hquiet : b.fires = false)
    (hfirable : s.firable c b = true) : s.refreshBin c b = { b with fires := true, losses := 0, credit := 0, due := none } := by
  simp [State.refreshBin, hfires, hquiet, hfirable]

/-- Settles O38: a token's arrival and its append by the branches of `arrivalStep_eq` and `appendStep_eq`, a reload by those of
`reloadStep_found`, a fill by `blockFillStep_read`, and a sustain timer by `refreshBin_of_firable`. -/
theorem matchingSteps : Obligations.MatchingSteps := by
  refine ⟨fun s n t ht => ?network, fun s core n w hw hsince hroom => ?divert, fun s ctx core i hmatches hfifo hframe hslot => ?reload,
    fun s core n f pl hp pw wp s1 s2 => ?fill, fun s core bin b hbin hfirable hquiet hfires => ?sustain, fun s core slot g b => ?round⟩
  case network =>
    refine ⟨fun hpkg => congrArg _ ((State.arrivalStep_eq ht).trans (if_pos hpkg)), fun hpkg hvalid hmatches => ?matched, fun hpkg hvalid => ?undescribed,
      fun hpkg hvalid hmatches => ?away⟩
    case matched =>
      have hhere := (State.arrivalStep_eq ht).trans (if_neg (not_not.2 hpkg))
      exact congrArg _ (hhere.trans ((if_neg (ne_false_of_eq_true hvalid)).trans (if_pos hmatches)))
    case undescribed =>
      exact ⟨congrArg _ ((State.arrivalStep_eq ht).trans ((if_neg (not_not.2 hpkg)).trans (if_pos hvalid))),
        congrArg _ ((State.appendStep_eq ht).trans ((if_neg (not_not.2 hpkg)).trans (if_pos hvalid)))⟩
    case away =>
      have haway := (State.appendStep_eq ht).trans ((if_neg (not_not.2 hpkg)).trans
        ((if_neg (ne_false_of_eq_true hvalid)).trans (if_neg (ne_true_of_eq_false hmatches))))
      refine ⟨fun hplaced hroom => ?_, fun hact hplace => congrArg _ (haway.trans (if_pos ⟨hact, hplace⟩))⟩
      exact congrArg _ (haway.trans ((if_neg fun hgone => hplaced.elim hgone.1 (· hgone.2)).trans (if_neg (ne_true_of_eq_false hroom))))
  case divert =>
    change Host.Outcome.next (s.divertStep core.toNat n) = _
    simp only [State.divertStep, hw]
    exact congrArg _ (if_pos ⟨hsince, by simpa using hroom⟩)
  case reload =>
    have hstep : exec (.spillReload ctx core) s = _ := congrArg Host.Outcome.next (State.reloadStep_found hmatches hfifo hframe hslot)
    rw [hstep]
    refine ⟨fun hgood hok => ?_, fun hgood hbroken => ?_, fun hbad => ?_⟩
    · rw [if_neg (ne_true_of_eq_false hgood), if_pos hok]
    · rw [if_neg (ne_true_of_eq_false hgood), if_neg (ne_true_of_eq_false hbroken)]
    · rw [if_pos hbad]
  case fill =>
    intro c who hf hstop hpages hseek lo hi len hwords hread s3 hgood ws
    obtain ⟨hvalid, hrefused⟩ := State.blockFillStep_read hf hstop rfl hpages hseek rfl rfl rfl hwords hread rfl hgood rfl
    exact ⟨fun b h => congrArg _ (hvalid b h), fun syn h => congrArg _ (hrefused syn h)⟩
  case sustain =>
    change Host.Outcome.next (s.expiryStep core.toNat bin.toNat) = _
    simp only [State.expiryStep, State.modCore, hbin, State.refreshBin_of_firable hfires hquiet hfirable]
  case round =>
    intro c s1 fs fit top ps hgate hfree hround
    change Host.Outcome.next (s.roundStep c) = _
    unfold State.roundStep
    rw [hgate, if_neg Bool.false_ne_true]
    dsimp only
    rw [hfree, hround]

end Sys2Proof.Machine

/-! SUPPORT. Every step keeps the canonical form of package memory, and what the form is good for (O48, O49). -/

namespace Sys2Proof.Machine

/-! ### What one step can do (assumption log 1) -/

/-- Every instruction and every step of an agent keeps the form of package memory: each meaning does. -/
theorem exec_keeps {i : Instr} {s t : State} (e : exec i s = .next t) (h : s.HomeWf) : t.HomeWf :=
  match i, e with
  | .add .., e => execAdd_keeps e h
  | .sub .., e => execSub_keeps e h
  | .adds .., e => execAdds_keeps e h
  | .subs .., e => execSubs_keeps e h
  | .mul .., e => execMul_keeps e h
  | .mulh .., e => execMulh_keeps e h
  | .mad .., e => execMad_keeps e h
  | .div .., e => execDiv_keeps e h
  | .rem .., e => execRem_keeps e h
  | .min .., e => execMin_keeps e h
  | .max .., e => execMax_keeps e h
  | .abs .., e => execAbs_keeps e h
  | .neg .., e => execNeg_keeps e h
  | .and .., e => execAnd_keeps e h
  | .andn .., e => execAndn_keeps e h
  | .or .., e => execOr_keeps e h
  | .xor .., e => execXor_keeps e h
  | .not .., e => execNot_keeps e h
  | .shl .., e => execShl_keeps e h
  | .shr .., e => execShr_keeps e h
  | .sar .., e => execSar_keeps e h
  | .rot .., e => execRot_keeps e h
  | .popc .., e => execPopc_keeps e h
  | .clz .., e => execClz_keeps e h
  | .ctz .., e => execCtz_keeps e h
  | .brev .., e => execBrev_keeps e h
  | .bfx .., e => execBfx_keeps e h
  | .bfi .., e => execBfi_keeps e h
  | .sel .., e => execSel_keeps e h
  | .mov .., e => execMov_keeps e h
  | .idx .., e => execIdx_keeps e h
  | .cmp .., e => execCmp_keeps e h
  | .imm .., e => execImm_keeps e h
  | .immh .., e => execImmh_keeps e h
  | .fadd .., e => execFadd_keeps e h
  | .fsub .., e => execFsub_keeps e h
  | .fmul .., e => execFmul_keeps e h
  | .ffma .., e => execFfma_keeps e h
  | .fmin .., e => execFmin_keeps e h
  | .fmax .., e => execFmax_keeps e h
  | .fabs .., e => execFabs_keeps e h
  | .fneg .., e => execFneg_keeps e h
  | .fdiv .., e => execFdiv_keeps e h
  | .fsqrt .., e => execFsqrt_keeps e h
  | .frcp .., e => execFrcp_keeps e h
  | .frsq .., e => execFrsq_keeps e h
  | .fex2 .., e => execFex2_keeps e h
  | .flg2 .., e => execFlg2_keeps e h
  | .fsin .., e => execFsin_keeps e h
  | .fcos .., e => execFcos_keeps e h
  | .ftanh .., e => execFtanh_keeps e h
  | .frnd .., e => execFrnd_keeps e h
  | .fscl .., e => execFscl_keeps e h
  | .fcls .., e => execFcls_keeps e h
  | .fcmp .., e => execFcmp_keeps e h
  | .icvt .., e => execIcvt_keeps e h
  | .fcvt .., e => execFcvt_keeps e h
  | .send .., e => execSend_keeps e h
  | .spawn .., e => execSpawn_keeps e h
  | .launch .., e => execLaunch_keeps e h
  | .doneCredit .., e => execDoneCredit_keeps e h
  | .shfl .., e => execShfl_keeps e h
  | .bcst .., e => execBcst_keeps e h
  | .vote .., e => execVote_keeps e h
  | .mtch .., e => execMtch_keeps e h
  | .prfx .., e => execPrfx_keeps e h
  | .redu .., e => execRedu_keeps e h
  | .srd .., e => execSrd_keeps e h
  | .swr r _, e => execSwr_keeps (x0 := r) e h
  | .nop .., e => execNop_keeps e h
  | .trap .., e => execTrap_keeps e h
  | .brk .., e => execBrk_keeps e h
  | .tret .., e => execTret_keeps e h
  | .kill .., e => execKill_keeps e h
  | .ld .., e => execLd_keeps e h
  | .ldAcq .., e => execLdAcq_keeps e h
  | .st .., e => execSt_keeps e h
  | .stRel .., e => execStRel_keeps e h
  | .ldt .., e => execLdt_keeps e h
  | .atom .., e => execAtom_keeps e h
  | .upd .., e => execUpd_keeps e h
  | .fence .., e => execFence_keeps e h
  | .pref .., e => execPref_keeps e h
  | .cctl .., e => execCctl_keeps e h
  | .bcinv .., e => execBcinv_keeps e h
  | .frma .., e => execFrma_keeps e h
  | .frmf .., e => execFrmf_keeps e h
  | .cmpk .., e => execCmpk_keeps e h
  | .rbind .., e => execRbind_keeps e h
  | .runb .., e => execRunb_keeps e h
  | .rget .., e => execRget_keeps e h
  | .rput .., e => execRput_keeps e h
  | .radv .., e => execRadv_keeps e h
  | .rwait .., e => execRwait_keeps e h
  | .rstat .., e => execRstat_keeps e h
  | .strm .., e => execStrm_keeps e h
  | .strmw .., e => execStrmw_keeps e h
  | .strmq .., e => execStrmq_keeps e h
  | .strmc .., e => execStrmc_keeps e h
  | .cpy .., e => execCpy_keeps e h
  | .cpyq .., e => execCpyq_keeps e h
  | .cpyc .., e => execCpyc_keeps e h
  | .mxbind .., e => execMxbind_keeps e h
  | .mxunb .., e => execMxunb_keeps e h
  | .mxfire .., e => execMxfire_keeps e h
  | .mxz .., e => execMxz_keeps e h
  | .mxld .., e => execMxld_keeps e h
  | .mxst .., e => execMxst_keeps e h
  | .mxmute .., e => execMxmute_keeps e h
  | .mxstat .., e => execMxstat_keeps e h
  | .mxsave .., e => execMxsave_keeps e h
  | .mxrest .., e => execMxrest_keeps e h
  | .symk .., e => execSymk_keeps e h
  | .symc .., e => execSymc_keeps e h
  | .symr .., e => execSymr_keeps e h
  | .symp .., e => execSymp_keeps e h
  | .syms .., e => execSyms_keeps e h
  | .symq .., e => execSymq_keeps e h
  | .hfork .., e => execHfork_keeps e h
  | .hres .., e => execHres_keeps e h
  | .hqry .., e => execHqry_keeps e h
  | .hnote .., e => execHnote_keeps e h
  | .psel .., e => execPsel_keeps e h
  | .topk .., e => execTopk_keeps e h
  | .tokenArrival .., e => execTokenArrival_keeps e h
  | .blockFill .., e => execBlockFill_keeps e h
  | .fifoDivert .., e => execFifoDivert_keeps e h
  | .spillReload .., e => execSpillReload_keeps e h
  | .spillAppend .., e => execSpillAppend_keeps e h
  | .binSustainExpiry .., e => execBinSustainExpiry_keeps e h
  | .arbitrationRound .., e => execArbitrationRound_keeps e h
  | .chordCommit .., e => execChordCommit_keeps e h
  | .watchdog .., e => execWatchdog_keeps e h
  | .epochAdvance, e => execEpochAdvance_keeps e h
  | .releaseRecordFree .., e => execReleaseRecordFree_keeps e h
  | .l1Fill .., e => execL1Fill_keeps e h
  | .writeBackAccept .., e => execWriteBackAccept_keeps e h
  | .flagRelease .., e => execFlagRelease_keeps e h
  | .flagAcquire .., e => execFlagAcquire_keeps e h
  | .drainOrder .., e => execDrainOrder_keeps e h
  | .drainAnswer .., e => execDrainAnswer_keeps e h
  | .acquireAnswer .., e => execAcquireAnswer_keeps e h
  | .updateAccept .., e => execUpdateAccept_keeps e h
  | .updateOperation .., e => execUpdateOperation_keeps e h
  | .updateOperationEnd .., e => execUpdateOperationEnd_keeps e h
  | .remoteAccess, e => execRemoteAccess_keeps e h
  | .flitReceive .., e => execFlitReceive_keeps e h
  | .negativeAcknowledge .., e => execNegativeAcknowledge_keeps e h
  | .portRetrain .., e => execPortRetrain_keeps e h
  | .retrainEnd .., e => execRetrainEnd_keeps e h
  | .routeLost .., e => execRouteLost_keeps e h
  | .routeReturn .., e => execRouteReturn_keeps e h
  | .timeFlitSend, e => execTimeFlitSend_keeps e h
  | .timeFlit .., e => execTimeFlit_keeps e h
  | .domainTimeLost, e => execDomainTimeLost_keeps e h
  | .ethernetPacket .., e => execEthernetPacket_keeps e h
  | .streamTile .., e => execStreamTile_keeps e h
  | .streamEnd .., e => execStreamEnd_keeps e h
  | .streamError .., e => execStreamError_keeps e h
  | .copyStart .., e => execCopyStart_keeps e h
  | .copyEnd .., e => execCopyEnd_keeps e h
  | .stageComplete .., e => execStageComplete_keeps e h
  | .firingStart .., e => execFiringStart_keeps e h
  | .firingRetire .., e => execFiringRetire_keeps e h
  | .drainStart .., e => execDrainStart_keeps e h
  | .drainEnd .., e => execDrainEnd_keeps e h
  | .mutePassed .., e => execMutePassed_keeps e h
  | .residencyDecision, e => execResidencyDecision_keeps e h
  | .preemptBegin .., e => execPreemptBegin_keeps e h
  | .preemptChordAbandon .., e => execPreemptChordAbandon_keeps e h
  | .preemptSave .., e => execPreemptSave_keeps e h
  | .preemptSaveComplete .., e => execPreemptSaveComplete_keeps e h
  | .contextRestore .., e => execContextRestore_keeps e h
  | .launchRequest .., e => execLaunchRequest_keeps e h
  | .endOrder .., e => execEndOrder_keeps e h
  | .hypothesisRequest .., e => execHypothesisRequest_keeps e h
  | .sweepPhaseB .., e => execSweepPhaseB_keeps e h
  | .sweepEnd .., e => execSweepEnd_keeps e h
  | .speculativeReservation .., e => execSpeculativeReservation_keeps e h
  | .hypothesisCapacity .., e => execHypothesisCapacity_keeps e h
  | .symcCompare .., e => execSymcCompare_keeps e h
  | .sympStore .., e => execSympStore_keeps e h
  | .symrReplay .., e => execSymrReplay_keeps e h
  | .pselSelect .., e => execPselSelect_keeps e h
  | .translationWalk .., e => execTranslationWalk_keeps e h
  | .faultResume .., e => execFaultResume_keeps e h
  | .faultRefuse .., e => execFaultRefuse_keeps e h
  | .invalidateRange .., e => execInvalidateRange_keeps e h
  | .invalidateContext .., e => execInvalidateContext_keeps e h
  | .invalidateAll .., e => execInvalidateAll_keeps e h
  | .invalidationEnd, e => execInvalidationEnd_keeps e h
  | .ctxPreempt .., e => execCtxPreempt_keeps e h
  | .ctxStop .., e => execCtxStop_keeps e h
  | .ctxResume .., e => execCtxResume_keeps e h
  | .ctxEnd .., e => execCtxEnd_keeps e h
  | .ctxReload .., e => execCtxReload_keeps e h
  | .ingressWrite .., e => execIngressWrite_keeps e h
  | .bar2Write .., e => execBar2Write_keeps e h
  | .bar2Read .., e => execBar2Read_keeps e h
  | .completionRecord, e => execCompletionRecord_keeps e h
  | .eventWrite, e => execEventWrite_keeps e h
  | .hostEvctlWrite .., e => execHostEvctlWrite_keeps e h
  | .hostEvtailWrite .., e => execHostEvtailWrite_keeps e h
  | .hostCasResponse .., e => execHostCasResponse_keeps e h
  | .hostClaim .., e => execHostClaim_keeps e h
  | .hostPeerset .., e => execHostPeerset_keeps e h
  | .hostHandover .., e => execHostHandover_keeps e h
  | .handoverEffect, e => execHandoverEffect_keeps e h
  | .registerWrite .., e => execRegisterWrite_keeps e h
  | .bootStart .., e => execBootStart_keeps e h
  | .bootComplete, e => execBootComplete_keeps e h
  | .stagingWrite .., e => execStagingWrite_keeps e h
  | .secLock .., e => execSecLock_keeps e h
  | .keyLoad .., e => execKeyLoad_keeps e h
  | .attestationRequest .., e => execAttestationRequest_keeps e h
  | .attestationDone, e => execAttestationDone_keeps e h
  | .reset, e => execReset_keeps e h
  | .powerCap .., e => execPowerCap_keeps e h
  | .temperatureWarning .., e => execTemperatureWarning_keeps e h
  | .hbmThrottle .., e => execHbmThrottle_keeps e h
  | .trip .., e => execTrip_keeps e h
  | .mgmtCool .., e => execMgmtCool_keeps e h
  | .i3cAccess .., e => execI3cAccess_keeps e h
  | .memdataRead .., e => execMemdataRead_keeps e h
  | .memdataWrite .., e => execMemdataWrite_keeps e h
  | .eccError .., e => execEccError_keeps e h
  | .replayInject, e => execReplayInject_keeps e h
  | .replayTimeout .., e => execReplayTimeout_keeps e h
  | .hostCompletion .., e => execHostCompletion_keeps e h

theorem issue_keeps {s t : State} {c slot : Nat} (e : issue s c slot = .next t) (h : s.HomeWf) : t.HomeWf := by
  unfold issue at e
  split at e
  case h_1 => cases e; exact h
  case h_2 i hfetch =>
    split at e
    · exact exec_keeps e (State.setFocusAt_keeps (State.noteIssue_keeps h))
    · cases e; exact h
  case h_3 => cases e

theorem step_keeps {s t : State} (e : step s = .next t) (h : s.HomeWf) : t.HomeWf := by
  unfold step at e
  have hpop := State.popMove_keeps h
  split at e
  case h_1 => cases e; exact State.tick_keeps h
  case h_2 => cases e; exact State.tick_keeps hpop
  case h_3 => exact issue_keeps e hpop
  case h_4 =>
    split at e
    · exact exec_keeps e hpop
    · cases e; exact hpop

/-- Settles O49: each move is a meaning's (`exec_keeps`), an issue of one (`issue_keeps`), or time that passes. -/
theorem stepKeepsMemory : Obligations.StepKeepsMemory :=
  fun _ _ h e => step_keeps e h

/-! ### Memories in canonical form that read the same (R210, assumption log 9) -/

theorem memOk_cons {lo : Option Nat} {a : Nat} {v : Byte} {r : List Host.Cell} :
    memOk lo ((a, v) :: r) = true ↔ (∀ l ∈ lo, l < a) ∧ v ≠ 0 ∧ memOk (some a) r = true := by
  cases lo <;> simp [memOk, and_assoc]

/-- The first listed address is the lowest that reads other than zero: it is not below that of a memory which reads the same. -/
theorem head_le_of_mget_eq {lo : Option Nat} {a b : Nat} {v w : Byte} {r q : List Host.Cell} (h : memOk lo ((a, v) :: r) = true)
    (h' : memOk lo ((b, w) :: q) = true) (hread : ∀ x, mget ((a, v) :: r) x = mget ((b, w) :: q) x) : b ≤ a := by
  by_contra hlt
  obtain ⟨-, hv, -⟩ := memOk_cons.1 h
  obtain ⟨-, hw, hq⟩ := memOk_cons.1 h'
  have hzero : mget ((b, w) :: q) a = 0 := mget_of_low (l := a) (memOk_cons.2 ⟨by simpa using hlt, hw, hq⟩) le_rfl
  exact hv (calc
    v = mget ((a, v) :: r) a := (if_pos rfl).symm
    _ = mget ((b, w) :: q) a := hread a
    _ = 0 := hzero)

theorem eq_of_mget_eq {lo : Option Nat} {m m' : List Host.Cell} (h : memOk lo m = true) (h' : memOk lo m' = true)
    (hread : ∀ a, mget m a = mget m' a) : m = m' := by
  induction m generalizing lo m' with
  | nil =>
    cases m' with
    | nil => rfl
    | cons p q =>
      obtain ⟨-, hne, -⟩ := memOk_cons.1 h'
      exact absurd (by simpa [mget] using (hread p.1).symm) hne
  | cons p r ih =>
    obtain ⟨a, v⟩ := p
    obtain ⟨-, hv, hr⟩ := memOk_cons.1 h
    cases m' with
    | nil => exact absurd (by simpa [mget] using hread a) hv
    | cons p q =>
      obtain ⟨b, w⟩ := p
      obtain ⟨-, -, hq⟩ := memOk_cons.1 h'
      obtain rfl : a = b := le_antisymm (head_le_of_mget_eq h' h fun x => (hread x).symm) (head_le_of_mget_eq h h' hread)
      have hval : v = w := by simpa [mget] using hread a
      have htail : ∀ x, mget r x = mget q x := fun x => by
        by_cases hx : x ≤ a
        · rw [mget_of_low hr hx, mget_of_low hq hx]
        · simpa [mget, show a ≠ x by omega] using hread x
      rw [hval, ih hr hq htail]

/-- Settles O48: what each operation leaves in the form and reads as, and that the lists are equal by `eq_of_mget_eq`. -/
theorem memoryForm : Obligations.MemoryForm := fun _ h =>
  ⟨fun a v => ⟨wf_mput h a v, by rw [mget_mput h, if_pos rfl], fun b hb => by rw [mget_mput h, if_neg hb]⟩,
    fun a bs => ⟨wf_mputs h a bs, mgets_mputs_same h a bs, fun _ hb => mget_mputs_outside h hb⟩,
    fun lo hi => ⟨wf_mclear h lo hi, mget_mclear _ lo hi⟩, fun _ h' hread => eq_of_mget_eq h h' hread⟩

end Sys2Proof.Machine

/-! SUPPORT. Accepting a line at its home: the open bytes it takes out of their ranges, what enters and leaves the L2, and what the bytes
read as from then on (O47). -/

namespace Sys2Proof.Machine

/-! ### Ranges of open bytes (R425, assumption log 9, 13) -/

namespace OpenRange

/-- Whether a range of open bytes holds an address. -/
def holds (r : OpenRange) (pa : Nat) : Bool := decide (r.lo ≤ pa) && decide (pa < r.hi)

/-- What a range says of a byte it holds: whether an earlier boot left it, of what occasion it is, and its offset there. -/
def place (r : OpenRange) (pa : Nat) : Bool × Nat × Nat := (r.raw, r.occasion, r.off + (pa - r.lo))

/-- What is left of a range once the bytes of [lo, hi) are taken out of it. -/
def cut (r : OpenRange) (lo hi : Nat) : List OpenRange :=
  if r.hi ≤ lo ∨ hi ≤ r.lo then [r]
  else [{ r with hi := lo }, { r with lo := hi, off := r.off + (hi - r.lo) }].filter fun x => decide (x.lo < x.hi)

@[simp] theorem holds_iff {r : OpenRange} {pa : Nat} : r.holds pa = true ↔ r.lo ≤ pa ∧ pa < r.hi := by simp [holds]

theorem mem_cut {r x : OpenRange} {lo hi : Nat} : x ∈ r.cut lo hi ↔
    (r.hi ≤ lo ∨ hi ≤ r.lo) ∧ x = r ∨
    ¬(r.hi ≤ lo ∨ hi ≤ r.lo) ∧ x.lo < x.hi ∧ (x = { r with hi := lo } ∨ x = { r with lo := hi, off := r.off + (hi - r.lo) }) := by
  unfold cut
  split
  · next h => simp [h]
  · next h => simp [h, and_comm]

/-- Each piece is of the range's kind, and holds only what the range holds outside [lo, hi), with the same place. -/
theorem of_mem_cut {r x : OpenRange} {lo hi : Nat} (hx : x ∈ r.cut lo hi) :
    x.raw = r.raw ∧ ∀ pa, x.holds pa = true → r.holds pa = true ∧ ¬(lo ≤ pa ∧ pa < hi) ∧ x.place pa = r.place pa := by
  rcases mem_cut.1 hx with ⟨happart, rfl⟩ | ⟨hmeets, -, rfl | rfl⟩
  · exact ⟨rfl, fun pa hpa => ⟨hpa, by rw [holds_iff] at hpa; omega, rfl⟩⟩
  · exact ⟨rfl, fun pa hpa => by simp only [holds_iff] at hpa ⊢; exact ⟨by omega, by omega, rfl⟩⟩
  · refine ⟨rfl, fun pa hpa => ?_⟩
    simp only [holds_iff] at hpa ⊢
    have hoff : r.off + (hi - r.lo) + (pa - hi) = r.off + (pa - r.lo) := by omega
    exact ⟨by omega, by omega, by simp only [place, hoff]⟩

/-- What a range holds outside [lo, hi) is held by one of its pieces. -/
theorem exists_mem_cut {r : OpenRange} {lo hi pa : Nat} (hr : r.holds pa = true) (hout : ¬(lo ≤ pa ∧ pa < hi)) :
    ∃ x ∈ r.cut lo hi, x.holds pa = true := by
  have hr' := holds_iff.1 hr
  by_cases happart : r.hi ≤ lo ∨ hi ≤ r.lo
  · exact ⟨r, mem_cut.2 (.inl ⟨happart, rfl⟩), hr⟩
  · rcases Nat.lt_or_ge pa lo with hlow | hhigh
    · exact ⟨{ r with hi := lo }, mem_cut.2 (.inr ⟨happart, by dsimp only; omega, .inl rfl⟩), holds_iff.2 ⟨hr'.1, hlow⟩⟩
    · exact ⟨{ r with lo := hi, off := r.off + (hi - r.lo) }, mem_cut.2 (.inr ⟨happart, by dsimp only; omega, .inr rfl⟩),
        holds_iff.2 ⟨by dsimp only; omega, hr'.2⟩⟩

end OpenRange

/-- What a list of ranges says of a byte: the first that holds it. -/
def openPlace (l : List OpenRange) (pa : Nat) : Option (Bool × Nat × Nat) := (l.find? fun r => r.holds pa).map fun r => r.place pa

theorem openPlace_append (l l' : List OpenRange) (pa : Nat) : openPlace (l ++ l') pa = (openPlace l pa).or (openPlace l' pa) := by
  simp only [openPlace, List.find?_append]
  cases l.find? fun r => r.holds pa <;> rfl

theorem openPlace_singleton (r : OpenRange) (pa : Nat) : openPlace [r] pa = if r.holds pa then some (r.place pa) else none := by
  simp only [openPlace, List.find?_cons, List.find?_nil]
  split <;> simp_all

theorem openPlace_cut (r : OpenRange) (lo hi pa : Nat) :
    openPlace (r.cut lo hi) pa = if lo ≤ pa ∧ pa < hi then none else openPlace [r] pa := by
  rw [openPlace_singleton]
  cases hfind : (r.cut lo hi).find? fun x => x.holds pa with
  | some x =>
    have hpa : x.holds pa = true := List.find?_some (p := fun x : OpenRange => x.holds pa) hfind
    obtain ⟨hr, hout, hplace⟩ := (OpenRange.of_mem_cut (List.mem_of_find?_eq_some hfind)).2 pa hpa
    rw [if_neg hout, if_pos hr, openPlace, hfind, Option.map_some, hplace]
  | none =>
    rw [openPlace, hfind, Option.map_none]
    split
    · rfl
    · next hout =>
      refine (if_neg fun hr => ?_).symm
      obtain ⟨x, hx, hpa⟩ := OpenRange.exists_mem_cut hr hout
      exact List.find?_eq_none.1 hfind x hx hpa

/-- Taking bytes out of the ranges leaves what they say of every other byte. -/
theorem openPlace_cutOpens (l : List OpenRange) (lo hi pa : Nat) :
    openPlace (State.cutOpens l lo hi) pa = if lo ≤ pa ∧ pa < hi then none else openPlace l pa := by
  induction l with
  | nil => exact (ite_self _).symm
  | cons r l ih =>
    change openPlace (r.cut lo hi ++ State.cutOpens l lo hi) pa = if _ then _ else openPlace ([r] ++ l) pa
    rw [openPlace_append, openPlace_append, openPlace_cut, ih]
    split <;> rfl

theorem mem_cutOpens {l : List OpenRange} {lo hi : Nat} {x : OpenRange} : x ∈ State.cutOpens l lo hi ↔ ∃ r ∈ l, x ∈ r.cut lo hi := by
  simp only [State.cutOpens, List.mem_flatten, List.mem_map]
  exact ⟨fun ⟨_, ⟨r, hr, rfl⟩, hx⟩ => ⟨r, hr, hx⟩, fun ⟨r, hr, hx⟩ => ⟨_, ⟨r, hr, rfl⟩, hx⟩⟩

/-! ### The bytes of a line, one after another -/

/-- The memory with the chosen ones of `n` bytes written from an address on. -/
def putChosen (chosen : Nat → Bool) (v : Nat → Byte) (base n : Nat) (m : List Host.Cell) : List Host.Cell :=
  (List.range n).foldl (fun m i => if chosen i then mput m (base + i) (v i) else m) m

/-- The ranges with the chosen ones of `n` bytes taken out of them from an address on. -/
def cutChosen (chosen : Nat → Bool) (base n : Nat) (l : List OpenRange) : List OpenRange :=
  (List.range n).foldl (fun l i => if chosen i then State.cutOpens l (base + i) (base + i + 1) else l) l

/-- Whether a byte is one of the chosen ones of `n` from an address on. -/
def chosenAt (chosen : Nat → Bool) (base n pa : Nat) : Bool := decide (base ≤ pa) && decide (pa < base + n) && chosen (pa - base)

theorem chosenAt_succ (chosen : Nat → Bool) (base n pa : Nat) :
    chosenAt chosen base (n + 1) pa = if pa = base + n then chosen n else chosenAt chosen base n pa := by
  unfold chosenAt
  split
  · next h => subst h; simp
  · next h =>
    have hlt : pa < base + (n + 1) ↔ pa < base + n := by omega
    simp only [hlt]

theorem chosenAt_zero (chosen : Nat → Bool) (base pa : Nat) : chosenAt chosen base 0 pa = false := by
  simp [chosenAt]

theorem chosenAt_last (chosen : Nat → Bool) (base n : Nat) : chosenAt chosen base n (base + n) = false := by
  simp [chosenAt]

theorem lineOf_offset {line i : Nat} (hi : i < 128) : lineOf (line * 128 + i) = line := by
  unfold lineOf; omega

theorem chosenAt_line {line i : Nat} (hi : i < 128) (chosen : Nat → Bool) : chosenAt chosen (line * 128) 128 (line * 128 + i) = chosen i := by
  simp [chosenAt, hi]

theorem chosenAt_other {line pa : Nat} (h : lineOf pa ≠ line) (chosen : Nat → Bool) : chosenAt chosen (line * 128) 128 pa = false := by
  unfold lineOf at h
  simp only [chosenAt, Bool.and_eq_false_iff, decide_eq_false_iff_not]
  exact .inl (by omega)

theorem putChosen_succ (chosen : Nat → Bool) (v : Nat → Byte) (base n : Nat) (m : List Host.Cell) : putChosen chosen v base (n + 1) m =
    if chosen n then mput (putChosen chosen v base n m) (base + n) (v n) else putChosen chosen v base n m := by
  simp only [putChosen, List.range_succ, List.foldl_append, List.foldl_cons, List.foldl_nil]

theorem cutChosen_succ (chosen : Nat → Bool) (base n : Nat) (l : List OpenRange) : cutChosen chosen base (n + 1) l =
    if chosen n then State.cutOpens (cutChosen chosen base n l) (base + n) (base + n + 1) else cutChosen chosen base n l := by
  simp only [cutChosen, List.range_succ, List.foldl_append, List.foldl_cons, List.foldl_nil]

theorem wf_putChosen {m : List Host.Cell} (h : Memory.wf m = true) (chosen : Nat → Bool) (v : Nat → Byte) (base n : Nat) :
    Memory.wf (putChosen chosen v base n m) = true :=
  foldl_keeps (P := fun m => Memory.wf m = true) (fun m i hm => by split; exacts [wf_mput hm _ _, hm]) _ _ h

theorem mget_putChosen {m : List Host.Cell} (h : Memory.wf m = true) (chosen : Nat → Bool) (v : Nat → Byte) (base n pa : Nat) :
    mget (putChosen chosen v base n m) pa = if chosenAt chosen base n pa then v (pa - base) else mget m pa := by
  induction n with
  | zero => rw [chosenAt_zero]; rfl
  | succ n ih =>
    rw [putChosen_succ, chosenAt_succ]
    by_cases hpa : pa = base + n
    · subst hpa
      rw [if_pos rfl]
      split
      · rw [mget_mput (wf_putChosen h _ _ _ _), if_pos rfl, Nat.add_sub_cancel_left]
      · rw [ih, chosenAt_last, if_neg Bool.false_ne_true]
    · rw [if_neg hpa, ← ih]
      split
      · rw [mget_mput (wf_putChosen h _ _ _ _), if_neg hpa]
      · rfl

theorem openPlace_cutChosen (l : List OpenRange) (chosen : Nat → Bool) (base n pa : Nat) :
    openPlace (cutChosen chosen base n l) pa = if chosenAt chosen base n pa then none else openPlace l pa := by
  induction n with
  | zero => rw [chosenAt_zero]; rfl
  | succ n ih =>
    rw [cutChosen_succ, chosenAt_succ]
    by_cases hpa : pa = base + n
    · subst hpa
      rw [if_pos rfl]
      split
      · rw [openPlace_cutOpens, if_pos (by omega)]
      · rw [ih, chosenAt_last, if_neg Bool.false_ne_true]
    · rw [if_neg hpa, ← ih]
      split
      · rw [openPlace_cutOpens, if_neg (by omega)]
      · rfl

/-- A range that is left is a piece of one that was there, and holds none of the chosen bytes. -/
theorem of_mem_cutChosen {l : List OpenRange} {chosen : Nat → Bool} {base n : Nat} {x : OpenRange} (hx : x ∈ cutChosen chosen base n l) :
    ∃ r ∈ l, x.raw = r.raw ∧ ∀ pa, x.holds pa = true → r.holds pa = true ∧ chosenAt chosen base n pa = false := by
  induction n generalizing x with
  | zero => exact ⟨x, hx, rfl, fun pa hpa => ⟨hpa, chosenAt_zero _ _ _⟩⟩
  | succ n ih =>
    rw [cutChosen_succ] at hx
    split at hx
    next hn =>
      obtain ⟨y, hy, hcut⟩ := mem_cutOpens.1 hx
      obtain ⟨hraw, hpiece⟩ := OpenRange.of_mem_cut hcut
      obtain ⟨r, hr, hraw', hleft⟩ := ih hy
      refine ⟨r, hr, hraw.trans hraw', fun pa hpa => ?_⟩
      obtain ⟨hypa, hout, -⟩ := hpiece pa hpa
      obtain ⟨hrpa, hleft⟩ := hleft pa hypa
      exact ⟨hrpa, by rw [chosenAt_succ, if_neg (by omega), hleft]⟩
    next hn =>
      obtain ⟨r, hr, hraw, hleft⟩ := ih hx
      refine ⟨r, hr, hraw, fun pa hpa => ?_⟩
      obtain ⟨hrpa, hleft⟩ := hleft pa hpa
      refine ⟨hrpa, ?_⟩
      rw [chosenAt_succ]
      split
      · simpa using hn
      · exact hleft

/-! ### What a byte reads as at its home (R210, R424, R425) -/

/-- The open byte of a place, read under a key. -/
def openValue (key : BitVec 512) (x : Bool × Nat × Nat) : Byte := if x.1 then State.rawByte x.2.1 x.2.2 key else State.openByte x.2.1 x.2.2

/-- The key that a line is read under: its own where the L2 holds it, and otherwise the slot's. -/
def State.readKey (s : State) (slot : BitVec 8) (line : Nat) : BitVec 512 := if (s.line line).res then (s.line line).tkey else (s.keySlot slot).key

theorem State.homeByte_eq (s : State) (slot : BitVec 8) (pa : Nat) : s.homeByte slot pa =
    if Config.memBytes ≤ pa then Config.freeByte pa
    else if s.garbled slot (lineOf pa) then strangeByte pa (s.readKey slot (lineOf pa)) (s.line (lineOf pa)).ver
    else (openPlace s.homes.opens pa).elim (mget s.homes.mem pa) (openValue (s.readKey slot (lineOf pa))) := by
  have hplace : openPlace s.homes.opens pa = (s.homes.opens.find? fun r => decide (r.lo ≤ pa) && decide (pa < r.hi)).map fun r => r.place pa := rfl
  rw [hplace]
  unfold State.homeByte
  split
  · rfl
  · split
    · rfl
    · cases s.homes.opens.find? fun r => decide (r.lo ≤ pa) && decide (pa < r.hi) <;> rfl

end Sys2Proof.Machine

namespace Sys2Proof.Machine

/-! ### What enters the L2 and what leaves it (R255, R256, R424) -/

/-- A byte reads at its home as the key and the version of its line, and what memory and the open ranges hold of it, say. -/
theorem State.homeByte_of_reads {s t : State} {slot : BitVec 8} {pa : Nat} (hgarbled : t.garbled slot (lineOf pa) = s.garbled slot (lineOf pa))
    (hkey : t.readKey slot (lineOf pa) = s.readKey slot (lineOf pa)) (hver : (t.line (lineOf pa)).ver = (s.line (lineOf pa)).ver)
    (hmem : mget t.homes.mem pa = mget s.homes.mem pa) (hopen : openPlace t.homes.opens pa = openPlace s.homes.opens pa) :
    t.homeByte slot pa = s.homeByte slot pa := by
  simp only [State.homeByte_eq, hgarbled, hkey, hver, hmem, hopen]

theorem State.keySlot_of_sec {s t : State} (h : t.sec = s.sec) (n : BitVec 8) : t.keySlot n = s.keySlot n := by
  simp only [State.keySlot, h]

theorem State.wrongKey_of_sec {s t : State} (h : t.sec = s.sec) (m : LineMeta) (slot : BitVec 8) : t.wrongKey m slot = s.wrongKey m slot := by
  simp only [State.wrongKey, keySlot_of_sec h]

/-- A line whose state stands reads as before where its bytes do. -/
theorem State.homeByte_of_line {s t : State} {slot : BitVec 8} {pa : Nat} (hsec : t.sec = s.sec) (hline : t.line (lineOf pa) = s.line (lineOf pa))
    (hmem : mget t.homes.mem pa = mget s.homes.mem pa) (hopen : openPlace t.homes.opens pa = openPlace s.homes.opens pa) :
    t.homeByte slot pa = s.homeByte slot pa :=
  homeByte_of_reads (by simp only [garbled, wrongKey_of_sec hsec, hline]) (by simp only [readKey, keySlot_of_sec hsec, hline]) (by rw [hline]) hmem hopen

/-- A dirty line that leaves the L2 reads under the slot it was tagged with as good as it did there. -/
theorem State.garbled_l2Leave {s t : State} {l : Nat} (hsec : t.sec = s.sec) (hline : t.line l = (s.l2Leave l).line l) (hdirty : (s.line l).dirty = true) :
    t.garbled (s.line l).tag l = false := by
  simp [garbled, wrongKey, hline, keySlot_of_sec hsec, l2Leave, hdirty]

/-- A line that leaves the L2 is there no more, and keeps its marks. -/
theorem State.line_l2Leave (s : State) (l : Nat) : ((s.l2Leave l).line l).res = false ∧ ((s.l2Leave l).line l).stamp = 0 ∧
    ((s.l2Leave l).line l).sticky = (s.line l).sticky ∧ ((s.l2Leave l).line l).poison = (s.line l).poison := by
  rw [l2Leave, line_setLine_same]
  refine ⟨rfl, rfl, ?_, ?_⟩ <;> split <;> rfl

/-- How bringing a line into the L2 under a key slot changes a state: `out` is the line that leaves for it, where one does. -/
structure State.Enters (s u : State) (slot : BitVec 8) (line : Nat) (out : Option Nat) : Prop where
  res : (u.line line).res = true
  stamp : (u.line line).stamp = if (s.line line).res then (s.line line).stamp else 0
  here : ∀ pa, lineOf pa = line → u.homeByte slot pa = s.homeByte slot pa
  rest : ∀ l, l ≠ line → out ≠ some l → u.line l = s.line l
  left : ∀ l, out = some l → l ≠ line ∧ (s.line line).res = false ∧ (s.line l).res = true ∧ u.line l = (s.l2Leave l).line l
  frame : u = { s with homes := { s.homes with lines := u.homes.lines }, flow := { s.flow with freeCtr := u.flow.freeCtr } }

theorem State.l2Enter_of_res {s : State} {line : Nat} (h : (s.line line).res = true) (pins : List Nat) (slot : BitVec 8) :
    s.l2Enter pins slot line = s := if_pos (by rw [h, Bool.true_or])

theorem State.l2Enter_res {s : State} {line : Nat} (hin : line * 128 < Config.memBytes) (pins : List Nat) (slot : BitVec 8) :
    ((s.l2Enter pins slot line).line line).res = true := by
  by_cases h : (s.line line).res = true
  · rw [l2Enter_of_res h, h]
  · have hout : ((s.line line).res || decide (Config.memBytes ≤ line * 128)) = false := by simpa [h] using hin
    rw [State.l2Enter, if_neg (ne_true_of_eq_false hout)]
    dsimp only
    rw [line_setLine_same]

theorem State.Enters.of_res {s : State} {line : Nat} (h : (s.line line).res = true) (slot : BitVec 8) : s.Enters s slot line none where
  res := h
  stamp := (if_pos h).symm
  here _ _ := rfl
  rest _ _ _ := rfl
  left _ := nofun
  frame := rfl

/-- A line enters by its own state once a state is there in which only `out` has left. -/
theorem State.Enters.of_room {s s1 : State} {slot : BitVec 8} {line : Nat} {out : Option Nat} (hres : (s.line line).res = false)
    (hline : s1.line line = s.line line) (hrest : ∀ l, out ≠ some l → s1.line l = s.line l)
    (hleft : ∀ l, out = some l → (s.line l).res = true ∧ s1.line l = (s.l2Leave l).line l)
    (hframe : s1 = { s with homes := { s.homes with lines := s1.homes.lines }, flow := { s.flow with freeCtr := s1.flow.freeCtr } }) :
    s.Enters (s1.setLine line { s1.line line with
      stamp := 0, res := true, tag := slot, tkey := (s1.keySlot slot).key, dirty := false, garb := s1.wrongKey (s1.line line) slot }) slot line out := by
  have hsec : s1.sec = s.sec := (congrArg State.sec hframe :)
  exact {
    res := by rw [line_setLine_same]
    stamp := by rw [line_setLine_same, hres]; rfl
    here := fun pa hpa => by
      subst hpa
      refine homeByte_of_reads ?_ ?_ ?_ (congrArg (fun x : State => mget x.homes.mem pa) hframe :) (congrArg (fun x : State => openPlace x.homes.opens pa) hframe :)
      · simp only [garbled, line_setLine_same, if_true, hline, wrongKey_of_sec hsec, hres, Bool.false_eq_true, if_false]
      · simp only [readKey, line_setLine_same, if_true, keySlot_of_sec hsec, hres, Bool.false_eq_true, if_false]
      · rw [line_setLine_same, hline]
    rest := fun l hl hout => by rw [line_setLine, if_neg hl, hrest l hout]
    left := fun l hout => by
      obtain ⟨hl, hleave⟩ := hleft l hout
      have hne : l ≠ line := by rintro rfl; rw [hl] at hres; cases hres
      exact ⟨hne, hres, hl, by rw [line_setLine, if_neg hne, hleave]⟩
    frame := by
      rw [hframe]
      rfl }

/-- Bringing a line of the installed memory into the L2. -/
theorem State.l2Enter_enters {s : State} {line : Nat} (hin : line * 128 < Config.memBytes) (pins : List Nat) (slot : BitVec 8) :
    ∃ out, s.Enters (s.l2Enter pins slot line) slot line out := by
  by_cases hres : (s.line line).res = true
  · exact ⟨none, by rw [l2Enter_of_res hres]; exact .of_res hres slot⟩
  · rcases l2Enter_cases s pins slot line with hsame | ⟨hres, -, s1, out, hroom, heq⟩
    · exact absurd (by rw [← hsame]; exact l2Enter_res hin pins slot) hres
    · rw [heq]
      refine ⟨out, ?_⟩
      rcases hroom with ⟨rfl, rfl⟩ | ⟨rfl, rfl⟩ | ⟨l, rfl, hl, rfl⟩
      · exact .of_room hres rfl (fun _ _ => rfl) nofun rfl
      · exact .of_room hres rfl (fun _ _ => rfl) nofun rfl
      · have hne : line ≠ l := by rintro rfl; rw [hl] at hres; cases hres
        refine .of_room hres ?_ (fun k hk => ?_) (fun k hk => ?_) rfl
        · exact (State.line_setLine _ _ _ _).trans (if_neg hne)
        · exact (State.line_setLine _ _ _ _).trans (if_neg fun h => hk (congrArg some h.symm))
        · cases hk
          exact ⟨hl, rfl⟩

end Sys2Proof.Machine

namespace Sys2Proof.Machine

/-! ### What accepting a line writes (R210, R229, R255, R424) -/

namespace State

/-- Which bytes of a line become those that memory holds: the masked ones, and every one where the line was read as other bytes. -/
def takesByte (u : State) (line : Nat) (mask : Mask) (i : Nat) : Bool := mask.getLsbD i || ((u.line line).garb || u.rawLine line)

/-- What a byte of a line is once masked data is accepted there. -/
def acceptedByte (u : State) (slot : BitVec 8) (line : Nat) (mask : Mask) (data : Line) (i : Nat) : Byte :=
  if mask.getLsbD i then data.extractLsb' (8 * i) 8 else u.homeByte slot (line * 128 + i)

/-- Accepting masked data in a line that the L2 holds. -/
def takeLine (u : State) (slot : BitVec 8) (line : Nat) (mask : Mask) (data : Line) : State :=
  { u with homes := { u.homes with
      mem := putChosen (u.takesByte line mask) (u.acceptedByte slot line mask data) (line * 128) 128 u.homes.mem
      opens := cutChosen (u.takesByte line mask) (line * 128) 128 u.homes.opens
      lines := nput u.homes.lines line { u.line line with stamp := (u.line line).stamp + 1, dirty := true, garb := false } } }

theorem acceptLine_outside {s : State} {line : Nat} (h : Config.memBytes ≤ line * 128) (slot : BitVec 8) (mask : Mask) (data : Line) :
    s.acceptLine slot line mask data = s := if_pos h

/-- A line of the installed memory enters the L2 and is then taken there. -/
theorem acceptLine_inside {s : State} {line : Nat} (h : line * 128 < Config.memBytes) (slot : BitVec 8) (mask : Mask) (data : Line) :
    s.acceptLine slot line mask data = (s.l2Enter [] slot line).takeLine slot line mask data := by
  have hbyte (u : State) (m : List Host.Cell) (i : Nat) :
      (if mask.getLsbD i then mput m (line * 128 + i) (data.extractLsb' (8 * i) 8)
        else if (u.line line).garb || u.rawLine line then mput m (line * 128 + i) (u.homeByte slot (line * 128 + i)) else m) =
      if u.takesByte line mask i then mput m (line * 128 + i) (u.acceptedByte slot line mask data i) else m := by
    unfold takesByte acceptedByte
    cases mask.getLsbD i <;> simp
  rw [acceptLine, if_neg (not_le.2 h)]
  simp only [hbyte]
  rfl

variable (u : State) (slot : BitVec 8) (line : Nat) (mask : Mask) (data : Line)

theorem takeLine_line (l : Nat) : (u.takeLine slot line mask data).line l =
    if l = line then { u.line line with stamp := (u.line line).stamp + 1, dirty := true, garb := false } else u.line l :=
  u.line_setLine line l _

theorem mget_takeLine (h : Memory.wf u.homes.mem = true) (pa : Nat) : mget (u.takeLine slot line mask data).homes.mem pa =
    if chosenAt (u.takesByte line mask) (line * 128) 128 pa then u.acceptedByte slot line mask data (pa - line * 128) else mget u.homes.mem pa :=
  mget_putChosen h _ _ _ _ _

theorem openPlace_takeLine (pa : Nat) : openPlace (u.takeLine slot line mask data).homes.opens pa =
    if chosenAt (u.takesByte line mask) (line * 128) 128 pa then none else openPlace u.homes.opens pa :=
  openPlace_cutChosen _ _ _ _ _

/-- Another line reads as before. -/
theorem homeByte_takeLine_other {line : Nat} (h : Memory.wf u.homes.mem = true) {pa : Nat} (hpa : lineOf pa ≠ line) (k : BitVec 8) :
    (u.takeLine slot line mask data).homeByte k pa = u.homeByte k pa := by
  have hout := chosenAt_other hpa (u.takesByte line mask)
  refine homeByte_of_line rfl ?_ ?_ ?_
  · rw [takeLine_line, if_neg hpa]
  · rw [mget_takeLine _ _ _ _ _ h, hout, if_neg Bool.false_ne_true]
  · rw [openPlace_takeLine, hout, if_neg Bool.false_ne_true]

/-- Each byte of the line reads as it was accepted: it is written there, or was read from memory and the ranges as before. -/
theorem homeByte_takeLine_same (h : Memory.wf u.homes.mem = true) (hin : line * 128 < Config.memBytes) (hres : (u.line line).res = true)
    {i : Nat} (hi : i < 128) : (u.takeLine slot line mask data).homeByte slot (line * 128 + i) = u.acceptedByte slot line mask data i := by
  have hline : lineOf (line * 128 + i) = line := lineOf_offset hi
  have hgood : (u.takeLine slot line mask data).garbled slot line = false := by simp [garbled, takeLine_line, hres]
  cases htaken : u.takesByte line mask i with
  | true =>
    have hbytes : ¬Config.memBytes ≤ line * 128 + i := by unfold Config.memBytes at hin ⊢; omega
    rw [homeByte_eq, if_neg hbytes, hline, hgood, if_neg Bool.false_ne_true, openPlace_takeLine, mget_takeLine _ _ _ _ _ h, chosenAt_line hi, htaken,
      if_pos rfl, if_pos rfl, Nat.add_sub_cancel_left]
    rfl
  | false =>
    obtain ⟨hmask, hgarb, -⟩ : mask.getLsbD i = false ∧ (u.line line).garb = false ∧ u.rawLine line = false := by simpa [takesByte] using htaken
    rw [acceptedByte, hmask, if_neg Bool.false_ne_true]
    refine homeByte_of_reads ?_ ?_ ?_ ?_ ?_
    · rw [hline, hgood, garbled, hres, if_pos rfl, hgarb]
    · simp [hline, readKey, takeLine_line, hres]
    · rw [hline, takeLine_line, if_pos rfl]
    · rw [mget_takeLine _ _ _ _ _ h, chosenAt_line hi, htaken, if_neg Bool.false_ne_true]
    · rw [openPlace_takeLine, chosenAt_line hi, htaken, if_neg Bool.false_ne_true]

theorem rawLine_of_holds {u : State} {r : OpenRange} {pa : Nat} (hr : r ∈ u.homes.opens) (hraw : r.raw = true) (hpa : r.holds pa = true) :
    u.rawLine (lineOf pa) = true := by
  rw [OpenRange.holds_iff] at hpa
  unfold rawLine lineOf
  refine List.any_eq_true.2 ⟨r, hr, ?_⟩
  simp only [hraw, Bool.true_and, Bool.and_eq_true, decide_eq_true_eq]
  omega

/-- No byte of the line is one that an earlier boot left: where one was, every byte of the line is taken. -/
theorem not_raw_takeLine {i : Nat} (hi : i < 128) {r : OpenRange} (hr : r ∈ (u.takeLine slot line mask data).homes.opens) (hraw : r.raw = true) :
    r.holds (line * 128 + i) = false := by
  by_contra hholds
  obtain ⟨r0, hr0, hkind, hleft⟩ := of_mem_cutChosen hr
  obtain ⟨hholds0, hout⟩ := hleft _ (Bool.eq_true_of_not_eq_false hholds)
  have hline := rawLine_of_holds hr0 (hkind ▸ hraw) hholds0
  rw [lineOf_offset hi] at hline
  rw [chosenAt_line hi, takesByte, hline, Bool.or_true, Bool.or_true] at hout
  cases hout

end State

/-- Settles O47: the line enters the L2 (`l2Enter_enters`) and is taken there, with its own bytes by `homeByte_takeLine_same` and every other
line's by `homeByte_takeLine_other`. -/
theorem homeMemory : Obligations.HomeMemory := by
  intro s slot line mask data hwf
  refine ⟨fun hout => State.acceptLine_outside hout slot mask data, fun hin => ?_⟩
  intro t
  have ht : t = (s.l2Enter [] slot line).takeLine slot line mask data := State.acceptLine_inside hin slot mask data
  obtain ⟨out, henters⟩ := State.l2Enter_enters (s := s) hin [] slot
  generalize s.l2Enter [] slot line = u at ht henters
  have hsec : u.sec = s.sec := (congrArg State.sec henters.frame :)
  have hmem : u.homes.mem = s.homes.mem := (congrArg (fun x : State => x.homes.mem) henters.frame :)
  have hopens : u.homes.opens = s.homes.opens := (congrArg (fun x : State => x.homes.opens) henters.frame :)
  have hwfu : Memory.wf u.homes.mem = true := hmem ▸ hwf
  clear_value t
  subst ht
  refine ⟨fun i hi => ?bytes, fun i hi r hr hraw => ?raw, ?res, ?stamp, ⟨out, fun l hl hout => ?rest, fun l hout => ?left⟩, ?wf, ?frame⟩
  case bytes =>
    rw [State.homeByte_takeLine_same _ _ _ _ _ hwfu hin henters.res hi, State.acceptedByte, henters.here _ (lineOf_offset hi)]
  case raw =>
    have := State.not_raw_takeLine u slot line mask data hi hr hraw
    simpa [OpenRange.holds, Nat.not_le, imp_iff_not_or] using this
  case res => rw [State.takeLine_line, if_pos rfl]; exact henters.res
  case stamp => rw [State.takeLine_line, if_pos rfl, ← henters.stamp]
  case rest =>
    have hline := henters.rest l hl hout
    refine ⟨by rw [State.takeLine_line, if_neg hl, hline], fun k pa hpa => ?_⟩
    rw [State.homeByte_takeLine_other u slot mask data hwfu (hpa ▸ hl)]
    exact State.homeByte_of_line hsec (by rw [hpa, hline]) (by rw [hmem]) (by rw [hopens])
  case left =>
    obtain ⟨hl, hres, hheld, hleave⟩ := henters.left l hout
    have hline : (u.takeLine slot line mask data).line l = (s.l2Leave l).line l := by rw [State.takeLine_line, if_neg hl, hleave]
    obtain ⟨hgone, hstamp, hsticky, hpoison⟩ := s.line_l2Leave l
    rw [hline]
    refine ⟨hl, hres, hheld, hgone, hstamp, hsticky, hpoison, fun hdirty hgarb hraw pa hpa => ?_⟩
    subst hpa
    rw [State.homeByte_takeLine_other u slot mask data hwfu hl]
    exact State.homeByte_of_good hmem hopens (by rw [State.garbled, hheld, if_pos rfl, hgarb]) (State.garbled_l2Leave hsec hleave hdirty) hraw
  case wf => exact wf_putChosen hwfu _ _ _ _
  case frame =>
    rw [henters.frame]
    rfl

end Sys2Proof.Machine

/-! SUPPORT. The steps of the memory system (O44). -/

namespace Sys2Proof.Machine

namespace State

variable {s : State}

/-! ### Epochs (R213, R216, R239) -/

/-- Two states with the same links and the same engines. -/
def SameLinksEng (s t : State) : Prop := t.links = s.links ∧ t.eng = s.eng

theorem SameLinksEng.trans {s t u : State} (h : s.SameLinksEng t) (h' : t.SameLinksEng u) : s.SameLinksEng u :=
  ⟨h'.1.trans h.1, h'.2.trans h.2⟩

theorem SameLinksEng.foldl {α : Type} {f : State → α → State} (hf : ∀ s x, State.SameLinksEng s (f s x)) (l : List α) (s : State) :
    s.SameLinksEng (l.foldl f s) :=
  foldl_keeps (P := s.SameLinksEng) (fun t x ht => ht.trans (hf t x)) l s ⟨rfl, rfl⟩

theorem sameLinksEng_writeBackLine (s : State) (c : Nat) (l : L1Line) : s.SameLinksEng (s.writeBackLine c l) := by
  unfold writeBackLine
  split <;> exact ⟨rfl, rfl⟩

/-- The cores write back and clear what the new epoch asks for; of the links it is the epoch that changes, and of the engines the register
of the new epoch. -/
theorem epochStep_spec (s : State) : s.epochStep.links = { s.links with epoch := s.epoch + 1 } ∧
    s.epochStep.eng.sigs = s.eng.sigs.map fun p => (p.1, lset p.2 ((s.epoch + 1) % 4) 0) := by
  unfold epochStep
  dsimp only
  generalize hcores : List.foldl _ _ (nkeys s.cores) = t
  have ht : SameLinksEng { s with links := { s.links with epoch := s.epoch + 1 } } t := by
    rw [← hcores]
    refine .foldl (fun u c => ?_) _ _
    have hlines : u.SameLinksEng (((u.modCore c fun k => k.clearSig (s.epoch + 1)).core c).l1.foldl
        (fun v l => if l.epoch + 2 ≤ s.epoch + 1 then (v.writeBackLine c l).dropLine c l.line else v) (u.modCore c fun k => k.clearSig (s.epoch + 1))) :=
      .trans (t := u.modCore c fun k => k.clearSig (s.epoch + 1)) ⟨rfl, rfl⟩ (.foldl (fun v l => by
        split
        · exact sameLinksEng_writeBackLine v c l
        · exact ⟨rfl, rfl⟩) _ _)
    split <;> exact hlines
  exact ⟨ht.1, by rw [ht.2]⟩

/-- The registers of an engine that has some are cleared in the new epoch's place. -/
theorem engSigs_epochStep (s : State) (e : Nat) : s.epochStep.engSigs e =
    if (nget s.eng.sigs e).isSome then lset (s.engSigs e) ((s.epoch + 1) % 4) 0 else s.engSigs e := by
  rw [engSigs, s.epochStep_spec.2, nget_map (fun l => lset l ((s.epoch + 1) % 4) 0), engSigs]
  cases nget s.eng.sigs e <;> rfl

/-! ### Writes of a core at their homes (R210, R259) -/

theorem homeWrite_now {w : Writer} {pa : Nat} {slot : BitVec 8} {mask : Mask} {data : Line} {n : BitVec 12} {b : Bool}
    (hop : s.opInFlight (lineOf pa) = false) (hline : s.heldOn (lineOf pa) = false) (hat : s.heldAt w (homeSlice (lineOf pa)) = false) :
    s.homeWrite w (.write pa slot mask data n 0 b) = (s.acceptLine slot (lineOf pa) mask data).signBy w (lineOf pa) := by
  simp [homeWrite, performWrite, hop, hline, hat]

theorem homeWrite_held {w : Writer} {pa : Nat} {slot : BitVec 8} {mask : Mask} {data : Line} {n : BitVec 12} {b : Bool}
    (h : s.opInFlight (lineOf pa) = true ∨ s.heldOn (lineOf pa) = true ∨ s.heldAt w (homeSlice (lineOf pa)) = true) :
    s.homeWrite w (.write pa slot mask data n 0 b) = s.modSlice (homeSlice (lineOf pa)) fun sl =>
      { sl with heldWr := sl.heldWr ++ [{ line := lineOf pa, op := .write pa slot mask data n 0 b, by_ := w }] } :=
  if_pos (by simpa [or_assoc] using h)

/-- The oldest write of a core leaves the core's queue for its home. -/
theorem exec_writeBackAccept {core : BitVec 8} {pa : Nat} {slot : BitVec 8} {mask : Mask} {data : Line} {n : BitVec 12} {hid : BitVec 8} {b : Bool}
    {r : List HomeOp} (hq : (s.core core.toNat).homeQ = .write pa slot mask data n hid b :: r)
    (hfirst : s.queuedUpdate core.toNat (homeSlice (lineOf pa)) = false) : exec (.writeBackAccept core) s =
      .next ((s.homeWrite (.core core.toNat) (.write pa slot mask data n hid b)).modCore core.toNat fun k => { k with homeQ := r }) := by
  simp [exec, execWriteBackAccept, hq, performHomeOp, hfirst]

/-! ### Flag writes (R216, R221) -/

section
variable {pa : Nat} {slot : BitVec 8} {data : Word} {cached rel : Bool} {r : List HomeOp}

/-- A flag write that its home performs at once. -/
theorem flagStep_performed {c : Nat} {t : State} (hq : (s.core c).homeQ = .flag pa slot data cached rel :: r)
    (h : (s.modCore c fun k => { k with homeQ := r }).performHomeOp c (.flag pa slot data cached rel) = some t) : s.flagStep c = t := by
  simp only [flagStep, hq, h]

/-- A release without room: the core lets go what it must write back first, and its signature is held at the home. -/
theorem flagStep_eager {c : Nat} {s1 : State} (hq : (s.core c).homeQ = .flag pa slot data cached rel :: r)
    (h : (s.modCore c fun k => { k with homeQ := r }).performHomeOp c (.flag pa slot data cached rel) = none)
    (hgo : (s.modCore c fun k => { k with homeQ := r }).writeWaits c (.flag pa slot data cached rel) = false)
    (hflush : (s.modCore c fun k =>
      { k with homeQ := (splitBack (((s.core c).l1.filter fun l => l.dirty != 0).map L1Line.line) r).1 }).flushDirty c = some s1) :
    s.flagStep c = ((s1.acceptFlag c pa slot data cached).holdSig (lineOf pa) (s1.core c).rs).modCore c fun k =>
      { k with homeQ := (splitBack (((s.core c).l1.filter fun l => l.dirty != 0).map L1Line.line) r).2 } := by
  simp only [flagStep, hq, h, hgo, Bool.false_eq_true, if_false, hflush]

end

/-! ### Acquisitions (R222) and fills (R212, R218) -/

/-- Each pending releaser is ordered to drain, or another acquisition has ordered it already. -/
theorem mem_orders_or_sent_newAcq {line : Nat} {value : List Byte} {bad : Bool} {reply : Option ReplyTo} {remote : Option (BitVec 12 × BitVec 8 × Nat)}
    {n : BitVec 12} {pending : List (BitVec 12 × BitVec 8)} {o : BitVec 12 × BitVec 8} :
    o ∈ (s.newAcq line value bad reply remote n pending).orders ∨ o ∈ (s.newAcq line value bad reply remote n pending).sent ↔ o ∈ pending := by
  simp only [newAcq, List.mem_filter, ← and_or_left, Bool.not_eq_true']
  exact and_iff_left (Bool.eq_false_or_eq_true _).symm

theorem drainHome_of_empty {c : Nat} (hback : s.heldBack c = false) (hq : (s.core c).homeQ = []) : s.drainHome c = some s := by
  simp [drainHome, hback, hq, drainAux]

end State

/-- Settles O44: the epoch by what it leaves of links and engines, the writes by `homeWrite_now` and `homeWrite_held`, the flag writes by whether
the home performs them, and the others by what their queue holds. -/
theorem memorySteps : Obligations.MemorySteps := by
  refine ⟨fun s hdue => ?epoch, fun _ _ => rfl, fun s core pa slot mask data n b r => ?write, fun s core pa slot data cached r => ?release,
    fun s core pa slot data cached r => ?flag, fun s slice q r u hq => ?acquire, fun s slice n line o s1 ho hpkg hflush => ?order,
    fun s slice n k line o sig ha => ?answer, fun s slice n a who ha horders hsent hanswers hreply => ?reply, fun s core n f hf => ?fill⟩
  case epoch =>
    have hlinks := s.epochStep_spec.1
    exact ⟨s.epochStep, congrArg _ (if_pos hdue), by rw [State.epoch, hlinks], by rw [hlinks], s.engSigs_epochStep⟩
  case write =>
    intro c l hq hqueued
    rw [State.exec_writeBackAccept hq hqueued]
    exact ⟨fun hop hline hat => by rw [State.homeWrite_now hop hline hat], fun hheld => by rw [State.homeWrite_held hheld]⟩
  case release =>
    intro c l hq s0 a signed hgo
    have hperform : s0.performHomeOp c (.flag pa slot data cached true) = if a.1 then some (a.2.acceptFlag c pa slot data cached) else none := by
      simp only [State.performHomeOp, hgo, Bool.false_eq_true, if_false]
      rfl
    refine ⟨fun hroom => ?_, fun hfull => ?_⟩
    · exact congrArg _ (State.flagStep_performed hq (hperform.trans (if_pos hroom)))
    · intro q s1 hflush u
      exact congrArg _ (State.flagStep_eager hq (hperform.trans (if_neg (ne_true_of_eq_false hfull))) hgo hflush)
  case flag =>
    intro c hq s0 hgo u
    refine congrArg _ (State.flagStep_performed hq ?_)
    simp only [State.performHomeOp]
    rw [hgo]
    rfl
  case acquire =>
    intro l hready
    refine ⟨u.newAcq l (((List.range q.len).map fun k => u.viewByte q.ctx q.hid q.slot (q.pa + k)).map (·.1))
      (((List.range q.len).map fun k => u.viewByte q.ctx q.hid q.slot (q.pa + k)).any (·.2)) q.reply q.remote q.ctx (u.pendingOf l), ?_, rfl, rfl, rfl, ?_, ?_⟩
    · refine congrArg Host.Outcome.next ?_
      cases hreply : q.reply with
      | none =>
        rw [hreply] at hready
        cases hready
        simp only [State.flagReadStep, hq, hreply]
        rfl
      | some who =>
        rw [hreply] at hready
        simp only [State.flagReadStep, hq, hreply]
        dsimp only at hready
        rw [hready]
    · simp [State.newAcq, Function.comp_def]
    · exact fun o => State.mem_orders_or_sent_newAcq
  case order =>
    refine congrArg Host.Outcome.next ?_
    simp only [State.drainStep, ho, hpkg, if_true, hflush]
  case answer =>
    refine congrArg Host.Outcome.next ?_
    simp only [State.answerStep, ha]
  case reply =>
    refine congrArg Host.Outcome.next ?_
    simp only [State.acquireStep, ha, horders, hsent, hanswers, hreply]
    cases nget (s.slice slice.toNat).recs a.line <;> rfl
  case fill =>
    refine ⟨fun hkeep => congrArg Host.Outcome.next ?_, fun hkeep hl1 hq hback hbanks => congrArg Host.Outcome.next ?_⟩
    · simp only [State.fillStep, hf, hkeep, Bool.not_false, Bool.true_or, if_true]
    · have hdrain := State.drainHome_of_empty hback hq
      have hretag : s.retag core.toNat f.ctx f.hid f.line = s := by simp only [State.retag, hl1, List.find?_nil]
      have hroom : s.l1Room core.toNat f.line = s := by
        simp only [State.l1Room, hl1]
        exact if_pos (by simpa using hbanks)
      have hgo : (!f.keep || (s.core core.toNat).banks 2 == 0) = false := by simp [hkeep, hbanks.ne']
      simp [State.fillStep, hf, hgo, hdrain, hretag, hl1, hroom]

end Sys2Proof.Machine

/-! SUPPORT. The steps between packages (O50). -/

namespace Sys2Proof.Machine

namespace State

variable {s : State}

/-! ### Remote accesses (R210, R238, R259) -/

section
variable {r : RemoteReq} {rest : List RemoteReq}

/-- The oldest remote access is performed where it can be. -/
theorem remoteStep_first {s1 : State} (hin : s.links.inReqs = r :: rest) (h : s.performRemote r = some s1) :
    s.remoteStep = { s1 with links := { s1.links with inReqs := rest } } := by
  simp [remoteStep, hin, takeRemote, h]

/-- One that must wait lets the next by, unless both are of one core for one home. -/
theorem remoteStep_second {q : RemoteReq} {rest : List RemoteReq} {s1 : State} (hin : s.links.inReqs = r :: q :: rest) (h : s.performRemote r = none)
    (hbehind : behind q r = false) (h' : s.performRemote q = some s1) :
    s.remoteStep = { s1 with links := { s1.links with inReqs := r :: rest } } := by
  simp [remoteStep, hin, takeRemote, h, hbehind, h']

theorem remoteStep_waits (hin : s.links.inReqs = [r]) (h : s.performRemote r = none) : s.remoteStep = s := by
  simp [remoteStep, hin, takeRemote, h]

theorem performRemote_refused (hhere : accessesHere r = true) (hsec : s.secBreach r.sec r.pa r.key = true) :
    s.performRemote r = some (s.deny.sendAnswer r 24 0 0) :=
  if_pos (by rw [hhere, hsec]; rfl)

theorem performRemote_read (hsec : s.secBreach r.sec r.pa r.key = false) (hwhat : r.what = 0)
    (hheld : s.heldAt (.far r.srcPkg r.srcCore) (homeSlice (lineOf r.pa)) = false) : s.performRemote r =
    some ((s.l2Enter [] r.key (lineOf r.pa)).sendAnswer r (if (s.line (lineOf r.pa)).poison then 11 else 5) r.len
      (BitVec.ofNat 1024 (natOfBytes (s.homeBytes r.key r.pa r.len)))) := by
  simp [performRemote, hsec, hwhat, hheld]

theorem performRemote_write (hsec : s.secBreach r.sec r.pa r.key = false) (hwhat : r.what = 1 ∨ r.what = 4) : s.performRemote r = s.farReach r := by
  rcases hwhat with hwhat | hwhat <;> simp [performRemote, hsec, hwhat]

theorem performRemote_update (hsec : s.secBreach r.sec r.pa r.key = false) (hwhat : r.what = 2 ∨ r.what = 3 ∨ r.what = 13)
    (hheld : s.heldAt (.far r.srcPkg r.srcCore) (homeSlice (lineOf r.pa)) = false) : s.performRemote r =
    some (s.modSlice (homeSlice (lineOf r.pa)) fun sl => { sl with inq := sl.inq ++ [remoteEntry r] }) := by
  rcases hwhat with hwhat | hwhat | hwhat <;> simp [performRemote, hsec, hwhat, hheld]

theorem farWrite_bytes (hwhat : r.what = 1 ∨ r.what = 4) :
    s.farWrite r = (s.acceptBytes r.key r.pa (bytesOfNat r.len r.data.toNat)).sendAnswer r 6 0 0 := by
  rcases hwhat with hwhat | hwhat <;> simp [farWrite, hwhat, ackTo]

theorem farReach_now (hfirst : s.queuedFar r.srcPkg r.srcCore.toNat (homeSlice (lineOf r.pa)) = false) (hop : s.opInFlight (lineOf r.pa) = false)
    (hline : s.heldOn (lineOf r.pa) = false) (hat : s.heldAt (.far r.srcPkg r.srcCore) (homeSlice (lineOf r.pa)) = false) :
    s.farReach r = some (s.farWrite r) := by
  simp [farReach, hfirst, hop, hline, hat]

theorem farReach_held (hfirst : s.queuedFar r.srcPkg r.srcCore.toNat (homeSlice (lineOf r.pa)) = false)
    (h : s.opInFlight (lineOf r.pa) = true ∨ s.heldOn (lineOf r.pa) = true ∨ s.heldAt (.far r.srcPkg r.srcCore) (homeSlice (lineOf r.pa)) = true) :
    s.farReach r = some (s.modSlice (homeSlice (lineOf r.pa)) fun sl => { sl with heldWr := sl.heldWr ++
      [{ line := lineOf r.pa, op := .write r.pa 0 0 0 0 0 false, by_ := .far r.srcPkg r.srcCore, far := some r }] }) :=
  (if_neg (ne_true_of_eq_false hfirst)).trans (if_pos (by simpa [or_assoc] using h))

end

/-! ### Flits (R231, R232) -/

section
variable {q : Nat} {bytes : List Byte} {f : Flit} (hf : Flit.ofBytes bytes = f) (hboot : s.booted = true) (hup : (s.port q).state = .up)
include hf hboot hup

theorem flitStep_broken (hbad : f.good = false) : s.flitStep q bytes = s.sendNak q := by
  simp [flitStep, hf, hboot, hup, hbad]

variable (hgood : f.good = true)
include hgood

/-- A data flit of the number expected is acknowledged, and the packets it completes are delivered. -/
theorem flitStep_next (htyp : f.typ = 0) (hseq : f.seq = (s.port q).recvSeq) : s.flitStep q bytes =
    takePackets q ((s.port q).body ++ f.body).length
      ((s.setPort q { s.port q with recvSeq := (s.port q).recvSeq + 1, nak := false, body := (s.port q).body ++ f.body }).emit q
        (flitBytes f.seq 1 (openBody (Config.ackBody f.seq)))) := by
  simp [flitStep, hf, hboot, hup, hgood, htyp, hseq]

/-- One beyond that number tells of the gap, once. -/
theorem flitStep_gap (htyp : f.typ = 0) (hbeyond : 1 ≤ (f.seq - (s.port q).recvSeq).toNat) (hnear : (f.seq - (s.port q).recvSeq).toNat < 2048) :
    s.flitStep q bytes = if (s.port q).nak then s else s.sendNak q := by
  have hseq : f.seq ≠ (s.port q).recvSeq := fun h => by simp [h] at hbeyond
  cases hnak : (s.port q).nak <;> simp [flitStep, hf, hboot, hup, hgood, htyp, hseq, hnak, hnear, Config.replayFlits, -BitVec.toNat_sub]

theorem flitStep_duplicate (htyp : f.typ = 0) (hpast : 2048 ≤ (f.seq - (s.port q).recvSeq).toNat) : s.flitStep q bytes = s := by
  have hseq : f.seq ≠ (s.port q).recvSeq := fun h => by simp [h] at hpast
  simp [flitStep, hf, hboot, hup, hgood, htyp, hseq, not_lt.2 hpast, Config.replayFlits, -BitVec.toNat_sub]

theorem flitStep_ack (htyp : f.typ = 1) : s.flitStep q bytes = s.ackFlit q f.seq := by
  simp [flitStep, hf, hboot, hup, hgood, htyp]

theorem flitStep_nak (htyp : f.typ = 2) : s.flitStep q bytes = s.nakFlit q f.seq := by
  simp [flitStep, hf, hboot, hup, hgood, htyp]

theorem flitStep_time (htyp : f.typ = 3) : s.flitStep q bytes = s.timeStep (some q) (timeOf f.body) := by
  simp [flitStep, hf, hboot, hup, hgood, htyp]

end

/-- One more at a key of a table of counts. -/
def countAt (m : NMap Nat) (k : Nat) : NMap Nat := nput m k ((nget m k).getD 0 + 1)

theorem nget_countAt_pos {m : NMap Nat} {k : Nat} (i : Nat) (h : ∃ n, nget m k = some (n + 1)) : ∃ n, nget (countAt m i) k = some (n + 1) := by
  by_cases hi : k = i
  · subst hi
    exact ⟨_, nget_nput_same _ _ _⟩
  · rwa [countAt, nget_nput_other _ _ hi]

/-- Counting at each of a list of keys leaves each of them counted. -/
theorem nget_foldl_countAt {l : List Nat} {k : Nat} (hk : k ∈ l) (m : NMap Nat) : ∃ n, nget (l.foldl countAt m) k = some (n + 1) := by
  induction l generalizing m with
  | nil => cases hk
  | cons i l ih =>
    rcases List.mem_cons.1 hk with rfl | hk
    · exact foldl_keeps (P := fun m => ∃ n, nget m k = some (n + 1)) (fun _ => nget_countAt_pos) l _ ⟨_, nget_nput_same _ _ _⟩
    · exact ih hk _

/-- How often a port's flits have been sent again, once those from a number on are. -/
def resent (x : Port) (seq : BitVec 12) : NMap Nat :=
  ((List.range (x.sent - seqAhead x seq)).map fun i => (seq + BitVec.ofNat 12 i).toNat).foldl countAt x.resends

theorem nget_resent {x : Port} {seq : BitVec 12} {i : Nat} (hi : i < x.sent - seqAhead x seq) :
    ∃ n, nget (resent x seq) (seq + BitVec.ofNat 12 i).toNat = some (n + 1) :=
  nget_foldl_countAt (List.mem_map.2 ⟨i, List.mem_range.2 hi, rfl⟩) _

/-- A negative acknowledgement of a flit that the port has sent: what is not acknowledged from it on goes out again, each counted. -/
theorem nakFlit_sent {q : Nat} {seq : BitVec 12} (hup : (s.port q).state = .up) (hsent : seqAhead (s.port q) seq < (s.port q).sent) :
    s.nakFlit q seq = ((s.setPort q { s.port q with resends := resent (s.port q) seq }).emitRun q
      (seqAhead (s.port q) seq) ((s.port q).sent - seqAhead (s.port q) seq)).countErrors 4 ((s.port q).sent - seqAhead (s.port q) seq) :=
  if_pos (Bool.and_eq_true_iff.2 ⟨beq_iff_eq.2 hup, decide_eq_true hsent⟩)

/-! ### Retraining (R232, R235) -/

section
variable {q : Nat} (hstate : (s.port q).state = .retraining)
include hstate

theorem retrainEnd_up : s.retrainEnd q true =
    (((s.setPort q { s.port q with state := .up, resends := [], retrains := 0 }).emitRun q 0 (s.port q).sent).countErrors 4 (s.port q).sent).pump q := by
  simp [retrainEnd, hstate]

theorem retrainEnd_again (hfew : (s.port q).retrains < 2) :
    s.retrainEnd q false = s.setPort q { s.port q with retrains := (s.port q).retrains + 1 } := by
  simp [retrainEnd, hstate, hfew]

/-- After the third failure the port is down, and what the far side has not taken of what it held goes elsewhere. -/
theorem retrainEnd_down (hmany : 2 ≤ (s.port q).retrains) : s.retrainEnd q false = (((s.setPort q { s.port q with
    state := .down, retrains := 3, out := [], skip := 0, sent := 0, resends := [], body := [], nak := false,
    sendSeq := (s.port q).sendSeq + BitVec.ofNat 12 (s.port q).sent }).bump.linkEvent 0 q).resendOut q
      (dropSent ((s.port q).skip + 246 * s.farTook q) (s.port q).out).2) :=
  (if_neg (by simp [hstate])).trans ((if_neg Bool.false_ne_true).trans (if_neg (Nat.not_lt.2 (Nat.succ_le_succ hmany))))

end

theorem farTook_le (s : State) (q : Nat) : s.farTook q ≤ (s.port q).sent := Nat.lt_succ_iff.1 (Nat.mod_lt _ (Nat.succ_pos _))

/-! ### Domain time (R239, R240) -/

theorem emitAll_eq (qs : List Nat) (flit : State → List Byte) (hflit : ∀ (s : State) q bs, flit (s.emit q bs) = flit s) (s : State) :
    qs.foldl (fun s q => s.emit q (flit s)) s = { s with links := { s.links with wire := s.links.wire ++ qs.map fun q => (q, flit s) } } := by
  induction qs generalizing s with
  | nil => simp
  | cons q qs ih =>
    rw [List.foldl_cons, ih, hflit]
    simp [emit]

/-- The ports that a package's own time goes out on. -/
def timePorts (s : State) (from_ : Option Nat) : List Nat :=
  (List.range 64).filter fun q => (s.port q).state == .up && (s.links.routes.any fun p => p.2.valid && p.2.ports.getLsbD q) && from_ != some q

theorem sendTime_eq (s : State) (from_ : Option Nat) : s.sendTime from_ = { s with links := { s.links with
    lastSent := s.cycle
    timeOut := s.links.timeOut ++ (s.timePorts from_).map fun q => (q, s.links.dtime)
    wire := s.links.wire ++ (s.timePorts from_).map fun q => (q, flitBytes 0 3 (openBody (Config.timeBody s.links.dtime))) } } := by
  unfold sendTime
  dsimp only
  rw [emitAll_eq _ (fun s => flitBytes 0 3 (openBody (Config.timeBody s.links.dtime))) fun _ _ _ => rfl]
  rfl

theorem mem_timePorts {q : Nat} : q ∈ s.timePorts none ↔
    q < 64 ∧ (s.port q).state = .up ∧ ∃ p ∈ s.links.routes, p.2.valid = true ∧ p.2.ports.getLsbD q = true := by
  simp [timePorts]

/-- The state in which a package that took a time flit passes its own time on. -/
def timeTakenAt (s : State) (t : BitVec 64) : State :=
  let s := State.bump { s with links := { s.links with timeTaken := some s.cycle } }
  let l := s.links
  if l.dtime.toNat < t.toNat then { s with links := { l with dtime := t, hold := 0, lastFlit := s.cycle, timeLost := false } }
  else { s with links := { l with hold := l.dtime.toNat - t.toNat - 64, lastFlit := s.cycle, timeLost := false } }

theorem timeStep_first (hsrc : s.links.src = false) (hfirst : s.sameInterval = false) (t : BitVec 64) :
    s.timeStep none t = (s.timeTakenAt t).sendTime none := by
  have hway : t + BitVec.ofNat 64 0 = t := BitVec.add_zero t
  exact (if_neg (ne_true_of_eq_false hsrc)).trans ((if_neg (ne_true_of_eq_false hfirst)).trans
    (congrArg (fun t => (s.timeTakenAt t).sendTime none) hway))

theorem timeTakenAt_spec (s : State) (t : BitVec 64) : (s.timeTakenAt t).links.lastFlit = s.cycle ∧ (s.timeTakenAt t).links.timeLost = false ∧
    (s.timeTakenAt t).links.timeTaken = some s.cycle ∧ (s.timeTakenAt t).cores = s.cores ∧ (s.timeTakenAt t).homes = s.homes := by
  unfold timeTakenAt
  dsimp only
  split <;> exact ⟨rfl, rfl, rfl, rfl, rfl⟩

theorem timeTakenAt_ahead {t : BitVec 64} (h : s.links.dtime.toNat < t.toNat) : (s.timeTakenAt t).links =
    { s.links with timeTaken := some s.cycle, dtime := t, hold := 0, lastFlit := s.cycle, timeLost := false } :=
  congrArg State.links (if_pos h)

theorem timeTakenAt_behind {t : BitVec 64} (h : t.toNat ≤ s.links.dtime.toNat) : (s.timeTakenAt t).links =
    { s.links with timeTaken := some s.cycle, hold := s.links.dtime.toNat - t.toNat - 64, lastFlit := s.cycle, timeLost := false } :=
  congrArg State.links (if_neg (not_lt.2 h))

/-! ### Ethernet (R242, R422) -/

section
variable {port peer num : Nat} {addr : BitVec 64} {bytes : List Byte}

/-- An acknowledgement ends the first piece that it names, and the pieces to that peer before it go out again. -/
theorem ethernetStep_ack {p : Piece} {before after : List Piece} (hboot : s.booted = true) (heth : s.links.eth = before ++ p :: after)
    (hbefore : ∀ x ∈ before, ¬(x.peer = peer ∧ x.num = num)) (hpeer : p.peer = peer) (hnum : p.num = num) :
    s.ethernetStep port peer num true addr [] = { s with links := { s.links with
      eth := before ++ after, ethOut := s.links.ethOut ++ before.filter fun x => x.peer == peer } } := by
  have hnot : p ∉ before := fun hp => hbefore p hp ⟨hpeer, hnum⟩
  have hfind : s.links.eth.find? (fun x => x.peer == peer && x.num == num) = some p :=
    List.find?_eq_some_iff_append.2 ⟨by simp [hpeer, hnum], before, after, heth, fun x hx => by simpa [imp_iff_not_or] using hbefore x hx⟩
  have hlate : s.links.eth.takeWhile (fun x => x != p) = before := by
    rw [heth, List.takeWhile_append_of_pos fun x hx => bne_iff_ne.2 (ne_of_mem_of_not_mem hx hnot)]
    simp
  have herase : s.links.eth.erase p = before ++ after := by
    rw [heth, List.erase_append_right _ hnot, List.erase_cons_head]
  simp [ethernetStep, hboot, hfind, hlate, herase]

/-- Whether a packet's bytes may be written under its port's world. -/
theorem ethernetStep_data (hboot : s.booted = true) (hbytes : bytes ≠ []) : s.ethernetStep port peer num true addr bytes =
    if (List.range bytes.length).any fun i => s.regionWorld (addr.toNat + i) && !s.sec.ethWorld.getLsbD port then s
    else
      let u := s.acceptBytes (s.regionKey addr.toNat) addr.toNat bytes
      { u with links := { u.links with ethOut := u.links.ethOut ++ [{ engine := none, peer, num, port, addr, bytes := [] }] } } := by
  simp [ethernetStep, hboot, hbytes]

end

end State

/-- Settles O50: the remote accesses by `remoteStep_first` and what `performRemote` answers, the flits by their type and number, and the other
steps by their condition. -/
theorem linkSteps : Obligations.LinkSteps := by
  refine ⟨fun s r rest hin => ?access, fun s port bytes => ?flit, fun s port seq => ?nak, fun s port => ?retrain, fun s port => ?retrained,
    fun s p => ⟨?lost, ?returned⟩, fun s hsrc hboot hdue => ?send, fun s t => ?time, fun s hsrc hboot hlost hdue => ?silent,
    fun s port peer num addr bytes => ?packet⟩
  case access =>
    intro took
    refine ⟨fun s1 h => congrArg _ (State.remoteStep_first hin h), ?_, ?_, ?_⟩
    · rintro q rest' s1 h rfl hbehind h'
      exact congrArg _ (State.remoteStep_second hin h hbehind h')
    · exact fun hhere hsec => congrArg _ (State.remoteStep_first hin (State.performRemote_refused hhere hsec))
    · intro hsec i w
      refine ⟨fun hwhat hheld => congrArg _ (State.remoteStep_first hin (State.performRemote_read hsec hwhat hheld)), fun hwhat => ?_,
        fun hwhat hheld => congrArg _ (State.remoteStep_first hin (State.performRemote_update hsec hwhat hheld))⟩
      have hreach : s.performRemote r = s.farReach r := State.performRemote_write hsec hwhat
      refine ⟨?_, fun hfirst => ⟨fun hop hline hat => ?_, fun hheld => ?_⟩⟩
      · rintro hqueued rfl
        exact congrArg _ (State.remoteStep_waits hin (hreach.trans (if_pos hqueued)))
      · rw [State.farReach_now hfirst hop hline hat, State.farWrite_bytes hwhat] at hreach
        exact congrArg _ (State.remoteStep_first hin hreach)
      · exact congrArg _ (State.remoteStep_first hin (hreach.trans (State.farReach_held hfirst hheld)))
  case flit =>
    intro q x f nak hboot hup
    refine ⟨fun hbad => ?_, fun hgood htyp hbeyond hnear => ?_, fun hgood htyp hnext => ?_, fun hgood htyp hpast => ?_, fun hgood htyp => ?_,
      fun hgood htyp => ?_, fun hgood htyp => ?_⟩
    all_goals refine congrArg Host.Outcome.next ?_
    · exact State.flitStep_broken rfl hboot hup hbad
    · exact State.flitStep_gap rfl hboot hup hgood htyp hbeyond hnear
    · exact State.flitStep_next rfl hboot hup hgood htyp hnext
    · exact State.flitStep_duplicate rfl hboot hup hgood htyp hpast
    · exact State.flitStep_ack rfl hboot hup hgood htyp
    · exact State.flitStep_nak rfl hboot hup hgood htyp
    · exact State.flitStep_time rfl hboot hup hgood htyp
  case nak =>
    intro q x k hboot hup hk
    exact ⟨State.resent x seq, congrArg Host.Outcome.next ((if_pos hboot).trans (State.nakFlit_sent hup hk)),
      fun i hi _ => State.nget_resent hi⟩
  case retrain =>
    rintro x hup ⟨p, hp, hmany⟩
    exact congrArg Host.Outcome.next (if_pos (Bool.and_eq_true_iff.2 ⟨beq_iff_eq.2 hup, List.any_eq_true.2 ⟨p, hp, decide_eq_true hmany⟩⟩))
  case retrained =>
    intro q x hstate
    exact ⟨congrArg _ (State.retrainEnd_up hstate), fun hfew => congrArg _ (State.retrainEnd_again hstate hfew),
      fun hmany => ⟨s.farTook q, s.farTook_le q, congrArg _ (State.retrainEnd_down hstate hmany)⟩⟩
  case lost =>
    intro hgone s1
    refine congrArg Host.Outcome.next (if_neg ?_)
    rw [Bool.and_eq_true, Option.isSome_iff_ne_none, List.isEmpty_iff]
    exact fun h => hgone.elim h.1 fun hgone => hgone h.2
  case returned =>
    intro hroute s1 s2
    exact congrArg Host.Outcome.next (if_neg (by rwa [Option.isNone_iff_eq_none]))
  case send =>
    refine ⟨s.sendTime none, (s.timePorts none).map fun q => (q, s.links.dtime), congrArg Host.Outcome.next (if_pos ?_), ?_⟩
    · simp [hsrc, hboot, Config.slice64k, hdue]
    · rw [State.sendTime_eq]
      refine ⟨rfl, rfl, rfl, by simp [Function.comp_def], fun q => ?_⟩
      rw [← State.mem_timePorts]
      simp
  case time =>
    refine ⟨fun hsrc => ?_, fun hboot hsrc hsame => ?_, fun hboot hsrc hfirst => ⟨s.timeTakenAt t, ?_, ?_⟩⟩
    · refine congrArg Host.Outcome.next ?_
      rw [State.timeStep, if_pos hsrc, ite_self]
    · refine congrArg Host.Outcome.next ((if_pos hboot).trans ?_)
      rw [State.timeStep, if_neg (ne_true_of_eq_false hsrc), if_pos hsame]
    · exact congrArg Host.Outcome.next ((if_pos hboot).trans (State.timeStep_first hsrc hfirst t))
    · obtain ⟨hflit, hlost, htaken, hcores, hhomes⟩ := s.timeTakenAt_spec t
      refine ⟨hflit, hlost, htaken, hcores, hhomes, fun hahead => ?_, fun hbehind => ?_⟩
      · rw [State.timeTakenAt_ahead hahead]
        exact ⟨rfl, rfl⟩
      · rw [State.timeTakenAt_behind hbehind]
        exact ⟨rfl, rfl⟩
  case silent =>
    exact congrArg Host.Outcome.next (if_pos (by simp [hsrc, hboot, hlost, Config.slice64k, hdue]))
  case packet =>
    refine ⟨rfl, fun hboot p before after heth hbefore hpeer hnum => congrArg _ (State.ethernetStep_ack hboot heth hbefore hpeer hnum),
      fun hboot hbytes => ?_⟩
    have hdata := State.ethernetStep_data (port := port.toNat) (peer := peer) (num := num) (addr := addr) hboot hbytes
    refine ⟨fun hworld => congrArg _ (hdata.trans (if_neg ?_)), fun ⟨i, hi, hsecure⟩ hport => congrArg _ (hdata.trans (if_pos ?_))⟩
    · simpa [or_iff_not_imp_left] using hworld
    · exact List.any_eq_true.2 ⟨i, List.mem_range.2 hi, by rw [hsecure, hport]; rfl⟩

end Sys2Proof.Machine

/-! SUPPORT. Ring instructions at execution (O26). -/

namespace Sys2Proof.Machine

/-! ### Chord effects of every lane (R266) -/

/-- An instruction whose lanes do nothing but buffer a chord effect. -/
theorem CarriesOut.of_chordEff {i : Instr} {sh : Shape} {f : Flds} {len : Nat} {e : Vals → Eff} {w : Word}
    (he : ∀ s, exec i s = .next (s.perform sh f len false fun s ch _ _ _ v => some (chordEff s ch (e v) w))) :
    CarriesOut i sh f len false fun ch s _ _ v => ChordEffect s ch (e v) w :=
  carriesOut_of_body he fun _ _ _ _ _ _ _ h => congrArg some (chordEff_eq h)

/-! ### RBIND (R268) -/

section
variable {s s1 : State} {ch : Chord} {ring : Nat} {w : Word} {res : LaneRes}

/-- With a descriptor that keeps R261 and R262, RBIND is a chord effect. -/
theorem rbindWord_of_desc {d : RingDesc} (hd : RingDesc.ofWord w = some d)
    (h : ChordEffect s ch (.rbind ring d) (BitVec.ofNat 64 (2 * 2 ^ 60 +
      (((s.core s.flow.focusCore).plans.find? fun p => p.actKey == ch.key && p.num == ring).map (·.first)).getD 0 * 131072 + d.base)) res s1) :
    rbindWord ring s ch w = (res, s1) := by
  simp only [rbindWord, hd, chordEff_eq h]

/-- With a broken one it traps: by the ring's plan, by whether the ring is bound, and else by the descriptor. -/
theorem rbindWord_of_broken {k : Core} {reason : BitVec 8} (hd : RingDesc.ofWord w = none)
    (hk : (s.afterChordEffs s.flow.focusCore ch (s.consts ch)).core s.flow.focusCore = k)
    (hreason : reason = 0x40 ∧ (∀ p ∈ k.plans, ¬(p.actKey = ch.key ∧ p.num = ring)) ∨
      reason = 0x41 ∧ (∃ p ∈ k.plans, p.actKey = ch.key ∧ p.num = ring) ∧ k.ring? ch.key ring ≠ none ∨
      reason = 0x42 ∧ (∃ p ∈ k.plans, p.actKey = ch.key ∧ p.num = ring) ∧ k.ring? ch.key ring = none) :
    rbindWord ring s ch w = (.trapped (protAt reason ring), s) := by
  have hplan : k.plans.any (fun p => p.actKey == ch.key && p.num == ring) = true ↔ ∃ p ∈ k.plans, p.actKey = ch.key ∧ p.num = ring := by
    simp only [List.any_eq_true, Bool.and_eq_true, beq_iff_eq]
  simp only [rbindWord, hd, hk]
  rcases hreason with ⟨rfl, hnone⟩ | ⟨rfl, hsome, hbound⟩ | ⟨rfl, hsome, hfree⟩
  · rw [if_pos (by simpa using hnone)]
  · rw [if_neg (by simpa using hsome), if_pos (Option.isSome_iff_ne_none.2 hbound)]
  · rw [if_neg (by simpa using hsome), if_neg (by simp [hfree])]

end

/-- Settles O26: the chord effects by `chordEff_eq`, RBIND's descriptor by `rbindWord_of_desc` and `rbindWord_of_broken`, and the others by
whether their ring is bound and their position names an element. -/
theorem ringInstructions : Obligations.RingInstructions := by
  refine ⟨fun f => ?rbind, fun f => ?runb, fun f => ?rget, fun f => ?rput, fun tail f => ?radv, fun free d f => ?rwait, fun f => ?rstat⟩
  case rbind =>
    refine carriesOut_of_body (fun _ => rfl) fun ch s l x v res s1 h => ?_
    obtain ⟨hspec, hplain⟩ := h
    unfold rbindBody
    dsimp only
    by_cases hhid : ∃ p ∈ ch.lanes, p.2.hid ≠ 0
    · obtain ⟨rfl, rfl⟩ := hspec hhid
      rw [if_pos (Chord.anySpeculative_iff.2 hhid)]
    rw [if_neg (mt Chord.anySpeculative_iff.1 hhid), ← access_r]
    obtain ⟨t, hc, rfl⟩ | ⟨pl, s2, hc, h⟩ := Checked.thenDo_cases (hplain (Chord.not_anySpeculative_iff.1 hhid)) <;> rw [hc]
    dsimp only at h ⊢
    generalize s2.seek (laneWho s ch ch.pc x 0) pl = sought at h ⊢
    cases sought with
    | later u => exact congrArg some h.symm
    | fails t =>
      obtain ⟨rfl, rfl⟩ := h
      rfl
    | got gl =>
      obtain ⟨got, bad, s3, hread, hbad, hdesc, hbroken⟩ := h
      dsimp only
      rw [hread]
      cases bad with
      | true =>
        obtain ⟨rfl, rfl⟩ := hbad rfl
        rfl
      | false =>
        refine congrArg some ?_
        cases hd : RingDesc.ofWord (wordOfBytes ((overlay x pl got).map (·.getD 0))) with
        | some d => exact rbindWord_of_desc hd (hdesc rfl d hd)
        | none =>
          obtain ⟨rfl, reason, rfl, hreason⟩ := hbroken rfl hd
          exact rbindWord_of_broken hd rfl hreason
  case runb => exact .of_chordEff fun _ => rfl
  case rget =>
    refine .of_gives (fun _ => rfl) fun s ch l x v => ?_
    unfold rgetBody
    dsimp only
    cases (s.core s.flow.focusCore).boundRing ch.key (immNat f.a) with
    | error t => rfl
    | ok r =>
      dsimp only
      split
      · rfl
      · cases posOf r v.b r.filled with
        | error t => rfl
        | ok p => exact (apply_ite (fun res => some (res, s)) _ _ _).symm
  case rput =>
    refine .of_gives (fun _ => rfl) fun s ch l x v => ?_
    unfold rputBody
    dsimp only
    cases (s.core s.flow.focusCore).boundRing ch.key (immNat f.a) with
    | error t => rfl
    | ok r =>
      dsimp only
      split
      · rfl
      · cases posOf r v.b r.free with
        | error t => rfl
        | ok p => exact (apply_ite (fun res => some (res, s)) _ _ _).symm
  case radv => exact .of_chordEff (e := fun v => .radv tail (immNat f.a) v.b.toNat) fun _ => rfl
  case rwait => exact .of_chordEff (e := fun v => .rwait free (immNat f.a) v.b.toNat d) fun _ => rfl
  case rstat =>
    refine .of_gives (fun _ => rfl) fun s ch l x v => ?_
    unfold rstatBody
    cases (s.core s.flow.focusCore).ring? ch.key (immNat f.a) <;> rfl

end Sys2Proof.Machine

/-! SUPPORT. Matrix instructions that access memory, at execution (O31). -/

namespace Sys2Proof.Machine

section
variable {s s1 : State} {ch : Chord} {res : LaneRes}

/-- A chord effect behind the checks of its bytes, with the places they found (R399). -/
theorem afterCheck_eq {who : Who} {k : AccKind} {parts : List (Word × Nat)} {e : List Place → Eff}
    (h : (checkAll s.flow.focusCore who k parts s).thenDo (fun pl s2 res s1 => ChordEffect s2 ch (e pl) 0 res s1) res s1) :
    afterCheck s ch who k parts e = some (res, s1) := by
  unfold afterCheck
  obtain ⟨t, hc, rfl⟩ | ⟨pl, s2, hc, heff⟩ := Checked.thenDo_cases h <;> rw [hc]
  exact congrArg some (chordEff_eq heff)

/-- A check that comes first: where it fails the lane traps, and the rest follows where it passes. -/
theorem firstCheck_eq {bad : Prop} [Decidable bad] {t : Trap} {rest : Prop} {k : Option (LaneRes × State)}
    (h : if bad then res = .trapped t ∧ s1 = s else rest) (hk : rest → k = some (res, s1)) :
    (if bad then some (.trapped t, s) else k) = some (res, s1) := by
  split_ifs at h ⊢
  · rw [h.1, h.2]
  · exact hk h

end

/-- Settles O31: behind the checks of the chord and of the address, the bytes are checked, and the effect is buffered by `afterCheck_eq`;
MXREST's two reads go on by `readsOn_eq`. -/
theorem matrixMemory : Obligations.MatrixMemory := by
  refine ⟨fun f => ?mxld, fun w f => ?mxst, fun slot f => ?mxsave, fun slot f => ?mxrest⟩
  case mxld =>
    refine carriesOut_of_body (fun _ => rfl) fun ch s l x v res s1 h => firstCheck_eq h fun h => firstCheck_eq h fun h => ?_
    dsimp only at h ⊢
    generalize effBreach _ _ _ _ = breach at h ⊢
    cases breach with
    | some t => rw [h.1, h.2]
    | none => exact afterCheck_eq h
  case mxst =>
    refine carriesOut_of_body (fun _ => rfl) fun ch s l x v res s1 h => firstCheck_eq h fun h => ?_
    dsimp only at h ⊢
    generalize effBreach _ _ _ _ = breach at h ⊢
    cases breach with
    | some t => rw [h.1, h.2]
    | none =>
      have halign : (!w.dkind && v.b.toNat % max 1 (fmtWidth w.dfmt.toNat / 8) != 0) = true ↔
          w.dkind = false ∧ v.b.toNat % max 1 (fmtWidth w.dfmt.toNat / 8) ≠ 0 := by simp
      simp only [halign]
      refine firstCheck_eq h fun h => ?_
      obtain ⟨t, hc, rfl⟩ | ⟨pl, s2, hc, hbias⟩ := Checked.thenDo_cases h <;> rw [hc]
      exact afterCheck_eq hbias
  case mxsave =>
    refine carriesOut_of_body (fun _ => rfl) fun ch s l x v res s1 h => firstCheck_eq h fun h => ?_
    dsimp only at h ⊢
    generalize effBreach _ _ _ _ = breach at h ⊢
    cases breach with
    | some t => rw [h.1, h.2]
    | none =>
      refine firstCheck_eq h fun h => ?_
      obtain ⟨b, hslot, hcheck⟩ := h
      rw [hslot]
      exact afterCheck_eq hcheck
  case mxrest =>
    refine carriesOut_of_body (fun _ => rfl) fun ch s l x v res s1 h => firstCheck_eq h fun h => firstCheck_eq h fun h => ?_
    dsimp only
    obtain ⟨t, hc, rfl⟩ | ⟨pl, s2, hc, hhead⟩ := Checked.thenDo_cases h <;> rw [hc]
    refine readsOn_eq hhead fun hd s3 hbytes => firstCheck_eq hbytes fun hgood => ?_
    obtain ⟨t, hc, rfl⟩ | ⟨pe, s4, hc, hels⟩ := Checked.thenDo_cases hgood <;> rw [hc]
    exact readsOn_eq hels fun el s5 heff => congrArg some (chordEff_eq heff)

end Sys2Proof.Machine

/-! SUPPORT. What tokens and rings leave alone of the matrix engines (O51). -/

namespace Sys2Proof.Machine

namespace State

variable {s t u : State}

/-- No core's matrix engine has changed. -/
def SameMxe (s t : State) : Prop := ∀ c, (t.core c).mxe = (s.core c).mxe

namespace SameMxe

theorem refl (s : State) : s.SameMxe s := fun _ => rfl

theorem trans (h : s.SameMxe t) (h' : t.SameMxe u) : s.SameMxe u := fun c => (h' c).trans (h c)

theorem of_cores (h : t.cores = s.cores) : s.SameMxe t := fun c => by simp only [State.core, h]

theorem of_frame {v : Uses} (h : s.Frame v t) : s.SameMxe t := fun c => (congrArg Core.mxe (h.cores c) :)

/-- A core is changed, but for its matrix engine. -/
theorem modCore (s : State) (c : Nat) {f : Core → Core} (h : (f (s.core c)).mxe = (s.core c).mxe) : s.SameMxe (s.modCore c f) := fun d => by
  by_cases hd : d = c
  · subst hd
    rw [State.core_modCore_same, h]
  · rw [State.core_modCore_other _ _ hd]

theorem ite {p : Prop} [Decidable p] (ht : s.SameMxe t) (hu : s.SameMxe u) : s.SameMxe (if p then t else u) := by
  split
  · exact ht
  · exact hu

theorem foldl {α : Type} {f : State → α → State} (hf : ∀ s x, SameMxe s (f s x)) (l : List α) (s : State) : s.SameMxe (l.foldl f s) :=
  foldl_keeps (P := s.SameMxe) (fun t x ht => ht.trans (hf t x)) l s (refl s)

end SameMxe

/-! ### Agents' writes (R229) -/

theorem putRun_sameMxe (n : BitVec 12) (e : Option Nat) (job : Nat) (s : State) (r : Place × List Byte) : s.SameMxe (putRun n e job s r) := by
  unfold putRun
  split
  · exact .of_frame (acceptBytes_frame (u := {}) s _ _ _ _)
  · exact .modCore s _ rfl
  · exact .of_cores (congrArg State.cores (sendAccess_asksOnly s.newId.2 _ _ _ _).1 :)
  · exact .of_cores rfl
  · exact .refl s

theorem aput_sameMxe (s : State) (n : BitVec 12) (va : Nat) (bytes : List Byte) : s.SameMxe (s.aput n va bytes) :=
  .trans (.of_frame (denyIf_spares (u := {}) (c := 0) s _).toFrame) (.foldl (fun s r => putRun_sameMxe n none 0 s r) _ _)

/-! ### Tokens that are sent (R135, R236, R341) -/

theorem linkEvent_sameMxe (s : State) (sub : BitVec 8) (n : Nat) : s.SameMxe (s.linkEvent sub n) :=
  .of_frame (event_spares (u := {}) (c := 0) s _).toFrame

theorem spillStore_sameMxe (s : State) (tok : Token) : s.SameMxe (s.spillStore tok) :=
  .trans (aput_sameMxe s _ _ _) (.of_cores rfl)

theorem refillSpill_sameMxe (n : BitVec 12) (fuel : Nat) (s : State) : s.SameMxe (refillSpill n fuel s) := by
  induction fuel generalizing s with
  | zero => exact .refl s
  | succ fuel ih =>
    unfold refillSpill
    split
    · exact .refl s
    · split
      · refine SameMxe.trans ?_ (ih _)
        refine SameMxe.trans ?_ (spillStore_sameMxe _ _)
        exact .of_cores rfl
      · exact .refl s

theorem spillPut_sameMxe (s : State) (tok : Token) : s.SameMxe (s.spillPut tok) := by
  unfold spillPut
  extract_lets u x v told
  have hu : s.SameMxe u := refillSpill_sameMxe tok.ctx _ s
  clear_value u
  split
  · exact hu.trans (spillStore_sameMxe u tok)
  · split
    · exact hu.trans (.of_cores rfl)
    · have hv : s.SameMxe v := hu.trans (.of_cores rfl)
      split
      · exact hv
      · exact hv.trans (.of_cores (escalate_leaves v _ _ _).1)

theorem holdToken_sameMxe (s : State) (tok : Token) : s.SameMxe (s.holdToken tok) := by
  unfold holdToken
  split
  · exact .of_cores rfl
  · split
    · exact .of_cores rfl
    · exact .trans (spillPut_sameMxe s tok) (linkEvent_sameMxe _ _ _)

theorem sendPacket_sameMxe (s : State) (d : BitVec 12) (sec : Bool) (a i : Nat) (p : Packet) : s.SameMxe (s.sendPacket d sec a i p).2 :=
  .of_cores (congrArg State.cores (sendPacket_asksOnly s d sec a i p).1 :)

theorem sendToken_sameMxe (s : State) (tok : Token) : s.SameMxe (s.sendToken tok) := by
  unfold sendToken
  dsimp only
  split
  · exact .of_cores rfl
  · split
    · exact holdToken_sameMxe s tok
    · have hsent := sendPacket_sameMxe s tok.dpkg (s.ctx tok.ctx).desc.secure (if tok.skind = 0 then tok.score.toNat else 0xFF)
        tok.dcore.toNat (.token tok)
      split
      · next heq => rwa [heq] at hsent
      · next heq =>
        rw [heq] at hsent
        exact hsent.trans (holdToken_sameMxe _ tok)

theorem engToken_sameMxe (s : State) (n : BitVec 12) (act : BitVec 16) (dblock : BitVec 32) (port : BitVec 4) (tag : BitVec 32) (skind : BitVec 4)
    (payload : Word) (sig : Option Sig) : s.SameMxe (s.engToken n act dblock port tag skind payload sig) := by
  unfold engToken
  split
  · exact .of_cores rfl
  · exact sendToken_sameMxe s _

theorem mxToken_sameMxe (s : State) (key : Nat) (w : CtlWord) (tag count : BitVec 32) (sat error muted : Bool) :
    s.SameMxe (s.mxToken key w tag count sat error muted) := by
  unfold mxToken
  split
  · exact engToken_sameMxe _ _ _ _ _ _ _ _ _
  · exact .refl s

/-! ### Rings (R272) -/

theorem fireWatches_sameMxe (s : State) (c key num : Nat) : s.SameMxe (s.fireWatches c key num) := by
  have hfired (s : State) (g : Ring → Ring) (tok : Token) : s.SameMxe ((s.modCore c fun k => k.modRing key num g).sendToken tok) :=
    .trans (.modCore s c rfl) (sendToken_sameMxe _ tok)
  unfold fireWatches
  split
  · exact .refl s
  · extract_lets u
    have hu : s.SameMxe u := by
      unfold u
      split
      · split
        · exact hfired s _ _
        · exact .refl s
      · exact .refl s
    split
    · split
      · exact hu.trans (hfired u _ _)
      · exact hu
    · exact hu

theorem popRing_sameMxe (s : State) (c key num n : Nat) : s.SameMxe (s.popRing c key num n) :=
  .trans (.modCore s c rfl) (fireWatches_sameMxe _ c key num)

end State

end Sys2Proof.Machine

/-! SUPPORT. The steps of streams, copies and the matrix engine (O51). -/

namespace Sys2Proof.Machine

namespace State

variable {s : State}

/-! ### Streams (R276, R277) -/

section
variable {c n : Nat} {x : Stream} {r : Ring} (hx : (s.core c).streams[n]? = some x)
include hx

theorem streamEndStep_done (hstate : x.state = .running) (hrun : s.streamsRun x.ctx = true) (hdone : s.streamDone c x = true) :
    s.streamEndStep c n = s.endStream c x false false := by
  simp [streamEndStep, hx, hstate, hrun, hdone]

variable (hr : (s.core c).ring? x.actKey x.ring = some r) (hready : streamReady (s.core c) x r = true) (hrun : s.streamsRun x.ctx = true)
include hr hready hrun

/-- A tile that has been written is popped once its writes are accepted. -/
theorem streamStep_accepted (hwrote : x.wrote = true) (hout : s.streamOut c x = false) : s.streamStep c n = s.popTile c x r := by
  simp [streamStep, hx, hr, hready, hrun, hwrote, hout]

variable (hwrote : x.wrote = false)
include hwrote

theorem streamStep_gathered {u : State} (hnext : nextTile s c x r = .ok u) (hin : x.out = false) :
    s.streamStep c n = u.modCore c fun k => k.modStream x.actKey x.handle fun x => { x with tiles := x.tiles + 1 } := by
  simp [streamStep, hx, hr, hready, hrun, hwrote, hnext, hin]

theorem streamStep_scattered {u : State} (hnext : nextTile s c x r = .ok u) (hout : x.out = true) : s.streamStep c n =
    if u.streamOut c (((u.core c).streams[n]?).getD x) then u.modCore c fun k => k.modStream x.actKey x.handle fun x => { x with wrote := true }
    else u.popTile c x r := by
  simp [streamStep, hx, hr, hready, hrun, hwrote, hnext, hout]

theorem streamStep_fault {u : State} {f : Stop} (hnext : nextTile s c x r = .error (.fault f u)) : s.streamStep c n =
    (u.modCore c fun k => k.modStream x.actKey x.handle fun x => { x with state := .paused f }).engFault x.ctx x.act f := by
  simp [streamStep, hx, hr, hready, hrun, hwrote, hnext]

theorem streamStep_later {u : State} (hnext : nextTile s c x r = .error (.later u)) : s.streamStep c n = u := by
  simp [streamStep, hx, hr, hready, hrun, hwrote, hnext]

theorem streamErrorStep_err {t : Trap} {denied : Bool} (hnext : nextTile s c x r = .error (.err t denied)) :
    s.streamErrorStep c n = (s.denyIf denied).failStream c x t := by
  simp [streamErrorStep, hx, hr, hready, hrun, hwrote, hnext]

end

/-! ### Copies (R280) -/

section
variable {e : Nat} {c : Copy}

/-- Nothing goes out again once all of a copy is written and acknowledged. -/
theorem resendPieces_of_done (hout : s.copyOut e c = false) : s.resendPieces e c = s := by
  have hnone : s.links.eth.filter (fun p => p.engine == some (copyOwner e c.seq)) = [] := by
    simp only [copyOut, Bool.or_eq_false_iff, List.any_eq_false] at hout
    exact List.filter_eq_nil_iff.2 hout.2
  rw [resendPieces, hnone, List.append_nil]

theorem finishCopy_of_done {st : Nat} (hout : s.copyOut e c = false) : s.finishCopy e c st = s.endCopy e c st :=
  if_neg (ne_true_of_eq_false hout)

theorem copyStartStep_head {r : List Copy} (hidle : (s.copyEngine e).running = none) (hqueue : (s.copyEngine e).queue = c :: r) :
    s.copyStartStep e = s.setCopyEngine e { s.copyEngine e with running := some c, queue := r } := by
  simp only [copyStartStep, hidle, hqueue]

variable (hrunning : (s.copyEngine e).running = some c)
include hrunning

theorem copyEndStep_fin {st : Nat} (hfin : c.fin = some st) (hout : s.copyOut e c = false) : s.copyEndStep e = s.endCopy e c st := by
  simp only [copyEndStep, hrunning, hfin]
  rw [resendPieces_of_done hout, finishCopy_of_done hout]

variable (hfin : c.fin = none) (hstop : c.stop = none) {u : State} {n : Nat}
include hfin hstop

theorem copyEndStep_moved (hmove : moveElems e c ((copyTotal c - c.written) / copyStride c) c.written s = (u, n, none))
    (hout : u.copyOut e { c with written := n } = false) : s.copyEndStep e = u.endCopy e { c with written := n } 3 := by
  simp only [copyEndStep, hrunning, hfin, hstop, hmove, Option.isSome_none, Bool.false_eq_true, if_false]
  exact finishCopy_of_done hout

/-- A copy that had written its last element moves none. -/
theorem copyEndStep_written (hall : copyTotal c ≤ c.written) (hout : s.copyOut e c = false) : s.copyEndStep e = s.endCopy e c 3 := by
  have hnone : (copyTotal c - c.written) / copyStride c = 0 := by rw [Nat.sub_eq_zero_of_le hall, Nat.zero_div]
  exact copyEndStep_moved hrunning hfin hstop (by rw [hnone]; rfl) hout

theorem copyEndStep_err {t : Trap} {denied : Bool}
    (hmove : moveElems e c ((copyTotal c - c.written) / copyStride c) c.written s = (u, n, some (.err t denied)))
    (hout : (u.denyIf denied).copyOut e { c with written := n } = false) :
    s.copyEndStep e = (u.denyIf denied).endCopy e { c with written := n } 5 := by
  simp only [copyEndStep, hrunning, hfin, hstop, hmove, Option.isSome_none, Bool.false_eq_true, if_false]
  exact finishCopy_of_done hout

theorem copyEndStep_fault {f : Stop} {v : State}
    (hmove : moveElems e c ((copyTotal c - c.written) / copyStride c) c.written s = (u, n, some (.fault f v))) :
    s.copyEndStep e = (u.setCopyEngine e { u.copyEngine e with running := some { c with written := n, stop := some f } }).engFault c.ctx c.act f := by
  simp only [copyEndStep, hrunning, hfin, hstop, hmove, Option.isSome_none, Bool.false_eq_true, if_false]

theorem copyEndStep_later {v : State}
    (hmove : moveElems e c ((copyTotal c - c.written) / copyStride c) c.written s = (u, n, some (.later v))) :
    s.copyEndStep e = u.setCopyEngine e { u.copyEngine e with running := some { c with written := n } } := by
  simp only [copyEndStep, hrunning, hfin, hstop, hmove, Option.isSome_none, Bool.false_eq_true, if_false]

end

end State

/-! ### Candidates (R313, R314, R316) -/

/-- The choice in rotation: the first that may be chosen, from the one after the last chosen on. -/
theorem find?_rotation {p : Nat → Bool} {n last i : Nat}
    (hfirst : ∃ d, d < n ∧ i = (last + 1 + d) % n ∧ ∀ e, e < d → p ((last + 1 + e) % n) = false)
    (hp : p i = true) : ((List.range n).map fun d => (last + 1 + d) % n).find? p = some i := by
  obtain ⟨d, hd, rfl, hbefore⟩ := hfirst
  have hfind : (List.range n).find? (p ∘ fun d => (last + 1 + d) % n) = some d :=
    List.find?_range_eq_some.2 ⟨hp, List.mem_range.2 hd, fun e he => by simp [hbefore e he]⟩
  rw [List.find?_map, hfind]
  rfl

theorem Core.stageRead_ring {k : Core} {i n : Nat} {o : MxOp} {r : Ring} (ho : k.mxe.cand i = some o) (hr : k.ring? o.key n = some r) :
    k.stageRead i n =
      let slot := r.slotAt r.head (if k.mxe.fires i then 1 else 0)
      { cand := i, ring := n, info := r.slotMeta slot, bytes := mgets k.sram (r.slotAddr slot) r.desc.slotBytes,
        bad := k.badIn (r.slotAddr slot) r.desc.slotBytes } := by
  simp only [stageRead, ho, Option.bind_some, hr]

theorem Core.stageRead_names (k : Core) (i n : Nat) : (k.stageRead i n).cand = i ∧ (k.stageRead i n).ring = n := by
  unfold stageRead
  split <;> exact ⟨rfl, rfl⟩

@[simp] theorem Mxe.acc_setAcc_same (m : Mxe) (i : Nat) (a : Acc) : (m.setAcc i a).acc i = a := by
  simp [Mxe.acc, Mxe.setAcc]

theorem Mxe.acc_of_accs {m m' : Mxe} (h : m.accs = m'.accs) (i : Nat) : m.acc i = m'.acc i := by
  rw [Mxe.acc, h, Mxe.acc]

theorem Mxe.acc_setAcc_other (m : Mxe) {i j : Nat} (a : Acc) (h : j ≠ i) : (m.setAcc i a).acc j = m.acc j := by
  simp [Mxe.acc, Mxe.setAcc, nget_nput_other _ _ h]

/-- The candidate of a binding slot is its binding. -/
theorem Mxe.cand_of_slot {m : Mxe} {i : Nat} {b : Binding} (hi : i < 4) (hb : nget m.slots i = some b) :
    m.cand i = some { cand := i, key := b.actKey, a := b.a, b := b.b, acc := b.acc, w := b.w, tag := b.tag } := by
  simp [Mxe.cand, hi, hb]

/-- The fifth candidate is the step at the head of the queue. -/
theorem Mxe.cand_of_queue {m : Mxe} {q : FireStep} {l : List FireStep} (hq : m.queue = q :: l) :
    m.cand 4 = some { cand := 4, key := q.actKey, a := q.a, b := q.b, acc := q.acc, w := q.w, tag := q.tag } := by
  simp [Mxe.cand, hq]

theorem nget_eq_none_of_keys {α : Type} {m : NMap α} {k : Nat} (h : ∀ p ∈ m, p.1 < k) : nget m k = none := by
  induction m with
  | nil => rfl
  | cons p m ih =>
    obtain ⟨j, v⟩ := p
    have hj : j < k := h _ List.mem_cons_self
    rw [nget, if_neg hj.ne, ih fun p hp => h p (List.mem_cons_of_mem _ hp)]

/-! ### Firings (R316, R317, R319) -/

/-- A core whose firing that started first has ended, with its accumulator. -/
def Core.endFiring (k : Core) (acc : Nat) (a : Acc) (r : List Firing) : Core :=
  { k with mxe := { k.mxe.setAcc acc a with firing := r } }

namespace State

variable {s : State}

section
variable {c i : Nat} {o : MxOp}
  (hfirst : ∃ d, d < 5 ∧ i = ((s.core c).mxe.last + 1 + d) % 5 ∧ ∀ e, e < d → s.mxFirable c (((s.core c).mxe.last + 1 + e) % 5) = false)
  (hfirable : s.mxFirable c i = true) (hcand : (s.core c).mxe.cand i = some o)
include hfirst hfirable hcand

theorem firingStart_good (hgood : firingBad (s.core c) o = none) : s.firingStart c =
    (s.modCore c fun k => { k with mxe := { k.mxe with last := i } }).modCore c fun k =>
      { k with mxe := { k.mxe with firing := k.mxe.firing ++ [{ cand := i, bufs := k.mxe.staged.filter fun p => p.cand == i }],
                                   staged := k.mxe.staged.filter fun p => p.cand != i } } := by
  simp only [firingStart, find?_rotation hfirst hfirable, hcand, hgood]

theorem firingStart_bad {t : Trap} {seq : BitVec 32} (hbad : firingBad (s.core c) o = some (t, seq)) : s.firingStart c =
    (s.modCore c fun k => { k with mxe := { k.mxe with last := i } }).failFiring c o t seq := by
  simp only [firingStart, find?_rotation hfirst hfirable, hcand, hbad]

end

/-- The end of a retirement: the rings are popped, and a completed tile or step is told of (R295, R317). -/
def retireEnd (u : State) (c i : Nat) (o : MxOp) (rings : List Nat) (done clamp : Bool) : State :=
  let s := rings.foldl (fun s n => s.popRing c o.key n 1) u
  match nget (s.core c).mxe.slots i with
  | some b => if done then s.mxToken o.key o.w o.tag b.otiles b.sat false false else s
  | none => s.mxToken o.key o.w o.tag 1 clamp false false

theorem retireEnd_sameMxe (u : State) (c i : Nat) (o : MxOp) (rings : List Nat) (done clamp : Bool) :
    u.SameMxe (u.retireEnd c i o rings done clamp) := by
  refine SameMxe.trans (.foldl (fun s n => popRing_sameMxe s c o.key n 1) rings u) ?_
  unfold retireEnd
  dsimp only
  split
  · split
    · exact mxToken_sameMxe _ _ _ _ _ _ _ _
    · exact .refl _
  · exact mxToken_sameMxe _ _ _ _ _ _ _ _

section
variable {c : Nat} {f : Firing} {r : List Firing} {o : MxOp} {p : Acc × Bool} (hfiring : (s.core c).mxe.firing = f :: r)
  (hstep : matrixStep (s.core c) o f.bufs = p)
include hfiring hstep

/-- The retirement of a binding's firing: the accumulator and the binding change together. -/
theorem firingRetire_binding {b : Binding} (hslot : f.cand < 4) (hb : nget (s.core c).mxe.slots f.cand = some b)
    (hcand : (s.core c).mxe.cand f.cand = some o) : s.firingRetire c =
      (s.modCore c fun k => { k with mxe :=
        { k.mxe.setAcc o.acc { p.1 with full := p.1.full || (decide (kCount b.k0 ≤ p.1.kt) && !kDrains b.k0) } with
          firing := r
          slots := nput k.mxe.slots f.cand
            { b with sat := b.sat || p.2, otiles := if kCount b.k0 ≤ p.1.kt then b.otiles + 1 else b.otiles } } }).retireEnd
        c f.cand o (o.rings (s.core c)) (decide (kCount b.k0 ≤ p.1.kt)) p.2 := by
  obtain ⟨a, clamp⟩ := p
  simp only [firingRetire, hfiring, hcand, hstep, State.modCore, Mxe.setAcc, hb, if_pos hslot, decide_eq_true_eq, retireEnd] <;> rfl

/-- The retirement of a step of MXFIRE: it leaves the queue with its firing (assumption log 48). -/
theorem firingRetire_step (hcand4 : f.cand = 4) (hnone : nget (s.core c).mxe.slots 4 = none) (hcand : (s.core c).mxe.cand 4 = some o) :
    s.firingRetire c = ((s.modCore c fun k => k.endFiring o.acc p.1 r).modCore c Core.dropStep).retireEnd
      c 4 o (o.rings (s.core c)) false p.2 := by
  obtain ⟨a, clamp⟩ := p
  simp only [firingRetire, hfiring, hcand4, hcand, hstep, State.modCore, Mxe.setAcc, hnone, if_neg (lt_irrefl 4), Bool.and_false, Bool.or_false]
  rfl

end

end State

theorem Core.setCons_mxe (k : Core) (key : Nat) (l : List Nat) (x : Side) : (k.setCons key l x).mxe = k.mxe :=
  foldl_keeps (P := fun k' : Core => k'.mxe = k.mxe) (f := fun k n => k.modRing key n fun r => { r with cons := x }) (fun _ _ h => h) l k rfl

/-- What the end of a step of MXFIRE makes of the matrix engine. -/
theorem Core.dropStep_mxe {k : Core} {q : FireStep} {l : List FireStep} (hq : k.mxe.queue = q :: l) :
    k.dropStep.mxe = { k.mxe.setAcc q.acc { k.mxe.acc q.acc with pend := false } with
      queue := l, staged := k.mxe.staged.filter fun p => p.cand != 4 } := by
  simp only [dropStep, hq, setCons_mxe]
  rfl

/-! ### Drains and mutes (R303, R318) -/

/-- Who a drain is to translation (R388, KIND 8). -/
def drainWho (c i : Nat) (b : Binding) : Who :=
  { die := dieOf c, ctx := keyCtx b.actKey, act := keyAct b.actKey, kind := 8, job := c + 2 ^ 8 * i + 2 ^ 10 * b.otiles.toNat }

namespace State

variable {s : State}

/-- The address of a drain's bias values. -/
def drainBias (s : State) (b : Binding) : Word := biasAddr ((s.act? b.actKey).elim [] Act.consts) (decEpi b.k1)

/-- A drain is under way, with its bias values. -/
def drainBegun (s : State) (c i : Nat) (bias : List Byte) : State :=
  s.modCore c fun k => { k with mxe :=
    { k.mxe with drain := some (i, bias), lastDrain := i, drainNext := k.mxe.drainNext.filter fun j => j != i } }

section
variable {c i : Nat} {b : Binding} (hfree : (s.core c).mxe.drain = none) (hb : nget (s.core c).mxe.slots i = some b)
  (hfirst : ∃ d, d < 4 ∧ i = ((s.core c).mxe.lastDrain + 1 + d) % 4 ∧
    ∀ e, e < d → (s.core c).drainable (((s.core c).mxe.lastDrain + 1 + e) % 4) = false)
  (hdrainable : (s.core c).drainable i = true)
include hfree hb hfirst hdrainable

theorem drainStart_plain (hbias : (decEpi b.k1).bias = false) : s.drainStart c = s.drainBegun c i [] := by
  simp [drainStart, hfree, find?_rotation hfirst hdrainable, hb, hbias, drainBegun]

variable (hbias : (decEpi b.k1).bias = true)
include hbias

theorem drainStart_read {pl : List Place} {u : State} (hread : engAccess s (drainWho c i b) (s.drainBias b).toNat 128 .read = .ok pl u) :
    s.drainStart c = (u.forgetJob (drainWho c i b)).bump.drainBegun c i (pl.map (engByte u)) := by
  cases hact : s.act? b.actKey <;> simp_all [drainStart, find?_rotation hfirst hdrainable, drainWho, drainBias, drainBegun]

theorem drainStart_later {u : State} (hread : engAccess s (drainWho c i b) (s.drainBias b).toNat 128 .read = .later u) :
    s.drainStart c = u := by
  cases hact : s.act? b.actKey <;> simp_all [drainStart, find?_rotation hfirst hdrainable, drainWho, drainBias]

theorem drainStart_fault {f : Stop} {u : State} (hread : engAccess s (drainWho c i b) (s.drainBias b).toNat 128 .read = .fault f u) :
    s.drainStart c = (u.modCore c fun k => { k with mxe := { k.mxe with
      drainStops := k.mxe.drainStops ++ [(i, f)], lastDrain := i, drainNext := k.mxe.drainNext.filter fun j => j != i } }).engFault
        (drainWho c i b).ctx (drainWho c i b).act f := by
  cases hact : s.act? b.actKey <;> simp_all [drainStart, find?_rotation hfirst hdrainable, drainWho, drainBias]

end

@[simp] theorem act?_modCore (s : State) (c : Nat) (f : Core → Core) (key : Nat) : (s.modCore c f).act? key = s.act? key := rfl

theorem drainEnd_of_drain {c i : Nat} {bias : List Byte} {b : Binding} (hdrain : (s.core c).mxe.drain = some (i, bias))
    (hb : nget (s.core c).mxe.slots i = some b) : s.drainEnd c =
    ((s.modCore c fun k => { k with mxe := { k.mxe with drain := none } }).modCore c fun k =>
      { k with mxe := k.mxe.setAcc b.acc ((s.core c).mxe.acc b.acc).clear }).epiPush c b.actKey ((s.act? b.actKey).elim [] Act.consts)
        (decEpi b.k1) ((s.core c).mxe.acc b.acc) bias := by
  simp only [drainEnd, hdrain, State.core_modCore_same, hb, act?_modCore]
  cases s.act? b.actKey <;> rfl

/-- A mute that has passed leaves its slot muted, whether or not it tells of it. -/
theorem mutePass_sameMxe {c i : Nat} {b : Binding} (hb : nget (s.core c).mxe.slots i = some b) (hpassed : (s.core c).mxe.mutePassed i = true) :
    (s.modCore c fun k => { k with mxe := { k.mxe with
      slots := nput k.mxe.slots i { b with state := if b.state = .running then .muted else b.state, muting := false } } }).SameMxe
        (s.mutePass c i) := by
  unfold mutePass
  simp only [hpassed, if_true, hb, beq_iff_eq]
  exact .ite (mxToken_sameMxe _ _ _ _ _ _ _ _) (.refl _)

end State

/-- Settles O51: the streams, copies, drains and the start of a firing by what their step finds; what retires or is muted tells of it by tokens
and ring pops, which leave the matrix engine alone (`retireEnd_sameMxe`, `mutePass_sameMxe`). -/
theorem engineSteps : Obligations.EngineSteps := by
  refine ⟨fun s core n x r => ?stream, fun s e c r => ?start, fun s e c hrunning => ?copy, fun s core cand ring hstage => ?stage,
    fun s core i o => ?firing, fun s core f r o b => ?retire, fun s core f r q l => ?step, fun s core i b => ?drain, fun s core i bias b => ?drained,
    fun s core slot b => ?mute⟩
  case stream =>
    intro c hx hr
    refine ⟨fun hready hrun => ⟨fun hwrote hout => ?_, fun hwrote =>
      ⟨fun u hnext => ⟨fun hin => ?_, fun hout haccepted => ?_, fun hout hwaits => ?_⟩, fun f u hnext => ?_, fun u hnext => ?_,
        fun t denied hnext => ?_⟩⟩, fun hstate hrun hdone => ?_⟩
    all_goals refine congrArg Host.Outcome.next ?_
    · exact State.streamStep_accepted hx hr hready hrun hwrote hout
    · exact State.streamStep_gathered hx hr hready hrun hwrote hnext hin
    · rw [State.streamStep_scattered hx hr hready hrun hwrote hnext hout, if_neg (ne_true_of_eq_false haccepted)]
    · rw [State.streamStep_scattered hx hr hready hrun hwrote hnext hout, if_pos hwaits]
    · exact State.streamStep_fault hx hr hready hrun hwrote hnext
    · exact State.streamStep_later hx hr hready hrun hwrote hnext
    · exact State.streamErrorStep_err hx hr hready hrun hwrote hnext
    · exact State.streamEndStep_done hx hstate hrun hdone
  case start => exact fun hidle hqueue => congrArg _ (State.copyStartStep_head hidle hqueue)
  case copy =>
    refine ⟨fun st hfin hout => ?_, fun hfin hstop => ⟨fun hall hout => ?_, fun u n hmove hout => ?_, fun u n t denied hmove hout => ?_,
      fun u n f v hmove => ?_, fun u n v hmove => ?_⟩⟩
    all_goals refine congrArg Host.Outcome.next ?_
    · exact State.copyEndStep_fin hrunning hfin hout
    · exact State.copyEndStep_written hrunning hfin hstop hall hout
    · exact State.copyEndStep_moved hrunning hfin hstop hmove hout
    · exact State.copyEndStep_err hrunning hfin hstop hmove hout
    · exact State.copyEndStep_fault hrunning hfin hstop hmove
    · exact State.copyEndStep_later hrunning hfin hstop hmove
  case stage =>
    refine ⟨_, congrArg Host.Outcome.next (if_pos hstage), (Core.stageRead_names _ _ _).1, (Core.stageRead_names _ _ _).2, fun o r ho hr => ?_⟩
    rw [Core.stageRead_ring ho hr]
    exact ⟨rfl, rfl, rfl⟩
  case firing =>
    intro c k hfirst hfirable hcand s1
    exact ⟨fun hgood => congrArg _ (State.firingStart_good hfirst hfirable hcand hgood),
      fun t seq hbad => congrArg _ (State.firingStart_bad hfirst hfirable hcand hbad)⟩
  case retire =>
    intro c m hfiring hslot hb hcand p done
    have ho : o.acc = b.acc := by
      rw [Mxe.cand_of_slot hslot hb] at hcand
      cases hcand
      rfl
    refine ⟨_, congrArg Host.Outcome.next (State.firingRetire_binding hfiring rfl hslot hb hcand), ?_⟩
    rw [State.retireEnd_sameMxe _ _ _ _ _ _ _ c, State.core_modCore_same, ho]
    exact ⟨rfl, (Mxe.acc_of_accs rfl b.acc).trans (Mxe.acc_setAcc_same (s.core c).mxe b.acc _), nget_nput_same _ _ _,
      fun a ha => (Mxe.acc_of_accs rfl a).trans (Mxe.acc_setAcc_other (s.core c).mxe _ ha)⟩
  case step =>
    intro c m hfiring hcand4 hqueue hslots
    obtain ⟨o, hcand, hacc⟩ : ∃ o, m.cand 4 = some o ∧ o.acc = q.acc := ⟨_, Mxe.cand_of_queue hqueue, rfl⟩
    refine ⟨_, o, hcand, congrArg Host.Outcome.next
      (State.firingRetire_step hfiring rfl hcand4 (nget_eq_none_of_keys hslots) hcand), ?_⟩
    rw [State.retireEnd_sameMxe _ _ _ _ _ _ _ c, State.core_modCore_same, State.core_modCore_same, hacc,
      Core.dropStep_mxe (k := (s.core c).endFiring q.acc _ r) hqueue]
    have ha := Mxe.acc_setAcc_same m q.acc (matrixStep (s.core c) o f.bufs).1
    exact ⟨rfl, rfl, (Mxe.acc_of_accs rfl q.acc).trans ((Mxe.acc_setAcc_same _ q.acc _).trans
      (congrArg (fun a : Acc => { a with pend := false }) ((Mxe.acc_of_accs rfl q.acc).trans ha)))⟩
  case drain =>
    intro c k w addr who begun hfree hb hfirst hdrainable
    refine ⟨fun hbias => ?_, fun hbias => ⟨fun pl u hread => ?_, fun u hread => ?_, fun f u hread => ?_⟩⟩
    all_goals refine congrArg Host.Outcome.next ?_
    · exact State.drainStart_plain hfree hb hfirst hdrainable hbias
    · exact State.drainStart_read hfree hb hfirst hdrainable hbias hread
    · exact State.drainStart_later hfree hb hfirst hdrainable hbias hread
    · exact State.drainStart_fault hfree hb hfirst hdrainable hbias hread
  case drained => exact fun hdrain hb => congrArg _ (State.drainEnd_of_drain hdrain hb)
  case mute =>
    intro c hb hpassed
    refine ⟨_, rfl, ?_⟩
    rw [State.mutePass_sameMxe hb hpassed c, State.core_modCore_same]
    exact nget_nput_same _ _ _

end Sys2Proof.Machine

/-! SUPPORT. When a chord effect on a ring stands (O27). -/

namespace Sys2Proof.Machine

/-- What is refused without a value, and otherwise decided by the value, is what a value that is there allows. -/
theorem iff_exists_eq_some {α : Type} {o : Option α} {P : Prop} {Q : α → Prop} (hnone : o = none → ¬P)
    (hsome : ∀ a, o = some a → (P ↔ Q a)) : P ↔ ∃ a, o = some a ∧ Q a := by
  cases o with
  | none => simpa using hnone rfl
  | some a => simpa using hsome a rfl

/-- Checks in order: the first passes, and so do those that follow it. -/
theorem ite_some_eq_none_iff {α : Type} {c : Prop} [Decidable c] {a : α} {o : Option α} :
    (if c then some a else o) = none ↔ ¬c ∧ o = none := by
  by_cases hc : c <;> simp [hc]

theorem effBreach_eq_ringBreach {k : Core} {key : Nat} {ks : List Word} {e : Eff} (h : mxBreach k key ks e = none) :
    effBreach k key ks e = ringBreach k key ks e := by
  unfold effBreach
  split
  next t ht => exact ht.symm
  next hnone => exact h.trans hnone.symm

section
variable {k : Core} {key num : Nat} {ks : List Word}

theorem Core.boundRing_of_some {r : Ring} (hr : k.ring? key num = some r) : k.boundRing key num = .ok r := by
  rw [boundRing, hr]

theorem Core.boundRing_of_none (hnone : k.ring? key num = none) : k.boundRing key num = .error (protAt 0x41 num) := by
  rw [boundRing, hnone]

/-! ### What the checks of 0x40 to 0x45 let pass (R267) -/

/-- RBIND of an unscaled ring in the plan, where SRING has no check to pass (R268). -/
theorem ringBreach_rbind_of_planned {d : RingDesc} {p : Plan} (hplain : d.scaled = false)
    (hp : k.plans.find? (fun p => p.actKey == key && p.num == num) = some p) :
    ringBreach k key ks (.rbind num d) = none ↔ k.ring? key num = none ∧ d.base + d.depth * d.slotBytes ≤ p.banks * 131072 := by
  simp [ringBreach, hp, hplain, ite_some_eq_none_iff]

variable {r : Ring} (hr : k.ring? key num = some r)
include hr

theorem ringBreach_runb_of_bound : ringBreach k key ks (.runb num) = none ↔
    r.prod = .program ∧ r.cons = .program ∧ ∀ q ∈ k.rings, q.actKey = key → q.desc.scaled = true → q.desc.sring ≠ num := by
  simp [ringBreach, Core.boundRing_of_some hr]

theorem ringBreach_radv_of_bound (tail : Bool) (n : Nat) : ringBreach k key ks (.radv tail num n) = none ↔
    (if tail then r.prod else r.cons) = .program ∧ n ≤ if tail then r.free else r.filled := by
  simp only [ringBreach, Core.boundRing_of_some hr, ite_some_eq_none_iff]
  cases tail <;> simp

theorem ringBreach_rwait_of_bound (free : Bool) (n : Nat) (d : TokenDest) : ringBreach k key ks (.rwait free num n d) = none ↔
    (if free then r.wFree else r.wFilled) = none ∧ 1 ≤ n ∧ n ≤ r.desc.depth := by
  cases free <;> simp [ringBreach, Core.boundRing_of_some hr, Nat.one_le_iff_ne_zero, and_assoc]

end

section
variable (k : Core) (key num : Nat) (ks : List Word)

/-! ### The effects that stand (R268, R269, R271, R272) -/

theorem effBreach_rbind_eq_none_iff {d : RingDesc} (hplain : d.scaled = false) : effBreach k key ks (.rbind num d) = none ↔
    ∃ p, k.plans.find? (fun p => p.actKey == key && p.num == num) = some p ∧ k.ring? key num = none ∧
      d.base + d.depth * d.slotBytes ≤ p.banks * 131072 := by
  rw [effBreach_eq_ringBreach rfl]
  exact iff_exists_eq_some (fun hnone => by simp [ringBreach, hnone]) fun _ => ringBreach_rbind_of_planned hplain

theorem effBreach_runb_eq_none_iff : effBreach k key ks (.runb num) = none ↔
    ∃ r, k.ring? key num = some r ∧ r.prod = .program ∧ r.cons = .program ∧
      ∀ q ∈ k.rings, q.actKey = key → q.desc.scaled = true → q.desc.sring ≠ num := by
  rw [effBreach_eq_ringBreach rfl]
  exact iff_exists_eq_some (fun hnone => by simp [ringBreach, Core.boundRing_of_none hnone]) fun _ => ringBreach_runb_of_bound

theorem effBreach_radv_eq_none_iff (tail : Bool) (n : Nat) : effBreach k key ks (.radv tail num n) = none ↔
    ∃ r, k.ring? key num = some r ∧ (if tail then r.prod else r.cons) = .program ∧ n ≤ if tail then r.free else r.filled := by
  rw [effBreach_eq_ringBreach rfl]
  exact iff_exists_eq_some (fun hnone => by simp [ringBreach, Core.boundRing_of_none hnone]) fun _ hr => ringBreach_radv_of_bound hr tail n

theorem effBreach_rwait_eq_none_iff (free : Bool) (n : Nat) (d : TokenDest) : effBreach k key ks (.rwait free num n d) = none ↔
    ∃ r, k.ring? key num = some r ∧ (if free then r.wFree else r.wFilled) = none ∧ 1 ≤ n ∧ n ≤ r.desc.depth := by
  rw [effBreach_eq_ringBreach rfl]
  exact iff_exists_eq_some (fun hnone => by simp [ringBreach, Core.boundRing_of_none hnone]) fun _ hr => ringBreach_rwait_of_bound hr free n d

end

/-- Settles O27: an effect on a ring that the plan lacks, or that is not bound, is refused, and otherwise what stands is what the checks
of its own rule let pass. -/
theorem ringConditions : Obligations.RingConditions := fun k key num ks =>
  ⟨fun _ => effBreach_rbind_eq_none_iff k key num ks, effBreach_runb_eq_none_iff k key num ks,
    effBreach_radv_eq_none_iff k key num ks true, effBreach_radv_eq_none_iff k key num ks false,
    effBreach_rwait_eq_none_iff k key num ks true, effBreach_rwait_eq_none_iff k key num ks false⟩

end Sys2Proof.Machine

/-! SUPPORT. Matrix instructions at execution that access no memory (O30). -/

namespace Sys2Proof.Machine

/-- Settles O30: each of the five buffers its chord effect, MXBIND's with the constants as the chord finds them; MXSTAT looks at its slot
and at who has bound it. -/
theorem matrixInstructions : Obligations.MatrixInstructions := by
  refine ⟨fun slot w f => ?mxbind, fun slot f => ?mxunb, fun w f => ?mxfire, fun f => ?mxz, fun slot f => ?mxmute, fun slot f => ?mxstat⟩
  case mxbind => exact carriesOut_of_body (fun _ => rfl) fun _ _ _ _ _ _ _ h => congrArg some (chordEff_eq h)
  case mxunb => exact .of_chordEff fun _ => rfl
  case mxfire => exact .of_chordEff (e := fun _ => .mxfire (immNat f.a) (immNat f.b) (immNat f.c) w) fun _ => rfl
  case mxz => exact .of_chordEff (e := fun _ => .mxz (immNat f.a)) fun _ => rfl
  case mxmute => exact .of_chordEff fun _ => rfl
  case mxstat =>
    refine .of_gives (fun _ => rfl) fun s ch l x v => ?_
    unfold mxstatBody
    dsimp only
    cases nget (s.core s.flow.focusCore).mxe.slots slot.toNat with
    | none => rfl
    | some b => exact congrArg (fun r => some (r, s)) (apply_ite LaneRes.val _ _ _)

end Sys2Proof.Machine

/-! SUPPORT. When a chord effect on the matrix engine stands, and what MXZ leaves (O33). -/

namespace Sys2Proof.Machine

section
variable {k : Core} {key slot acc : Nat} {ks : List Word}

theorem effBreach_eq_mxBreach {e : Eff} (h : ringBreach k key ks e = none) : effBreach k key ks e = mxBreach k key ks e := by
  rw [effBreach, h]

/-! ### A slot of the own activation (R296, R303, R306) -/

theorem Core.mySlot_of_own {b : Binding} (hb : nget k.mxe.slots slot = some b) (hkey : b.actKey = key) : k.mySlot key slot = .ok b := by
  simp [mySlot, hb, hkey]

theorem Core.mySlot_of_not_own (h : ∀ b, nget k.mxe.slots slot = some b → b.actKey ≠ key) :
    k.mySlot key slot = .error (protAt 0x50 slot) := by
  unfold mySlot
  split
  next b hb => exact if_neg (h b hb)
  next => rfl

/-- What stands for a slot of the own activation alone, and there for a binding that meets a condition. -/
theorem iff_exists_own {P : Prop} {Q : Binding → Prop} (hother : k.mySlot key slot = .error (protAt 0x50 slot) → ¬P)
    (hown : ∀ b, k.mySlot key slot = .ok b → (P ↔ Q b)) : P ↔ ∃ b, nget k.mxe.slots slot = some b ∧ b.actKey = key ∧ Q b := by
  by_cases h : ∃ b, nget k.mxe.slots slot = some b ∧ b.actKey = key
  · obtain ⟨b, hb, hkey⟩ := h
    rw [hown b (Core.mySlot_of_own hb hkey)]
    simp [hb, hkey]
  · refine iff_of_false (hother (Core.mySlot_of_not_own fun b hb hkey => h ⟨b, hb, hkey⟩)) ?_
    rintro ⟨b, hb, hkey, -⟩
    exact h ⟨b, hb, hkey⟩

theorem effBreach_mxunb_eq_none_iff : effBreach k key ks (.mxunb slot) = none ↔ ∃ b, nget k.mxe.slots slot = some b ∧ b.actKey = key := by
  rw [effBreach_eq_mxBreach rfl]
  simpa using iff_exists_own (k := k) (Q := fun _ => True) (fun h => by simp [mxBreach, h]) fun b h => by simp [mxBreach, h]

/-- MXMUTE has the checks of MXUNB. -/
theorem effBreach_mxmute : effBreach k key ks (.mxmute slot) = effBreach k key ks (.mxunb slot) := rfl

theorem effBreach_mxsave_eq_none_iff (a : Word) (pl : List Place) : effBreach k key ks (.mxsave slot a pl) = none ↔
    ∃ b, nget k.mxe.slots slot = some b ∧ b.actKey = key ∧ (b.state ≠ .running ∨ b.muting = true) := by
  rw [effBreach_eq_mxBreach rfl]
  refine iff_exists_own (fun h => by simp [mxBreach, h]) fun b h => ?_
  simp [mxBreach, h, or_iff_not_imp_left]

/-! ### A quiet accumulator that no other activation owns (R298, R299) -/

theorem Acc.others_eq_false_iff {a : Acc} : a.others key = false ↔ ∀ o, a.owner = some o → o = key := by
  unfold others
  cases a.owner <;> simp

theorem mxBreach_mxz : mxBreach k key ks (.mxz acc) = k.accBreach key acc := rfl

theorem effBreach_mxz_eq_none_iff : effBreach k key ks (.mxz acc) = none ↔
    (∀ o, (k.mxe.acc acc).owner = some o → o = key) ∧ k.mxe.quiet (k.mxe.acc acc) = true := by
  rw [effBreach_eq_mxBreach rfl, ← Acc.others_eq_false_iff]
  simp [mxBreach_mxz, Core.accBreach, ite_some_eq_none_iff]

/-- MXLD has the checks of MXZ. -/
theorem effBreach_mxld (a : Word) (pl : List Place) : effBreach k key ks (.mxld acc a pl) = effBreach k key ks (.mxz acc) := rfl

/-! ### The destination of MXST (R300, R302) -/

/-- The field rules of R300. -/
theorem epiBroken_eq_false_iff {w : EpiWord} : epiBroken w = false ↔ w.ek.toNat ≤ 252 ∧ w.act ≠ 3 ∧
    (w.dkind = true → w.dfmt = 0 ∧ w.sat = false ∧ w.round = .rne) ∧ (w.dkind = false → w.dring = 0) := by
  cases hkind : w.dkind <;> simp [epiBroken, hkind, and_assoc]

/-- A ring that MXST may fill: of a permitted format, the program's to fill and with a free slot, as its scale ring is. -/
def Core.Fillable (k : Core) (key : Nat) (fmt : AccFmt) (r : Ring) : Prop :=
  epiFmtOk fmt r.desc.fmt true r.desc.scaled = true ∧ r.prod = .program ∧ 0 < r.free ∧
    (r.desc.scaled = true → ∀ q, k.ring? key r.desc.sring = some q → q.prod = .program ∧ 0 < q.free)

/-- A memory destination has a permitted format, and rows a pitch apart of whole elements and of a row at least. -/
def MemoryFits (w : EpiWord) (ks : List Word) (fmt : AccFmt) : Prop :=
  epiFmtOk fmt w.dfmt.toNat false false = true ∧ (wordAt ks (w.ek.toNat + 3)).toNat % max 1 (fmtWidth w.dfmt.toNat / 8) = 0 ∧
    32 * (fmtWidth w.dfmt.toNat / 8) ≤ (wordAt ks (w.ek.toNat + 3)).toNat

section
variable {a : Word} {w : EpiWord} {bias : List Place} {els : List (Nat × Place)}

theorem mxBreach_mxst_refused (h : ¬(k.accBreach key acc = none ∧ epiBroken w = false)) :
    mxBreach k key ks (.mxst acc a w bias els) ≠ none := by
  cases hacc : k.accBreach key acc with
  | some t => simp [mxBreach, hacc]
  | none => simp [mxBreach, hacc, show epiBroken w = true by simpa [hacc] using h]

variable (hacc : k.accBreach key acc = none) (hepi : epiBroken w = false)
include hacc hepi

theorem mxBreach_mxst_memory (hkind : w.dkind = false) : mxBreach k key ks (.mxst acc a w bias els) = none ↔
    MemoryFits w ks (k.mxe.acc acc).fmt := by
  simp [MemoryFits, mxBreach, hacc, hepi, hkind, and_assoc]

theorem mxBreach_mxst_bound {r : Ring} (hkind : w.dkind = true) (hr : k.ring? key w.dring.toNat = some r) :
    mxBreach k key ks (.mxst acc a w bias els) = none ↔ k.Fillable key (k.mxe.acc acc).fmt r := by
  simp only [mxBreach, hacc, hepi, hkind, Core.boundRing_of_some hr, Bool.false_eq_true, if_false, if_true, ite_some_eq_none_iff, Core.Fillable]
  cases hscaled : r.desc.scaled with
  | false => simp [Nat.pos_iff_ne_zero]
  | true =>
    cases hq : k.ring? key r.desc.sring with
    | none => simp [Nat.pos_iff_ne_zero]
    | some q =>
      simp [Nat.pos_iff_ne_zero]
      tauto

theorem mxBreach_mxst_ring (hkind : w.dkind = true) : mxBreach k key ks (.mxst acc a w bias els) = none ↔
    ∃ r, k.ring? key w.dring.toNat = some r ∧ k.Fillable key (k.mxe.acc acc).fmt r :=
  iff_exists_eq_some (fun hnone => by simp [mxBreach, hacc, hepi, hkind, Core.boundRing_of_none hnone]) fun _ =>
    mxBreach_mxst_bound hacc hepi hkind

end

/-- MXST stands for the accumulator that MXZ stands for, with an epilogue word that keeps R300 and a destination that can take the tile. -/
theorem effBreach_mxst_eq_none_iff (a : Word) (w : EpiWord) (bias : List Place) (els : List (Nat × Place)) :
    effBreach k key ks (.mxst acc a w bias els) = none ↔ effBreach k key ks (.mxz acc) = none ∧ epiBroken w = false ∧
      (w.dkind = true → ∃ r, k.ring? key w.dring.toNat = some r ∧ k.Fillable key (k.mxe.acc acc).fmt r) ∧
      (w.dkind = false → MemoryFits w ks (k.mxe.acc acc).fmt) := by
  rw [effBreach_eq_mxBreach rfl, effBreach_eq_mxBreach (e := .mxz acc) rfl, mxBreach_mxz, ← and_assoc]
  by_cases h : k.accBreach key acc = none ∧ epiBroken w = false
  · obtain ⟨hacc, hepi⟩ := h
    cases hkind : w.dkind with
    | false => simp [mxBreach_mxst_memory hacc hepi hkind, hacc, hepi]
    | true => simp [mxBreach_mxst_ring hacc hepi hkind, hacc, hepi]
  · exact iff_of_false (mxBreach_mxst_refused h) fun hboth => h hboth.1

end

/-! ### What MXZ leaves (R298) -/

/-- A core whose accumulator MXZ has cleared for an activation. -/
def Core.zeroAcc (k : Core) (key acc : Nat) : Core :=
  { k with mxe := k.mxe.setAcc acc { (k.mxe.acc acc).clear with owner := some key } }

theorem chordEffect_mxz (s : State) (c : Nat) (n : BitVec 12) (act : BitVec 16) (ks : List Word) (tag : BitVec 32) (hid : BitVec 8) (acc : Nat) :
    s.chordEffect c n act ks tag hid (.mxz acc) = s.modCore c fun k => k.zeroAcc (actKey n act) acc := rfl

/-- Settles O33: a slot must be the own activation's (`iff_exists_own`), an accumulator its own or nobody's, and MXST's destination one that
can take the tile; MXZ puts the cleared accumulator in its place on its core. -/
theorem matrixConditions : Obligations.MatrixConditions := by
  refine fun k key ks slot acc => ⟨effBreach_mxunb_eq_none_iff, ?mute, effBreach_mxsave_eq_none_iff, effBreach_mxz_eq_none_iff,
    fun a pl => effBreach_mxld a pl, fun a w bias els => ?mxst, fun s c n act tag hid => ?zeroed⟩
  case mute => rw [effBreach_mxmute, effBreach_mxunb_eq_none_iff]
  case mxst =>
    intro fmt width pitch
    rw [effBreach_mxst_eq_none_iff, epiBroken_eq_false_iff]
    cases w.dkind <;> simp [Core.Fillable, MemoryFits, and_assoc, fmt, width, pitch]
  case zeroed =>
    intro t x
    have ht : t = s.modCore c fun k => k.zeroAcc (actKey n act) acc := chordEffect_mxz ..
    have hx : x = { ((s.core c).mxe.acc acc).clear with owner := some (actKey n act) } := by
      simp [x, ht, Core.zeroAcc]
    rw [hx, ht, State.core_modCore_same]
    exact ⟨rfl, fun _ => rfl, rfl, rfl, rfl, rfl, rfl, fun i hi => Mxe.acc_setAcc_other _ _ hi, rfl, rfl, rfl,
      fun c' hc => State.core_modCore_other _ _ hc⟩

end Sys2Proof.Machine

/-! SUPPORT. A save area reads back as it was written (O32). -/

namespace Sys2Proof.Machine

/-! ### Numbers packed one after another -/

theorem bytesOfNat_eq_map (n x : Nat) : bytesOfNat n x = (List.range n).map fun i => BitVec.ofNat 8 (x / 256 ^ i) := by
  induction n generalizing x with
  | zero => rfl
  | succ n ih => simp [bytesOfNat, ih, List.range_succ_eq_map, Nat.div_div_eq_div_mul, pow_succ']

theorem bytesOfWord_eq_bytesOfNat (w : Word) : bytesOfWord w = bytesOfNat 8 w.toNat := by
  rw [bytesOfNat_eq_map]
  refine List.map_congr_left fun i _ => BitVec.eq_of_toNat_eq ?_
  rw [BitVec.extractLsb'_toNat, BitVec.toNat_ofNat, Nat.shiftRight_eq_div_pow, pow_mul]
  rfl

theorem bytesOfNat_one (x : Nat) : bytesOfNat 1 x = [BitVec.ofNat 8 x] := rfl

theorem bytesOfNat_zero (n : Nat) : bytesOfNat n 0 = List.replicate n 0 := by
  induction n with
  | zero => rfl
  | succ n ih => simp [bytesOfNat, ih, List.replicate_succ]

/-- The bytes of fields, each a number with the bytes it takes. -/
def packFields (l : List (Nat × Nat)) : List Byte := l.flatMap fun p => bytesOfNat p.1 p.2

/-- Where field i begins. -/
def fieldOffset (l : List (Nat × Nat)) (i : Nat) : Nat := ((l.take i).map Prod.fst).sum

theorem length_packFields (l : List (Nat × Nat)) : (packFields l).length = (l.map Prod.fst).sum := by
  simp [packFields, List.length_flatMap]

theorem packFields_append (l r : List (Nat × Nat)) : packFields (l ++ r) = packFields l ++ packFields r := List.flatMap_append

/-- Fields of one width. -/
theorem sum_widths_range (n w : Nat) (f : Nat → Nat) : (((List.range n).map fun i => (w, f i)).map Prod.fst).sum = n * w := by
  simp [Function.comp_def]

theorem bytesAt_skip {l : List Byte} {n : Nat} (r : List Byte) (off m : Nat) (hl : l.length = n) :
    bytesAt (l ++ r) (n + off) m = bytesAt r off m := by
  rw [bytesAt, ← hl, List.drop_length_add_append, bytesAt]

theorem bytesAt_bytesOfNat (n x : Nat) (r : List Byte) : bytesAt (bytesOfNat n x ++ r) 0 n = x % 2 ^ (8 * n) := by
  rw [bytesAt, List.drop_zero, List.take_left' (length_bytesOfNat n x), natOfBytes_bytesOfNat]

/-- A field that its bytes hold is read back where it begins. -/
theorem bytesAt_packFields {l : List (Nat × Nat)} {i n x : Nat} (hi : l[i]? = some (n, x)) (hx : x < 2 ^ (8 * n)) :
    bytesAt (packFields l) (fieldOffset l i) n = x := by
  induction l generalizing i with
  | nil => simp at hi
  | cons p l ih =>
    have hpack : packFields (p :: l) = bytesOfNat p.1 p.2 ++ packFields l := List.flatMap_cons
    rw [hpack]
    cases i with
    | zero =>
      obtain rfl : p = (n, x) := by simpa using hi
      exact (bytesAt_bytesOfNat n x _).trans (Nat.mod_eq_of_lt hx)
    | succ i => exact (bytesAt_skip (packFields l) (fieldOffset l i) n (length_bytesOfNat p.1 p.2)).trans (ih (by simpa using hi))

/-! ### The fields of a save area (R305) -/

@[simp] theorem accFmtOf_code (fmt : AccFmt) : accFmtOf fmt.code = fmt := by cases fmt <;> rfl

theorem AccFmt.code_lt (fmt : AccFmt) : fmt.code < 3 := by cases fmt <;> decide

/-- The flags of a save area: FULL, LIVE and SAT. -/
def saveFlags (x : Binding) (a : Acc) : Nat := (if a.full then 1 else 0) + (if a.live then 2 else 0) + (if x.sat then 4 else 0)

theorem saveFlags_spec (x : Binding) (a : Acc) : saveFlags x a < 8 ∧ (saveFlags x a).testBit 0 = a.full ∧
    (saveFlags x a).testBit 1 = a.live ∧ (saveFlags x a).testBit 2 = x.sat := by
  unfold saveFlags
  cases a.full <;> cases a.live <;> cases x.sat <;> decide

/-- A save area's header. -/
def saveHeader (x : Binding) (a : Acc) : List (Nat × Nat) :=
  [(4, 0x5653584D), (4, 1), (8, (encCtl x.w).toNat), (1, x.a), (1, x.b), (1, x.acc), (1, a.fmt.code), (1, a.vr), (1, a.vc),
   (1, saveFlags x a), (1, 0), (2, a.kt), (4, x.otiles.toNat), (2, 0), (4, x.k0.toNat), (4, x.tag.toNat), (24, 0)]

/-- What follows the header: the elements, each of the format's width. -/
def saveElems (a : Acc) : List (Nat × Nat) := (List.range 1024).map fun i => (a.fmt.bytes, a.elem i)

/-- The bytes of the header's fields. -/
def saveWidths : List Nat := [4, 4, 8, 1, 1, 1, 1, 1, 1, 1, 1, 2, 4, 2, 4, 4, 24]

theorem saveHeader_widths (x : Binding) (a : Acc) : (saveHeader x a).map Prod.fst = saveWidths := rfl

theorem sum_saveWidths : saveWidths.sum = 64 := by decide

/-- The header's bytes, where its first operation constant is one (R290). -/
theorem packFields_saveHeader {x : Binding} (a : Acc) (hk0 : x.k0.toNat < 2 ^ 32) : packFields (saveHeader x a) =
    bytesOfNat 4 0x5653584D ++ bytesOfNat 4 1 ++ bytesOfWord (encCtl x.w)
      ++ [BitVec.ofNat 8 x.a, BitVec.ofNat 8 x.b, BitVec.ofNat 8 x.acc, BitVec.ofNat 8 a.fmt.code, BitVec.ofNat 8 a.vr, BitVec.ofNat 8 a.vc,
          BitVec.ofNat 8 (saveFlags x a), 0]
      ++ bytesOfNat 2 a.kt ++ bytesOfNat 4 x.otiles.toNat ++ [0, 0]
      ++ bytesOfNat 4 (x.k0.toNat % 2 ^ 32) ++ bytesOfNat 4 x.tag.toNat ++ List.replicate 24 0 := by
  rw [bytesOfWord_eq_bytesOfNat, Nat.mod_eq_of_lt hk0]
  simp [packFields, saveHeader, bytesOfNat_one, bytesOfNat_zero]

theorem saveBytes_eq_packFields {x : Binding} (a : Acc) (hk0 : x.k0.toNat < 2 ^ 32) :
    saveBytes x a = packFields (saveHeader x a ++ saveElems a) := by
  have helems : ((List.range 1024).map fun i => bytesOfNat a.fmt.bytes (a.elem i)).flatten = packFields (saveElems a) := by
    rw [packFields, saveElems, List.flatMap_map, List.flatMap_def]
  rw [packFields_append, packFields_saveHeader a hk0, ← helems]
  rfl

theorem length_saveBytes {x : Binding} (a : Acc) (hk0 : x.k0.toNat < 2 ^ 32) : (saveBytes x a).length = saveLen a.fmt := by
  rw [saveBytes_eq_packFields a hk0, length_packFields, List.map_append, List.sum_append, saveElems, sum_widths_range, saveHeader_widths,
    sum_saveWidths, saveLen]

/-- A binding and an accumulator that the fields of a save area can hold. -/
structure Savable (x : Binding) (a : Acc) : Prop where
  a_lt : x.a < 32
  b_lt : x.b < 32
  acc_lt : x.acc < 8
  vr_pos : 1 ≤ a.vr
  vr_le : a.vr ≤ 32
  vc_pos : 1 ≤ a.vc
  vc_le : a.vc ≤ 32
  kt_lt : a.kt < 2 ^ 16
  k0_lt : x.k0.toNat < 2 ^ 32
  elems_lt : ∀ e ∈ a.elems, e < 2 ^ (8 * a.fmt.bytes)

/-- Bytes whose header holds a binding and its accumulator, at the offsets of R305. -/
structure HoldsHeader (bs : List Byte) (x : Binding) (a : Acc) : Prop where
  magic : bytesAt bs 0 4 = 0x5653584D
  version : bytesAt bs 4 4 = 1
  ctl : bytesAt bs 8 8 = (encCtl x.w).toNat
  ringA : bytesAt bs 0x10 1 = x.a
  ringB : bytesAt bs 0x11 1 = x.b
  acc : bytesAt bs 0x12 1 = x.acc
  fmt : bytesAt bs 0x13 1 = a.fmt.code
  vr : bytesAt bs 0x14 1 = a.vr
  vc : bytesAt bs 0x15 1 = a.vc
  flags : bytesAt bs 0x16 1 = saveFlags x a
  zero17 : bytesAt bs 0x17 1 = 0
  kt : bytesAt bs 0x18 2 = a.kt
  otiles : bytesAt bs 0x1A 4 = x.otiles.toNat
  zero1E : bytesAt bs 0x1E 2 = 0
  k0 : bytesAt bs 0x20 4 = x.k0.toNat
  tag : bytesAt bs 0x24 4 = x.tag.toNat
  zero28 : bytesAt bs 0x28 24 = 0

section
variable {x : Binding} {a : Acc}

/-- The number at an offset of a header is the field that begins there. -/
theorem bytesAt_saveBytes (hk0 : x.k0.toNat < 2 ^ 32) {off i n v : Nat} (hi : (saveHeader x a)[i]? = some (n, v))
    (hoff : (saveWidths.take i).sum = off) (hv : v < 2 ^ (8 * n)) : bytesAt (saveBytes x a) off n = v := by
  have hlt : i < (saveHeader x a).length := (List.getElem?_eq_some_iff.1 hi).1
  have hstart : fieldOffset (saveHeader x a ++ saveElems a) i = off := by
    rw [fieldOffset, List.take_append_of_le_length hlt.le, List.map_take, saveHeader_widths, hoff]
  rw [saveBytes_eq_packFields a hk0, ← hstart, bytesAt_packFields (by rwa [List.getElem?_append_left hlt]) hv]

theorem Acc.elem_lt (h : ∀ e ∈ a.elems, e < 2 ^ (8 * a.fmt.bytes)) (i : Nat) : a.elem i < 2 ^ (8 * a.fmt.bytes) := by
  unfold elem
  cases he : a.elems[i]? with
  | none => exact Nat.two_pow_pos _
  | some e => exact h e (List.mem_of_getElem? he)

theorem bytesAt_saveBytes_elem (h : Savable x a) {i : Nat} (hi : i < 1024) :
    bytesAt (saveBytes x a) (64 + i * a.fmt.bytes) a.fmt.bytes = a.elem i := by
  have hfield : (saveHeader x a ++ saveElems a)[(saveHeader x a).length + i]? = some (a.fmt.bytes, a.elem i) := by
    rw [List.getElem?_append_right (Nat.le_add_right _ _), Nat.add_sub_cancel_left]
    simp [saveElems, hi]
  have hoff : fieldOffset (saveHeader x a ++ saveElems a) ((saveHeader x a).length + i) = 64 + i * a.fmt.bytes := by
    rw [fieldOffset, List.take_length_add_append, List.map_append, List.sum_append, saveElems, ← List.map_take,
      List.take_range, Nat.min_eq_left hi.le, sum_widths_range, saveHeader_widths,
      sum_saveWidths]
  rw [saveBytes_eq_packFields a h.k0_lt, ← hoff, bytesAt_packFields hfield (Acc.elem_lt h.elems_lt i)]

theorem saveBytes_header (h : Savable x a) : HoldsHeader (saveBytes x a) x a := by
  obtain ⟨ha, hb, hacc, -, hvr, -, hvc, hkt, hk0, -⟩ := h
  have hfmt := a.fmt.code_lt
  have hflags := (saveFlags_spec x a).1
  constructor
  case magic => exact bytesAt_saveBytes hk0 (i := 0) rfl rfl (by decide)
  case version => exact bytesAt_saveBytes hk0 (i := 1) rfl rfl (by decide)
  case ctl => exact bytesAt_saveBytes hk0 (i := 2) rfl rfl (encCtl x.w).isLt
  case ringA => exact bytesAt_saveBytes hk0 (i := 3) rfl rfl (by omega)
  case ringB => exact bytesAt_saveBytes hk0 (i := 4) rfl rfl (by omega)
  case acc => exact bytesAt_saveBytes hk0 (i := 5) rfl rfl (by omega)
  case fmt => exact bytesAt_saveBytes hk0 (i := 6) rfl rfl (by omega)
  case vr => exact bytesAt_saveBytes hk0 (i := 7) rfl rfl (by omega)
  case vc => exact bytesAt_saveBytes hk0 (i := 8) rfl rfl (by omega)
  case flags => exact bytesAt_saveBytes hk0 (i := 9) rfl rfl (by omega)
  case zero17 => exact bytesAt_saveBytes hk0 (i := 10) rfl rfl (by decide)
  case kt => exact bytesAt_saveBytes hk0 (i := 11) rfl rfl hkt
  case otiles => exact bytesAt_saveBytes hk0 (i := 12) rfl rfl x.otiles.isLt
  case zero1E => exact bytesAt_saveBytes hk0 (i := 13) rfl rfl (by decide)
  case k0 => exact bytesAt_saveBytes hk0 (i := 14) rfl rfl hk0
  case tag => exact bytesAt_saveBytes hk0 (i := 15) rfl rfl x.tag.isLt
  case zero28 => exact bytesAt_saveBytes hk0 (i := 16) rfl rfl (by decide)

/-! ### What MXREST makes of them (R307) -/

variable {bs : List Byte} (h : HoldsHeader bs x a)
include h

theorem HoldsHeader.saveBad_eq_false (hs : Savable x a) : saveBad bs = false := by
  obtain ⟨ha, hb, hacc, hvr0, hvr, hvc0, hvc, -, -, -⟩ := hs
  have hfmt := a.fmt.code_lt
  have hflags := (saveFlags_spec x a).1
  simp only [saveBad, h.magic, h.version, h.ringA, h.ringB, h.acc, h.fmt, h.vr, h.vc, h.flags, h.zero17, h.zero1E, h.zero28,
    Bool.or_eq_false_iff, bne_self_eq_false, decide_eq_false_iff_not, beq_eq_false_iff_ne, true_and, and_true]
  omega

theorem HoldsHeader.saveFmt_eq : saveFmt bs = a.fmt := by
  rw [saveFmt, h.fmt, accFmtOf_code]

/-- A save area whose header holds a binding and its accumulator is read as them. -/
theorem HoldsHeader.ofBytes_eq : MxSave.ofBytes bs =
    { w := x.w, a := x.a, b := x.b, acc := x.acc, sat := x.sat, otiles := x.otiles, k0 := x.k0, tag := x.tag,
      val := { elems := if a.live then (List.range 1024).map fun i => bytesAt bs (64 + i * a.fmt.bytes) a.fmt.bytes else [],
               fmt := a.fmt, kt := a.kt, vr := a.vr, vc := a.vc, live := a.live, full := a.full } } := by
  obtain ⟨-, hfull, hlive, hsat⟩ := saveFlags_spec x a
  simp only [MxSave.ofBytes, h.saveFmt_eq, h.ctl, h.ringA, h.ringB, h.acc, h.vr, h.vc, h.flags, h.kt, h.otiles, h.k0, h.tag, hfull, hlive,
    hsat, BitVec.ofNat_toNat, BitVec.setWidth_eq, dec_encCtl]

end

/-- Settles O32: the area is its fields one after another (`saveBytes_eq_packFields`), each of which is read back where it begins. -/
theorem matrixSave : Obligations.MatrixSave := by
  intro x a ha hb hacc hvr0 hvr hvc0 hvc hkt hk0 _ helems bs v
  have hs : Savable x a := ⟨ha, hb, hacc, hvr0, hvr, hvc0, hvc, hkt, hk0, helems⟩
  have h : HoldsHeader bs x a := saveBytes_header hs
  refine ⟨h.saveBad_eq_false hs, length_saveBytes a hk0, ?_⟩
  simp only [v, h.ofBytes_eq, true_and]
  refine ⟨fun hlive i hi => ?_, fun hdead => if_neg (ne_true_of_eq_false hdead)⟩
  simpa [Acc.elem, hlive, hi] using bytesAt_saveBytes_elem hs hi

end Sys2Proof.Machine

/-! SUPPORT. The children that a fork makes (O37). -/

namespace Sys2Proof.Machine

section
variable {s : State} {n : BitVec 12}

theorem ne_zero_iff_exists_lt {c : BitVec 8} : c ≠ 0 ↔ ∃ i < 255, c = BitVec.ofNat 8 (i + 1) := by
  refine ⟨fun h => ⟨c.toNat - 1, ?_, ?_⟩, ?_⟩
  · bv_omega
  · bv_omega
  · rintro ⟨i, hi, rfl⟩
    bv_omega

theorem State.freeHid_eq_none_iff : s.freeHid n = none ↔ ∀ c : BitVec 8, c ≠ 0 → s.hypState n c ≠ 0 := by
  simp only [freeHid, List.find?_eq_none, List.mem_map, List.mem_range, beq_iff_eq, ne_zero_iff_exists_lt]
  exact ⟨fun h c ⟨i, hi, hc⟩ => h c ⟨i, hi, hc.symm⟩, fun h c ⟨i, hi, hc⟩ => h c ⟨i, hi, hc.symm⟩⟩

/-- The free HID that is found is the lowest. -/
theorem State.freeHid_eq_some {c : BitVec 8} (h : s.freeHid n = some c) :
    c ≠ 0 ∧ s.hypState n c = 0 ∧ ∀ c' : BitVec 8, c' ≠ 0 → c' < c → s.hypState n c' ≠ 0 := by
  rw [freeHid, List.find?_map, Option.map_eq_some_iff] at h
  obtain ⟨i, hi, rfl⟩ := h
  obtain ⟨hfree, hlt, hlow⟩ := List.find?_range_eq_some.1 hi
  simp only [Function.comp, beq_iff_eq, Bool.not_eq_true', beq_eq_false_iff_ne, List.mem_range] at hfree hlt hlow
  refine ⟨ne_zero_iff_exists_lt.2 ⟨i, hlt, rfl⟩, hfree, fun c' hc' hbelow => ?_⟩
  obtain ⟨j, hj, rfl⟩ := ne_zero_iff_exists_lt.1 hc'
  exact hlow j (by bv_omega)

theorem State.fork_eq_none_iff {h : BitVec 8} : s.fork n h = none ↔
    s.hypDepth n h = 15 ∨ s.hypState n h ≠ 1 ∨ ∀ c : BitVec 8, c ≠ 0 → s.hypState n c ≠ 0 := by
  rw [← freeHid_eq_none_iff, ← or_assoc, fork]
  split_ifs with hbarred
  · simp [hbarred]
  · cases s.freeHid n <;> simp [hbarred]

theorem State.fork_eq_some {h c : BitVec 8} {t : State} (hf : s.fork n h = some (c, t)) : s.freeHid n = some c ∧
    t = s.setHyp n c { state := 1, parent := h, depth := BitVec.ofNat 4 (s.hypDepth n h + 1) } := by
  rw [fork] at hf
  split_ifs at hf
  cases hfree : s.freeHid n with
  | none => simp [hfree] at hf
  | some d =>
    simp only [hfree, Option.some.injEq, Prod.mk.injEq] at hf
    obtain ⟨rfl, rfl⟩ := hf
    exact ⟨rfl, rfl⟩

@[simp] theorem State.hyps_setHyp (h : BitVec 8) (r : HypRec) : ((s.setHyp n h r).ctx n).hyps = nput (s.ctx n).hyps h.toNat r := by
  simp [setHyp]

end

/-- Settles O37: there is no child exactly when a check of the parent fails or no HID is free, and the child takes the lowest free one. -/
theorem forkedChildren : Obligations.ForkedChildren := by
  refine fun s n h => ⟨State.fork_eq_none_iff, fun c t hf => ?_⟩
  obtain ⟨hfree, rfl⟩ := State.fork_eq_some hf
  obtain ⟨hc, hstate, hlowest⟩ := State.freeHid_eq_some hfree
  refine ⟨hc, hstate, hlowest, ?_, fun k hk => ?_, rfl⟩
  · rw [State.hyps_setHyp, nget_nput_same]
  · rw [State.hyps_setHyp, nget_nput_other _ _ hk]

end Sys2Proof.Machine

/-! SUPPORT. Sympathy and page selection at execution (O34). -/

namespace Sys2Proof.Machine

section
variable {s s1 : State} {ch : Chord} {x : Lane} {res : LaneRes}

/-- A comparator's request with its operands named: it traps under a HID, and is buffered behind the checks of its windows (R346). -/
theorem symEffect_eq {k : AccKind} {l : List TileLoc} {e : Eff}
    (h : (x.hid ≠ 0 → res = .trapped { cause := 0x0F } ∧ s1 = s) ∧
      (x.hid = 0 → (tilesOk s ch ch.pc x k l).thenDo (fun _ s2 res s1 => res = .eff e ∧ s1 = s2) res s1)) :
    symEffect s ch ch.pc x k l e = some (res, s1) := by
  obtain ⟨hspec, hplain⟩ := h
  unfold symEffect
  by_cases hhid : x.hid = 0
  · rw [if_neg (not_not.2 hhid)]
    obtain ⟨t, hc, rfl⟩ | ⟨pl, s2, hc, rfl, rfl⟩ := Checked.thenDo_cases (hplain hhid) <;> rw [hc]
  · obtain ⟨rfl, rfl⟩ := hspec hhid
    exact if_pos hhid

end

/-- Settles O34: the checks of a request to the comparator end in `symEffect_eq`, SYMQ goes as far as its word can be read, and the others
give what their operands say. -/
theorem sympathyInstructions : Obligations.SympathyInstructions := by
  refine ⟨fun f => ?symk, fun w f => ?symc, fun w f => ?symp, fun w f => ?symr, fun f => ?syms, fun w f => ?symq, fun w f => ?psel⟩
  case symk =>
    refine .of_givesMem (fun _ => rfl) fun s ch l x v => ?_
    unfold symkBody
    cases threshold (v.b.toNat % 2 ^ 32) <;> cases threshold (v.b.toNat / 2 ^ 32) <;> rfl
  case symc =>
    refine carriesOut_of_body (fun _ => rfl) fun ch s l x v res s1 h => ?_
    unfold symcBody
    cases hkey : keyBad s ch.ctx v.a <;> cases htile : tileLoc s ch w.src w.sel v.b false <;> rw [hkey, htile] at h
    case none.ok => exact symEffect_eq h
    all_goals obtain ⟨rfl, rfl⟩ := h; rfl
  case symp =>
    refine carriesOut_of_body (fun _ => rfl) fun ch s l x v res s1 h => ?_
    unfold sympBody
    cases hkey : keyBad s ch.ctx v.a <;> cases hin : tileLoc s ch w.isrc w.isel v.b false <;>
      cases hout : tileLoc s ch w.osrc w.osel v.c false <;> rw [hkey, hin, hout] at h
    case none.ok.ok => exact symEffect_eq h
    all_goals obtain ⟨rfl, rfl⟩ := h; rfl
  case symr =>
    refine carriesOut_of_body (fun _ => rfl) fun ch s l x v res s1 h => ?_
    unfold symrBody
    simp only [Bool.not_eq_true']
    refine firstCheck_eq h fun h => ?_
    cases htile : tileLoc s ch w.dsrc w.dsel v.b true <;> rw [htile] at h
    case ok => exact symEffect_eq h
    case error => rw [h.1, h.2]
  case syms =>
    refine .of_gives (fun _ => rfl) fun s ch l x v => ?_
    exact (apply_ite (fun r => some (r, s)) _ _ _).symm
  case symq =>
    refine carriesOut_of_body (fun _ => rfl) fun ch s l x v res s1 h => ?_
    unfold symqBody
    dsimp only at h ⊢
    split_ifs at h ⊢ with htab hplaces
    · rw [h.1, h.2]
    · rw [h.1, h.2]
    split at h
    case h_1 u hseek => exact congrArg some h.symm
    case h_2 t hseek => rw [h.1, h.2]
    case h_3 gl hseek =>
      split_ifs at h ⊢ <;> rw [h.1, h.2]
  case psel =>
    refine .of_givesMem (fun _ => rfl) fun s ch l x v => ?_
    unfold pselBody
    simp only [decide_eq_true_eq, apply_ite (fun r => some (r, s))]
    cases (s.core s.flow.focusCore).boundRing ch.key w.ring.toNat with
    | error t => rfl
    | ok r => simp only [apply_ite (fun r => some (r, s))]; rfl

end Sys2Proof.Machine

/-! SUPPORT. A sweep after whose phase B nothing is left for its context to wait for (O53). -/

namespace Sys2Proof.Machine

/-- A refutation of HID 1 whose phase A may end. -/
def refutation : Sweep :=
  { req := { ctx := 0, refute := true, target := 1, hid := 0, tag := 0, act := 0, core := 0,
             d := { dblock := 0, dport := 0, route := .same, rel := false, ownTag := false } }
    ids := [1] }

/-- A saved context that has waited since cycle 7 for the sake of one token alone, which stands under the refuted HID. -/
def waitsUnderRefuted : State :=
  State.reset.setCtx 0 { st := .saved, waitSince := 7, overflow := [{ hid := 1 }], sweep := some refutation }

theorem waitSince_waitsUnderRefuted (s : State) (h : exec (.sweepPhaseB 0) waitsUnderRefuted = .next s) : (s.ctx 0).waitSince = 0 := by
  cases h
  rfl

/-- Refutes O53: phase B of a refutation also settles since when the context waits (R330), which the statement leaves out. Once the one token
of `waitsUnderRefuted` is discarded its context has no work and waits no longer, where the statement has it waiting since cycle 7. -/
theorem not_speculationSteps : ¬ Obligations.SpeculationSteps := by
  intro h
  obtain ⟨-, hsweep, -⟩ := h
  have hphaseB := ((hsweep waitsUnderRefuted 0 refutation rfl).1 rfl rfl).1 rfl
  exact absurd (waitSince_waitsUnderRefuted _ hphaseB) (by decide)

end Sys2Proof.Machine

/-! SUPPORT. An acknowledgement that comes for a read (O55). -/

namespace Sys2Proof.Machine

/-- An agent's read of host memory, in flight. -/
def readRequest : Request := { id := 0, pkg := none, ctx := 0, what := .read }

/-- The read is the one request in flight. -/
def readsHost : State := { State.reset with reqs := [readRequest] }

/-- An acknowledgement answers no read. -/
theorem exec_ack_readsHost : exec (.hostCompletion 0 .ack) readsHost = .next readsHost := rfl

/-- Refutes O55: the statement has every request but a lane's load take an acknowledgement as its answer, and so an agent's read too, which
would no longer be in flight; but a read waits for data, and the acknowledgement of `readsHost` changes nothing. -/
theorem not_hostSteps : ¬ Obligations.HostSteps := by
  intro h
  obtain ⟨-, -, -, -, -, -, -, hcompletion, -⟩ := h
  obtain ⟨u, hanswered, hack⟩ := (hcompletion readsHost 0 readRequest rfl (fun _ hx => nomatch hx) (fun _ _ => nofun)).2.2 fun _ _ _ => nofun
  cases exec_ack_readsHost.symm.trans hack
  exact absurd (congrArg (Option.map State.reqs) hanswered) (by decide)

end Sys2Proof.Machine

/-! SUPPORT. A master's writes to the registers, by whether the boot has completed and the master is the owner (R419, R426). -/

namespace Sys2Proof.Machine

section
variable {s : State} {m : Master}

theorem State.registersLive_iff : s.registersLive = true ↔ s.sec.bootState = 2 := beq_iff_eq

theorem State.ownerWrite_of_owned (hboot : s.sec.bootState = 2) (howned : s.owned m = true) (f : State → State) : s.ownerWrite m f = f s := by
  rw [ownerWrite, registersLive_iff.2 hboot, howned]
  rfl

theorem State.ownerWrite_of_not_owned (hboot : s.sec.bootState = 2) (howned : s.owned m = false) (f : State → State) :
    s.ownerWrite m f = s.refuseWrite := by
  rw [ownerWrite, registersLive_iff.2 hboot, howned]
  rfl

theorem State.ownerWrite_of_not_booted (hboot : s.sec.bootState ≠ 2) (f : State → State) : s.ownerWrite m f = s :=
  ownerWrite_of_not_live (Bool.eq_false_iff.2 (mt registersLive_iff.1 hboot)) m f

end

end Sys2Proof.Machine

/-! SUPPORT. Boot, locks, keys, attestation, trips and reset (O56). -/

namespace Sys2Proof.Machine

namespace State

variable {s : State} {m : Master} {off : Nat} {bytes : List Byte}

/-! ### Staging and START (R419, R426) -/

theorem stage_before_boot (hstate : s.sec.bootState = 0) (hm : Master.boots m = true) (hfits : off + bytes.length ≤ 4194304) :
    s.stage m off bytes = { s with sec := { s.sec with staging := mputs s.sec.staging off bytes } } := if_pos ⟨hstate, hm, hfits⟩

theorem startBoot_before_boot (hstate : s.sec.bootState = 0) (hm : Master.boots m = true) :
    s.startBoot m = { s with sec := { s.sec with bootState := 1 } } := if_pos ⟨hstate, hm⟩

theorem stage_after_start (hstate : s.sec.bootState ≠ 0) : s.stage m off bytes = s.afterBoot m := if_neg fun h => hstate h.1

theorem startBoot_after_start (hstate : s.sec.bootState ≠ 0) : s.startBoot m = s.afterBoot m := if_neg fun h => hstate h.1

theorem afterBoot_eq_self (h : s.sec.bootState ≠ 2 ∨ s.owned m = true) : s.afterBoot m = s := by
  by_cases hboot : s.sec.bootState = 2
  · exact ownerWrite_of_owned hboot (h.resolve_left (not_not.2 hboot)) id
  · exact ownerWrite_of_not_booted hboot id

/-! ### The verdict (R425, R427, R428) -/

theorem endBoot_failed (hstate : s.sec.bootState = 1) (hfault : s.bootFault ≠ 0) :
    s.endBoot = { s with sec := { s.sec with bootState := 3, bootFail := s.bootFault } } :=
  (if_neg (not_not.2 hstate)).trans (if_pos hfault)

/-- The machine once the staged image has verified. -/
def verified (s : State) : State :=
  let measure := Config.sha384 (s.staged 0 (0x800 + s.bodySize + 64 + 3309))
  { State.reset with
    flow := s.flow
    homes := s.homes
    host := { State.reset.host with out := s.host.out }
    sec := { State.reset.sec with
      bootState := 2, keys := s.bootKeys, measure, boots := s.sec.boots + 1, staging := s.sec.staging, svnUp := s.raiseSvn,
      alias_ := Config.aliasPair measure, report := Config.certificates ++ Config.aliasCertificate (Config.aliasPair measure) } }

theorem endBoot_verified (hstate : s.sec.bootState = 1) (hfault : s.bootFault = 0) : s.endBoot = s.verified :=
  (if_neg (not_not.2 hstate)).trans (if_neg (not_not.2 hfault))

theorem le_raiseSvn (s : State) : s.sec.svnUp ≤ s.raiseSvn := by
  unfold raiseSvn
  split
  · next hlt => exact BitVec.le_of_lt hlt
  · exact BitVec.le_refl _

theorem nget_graph {α : Type} (f : Nat → α) {l : List Nat} {i : Nat} (hi : i ∈ l) : nget (l.map fun i => (i, f i)) i = some (f i) := by
  induction l with
  | nil => nomatch hi
  | cons j r ih =>
    rw [List.map_cons, nget]
    split
    · next hj => rw [hj]
    · next hj => exact ih ((List.mem_cons.1 hi).resolve_left (Ne.symm hj))

/-! ### Locks and keys (R421, R424) -/

theorem setLock_eq (s : State) (v : Word) : s.setLock v = { s with sec := { s.sec with lock := s.sec.lock || v.getLsbD 0 } } := by
  unfold setLock
  cases v.getLsbD 0
  · simp
  · simp

section
variable {v : Word} {slot : BitVec 8} (hslot : v.extractLsb' 0 8 = slot)
include hslot

theorem loadKey_go (hgo : v.getLsbD 31 = true) (hfree : s.sec.lock = false ∨ (s.keySlot slot).world = false) :
    s.loadKey v = { s with sec := { s.sec with
      keys := nput s.sec.keys slot.toNat { world := v.getLsbD 8, key := s.sec.keyData, gen := (s.keySlot slot).gen + 1 } } } := by
  subst hslot
  exact if_neg (by rcases hfree with h | h <;> simp [hgo, bits, h])

theorem loadKey_locked (hlock : s.sec.lock = true) (hworld : (s.keySlot slot).world = true) : s.loadKey v = s := by
  subst hslot
  exact if_pos (by simp [hlock, bits, hworld])

end

/-! ### Attestation (R428) -/

/-- The body of a report on the state at which it is asked for. -/
def reportOf (s : State) : List Byte :=
  Config.reportBody s.sec.nonce s.sec.measure s.imageSvn s.sec.lock s.links.pkgId (Config.sha384 (s.worldWords.map bytesOfWord).flatten)

theorem attBusy_askReport (s : State) : s.askReport.sec.attBusy = true := by
  unfold askReport
  split
  · next hbusy => exact hbusy
  · rfl

theorem attBusy_endReport (s : State) : s.endReport.sec.attBusy = false := by
  unfold endReport
  split
  · next hidle => simpa using hidle
  · split <;> rfl

theorem report_endReport_askReport (hidle : s.sec.attBusy = false) :
    s.askReport.endReport.sec.report = s.reportOf ++ Config.aliasSignatures s.sec.alias_ s.reportOf := by
  have hlock : (s.sec.lock.toNat != 0) = s.sec.lock := by cases s.sec.lock <;> rfl
  have hasked : s.askReport = { s with sec := { s.sec with
      attBusy := true, attSnap := [s.sec.nonce.toNat, s.sec.lock.toNat, s.links.pkgId.toNat, s.worldHash.toNat] } } :=
    if_neg (ne_true_of_eq_false hidle)
  rw [hasked, endReport]
  simp only [BitVec.ofNat_toNat, BitVec.setWidth_eq, hlock]
  rfl

/-! ### Trips (R432, R433) -/

theorem tripStep_eq_resetAll {hbm : Bool} {temp : Nat} (htrip : (if hbm then 105 else 110) ≤ temp) :
    ∃ u : State, s.tripStep hbm temp = u.resetAll := by
  rw [tripStep, if_neg (not_lt.2 htrip)]
  split
  · exact ⟨_, rfl⟩
  · exact ⟨s, rfl⟩

end State

/-- Settles O56: each step by the state of the boot, of the lock and of the report in which it finds the machine. -/
theorem securitySteps : Obligations.SecuritySteps := by
  refine ⟨fun s off bytes hstate hfits => ⟨?_, ?_, ?_, ?_⟩, fun s m off bytes hstate => ⟨fun h => ⟨?_, ?_⟩,
    fun hboot howned => ⟨?_, ?_⟩⟩,
    fun s hstate => ⟨fun hfault => ?_, fun hfault => ?verified⟩,
    fun s m v hboot howned => ⟨?_, fun hgo hfree => ?_, fun hlock hworld => ?_, fun hidle => ?asked⟩,
    fun s hbusy => ⟨_, rfl, s.attBusy_endReport⟩, fun s => ?reset, fun s hbm temp htrip => ?trip⟩
  case verified =>
    refine ⟨_, congrArg Host.Outcome.next (State.endBoot_verified hstate hfault), rfl, rfl, s.le_raiseSvn,
      fun i hi => ⟨_, State.nget_graph _ (List.mem_range.2 hi), rfl⟩⟩
  case asked =>
    exact ⟨_, congrArg Host.Outcome.next (State.ownerWrite_of_owned hboot howned _), s.attBusy_askReport, _, rfl, State.attBusy_endReport _,
      State.report_endReport_askReport hidle⟩
  case reset => exact ⟨_, rfl, rfl, rfl, rfl, rfl, rfl, rfl, rfl, rfl, rfl, rfl, rfl, rfl, rfl, rfl, rfl, rfl, rfl⟩
  case trip =>
    obtain ⟨u, hu⟩ := State.tripStep_eq_resetAll (s := s) htrip
    exact ⟨_, congrArg Host.Outcome.next hu, rfl, rfl, rfl, rfl, rfl, rfl, rfl⟩
  all_goals refine congrArg Host.Outcome.next ?_
  · exact State.stage_before_boot hstate rfl hfits
  · exact State.stage_before_boot hstate rfl hfits
  · exact State.startBoot_before_boot hstate rfl
  · exact State.startBoot_before_boot hstate rfl
  · rw [State.stage_after_start hstate, State.afterBoot_eq_self h]
  · rw [State.startBoot_after_start hstate, State.afterBoot_eq_self h]
  · rw [State.stage_after_start hstate, State.afterBoot, State.ownerWrite_of_not_owned hboot howned]
  · rw [State.startBoot_after_start hstate, State.afterBoot, State.ownerWrite_of_not_owned hboot howned]
  · exact State.endBoot_failed hstate hfault
  · rw [State.ownerWrite_of_owned hboot howned, State.setLock_eq]
  · rw [State.ownerWrite_of_owned hboot howned, State.loadKey_go rfl hgo hfree]
  · rw [State.ownerWrite_of_owned hboot howned, State.loadKey_locked rfl hlock hworld]

end Sys2Proof.Machine

/-! SUPPORT. Power, temperature, I3C, memory through the management registers, soft errors and replay (O57). -/

namespace Sys2Proof.Machine

theorem mem_of_nget {α : Type} {m : NMap α} {k : Nat} {v : α} (h : nget m k = some v) : (k, v) ∈ m := by
  induction m with
  | nil => nomatch h
  | cons p r ih =>
    rw [nget] at h
    split at h
    · next hk => cases hk; cases h; exact List.mem_cons_self
    · exact List.mem_cons_of_mem _ (ih h)

namespace State

variable {s : State} {m : Master}

@[simp] theorem event_mgmt (s : State) (e : Event) : (s.event e).mgmt = s.mgmt :=
  (congrArg State.mgmt (event_spares (u := {}) (c := 0) s e).owners :)

/-! ### Power (R430, R431) -/

/-- The machine with a new average of its power. -/
def averaged (s : State) (now : BitVec 12) (capped : Bool) : State := { s with mgmt := { s.mgmt with pwrNow := now, capped } }

/-- The event of capping that begins, SUB 0, or ends, SUB 1. -/
def capEvent (s : State) (now : BitVec 12) (sub : Byte) : Event :=
  { typ := 16, sub, words := [s.mgmt.pwrLimit.setWidth 64, now.setWidth 64] }

section
variable {now : BitVec 12}

theorem powerStep_above (h : s.powerLimit < now.toNat) : s.powerStep now =
    if s.mgmt.capped then s.averaged now true else (s.averaged now true).event (s.capEvent now 0) := by
  simp only [powerStep, h, decide_true, Bool.true_or, eq_comm (a := true)]
  rfl

theorem powerStep_below (h : now.toNat < s.powerLimit) : s.powerStep now =
    if s.mgmt.capped then (s.averaged now false).event (s.capEvent now 1) else s.averaged now false := by
  simp only [powerStep, h.not_gt, h.ne', decide_false, Bool.and_false, Bool.or_false]
  cases s.mgmt.capped <;> rfl

theorem powerStep_at (h : now.toNat = s.powerLimit) : s.powerStep now = s.averaged now s.mgmt.capped := by
  simp only [powerStep, h, lt_irrefl, decide_false, decide_true, Bool.and_true, Bool.false_or, if_true]
  rfl

end

/-! ### Temperatures (R432) -/

/-- The greater of two temperatures, as the step that reads a stack takes it. -/
def hotter (m : BitVec 8) (p : Nat × BitVec 8) : BitVec 8 := if m < p.2 then p.2 else m

theorem foldl_hotter (l : List (Nat × BitVec 8)) (m : BitVec 8) : m ≤ l.foldl hotter m ∧ (∀ p ∈ l, p.2 ≤ l.foldl hotter m) ∧
    (l.foldl hotter m = m ∨ ∃ p ∈ l, p.2 = l.foldl hotter m) := by
  induction l generalizing m with
  | nil => simp
  | cons p r ih =>
    obtain ⟨hle, hall, hsome⟩ := ih (hotter m p)
    have hm : m ≤ hotter m p ∧ p.2 ≤ hotter m p ∧ (hotter m p = m ∨ hotter m p = p.2) := by
      unfold hotter
      split
      · next hlt => exact ⟨BitVec.le_of_lt hlt, BitVec.le_refl _, .inr rfl⟩
      · next hge => exact ⟨BitVec.le_refl _, BitVec.not_lt.1 hge, .inl rfl⟩
    rw [List.foldl_cons, List.forall_mem_cons, List.exists_mem_cons_iff]
    refine ⟨BitVec.le_trans hm.1 hle, ⟨BitVec.le_trans hm.2.1 hle, hall⟩, ?_⟩
    obtain hsame | hlater := hsome
    · rw [hsame]
      tauto
    · exact .inr (.inr hlater)

/-- The hottest of some temperatures is the temperature of one of them. -/
theorem exists_mem_eq_foldl_hotter {l : List (Nat × BitVec 8)} {p : Nat × BitVec 8} (hp : p ∈ l) : ∃ q ∈ l, q.2 = l.foldl hotter 0 := by
  obtain ⟨-, hall, hzero | hsome⟩ := foldl_hotter l 0
  · refine ⟨p, hp, ?_⟩
    have hle := hall p hp
    rw [hzero] at hle ⊢
    bv_omega
  · exact hsome

/-- A stack's bit, set or cleared. -/
def putBit (w : BitVec 16) (i : Nat) (b : Bool) : BitVec 16 := if b then w ||| (1#16 <<< i) else w &&& ~~~(1#16 <<< i)

theorem getLsbD_putBit (w : BitVec 16) {i : Nat} (hi : i < 16) (b : Bool) (j : Nat) :
    (putBit w i b).getLsbD j = if j = i then b else w.getLsbD j := by
  have hone : (1#16 <<< i).getLsbD j = decide (j = i) := by
    simp only [BitVec.getLsbD_shiftLeft, BitVec.getLsbD_one]
    by_cases hj : j = i
    · simp [hj, hi]
    · simp [hj]
      omega
  have hlow : w.getLsbD j = true → j < 16 := BitVec.lt_of_getLsbD
  unfold putBit
  cases b
  · simp only [Bool.false_eq_true, if_false, BitVec.getLsbD_and, BitVec.getLsbD_not, hone]
    by_cases hj : j = i <;> simp [hj]
    exact hlow
  · simp only [if_true, BitVec.getLsbD_or, hone]
    by_cases hj : j = i <;> simp [hj]

/-- What a reading of a stack leaves of the management registers, with an event or without. -/
theorem throttleStep_mgmt (s : State) (stack : BitVec 4) (temp : BitVec 8) : (s.throttleStep stack temp).mgmt =
    let temps := nput s.mgmt.hbmTemp stack.toNat temp
    { s.mgmt with hbmTemp := temps, hbmMax := temps.foldl hotter 0, hbmThr := putBit s.mgmt.hbmThr stack.toNat (decide (85 ≤ temp.toNat)),
                  hbmQuarter := putBit s.mgmt.hbmQuarter stack.toNat (decide (95 ≤ temp.toNat)) } := by
  unfold throttleStep
  dsimp only
  split
  · rfl
  · rw [event_mgmt]; rfl

/-! ### Memory through the management registers (R434) -/

/-- Who owns the registers is in the owner's part. -/
theorem owned_of_ownersPart {t : State} (h : t.ownersPart = s.ownersPart) (m : Master) : t.owned m = s.owned m :=
  (congrArg (fun x : State => x.owned m) h :)

theorem owned_l2Enter (s : State) (pins : List Nat) (slot : BitVec 8) (line : Nat) (m : Master) : (s.l2Enter pins slot line).owned m = s.owned m :=
  owned_of_ownersPart (l2Enter_frame (u := {}) s pins slot line).owners m

theorem memdataReadStep_owned (hboot : s.sec.bootState = 2) (howned : s.owned m = true) : s.memdataReadStep m =
    let a := s.mgmt.memAddr.toNat
    let u := s.l2Enter [] (s.regionKey a) (lineOf a)
    ((State.answerMaster { u with mgmt := { u.mgmt with memAddr := BitVec.ofNat 64 ((a + 8) % 2 ^ 52) } } m (wordOfBytes ((List.range 8).map fun i =>
      if Config.memBytes ≤ a + i then 0xFF else s.homeByte (s.regionKey a) (a + i)))).bump) := by
  unfold memdataReadStep memRead
  rw [registersLive_iff.2 hboot]
  simp only [owned_l2Enter, howned, if_true, Bool.not_true, Bool.false_eq_true, if_false]

/-! ### I3C (R434) -/

section
variable {off v : Nat}

/-- The message of one access over I3C. -/
def i3cMessage (op : Byte) (off v : Nat) : List Byte := op :: bytesOfNat 4 off ++ bytesOfNat 8 v

theorem i3cMessage_fields (op : Byte) (hoff : off < 2 ^ 32) (hv : v < 2 ^ 64) : (i3cMessage op off v).length = 13 ∧
    (i3cMessage op off v).isEmpty = false ∧
    natOfBytes (((i3cMessage op off v).drop 1).take 4) = off ∧ wordOfBytes (((i3cMessage op off v).drop 5).take 8) = BitVec.ofNat 64 v := by
  have hat : (((i3cMessage op off v).drop 1).take 4) = bytesOfNat 4 off := List.take_left' (length_bytesOfNat 4 off)
  have hword : ((i3cMessage op off v).drop 5).take 8 = bytesOfWord (BitVec.ofNat 64 v) := by
    rw [bytesOfWord_eq_bytesOfNat, BitVec.toNat_ofNat, Nat.mod_eq_of_lt hv]
    exact List.take_of_length_le (length_bytesOfNat 8 v).le
  refine ⟨by simp [i3cMessage], rfl, ?_, ?_⟩
  · rw [hat, natOfBytes_bytesOfNat, Nat.mod_eq_of_lt hoff]
  · rw [hword, wordOfBytes_bytesOfWord]

theorem i3cStep_write (hoff : off < 2 ^ 32) (hv : v < 2 ^ 64) (halign : off % 8 = 0) :
    s.i3cStep (i3cMessage 2 off v) = s.regWrite .bmc off (BitVec.ofNat 64 v) := by
  obtain ⟨hlength, hempty, hat, hword⟩ := i3cMessage_fields 2 hoff hv
  simp only [i3cStep, hlength, hempty, hat, hword, halign]
  rfl

theorem i3cStep_read (hoff : off < 2 ^ 32) (hv : v < 2 ^ 64) (halign : off % 8 = 0) (hmem : off ≠ 0x300028) :
    s.i3cStep (i3cMessage 1 off v) = { s with mgmt := { s.mgmt with i3cRead := some (s.regRead off) } } := by
  obtain ⟨hlength, hempty, hat, hword⟩ := i3cMessage_fields 1 hoff hv
  simp only [i3cStep, hlength, hempty, hat, hword, halign, if_neg hmem]
  rfl

end

/-! ### Soft errors (R343, R435) -/

theorem eccStep_found {w : EccWhere} (n : Nat) (h : ∀ m, w ≠ .matching m) : s.eccStep n (some w) = (s.countError 5).badAt w := by
  cases w with
  | matching m => exact absurd rfl (h m)
  | load | sram | fill | line | version => rfl

/-! ### Replay (R437) -/

section
variable {n : BitVec 12} (hreplay : s.replayCtx = some n)
include hreplay

theorem injectStep_logged {e : LogEntry} (hnext : (s.nextLog fun e => e.kind == 1) = some e) : ∃ vec, s.injectStep =
    (s.consumeLog e).deliverIngress vec { s.rewriteIngress n (s.loggedToken e.w2 e.w3) with act := e.act } := by
  rw [injectStep, hreplay, hnext]
  exact ⟨_, rfl⟩

theorem injectStep_end (hchecked : s.checked n = true) (hnext : (s.nextLog fun e => e.kind == 1) = none) (hend : (s.nextLog fun _ => true) = none) :
    s.injectStep = s.replayStop n 0 0xFF s.dbg.recHead.toNat := by
  rw [injectStep, hreplay, hnext]
  exact if_pos ⟨hchecked, by rw [hend]; rfl⟩

theorem replayTimeoutStep_late {c : Nat} {e : LogEntry} (hchecked : s.checked n = true) (hnext : s.nextChord c = some e)
    (hlate : (nget s.dbg.nextAt c).getD (s.ctx n).since + 1048576 ≤ s.cycle) : s.replayTimeoutStep c = s.replayStop n 3 c e.off := by
  rw [replayTimeoutStep, hreplay]
  simp only [hchecked, hnext]
  rw [if_neg (by simp), if_pos (by simpa using hlate)]

end

end State

/-- Settles O57: each step by how its reading compares, by what it finds logged, or by the structure that the error strikes. -/
theorem managementSteps : Obligations.ManagementSteps := by
  refine ⟨fun s now => ⟨fun h => ?_, fun h => ?_, fun h => ?_⟩, fun s die temp => ?_, fun s stack temp => ?throttle, fun s code hboot hcode => ?cool,
    fun s m v hboot howned => ⟨?write, ?read⟩, fun s off v hoff halign hv => ⟨?i3cWrite, fun hmem => ?i3cRead⟩,
    fun s n => ⟨fun hn => ?count, fun w hw => ?found, fun m => ?matching⟩, fun s n e hreplay hnext => ?inject,
    fun s n hreplay hchecked hnext hend => ?stop, fun s core n e hreplay hchecked hnext hlate => ?late⟩
  case throttle =>
    refine ⟨_, rfl, ?_⟩
    rw [State.throttleStep_mgmt]
    have hi : stack.toNat < 16 := stack.isLt
    refine ⟨nget_nput_same _ _ _, (State.foldl_hotter _ 0).2.1, State.exists_mem_eq_foldl_hotter (mem_of_nget (nget_nput_same _ _ _)),
      ?_, ?_, fun i hne => ?_⟩
    · exact (State.getLsbD_putBit _ hi _ _).trans (if_pos rfl)
    · exact (State.getLsbD_putBit _ hi _ _).trans (if_pos rfl)
    · exact (State.getLsbD_putBit _ hi _ _).trans (if_neg hne)
  case i3cWrite => exact ⟨_, congrArg Host.Outcome.next (State.i3cStep_write hoff hv halign), rfl⟩
  case i3cRead => exact ⟨_, _, congrArg Host.Outcome.next (State.i3cStep_read hoff hv halign hmem), rfl, rfl, rfl⟩
  case inject =>
    obtain ⟨vec, hstep⟩ := State.injectStep_logged hreplay hnext
    exact ⟨vec, congrArg Host.Outcome.next hstep⟩
  all_goals refine congrArg Host.Outcome.next ?_
  case cool =>
    rw [State.coolStep, State.registersLive_iff.2 hboot]
    exact (if_neg (by simp)).trans ((if_pos (.inl rfl)).trans (if_neg hcode))
  case write => exact State.ownerWrite_of_owned hboot howned _
  case read => exact State.memdataReadStep_owned hboot howned
  case count => exact if_pos hn
  case found => exact State.eccStep_found _ hw
  case matching =>
    have hthree : n.toNat = 3 ↔ n = 3 := by bv_omega
    simp only [State.eccStep, hthree]
  case stop => exact State.injectStep_end hreplay hchecked hnext hend
  case late => exact State.replayTimeoutStep_late hreplay hchecked hnext hlate
  · exact State.powerStep_above h
  · exact State.powerStep_below h
  · exact State.powerStep_at h
  · simp [State.temperatureStep]

end Sys2Proof.Machine

/-! SUPPORT. Walks, the resume and the refusal of a fault, and invalidations (O54). -/

namespace Sys2Proof.Machine

namespace State

variable {s : State} {n : BitVec 12}

/-! ### An open fault (R389, R390, R398) -/

section
variable {f : PFault} (hopen : (s.xlt.faults.find? fun x => x.id == f.id) = some f)
include hopen

theorem resumeFault_again (hagain : (s.ctx f.ctx).resumes.contains f.id = true) : s.resumeFault f.id = s := by
  simp only [resumeFault, hopen, hagain, if_true]

theorem refuseFault_again (hagain : (s.ctx f.ctx).resumes.contains f.id = true) : s.refuseFault f.id = s := by
  simp only [refuseFault, hopen, hagain, if_true]

variable (hfirst : (s.ctx f.ctx).resumes.contains f.id = false)
include hfirst

theorem resumeFault_here (hhere : s.here f.ctx = true) :
    s.resumeFault f.id = ((s.closeFault f.id).resumeEngines f.ctx f.id).resumeCores f.ctx f.id := by
  simp only [resumeFault, hopen, hfirst, hhere, Bool.false_eq_true, if_false, if_true]

theorem refuseFault_first : s.refuseFault f.id =
    ((nkeys (((s.closeFault f.id).refuseEngines f.ctx f.id).refuseSaved f.ctx f.id).cores).foldl (fun s c => s.refuseCore f.ctx f.id c)
      (((s.closeFault f.id).refuseEngines f.ctx f.id).refuseSaved f.ctx f.id)).settleWait f.ctx := by
  simp only [refuseFault, hopen, hfirst, Bool.false_eq_true, if_false]

variable (haway : s.here f.ctx = false)
include haway

/-- A resume of a context that is away is noted. -/
theorem resumeFault_noted (hst : (s.ctx f.ctx).st = .saved ∨ (s.ctx f.ctx).st = .leaving ∨ (s.ctx f.ctx).st = .stopped) :
    s.resumeFault f.id = (s.modCtx f.ctx fun x => { x with resumes := x.resumes ++ [f.id] }).settleWait f.ctx := by
  obtain hst | hst | hst := hst <;> simp only [resumeFault, hopen, hfirst, haway, hst, Bool.false_eq_true, if_false]

theorem resumeFault_restoring (hst : (s.ctx f.ctx).st = .resident) : s.resumeFault f.id =
    ((s.modCtx f.ctx fun x => { x with resumes := x.resumes ++ [f.id] }).closeFault f.id).resumeEngines f.ctx f.id := by
  simp only [resumeFault, hopen, hfirst, haway, hst, Bool.false_eq_true, if_false]

theorem resumeFault_ended (hst : (s.ctx f.ctx).st = .absent) : s.resumeFault f.id = (s.closeFault f.id).resumeEngines f.ctx f.id := by
  simp only [resumeFault, hopen, hfirst, haway, hst, Bool.false_eq_true, if_false]

end

/-! ### Invalidations (R397, R399) -/

/-- What is left of cached translations is what a test does not cover. -/
theorem mem_utlb_dropXlt (s : State) (p : BitVec 12 → Nat → Nat → Bool) (c : Nat) (l : Leaf) :
    l ∈ ((s.dropXlt p).core c).utlb ↔ l ∈ (s.core c).utlb ∧ p l.ctx l.base (l.base + l.size) = false := by
  simp only [core, dropXlt, nget_map fun k : Core => { k with utlb := k.utlb.filter fun l => !p l.ctx l.base (l.base + l.size) }]
  cases nget s.cores c <;> simp

theorem mem_leaves_dropXlt (s : State) (p : BitVec 12 → Nat → Nat → Bool) (i : Nat) (l : Leaf) :
    l ∈ (nget (s.dropXlt p).xlt.leaves i).getD [] ↔ l ∈ (nget s.xlt.leaves i).getD [] ∧ p l.ctx l.base (l.base + l.size) = false := by
  have hleaves : nget (s.dropXlt p).xlt.leaves i = (nget s.xlt.leaves i).map fun r => r.filter fun l => !p l.ctx l.base (l.base + l.size) :=
    nget_map _ s.xlt.leaves i
  rw [hleaves]
  cases nget s.xlt.leaves i <;> simp

/-- What an answer is by which an invalidation has begun: every covered translation is dropped, and BUSY is set. -/
def Begins (s : State) (a : Answer) (op : Nat) (n : BitVec 12) (p : BitVec 12 → Nat → Nat → Bool) : Prop :=
  ∃ u v, a = .next u ∧ u.xlt.busy = true ∧ u.xlt.err = 0 ∧ u.xlt.inval = some v ∧ v.op = op ∧ (op ≠ 3 → v.ctx = n) ∧
    u.homes = s.homes ∧ u.ctxs = s.ctxs ∧
    (∀ c l, l ∈ (u.core c).utlb ↔ l ∈ (s.core c).utlb ∧ p l.ctx l.base (l.base + l.size) = false) ∧
    (∀ i l, l ∈ (nget u.xlt.leaves i).getD [] ↔ l ∈ (nget s.xlt.leaves i).getD [] ∧ p l.ctx l.base (l.base + l.size) = false)

theorem begins_beginInval {a : Answer} {op : Nat} {k : BitVec 12} {p : BitVec 12 → Nat → Nat → Bool} (ha : a = .next (s.beginInval op k p))
    (hk : op ≠ 3 → k = n) : s.Begins a op n p :=
  ⟨_, _, ha, rfl, rfl, rfl, rfl, hk, rfl, rfl, s.mem_utlb_dropXlt p, s.mem_leaves_dropXlt p⟩

/-- The bytes of a unit of a range (R397). -/
def unitBytes (gran : Nat) : Nat := if gran = 0 then 4096 else if gran = 1 then 2097152 else 1073741824

theorem invalCommand_broken (hidle : s.xlt.busy = false) {gran count : Nat} (h : gran = 3 ∨ count = 0) :
    s.invalCommand 1 n gran count = { s with xlt := { s.xlt with err := 1 } } := by
  obtain h | h := h <;> simp [invalCommand, hidle, h]

theorem invalCommand_range (hidle : s.xlt.busy = false) {gran count : Nat} (hgran : gran ≠ 3) (hcount : count ≠ 0) :
    s.invalCommand 1 n gran count = s.beginInval 1 n fun k a b =>
      k == n && decide (a < s.xlt.invAddr.toNat + count * unitBytes gran) && decide (s.xlt.invAddr.toNat < b) := by
  match gran with
  | 0 | 1 => simp [invalCommand, hidle, hcount, unitBytes]
  | g + 2 =>
    have hg : g ≠ 1 := fun h => hgran (congrArg (· + 2) h)
    simp [invalCommand, hidle, hcount, hg, unitBytes]

section
variable {m : Master} (hboot : s.sec.bootState = 2) (howned : s.owned m = true) (hidle : s.xlt.busy = false)
include hboot howned hidle

theorem exec_invalidateRange {gran : BitVec 2} {count : BitVec 16} (hgran : gran ≠ 3) (hcount : count ≠ 0) :
    exec (.invalidateRange m n gran count) s = .next (s.beginInval 1 n fun k a b =>
      k == n && decide (a < s.xlt.invAddr.toNat + count.toNat * unitBytes gran.toNat) && decide (s.xlt.invAddr.toNat < b)) :=
  congrArg Host.Outcome.next ((ownerWrite_of_owned hboot howned _).trans (invalCommand_range hidle (by bv_omega) (by bv_omega)))

theorem exec_invalidateContext : exec (.invalidateContext m n) s = .next (s.beginInval 2 n fun k _ _ => k == n) := by
  refine congrArg Host.Outcome.next ((ownerWrite_of_owned hboot howned _).trans ?_)
  simp [invalCommand, hidle]

theorem exec_invalidateAll : exec (.invalidateAll m) s = .next (s.beginInval 3 0 fun _ _ _ => true) := by
  refine congrArg Host.Outcome.next ((ownerWrite_of_owned hboot howned _).trans ?_)
  simp [invalCommand, hidle]

end

/-! ### The end of an invalidation (R399) -/

section
variable {v : Inval} (hinval : s.xlt.inval = some v)
include hinval

theorem invalEnd_open (h : s.invalDone (s.invalMark v) = false) : s.invalEnd = { s with xlt := { s.xlt with inval := some (s.invalMark v) } } := by
  simp [invalEnd, hinval, h]

theorem invalEnd_done (h : s.invalDone (s.invalMark v) = true) (hop : (s.invalMark v).op ≠ 1) :
    s.invalEnd = { s with xlt := { s.xlt with busy := false, inval := none } } := by
  simp [invalEnd, hinval, h, hop]

theorem invalEnd_range {u : State} (h : s.invalDone (s.invalMark v) = true) (hop : (s.invalMark v).op = 1)
    (hflush : (nkeys s.cores).foldl (fun (acc : Option State) c => acc.bind fun s => s.flushAll c) (some s) = some u) :
    s.invalEnd = { u with xlt := { u.xlt with busy := false, inval := none } } := by
  simp [invalEnd, hinval, h, hop, hflush]

end

end State

/-- Settles O54: a walk by what filling a cache leaves alone, a resume by where its context is, and an invalidation by what `dropXlt` leaves. -/
theorem translationSteps : Obligations.TranslationSteps := by
  refine ⟨fun s core n va => ?walk, fun s m f hboot howned hopen => ⟨fun hagain => ⟨?_, ?_⟩, fun hfirst =>
      ⟨fun hhere => ?_, fun haway hst => ?_, fun haway hst => ?_, fun haway hst => ?_, ?_⟩⟩,
    fun s m n gran count hboot howned hidle => ⟨fun hbad => ?_, fun hgran hcount => ?range, ?context, ?all⟩,
    fun s v hinval => ⟨fun hopen => ?_, fun hdone hop => ?_, fun hdone hop u hflush => ?_⟩⟩
  case walk =>
    have hcaches := State.CachesOnly.fillXlt s { core := some core.toNat, die := dieOf core.toNat, ctx := n } va.toNat
    exact ⟨_, rfl, hcaches.rest, hcaches.cores⟩
  case range =>
    have hunit : State.unitBytes gran.toNat = if gran = 0 then 4096 else if gran = 1 then 2097152 else 1073741824 := by
      simp only [State.unitBytes, ← BitVec.toNat_inj]
      rfl
    have hexec := State.exec_invalidateRange (n := n) hboot howned hidle hgran hcount
    rw [hunit] at hexec
    exact State.begins_beginInval hexec fun _ => rfl
  case context => exact State.begins_beginInval (State.exec_invalidateContext hboot howned hidle) fun _ => rfl
  case all => exact State.begins_beginInval (State.exec_invalidateAll hboot howned hidle) fun h => absurd rfl h
  all_goals refine congrArg Host.Outcome.next ?_
  · exact (State.ownerWrite_of_owned hboot howned _).trans (State.resumeFault_again hopen hagain)
  · exact (State.ownerWrite_of_owned hboot howned _).trans (State.refuseFault_again hopen hagain)
  · exact (State.ownerWrite_of_owned hboot howned _).trans (State.resumeFault_here hopen hfirst hhere)
  · exact (State.ownerWrite_of_owned hboot howned _).trans (State.resumeFault_noted hopen hfirst haway hst)
  · exact (State.ownerWrite_of_owned hboot howned _).trans (State.resumeFault_restoring hopen hfirst haway hst)
  · exact (State.ownerWrite_of_owned hboot howned _).trans (State.resumeFault_ended hopen hfirst haway hst)
  · exact (State.ownerWrite_of_owned hboot howned _).trans (State.refuseFault_first hopen hfirst)
  · exact (State.ownerWrite_of_owned hboot howned _).trans (State.invalCommand_broken hidle (by bv_omega))
  · exact State.invalEnd_open hinval hopen
  · exact State.invalEnd_done hinval hdone hop
  · exact State.invalEnd_range hinval hdone hop hflush

end Sys2Proof.Machine

/-! SUPPORT. Residency, pre-emption and restore, launches, and the owner's context commands (O52). -/

namespace Sys2Proof.Machine

namespace State

variable {s : State} {n : BitVec 12}

/-! ### Residency (R330) -/

section
variable {x : BitVec 12} (hnext : s.noteWaiting.nextCtx = some x)
include hnext

theorem decideStep_grants (hstay : s.noteWaiting.leaving = true ∨ s.noteWaiting.idleCtx = none) (hslots : s.noteWaiting.slotsTaken < 16)
    (hpkg : s.noteWaiting.links.pkgValid = true) : s.decideStep = s.noteWaiting.grantSlot x := by
  have hidle : (if s.noteWaiting.leaving then none else s.noteWaiting.idleCtx) = none := by
    obtain h | h := hstay <;> simp [h]
  simp only [decideStep, hnext, hidle, Config.residentContexts, hslots, hpkg, if_true]

theorem decideStep_displaces (hleaving : s.noteWaiting.leaving = false) (hidle : s.noteWaiting.idleCtx = none)
    (hslots : 16 ≤ s.noteWaiting.slotsTaken) (hdisplaced : s.noteWaiting.displaced x = some n) :
    s.decideStep = s.noteWaiting.beginLeave n := by
  simp [decideStep, hnext, hidle, Config.residentContexts, hslots.not_gt, hleaving, hdisplaced]

end

/-! ### Pre-emption, step by step (R331 to R333) -/

section
variable (s n)

@[simp] theorem ctx_commandDone (m : BitVec 12) : (s.commandDone n).ctx m = s.ctx m := by unfold commandDone; split <;> rfl

@[simp] theorem cores_commandDone : (s.commandDone n).cores = s.cores := by unfold commandDone; split <;> rfl

@[simp] theorem homes_commandDone : (s.commandDone n).homes = s.homes := by unfold commandDone; split <;> rfl

@[simp] theorem ctx_endDebug (m : BitVec 12) : (s.endDebug n).ctx m = s.ctx m := rfl

@[simp] theorem cores_endDebug : (s.endDebug n).cores = s.cores := rfl

@[simp] theorem homes_endDebug : (s.endDebug n).homes = s.homes := rfl

end

theorem busy_commandDone (hcmd : s.ctxRegs.cmd = some n) : (s.commandDone n).ctxRegs.busy = false :=
  congrArg (fun t : State => t.ctxRegs.busy) (if_pos hcmd)

section
variable (hst : (s.ctx n).st = .leaving)
include hst

theorem preemptStep_begins (hphase : (s.ctx n).phase = 0)
    (hothers : ∀ m ∈ s.knownCtxs, (s.ctx m).st = .leaving → (s.ctx m).phase = 0) :
    s.preemptStep n = s.setCtx n { s.ctx n with phase := 1, phaseAt := s.cycle } := by
  refine if_pos ⟨hst, hphase, ?_⟩
  simpa using hothers

theorem saveStep_mutes (hrest : (s.ctx n).restoring = false) (hphase : (s.ctx n).phase = 1) (hgone : s.chordsGone n = true) :
    s.saveStep n = (s.muteCtx n).modCtx n fun x => { x with phase := 3 } := by
  simp [saveStep, hst, hrest, hphase, hgone]

theorem saveStep_spills (hrest : (s.ctx n).restoring = false) (hphase : (s.ctx n).phase = 3) (hquiet : s.quiet n = true) :
    s.saveStep n = ((nkeys s.cores).foldl (fun s c => s.spillCore n c) s).modCtx n fun x => { x with phase := 4 } := by
  simp [saveStep, hst, hrest, hphase, hquiet]

theorem saveStep_saves {u : State} (hrest : (s.ctx n).restoring = false) (hphase : (s.ctx n).phase = 4) (hsave : s.saveCtx n = some u) :
    s.saveStep n = u.modCtx n fun x => { x with phase := 5 } := by
  simp [saveStep, hst, hrest, hphase, hsave]

/-- What a context that has left its slot is, and that nothing beside it is changed on the cores or at the homes. -/
theorem savedStep_spec (hphase : (s.ctx n).phase = 5) :
    ((s.savedStep n).ctx n).st = (if (s.ctx n).toStop then .stopped else .saved) ∧ ((s.savedStep n).ctx n).saved = (s.ctx n).saved ∧
      ((s.savedStep n).ctx n).phase = 0 ∧ (s.savedStep n).cores = s.cores ∧ (s.savedStep n).homes = s.homes ∧
      (s.ctxRegs.cmd = some n → (s.savedStep n).ctxRegs.busy = false) := by
  rw [savedStep, if_pos ⟨hst, hphase⟩]
  exact ⟨by simp, by simp, by simp, by simp, by simp, fun hcmd => busy_commandDone hcmd⟩

end

theorem abandonStep_late {c slot : Nat} {ch : Chord} (hch : s.chord? c slot = some ch) (htodo : ch.todo = none) (hst : (s.ctx ch.ctx).st = .leaving)
    (hphase : (s.ctx ch.ctx).phase = 1) (hlate : (s.ctx ch.ctx).phaseAt + 16384 ≤ s.cycle) : s.abandonStep c slot =
      ((((ch.lanes.foldl (fun s l => s.abandonLane c ch l.2) s).dropChordEffs ch).dropReads c slot ch).delChord c slot).examineFifo c := by
  simp [abandonStep, hch, htodo, hst, hphase, Config.abandonCycles, hlate]

/-! ### Restore (R334, R336, R390) -/

section
variable (hst : (s.ctx n).st = .resident) (hrest : (s.ctx n).restoring = true)
include hst hrest

theorem restoreStep_refused (hbad : ∃ y ∈ (s.ctx n).saved, s.blockGood n y = false) : s.restoreStep n =
    ((s.ctx n).saved.foldl (fun s' y => s'.denyPages n ((s.ctx n).desc.save.toNat + 2 ^ 22 * y.core) (2 ^ 22)) s).refuseRestore n 5
      { cause := 0x11 } := by
  have hall : (s.ctx n).saved.all (fun y => s.blockGood n y) = false := by simpa using hbad
  simp only [restoreStep, hst, hrest, hall]
  rfl

variable (hgood : ∀ y ∈ (s.ctx n).saved, s.blockGood n y = true) (hgo : ((s.resumeAway n).ctx n).trapStop = none) {u : State}
include hgood hgo

theorem restoreStep_ready (hready : (s.resumeAway n).setUpTrap n = .ready u) :
    let v := (((s.ctx n).saved.foldl (fun s y => s.restoreCore n y) u).restoreCounters n).unmuteCtx n
    s.restoreStep n = (s.ctx n).resumes.foldl (fun s id => s.resumeCores n id)
      (v.modCtx n fun x => { x with restoring := false, saved := [], resumes := [], idleSince := v.cycle, trapRefused := false }) := by
  have hall : (s.ctx n).saved.all (fun y => s.blockGood n y) = true := by simpa using hgood
  simp only [restoreStep, hst, hrest, hall, hgo, hready]
  rfl

theorem restoreStep_fails (hfails : (s.resumeAway n).setUpTrap n = .fails u) : s.restoreStep n = (u.readDone n).refuseRestore n 1 {} := by
  have hall : (s.ctx n).saved.all (fun y => s.blockGood n y) = true := by simpa using hgood
  simp only [restoreStep, hst, hrest, hall, hgo, hfails]
  rfl

end

theorem natOfBytes_lt (l : List Byte) : natOfBytes l < 2 ^ (8 * l.length) := by
  induction l with
  | nil => exact Nat.one_pos
  | cons b r ih =>
    have hb := b.isLt
    rw [natOfBytes, List.length_cons, Nat.mul_succ, pow_add]
    omega

theorem blockGood_iff {y : SavedCore} {base : Nat} (hbase : (s.ctx n).desc.save.toNat + 2 ^ 22 * y.core = base) : s.blockGood n y = true ↔
    s.onOwnPages n base (2 ^ 22) = true ∧ s.blockBad n base = false ∧
      BitVec.ofNat 32 (natOfBytes (s.abytes n (base + 0x3FFFFC) 4)) = crc32 (s.blockBytes n y.core) := by
  have hlt : natOfBytes (s.abytes n (base + 0x3FFFFC) 4) < 2 ^ 32 := by
    have h := natOfBytes_lt (s.abytes n (base + 0x3FFFFC) 4)
    rwa [abytes, List.length_map, List.length_range] at h
  simp only [blockGood, hbase, crcAt, Bool.and_eq_true, Bool.not_eq_true', beq_iff_eq, and_assoc, ← BitVec.toNat_inj, BitVec.toNat_ofNat,
    Nat.mod_eq_of_lt hlt]

/-! ### Launches (R328, R329) -/

/-- Where a launch stands, the package knowing its context's descriptor. -/
theorem launchStep_of_work {i : Nat} {q : LReq} (hq : s.loader.queue[i]? = some q) (hstop : q.stop = none) :
    s.launchStep i = (s.launchWork i q).settleWait q.ctx := by
  simp [launchStep, hq, hstop]

section
variable {i : Nat} {q : LReq} (hvalid : ((s.loadDesc q.ctx).ctx q.ctx).desc.valid = true)
include hvalid

theorem launchWork_place {num : BitVec 16} {img : Image} (hnum : q.num = some num)
    (himg : (s.loadDesc q.ctx).loaded? q.ctx q.image.toNat = some img) : s.launchWork i q = (s.loadDesc q.ctx).placeStep i q num img := by
  simp [launchWork, hvalid, hnum, himg]

variable (hnum : q.num = none)
include hnum

theorem launchWork_desc {desc : Word} {vec : BitVec 11} (hhost : q.host = some (desc, vec)) (hstage : q.stage = 0) :
    s.launchWork i q = (s.loadDesc q.ctx).readDesc i q desc := by
  simp [launchWork, hvalid, hnum, hhost, hstage]

theorem launchWork_tables {h : Word × BitVec 11} (hhost : q.host = some h) (hstage : q.stage = 1) :
    s.launchWork i q = (s.loadDesc q.ctx).readTables i q := by
  simp [launchWork, hvalid, hnum, hhost, hstage]

theorem launchWork_image (h : q.host = none ∨ 2 ≤ q.stage) : s.launchWork i q = (s.loadDesc q.ctx).readStep i q := by
  cases hhost : q.host with
  | none => simp [launchWork, hvalid, hnum, hhost]
  | some d =>
    have hstage : 2 ≤ q.stage := h.resolve_left (by simp [hhost])
    simp [launchWork, hvalid, hnum, hhost, show q.stage ≠ 0 by omega, show q.stage ≠ 1 by omega]

end

section
variable {i : Nat} {q : LReq}

theorem readDesc_ok {desc : Word} {bs : List Byte} {u : State} {q' : LReq} (halign : desc.toNat % 64 = 0)
    (hread : loaderBytes s q.ctx 0 desc.toNat 64 = .ok (bs, u)) (hdesc : q.ofDesc bs = some q') :
    s.readDesc i q desc = (u.bump.readDone q.ctx).setReq i q' := by
  simp only [readDesc, hread, halign, hdesc, if_true]

theorem readTables_ok {ps pl : List Byte} {u v : State} {place : List (BitVec 12 × List Nat)}
    (hparams : loaderBytes s q.ctx 0 q.paramVa.toNat (8 * q.nparam) = .ok (ps, u))
    (htable : loaderBytes u q.ctx 0 q.placeVa.toNat (48 * q.nplace) = .ok (pl, v)) (hplace : placementOf pl q.nplace = some place) :
    s.readTables i q = (v.bump.readDone q.ctx).setReq i { q with
      stage := 2, placement := place, params := (List.range q.nparam).map fun k => BitVec.ofNat 64 (bytesAt ps (8 * k) 8) } := by
  simp only [readTables, hparams, htable, hplace]

theorem readStep_assigns {img : Image} {e : BitVec 32 × BitVec 4} {a : BitVec 16} (hfrom : q.from_ = none)
    (himg : s.loaded? q.ctx q.image.toNat = some img) (hentry : img.entries[q.entry]? = some e) (he : e.1 ≠ 0) (ha : s.nextNumber q.ctx = some a) :
    s.readStep i q = (s.setReq i { q with num := some a }).modCtx q.ctx fun x => { x with lastAct := a } := by
  simp only [readStep, himg, assign, hfrom, hentry, if_neg he, ha]
  rfl

/-- What decides the package's own number is the owner's. -/
theorem pkg_of_ownersPart {t : State} (h : t.ownersPart = s.ownersPart) : t.pkg = s.pkg := (congrArg State.pkg h :)

theorem ownersPart_flushAll {t : State} {c : Nat} (h : s.flushAll c = some t) : t.ownersPart = s.ownersPart := by
  obtain ⟨u, hu, rfl⟩ := Option.map_eq_some_iff.1 h
  exact ((Frame.foldl (fun s l => writeBackLine_frame (u := {}) s c l) (s.core c).l1 s).trans (drainHome_frame hu)).owners

theorem ownersPart_freshAccs (s : State) (c : Nat) : (s.freshAccs c).ownersPart = s.ownersPart := by
  unfold freshAccs
  split <;> rfl

theorem ownersPart_setRoles {t : State} {c : Nat} {roles : BitVec 64} (h : s.setRoles c roles = some t) : t.ownersPart = s.ownersPart := by
  rw [setRoles] at h
  dsimp only at h
  split at h
  · cases h
    exact ownersPart_freshAccs s c
  · obtain ⟨u, hu, rfl⟩ := Option.map_eq_some_iff.1 h
    exact (ownersPart_flushAll hu).trans (ownersPart_freshAccs s c)

theorem ownersPart_placeCores {key : Nat} {d : Desc} {img : Image} {l : List Nat} {t : State} (h : placeCores key d img l s = some t) :
    t.ownersPart = s.ownersPart := by
  induction l generalizing s with
  | nil => cases h; rfl
  | cons c r ih =>
    rw [placeCores] at h
    split at h
    · cases h
    · next u hu =>
      split at h
      · cases h
      · refine (ih h).trans (show u.ownersPart = _ from ?_)
        split at hu
        · exact ownersPart_setRoles hu
        · cases hu; rfl

/-- A launch whose one package is this one, and whose cores have room, is placed. -/
theorem placeStep_alone {num : BitVec 16} {img : Image} {mask cores : List Nat} {u : State} (hfrom : q.from_ = none) (hphase : q.phase = 0)
    (hplace : q.placement = [(s.pkg, mask)]) (hanswers : q.answers = []) (hworld : ∀ c ∈ mask, s.coreSecure c = (s.ctx q.ctx).desc.secure)
    (hst : (s.ctx q.ctx).st = .resident) (hrest : (s.ctx q.ctx).restoring = false) (hcores : s.ownCores (s.ctx q.ctx).desc img mask = some cores)
    (hroom : placeCores (actKey q.ctx num) (s.ctx q.ctx).desc img cores s = some u) : s.placeStep i q num img =
      ((u.bump.setAct (actKey q.ctx num)
        { ctx := q.ctx, act := num, image := img.va, size := img.size, consts := constBank img q.params, pkgs := [(s.pkg, cores)],
          plan := img.plan, count := q.count, launcher := q.launcher, notify := q.notify, host := q.host.map fun h => (q.record, h.2),
          entry := (img.entries[q.entry]?).getD (0, 0), home := none }).placeTrap q.ctx).goStep i q num ((img.entries[q.entry]?).getD (0, 0)) := by
  have hpkg : u.pkg = s.pkg := pkg_of_ownersPart (ownersPart_placeCores hroom)
  have hmask : (mask.any fun c => s.coreSecure c != (s.ctx q.ctx).desc.secure) = false := by simpa using hworld
  simp [placeStep, elsewhere, hfrom, hphase, hplace, hanswers, hmask, hst, hrest, hcores, hroom, hpkg]

end

/-! ### End orders (R335) -/

theorem endOrderStep_ends {act : BitVec 16} {a : Act} (hact : s.act? (actKey n act) = some a) (hending : a.ending = true)
    (hidle : ∀ p ∈ s.cores, p.2.committing n act = false) (hcmd : (s.discardAct n act).ctxRegs.cmd ≠ some n) :
    s.endOrderStep n act = s.discardAct n act := by
  have hany : (s.cores.any fun p => p.2.committing n act) = false := by simpa using hidle
  have hend : s.endStep n act = s.discardAct n act := by simp [endStep, hact, hending, hany]
  rw [endOrderStep, hend]
  exact if_neg fun h => hcmd h.1

/-! ### Commands (R326, R327) -/

theorem ctxCommand_of_idle {m : Master} (hboot : s.sec.bootState = 2) (howned : s.owned m = true) (hbusy : s.ctxRegs.busy = false)
    (f : State → State) : s.ctxCommand m f = f { s with ctxRegs := { s.ctxRegs with err := 0 } } :=
  (ownerWrite_of_owned hboot howned _).trans (if_neg (ne_true_of_eq_false hbusy))

/-- While a command runs a further one is ignored. -/
theorem ctxCommand_of_busy {m : Master} (howned : s.owned m = true) (hbusy : s.ctxRegs.busy = true) (f : State → State) : s.ctxCommand m f = s := by
  by_cases hboot : s.sec.bootState = 2
  · exact (ownerWrite_of_owned hboot howned _).trans (if_pos hbusy)
  · exact ownerWrite_of_not_booted hboot _

theorem cmdPreempt_resident (hst : (s.ctx n).st = .resident) : s.cmdPreempt n =
    ((s.setCtx n { s.ctx n with st := .leaving, phase := 0 }).modCtx n fun x => { x with byCmd := true }).runCommand n := if_pos hst

theorem cmdPreempt_wrong (hst : (s.ctx n).st ≠ .resident) : s.cmdPreempt n = s.wrongState := if_neg hst

theorem cmdStop_resident (hst : (s.ctx n).st = .resident) :
    s.cmdStop n = (s.setCtx n { s.ctx n with st := .leaving, phase := 0, toStop := true }).runCommand n := by
  simp only [cmdStop, stopCtx, modCtx, hst]

theorem cmdStop_leaving (hst : (s.ctx n).st = .leaving) : s.cmdStop n = (s.setCtx n { s.ctx n with toStop := true }).runCommand n := by
  simp only [cmdStop, stopCtx, modCtx, hst]

theorem cmdStop_saved (hst : (s.ctx n).st = .saved) : s.cmdStop n = s.setCtx n { s.ctx n with st := .stopped } := by
  simp only [cmdStop, stopCtx, modCtx, hst]

theorem cmdStop_wrong (hst : (s.ctx n).st = .absent ∨ (s.ctx n).st = .stopped) : s.cmdStop n = s.wrongState := by
  obtain hst | hst := hst <;> simp only [cmdStop, hst]

theorem cmdResume_stopped (hst : (s.ctx n).st = .stopped) : s.cmdResume n =
    s.setCtx n { s.ctx n with st := .saved, parked := false, waitSince := if s.hasWork n then s.cycle else 0 } := if_pos hst

theorem cmdResume_wrong (hst : (s.ctx n).st ≠ .stopped) : s.cmdResume n = s.wrongState := if_neg hst

theorem cmdReload_away (hst : (s.ctx n).st = .saved ∨ (s.ctx n).st = .stopped) (hgood : s.descBroken n = false) :
    s.cmdReload n = s.readSyms n (s.tableDesc n).symtab.toNat := (if_pos hst).trans (if_neg (ne_true_of_eq_false hgood))

theorem cmdReload_wrong (hst : (s.ctx n).st = .resident ∨ (s.ctx n).st = .leaving ∨ (s.ctx n).st = .absent) : s.cmdReload n = s.wrongState :=
  if_neg (by obtain hst | hst | hst := hst <;> simp [hst])

end State

/-- Settles O52: residency, pre-emption, restore, launch and the commands, each step by the phase or the state in which it finds its context. -/
theorem schedulerSteps : Obligations.SchedulerSteps := by
  refine ⟨fun s x => ?residency, fun s n => ?preempt, fun s core slot ch hch htodo hst hphase hlate => ?abandon, fun s n => ?restore,
    fun s n y => State.blockGood_iff rfl, fun s i q hq hstop => ?launch, fun s n act a hact hending hidle hcmd => ?endOrder,
    fun s m n hboot howned hbusy => ?commands, fun s m n hbusy howned => ?ignored⟩
  case residency =>
    intro s0 hnext
    exact ⟨fun hstay hslots hpkg => congrArg Host.Outcome.next (State.decideStep_grants hnext hstay hslots hpkg),
      fun hleaving hidle hslots n hdisplaced => congrArg Host.Outcome.next (State.decideStep_displaces hnext hleaving hidle hslots hdisplaced)⟩
  case preempt =>
    intro x hst
    refine ⟨fun hphase hothers => ?_, fun hrest hphase hgone => ?_, fun hrest hphase hquiet => ?_, fun hrest hphase u hsave => ?_,
      fun hphase => ?_⟩
    · exact congrArg Host.Outcome.next (State.preemptStep_begins hst hphase hothers)
    · exact congrArg Host.Outcome.next (State.saveStep_mutes hst hrest hphase hgone)
    · exact congrArg Host.Outcome.next (State.saveStep_spills hst hrest hphase hquiet)
    · exact congrArg Host.Outcome.next (State.saveStep_saves hst hrest hphase hsave)
    · exact ⟨_, rfl, State.savedStep_spec hst hphase⟩
  case abandon => exact congrArg Host.Outcome.next (State.abandonStep_late hch htodo hst hphase hlate)
  case restore =>
    intro x s1 hst hrest
    refine ⟨fun hbad => ?_, fun hgood hgo => ⟨fun u hready => ?_, fun u hfails => ?_⟩⟩
    · exact congrArg Host.Outcome.next (State.restoreStep_refused hst hrest hbad)
    · exact congrArg Host.Outcome.next (State.restoreStep_ready hst hrest hgood hgo hready)
    · exact congrArg Host.Outcome.next (State.restoreStep_fails hst hrest hgood hgo hfails)
  case launch =>
    intro s0 hvalid
    have hstep (t : State) (hwork : s.launchWork i q = t) : exec (.launchRequest i) s = .next (t.settleWait q.ctx) :=
      congrArg Host.Outcome.next ((State.launchStep_of_work hq hstop).trans (congrArg (·.settleWait q.ctx) hwork))
    refine ⟨fun desc vec bs u hnum hhost hstage halign hread q' hdesc => ?_, fun h ps u pl v place hnum hhost hstage hparams htable hplace => ?_,
      fun img e a hnum hfrom hstage himg hentry he ha => ?_, fun num img hnum himg => ?_, fun num img mask cores u => ?_⟩
    · exact hstep _ ((State.launchWork_desc hvalid hnum hhost hstage).trans (State.readDesc_ok halign hread hdesc))
    · exact hstep _ ((State.launchWork_tables hvalid hnum hhost hstage).trans (State.readTables_ok hparams htable hplace))
    · refine ⟨_, hstep _ ((State.launchWork_image hvalid hnum hstage).trans (State.readStep_assigns hfrom himg hentry he ha)), rfl, ?_⟩
      simp [State.settleWait]
    · exact hstep _ (State.launchWork_place hvalid hnum himg)
    · intro d key e hnum himg hfrom hphase hplace hanswers hworld hst hrest hcores hroom a
      exact hstep _ ((State.launchWork_place hvalid hnum himg).trans
        (State.placeStep_alone hfrom hphase hplace hanswers hworld hst hrest hcores hroom))
  case endOrder => exact congrArg Host.Outcome.next (State.endOrderStep_ends hact hending hidle hcmd)
  case commands =>
    intro s0 run bad x
    have hcommand (f : State → State) : s.ctxCommand m f = f s0 := State.ctxCommand_of_idle hboot howned hbusy f
    refine ⟨fun hst => ⟨?_, ?_⟩, fun hst => ?_, fun hst => ?_, fun hst => ?_, fun hst => ?_, fun hst => ?_, fun hst => ?_, ?_,
      fun hst hgood => ?_, fun hst => ?_⟩
    all_goals refine congrArg Host.Outcome.next ((hcommand _).trans ?_)
    · exact State.cmdPreempt_resident hst
    · exact State.cmdStop_resident hst
    · exact State.cmdPreempt_wrong hst
    · exact State.cmdStop_leaving hst
    · exact State.cmdStop_saved hst
    · exact State.cmdStop_wrong hst
    · exact State.cmdResume_stopped hst
    · exact State.cmdResume_wrong hst
    · rfl
    · exact State.cmdReload_away hst hgood
    · exact State.cmdReload_wrong hst
  case ignored =>
    have hignored (f : State → State) : s.ctxCommand m f = s := State.ctxCommand_of_busy howned hbusy f
    exact ⟨congrArg Host.Outcome.next (hignored _), congrArg Host.Outcome.next (hignored _), congrArg Host.Outcome.next (hignored _),
      congrArg Host.Outcome.next (hignored _), congrArg Host.Outcome.next (hignored _)⟩

end Sys2Proof.Machine
